-- ==== Sys2Proof/Word.lean ====
section
/-! DEFINITION. The word types and the two shapes in which sparse state is held. -/

namespace Sys2Proof

/-- One byte of a memory (R6). -/
abbrev Byte := BitVec 8
/-- One 32-bit register word (R42). -/
abbrev W32 := BitVec 32
/-- One 64-bit value: a pointer, a PC, a tick (R13, R308). -/
abbrev W64 := BitVec 64

/-- A sparse map from numbers to plain values: keys strictly rising, and no entry that equals
what an unlisted key reads as. -/
abbrev SMap (α : Type) := List (Nat × α)

/-- A table of records by number. -/
abbrev Table (α : Type) := List (Nat × α)

end Sys2Proof
end

