-- ==== Sys2Proof/Fields.lean ====
section
/-! DEFINITION. The operand and field types of an instruction, one constructor per value that the
field tables of spec/03 and spec/05 give. -/

namespace Sys2Proof

/-- A lane pattern (R55). -/
inductive Pat where
  | ident | rot (p : Fin 32) | bc (p : Fin 32) | bf (p : Fin 32)
  deriving DecidableEq, Repr

/-- A source specifier (R42); `lit` carries the trailing literal word (R44). -/
inductive Src where
  | v (n : Fin 128) | c (n : Fin 64) | imm (k : Fin 32) | q (n : Fin 8) | o (n : Fin 8)
  | h0 | h1 | lit (w : W32) | lane | grp
  deriving DecidableEq, Repr

/-- An operand field: specifier and pattern (R55, R75). -/
structure Opnd where
  src : Src
  pat : Pat := .ident
  deriving DecidableEq, Repr

/-- A destination specifier (R48). -/
inductive Dst where
  | v (n : Fin 128) | q (n : Fin 8) | o (n : Fin 8) | none
  deriving DecidableEq, Repr

/-- A register that a control instruction tests or reads (R78). -/
inductive Creg where
  | v (n : Fin 128) | o (n : Fin 8) | h0 | h1
  deriving DecidableEq, Repr

/-- The integer types of the integer group (R87). -/
inductive ITy where
  | i32 | z32 | i64 | z64
  deriving DecidableEq, Repr

/-- The scalar float types of R104. -/
inductive FTy where
  | f32 | f16 | bf16
  deriving DecidableEq, Repr

/-- A number format: TYPE code with its P8D refinement for b8 (R61, R62). -/
inductive Fmt where
  | i32 | z32 | i16 | z16 | i8 | z8 | i64 | z64 | f32 | f16 | bf16 | f64
  | b8 (uns inf : Bool) (pm1 : Fin 8)
  | e4m3 | e5m2 | e2m3 | e3m2 | e2m1 | mxint8 | e8m0
  deriving DecidableEq, Repr

/-- A rounding field (R79); `dyn` is 000, FMODE.RM of the lane. -/
inductive Rnd where
  | dyn | rne | rtz | rup | rdn | rna | sr
  deriving DecidableEq, Repr

/-- An integer condition (R90). -/
inductive Cc where
  | eq | ne | lt | le | gt | ge
  deriving DecidableEq, Repr

/-- A float condition (R105). -/
inductive Fcc where
  | eq | ne | lt | le | gt | ge | un
  deriving DecidableEq, Repr

/-- The mode of `vote` (R91). -/
inductive Vote where
  | all | any | ballot | uni
  deriving DecidableEq, Repr

/-- DIR of `cvt` (R111): which side is fixed. -/
inductive Dir where
  | fromF32 | toF32 | fromF64 | toF64
  deriving DecidableEq, Repr

/-- Block size of `quant` (R112). -/
inductive Blk where
  | b16 | b32 | b64 | b128
  deriving DecidableEq, Repr

/-- Access size (R79). -/
inductive Size where
  | b | h | w | d | q | e
  deriving DecidableEq, Repr

/-- SEM of ORD (R79). -/
inductive Sem where
  | plain | rlx | acqrel | sc
  deriving DecidableEq, Repr

/-- SCOPE of ORD (R18, R79). -/
inductive Scope where
  | core | quad | die | pkg | pod
  deriving DecidableEq, Repr

/-- The ORD field. -/
structure Ord where
  sem : Sem
  scope : Scope
  deriving DecidableEq, Repr

/-- The fence kinds of R140. -/
inductive FenceKind where
  | rlx | acq | rel | ar | sc
  deriving DecidableEq, Repr

/-- The CK tests of `brc` (R79). -/
inductive Ck where
  | nz | z | neg
  deriving DecidableEq, Repr

/-- The duration of `sleep` (R101). -/
inductive SleepArg where
  | ticks (n : Fin 32768) | reg (c : Creg)
  deriving DecidableEq, Repr

/-- PATH of `drain` (R146). -/
inductive Path where
  | scratch | priv | device | acc
  deriving DecidableEq, Repr

/-- A barrier name (R147), without the ARR bit. -/
structure BarId where
  scope : Scope
  index : Fin 64
  deriving DecidableEq, Repr

/-- OPK of `csrw` (R165). -/
inductive CsrOp where
  | write | set | clr
  deriving DecidableEq, Repr

/-- The per-lane CSRs (R291). -/
inductive Csr where
  | fmode | srseed | srcnt | regpc | regcnt | mstat | txpc | tscratch | tvec | tcause | txval | hvec
  deriving DecidableEq, Repr

/-- The special registers (R167). -/
inductive Sreg where
  | launchid | cblen | galtime | kclass | accept | coreclk | privsz | sgfault | svscr | asid
  | coremap | vmid
  deriving DecidableEq, Repr

/-- A reliability or read class (R174, R337). -/
inductive RClass where
  | proof | check | draft
  deriving DecidableEq, Repr

/-- Where a stored error arises (R204, R337, R338): an HBM4 sector of n bytes, a word of the tables that an owner keeps (edition
metadata, descriptors, translation tables, landing maps), a register word, a scratch or private sector, an accumulator word, the word of
a Press bank that holds a cell. -/
inductive ErrPlace where
  | hbm (addr n : Nat) | table (addr : Nat) | reg (uid lane n : Nat) | scratch (gang addr : Nat)
  | priv (uid lane addr : Nat) | acc (gang word : Nat) | bank (gang n cell : Nat)
  deriving DecidableEq, Repr

/-- What the checks make of an error when it is read (R338). -/
inductive ErrKind where
  | corrected | detected | miscorrected
  deriving DecidableEq, Repr

/-- The access of the host processor to its memory (R333): a read, a plain store, or an atomic exchange
of an aligned word. -/
inductive HostAccess where
  | read | store (bytes : List Byte) | atomic (bytes : List Byte)
  deriving DecidableEq, Repr

end Sys2Proof
end

