-- ==== Sys2Proof/Config.lean ====
section
/-! DEFINITION. What an implementation fixes and what the manual leaves open. The opaque constants are
free values: no proof can see what they are, so a theorem about the machine holds for every one of them. -/

namespace Sys2Proof.Config

/-- The free choice of R2: which of the possible moves the device makes next (index modulo their number),
by the free-value counter of State (assumption 1). -/
opaque nextMove : Nat → Nat
/-- A word the manual gives no value for, by the free-value counter of State. -/
opaque freeWord : Nat → W64
/-- A byte the manual gives no value for, by the free-value counter of State. -/
opaque freeByte : Nat → Byte
/-- A byte that nothing fixes at a place, the same wherever one step of the device reads it: of another package's memory by pointer, or
of a frame read in a class that it was not written in by 2^64 + key. -/
opaque openByte : Nat → Nat → Byte
/-- Whether a page of another package is ordinary, by VMID, ASID and page: R217 forwards stores of such pages alone. -/
opaque peerPlain : Nat → Nat → Nat → Bool
/-- What an element of a page of another package is, by VMID, ASID and page: bits 4 to 0 its ELEMFMT, 9 to 5 its P8D, 10 whether it is
block-scaled (R128). -/
opaque peerFmt : Nat → Nat → Nat → Nat
/-- The landing bit of a slot on a page of another package, in a step of the device. -/
opaque peerLanding : Nat → Nat → Bool
/-- What another package answers for a page of its own (R308, R318), by VMID, ASID, page, access kind and mode: 0 the page serves
the access, 1 it does not permit it, from 2 on it is not present: WHERE is this less 2. -/
opaque peerReach : Nat → Nat → Nat → Nat → Nat → Nat
/-- Whether an access uses the tables rather than a held translation that differs from them (R315, R317), by step of the device, the
owner's context entry and offset. -/
opaque newEntry : Nat → Nat → Nat → Bool
/-- The e8m0 code of a value (sign, m * 2^e) that is not positive or that rounds to less than its least value (R65 states none). -/
opaque roundE8m0 : Bool → Nat → Int → BitVec 8
/-- Features of the part (R325): bits 0 to 6 offered. -/
def feat0 : W32 := 0x7F#32
/-- TRBLK at reset (R322: per part). -/
def trblk : W64 := 0x600000#64

end Sys2Proof.Config
end

