-- ==== Sys2Proof/Machine/Bits.lean ====
section
/-! DEFINITION. Bit fields, sign extension, byte order, and the two sparse containers of State. -/

namespace Sys2Proof.Machine

/-- Bits hi..lo of a number. -/
def bits (x hi lo : Nat) : Nat := x / 2 ^ lo % 2 ^ (hi + 1 - lo)

/-- One bit of a number. -/
def bit (x i : Nat) : Bool := x / 2 ^ i % 2 == 1

/-- 1 for true. -/
def b2n (b : Bool) : Nat := if b then 1 else 0

/-- The w-bit number x read as two's complement (Sext of the manual). -/
def sext (w x : Nat) : Int :=
  if x % 2 ^ w < 2 ^ (w - 1) then (x % 2 ^ w : Nat) else (x % 2 ^ w : Nat) - (2 ^ w : Nat)

/-- Wrap(x, w) of R87: x mod 2^w. -/
def wrap (w : Nat) (x : Int) : Nat := (x % (2 ^ w : Nat)).toNat

/-- x with bits hi..lo replaced by v. -/
def setBits (x hi lo v : Nat) : Nat :=
  x - bits x hi lo * 2 ^ lo + v % 2 ^ (hi + 1 - lo) * 2 ^ lo

/-- Little-endian value of a run of bytes (R6). -/
def leNat : List Byte → Nat
  | [] => 0
  | b :: bs => b.toNat + 256 * leNat bs

/-- The n little-endian bytes of x (R6). -/
def leBytes : Nat → Nat → List Byte
  | 0, _ => []
  | n + 1, x => BitVec.ofNat 8 x :: leBytes n (x / 256)

/-- Big-endian value of a run of code bytes (R24). -/
def beNat (bs : List Byte) : Nat := leNat bs.reverse

/-- The n big-endian bytes of x (R24). -/
def beBytes (n x : Nat) : List Byte := (leBytes n x).reverse

/-- What key k of a sparse map holds; d is what an unlisted key reads as. -/
def smGet {α : Type} (d : α) (m : SMap α) (k : Nat) : α :=
  match m with
  | [] => d
  | (i, v) :: t => if i = k then v else smGet d t k

/-- Insert (k, v) before the first greater key. -/
def smInsert {α : Type} (k : Nat) (v : α) : SMap α → SMap α
  | [] => [(k, v)]
  | (i, x) :: t => if k < i then (k, v) :: (i, x) :: t else (i, x) :: smInsert k v t

/-- Remove key k. -/
def smErase {α : Type} (k : Nat) : SMap α → SMap α
  | [] => []
  | (i, x) :: t => if i = k then smErase k t else (i, x) :: smErase k t

/-- Set key k to v, keeping the canonical form: the default value is not listed. -/
def smSet {α : Type} [DecidableEq α] (d : α) (m : SMap α) (k : Nat) (v : α) : SMap α :=
  if v = d then smErase k m else smInsert k v (smErase k m)

/-- The canonical form: keys strictly rising and no entry equal to the default. -/
def smWf {α : Type} [DecidableEq α] (d : α) : SMap α → Bool
  | [] => true
  | [(_, v)] => decide (v ≠ d)
  | (i, v) :: (j, w) :: t => decide (v ≠ d) && decide (i < j) && smWf d ((j, w) :: t)

/-- The record of number k. -/
def tGet? {α : Type} (t : Table α) (k : Nat) : Option α :=
  match t with
  | [] => none
  | (i, v) :: r => if i = k then some v else tGet? r k

/-- Put the record of number k, in place where there is one, else at the end. -/
def tPut {α : Type} (t : Table α) (k : Nat) (v : α) : Table α :=
  match t with
  | [] => [(k, v)]
  | (i, x) :: r => if i = k then (k, v) :: r else (i, x) :: tPut r k v

/-- Delete the record of number k. -/
def tDel {α : Type} (t : Table α) (k : Nat) : Table α :=
  match t with
  | [] => []
  | (i, x) :: r => if i = k then tDel r k else (i, x) :: tDel r k

/-- Change the record of number k, if there is one. -/
def tMod {α : Type} (t : Table α) (k : Nat) (f : α → α) : Table α :=
  match t with
  | [] => []
  | (i, x) :: r => if i = k then (i, f x) :: r else (i, x) :: tMod r k f

/-- Element i of a list, d beyond its end. -/
def nth {α : Type} (d : α) (l : List α) (i : Nat) : α :=
  match l, i with
  | [], _ => d
  | x :: _, 0 => x
  | _ :: t, i + 1 => nth d t i

/-- Change element i of a list. -/
def modNth {α : Type} (l : List α) (i : Nat) (f : α → α) : List α :=
  match l, i with
  | [], _ => []
  | x :: t, 0 => f x :: t
  | x :: t, i + 1 => x :: modNth t i f

/-- Element i of a list set to v. -/
def setNth {α : Type} (l : List α) (i : Nat) (v : α) : List α := modNth l i (fun _ => v)

/-- Number of bits of x (0 for 0). -/
def bitLen (x : Nat) : Nat := if x = 0 then 0 else Nat.log2 x + 1

/-- XOR of the 16 nibbles of a 64-bit value (R28). -/
def xorNibbles : Nat → Nat → Nat
  | 0, _ => 0
  | n + 1, x => (x % 16) ^^^ xorNibbles n (x / 16)

/-- The lanes of a 32-bit lane mask, lowest first. -/
def maskLanes (m : Nat) : List Nat := (List.range 32).filter (fun l => bit m l)

/-- The lane mask of a list of lanes without repeats. -/
def lanesMask (ls : List Nat) : Nat := ls.foldl (fun m l => if bit m l then m else m + 2 ^ l) 0

/-- Number of 1 bits (R88). -/
def popcW (w x : Nat) : Nat := ((List.range w).filter (fun i => bit x i)).length

end Sys2Proof.Machine
end

