-- ==== Sys2Proof/Machine/Formats.lean ====
section
/-! DEFINITION. Number formats (R61, R62), exact values, and Round (R65). -/

namespace Sys2Proof.Machine

/-- An exact value: NaN, an infinity, or the dyadic number (-1)^neg * m * 2^e. -/
inductive FVal where
  | nan (sig : Bool)
  | inf (neg : Bool)
  | fin (neg : Bool) (m : Nat) (e : Int)
  deriving DecidableEq, Repr

/-- The exception flags in the order of FMODE bits 8..4, as a five-bit number (R64, R66). -/
def fNV : Nat := 1
def fDZ : Nat := 2
def fOF : Nat := 4
def fUF : Nat := 8
def fNX : Nat := 16

/-- TYPE code (R61). -/
def fmtCode : Fmt → Nat
  | .i32 => 0 | .z32 => 1 | .i16 => 2 | .z16 => 3 | .i8 => 4 | .z8 => 5 | .i64 => 6 | .z64 => 7
  | .f32 => 8 | .f16 => 9 | .bf16 => 0xA | .f64 => 0xB | .b8 _ _ _ => 0xC | .e4m3 => 0xD
  | .e5m2 => 0xE | .e2m3 => 0xF | .e3m2 => 0x10 | .e2m1 => 0x11 | .mxint8 => 0x12 | .e8m0 => 0x13

/-- P8D field (R62). -/
def fmtP8d : Fmt → Nat
  | .b8 u i p => b2n u * 16 + b2n i * 8 + p.val
  | _ => 0

/-- The format of a TYPE code and a P8D field; none where the pair is reserved (R61, R62). -/
def fmtOf (ty p8d : Nat) : Option Fmt :=
  if ty = 0xC then
    if 32 ≤ p8d then none
    else if bit p8d 4 = false ∧ p8d % 8 = 7 then none
    else some (.b8 (bit p8d 4) (bit p8d 3) ⟨p8d % 8, Nat.mod_lt _ (by decide)⟩)
  else if p8d ≠ 0 then none
  else match ty with
  | 0 => some .i32 | 1 => some .z32 | 2 => some .i16 | 3 => some .z16 | 4 => some .i8
  | 5 => some .z8 | 6 => some .i64 | 7 => some .z64 | 8 => some .f32 | 9 => some .f16
  | 10 => some .bf16 | 11 => some .f64 | 13 => some .e4m3 | 14 => some .e5m2 | 15 => some .e2m3
  | 16 => some .e3m2 | 17 => some .e2m1 | 18 => some .mxint8 | 19 => some .e8m0
  | _ => none

/-- Width in bits (R61). -/
def fmtWidth : Fmt → Nat
  | .i32 | .z32 | .f32 => 32
  | .i16 | .z16 | .f16 | .bf16 => 16
  | .i64 | .z64 | .f64 => 64
  | .e2m3 | .e3m2 => 6
  | .e2m1 => 4
  | _ => 8

/-- An integer format; mx int8 counts as a float format (R61). -/
def fmtIsInt : Fmt → Bool
  | .i32 | .z32 | .i16 | .z16 | .i8 | .z8 | .i64 | .z64 => true
  | _ => false

/-- A format that block scaling applies to (R67). -/
def blockFmt : Fmt → Bool
  | .e4m3 | .e5m2 | .e2m3 | .e3m2 | .e2m1 | .mxint8 | .b8 .. => true
  | _ => false

/-- A BLOCK code that is no reserved combination with a format (R61, R67). -/
def fmtBlock (f : Fmt) (b : Nat) : Bool := b == 0 || (decide (b ≤ 4) && blockFmt f)

/-- A format without a sign: z8 to z64 and unsigned b8 (R65). -/
def fmtUnsigned : Fmt → Bool
  | .z32 | .z16 | .z8 | .z64 => true
  | .b8 u _ _ => u
  | _ => false

/-- Trailing significand width M (R61, R62). -/
def fmtM : Fmt → Nat
  | .f32 => 23 | .f16 => 10 | .bf16 => 7 | .f64 => 52
  | .b8 _ _ p => p.val
  | .e4m3 => 3 | .e5m2 => 2 | .e2m3 => 3 | .e3m2 => 2 | .e2m1 => 1
  | _ => 0

/-- Exponent bias (R61, R62). -/
def fmtBias : Fmt → Nat
  | .f32 => 127 | .f16 => 15 | .bf16 => 127 | .f64 => 1023
  | .b8 u _ p => if u then 2 ^ (7 - p.val) else 2 ^ (6 - p.val)
  | .e4m3 => 7 | .e5m2 => 15 | .e2m3 => 1 | .e3m2 => 3 | .e2m1 => 1 | .e8m0 => 127
  | _ => 0

/-- Canonical NaN code, where the format has a NaN (R61, R62). -/
def fmtNan : Fmt → Option Nat
  | .f32 => some 0x7FC00000 | .f16 => some 0x7E00 | .bf16 => some 0x7FC0
  | .f64 => some 0x7FF8000000000000 | .e4m3 => some 0x7F | .e5m2 => some 0x7E
  | .b8 u _ _ => some (if u then 0xFF else 0x80)
  | .e8m0 => some 0xFF
  | _ => none

/-- Code of an infinity, where the format has that one (R61, R62). -/
def fmtInf (f : Fmt) (neg : Bool) : Option Nat :=
  match f with
  | .f32 => some (if neg then 0xFF800000 else 0x7F800000)
  | .f16 => some (if neg then 0xFC00 else 0x7C00)
  | .bf16 => some (if neg then 0xFF80 else 0x7F80)
  | .f64 => some (if neg then 0xFFF0000000000000 else 0x7FF0000000000000)
  | .e5m2 => some (if neg then 0xFC else 0x7C)
  | .b8 u i _ => if i then (if u then (if neg then none else some 0xFE) else some (if neg then 0xFF else 0x7F)) else none
  | _ => none

/-- The format has infinities. -/
def fmtHasInf (f : Fmt) : Bool := (fmtInf f false).isSome

/-- Code of the largest finite magnitude of a sign: ±max finite, or an integer format's bound (R61, R65). -/
def fmtMax (f : Fmt) (neg : Bool) : Nat :=
  match f with
  | .i32 => if neg then 0x80000000 else 0x7FFFFFFF
  | .i16 => if neg then 0x8000 else 0x7FFF
  | .i8 | .mxint8 => if neg then 0x80 else 0x7F
  | .i64 => if neg then 0x8000000000000000 else 0x7FFFFFFFFFFFFFFF
  | .z32 => if neg then 0 else 0xFFFFFFFF
  | .z16 => if neg then 0 else 0xFFFF
  | .z8 => if neg then 0 else 0xFF
  | .z64 => if neg then 0 else 0xFFFFFFFFFFFFFFFF
  | .f32 => if neg then 0xFF7FFFFF else 0x7F7FFFFF
  | .f16 => if neg then 0xFBFF else 0x7BFF
  | .bf16 => if neg then 0xFF7F else 0x7F7F
  | .f64 => if neg then 0xFFEFFFFFFFFFFFFF else 0x7FEFFFFFFFFFFFFF
  | .b8 u i _ =>
    if u then (if neg then 0 else if i then 0xFD else 0xFE)
    else (if i then 0x7E else 0x7F) + (if neg then 0x80 else 0)
  | .e4m3 => if neg then 0xFE else 0x7E
  | .e5m2 => if neg then 0xFB else 0x7B
  | .e2m3 | .e3m2 => if neg then 0x3F else 0x1F
  | .e2m1 => if neg then 0xF else 0x7
  | .e8m0 => 0xFE

/-- The format has a −0: every signed float format of R61 but b8 and mx int8. -/
def fmtNegZero : Fmt → Bool
  | .f32 | .f16 | .bf16 | .f64 | .e4m3 | .e5m2 | .e2m3 | .e3m2 | .e2m1 => true
  | _ => false

/-- A NaN of this format may signal (R61). -/
def fmtSignals : Fmt → Bool
  | .f32 | .f16 | .bf16 | .f64 => true
  | _ => false

/-- An integer as an exact value. -/
def fvalOfInt (k : Int) : FVal := .fin (decide (k < 0)) k.natAbs 0

/-- The value of a code (R61, R62); higher bits of the code are ignored (R63). -/
def fmtDecode (f : Fmt) (code : Nat) : FVal :=
  let w := fmtWidth f
  let c := code % 2 ^ w
  if fmtIsInt f then fvalOfInt (if fmtUnsigned f then (c : Int) else sext w c)
  else if f = .mxint8 then .fin (decide (sext 8 c < 0)) (sext 8 c).natAbs (-6)
  else if f = .e8m0 then (if c = 0xFF then .nan false else .fin false 1 ((c : Int) - 127))
  else
    let neg := !fmtUnsigned f && bit c (w - 1)
    let body := if fmtUnsigned f then c else c % 2 ^ (w - 1)
    let M := fmtM f
    let e := body / 2 ^ M
    let m := body % 2 ^ M
    if some c = fmtInf f neg then .inf neg
    else if some c = fmtNan f then .nan false
    else if f = .e4m3 ∧ body = 0x7F then .nan false
    else if fmtNegZero f ∧ fmtHasInf f ∧ e = 2 ^ (w - 1 - M) - 1 then
      .nan (fmtSignals f && !bit m (M - 1))
    else if e = 0 then .fin neg m (1 - (fmtBias f : Int) - (M : Int))
    else .fin neg (2 ^ M + m) ((e : Int) - (fmtBias f : Int) - (M : Int))

/-- floor(log2 m) + e of a non-zero dyadic. -/
def dyLog2 (m : Nat) (e : Int) : Int := (Nat.log2 m : Int) + e

/-- Quotient, remainder and divisor of m * 2^e by 2^q. -/
def dyDiv (m : Nat) (e q : Int) : Nat × Nat × Nat :=
  if q ≤ e then (m * 2 ^ (e - q).toNat, 0, 1)
  else (m / 2 ^ (q - e).toNat, m % 2 ^ (q - e).toNat, 2 ^ (q - e).toNat)

/-- m1 * 2^e1 > m2 * 2^e2. -/
def dyGt (m1 : Nat) (e1 : Int) (m2 : Nat) (e2 : Int) : Bool :=
  if e1 ≤ e2 then decide (m1 > m2 * 2 ^ (e2 - e1).toNat) else decide (m1 * 2 ^ (e1 - e2).toNat > m2)

/-- Step 4 of R65 on a grid: is hi chosen, for quotient k, remainder rem > 0 of divisor d; `odd` is
whether lo has an odd last bit; r is the stochastic draw. -/
def roundUp (mode : Rnd) (neg : Bool) (odd : Bool) (rem d r : Nat) : Bool :=
  match mode with
  | .rne | .dyn => decide (2 * rem > d) || (decide (2 * rem = d) && odd)
  | .rtz => false
  | .rup => !neg
  | .rdn => neg
  | .rna => decide (2 * rem ≥ d)
  | .sr => decide (rem * 2 ^ 32 > r * d)

/-- The outcome of Round: code, raised flags, and whether a stochastic draw was used. -/
structure Rounded where
  code : Nat
  flags : Nat := 0
  drew : Bool := false
  deriving DecidableEq, Repr

/-- Exponent of the least step of a format: its subnormal quantum. -/
def fmtQmin (f : Fmt) : Int :=
  if fmtIsInt f then 0 else if f = .mxint8 then -6
  else if f = .e8m0 then -127 else 1 - (fmtBias f : Int) - (fmtM f : Int)

/-- The quantum of values of exponent E. -/
def fmtQ (f : Fmt) (E : Int) : Int :=
  if fmtIsInt f ∨ f = .mxint8 then fmtQmin f else max (E - (fmtM f : Int)) (fmtQmin f)

/-- A finite code from sign and magnitude k * 2^q, k at most 2^(M+1). -/
def fmtEncode (f : Fmt) (neg : Bool) (k : Nat) (q : Int) : Nat :=
  let w := fmtWidth f
  if fmtIsInt f ∨ f = .mxint8 then wrap w (if neg then -(k : Int) else k)
  else if f = .e8m0 then (q + (Nat.log2 k : Int) + 127).toNat
  else
    let M := fmtM f
    let k1 := if k = 2 ^ (M + 1) then 2 ^ M else k
    let q1 := if k = 2 ^ (M + 1) then q + 1 else q
    let body := if k1 < 2 ^ M then k1 else (q1 + (M : Int) + (fmtBias f : Int)).toNat * 2 ^ M + (k1 - 2 ^ M)
    if neg && (fmtNegZero f || body != 0) && !fmtUnsigned f then body + 2 ^ (w - 1) else body

/-- lo of the grid has an odd last bit: of its code's trailing field, or, where M = 0, of its exponent field. -/
def gridOdd (f : Fmt) (k : Nat) (q : Int) : Bool :=
  if fmtM f = 0 ∧ !fmtIsInt f ∧ f ≠ .mxint8 then (k != 0) && decide ((q + (fmtBias f : Int)) % 2 = 1)
  else decide (k % 2 = 1)

/-- Round into e8m0 of a positive value of exponent E below its least value 2^-127: that value where the mode goes up to it, else a value
that e8m0 does not have, whose code R65 does not state (assumption 15). -/
def roundBelow (mode : Rnd) (r m : Nat) (e E : Int) : Rounded :=
  let d := dyDiv m e E
  let up := d.2.1 != 0 && roundUp mode false (decide (E % 2 = 0)) d.2.1 d.2.2 r
  if up && decide (E = -128) then ⟨0, fNX, decide (mode = .sr)⟩
  else ⟨(Config.roundE8m0 false m e).toNat, fNX + fUF, decide (mode = .sr)⟩

/-- Round of a finite non-zero value, steps 3 to 6 of R65. A value beyond max finite that lies on the grid of unbounded exponent is taken as lo,
and the flags into e8m0 of what it cannot hold are the model's choice (assumption 15). -/
def roundFin (f : Fmt) (mode : Rnd) (sat : Bool) (r : Nat) (neg : Bool) (m : Nat) (e : Int) : Rounded :=
  let lim : Int := 1100
  -- far outside every format: the same neighbours, with smaller numbers
  let E0 := dyLog2 m e
  let e := if E0 > lim then e - (E0 - lim) else e
  let qm := fmtQmin f
  let me : Nat × Int := if E0 < qm - 40 then (1, qm - 40) else (m, e)
  let m := me.1
  let e := me.2
  let E := dyLog2 m e
  if f = .e8m0 ∧ neg then ⟨(Config.roundE8m0 neg m e).toNat, fNX, decide (mode = .sr)⟩
  else if f = .e8m0 ∧ E < -127 then roundBelow mode r m e E
  else
  let q := fmtQ f E
  let d := dyDiv m e q
  let inexact := d.2.1 != 0
  let up := inexact && roundUp mode neg (gridOdd f d.1 q) d.2.1 d.2.2 r
  let k := if up then d.1 + 1 else d.1
  let tooBig := match fmtDecode f (fmtMax f neg) with
    | .fin _ M Q => dyGt k q M Q
    | _ => false
  -- step 4 is reached by what is not representable
  let drew := decide (mode = .sr) && (inexact || tooBig || (fmtUnsigned f && neg))
  let nx := if inexact then fNX else 0
  if fmtUnsigned f && neg && k != 0 then ⟨0, fNV + fNX, drew⟩
  else
    if tooBig then
      if fmtIsInt f then ⟨fmtMax f neg, fNV + fNX, drew⟩
      else
        let towardZero := match mode with
          | .rtz => true
          | .rup => neg
          | .rdn => !neg
          | .sr => !up
          | _ => false
        if sat || towardZero then ⟨fmtMax f neg, fOF + fNX, drew⟩
        else match fmtInf f neg with
          | some c => ⟨c, fOF + fNX, drew⟩
          | none => match fmtNan f with
            | some c => ⟨c, fOF + fNX, drew⟩
            | none => ⟨fmtMax f neg, fOF + fNX, drew⟩
    else
      let isF := !fmtIsInt f && f != .mxint8
      let emin : Int := 1 - (fmtBias f : Int)
      let uf :=
        if isF && inexact && decide (E < emin) && f != .e8m0 then
          let q2 := E - (fmtM f : Int)
          let d2 := dyDiv m e q2
          let up2 := d2.2.1 != 0 && roundUp mode neg (gridOdd f d2.1 q2) d2.2.1 d2.2.2 r
          let k2 := if up2 then d2.1 + 1 else d2.1
          if dyGt 1 emin k2 q2 then fUF else 0
        else 0
      ⟨fmtEncode f neg k q, nx + uf, drew⟩

/-- The zero of a sign. -/
def fmtZero (f : Fmt) (neg : Bool) : Nat := if neg && fmtNegZero f then 2 ^ (fmtWidth f - 1) else 0

/-- Round(x, fmt, mode, sat) of R65; r is the draw KHash(SRSEED, SRCNT, 0xFFFF)[63..32]. -/
def round (f : Fmt) (mode : Rnd) (sat : Bool) (r : Nat) (x : FVal) : Rounded :=
  match x with
  | .nan sig =>
    match fmtNan f with
    | some c => ⟨c, if sig then fNV else 0, false⟩
    | none => ⟨0, fNV, false⟩
  | .inf neg =>
    if f = .e8m0 ∧ neg then ⟨(Config.roundE8m0 true 0 0).toNat, fNV, false⟩
    else if fmtUnsigned f && neg then ⟨0, fNV, false⟩
    else
      let nv := if fmtIsInt f || (!fmtHasInf f && (fmtNan f).isNone) then fNV else 0
      match fmtInf f neg with
      | some c => if sat then ⟨fmtMax f neg, nv, false⟩ else ⟨c, 0, false⟩
      | none => ⟨fmtMax f neg, nv, false⟩
  | .fin neg m e =>
    if m = 0 then
      (if f = .e8m0 then ⟨(Config.roundE8m0 neg 0 0).toNat, fNX, decide (mode = .sr)⟩ else ⟨fmtZero f neg, 0, false⟩)
    else roundFin f mode sat r neg m e

/-- Round of an exact value that needs no draw and whose flags are not used, with RNE (engines, R66). -/
def roundNE (f : Fmt) (x : FVal) : Nat := (round f .rne false 0 x).code

/-- k is exactly representable in a float format (R43). -/
def immFits (f : Fmt) (k : Int) : Bool :=
  if f = .e8m0 then decide (0 < k) && decide (k.natAbs = 2 ^ Nat.log2 k.natAbs)
  else if fmtUnsigned f && decide (k < 0) then false
  else match fmtDecode f (round f .rtz true 0 (fvalOfInt k)).code with
    | .fin n m e => !dyGt m e k.natAbs 0 && !dyGt k.natAbs 0 m e && (k == 0 || n == decide (k < 0))
    | _ => false

/-- KHash of R72, 64 bits. -/
def kHash (seed coord stream : Nat) : Nat :=
  let x0 := (seed % 2 ^ 64) ^^^ (coord * 0xB7E151628AED2A6B % 2 ^ 64) ^^^ (stream * 2 ^ 48 % 2 ^ 64)
  let rnd (x sh m : Nat) : Nat := (x ^^^ (x / 2 ^ sh)) * m % 2 ^ 64
  let x := rnd (rnd (rnd (rnd x0 32 0x8B4E6C1DF2A39575) 29 0xC6A13E7B5D094F2D) 32 0xA3D719B5E64C8A1F) 29 0xF0E52B897C3D61A9
  x ^^^ (x / 2 ^ 31)

end Sys2Proof.Machine
end

