-- ==== Sys2Proof/Syntax.lean ====
section
/-! DEFINITION. Instr, the whole opcode table: every instruction in its long and its short form,
and every step of the device that spec/opcode_table.json lists (spec/95). -/

namespace Sys2Proof

/-- What DELIVER brings: what another package returns, ignored otherwise; or with `pod` another package's arrival at a pod barrier of a launch
(R17, R148): launch, index, count; or with `gate` that its counter under which a task is held has reached 0 (R157): the task. -/
structure Answer where
  bytes : List Byte
  pod : Option (Nat × Nat × Nat) := none
  gate : Option Nat := none
  deriving DecidableEq, Repr

/-- Cells of a die's remote view (R216): n of them from a key on. -/
structure Cells where
  key : Nat
  n : Nat
  deriving DecidableEq, Repr

/-- An engine's work and how many of its steps one move makes (R269, R273, R282). -/
structure Paced where
  of : Nat
  n : Nat
  deriving DecidableEq, Repr

/-- Who comes to a collective (R282): the next entry of a die's queue, or with `peer` a member on another package: its context, its record
and the elements of its input. -/
structure Comer where
  die : Nat
  peer : Option (Nat × List Byte × List Nat)
  deriving DecidableEq, Repr

/-- A write of CTXCTL of a context block (R323). -/
structure CtxctlWrite where
  ctx : Nat
  x : W32
  deriving DecidableEq, Repr

/-- Where an execution pipe errs (R341): in the set that the slot's pipe issues now where `result` is 0, else in a scoreboarded result of that
number. -/
structure Struck where
  slot : Nat
  result : Nat
  deriving DecidableEq, Repr

/-- One constructor per row of spec/opcode_table.json. -/
inductive Instr where
  /-- NOP (R93). -/
  | nop
  /-- MOV (R88). -/
  | mov (t : ITy) (d : Dst) (a : Opnd)
  /-- IADD (R88). -/
  | iadd (t : ITy) (sat : Bool) (d : Dst) (a b : Opnd)
  /-- ISUB (R88). -/
  | isub (t : ITy) (sat : Bool) (d : Dst) (a b : Opnd)
  /-- IMUL (R88). -/
  | imul (t : ITy) (sat : Bool) (d : Dst) (a b : Opnd)
  /-- IMULH (R88; `uns` is TYPE z32). -/
  | imulh (uns : Bool) (d : Dst) (a b : Opnd)
  /-- IADDW (R88; `uns` is TYPE z32). -/
  | iaddw (uns : Bool) (d : Dst) (a b : Opnd)
  /-- IMULW (R88; `uns` is TYPE z32). -/
  | imulw (uns : Bool) (d : Dst) (a b : Opnd)
  /-- IMAD (R92). -/
  | imad (d : Dst) (a b c : Opnd)
  /-- IMIN (R88). -/
  | imin (t : ITy) (d : Dst) (a b : Opnd)
  /-- IMAX (R88). -/
  | imax (t : ITy) (d : Dst) (a b : Opnd)
  /-- IABS (R88; `wide` is TYPE i64). -/
  | iabs (wide sat : Bool) (d : Dst) (a : Opnd)
  /-- AND (R88). -/
  | and (t : ITy) (d : Dst) (a b : Opnd)
  /-- OR (R88). -/
  | or (t : ITy) (d : Dst) (a b : Opnd)
  /-- XOR (R88). -/
  | xor (t : ITy) (d : Dst) (a b : Opnd)
  /-- ANDN (R88). -/
  | andn (t : ITy) (d : Dst) (a b : Opnd)
  /-- SHL (R89). -/
  | shl (t : ITy) (d : Dst) (a b : Opnd)
  /-- SHR (R89). -/
  | shr (t : ITy) (d : Dst) (a b : Opnd)
  /-- SAR (R89). -/
  | sar (t : ITy) (d : Dst) (a b : Opnd)
  /-- ROT (R89). -/
  | rot (t : ITy) (d : Dst) (a b : Opnd)
  /-- BFX (R92). -/
  | bfx (sgn : Bool) (d : Dst) (a b c : Opnd)
  /-- BFI (R92). -/
  | bfi (d : Dst) (a b c : Opnd)
  /-- POPC (R88). -/
  | popc (t : ITy) (d : Dst) (a : Opnd)
  /-- CLZ (R88). -/
  | clz (t : ITy) (d : Dst) (a : Opnd)
  /-- CTZ (R88). -/
  | ctz (t : ITy) (d : Dst) (a : Opnd)
  /-- BREV (R88). -/
  | brev (t : ITy) (d : Dst) (a : Opnd)
  /-- ICMP (R90). -/
  | icmp (cc : Cc) (t : ITy) (d : Dst) (a b : Opnd)
  /-- SEL (R92). -/
  | sel (d : Dst) (a b c : Opnd)
  /-- LEA (R88). -/
  | lea (uns : Bool) (sc : Fin 8) (d : Dst) (a b : Opnd)
  /-- PRMT (R92). -/
  | prmt (d : Dst) (a b c : Opnd)
  /-- VOTE (R91). -/
  | vote (m : Vote) (d : Dst) (a : Opnd)
  /-- PERM (R91; `wide` is TYPE i64). -/
  | perm (wide : Bool) (d : Dst) (a b : Opnd)
  /-- FADD (R104). -/
  | fadd (t : FTy) (r : Rnd) (d : Dst) (a b : Opnd)
  /-- FSUB (R104). -/
  | fsub (t : FTy) (r : Rnd) (d : Dst) (a b : Opnd)
  /-- FMUL (R104). -/
  | fmul (t : FTy) (r : Rnd) (d : Dst) (a b : Opnd)
  /-- FMA (R107). -/
  | fma (neg : Bool) (d : Dst) (a b c : Opnd)
  /-- FMAC (R104). -/
  | fmac (t : FTy) (r : Rnd) (d : Dst) (a b : Opnd)
  /-- FMIN (R104). -/
  | fmin (t : FTy) (nan : Bool) (d : Dst) (a b : Opnd)
  /-- FMAX (R104). -/
  | fmax (t : FTy) (nan : Bool) (d : Dst) (a b : Opnd)
  /-- FCMP (R105). -/
  | fcmp (cc : Fcc) (t : FTy) (d : Dst) (a b : Opnd)
  /-- FRCP (R108). -/
  | frcp (r : Rnd) (d : Dst) (a : Opnd)
  /-- FRSQ (R108). -/
  | frsq (r : Rnd) (d : Dst) (a : Opnd)
  /-- FSQRT (R108). -/
  | fsqrt (r : Rnd) (d : Dst) (a : Opnd)
  /-- FEXP2 (R108). -/
  | fexp2 (r : Rnd) (d : Dst) (a : Opnd)
  /-- FLOG2 (R108). -/
  | flog2 (r : Rnd) (d : Dst) (a : Opnd)
  /-- FRND (R104). -/
  | frnd (t : FTy) (r : Rnd) (x : Bool) (d : Dst) (a : Opnd)
  /-- FCLASS (R106). -/
  | fclass (t : FTy) (d : Dst) (a : Opnd)
  /-- FSCALE (R104). -/
  | fscale (t : FTy) (r : Rnd) (d : Dst) (a b : Opnd)
  /-- CVT (R111). -/
  | cvt (dir : Dir) (f : Fmt) (sat : Bool) (r : Rnd) (d : Dst) (a : Opnd)
  /-- QUANT (R112). -/
  | quant (f : Fmt) (blk : Blk) (tr : Bool) (r : Rnd) (d : Dst) (a : Opnd)
  /-- DEQ (R113). -/
  | deq (f : Fmt) (j : Fin 8) (r : Rnd) (d : Dst) (a b : Opnd)
  /-- H2ADD (R110; `bf` is TYPE bf16). -/
  | h2add (bf : Bool) (r : Rnd) (d : Dst) (a b : Opnd)
  /-- H2MUL (R110; `bf` is TYPE bf16). -/
  | h2mul (bf : Bool) (r : Rnd) (d : Dst) (a b : Opnd)
  /-- H2FMA (R107; `bf` is S = 1). -/
  | h2fma (bf : Bool) (d : Dst) (a b c : Opnd)
  /-- FDOT2 (R107; `bf` is S = 1). -/
  | fdot2 (bf : Bool) (d : Dst) (a b c : Opnd)
  /-- DADD (R110). -/
  | dadd (r : Rnd) (d : Dst) (a b : Opnd)
  /-- DMUL (R110). -/
  | dmul (r : Rnd) (d : Dst) (a b : Opnd)
  /-- DFMA (R107). -/
  | dfma (neg : Bool) (d : Dst) (a b c : Opnd)
  /-- MMAG (R115). -/
  | mmag (f : Fmt) (mix : Bool) (r : Rnd) (d a b : Fin 128)
  /-- CMUL (R110). -/
  | cmul (t : FTy) (conj : Bool) (r : Rnd) (d : Dst) (a b : Opnd)
  /-- RNG (R114). -/
  | rng (f : Fmt) (d : Dst) (a b : Opnd)
  /-- MOVI (R94). -/
  | movi (t : ITy) (d : Dst) (k : BitVec 20)
  /-- MOVHI (R94). -/
  | movhi (d : Dst) (a : Opnd) (k : BitVec 20)
  /-- IADDI (R94). -/
  | iaddi (t : ITy) (sat : Bool) (d : Dst) (a : Opnd) (k : BitVec 20)
  /-- IMULI (R94). -/
  | imuli (t : ITy) (sat : Bool) (d : Dst) (a : Opnd) (k : BitVec 20)
  /-- ANDI (R94). -/
  | andi (t : ITy) (d : Dst) (a : Opnd) (k : BitVec 20)
  /-- ORI (R94). -/
  | ori (t : ITy) (d : Dst) (a : Opnd) (k : BitVec 20)
  /-- XORI (R94). -/
  | xori (t : ITy) (d : Dst) (a : Opnd) (k : BitVec 20)
  /-- SHLI (R94). -/
  | shli (t : ITy) (d : Dst) (a : Opnd) (k : BitVec 20)
  /-- SHRI (R94). -/
  | shri (t : ITy) (d : Dst) (a : Opnd) (k : BitVec 20)
  /-- SARI (R94). -/
  | sari (t : ITy) (d : Dst) (a : Opnd) (k : BitVec 20)
  /-- ICMPI (R94). -/
  | icmpi (cc : Cc) (t : ITy) (d : Dst) (a : Opnd) (k : BitVec 20)
  /-- FMOVI (R119). -/
  | fmovi (d : Dst) (k : BitVec 20)
  /-- FADDI (R119). -/
  | faddi (r : Rnd) (d : Dst) (a : Opnd) (k : BitVec 20)
  /-- FMULI (R119). -/
  | fmuli (r : Rnd) (d : Dst) (a : Opnd) (k : BitVec 20)
  /-- FMAI (R119). -/
  | fmai (r : Rnd) (d : Dst) (a : Opnd) (k : BitVec 20)
  /-- FCMPI (R119). -/
  | fcmpi (cc : Fcc) (d : Dst) (a : Opnd) (k : BitVec 20)
  /-- LDC (R95). -/
  | ldc (d : Dst) (a : Opnd) (k : BitVec 20)
  /-- LEAI (R94). -/
  | leai (sc : Fin 8) (d : Dst) (a : Opnd) (k : BitVec 20)
  /-- LD (R126). -/
  | ld (sz : Size) (ord : Ord) (d : Dst) (a : Fin 128) (ofs : BitVec 8) (b : Opnd)
  /-- ST (R126). -/
  | st (sz : Size) (ord : Ord) (x : Src) (a : Fin 128) (ofs : BitVec 8) (b : Opnd)
  /-- LDS (R130). -/
  | lds (sz : Size) (sem : Sem) (d : Dst) (a : Fin 128) (ofs : BitVec 8) (b : Opnd)
  /-- STS (R130). -/
  | sts (sz : Size) (sem : Sem) (x : Src) (a : Fin 128) (ofs : BitVec 8) (b : Opnd)
  /-- LDP (R130). -/
  | ldp (sz : Size) (d : Dst) (a : Fin 128) (ofs : BitVec 8) (b : Opnd)
  /-- STP (R130). -/
  | stp (sz : Size) (x : Src) (a : Fin 128) (ofs : BitVec 8) (b : Opnd)
  /-- LDACC (R131). -/
  | ldacc (sz : Size) (d : Dst) (a : Fin 128) (ofs : BitVec 8) (b : Opnd)
  /-- QDEF (R132). -/
  | qdef (q : Fin 8) (a : Fin 128) (f : Fin 8)
  /-- QGET (R132). -/
  | qget (d : Dst) (q : Fin 8) (f : Fin 8)
  /-- PF (R135). -/
  | pf (a : Fin 128) (ofs : BitVec 8) (b : Opnd)
  /-- CWB (R135). -/
  | cwb (a : Fin 128) (ofs : BitVec 8) (b : Opnd)
  /-- CINV (R135). -/
  | cinv (a : Fin 128) (ofs : BitVec 8) (b : Opnd)
  /-- TTAG (R134). -/
  | ttag (x : Src) (b : Opnd)
  /-- LDT (R134). -/
  | ldt (d : Dst) (b : Opnd)
  /-- AADD (R136). -/
  | aadd (wide : Bool) (ord : Ord) (d : Dst) (a : Fin 128) (ofs : BitVec 8) (b : Opnd)
  /-- AMIN (R136). -/
  | amin (wide : Bool) (ord : Ord) (d : Dst) (a : Fin 128) (ofs : BitVec 8) (b : Opnd)
  /-- AMAX (R136). -/
  | amax (wide : Bool) (ord : Ord) (d : Dst) (a : Fin 128) (ofs : BitVec 8) (b : Opnd)
  /-- AAND (R136). -/
  | aand (wide : Bool) (ord : Ord) (d : Dst) (a : Fin 128) (ofs : BitVec 8) (b : Opnd)
  /-- AOR (R136). -/
  | aor (wide : Bool) (ord : Ord) (d : Dst) (a : Fin 128) (ofs : BitVec 8) (b : Opnd)
  /-- AXOR (R136). -/
  | axor (wide : Bool) (ord : Ord) (d : Dst) (a : Fin 128) (ofs : BitVec 8) (b : Opnd)
  /-- AXCHG (R136). -/
  | axchg (wide : Bool) (ord : Ord) (d : Dst) (a : Fin 128) (ofs : BitVec 8) (b : Opnd)
  /-- AINC (R136). -/
  | ainc (ord : Ord) (d : Dst) (a : Fin 128) (ofs : BitVec 8) (b : Opnd)
  /-- ACAS (R136; d is the comparand too (R84)). -/
  | acas (wide : Bool) (ord : Ord) (d : Dst) (a : Fin 128) (ofs : BitVec 8) (b : Opnd)
  /-- AFADD (R136). -/
  | afadd (wide : Bool) (ord : Ord) (d : Dst) (a : Fin 128) (ofs : BitVec 8) (b : Opnd)
  /-- AFMIN (R136). -/
  | afmin (ord : Ord) (d : Dst) (a : Fin 128) (ofs : BitVec 8) (b : Opnd)
  /-- AFMAX (R136). -/
  | afmax (ord : Ord) (d : Dst) (a : Fin 128) (ofs : BitVec 8) (b : Opnd)
  /-- AFADD2 (R136). -/
  | afadd2 (ord : Ord) (d : Dst) (a : Fin 128) (ofs : BitVec 8) (b : Opnd)
  /-- ELD (R138). -/
  | eld (sz : Size) (ord : Ord) (d : Dst) (a : Fin 128) (ofs : BitVec 8) (b : Opnd)
  /-- EST (R138). -/
  | est (sz : Size) (ord : Ord) (d : Dst) (a : Fin 128) (ofs : BitVec 8) (b : Opnd)
  /-- EREL (R138). -/
  | erel (ord : Ord) (a : Fin 128) (ofs : BitVec 8) (b : Opnd)
  /-- ENEW (R138). -/
  | enew (ord : Ord) (d : Dst) (a : Fin 128) (ofs : BitVec 8)
  /-- PRECAST (R139). -/
  | precast (a : Fin 128) (ofs : BitVec 8)
  /-- PSYNC (R139). -/
  | psync (a : Fin 128) (ofs : BitVec 8)
  /-- PQUERY (R139). -/
  | pquery (d : Dst) (a : Fin 128) (ofs : BitVec 8)
  /-- PSET (R139). -/
  | pset (x : Src) (a : Fin 128) (ofs : BitVec 8) (b : Opnd)
  /-- FENCE (R140). -/
  | fence (k : FenceKind) (scope : Scope)
  /-- ACQR (R140, R221). -/
  | acqr (scope : Scope) (a : Fin 128) (ofs : BitVec 8)
  /-- BRA (R97). -/
  | bra (tgt : BitVec 20)
  /-- BRC (R97). -/
  | brc (ck : Ck) (c : Creg) (tgt : BitVec 20)
  /-- CALL (R98). -/
  | call (tgt : BitVec 20) (link : Dst)
  /-- RET (R98). -/
  | ret (c : Creg)
  /-- JMPI (R98). -/
  | jmpi (c : Creg) (link : Dst)
  /-- BRX (R99). -/
  | brx (c : Creg) (tgt : BitVec 20) (stride count : BitVec 8)
  /-- EXIT (R100). -/
  | exit
  /-- YIELD (R101). -/
  | yield
  /-- SLEEP (R101). -/
  | sleep (n : SleepArg)
  /-- WAIT (R145). -/
  | wait (ld st cp tl : Fin 16)
  /-- DRAIN (R146). -/
  | drain (p : Path)
  /-- BAR_ARR (R149). -/
  | barArr (c : Creg) (bar : BarId)
  /-- BAR_WAIT (R149). -/
  | barWait (c : Creg) (bar : BarId)
  /-- BAR_SYNC (R149, R150). -/
  | barSync (bar : BarId)
  /-- BAR_INIT (R149). -/
  | barInit (c : Creg) (bar : BarId)
  /-- FCOPY (R152). -/
  | fcopy (q : Fin 4) (spad : Bool) (a : Src)
  /-- PCMD (R152). -/
  | pcmd (a : Src)
  /-- PBANK (R152). -/
  | pbank (n : Fin 2) (a b : Src) (bar : BarId) (arr : Bool)
  /-- PCLR (R152). -/
  | pclr (a b : Src) (bar : BarId) (arr : Bool)
  /-- SGSET (R152). -/
  | sgset (e : Fin 64) (a : Src)
  /-- COLL (R155). -/
  | coll (k : BitVec 8) (a : Src)
  /-- COLL_NOW (R155). -/
  | collNow (a : Src)
  /-- BKSET (R155). -/
  | bkset (k : BitVec 8) (a : Src)
  /-- BKADD (R155). -/
  | bkadd (k : BitVec 8) (b : Src)
  /-- TAPE_PUSH (R157). -/
  | tapePush (a : Src)
  /-- TAPE_MARK (R157). -/
  | tapeMark
  /-- TAPE_UNWIND (R157, R277). -/
  | tapeUnwind
  /-- TASK_POST (R157). -/
  | taskPost (a b : Src)
  /-- TASK_DONE (R157). -/
  | taskDone
  /-- SPAWN (R158). -/
  | spawn (a b : Src)
  /-- QFENCE (R154). -/
  | qfence (q : Fin 6) (mask : BitVec 6)
  /-- LAUNCH (R157). -/
  | launch (p : Fin 8) (a : Src)
  /-- SYSCALL (R162). -/
  | syscall (n : BitVec 16)
  /-- HCALL (R162). -/
  | hcall (n : BitVec 16)
  /-- TRET (R163). -/
  | tret
  /-- SREAD (R166). -/
  | sread (d : Dst) (sr : Sreg) (a : Src)
  /-- SWRITE (R166). -/
  | swrite (sr : Sreg) (a b : Src)
  /-- CSRR (R164). -/
  | csrr (d : Dst) (n : Csr)
  /-- CSRW (R165). -/
  | csrw (op : CsrOp) (d : Dst) (n : Csr) (a : Src)
  /-- BRK (R162). -/
  | brk (n : BitVec 16)
  /-- HALT (R172). -/
  | halt (n : BitVec 16)
  /-- TICK (R168). -/
  | tick (d : Dst)
  /-- TRACE (R169). -/
  | trace (t : BitVec 16) (a : Src)
  /-- ICINV (R170). -/
  | icinv (a b : Src)
  /-- LMAP_SET (R171). -/
  | lmapSet (a b : Src)
  /-- LMAP_CLR (R171). -/
  | lmapClr (a b : Src)
  /-- EBUD_GET (R173). -/
  | ebudGet (d : Dst)
  /-- EBUD_SET (R173). -/
  | ebudSet (d : Dst) (a b : Src)
  /-- RCLASS_SET (R174). -/
  | rclassSet (c : RClass) (d : Dst)
  /-- RCLASS_GET (R174). -/
  | rclassGet (d : Dst)
  /-- NOP_SHORT (R85, SOP 0x00). -/
  | nopShort
  /-- MOV_SHORT (R85, SOP 0x01). -/
  | movShort (d : Dst) (a : Src)
  /-- IADD_SHORT (R85, SOP 0x02). -/
  | iaddShort (d : Dst) (a b : Src)
  /-- ISUB_SHORT (R85, SOP 0x03). -/
  | isubShort (d : Dst) (a b : Src)
  /-- IMUL_SHORT (R85, SOP 0x04). -/
  | imulShort (d : Dst) (a b : Src)
  /-- IMULH_SHORT (R85, SOP 0x05). -/
  | imulhShort (d : Dst) (a b : Src)
  /-- IMAD_SHORT (R85, SOP 0x06). -/
  | imadShort (d : Dst) (a b : Src)
  /-- IMIN_SHORT (R85, SOP 0x07). -/
  | iminShort (d : Dst) (a b : Src)
  /-- IMAX_SHORT (R85, SOP 0x08). -/
  | imaxShort (d : Dst) (a b : Src)
  /-- IMIN_Z32_SHORT (R85, SOP 0x09). -/
  | iminZ32Short (d : Dst) (a b : Src)
  /-- IMAX_Z32_SHORT (R85, SOP 0x0A). -/
  | imaxZ32Short (d : Dst) (a b : Src)
  /-- IABS_SHORT (R85, SOP 0x0B). -/
  | iabsShort (d : Dst) (a : Src)
  /-- AND_SHORT (R85, SOP 0x0C). -/
  | andShort (d : Dst) (a b : Src)
  /-- OR_SHORT (R85, SOP 0x0D). -/
  | orShort (d : Dst) (a b : Src)
  /-- XOR_SHORT (R85, SOP 0x0E). -/
  | xorShort (d : Dst) (a b : Src)
  /-- ANDN_SHORT (R85, SOP 0x0F). -/
  | andnShort (d : Dst) (a b : Src)
  /-- SHL_SHORT (R85, SOP 0x10). -/
  | shlShort (d : Dst) (a b : Src)
  /-- SHR_SHORT (R85, SOP 0x11). -/
  | shrShort (d : Dst) (a b : Src)
  /-- SAR_SHORT (R85, SOP 0x12). -/
  | sarShort (d : Dst) (a b : Src)
  /-- ROT_SHORT (R85, SOP 0x13). -/
  | rotShort (d : Dst) (a b : Src)
  /-- POPC_SHORT (R85, SOP 0x14). -/
  | popcShort (d : Dst) (a : Src)
  /-- CLZ_SHORT (R85, SOP 0x15). -/
  | clzShort (d : Dst) (a : Src)
  /-- CTZ_SHORT (R85, SOP 0x16). -/
  | ctzShort (d : Dst) (a : Src)
  /-- BREV_SHORT (R85, SOP 0x17). -/
  | brevShort (d : Dst) (a : Src)
  /-- ICMP_EQ_SHORT (R85, SOP 0x18). -/
  | icmpEqShort (d : Dst) (a b : Src)
  /-- ICMP_NE_SHORT (R85, SOP 0x19). -/
  | icmpNeShort (d : Dst) (a b : Src)
  /-- ICMP_LT_SHORT (R85, SOP 0x1A). -/
  | icmpLtShort (d : Dst) (a b : Src)
  /-- ICMP_LE_SHORT (R85, SOP 0x1B). -/
  | icmpLeShort (d : Dst) (a b : Src)
  /-- ICMP_LT_Z32_SHORT (R85, SOP 0x1C). -/
  | icmpLtZ32Short (d : Dst) (a b : Src)
  /-- ICMP_LE_Z32_SHORT (R85, SOP 0x1D). -/
  | icmpLeZ32Short (d : Dst) (a b : Src)
  /-- SEL_SHORT (R85, SOP 0x1E). -/
  | selShort (d : Dst) (a b : Src)
  /-- PERM_SHORT (R85, SOP 0x1F). -/
  | permShort (d : Dst) (a b : Src)
  /-- FADD_SHORT (R85, SOP 0x20). -/
  | faddShort (d : Dst) (a b : Src)
  /-- FSUB_SHORT (R85, SOP 0x21). -/
  | fsubShort (d : Dst) (a b : Src)
  /-- FMUL_SHORT (R85, SOP 0x22). -/
  | fmulShort (d : Dst) (a b : Src)
  /-- FMA_SHORT (R85, SOP 0x23). -/
  | fmaShort (d : Dst) (a b : Src)
  /-- FMAC_SHORT (R85, SOP 0x24). -/
  | fmacShort (d : Dst) (a b : Src)
  /-- FMIN_SHORT (R85, SOP 0x25). -/
  | fminShort (d : Dst) (a b : Src)
  /-- FMAX_SHORT (R85, SOP 0x26). -/
  | fmaxShort (d : Dst) (a b : Src)
  /-- FCMP_EQ_SHORT (R85, SOP 0x27). -/
  | fcmpEqShort (d : Dst) (a b : Src)
  /-- FCMP_LT_SHORT (R85, SOP 0x28). -/
  | fcmpLtShort (d : Dst) (a b : Src)
  /-- FCMP_LE_SHORT (R85, SOP 0x29). -/
  | fcmpLeShort (d : Dst) (a b : Src)
  /-- FRCP_SHORT (R85, SOP 0x2A). -/
  | frcpShort (d : Dst) (a : Src)
  /-- FRSQ_SHORT (R85, SOP 0x2B). -/
  | frsqShort (d : Dst) (a : Src)
  /-- FSQRT_SHORT (R85, SOP 0x2C). -/
  | fsqrtShort (d : Dst) (a : Src)
  /-- FEXP2_SHORT (R85, SOP 0x2D). -/
  | fexp2Short (d : Dst) (a : Src)
  /-- FLOG2_SHORT (R85, SOP 0x2E). -/
  | flog2Short (d : Dst) (a : Src)
  /-- FRND_SHORT (R85, SOP 0x2F). -/
  | frndShort (d : Dst) (a : Src)
  /-- FCLASS_SHORT (R85, SOP 0x30). -/
  | fclassShort (d : Dst) (a : Src)
  /-- FSCALE_SHORT (R85, SOP 0x31). -/
  | fscaleShort (d : Dst) (a b : Src)
  /-- CVT_I32_F32_SHORT (R85, SOP 0x32). -/
  | cvtI32F32Short (d : Dst) (a : Src)
  /-- CVT_F32_I32_SHORT (R85, SOP 0x33). -/
  | cvtF32I32Short (d : Dst) (a : Src)
  /-- H2ADD_F16_SHORT (R85, SOP 0x34). -/
  | h2addF16Short (d : Dst) (a b : Src)
  /-- H2MUL_F16_SHORT (R85, SOP 0x35). -/
  | h2mulF16Short (d : Dst) (a b : Src)
  /-- H2FMA_F16_SHORT (R85, SOP 0x36). -/
  | h2fmaF16Short (d : Dst) (a b : Src)
  /-- H2ADD_BF16_SHORT (R85, SOP 0x37). -/
  | h2addBf16Short (d : Dst) (a b : Src)
  /-- H2MUL_BF16_SHORT (R85, SOP 0x38). -/
  | h2mulBf16Short (d : Dst) (a b : Src)
  /-- H2FMA_BF16_SHORT (R85, SOP 0x39). -/
  | h2fmaBf16Short (d : Dst) (a b : Src)
  /-- FDOT2_F16_SHORT (R85, SOP 0x3A). -/
  | fdot2F16Short (d : Dst) (a b : Src)
  /-- FDOT2_BF16_SHORT (R85, SOP 0x3B). -/
  | fdot2Bf16Short (d : Dst) (a b : Src)
  /-- DADD_SHORT (R85, SOP 0x3C). -/
  | daddShort (d : Dst) (a b : Src)
  /-- DMUL_SHORT (R85, SOP 0x3D). -/
  | dmulShort (d : Dst) (a b : Src)
  /-- DFMA_SHORT (R85, SOP 0x3E). -/
  | dfmaShort (d : Dst) (a b : Src)
  /-- FILL (R35). -/
  | fill (core : Nat) (va : Nat)
  /-- LOOP_BUFFER_REFILL (R194). -/
  | loopBufferRefill (core : Nat) (pipe : Nat)
  /-- CODE_PREFETCH (R39). -/
  | codePrefetch (core : Nat) (va : Nat)
  /-- RESULT_WRITEBACK (R109). -/
  | resultWriteback (uid : Nat) (id : Nat)
  /-- SLEEP_END (R101). -/
  | sleepEnd (uid : Nat) (lane : Nat)
  /-- LEAVE (R216). -/
  | leave (uid : Nat) (lane : Nat)
  /-- DRAIN_MOVE (R216). -/
  | drainMove (uid : Nat) (lane : Nat)
  /-- DELIVER (R216). -/
  | deliver (id : Nat) (answer : Answer)
  /-- REFRESH (R216). -/
  | refresh (die : Nat) (addr : Cells)
  /-- DROP (R216). -/
  | drop (die : Nat) (addr : Cells)
  /-- PROMOTE (R221). -/
  | promote (core : Nat) (id : Nat)
  /-- WAKE (R200). -/
  | wake (k : Nat)
  /-- POLL_LIST_READ (R234). -/
  | pollListRead (k : Nat)
  /-- REFIT_START (R250). -/
  | refitStart (die : Nat)
  /-- KNOT_READ (R250). -/
  | knotRead (die : Nat)
  /-- REFIT_VERIFY (R250). -/
  | refitVerify (die : Nat)
  /-- REFIT_SWAP (R250). -/
  | refitSwap (die : Nat)
  /-- ERRATA_TIMEOUT (R248). -/
  | errataTimeout (id : Nat)
  /-- PRESS_COMMAND_START (R260). -/
  | pressCommandStart (core : Nat)
  /-- PRESS_COMMAND_COMPLETE (R266). -/
  | pressCommandComplete (core : Nat)
  /-- PCLR_RUN (R152). -/
  | pclrRun (core : Nat)
  /-- BANK_LOAD (R263). -/
  | bankLoad (core : Nat)
  /-- BANK_LOAD_COMPLETE (R256). -/
  | bankLoadComplete (core : Nat)
  /-- FEEDER_COPY_START (R269). -/
  | feederCopyStart (core : Nat) (q : Paced)
  /-- TILE_LANDED (R206). -/
  | tileLanded (core : Nat) (q : Nat) (tile : Nat)
  /-- FOLLOW_ON_APPEND (R272). -/
  | followOnAppend (core : Nat) (q : Nat)
  /-- FIXUP_REPLAY (R273). -/
  | fixupReplay (id : Paced)
  /-- FEEDER_COPY_COMPLETE (R272). -/
  | feederCopyComplete (core : Nat) (q : Nat)
  /-- QFENCE_COMPLETE (R154). -/
  | qfenceComplete (core : Nat) (q : Nat)
  /-- SGSET_COMPLETE (R152). -/
  | sgsetComplete (id : Nat)
  /-- KICK_APPEND (R280). -/
  | kickAppend (die : Nat) (k : Nat)
  /-- COLLECTIVE_RENDEZVOUS (R282). -/
  | collectiveRendezvous (die : Comer)
  /-- COLLECTIVE_START (R282). -/
  | collectiveStart (k : Paced)
  /-- COLLECTIVE_COMPLETE (R282). -/
  | collectiveComplete (id : Nat)
  /-- GALLEY_TIMEOUT (R158). -/
  | galleyTimeout (core : Nat) (g : Nat)
  /-- GALLEY_START (R158). -/
  | galleyStart (core : Nat) (g : Nat)
  /-- TASK_START (R157). -/
  | taskStart (die : Nat) (core : Nat)
  /-- GANG_PLACE (R195). -/
  | gangPlace (launch : Nat) (core : Nat)
  /-- GANG_END (R199). -/
  | gangEnd (gang : Nat)
  /-- SAVE_COMPLETE (R301). -/
  | saveComplete (uid : Nat)
  /-- FAULT_RESOLVE (R318). -/
  | faultResolve (k : Nat) (frame : Nat)
  /-- FAULT_OUTCOME (R318). -/
  | faultOutcome (k : Nat) (present : Bool)
  /-- GROUP_RESTORE (R302). -/
  | groupRestore (uid : Nat) (slot : Nat)
  /-- PAGE_EVICT (R320). -/
  | pageEvict (owner : Nat) (ctx : Nat) (va : Nat)
  /-- QUANTUM_EXPIRY (R304). -/
  | quantumExpiry (ctx : Nat)
  /-- DEADLINE_EXPIRY (R305). -/
  | deadlineExpiry (ctx : Nat)
  /-- UNIT_RELOAD (R306). -/
  | unitReload (core : Nat) (ctx : Nat)
  /-- QTAIL_WRITE (R328). -/
  | qtailWrite (ctx : Nat) (p : Nat) (x : W32)
  /-- LAUNCH_DEQUEUE (R329). -/
  | launchDequeue (ctx : Nat)
  /-- LAUNCH_COMPLETE (R332). -/
  | launchComplete (id : Nat)
  /-- CONTEXT_ENABLE (R323). -/
  | contextEnable (ctx : Nat) (x : W32)
  /-- CONTEXT_DISABLE (R323). -/
  | contextDisable (ctx : CtxctlWrite)
  /-- REGISTER_WRITE (R323). -/
  | registerWrite (ofs : Nat) (x : W64)
  /-- PACKAGE_RESET (R334). -/
  | packageReset
  /-- LINK_TRAINED (R334). -/
  | linkTrained
  /-- FIRMWARE_LOAD (R334). -/
  | firmwareLoad
  /-- FIRMWARE_VERIFIED (R334; 0 verified, else the failure code). -/
  | firmwareVerified (failure : Fin 3)
  /-- MEMORY_INIT_DONE (R334; the cores present and whether every stack answers). -/
  | memoryInitDone (cores : BitVec 192) (answer : Bool)
  /-- POWER_LIMIT_WRITE (R335). -/
  | powerLimitWrite (x : W32)
  /-- CLOCK_CHANGE (R335). -/
  | clockChange (mhz : Nat)
  /-- INVALIDATE_PAGE (R317). -/
  | invalidatePage (owner : Nat) (asid : Nat) (vmid : Nat)
  /-- INVALIDATE_ASID (R317). -/
  | invalidateAsid (owner : Nat) (asid : Nat) (vmid : Nat)
  /-- INVALIDATE_VMID (R317). -/
  | invalidateVmid (owner : Nat) (vmid : Nat)
  /-- INVALIDATE_ALL (R317). -/
  | invalidateAll (owner : Nat)
  /-- INVALIDATION_COMPLETE (R317). -/
  | invalidationComplete (owner : Nat)
  /-- ICINV_COMPLETE (R170). -/
  | icinvComplete (id : Nat)
  /-- LMAP_COMPLETE (R171). -/
  | lmapComplete (id : Nat)
  /-- PIPE_ERROR (R341; in the set that its pipe issues now where `result` is 0, else in a scoreboarded result of that number). -/
  | pipeError (core : Nat) (slot : Struck)
  /-- ENGINE_PIPE_ERROR (R342; `kind` is UKIND of R345). -/
  | enginePipeError (kind : Nat) (unit : Nat)
  /-- SCRUB (R338). -/
  | scrub (stack : Nat)
  /-- FAULT_WINDOW_WRITE (R344; `t` is FWT, else FWWIN). -/
  | faultWindowWrite (t : Bool) (x : W64)
  /-- CORE_FENCE (R347). -/
  | coreFence (core : Nat)
  /-- ROUTER_DOWN (R348; `cut` are the cores that no route reaches). -/
  | routerDown (die : Nat) (router : Nat) (cut : List Nat)
  /-- LINK_DOWN (R348). -/
  | linkDown (kind : Nat) (unit : Nat)
  /-- NETWORK_RESUME (R348). -/
  | networkResume
  /-- REPLAY (R353). -/
  | replay (id : Nat)
  /-- RIGHTS_WRITE (R363). -/
  | rightsWrite (port : Nat) (x : W64)
  /-- RIGHTS_TAKE_EFFECT (R363). -/
  | rightsTakeEffect (port : Nat)
  /-- DEBUG_HALT (R360). -/
  | debugHalt (port : Nat)
  /-- DEBUG_RESUME (R360). -/
  | debugResume (port : Nat)
  /-- READREG (R361). -/
  | readreg (port : Nat)
  /-- WRITEREG (R361). -/
  | writereg (port : Nat)
  /-- TROPEN (R364). -/
  | tropen (port : Nat)
  /-- TRCLOSE (R364). -/
  | trclose (port : Nat)
  /-- BADCMD (R359). -/
  | badcmd (port : Nat) (op : Nat)
  /-- STOPAT_WRITE (R368). -/
  | stopatWrite (port : Nat) (x : W64)
  /-- PACKAGE_STOP (R368). -/
  | packageStop
  /-- SAMPLE (R367). -/
  | sample (port : Nat) (uid : Nat)
  /-- GTICK_ADVANCE (R13). -/
  | gtickAdvance
  /-- STORAGE_ERROR (R338; `flips` is what a miscorrected or DRAFT read returns changed, in the bits of the sector or word). -/
  | storageError (p : ErrPlace) (k : ErrKind) (flips : BitVec 288)
  /-- HOST_MEMORY_ACCESS (R333). -/
  | hostMemoryAccess (addr : Nat) (acc : HostAccess)
  deriving DecidableEq, Repr

end Sys2Proof
end

