-- ==== Sys2Proof/Machine/Legal.lean ====
section
/-! DEFINITION. The operands of every instruction with their types (R43), and what the fill admits
(R34, R74, R86): `legal`. -/

namespace Sys2Proof.Machine

/-- The type an instruction reads a source as (R43). `q4` is the data of SIZE q, `dyn` the data of `st.e`,
whose shape the page gives (R128), `run n` a run of n v registers (R112, R115). -/
inductive OTy where
  | int (w : Nat) | flt (f : Fmt) | pair (bf : Bool) | cplx (t : FTy) | q4 | dyn | run (n : Nat)
  deriving DecidableEq, Repr

/-- The format of a scalar float type. -/
def ftyFmt : FTy → Fmt
  | .f32 => .f32 | .f16 => .f16 | .bf16 => .bf16

/-- Packed 16-bit format. -/
def pairFmt (bf : Bool) : Fmt := if bf then .bf16 else .f16

/-- An integer or float operand type from a format. -/
def otyOfFmt (f : Fmt) : OTy := if fmtIsInt f then .int (fmtWidth f) else .flt f

/-- The number of registers a source of this type occupies. -/
def otyRegs : OTy → Nat
  | .int w => if w = 64 then 2 else 1
  | .flt f => if fmtWidth f = 64 then 2 else 1
  | .cplx t => if t = .f32 then 2 else 1
  | .q4 => 4
  | .run n => n
  | _ => 1

/-- A single-register or pair operand as an opaque pattern-free field. -/
def op (s : Src) : Opnd := ⟨s, .ident⟩

/-- The source that reads a destination register back (fmac, acas, the C operand of a short form). -/
def dstAsSrc : Dst → Option Src
  | .v n => some (.v n) | .q n => some (.q n) | .o n => some (.o n) | .none => none

/-- Result shape: number of 32-bit registers (1, 2 or 4). -/
abbrev DTy := Nat

/-- The register width of an integer type. -/
def ityW : ITy → Nat
  | .i32 | .z32 => 32
  | .i64 | .z64 => 64

/-- Registers of an integer type. -/
def ityRegs (t : ITy) : Nat := if ityW t = 64 then 2 else 1

/-- Registers an access size moves; 1 for e, whose shape the page gives. -/
def sizeRegs : Size → Nat
  | .d => 2 | .q => 4 | _ => 1

/-- Operand type of the data of a store of this size. -/
def sizeOTy : Size → OTy
  | .b => .int 8 | .h => .int 16 | .w => .int 32 | .d => .int 64 | .q => .q4 | .e => .dyn

/-- Block elements per lane (R112). -/
def blkK : Blk → Nat
  | .b16 | .b32 => 1 | .b64 => 2 | .b128 => 4

/-- A 64-bit CSR (R291). -/
def csrWide : Csr → Bool
  | .srseed | .srcnt | .regpc | .txpc | .tscratch | .tvec | .txval | .hvec => true
  | _ => false

/-- A read-only CSR (R291). -/
def csrRO : Csr → Bool
  | .regpc | .regcnt | .tcause | .txval => true
  | _ => false

/-- A 64-bit special register (R167). -/
def sregWide : Sreg → Bool
  | .launchid | .sgfault => true
  | _ => false

/-- A v register as a source. -/
def vs (n : Fin 128) : Opnd := ⟨.v n, .ident⟩

/-- A control register field as a source. -/
def cregSrc : Creg → Src
  | .v n => .v n | .o n => .o n | .h0 => .h0 | .h1 => .h1

/-- The source operands of a long instruction in field order, with their types. The third source of `fmac`
and `fmai` and the comparand of `acas` are their destination register. -/
def srcs : Instr → List (Opnd × OTy)
  | .mov t _ a | .brev t _ a | .popc t _ a | .clz t _ a | .ctz t _ a => [(a, .int (ityW t))]
  | .iadd t _ _ a b | .isub t _ _ a b | .imul t _ _ a b => [(a, .int (ityW t)), (b, .int (ityW t))]
  | .imulh _ _ a b | .iaddw _ _ a b | .imulw _ _ a b => [(a, .int 32), (b, .int 32)]
  | .imin t _ a b | .imax t _ a b | .and t _ a b | .or t _ a b | .xor t _ a b | .andn t _ a b =>
    [(a, .int (ityW t)), (b, .int (ityW t))]
  | .shl t _ a b | .shr t _ a b | .sar t _ a b | .rot t _ a b => [(a, .int (ityW t)), (b, .int 32)]
  | .iabs w _ _ a => [(a, .int (if w then 64 else 32))]
  | .imad _ a b c | .bfx _ _ a b c | .bfi _ a b c | .sel _ a b c | .prmt _ a b c =>
    [(a, .int 32), (b, .int 32), (c, .int 32)]
  | .icmp _ t _ a b => [(a, .int (ityW t)), (b, .int (ityW t))]
  | .lea _ _ _ a b => [(a, .int 64), (b, .int 32)]
  | .vote _ _ a => [(a, .int 32)]
  | .perm w _ a b => [(a, .int (if w then 64 else 32)), (b, .int 32)]
  | .fadd t _ _ a b | .fsub t _ _ a b | .fmul t _ _ a b => [(a, .flt (ftyFmt t)), (b, .flt (ftyFmt t))]
  | .fmac t _ d a b => [(a, .flt (ftyFmt t)), (b, .flt (ftyFmt t))] ++
      ((dstAsSrc d).map (fun s => (op s, OTy.flt (ftyFmt t)))).toList
  | .fma _ _ a b c => [(a, .flt .f32), (b, .flt .f32), (c, .flt .f32)]
  | .fmin t _ _ a b | .fmax t _ _ a b => [(a, .flt (ftyFmt t)), (b, .flt (ftyFmt t))]
  | .fcmp _ t _ a b => [(a, .flt (ftyFmt t)), (b, .flt (ftyFmt t))]
  | .frcp _ _ a | .frsq _ _ a | .fsqrt _ _ a | .fexp2 _ _ a | .flog2 _ _ a => [(a, .flt .f32)]
  | .frnd t _ _ _ a | .fclass t _ a => [(a, .flt (ftyFmt t))]
  | .fscale t _ _ a b => [(a, .flt (ftyFmt t)), (b, .int 32)]
  | .cvt dir f _ _ _ a =>
    match dir with
    | .fromF32 => [(a, .flt .f32)]
    | .fromF64 => [(a, .flt .f64)]
    | .toF32 | .toF64 => [(a, otyOfFmt f)]
  | .quant _ blk _ _ _ a => [(a, if blkK blk = 1 then .flt .f32 else .run (blkK blk))]
  | .deq _ _ _ _ a b => [(a, .int 32), (b, .int 32)]
  | .h2add bf _ _ a b | .h2mul bf _ _ a b => [(a, .pair bf), (b, .pair bf)]
  | .h2fma bf _ a b c => [(a, .pair bf), (b, .pair bf), (c, .pair bf)]
  | .fdot2 bf _ a b c => [(a, .pair bf), (b, .pair bf), (c, .flt .f32)]
  | .dadd _ _ a b | .dmul _ _ a b => [(a, .flt .f64), (b, .flt .f64)]
  | .dfma _ _ a b c => [(a, .flt .f64), (b, .flt .f64), (c, .flt .f64)]
  | .mmag _ _ _ d a b => [(vs a, .run 4), (vs b, .run 4), (vs d, .run 8)]
  | .cmul t _ _ _ a b => [(a, .cplx t), (b, .cplx t)]
  | .rng _ _ a b => [(a, .int 64), (b, .int 64)]
  | .movhi _ a _ | .ldc _ a _ => [(a, .int 32)]
  | .iaddi t _ _ a _ | .imuli t _ _ a _ => [(a, .int (ityW t))]
  | .andi t _ a _ | .ori t _ a _ | .xori t _ a _ | .shli t _ a _ | .shri t _ a _ | .sari t _ a _ => [(a, .int (ityW t))]
  | .icmpi _ t _ a _ => [(a, .int (ityW t))]
  | .faddi _ _ a _ | .fmuli _ _ a _ | .fcmpi _ _ a _ => [(a, .flt .f32)]
  | .fmai _ d a _ => [(a, .flt .f32)] ++ ((dstAsSrc d).map (fun s => (op s, OTy.flt .f32))).toList
  | .leai _ _ a _ => [(a, .int 64)]
  | .ld _ _ _ a _ b => [(vs a, .int 64), (b, .int 32)]
  | .st sz _ x a _ b => [(op x, sizeOTy sz), (vs a, .int 64), (b, .int 32)]
  | .lds _ _ _ a _ b | .ldp _ _ a _ b | .ldacc _ _ a _ b => [(vs a, .int 32), (b, .int 32)]
  | .sts sz _ x a _ b | .stp sz x a _ b => [(op x, sizeOTy sz), (vs a, .int 32), (b, .int 32)]
  | .qdef _ a _ => [(vs a, .int 64)]
  | .pf a _ b | .cwb a _ b | .cinv a _ b => [(vs a, .int 64), (b, .int 32)]
  | .ttag x b => [(op x, .int 32), (b, .int 32)]
  | .ldt _ b => [(b, .int 32)]
  | .aadd w _ _ a _ b | .amin w _ _ a _ b | .amax w _ _ a _ b | .aand w _ _ a _ b | .aor w _ _ a _ b
  | .axor w _ _ a _ b | .axchg w _ _ a _ b => [(vs a, .int 64), (b, .int (if w then 64 else 32))]
  | .ainc _ _ a _ b => [(vs a, .int 64), (b, .int 32)]
  | .acas w _ d a _ b => [(vs a, .int 64), (b, .int (if w then 64 else 32))] ++
      ((dstAsSrc d).map (fun s => (op s, OTy.int (if w then 64 else 32)))).toList
  | .afadd w _ _ a _ b => [(vs a, .int 64), (b, .flt (if w then .f64 else .f32))]
  | .afmin _ _ a _ b | .afmax _ _ a _ b => [(vs a, .int 64), (b, .flt .f32)]
  | .afadd2 _ _ a _ b => [(vs a, .int 64), (b, .pair true)]
  | .eld _ _ _ a _ b | .erel _ a _ b => [(vs a, .int 64), (b, .int 32)]
  | .est sz _ _ a _ b => [(vs a, .int 64), (b, sizeOTy sz)]
  | .enew _ _ a _ | .precast a _ | .psync a _ | .pquery _ a _ | .acqr _ a _ => [(vs a, .int 64)]
  | .pset x a _ b => [(op x, .int 32), (vs a, .int 64), (b, .int 32)]
  | .brc _ c _ | .brx c _ _ _ | .barWait c _ | .barInit c _ => [(op (cregSrc c), .int 32)]
  | .ret c | .jmpi c _ => [(op (cregSrc c), .int 64)]
  | .sleep (.reg c) => [(op (cregSrc c), .int 32)]
  | .fcopy _ spad a => [(op a, .int (if spad then 32 else 64))]
  | .pcmd a => [(op a, .int 32)]
  | .pbank _ a b _ _ | .pclr a b _ _ => [(op a, .int 32), (op b, .int 32)]
  | .sgset _ a | .coll _ a | .collNow a | .bkset _ a | .tapePush a | .launch _ a => [(op a, .int 64)]
  | .bkadd _ b => [(op b, .int 32)]
  | .taskPost a b => [(op a, .int 64), (op b, .int 32)]
  | .spawn a b => [(op a, .int 64), (op b, .int 64)]
  | .sread _ _ a => [(op a, .int 32)]
  | .swrite sr a b => [(op a, .int (if sregWide sr then 64 else 32)), (op b, .int 32)]
  | .csrw _ _ n a => [(op a, .int (if csrWide n then 64 else 32))]
  | .trace _ a => [(op a, .int 64)]
  | .icinv a b | .lmapSet a b | .lmapClr a b => [(op a, .int 64), (op b, .int 32)]
  | .ebudSet _ a b => [(op a, .int 32), (op b, .int 32)]
  | _ => []

/-- The destination of a long instruction and the registers its result fills. -/
def dest : Instr → Option (Dst × DTy)
  | .mov t d _ | .brev t d _ => some (d, ityRegs t)
  | .popc _ d _ | .clz _ d _ | .ctz _ d _ => some (d, 1)
  | .iadd t _ d _ _ | .isub t _ d _ _ | .imul t _ d _ _ => some (d, ityRegs t)
  | .imulh _ d _ _ => some (d, 1)
  | .iaddw _ d _ _ | .imulw _ d _ _ => some (d, 2)
  | .imin t d _ _ | .imax t d _ _ | .and t d _ _ | .or t d _ _ | .xor t d _ _ | .andn t d _ _ => some (d, ityRegs t)
  | .shl t d _ _ | .shr t d _ _ | .sar t d _ _ | .rot t d _ _ => some (d, ityRegs t)
  | .iabs w _ d _ => some (d, if w then 2 else 1)
  | .imad d _ _ _ | .bfx _ d _ _ _ | .bfi d _ _ _ | .sel d _ _ _ | .prmt d _ _ _ => some (d, 1)
  | .icmp _ _ d _ _ => some (d, 1)
  | .lea _ _ d _ _ => some (d, 2)
  | .vote _ d _ => some (d, 1)
  | .perm w d _ _ => some (d, if w then 2 else 1)
  | .fadd _ _ d _ _ | .fsub _ _ d _ _ | .fmul _ _ d _ _ | .fmac _ _ d _ _ => some (d, 1)
  | .fma _ d _ _ _ => some (d, 1)
  | .fmin _ _ d _ _ | .fmax _ _ d _ _ | .fcmp _ _ d _ _ => some (d, 1)
  | .frcp _ d _ | .frsq _ d _ | .fsqrt _ d _ | .fexp2 _ d _ | .flog2 _ d _ => some (d, 1)
  | .frnd _ _ _ d _ | .fclass _ d _ | .fscale _ _ d _ _ => some (d, 1)
  | .cvt dir f _ _ d _ =>
    match dir with
    | .toF32 => some (d, 1)
    | .toF64 => some (d, 2)
    | _ => some (d, if fmtWidth f = 64 then 2 else 1)
  | .quant _ _ _ _ d _ => some (d, 2)
  | .deq _ _ _ d _ _ => some (d, 1)
  | .h2add _ _ d _ _ | .h2mul _ _ d _ _ | .h2fma _ d _ _ _ | .fdot2 _ d _ _ _ => some (d, 1)
  | .dadd _ d _ _ | .dmul _ d _ _ | .dfma _ d _ _ _ => some (d, 2)
  | .mmag _ _ _ d _ _ => some (.v d, 8)
  | .cmul t _ _ d _ _ => some (d, if t = .f32 then 2 else 1)
  | .rng f d _ _ => some (d, if fmtWidth f = 64 then 2 else 1)
  | .movi t d _ => some (d, ityRegs t)
  | .movhi d _ _ | .ldc d _ _ | .fmovi d _ | .faddi _ d _ _ | .fmuli _ d _ _ | .fmai _ d _ _ | .fcmpi _ d _ _ => some (d, 1)
  | .iaddi t _ d _ _ | .imuli t _ d _ _ => some (d, ityRegs t)
  | .andi t d _ _ | .ori t d _ _ | .xori t d _ _ | .shli t d _ _ | .shri t d _ _ | .sari t d _ _ => some (d, ityRegs t)
  | .icmpi _ _ d _ _ => some (d, 1)
  | .leai _ d _ _ => some (d, 2)
  | .ld sz _ d _ _ _ | .lds sz _ d _ _ _ | .ldp sz d _ _ _ | .ldacc sz d _ _ _ | .eld sz _ d _ _ _ => some (d, sizeRegs sz)
  | .qget d _ f => some (d, if f.val = 6 then 1 else 2)
  | .ldt d _ => some (d, 1)
  | .aadd w _ d _ _ _ | .amin w _ d _ _ _ | .amax w _ d _ _ _ | .aand w _ d _ _ _ | .aor w _ d _ _ _
  | .axor w _ d _ _ _ | .axchg w _ d _ _ _ | .acas w _ d _ _ _ | .afadd w _ d _ _ _ => some (d, if w then 2 else 1)
  | .ainc _ d _ _ _ | .afmin _ d _ _ _ | .afmax _ d _ _ _ | .afadd2 _ d _ _ _ => some (d, 1)
  | .est _ _ d _ _ _ | .enew _ d _ _ => some (d, 1)
  | .pquery d _ _ => some (d, 2)
  | .call _ link | .jmpi _ link => some (link, 2)
  | .barArr c _ => match c with
    | .v n => some (.v n, 1)
    | .o n => some (.o n, 1)
    | _ => none
  | .sread d sr _ => some (d, if sregWide sr then 2 else 1)
  | .csrr d n | .csrw _ d n _ => some (d, if csrWide n then 2 else 1)
  | .tick d | .ebudGet d | .ebudSet d _ _ => some (d, 2)
  | .rclassSet _ d | .rclassGet d => some (d, 1)
  | _ => none

/-- A stream may be named as the destination: the integer, float and immediate groups (R48, R120, R159). -/
def destMayStream : Instr → Bool
  | .mov .. | .iadd .. | .isub .. | .imul .. | .imulh .. | .iaddw .. | .imulw .. | .imad .. | .imin .. | .imax ..
  | .iabs .. | .and .. | .or .. | .xor .. | .andn .. | .shl .. | .shr .. | .sar .. | .rot .. | .bfx .. | .bfi ..
  | .popc .. | .clz .. | .ctz .. | .brev .. | .icmp .. | .sel .. | .lea .. | .prmt .. | .vote .. | .perm ..
  | .fadd .. | .fsub .. | .fmul .. | .fma .. | .fmac .. | .fmin .. | .fmax .. | .fcmp .. | .frcp .. | .frsq ..
  | .fsqrt .. | .fexp2 .. | .flog2 .. | .frnd .. | .fclass .. | .fscale .. | .cvt .. | .deq .. | .h2add .. | .h2mul ..
  | .h2fma .. | .fdot2 .. | .dadd .. | .dmul .. | .dfma .. | .cmul .. | .rng .. | .movi .. | .movhi .. | .iaddi ..
  | .imuli .. | .andi .. | .ori .. | .xori .. | .shli .. | .shri .. | .sari .. | .icmpi .. | .fmovi .. | .faddi ..
  | .fmuli .. | .fmai .. | .fcmpi .. | .ldc .. | .leai .. => true
  | _ => false

/-- `none` may not be named as the destination: a pair that the instruction's row requires (R112, R159),
a link of `call` (R98), and a third source that is the destination (R34: 0xFF is no source). -/
def destNeeded : Instr → Bool
  | .quant .. | .tick .. | .call .. | .fmac .. | .fmai .. => true
  | _ => false

/-- Operands carry the identity pattern and name no stream: data of stores, engine and system groups (R120, R141, R159). -/
def strictSrcs : Instr → Bool
  | .fcopy .. | .pcmd .. | .pbank .. | .pclr .. | .sgset .. | .coll .. | .collNow .. | .bkset .. | .bkadd ..
  | .tapePush .. | .taskPost .. | .spawn .. | .launch .. | .sread .. | .swrite .. | .csrw .. | .trace .. | .icinv ..
  | .lmapSet .. | .lmapClr .. | .ebudSet .. => true
  | _ => false

/-- A uniform source (R42). -/
def srcUniform : Src → Bool
  | .c _ | .imm _ | .lit _ | .lane | .grp => true
  | _ => false

/-- The integer value of a 5-bit immediate specifier (R42). -/
def immVal (k : Fin 32) : Int := sext 5 k.val

/-- The fill admits this source as an operand of this type (R34, R43, R45, R47, R112). -/
def okSrc (t : OTy) (s : Src) : Bool :=
  let n := otyRegs t
  let align := match s with
    | .v k => k.val % n == 0
    | .o k => (n == 1 || (n == 2 && k.val % 2 == 0))
    | .c k => (n == 1 || (n == 2 && k.val % 2 == 0))
    | .h1 => n == 1
    | .h0 => n ≤ 2
    | _ => true
  let kind := match t with
    | .int _ | .dyn => true
    | .flt f => match s with
      | .imm k => immFits f (immVal k)
      | .lane | .grp => false
      | _ => true
    | .pair bf => match s with
      | .imm k => immFits (pairFmt bf) (immVal k)
      | .lane | .grp => false
      | _ => true
    | .cplx t => match s with
      | .imm k => immFits (ftyFmt t) (immVal k)
      | .lane | .grp => false
      | _ => true
    | .q4 | .run _ => match s with
      | .v _ => true
      | _ => false
  align && kind

/-- The fill admits this operand field (R34). -/
def okOpnd (t : OTy) (o : Opnd) : Bool :=
  okSrc t o.src && (o.pat == .ident || !srcUniform o.src)

/-- The fill admits this destination for a result of n registers (R48, R79). -/
def okDst (n : DTy) (stream needed : Bool) : Dst → Bool
  | .v k => k.val % n == 0
  | .o k => n == 1 || (n == 2 && k.val % 2 == 0)
  | .q _ => stream && decide (n ≤ 2)
  | .none => !needed

/-- SEM and SCOPE as R79 admits them: a plain access carries scope 000. -/
def okOrd (plain : Bool) (o : Ord) : Bool := if o.sem == .plain then plain && o.scope == .core else true

/-- INDEX of a BARID in range (R147). -/
def okBar (b : BarId) : Bool :=
  match b.scope with
  | .core | .quad => decide (b.index.val < 16)
  | .die | .pkg => decide (b.index.val < 32)
  | .pod => true

/-- The element formats of `quant` and `deq` (R112). -/
def quantFmt : Fmt → Bool
  | .e4m3 | .e5m2 | .e2m3 | .e3m2 | .e2m1 | .mxint8 | .b8 .. => true
  | _ => false

/-- b8 as R62 admits it: signed P is 1 to 7. -/
def okFmt : Fmt → Bool
  | .b8 u _ p => u || decide (p.val ≠ 7)
  | _ => true

/-- Size admitted: all but e, and all but q and e. -/
def sizeNoE (s : Size) : Bool := s != .e
/-- b, h, w or d. -/
def sizeBHWD (s : Size) : Bool := s != .e && s != .q

/-- A source that is a pair of registers, as `spawn` asks (R158, R47). -/
def pairSrc : Src → Bool
  | .v _ | .o _ | .c _ | .h0 => true
  | _ => false

/-- What the description of each instruction admits beyond its operands' and destination's shape. -/
def okForm : Instr → Bool
  | .perm _ _ a _ => a.pat == .ident
  | .cvt dir f sat _ _ _ =>
    okFmt f && (match dir with
    | .fromF32 => f != .f32 && f != .f64 && f != .e8m0 && (!sat || !fmtIsInt f)
    | .toF32 => f != .f32 && f != .f64
    | .fromF64 => f != .f64 && f != .e8m0 && (!sat || !fmtIsInt f)
    | .toF64 => f != .f64)
  | .quant f blk tr _ _ a =>
    quantFmt f && okFmt f && (if tr then blkK blk == 1 && (match a.src with | .q _ => true | _ => false) else true)
  | .deq f j _ _ _ _ => quantFmt f && okFmt f && decide ((j.val + 1) * fmtWidth f ≤ 32)
  | .mmag f mix _ d a b =>
    (match f with | .f16 | .bf16 => !mix | .e4m3 | .e5m2 => true | _ => false) &&
    (a.val + 4 ≤ d.val || d.val + 8 ≤ a.val) && (b.val + 4 ≤ d.val || d.val + 8 ≤ b.val)
  | .rng f _ _ b =>
    (match f with | .z32 | .z64 | .f32 => true | _ => false) &&
    (match b.src with | .v _ | .o _ => true | _ => false)
  | .shli t _ _ k | .shri t _ _ k | .sari t _ _ k => decide (k.toNat < ityW t)
  | .ld _ ord _ _ _ _ | .st _ ord _ _ _ _ => okOrd true ord
  | .lds sz _ _ _ _ _ | .sts sz _ _ _ _ _ => sizeNoE sz
  | .ldp sz _ _ _ _ | .stp sz _ _ _ _ => sizeNoE sz
  | .ldacc sz _ _ _ _ => sz == .w || sz == .d || sz == .q
  | .aadd _ o _ _ _ _ | .amin _ o _ _ _ _ | .amax _ o _ _ _ _ | .aand _ o _ _ _ _ | .aor _ o _ _ _ _
  | .axor _ o _ _ _ _ | .axchg _ o _ _ _ _ | .acas _ o _ _ _ _ | .afadd _ o _ _ _ _ => okOrd false o
  | .ainc o _ _ _ _ | .afmin o _ _ _ _ | .afmax o _ _ _ _ | .afadd2 o _ _ _ _ => okOrd false o
  | .eld sz o _ _ _ _ | .est sz o _ _ _ _ => sizeBHWD sz && okOrd true o
  | .erel o _ _ _ | .enew o _ _ _ => okOrd true o
  | .brx _ _ st ct => st != 0 && ct != 0
  | .barArr c b => okBar b && (match c with | .v _ | .o _ => true | _ => false)
  | .barWait _ b | .barSync b | .barInit _ b => okBar b
  | .pbank _ _ _ b _ | .pclr _ _ b _ => okBar b
  | .swrite sr _ _ => sr == .svscr
  | .spawn a b => pairSrc a && pairSrc b
  | .csrw _ _ n _ => !csrRO n
  | _ => true

/-- The long instruction a short form expands to (R33, R85); none where its C operand would be no source. -/
def expandShort : Instr → Option Instr
  | .nopShort => some (.nop)
  | .movShort d a => some (.mov .i32 d (op a))
  | .iaddShort d a b => some (.iadd .i32 false d (op a) (op b))
  | .isubShort d a b => some (.isub .i32 false d (op a) (op b))
  | .imulShort d a b => some (.imul .i32 false d (op a) (op b))
  | .imulhShort d a b => some (.imulh false d (op a) (op b))
  | .imadShort d a b => (dstAsSrc d).map (fun s => let c := op s; .imad d (op a) (op b) c)
  | .iminShort d a b => some (.imin .i32 d (op a) (op b))
  | .imaxShort d a b => some (.imax .i32 d (op a) (op b))
  | .iminZ32Short d a b => some (.imin .z32 d (op a) (op b))
  | .imaxZ32Short d a b => some (.imax .z32 d (op a) (op b))
  | .iabsShort d a => some (.iabs false false d (op a))
  | .andShort d a b => some (.and .i32 d (op a) (op b))
  | .orShort d a b => some (.or .i32 d (op a) (op b))
  | .xorShort d a b => some (.xor .i32 d (op a) (op b))
  | .andnShort d a b => some (.andn .i32 d (op a) (op b))
  | .shlShort d a b => some (.shl .i32 d (op a) (op b))
  | .shrShort d a b => some (.shr .i32 d (op a) (op b))
  | .sarShort d a b => some (.sar .i32 d (op a) (op b))
  | .rotShort d a b => some (.rot .i32 d (op a) (op b))
  | .popcShort d a => some (.popc .i32 d (op a))
  | .clzShort d a => some (.clz .i32 d (op a))
  | .ctzShort d a => some (.ctz .i32 d (op a))
  | .brevShort d a => some (.brev .i32 d (op a))
  | .icmpEqShort d a b => some (.icmp .eq .i32 d (op a) (op b))
  | .icmpNeShort d a b => some (.icmp .ne .i32 d (op a) (op b))
  | .icmpLtShort d a b => some (.icmp .lt .i32 d (op a) (op b))
  | .icmpLeShort d a b => some (.icmp .le .i32 d (op a) (op b))
  | .icmpLtZ32Short d a b => some (.icmp .lt .z32 d (op a) (op b))
  | .icmpLeZ32Short d a b => some (.icmp .le .z32 d (op a) (op b))
  | .selShort d a b => (dstAsSrc d).map (fun s => let c := op s; .sel d (op a) (op b) c)
  | .permShort d a b => some (.perm false d (op a) (op b))
  | .faddShort d a b => some (.fadd .f32 .dyn d (op a) (op b))
  | .fsubShort d a b => some (.fsub .f32 .dyn d (op a) (op b))
  | .fmulShort d a b => some (.fmul .f32 .dyn d (op a) (op b))
  | .fmaShort d a b => (dstAsSrc d).map (fun s => let c := op s; .fma false d (op a) (op b) c)
  | .fmacShort d a b => some (.fmac .f32 .dyn d (op a) (op b))
  | .fminShort d a b => some (.fmin .f32 false d (op a) (op b))
  | .fmaxShort d a b => some (.fmax .f32 false d (op a) (op b))
  | .fcmpEqShort d a b => some (.fcmp .eq .f32 d (op a) (op b))
  | .fcmpLtShort d a b => some (.fcmp .lt .f32 d (op a) (op b))
  | .fcmpLeShort d a b => some (.fcmp .le .f32 d (op a) (op b))
  | .frcpShort d a => some (.frcp .dyn d (op a))
  | .frsqShort d a => some (.frsq .dyn d (op a))
  | .fsqrtShort d a => some (.fsqrt .dyn d (op a))
  | .fexp2Short d a => some (.fexp2 .dyn d (op a))
  | .flog2Short d a => some (.flog2 .dyn d (op a))
  | .frndShort d a => some (.frnd .f32 .dyn false d (op a))
  | .fclassShort d a => some (.fclass .f32 d (op a))
  | .fscaleShort d a b => some (.fscale .f32 .dyn d (op a) (op b))
  | .cvtI32F32Short d a => some (.cvt .toF32 .i32 false .dyn d (op a))
  | .cvtF32I32Short d a => some (.cvt .fromF32 .i32 false .rtz d (op a))
  | .h2addF16Short d a b => some (.h2add false .dyn d (op a) (op b))
  | .h2mulF16Short d a b => some (.h2mul false .dyn d (op a) (op b))
  | .h2fmaF16Short d a b => (dstAsSrc d).map (fun s => let c := op s; .h2fma false d (op a) (op b) c)
  | .h2addBf16Short d a b => some (.h2add true .dyn d (op a) (op b))
  | .h2mulBf16Short d a b => some (.h2mul true .dyn d (op a) (op b))
  | .h2fmaBf16Short d a b => (dstAsSrc d).map (fun s => let c := op s; .h2fma true d (op a) (op b) c)
  | .fdot2F16Short d a b => (dstAsSrc d).map (fun s => let c := op s; .fdot2 false d (op a) (op b) c)
  | .fdot2Bf16Short d a b => (dstAsSrc d).map (fun s => let c := op s; .fdot2 true d (op a) (op b) c)
  | .daddShort d a b => some (.dadd .dyn d (op a) (op b))
  | .dmulShort d a b => some (.dmul .dyn d (op a) (op b))
  | .dfmaShort d a b => (dstAsSrc d).map (fun s => let c := op s; .dfma false d (op a) (op b) c)
  | _ => none

/-- The specifiers of a short form: neither source names LIT (R33). -/
def shortSrcs (i : Instr) : List Src := (srcs i).map (fun p => p.1.src)

/-- A step of the device that is no instruction word (spec/95). -/
def isEvent : Instr → Bool
  | .fill .. | .loopBufferRefill .. | .codePrefetch .. | .resultWriteback .. | .sleepEnd .. | .leave .. | .drainMove ..
  | .deliver .. | .refresh .. | .drop .. | .promote .. | .wake .. | .pollListRead .. | .refitStart ..
  | .knotRead .. | .refitVerify .. | .refitSwap .. | .errataTimeout .. | .pressCommandStart .. | .pressCommandComplete .. | .pclrRun ..
  | .bankLoad .. | .bankLoadComplete .. | .feederCopyStart .. | .tileLanded .. | .followOnAppend .. | .fixupReplay .. | .feederCopyComplete ..
  | .qfenceComplete .. | .sgsetComplete .. | .kickAppend .. | .collectiveRendezvous .. | .collectiveStart .. | .collectiveComplete .. | .galleyTimeout ..
  | .galleyStart .. | .taskStart .. | .gangPlace .. | .gangEnd .. | .saveComplete .. | .faultResolve .. | .faultOutcome ..
  | .groupRestore .. | .pageEvict .. | .quantumExpiry .. | .deadlineExpiry .. | .unitReload .. | .qtailWrite .. | .launchDequeue ..
  | .launchComplete .. | .contextEnable .. | .contextDisable .. | .registerWrite .. | .packageReset | .linkTrained .. | .firmwareLoad ..
  | .firmwareVerified .. | .memoryInitDone .. | .powerLimitWrite .. | .clockChange .. | .invalidatePage .. | .invalidateAsid .. | .invalidateVmid ..
  | .invalidateAll .. | .invalidationComplete .. | .icinvComplete .. | .lmapComplete .. | .pipeError .. | .enginePipeError .. | .scrub ..
  | .faultWindowWrite .. | .coreFence .. | .routerDown .. | .linkDown .. | .networkResume .. | .replay .. | .rightsWrite ..
  | .rightsTakeEffect .. | .debugHalt .. | .debugResume .. | .readreg .. | .writereg .. | .tropen .. | .trclose ..
  | .badcmd .. | .stopatWrite .. | .packageStop .. | .sample .. | .gtickAdvance .. | .storageError .. | .hostMemoryAccess .. => true
  | _ => false

/-- A long instruction as the fill admits it. -/
def legalLong (i : Instr) : Bool :=
  okForm i &&
  (srcs i).all (fun p => okOpnd p.2 p.1 && (!strictSrcs i || (p.1.pat == .ident && (match p.1.src with | .q _ => false | _ => true)))) &&
  (match i with
    | .st _ _ x .. | .sts _ _ x .. | .stp _ x .. | .ttag x _ | .pset x .. => (match x with | .q _ => false | _ => true)
    | .est _ _ _ _ _ b => b.pat == .ident && (match b.src with | .q _ => false | _ => true)
    | _ => true) &&
  (match dest i with
    | some (d, n) => okDst n (destMayStream i) (destNeeded i) d
    | none => match i with
      | .barArr .. => false
      | _ => true)

/-- The literal words an instruction names. -/
def lits (i : Instr) : List W32 :=
  (srcs i).filterMap (fun p => match p.1.src with | .lit w => some w | _ => none)

/-- What the fill admits (R34, R74, R86): a long form with one literal at most, or a short form whose
expansion it admits and which names no literal; a step of the device is no word, and is always admitted. -/
def legal (i : Instr) : Bool :=
  match expandShort i with
  | some j => legalLong j && (lits j).isEmpty
  | none => if isEvent i then true else
    match i with
    | .nopShort .. | .movShort .. | .iaddShort .. | .isubShort .. | .imulShort .. | .imulhShort .. | .imadShort ..
    | .iminShort .. | .imaxShort .. | .iminZ32Short .. | .imaxZ32Short .. | .iabsShort .. | .andShort .. | .orShort ..
    | .xorShort .. | .andnShort .. | .shlShort .. | .shrShort .. | .sarShort .. | .rotShort .. | .popcShort ..
    | .clzShort .. | .ctzShort .. | .brevShort .. | .icmpEqShort .. | .icmpNeShort .. | .icmpLtShort .. | .icmpLeShort ..
    | .icmpLtZ32Short .. | .icmpLeZ32Short .. | .selShort .. | .permShort .. | .faddShort .. | .fsubShort .. | .fmulShort ..
    | .fmaShort .. | .fmacShort .. | .fminShort .. | .fmaxShort .. | .fcmpEqShort .. | .fcmpLtShort .. | .fcmpLeShort ..
    | .frcpShort .. | .frsqShort .. | .fsqrtShort .. | .fexp2Short .. | .flog2Short .. | .frndShort .. | .fclassShort ..
    | .fscaleShort .. | .cvtI32F32Short .. | .cvtF32I32Short .. | .h2addF16Short .. | .h2mulF16Short .. | .h2fmaF16Short .. | .h2addBf16Short ..
    | .h2mulBf16Short .. | .h2fmaBf16Short .. | .fdot2F16Short .. | .fdot2Bf16Short .. | .daddShort .. | .dmulShort .. | .dfmaShort .. => false
    | _ => legalLong i && (match lits i with | [] => true | w :: ws => ws.all (· == w))

end Sys2Proof.Machine
end

