-- ==== Sys2Proof/Machine/Parts.lean ====
section
/-! DEFINITION. The component records of State: threads, groups, gangs, the ordering machine, translation,
the Foreman, and the reliability state. Every record is plain data. -/

namespace Sys2Proof.Machine

/-! ### Threads (spec/13, spec/23) -/

/-- Privilege modes (R290). -/
inductive Mode where
  | u | s | h
  deriving DecidableEq, Repr

/-- TCAUSE codes (R293). -/
inductive Cause where
  | illegal | badTarget | badBlock | priv | align | access | fpx | syscall | hcall | brk | editionGone
  | editionOverflow | errataFull | layoutMismatch | classCross | poison | budgetExhausted | watch | doubleFault
  deriving DecidableEq, Repr

/-- The ways control enters a block (R27); `vector` is the indirect entry of a trap vector (R295). -/
inductive Entry where
  | fallthrough | branch | call | indirect | ret | start | vector
  deriving DecidableEq, Repr

/-- One dimension of a stream (R50). -/
structure Dim where
  stride : W32 := 0
  ext : BitVec 16 := 0
  deriving DecidableEq, Repr

/-- A stream register (R50). -/
structure Stream where
  base : W64 := 0
  dims : List Dim := [{}, {}, {}, {}, {}]
  esize : BitVec 2 := 0
  sign : Bool := false
  pos : W64 := 0
  deriving DecidableEq, Repr

/-- A region record (R298): the restart point, its block's header, the entry count, and the recorded values. -/
structure Region where
  regpc : W64 := 0
  reghdr : W64 := 0
  regcnt : W32 := 0
  pos : List W64 := [0, 0, 0, 0, 0, 0, 0, 0]
  h0 : W32 := 0
  h1 : W32 := 0
  srcnt : W64 := 0
  deriving DecidableEq, Repr

/-- Where a thread's next instruction is: a word of an entered block with the words still to run, or a block
that it has yet to enter (a block without instructions was just left, R25, or a vector was not present, R295).
`src` is the address reported as TXPC where the entry fails. -/
inductive Pos where
  | word (hdr : W64) (len : Nat) (pc : W64) (left : Nat)
  | enter (h : W64) (kind : Entry) (src : W64)
  deriving DecidableEq, Repr

/-- A commit of a lane that has issued and is not performed (R125): its access, the level of its region record, the record
that it leaves, the record before it, and whether the record of the lane is past it already. -/
structure Commit where
  acc : Nat
  depth : Nat
  region : Region
  before : Region := {}
  taken : Bool := false
  deriving DecidableEq, Repr

/-- What an instruction changed at its issue that a trap of its access gives back (R49, R51): its level, POS of its streams before it, and h0
and h1 before it where it shifts them. -/
structure Undo where
  depth : Nat
  pos : List (Nat × W64)
  h : Option (W32 × W32) := none
  deriving DecidableEq, Repr

/-- The name of a barrier: its scope, the launch or gang that holds it, the unit of the scope, its index (R147). -/
structure BarKey where
  scope : Scope
  holder : Nat
  unit : Nat
  index : Nat
  deriving DecidableEq, Repr

/-- What a waiting thread waits for (R188). -/
inductive Wait where
  /-- `bar.wait` or `bar.sync` with its token (R149). -/
  | bar (k : BarKey) (bid : Nat) (token : W32) (sync : Bool)
  /-- An `eld` parked under (cell, edition), with its access (R138). -/
  | eld (cell ed acc : Nat)
  /-- `wait` with its four thresholds (R145). -/
  | count (ld st cp tl : Nat)
  /-- `drain` with the commands it waits for (R146). -/
  | drain (cmds : List Nat)
  /-- `fence` (R140). -/
  | fence (k : FenceKind) (scope : Scope)
  /-- `psync`: the request (R139). -/
  | psync (id : Nat)
  /-- `icinv` (R170). -/
  | icinv (id : Nat)
  /-- `lmap` (R171). -/
  | lmap (id : Nat)
  /-- `sleep` until GTICK reaches this tick (R101). -/
  | sleep (until_ : Nat)
  /-- `spawn` without a free galley, with its slug (R158). -/
  | spawn (entry arg : W64)
  deriving DecidableEq, Repr

/-- Thread states (R188). -/
inductive TState where
  | run | wait (w : Wait) | exited
  deriving DecidableEq, Repr

/-- The atomic operations (R136). -/
inductive AtomOp where
  | add | min | max | and | or | xor | xchg | inc | cas | fadd | fmin | fmax | fadd2
  deriving DecidableEq, Repr

/-- A store-side access in the ordering machine: what it does when it is performed (R216, R224). -/
inductive Act where
  /-- Bytes of ordinary or code memory. -/
  | bytes (bs : List Byte)
  /-- Scratch bytes (`sts`). -/
  | scratch (bs : List Byte)
  /-- Private bytes (`stp`). -/
  | priv (bs : List Byte)
  /-- A tile tag (`ttag`). -/
  | tag (w : W32)
  /-- An atomic on ordinary memory: operand and comparand. -/
  | atom (op : AtomOp) (w : Nat) (x cmp : Nat)
  /-- An atomic on an editioned cell; `desc` is the edition descriptor. -/
  | atomEd (op : AtomOp) (w : Nat) (x cmp : Nat) (desc : Nat)
  /-- `est` or a store to an editioned cell: accessed bytes. -/
  | est (bs : List Byte) (desc : Nat)
  /-- `erel` with its mark. -/
  | erel (mark : W32) (desc : Nat)
  /-- A plated store of an element code. -/
  | plate (idx code : Nat) (desc : Nat)
  /-- `precast`. -/
  | precast (desc : Nat)
  /-- `pset` of a staged word. -/
  | pset (idx : Nat) (w : W32) (desc : Nat)
  /-- `cwb`: it is performed when the stores before it are (R135). -/
  | mark
  /-- `st.e` on an ordinary page: w bits at a bit offset, atomic against other `st.e` (R129). -/
  | bits (ofs w code : Nat)
  deriving DecidableEq, Repr

/-- The registers a result goes to: kind v (0) or o (1), first number, count; count 0 for `none`. -/
structure Target where
  o : Bool := false
  n : Nat := 0
  cnt : Nat := 0
  deriving DecidableEq, Repr

/-- An entry of a thread FIFO or a core view (R214). `acc` is the access it counts under (R143); `owner` and
`pa` are its owner-physical place, `va` its effective address; `commits` marks a commit (R125), `pc` its instruction. -/
structure FEntry where
  id : Nat
  uid : Nat
  lane : Nat
  acc : Nat
  act : Act
  owner : Nat
  pa : Nat
  va : W64
  size : Nat
  sem : Sem
  scope : Scope
  coreRel : Bool := false
  dest : Target := {}
  commits : Bool := false
  pc : W64 := 0
  /-- The package it goes to, none for this one. -/
  peer : Option Nat := none
  /-- Context and launch of the issuing thread, and the class of the page. -/
  ctx : Nat := 0
  launch : Nat := 0
  cls : RClass := .proof
  undo : Option Undo := none
  /-- Where the bytes beyond the first page lie, of an element that two pages share, and the class of that page (R128). -/
  tail : Option (Nat × RClass) := none
  deriving DecidableEq, Repr

/-- A read request (R217 rule 4): what its delivery computes. -/
inductive ReadKind where
  | bytes (sext : Bool)
  /-- An element of a stream, by stream number (R52). -/
  | stream (k : Nat)
  /-- An element of a stream on an editioned page (R52, R122). -/
  | streamEd (k ofs desc : Nat)
  /-- `ld.e` on an ordinary page: bit offset, element format, key of the block scale byte or none (R129). -/
  | elem (ofs : Nat) (f : Fmt) (scale : Option Nat)
  /-- Newest edition (`ld` of an editioned cell). -/
  | newest (ofs desc : Nat)
  /-- `eld` of an edition. -/
  | eld (ofs ed desc : Nat)
  /-- `enew`. -/
  | enew (desc : Nat)
  /-- A plated element (R247). -/
  | plate (idx : Nat) (desc : Nat)
  /-- `pquery`. -/
  | pquery (desc : Nat)
  /-- `psync`: it is performed once this many refits of the region have ended. -/
  | psync (desc target : Nat)
  deriving DecidableEq, Repr

/-- A load that is performed at the owner, by the thread that issued it (R217). `peer` is the package it is sent
to, none for this one; `waits` marks a lane that is held at its instruction for it, `pc` is the instruction, `cls` the class of the page. -/
structure ReadReq where
  kind : ReadKind
  uid : Nat
  lane : Nat
  acc : Nat
  owner : Nat
  pa : Nat
  va : W64
  size : Nat
  sem : Sem
  scope : Scope
  dest : Target := {}
  waits : Bool := false
  pc : W64 := 0
  cls : RClass := .proof
  peer : Option Nat := none
  ctx : Nat := 0
  launch : Nat := 0
  undo : Option Undo := none
  /-- Where the bytes beyond the first page lie, of an element that two pages share, and the class of that page (R128). -/
  tail : Option (Nat × RClass) := none
  deriving DecidableEq, Repr

/-- A transfer of a link queue (R214): a store-side entry, or a read request, with the issuing die; its place in the queue is
its number. -/
inductive Xfer where
  | entry (e : FEntry) (die : Nat)
  | read (r : ReadReq) (die : Nat)
  deriving DecidableEq, Repr

/-- What a sent read of a stream element brought, or that of an `eld`: its raw code, consumed errors with their keys, or a trap. -/
inductive Got where
  | val (x : Nat)
  | poison (keys : List Nat)
  | trap (c : Cause)
  deriving DecidableEq, Repr

/-- A thread (R188, R196, R291). -/
structure Lane where
  v : SMap W32 := []
  vpois : List Nat := []
  /-- Words with an error that the next read meets: it is counted then (R204, R355). -/
  vmark : List Nat := []
  o : SMap W32 := []
  h0 : W32 := 0
  h1 : W32 := 0
  q : List Stream := [{}, {}, {}, {}, {}, {}, {}, {}]
  at_ : Pos := .enter 0 .start 0
  st : TState := .exited
  /-- The cycle from which a wake takes effect (R190). -/
  readyAt : Nat := 0
  mode : Mode := .u
  depth : Nat := 0
  fmode : W32 := 1
  srseed : W64 := 0
  srcnt : W64 := 0
  recs : List Region := [{}, {}, {}, {}, {}]
  retire : Bool := false
  rclass : RClass := .proof
  syncp : Bool := false
  synctok : W32 := 0
  tscratch : W64 := 0
  tvec : W64 := 0
  hvec : W64 := 0
  priv : SMap Byte := []
  privPois : List (Nat × Nat) := []
  /-- Stores issued and not yet in the core view, oldest first (R214). -/
  fifo : List FEntry := []
  /-- BUDGET_EXHAUSTED latches taken (R355). -/
  budgetSeen : Nat := 0
  /-- The latched engine fault has been taken (R144). -/
  engTaken : Bool := false
  /-- Faulted phases whose cause this thread has taken (R144, R150). -/
  phasesTaken : List (BarKey × W32) := []
  /-- The machine step in which the last acquire at pkg or pod was performed (R219). -/
  acqStep : Nat := 0
  /-- Length of the instruction that a waiting thread is inside. -/
  ilen : Nat := 0
  /-- Streams that advance when the instruction a waiting thread is inside is finished (R51). -/
  qdue : List Nat := []
  /-- The access under which a woken `eld` is evaluated again (R200, R224). -/
  eldAcc : Option Nat := none
  /-- A `fence.rel`, `.ar` or `.sc` at core scope lies before (R221). -/
  coreRelFence : Bool := false
  /-- Commits issued and not performed, oldest first (R125). -/
  commits : List Commit := []
  /-- The access of a sent `eld`, or of sent stream elements, for which the lane is held at its instruction. -/
  flight : Option Nat := none
  /-- Stream elements that have come for the instruction the lane is held at, by stream number. -/
  qgot : List (Nat × Got) := []
  /-- The answer to the lane's `eld`, while those of other lanes of its set are on their way (R234). -/
  eldGot : Option (ReadReq × Got) := none
  /-- Plated stores of the lane that a plate unit holds because their errata list is full, by access: it waits meanwhile (R129, R248). -/
  held : List Nat := []
  /-- TXPC and TXVAL of a BREAK that a debug port claimed, until its group goes on (R162, R362). -/
  broke : Option (W64 × W64) := none
  /-- A WATCH that a debug port claimed stopped the lane: it goes on at REGPC once its group is resumed (R362). -/
  rewind : Bool := false
  deriving DecidableEq, Repr

/-! ### Groups and gangs (spec/13, spec/14) -/

/-- The counter an access raises (R143). -/
inductive Ctr where
  | ld | st | cp | tl
  deriving DecidableEq, Repr

/-- An access in flight: its counter and the lanes still outstanding (R143). -/
structure Acc where
  ctr : Ctr
  left : Nat
  deriving DecidableEq, Repr

/-- A register word written back: lane, register (v below 128, o 128 to 135, h0 136, h1 137), value. -/
structure RegWrite where
  lane : Nat
  reg : Nat
  val : W32
  deriving DecidableEq, Repr

/-- A lane that has issued a scoreboarded instruction: its level, its region record as its earlier commits leave it, and the flags that the
instruction raised. -/
structure Issued where
  lane : Nat
  depth : Nat
  region : Region
  raised : W32
  deriving DecidableEq, Repr

/-- A scoreboarded result not yet written (R109): its writes, the stream stores that it issues then, and its access. `frozen`
lanes issue nothing further until it is written. `since` are the lanes of a computed result, which its checks may still void (R341). -/
structure Pending where
  writes : List RegWrite
  stores : List FEntry := []
  acc : Option Nat := none
  frozen : List Nat := []
  since : List Issued := []
  deriving DecidableEq, Repr

/-- Lanes of a group at one address and mode (R22). -/
structure ISet where
  pc : W64
  mode : Mode
  lanes : List Nat
  deriving DecidableEq, Repr

/-- Why a group is saved (R301, R234, R347). -/
inductive SaveWhy where
  | pageFault | waitOverflow | fencing
  deriving DecidableEq, Repr

/-- Where a group is: in a slot, leaving its slot, or saved (R301, R302). -/
inductive Place where
  | resident (slot : Nat)
  | saving (slot : Nat) (why : SaveWhy)
  | saved (why : SaveWhy) (due : Bool)
  deriving DecidableEq, Repr

/-- A lane access that met an absent or unmapped page, until its outcome (R301, R303, R318). -/
structure LaneFault where
  lane : Nat
  /-- The pointer that faulted. -/
  va : W64
  /-- The instruction, reported as TXPC where the page is denied. -/
  pc : W64
  /-- ACC code of the access (R319). -/
  acc : Nat
  /-- The page fault arose on entering a trap vector (R303). -/
  vector : Bool := false
  denied : Bool := false
  /-- WHERE of the fault (R319). -/
  where_ : Nat := 8
  deriving DecidableEq, Repr

/-- What a group was started from (R157, R158, R198). -/
inductive StartKind where
  | launch | task (succ : W64) | galley
  deriving DecidableEq, Repr

/-- A fault of an engine command (R144): cause, record address, and the command. -/
structure EngFault where
  cause : Cause
  at_ : W64
  cmd : Nat
  deriving DecidableEq, Repr

/-- A group of 32 threads (R22). -/
structure Group where
  gang : Nat
  gidx : Nat := 0
  place : Place
  lanes : List Lane
  ld : Nat := 0
  st : Nat := 0
  cp : Nat := 0
  tl : Nat := 0
  accs : Table Acc := []
  pend : Table Pending := []
  /-- The engine-fault record (R144). -/
  engFault : Option EngFault := none
  /-- A fault that found the record occupied and has not been taken through a phase (R144). -/
  engLost : List EngFault := []
  rpoint : Option W64 := none
  skip : Nat := 0
  ptr : Nat := 0
  start : StartKind := .launch
  cbank : SMap W32 := []
  cblen : Nat := 0
  /-- Lanes that resume at their restart points, and at their own instruction (R303). -/
  faults : List LaneFault := []
  restart : List Nat := []
  /-- Fault-queue tags that must resolve before the restore (R302). -/
  waitFor : List Nat := []
  /-- Save frame in use (number within the context's pool, R301). -/
  frame : Option Nat := none
  /-- Debug ports that halt the group (R360), and lanes halted there by a claimed BREAK or WATCH. -/
  halted : List Nat := []
  /-- The halt of its launch stops it (R172). -/
  stopped : Bool := false
  /-- The group ended; its slot frees when LD and ST are 0 (R100). -/
  ended : Bool := false
  /-- The pass-over of a `yield` (R101). -/
  yielded : Bool := false
  /-- The ready sets formed at the start of this cycle (R190). -/
  formed : List ISet := []
  /-- One more than the cycle in which it last issued. -/
  lastIssue : Nat := 0
  /-- The slot it held when it was last saved, by which a debug port names it (R361). -/
  lastSlot : Nat := 0
  deriving DecidableEq, Repr

/-- A barrier (R148), with the phases marked faulted (R144). -/
structure Bar where
  expect : W32 := 0
  arrived : W32 := 0
  phase : W32 := 0
  faulted : List (W32 × EngFault) := []
  deriving DecidableEq, Repr

/-! ### Translation (spec/24) -/

/-- Page kinds (R311). -/
inductive PKind where
  | ordinary | editioned | plated | code
  deriving DecidableEq, Repr

/-- A region-table entry (R312). -/
structure RegionEnt where
  base : W64
  elemfmt : Nat
  p8d : Nat
  block : Nat
  scale : Nat
  desc : Nat
  deriving DecidableEq, Repr

/-- The attributes of a page that a walk yields (R314). -/
structure PageAttr where
  frame : Nat
  size : Nat
  kind : PKind
  rclass : RClass
  sto : Bool
  ua : Bool
  rd : Bool
  wr : Bool
  ex : Bool
  region : Option RegionEnt
  deriving DecidableEq, Repr

/-- A TLB entry (R315, R316): tagged by VMID, ASID and virtual page. -/
structure TlbEnt where
  vmid : Nat
  asid : Nat
  vpage : Nat
  attr : PageAttr
  inflight : Nat := 0
  deriving DecidableEq, Repr

/-- The translation register block of one owner (R317). -/
structure TrBlk where
  ctxbase : W64 := 0
  tinva : W64 := 0
  tinvc : W32 := 0
  /-- The page in the scope of a page invalidation in course: its first offset and its bytes. -/
  span : Nat × Nat := (0, 0)
  deriving DecidableEq, Repr

/-- A record of the fault queue (R319), with its requester. -/
structure FaultRec where
  va : W64
  asid : Nat
  vmid : Nat
  source : Nat
  acc : Nat
  where_ : Nat
  core : Nat
  slot : Nat
  tag : Nat
  deriving DecidableEq, Repr

end Sys2Proof.Machine
end

