-- ==== Sys2Proof/Machine/Engines.lean ====
section
/-! DEFINITION. The records of the engines and services: Feeder, Press, collectives, plates, editions, launches,
contexts, debug ports and the reliability state. -/

namespace Sys2Proof.Machine

/-! ### Gangs and the Press (spec/14, spec/18) -/

/-- Press bank states (R256). -/
inductive BankState where
  | empty | loading | ready
  deriving DecidableEq, Repr

/-- A Press bank (R256): cells by k * 256 + n, per column and block exponent, scale and NaN mark. -/
structure Bank where
  state : BankState := .empty
  kb : Nat := 0
  fmt : Option Fmt := none
  /-- The load carried BLOCK 0 (scales are 127). -/
  scaled : Bool := false
  cells : SMap Int := []
  exps : SMap Int := []
  scales : SMap Nat := []
  /-- Blocks that hold a NaN or an infinity (R70). -/
  bad : List Nat := []
  /-- Cells whose check word holds a detected error (R337). -/
  pois : List Nat := []
  deriving DecidableEq, Repr

/-- A gang on its core (R195): its allotments and their contents. -/
structure Gang where
  core : Nat
  launch : Nat
  /-- Index of the gang in the grid, gx fastest (R331). -/
  index : Nat := 0
  groups : List Nat
  privsz : Nat
  kclass : RClass := .proof
  tiles : Nat := 0
  tags : SMap W32 := []
  scratch : SMap Byte := []
  scratchPois : List (Nat × Nat) := []
  accrows : Nat := 0
  acc : SMap W32 := []
  accPois : List Nat := []
  banks : List Bank := []
  bars : List Bar := []
  /-- The gang is saved whole by a fencing (R347). -/
  moved : Bool := false
  deriving DecidableEq, Repr

/-- A colophon not yet retired (R275, R276): its rows, address, record fields, and issuing gang and launch. -/
structure Colophon where
  row0 : Nat
  m : Nat
  gang : Nat
  colo : W64
  vmid : Nat
  asid : Nat
  cpin : Nat
  landed : Nat
  opready : Nat
  cstart : Nat
  cend : Nat
  stall : Nat
  opc : Nat
  bank : Nat
  slot : Nat
  launch : Nat
  mode : Mode
  deriving DecidableEq, Repr

/-- A segment of a fix-up list (R273): side (source 0, destination 1), the page's address and bytes, first unit and count, and whether its
page is present and pinned (R274). -/
structure Segment where
  dst : Bool
  va : W64
  size : Nat
  first : Nat
  count : Nat
  tag : Nat
  present : Bool := false
  pinned : Bool := false
  deriving DecidableEq, Repr

/-- Who issued an engine command: group, gang, core, launch, address space, the leader's mode and lane (R141, R314, R268). -/
structure Issuer where
  uid : Nat
  gang : Nat
  core : Nat
  launch : Nat
  vmid : Nat
  asid : Nat
  mode : Mode
  lane : Nat
  slot : Nat
  deriving DecidableEq, Repr

/-- What an engine command is (R152, R154, R155). -/
inductive CmdKind where
  | copy (desc follow : List Byte)
  | compute (record : List Byte) (cpin landed : Nat)
  | clear (row0 n : Nat) (bar : BarId) (arr : Bool)
  | bank (n : Nat) (addr : Nat) (tag : W32) (bar : BarId) (arr : Bool)
  | fence (wait : List Nat)
  | sgset (e : Nat) (pat : List Byte)
  | coll (record : List Byte)
  deriving DecidableEq, Repr

/-- Where a command stands: queued, started and moving data, its data all moved, or completed with a fault pending. -/
inductive CmdState where
  | queued | running | landed
  deriving DecidableEq, Repr

/-- A write of a command that has not reached the owner: its pointer, place and class, or another package, and its bytes. -/
structure OutWrite where
  va : W64
  owner : Nat
  pa : Nat
  cls : RClass
  peer : Option Nat
  bs : List Byte
  deriving DecidableEq, Repr

/-- An engine command (R141, R144). `srcAt` is the address of its source record, reported by a fault. -/
structure Cmd where
  kind : CmdKind
  by_ : Issuer
  srcAt : W64
  /-- Counters it holds (R143): CP, and TL, which a copy holds for its follow-on. -/
  cp : Bool := false
  tl : Bool := false
  state : CmdState := .queued
  /-- The first fault met (R144). -/
  fault : Option Cause := none
  /-- The cycle of issue (R146). -/
  cycle : Nat := 0
  /-- Fix-up list (R273), units moved so far, and bytes written. -/
  fix : List Segment := []
  pos : Nat := 0
  written : Nat := 0
  /-- Bytes read by the walk and not yet landed in a scratch destination, by linear byte. -/
  buf : SMap (Option Byte) := []
  /-- Tiles that the copy has begun to write, and tiles whose last byte has landed (R206). -/
  begun : List Nat := []
  landedTiles : List Nat := []
  /-- The stride-gather pattern read at start (R284). -/
  pat : List Byte := []
  /-- Ticks: start of a copy or operand-ready, compute-start, last byte (R275). -/
  t0 : Nat := 0
  t1 : Nat := 0
  t2 : Nat := 0
  /-- STALL bits of R275. -/
  stall : Nat := 0
  /-- Accumulator words computed and not yet written (R342): word number and value; and the rows written so far (R347). -/
  stage : List (Nat × W32) := []
  rows : Nat := 0
  /-- The waits of a compute command have ended (R260), and that for WBAR. -/
  ready : Bool := false
  acq : Bool := false
  /-- The tag that a copy gives its tiles (R270). -/
  tagw : Nat := 0
  /-- Writes of device memory that have not reached the owner: they have no order (R222). -/
  out : List OutWrite := []
  /-- Scratch addresses of bytes that landed before the last of their tile. -/
  early : List Nat := []
  /-- Elements of a plated page read for the unit in course: descriptor, index and code (R254). -/
  plGot : List (Nat × Nat × Nat) := []
  /-- The pages that the walk is reading (false) and writing (true), pinned (R274, R316). -/
  pins : List (Bool × W64) := []
  /-- Runs of device memory written, by key in a remote view and length: their lines are dropped before the command completes (R222). -/
  wrote : List (Nat × Nat) := []
  /-- Scratch bytes that threads have stored to since the command was issued, as they were before (R207). -/
  old : Table Byte := []
  /-- The follow-on has been appended or dropped (R257, R272). -/
  followed : Bool := false
  deriving DecidableEq, Repr

/-! ### Core state -/

/-- States of a cached code word (R32, R35). -/
inductive WState where
  | valid | illegal | faulted | denied | access | poisoned
  deriving DecidableEq, Repr

/-- A cached internal word: its stream bytes and its state (R32, R36); where it is marked for the page of a later byte, how far that page is on;
and the mode in which a fill found no permission. -/
structure IWord where
  va : W64
  bytes : List Byte
  st : WState
  miss : Nat := 0
  mode : Mode := .u
  /-- WHERE of a fault (R319). -/
  where_ : Nat := 8
  deriving DecidableEq, Repr

/-- A loop buffer (R38): its words, oldest first, and the block that it keeps, a LOOP block branched back to: header and bytes. -/
structure LoopBuf where
  words : List IWord := []
  keep : Option (W64 × Nat) := none
  deriving DecidableEq, Repr

/-- A slug (R158). -/
structure Slug where
  entry : W64
  arg : W64
  deriving DecidableEq, Repr

/-- A galley (R158): its key, slugs in arrival order, the tick its timer expires, and the issuing gang. -/
structure Galley where
  entry : W64
  launch : Nat
  gang : Nat
  slugs : List Slug
  expires : Nat
  locked : Bool := false
  deriving DecidableEq, Repr

/-- A core (R10): what its units hold beyond the gangs and groups placed on it. -/
structure Core where
  /-- The context whose gangs it holds or last held (R195, R306). -/
  ctx : Option Nat := none
  /-- Internal words, oldest first (R32). -/
  icache : List IWord := []
  /-- Prefetched code lines, 64 bytes each (R39). -/
  lines : List (W64 × List Byte) := []
  /-- Lines that a PREF asked for and that are not fetched yet (R39). -/
  wanted : List W64 := []
  /-- Pipes: the slot last issued for, the loop-buffer lane last granted, whether it has issued this cycle. -/
  rr : List Nat := [28, 29, 30, 31]
  refill : List Nat := [0, 0, 0, 0]
  issued : List Bool := [false, false, false, false]
  /-- Whether a pipe has granted a refill in this cycle (R194). -/
  refilled : List Bool := [false, false, false, false]
  /-- Loop buffers by slot * 32 + lane (R38, R194). -/
  loopBuf : Table LoopBuf := []
  /-- Feeder queues 0-3, the Press compute queue 4 and bank queue 5: command numbers in order (R154). -/
  queues : List (List Nat) := [[], [], [], [], [], []]
  colophons : List Colophon := []
  galleys : Table Galley := []
  /-- Galleys of contexts that are not loaded, which wait for their return (R304, R306). -/
  galKept : Table Galley := []
  /-- The cycle at which the group-matrix unit may begin again, and the pipe it last served (R118). -/
  mmagAt : Nat := 0
  mmagPipe : Nat := 3
  svscr : List W32 := [0, 0, 0, 0, 0, 0, 0, 0, 0, 0, 0, 0, 0, 0, 0, 0]
  /-- SVSCR words of contexts not loaded (R167, R306). -/
  svSaved : Table (List W32) := []
  /-- Core-view entries in the order they entered (R214). -/
  view : List FEntry := []
  /-- Scratch bytes that ended gangs of the present context left (R205). -/
  leftover : SMap Byte := []
  /-- Fenced until reset (R347). -/
  fenced : Bool := false
  /-- Pre-emption of the context in course here (R304): the tick at which it began. -/
  preempt : Option Nat := none
  /-- The tick at which the context's quantum began. -/
  quantumAt : Nat := 0
  deriving DecidableEq, Repr

/-! ### Dies -/

/-- A gradient bucket (R279). `by_` issued the `coll` that registered REG; the third part its record address. -/
structure Bucket where
  total : BitVec 48 := 0
  count : BitVec 48 := 0
  armed : Bool := false
  reg : Option (List Byte × Issuer × W64) := none
  /-- A `bkset` came while a kick of the bucket waits: it is armed with the append (R280). -/
  rearm : Bool := false
  /-- The launch it is allotted to. -/
  launch : Option Nat := none
  deriving DecidableEq, Repr

/-- A kick that waits for room in the collective engine queue (R280): its bucket, and REG as the fire found it. -/
structure Kick where
  bucket : Nat
  record : List Byte
  by_ : Issuer
  src : W64
  deriving DecidableEq, Repr

/-- A wait-table entry (R200): key, group, lane mask; and whether its wake is on its way. -/
structure WaitEnt where
  cell : Nat
  ed : Nat
  uid : Nat
  lanes : List Nat
  due : Bool := false
  deriving DecidableEq, Repr

/-- A die: wait table, buckets, collective engine queue, Caster, remote view, SGFAULT (R200, R279, R280, R249, R214, R285). -/
structure Die where
  waits : List WaitEnt := []
  buckets : SMap Bucket := []
  collQ : List Nat := []
  /-- Kicks that found the queue full, in the order of their fires (R280). -/
  kicks : List Kick := []
  /-- Plate descriptors PENDING in the order they became so (R249). -/
  pending : List Nat := []
  /-- The stride-gather pattern tables of its two stacks (R283). -/
  pats : SMap (List Byte) := []
  /-- Copies of bytes owned elsewhere, keyed by owner * 2^52 + address, with the step last written (R214). -/
  remote : Table (Byte × Nat) := []
  sgfault : Table (W64 × W64) := []
  deriving DecidableEq, Repr

/-! ### Plates and editions -/

/-- Progress of a refit (R250). -/
inductive Refit where
  | idle
  /-- After start: the next knot to read, and the values read. -/
  | fit (vals : List Nat)
  /-- Verifying: the next index. -/
  | verify (i : Nat)
  | done
  deriving DecidableEq, Repr

/-- A plated store request held at the plate unit (R248). -/
structure HeldStore where
  e : FEntry
  since : Nat
  deriving DecidableEq, Repr

/-- The plate unit's state of one region, by its descriptor (R242, R243, R249): the lengths of the two errata lists, whose errata lie in
memory at ERR0 and ERR1; `new` is the new parameter block while a refit runs. -/
structure Plate where
  len0 : Nat := 0
  len1 : Nat := 0
  held : List HeldStore := []
  pend : Bool := false
  refit : Refit := .idle
  new : List Byte := []
  /-- Refits of the region that have ended (R139, R250, R252). -/
  served : Nat := 0
  deriving DecidableEq, Repr

/-- A registration at an owner's edition service, or on the Foreman's poll list (R234, R240): key, the saved group or
the launch that waits, and whether its wake is on its way. -/
structure EdReg where
  cell : Nat
  ed : Nat
  who : Nat
  launch : Bool := false
  due : Bool := false
  deriving DecidableEq, Repr

/-! ### Launches and contexts (spec/25) -/

/-- Completion statuses (R332). -/
inductive Status where
  | done | halted | engineFault | editionGone | cohabitDenied | deadlineReset | doubleFault | uncontained | badRecord
  deriving DecidableEq, Repr

/-- Where a launch stands: waiting for its count edition, waiting for allotments, placing and running, ended. -/
inductive LState where
  | counting | allotting | running | ended
  deriving DecidableEq, Repr

/-- A snapshot of a page of a REPLAY launch (R351): its key and size, its bytes at the first write, and what was poisoned of it then. -/
structure Snap where
  key : Nat
  size : Nat
  bytes : List Host.Cell
  pois : List (Nat × Nat)
  cls : Table RClass
  deriving DecidableEq, Repr

/-- A buffered external effect of a REPLAY launch (R352): bytes at an owner of a package; an entry for a service of another package, with the
bytes that the launch itself reads of it; or a tape command (R278). -/
inductive Buffered where
  | store (owner pa : Nat) (peer : Nat) (va : W64) (bs : List Byte)
  | service (e : FEntry) (bs : List Byte)
  | push (record : List Byte) | mark | unwind
  deriving DecidableEq, Repr

/-- A launch (R326, R329, R332). -/
structure Launch where
  ctx : Nat
  record : List Byte
  img : List Byte := []
  prio : Nat
  devRing : Bool
  launchid : W64
  state : LState := .allotting
  /-- Its ENTRY was found to be a header (R329). -/
  entryOk : Bool := false
  gx : Nat := 0
  gy : Nat := 0
  gz : Nat := 0
  /-- Indices of the gangs placed so far, rising. -/
  placed : List Nat := []
  statuses : List Status := []
  cause : Nat := 0
  code : W32 := 0
  frec : W64 := 0
  halted : Bool := false
  corrBudget : W32 := 0xFFFFFFFF
  detBudget : W32 := 0xFFFFFFFF
  /-- BUDGET_EXHAUSTED latches so far (R355). -/
  latches : Nat := 0
  replays : Nat := 0
  /-- The snapshot protection stands (R351), and what it holds. -/
  snapArmed : Bool := false
  snaps : List Snap := []
  /-- Plate and edition state at the start (R241, R255). -/
  plateSnaps : List (Nat × Plate) := []
  /-- The write-behind buffer (R352): the effects with the numbers of their issue, in that order. -/
  buffer : List (Nat × Buffered) := []
  notContainable : Bool := false
  /-- A containable error was consumed; the replay of R353 is due. -/
  replayDue : Bool := false
  /-- Wider barriers by scope code * 2^20 + unit * 64 + index (R147). -/
  bars : SMap Bar := []
  /-- EXPECT words read from EXPPTR (R327). -/
  expects : List W32 := []
  tags : SMap W32 := []
  cbank : SMap W32 := []
  /-- Buckets and pattern entries allotted, and whether the allotment stands (R329). -/
  buckets : List Nat := []
  patterns : List Nat := []
  /-- A debug port holds its further gangs (R360). -/
  held : List Nat := []
  /-- GTICK at its completion (R332). -/
  doneAt : Nat := 0
  deriving DecidableEq, Repr

/-- A task (R156, R157): its record, the posting launch and gang, whether it is ready, and its GATE. -/
structure Task where
  record : List Byte
  launch : Nat
  gang : Nat
  die : Nat
  ready : Bool
  gate : Option (Nat × Nat)
  /-- It was held under GATE (R157, R223). -/
  held : Bool := false
  deriving DecidableEq, Repr

/-- An entry of the tape stack (R277). -/
inductive TapeEnt where
  | mark | entry (bs : List Byte)
  deriving DecidableEq, Repr

/-- An unwind (R277): its detached records still to launch, newest first; the launch whose completion it waits for, the one that issued
it or the one of its last record; the priority of its launches; and whether it is running. -/
structure Unwind where
  recs : List (List Byte)
  after : Nat
  prio : Nat
  running : Bool
  deriving DecidableEq, Repr

/-- A ring of launch records (R328): QBASE, QSIZE, QHEAD, QTAIL. -/
structure Ring where
  base : W64 := 0
  size : W32 := 0
  head : W32 := 0
  tail : W32 := 0
  /-- The device ring (records with their issuing launch), at most 64 (R328). -/
  dev : List (List Byte) := []
  /-- The ring taken from last, for the alternation of R328. -/
  lastDev : Bool := false
  /-- The last launch dequeued from each ring, for SERIAL. -/
  prevHost : Option Nat := none
  prevDev : Option Nat := none
  deriving DecidableEq, Repr

/-- A debug port (R356, R358). -/
structure Port where
  drights : W64 := 0
  prights : W64 := 0
  dcmd : W32 := 0
  dstat : W32 := 0
  dsel : W64 := 0
  ddata : W64 := 0
  dlaunch : W64 := 0
  dctl : W32 := 0
  waddr0 : W64 := 0
  waddr1 : W64 := 0
  wcfg : W32 := 0
  stopat : W64 := 0
  trbase : W64 := 0
  trsize : W32 := 0
  trtail : W32 := 0
  trhead : W32 := 0
  trdrop : W32 := 0
  speriod : W32 := 0
  score : W32 := 0xFFFF
  /-- A session is open (R364), and the records dropped since the last LOST record. -/
  session : Bool := false
  lost : Nat := 0
  /-- One more than the tick that is being sampled, the groups sampled in it, and one more than the tick whose samples are all made
  (R367). -/
  sampleTick : Nat := 0
  sampled : List Nat := []
  sampleOver : Nat := 0
  deriving DecidableEq, Repr

/-- A context (R323): its register block and the Foreman's state of it. -/
structure Ctx where
  ctxctl : W32 := 0
  /-- ASID and VMID as they were loaded with the context (R167, R323). -/
  asid : Nat := 0
  vmid : Nat := 0
  quantum : W64 := 0
  deadline : W64 := 0
  tapecap : W32 := 0
  savebase : W64 := 0
  savecnt : W32 := 0
  hvec : W64 := 0
  cmplbase : W64 := 0
  cmplsize : W32 := 0
  cmpltail : W32 := 0
  cmplhead : W32 := 0
  rings : List Ring := [{}, {}, {}, {}, {}, {}, {}, {}]
  ports : List Port := [{}, {}, {}, {}]
  tape : List TapeEnt := []
  /-- Unwinds in the order of their steps (R277). -/
  unwinds : List Unwind := []
  /-- Frames of the save pool in use. -/
  frames : List Nat := []
  /-- Launches that completed and await room in the completion ring, in order. -/
  completed : List Nat := []
  deriving DecidableEq, Repr

/-! ### Requests in course, and reliability -/

/-- An `icinv` in course (R170): the waiting threads and the range. -/
structure IcInv where
  ctx : Nat
  uid : Nat
  lanes : List Nat
  lo : W64
  n : Nat
  deriving DecidableEq, Repr

/-- An `lmap` in course (R171): the map bytes to change. -/
structure LMap where
  uid : Nat
  lanes : List Nat
  acc : Nat
  owner : Nat
  /-- Map address and bit of each slot. -/
  bits : List (Nat × Nat)
  val : Bool
  deriving DecidableEq, Repr

/-- An `acqr` whose promote is under way (R221): the issuing thread and the cores still to finish. -/
structure Promote where
  uid : Nat
  lane : Nat
  acc : Nat
  scope : Scope
  owner : Nat
  line : Nat
  cores : List Nat
  /-- Entries that drained for it and are not yet delivered. -/
  wait : List Nat
  deriving DecidableEq, Repr

/-- A collective that has met or is meeting (R282): this package's members by rank with their command numbers, those of other packages
with their records and inputs. -/
structure Meet where
  ctx : Nat
  cid : Nat
  nmem : Nat
  members : Table Nat
  peers : Table (List Byte × List Nat) := []
  /-- Input elements read so far, by rank, and result elements written so far, by command and index. -/
  got : Table (List Nat) := []
  put : List (Nat × Nat) := []
  /-- Members differ: every one faults, and how many have come so far. -/
  broken : Bool := false
  come : Nat := 0
  deriving DecidableEq, Repr

/-- An error that has arisen in storage and has not been read (R338). -/
structure ErrMark where
  place : ErrPlace
  kind : ErrKind
  deriving DecidableEq, Repr

/-- An open fault record of the Foreman: the record, whether it was absent, its outcome once sent. -/
structure OpenFault where
  r : FaultRec
  absent : Bool
  /-- The page: its first byte's pointer, and its bytes. -/
  page : Nat × Nat
  /-- The requester: a group, a command, or a launch that the Foreman dequeues; a fill is none of them. -/
  uid : Option Nat
  cmd : Option Nat
  launch : Option Nat := none
  deriving DecidableEq, Repr

/-- An eviction between its steps 1 and 4 (R320). -/
structure Evict where
  owner : Nat
  vmid : Nat
  asid : Nat
  vpage : Nat
  size : Nat
  /-- The 4 KiB frames of the page, and the backing address. -/
  frames : List Nat
  back : Nat
  deriving DecidableEq, Repr

/-- Bring-up states (R334). -/
inductive PkgState where
  | reset | linkup | firmware | meminit | ready | failed
  deriving DecidableEq, Repr

/-- The possible moves of the device: a listed event, the issue of a pipe, the end of the cycle (assumption 1). -/
inductive Move where
  | event (i : Instr)
  | issue (core pipe : Nat)
  | cycleEnd
  deriving DecidableEq, Repr

/-- The issue set that is executing: group, lanes in rising order, address of the word, its length in bytes,
the header of its block and the words left after it. -/
structure IssueSet where
  uid : Nat
  lanes : List Nat
  pc : W64
  len : Nat
  deriving DecidableEq, Repr

end Sys2Proof.Machine
end

