-- ==== Sys2Proof/Machine/State.lean ====
section
/-! DEFINITION. State: everything spec/ gives the machine, as plain data; Fault, Refusal, and the state after reset. -/

namespace Sys2Proof.Machine

/-- Why the machine stops. -/
inductive Fault where
  /-- Raised by step: the package's clocks are gated by a STOP (R368), and neither a reset nor an access of a debug port is due. Safe: nothing runs. -/
  | stopped
  deriving DecidableEq, Repr

/-- Why an instruction has no meaning here. -/
inductive Refusal where
  /-- Raised by exec for an instruction this model does not reach. Safe: nothing is claimed of it. -/
  | notModelled (mnemonic : String)
  deriving DecidableEq, Repr

/-- Parts of a tick in which time is kept: a cycle at any clock of R23 (100 to 3,600 MHz in steps of 100) is a whole number of them. -/
def tickUnits : Nat := 144403552893600

/-- The machine. -/
structure State where
  -- the package (R13, R322, R334, R368)
  gtick : W64
  /-- The time passed that GTICK has not counted, in tickUnits to a tick. -/
  phase : Nat
  /-- The cycles since reset. -/
  cycle : Nat
  coreclk : W32
  clkchg : W32
  stopAt : Option W64
  stopped : Bool
  feat : List W32
  accept : List W32
  pkg : PkgState
  failCode : Nat
  fwaddr : W64
  fwcmd : W32
  pwrlim : W32
  pwrnow : W32
  trblk : W64
  pkgnum : W32
  coremap : BitVec 192
  -- memory: (owner * 2^52 + physical address, byte), owners 0-3 the dies, 4 the host
  mem : List Host.Cell
  /-- Poisoned sectors, by the key of their first byte and their length (R337, R338). -/
  poison : List (Nat × Nat)
  /-- Classes that 4 KiB frames were written in, by key / 4096 (R339). -/
  frameClass : SMap RClass
  /-- Classes of bytes that were written in another class than their frame, by key (R339). -/
  byteClass : Table RClass
  errors : List ErrMark
  -- parts
  cores : SMap Core
  dies : SMap Die
  -- work placed on cores
  groups : Table Group
  gangs : Table Gang
  cmds : Table Cmd
  tasks : Table Task
  launches : Table Launch
  nextLaunchId : W64
  ctxs : SMap Ctx
  /-- Unique numbers of groups, gangs, commands, accesses, transfers, tags (assumption 1). -/
  fresh : Nat
  -- the ordering machine
  mstep : Nat
  /-- Transfers of every link queue by number; queue order is number order (R214). -/
  links : Table Xfer
  promotes : Table Promote
  -- owner services
  plates : SMap Plate
  edRegs : Table EdReg
  polls : Table EdReg
  /-- The refit that each die's Caster runs (R249). -/
  caster : Table Nat
  -- translation
  trblks : List TrBlk
  tlbs : Table (List TlbEnt)
  faults : Table OpenFault
  evicts : Table Evict
  /-- Frames that the Foreman has taken for pages (R318): first key, bytes, class. -/
  taken : List (Nat × Nat × RClass)
  /-- Pages of other packages that those made present (R318), by ASID, VMID and page. -/
  peerPages : List (Nat × Nat × Nat)
  icinvs : Table IcInv
  lmaps : Table LMap
  meets : Table Meet
  -- reliability
  fwwin : W64
  fwt : W32
  elbase : W64
  elsize : W32
  eltail : W32
  elhead : W32
  eldrop : W32
  windows : Table (List Nat)
  /-- Units found lasting-faulty in the step that stamped them (R343): UKIND and number. -/
  lasting : List (Nat × Nat)
  deadRouters : List Nat
  deadLinks : List Nat
  netStopped : Bool
  /-- What the network stopped for (R348): EVENT, UKIND, UNIT, and the cores that no route reaches. -/
  reroutes : List (Nat × Nat × Nat × List Nat)
  -- the model's own fields (assumption 1)
  agenda : List Move
  /-- The number of the step of the device, by which bytes that nothing fixes are the same within it. -/
  epoch : Nat
  choices : Nat
  free : Nat
  cur : IssueSet
  deriving DecidableEq, Repr

/-- What an unlisted byte of memory reads as (assumption 4, R334). -/
def memDefault : Byte := 0

/-- The canonical form of memory: keys rising, no entry equal to what an unlisted address reads as. -/
abbrev Memory.wf (m : List Host.Cell) : Bool := smWf memDefault m

/-- The machine right after package reset (R13, R167, R317, R322, R323, R334, R344, R358; assumption 3). -/
def State.reset : State where
  gtick := 0
  phase := 0
  cycle := 0
  coreclk := 3600
  clkchg := 0
  stopAt := none
  stopped := false
  feat := [Config.feat0, 0, 0, 0]
  accept := [0, 0, 0, 0]
  pkg := .reset
  failCode := 0
  fwaddr := 0
  fwcmd := 0
  pwrlim := 2200
  pwrnow := 0
  trblk := Config.trblk
  pkgnum := 0
  coremap := 0
  mem := []
  poison := []
  frameClass := []
  byteClass := []
  errors := []
  cores := []
  dies := []
  groups := []
  gangs := []
  cmds := []
  tasks := []
  launches := []
  nextLaunchId := 1
  ctxs := []
  fresh := 1
  mstep := 0
  links := []
  promotes := []
  plates := []
  edRegs := []
  polls := []
  caster := []
  trblks := [{}, {}, {}, {}, {}]
  tlbs := []
  faults := []
  evicts := []
  taken := []
  peerPages := []
  icinvs := []
  lmaps := []
  meets := []
  fwwin := 0x40000000
  fwt := 3
  elbase := 0
  elsize := 0
  eltail := 0
  elhead := 0
  eldrop := 0
  windows := []
  lasting := []
  deadRouters := []
  deadLinks := []
  netStopped := false
  reroutes := []
  agenda := []
  epoch := 0
  choices := 0
  free := 0
  cur := ⟨0, [], 0, 0⟩

end Sys2Proof.Machine
end

