-- ==== Sys2Proof/Machine/Ops.lean ====
section
/-! DEFINITION. The named operations over State: records by number, registers, memory bytes, private slices,
free values, the program position of a thread and the commit step. -/

namespace Sys2Proof.Machine

/-! ### Records of the tables -/

/-- A group that is not there. -/
def noGroup : Group := { gang := 0, place := .saved .fencing false, lanes := [] }
/-- A gang that is not there. -/
def noGang : Gang := { core := 0, launch := 0, groups := [], privsz := 0 }
/-- A launch that is not there. -/
def noLaunch : Launch := { ctx := 0, record := [], prio := 0, devRing := false, launchid := 0 }
/-- A command that is not there. -/
def noCmd : Cmd := { kind := .fence [], by_ := ⟨0, 0, 0, 0, 0, 0, .u, 0, 0⟩, srcAt := 0 }

def grp (s : State) (u : Nat) : Group := (tGet? s.groups u).getD noGroup
def gangAt (s : State) (g : Nat) : Gang := (tGet? s.gangs g).getD noGang
def launchAt (s : State) (k : Nat) : Launch := (tGet? s.launches k).getD noLaunch
def cmdAt (s : State) (k : Nat) : Cmd := (tGet? s.cmds k).getD noCmd
def coreAt (s : State) (c : Nat) : Core := smGet {} s.cores c
def dieAt (s : State) (d : Nat) : Die := smGet {} s.dies d
def ctxAt (s : State) (c : Nat) : Ctx := smGet {} s.ctxs c
def plateAt (s : State) (k : Nat) : Plate := smGet {} s.plates k

def modGrp (s : State) (u : Nat) (f : Group → Group) : State := { s with groups := tMod s.groups u f }
def modGang (s : State) (g : Nat) (f : Gang → Gang) : State := { s with gangs := tMod s.gangs g f }
def modLaunch (s : State) (k : Nat) (f : Launch → Launch) : State := { s with launches := tMod s.launches k f }
def modCmd (s : State) (k : Nat) (f : Cmd → Cmd) : State := { s with cmds := tMod s.cmds k f }
def modCore (s : State) (c : Nat) (f : Core → Core) : State := { s with cores := smSet {} s.cores c (f (coreAt s c)) }
def modDie (s : State) (d : Nat) (f : Die → Die) : State := { s with dies := smSet {} s.dies d (f (dieAt s d)) }
def modCtx (s : State) (c : Nat) (f : Ctx → Ctx) : State := { s with ctxs := smSet {} s.ctxs c (f (ctxAt s c)) }
def modPlate (s : State) (k : Nat) (f : Plate → Plate) : State := { s with plates := smSet {} s.plates k (f (plateAt s k)) }

/-- The gang of a group. -/
def gangOf (s : State) (u : Nat) : Gang := gangAt s (grp s u).gang
/-- The core on which a group's gang is. -/
def coreOf (s : State) (u : Nat) : Nat := (gangOf s u).core
/-- The die of a core (R11). -/
def dieOf (core : Nat) : Nat := core / 48
/-- The launch of a group. -/
def launchOf (s : State) (u : Nat) : Nat := (gangOf s u).launch
/-- The context of a group. -/
def ctxOf (s : State) (u : Nat) : Nat := (launchAt s (launchOf s u)).ctx

/-- The slot that a group holds. -/
def slotOf (g : Group) : Option Nat :=
  match g.place with
  | .resident n => some n
  | .saving n _ => some n
  | .saved .. => none

/-- ASID of a context, as loaded (R167, R323). -/
def asidOf (s : State) (c : Nat) : Nat := (ctxAt s c).asid
/-- VMID of a context, as loaded (R167, R323). -/
def vmidOf (s : State) (c : Nat) : Nat := (ctxAt s c).vmid
/-- ENABLE of a context (R323). -/
def ctxEnabled (c : Ctx) : Bool := bit c.ctxctl.toNat 31

/-- A little-endian field of n bytes of a record (R6). -/
def fld (bs : List Byte) (ofs n : Nat) : Nat := leNat ((bs.drop ofs).take n)

/-- Kernel-image fields (R327). -/
def imgTvec (l : Launch) : W64 := BitVec.ofNat 64 (fld l.img 24 8)
def imgKclass (l : Launch) : RClass := match fld l.img 43 1 with
  | 1 => .check
  | 2 => .draft
  | _ => .proof
def imgGaltime (l : Launch) : Nat := if fld l.img 52 4 = 0 then 2048 else fld l.img 52 4
/-- The launch is a REPLAY launch (R349). -/
def isReplay (l : Launch) : Bool := bit (fld l.record 23 1) 0

/-- The code of a class (R174). -/
def classCode : RClass → Nat
  | .proof => 0 | .check => 1 | .draft => 2

/-- The class of a code. -/
def classOf (n : Nat) : RClass := match n with
  | 1 => .check
  | 2 => .draft
  | _ => .proof

/-- The code of a mode (R291). -/
def modeCode : Mode → Nat
  | .u => 0 | .s => 1 | .h => 2

/-- The mode of a code. -/
def modeOf (n : Nat) : Mode := match n with
  | 1 => .s
  | 2 => .h
  | _ => .u

/-- TCAUSE code (R293). -/
def causeCode : Cause → Nat
  | .illegal => 1 | .badTarget => 2 | .badBlock => 3 | .priv => 4 | .align => 5 | .access => 6 | .fpx => 7
  | .syscall => 8 | .hcall => 9 | .brk => 0xA | .editionGone => 0xB | .editionOverflow => 0xC | .errataFull => 0xD
  | .layoutMismatch => 0xE | .classCross => 0xF | .poison => 0x10 | .budgetExhausted => 0x11 | .watch => 0x12
  | .doubleFault => 0x13

/-- STATUS code (R332). -/
def statusCode : Status → Nat
  | .done => 0 | .halted => 1 | .engineFault => 2 | .editionGone => 3 | .cohabitDenied => 4 | .deadlineReset => 5
  | .doubleFault => 6 | .uncontained => 7 | .badRecord => 8

/-! ### Lanes and registers -/

def laneAt (g : Group) (l : Nat) : Lane := nth {} g.lanes l
def lane (s : State) (u l : Nat) : Lane := laneAt (grp s u) l
def modLaneG (g : Group) (l : Nat) (f : Lane → Lane) : Group := { g with lanes := modNth g.lanes l f }
def modLane (s : State) (u l : Nat) (f : Lane → Lane) : State := modGrp s u (fun g => modLaneG g l f)

/-- Change every lane of a list in rising order. -/
def modLanes (s : State) (u : Nat) (ls : List Nat) (f : Nat → Lane → Lane) : State :=
  modGrp s u (fun g => ls.foldl (fun g l => modLaneG g l (f l)) g)

/-- v, o, h registers of a lane by number: 0 to 127, 128 to 135, 136 and 137. -/
def getReg (ln : Lane) (n : Nat) : W32 :=
  if n < 128 then smGet 0 ln.v n
  else if n < 136 then smGet 0 ln.o (n - 128)
  else if n = 136 then ln.h0 else ln.h1

/-- Write a register word; the write clears its poison (R204). -/
def setReg (ln : Lane) (n : Nat) (x : W32) : Lane :=
  if n < 128 then { ln with v := smSet 0 ln.v n x, vpois := ln.vpois.filter (fun k => k != n), vmark := ln.vmark.filter (fun k => k != n) }
  else if n < 136 then { ln with o := smSet 0 ln.o (n - 128) x }
  else if n = 136 then { ln with h0 := x } else { ln with h1 := x }

/-- The cnt registers from number n as one value, low word first (R47). -/
def getRegs (ln : Lane) (n : Nat) : Nat → Nat
  | 0 => 0
  | k + 1 => (getReg ln n).toNat + 2 ^ 32 * getRegs ln (n + 1) k

/-- Write a value to cnt registers from number n, low word first. -/
def setRegs (ln : Lane) (n : Nat) : Nat → Nat → Lane
  | 0, _ => ln
  | k + 1, x => setRegs (setReg ln n (BitVec.ofNat 32 x)) (n + 1) k (x / 2 ^ 32)

/-- The register writes of a value of cnt words to registers from n of one lane. -/
def regWrites (l n : Nat) : Nat → Nat → List RegWrite
  | 0, _ => []
  | k + 1, x => ⟨l, n, BitVec.ofNat 32 x⟩ :: regWrites l (n + 1) k (x / 2 ^ 32)

/-- Apply a register write. -/
def applyWrite (s : State) (u : Nat) (w : RegWrite) : State := modLane s u w.lane (fun ln => setReg ln w.reg w.val)

/-- First register number of a target. -/
def targetReg (t : Target) : Nat := if t.o then 128 + t.n else t.n

/-- Shift the last-result file by a result of one or two words (R49). -/
def shiftH (ln : Lane) (wide : Bool) (x : Nat) : Lane :=
  if wide then { ln with h0 := BitVec.ofNat 32 x, h1 := BitVec.ofNat 32 (x / 2 ^ 32) }
  else { ln with h1 := ln.h0, h0 := BitVec.ofNat 32 x }

/-- OR bits into FMODE. -/
def orFmode (ln : Lane) (m : Nat) : Lane := { ln with fmode := ln.fmode ||| BitVec.ofNat 32 m }

/-- The region record of the current level (R298). -/
def curRec (ln : Lane) : Region := nth {} ln.recs ln.depth
def modRec (ln : Lane) (f : Region → Region) : Lane := { ln with recs := modNth ln.recs ln.depth f }

/-- Record POS, h0, h1 and SRCNT in the current region record (R53, R65, R125, R298). -/
def recordLane (ln : Lane) : Lane :=
  modRec ln (fun r => { r with pos := ln.q.map (fun q => q.pos), h0 := ln.h0, h1 := ln.h1, srcnt := ln.srcnt })

/-- Restore what the region record holds (R299). -/
def restoreRec (ln : Lane) : Lane :=
  let r := curRec ln
  { ln with q := (ln.q.zip r.pos).map (fun p => { p.1 with pos := p.2 }), h0 := r.h0, h1 := r.h1, srcnt := r.srcnt }

/-- A thread runs: it neither waits, for a store of its own either, nor has exited (R188, R248). -/
def running (ln : Lane) : Bool := ln.st == .run && ln.held.isEmpty

/-! ### Program position -/

/-- Address that a thread executes next or enters next. -/
def posAddr (p : Pos) : W64 :=
  match p with
  | .word _ _ pc _ => pc
  | .enter h _ _ => h

/-- The word that follows an instruction of n bytes, and the header of the block that holds it (R125, R296). -/
def nextWord (p : Pos) (n : Nat) : W64 × W64 :=
  match p with
  | .word hdr len pc left =>
    if left ≤ 1 then (hdr + BitVec.ofNat 64 (8 * len), hdr + BitVec.ofNat 64 (8 * len))
    else (pc + BitVec.ofNat 64 n, hdr)
  | .enter h _ _ => (h, h)

/-- Go on past an instruction of n bytes: the next word, or a fall into the next block (R27). -/
def advancePos (p : Pos) (n : Nat) : Pos :=
  match p with
  | .word hdr len pc left =>
    if left ≤ 1 then
      .enter (hdr + BitVec.ofNat 64 (8 * len)) .fallthrough (hdr + BitVec.ofNat 64 (8 * len))
    else .word hdr len (pc + BitVec.ofNat 64 n) (left - 1)
  | .enter .. => p

def advance (ln : Lane) (n : Nat) : Lane := { ln with at_ := advancePos ln.at_ n }

/-- The region record is past every commit of a lane that is not performed yet. -/
def passCommits (ln : Lane) : Lane := { ln with commits := ln.commits.map (fun c => { c with taken := true }) }

/-- The commit step of R125 for a lane: REGPC and REGHDR move past the instruction, and the record is taken; commits issued before it and
not performed are past with it. -/
def commitLane (ln : Lane) (n : Nat) : Lane :=
  let w := nextWord ln.at_ n
  recordLane (modRec (passCommits ln) (fun r => { r with regpc := w.1, reghdr := w.2 }))

/-- Advance POS of a stream (R51). -/
def advanceQ (ln : Lane) (k : Nat) : Lane := { ln with q := modNth ln.q k (fun q => { q with pos := q.pos + 32 }) }

/-- Advance the streams of the sources. -/
def advanceQs (ln : Lane) (ks : List Nat) : Lane := ks.foldl advanceQ ln

/-- Advance the streams that the finished instruction of a waiting thread named. -/
def finishQ (ln : Lane) : Lane := { advanceQs ln ln.qdue with qdue := [] }

/-! ### Free values and numbers -/

/-- A fresh number. -/
def takeFresh (s : State) : Nat × State := (s.fresh, { s with fresh := s.fresh + 1 })
/-- A word that the manual leaves open (assumption 1). -/
def takeFreeWord (s : State) : W64 × State := (Config.freeWord s.free, { s with free := s.free + 1 })

/-! ### Memory bytes -/

/-- The key of a byte: owner 0 to 3 a die, 4 the host (R211). -/
def mkey (owner pa : Nat) : Nat := owner * 2 ^ 52 + pa % 2 ^ 52

def rdByte (s : State) (k : Nat) : Byte := smGet memDefault s.mem k

/-- n bytes from a key. -/
def rdBytes (s : State) (k : Nat) : Nat → List Byte
  | 0 => []
  | n + 1 => rdByte s k :: rdBytes s (k + 1) n

/-- Little-endian value of n bytes (R6). -/
def rdNat (s : State) (k n : Nat) : Nat := leNat (rdBytes s k n)

/-- Write bytes into a memory list. -/
def wrMem (m : List Host.Cell) (k : Nat) : List Byte → List Host.Cell
  | [] => m
  | b :: bs => wrMem (smSet memDefault m k b) (k + 1) bs

/-- Write bytes at a key. -/
def wrBytes (s : State) (k : Nat) (bs : List Byte) : State := { s with mem := wrMem s.mem k bs }

/-- n bytes of a sparse byte array. -/
def arrBytes (a : SMap Byte) (k : Nat) : Nat → List Byte
  | 0 => []
  | n + 1 => smGet 0 a k :: arrBytes a (k + 1) n

/-- Write bytes into a sparse byte array. -/
def arrWrite (a : SMap Byte) (k : Nat) : List Byte → SMap Byte
  | [] => a
  | b :: bs => arrWrite (smSet 0 a k b) (k + 1) bs

/-! ### The private slice -/

/-- Byte a of the newest `stp` entry of a list (oldest first) that holds it (R225). -/
def fifoPriv (es : List FEntry) (a : Nat) : Option Byte :=
  es.foldl (fun r e =>
    match e.act with
    | .priv bs => if e.pa ≤ a ∧ a < e.pa + bs.length then some (nth 0 bs (a - e.pa)) else r
    | _ => r) none

/-- A byte of the private slice as its thread reads it: its own entries first, then the array (R225). -/
def privByte (ln : Lane) (a : Nat) : Byte := (fifoPriv ln.fifo a).getD (smGet 0 ln.priv a)

/-- n bytes of the private slice as its thread reads them. -/
def privBytes (ln : Lane) (a : Nat) : Nat → List Byte
  | 0 => []
  | n + 1 => privByte ln a :: privBytes ln (a + 1) n

/-- A private store that counts on nothing: a trap frame, or a field of one (R294). -/
def privStore (ln : Lane) (u l id : Nat) (a : Nat) (bs : List Byte) : Lane :=
  { ln with fifo := ln.fifo ++ [{ id := id, uid := u, lane := l, acc := 0, act := .priv bs, owner := 0, pa := a, va := 0,
                                   size := bs.length, sem := .plain, scope := .core }] }

/-! ### Current issue set -/

/-- Change the lanes of the current issue set that are listed. -/
def modCur (s : State) (ls : List Nat) (f : Nat → Lane → Lane) : State := modLanes s s.cur.uid ls f

/-- Leader of an issue set (R22). -/
def leader (s : State) : Nat := s.cur.lanes.headD 0

/-- Lanes of the current issue set that are still where it was formed: those that took no trap and do not wait. -/
def curLane (s : State) (l : Nat) : Lane := lane s s.cur.uid l

end Sys2Proof.Machine
end

