-- ==== Sys2Proof/Machine/Float.lean ====
section
/-! DEFINITION. Exact values and the float computations: fused sums (R103), min, max, comparison and classes
(R104 to R106), integral rounding, and the transcendentals (R108). -/

namespace Sys2Proof.Machine

/-! ### Rounding in a lane (R65, R66) -/

/-- The rounding state of a lane within one instruction: mode, seed, counter, and the flags raised so far. -/
structure RCtx where
  mode : Rnd
  seed : Nat
  cnt : Nat
  flags : Nat := 0
  deriving DecidableEq, Repr

/-- The mode that FMODE.RM names (R64). -/
def rmMode (fmode : W32) : Rnd :=
  match bits fmode.toNat 2 0 with
  | 2 => .rtz
  | 3 => .rup
  | 4 => .rdn
  | 5 => .rna
  | 6 => .sr
  | _ => .rne

/-- The rounding state of a lane for an RND field (R65). -/
def laneRnd (ln : Lane) (r : Rnd) : RCtx :=
  ⟨if r = .dyn then rmMode ln.fmode else r, ln.srseed.toNat, ln.srcnt.toNat, 0⟩

/-- Round one element: its code, and the rounding state with the flags and the draw taken (R65). -/
def rnd (c : RCtx) (f : Fmt) (sat : Bool) (x : FVal) : Nat × RCtx :=
  let r := round f c.mode sat (kHash c.seed c.cnt 0xFFFF / 2 ^ 32) x
  (r.code, { c with cnt := if r.drew then (c.cnt + 1) % 2 ^ 64 else c.cnt, flags := c.flags ||| r.flags })

/-- Raise a flag. -/
def raise (c : RCtx) (f : Nat) : RCtx := { c with flags := c.flags ||| f }

/-! ### Exact arithmetic (R103) -/

def fvIsNan : FVal → Bool
  | .nan _ => true
  | _ => false
def fvIsSig : FVal → Bool
  | .nan s => s
  | _ => false
def fvNeg : FVal → FVal
  | .nan s => .nan s
  | .inf n => .inf (!n)
  | .fin n m e => .fin (!n) m e
def fvIsZero : FVal → Bool
  | .fin _ m _ => m == 0
  | _ => false
def fvSign : FVal → Bool
  | .nan _ => false
  | .inf n => n
  | .fin n _ _ => n

/-- A product term, and whether it is 0 * ∞. -/
def fvMul (a b : FVal) : FVal × Bool :=
  match a, b with
  | .nan s, y => (.nan (s || fvIsSig y), false)
  | x, .nan s => (.nan (s || fvIsSig x), false)
  | .inf n, y => if fvIsZero y then (.nan false, true) else (.inf (n != fvSign y), false)
  | x, .inf n => if fvIsZero x then (.nan false, true) else (.inf (n != fvSign x), false)
  | .fin n m e, .fin k p q => (.fin (n != k) (m * p) (e + q), false)

/-- A term that is no product. -/
def term (a : FVal) : FVal × Bool := (a, false)

/-- The least exponent of the non-zero finite terms. -/
def minExp : List (FVal × Bool) → Option Int
  | [] => none
  | (.fin _ m e, _) :: t =>
    if m = 0 then minExp t
    else match minExp t with
      | none => some e
      | some x => some (min e x)
  | _ :: t => minExp t

/-- The exact sum of finite terms over 2^q. -/
def sumOver (q : Int) : List (FVal × Bool) → Int
  | [] => 0
  | (.fin n m e, _) :: t => (if n then -((m : Int) * 2 ^ (e - q).toNat) else (m : Int) * 2 ^ (e - q).toNat) + sumOver q t
  | _ :: t => sumOver q t

/-- A fused sum (R103): NaN operands and invalid forms, then infinities, then the exact sum; `.nan true` is a NaN that
raises FNV. -/
def fvSum (rdn : Bool) (ts : List (FVal × Bool)) : FVal :=
  let inv := ts.any (fun t => t.2) || (ts.any (fun t => t.1 == .inf false) && ts.any (fun t => t.1 == .inf true))
  if ts.any (fun t => fvIsNan t.1) then .nan (inv || ts.any (fun t => fvIsSig t.1))
  else if inv then .nan true
  else if ts.any (fun t => t.1 == .inf false) then .inf false
  else if ts.any (fun t => t.1 == .inf true) then .inf true
  else match minExp ts with
    | none => .fin (if ts.all (fun t => fvSign t.1) then true else if ts.all (fun t => !fvSign t.1) then false else rdn) 0 0
    | some q =>
      let x := sumOver q ts
      if x = 0 then .fin rdn 0 0 else .fin (decide (x < 0)) x.natAbs q

/-- A fused sum rounded once (R103). -/
def fused (c : RCtx) (f : Fmt) (ts : List (FVal × Bool)) : Nat × RCtx := rnd c f false (fvSum (c.mode == .rdn) ts)

/-! ### Order (R104, R105) -/

/-- a < b of two values that are no NaN, −0 and +0 equal. -/
def fvLt (a b : FVal) : Bool :=
  match a, b with
  | .inf n, .inf k => n && !k
  | .inf n, .fin .. => n
  | .fin .., .inf n => !n
  | .fin n m e, .fin k p q =>
    let q0 := min e q
    let x : Int := (if n then -1 else 1) * ((m : Int) * 2 ^ (e - q0).toNat)
    let y : Int := (if k then -1 else 1) * ((p : Int) * 2 ^ (q - q0).toNat)
    decide (x < y)
  | _, _ => false

/-- a = b of two values that are no NaN. -/
def fvEq (a b : FVal) : Bool := !fvIsNan a && !fvIsNan b && !fvLt a b && !fvLt b a

/-- a before b in the order of `fmin` and `fmax`: −0 before +0 (R104). -/
def fvBefore (a b : FVal) : Bool := fvLt a b || (fvIsZero a && fvIsZero b && fvSign a && !fvSign b)

/-- `fmin` and `fmax` on codes of a format (R104); `nan` is NAN, `greater` selects fmax. -/
def fvMinMax (c : RCtx) (f : Fmt) (greater nan : Bool) (a b : Nat) : Nat × RCtx :=
  let x := fmtDecode f a
  let y := fmtDecode f b
  let c := if fvIsSig x || fvIsSig y then raise c fNV else c
  let can := (fmtNan f).getD 0
  match fvIsNan x, fvIsNan y with
  | true, true => (can, c)
  | true, false => (if nan then can else b % 2 ^ fmtWidth f, c)
  | false, true => (if nan then can else a % 2 ^ fmtWidth f, c)
  | false, false =>
    let second : Bool := if greater then fvBefore x y else fvBefore y x
    ((if second then b else a) % 2 ^ fmtWidth f, c)

/-- A float comparison (R105): whether it holds, and its flag. -/
def fvCmp (cc : Fcc) (x y : FVal) : Bool × Nat :=
  let un := fvIsNan x || fvIsNan y
  let sig := fvIsSig x || fvIsSig y
  match cc with
  | .eq => (!un && fvEq x y, if sig then fNV else 0)
  | .ne => (un || !fvEq x y, if sig then fNV else 0)
  | .lt => (!un && fvLt x y, if un then fNV else 0)
  | .le => (!un && !fvLt y x, if un then fNV else 0)
  | .gt => (!un && fvLt y x, if un then fNV else 0)
  | .ge => (!un && !fvLt x y, if un then fNV else 0)
  | .un => (un, if sig then fNV else 0)

/-- The class bit of a code (R106). -/
def fvClass (f : Fmt) (a : Nat) : Nat :=
  match fmtDecode f a with
  | .nan s => if s then 2 ^ 8 else 2 ^ 9
  | .inf n => if n then 2 ^ 0 else 2 ^ 7
  | .fin n m e =>
    if m = 0 then (if n then 2 ^ 3 else 2 ^ 4)
    else if dyLog2 m e < 1 - (fmtBias f : Int) then (if n then 2 ^ 2 else 2 ^ 5)
    else if n then 2 ^ 1 else 2 ^ 6

/-- `frnd`: the integral value of a, in its format (R104). -/
def fvIntegral (c : RCtx) (f : Fmt) (x : Bool) (a : Nat) : Nat × RCtx :=
  match fmtDecode f a with
  | .nan s => ((fmtNan f).getD 0, if s then raise c fNV else c)
  | .inf _ => (a % 2 ^ fmtWidth f, c)
  | .fin n m e =>
    if m = 0 then (a % 2 ^ fmtWidth f, c)
    else
      let d := dyDiv m e 0
      let inexact := d.2.1 != 0
      let r := kHash c.seed c.cnt 0xFFFF / 2 ^ 32
      let k := if inexact && roundUp c.mode n (d.1 % 2 == 1) d.2.1 d.2.2 r then d.1 + 1 else d.1
      let c := { c with cnt := if inexact && c.mode == .sr then (c.cnt + 1) % 2 ^ 64 else c.cnt
                        flags := c.flags ||| (if inexact && x then fNX else 0) }
      ((round f .rtz true 0 (.fin n k 0)).code, c)

/-! ### Roots and logarithms (R108) -/

/-- Integer square root by bits b-1 .. 0 of the root. -/
def isqrtAux (n : Nat) : Nat → Nat → Nat
  | 0, r => r
  | b + 1, r => isqrtAux n b (if (r + 2 ^ b) * (r + 2 ^ b) ≤ n then r + 2 ^ b else r)

def isqrt (n : Nat) : Nat := isqrtAux n (bitLen n / 2 + 1) 0

/-- A positive value known to lie at q * 2^e or strictly between it and (q + 1) * 2^e. -/
def sticky (neg : Bool) (q : Nat) (exact : Bool) (e : Int) : FVal := .fin neg (2 * q + b2n (!exact)) (e - 1)

/-- 1 / (m * 2^e). -/
def fvRecip (neg : Bool) (m : Nat) (e : Int) : FVal :=
  let k := bitLen m + 64
  sticky neg (2 ^ k / m) (2 ^ k % m == 0) (-(k : Int) - e)

/-- √(m * 2^e). -/
def fvSqrt (m : Nat) (e : Int) : FVal :=
  let m1 := if e % 2 = 0 then m else 2 * m
  let e1 := if e % 2 = 0 then e else e - 1
  let r := isqrt (m1 * 2 ^ 160)
  sticky false r (r * r == m1 * 2 ^ 160) (e1 / 2 - 80)

/-- 1 / √(m * 2^e). -/
def fvRsqrt (m : Nat) (e : Int) : FVal :=
  let m1 := if e % 2 = 0 then m else 2 * m
  let e1 := if e % 2 = 0 then e else e - 1
  let k := 80 + bitLen m1
  let r := isqrt (2 ^ (2 * k) / m1)
  sticky false r (r * r * m1 == 2 ^ (2 * k)) (-(k : Int) - e1 / 2)

/-- Product of 2^(2^-i) over the set bits i of a binary fraction of n bits, in fixed point with 256 bits: `root` is
2^(2^-(i-1)), `acc` the product so far. -/
def exp2Frac (frac n : Nat) : Nat → Nat → Nat → Nat
  | 0, _, acc => acc
  | k + 1, root, acc =>
    let r := isqrt (root * 2 ^ 256)
    exp2Frac frac n k r (if bit frac k then acc * r / 2 ^ 256 else acc)

/-- 2^a of a finite a: exact where a is an integer. -/
def fvExp2 (neg : Bool) (m : Nat) (e : Int) : FVal :=
  if m = 0 then .fin false 1 0
  else
    -- |a| as integer part and n fraction bits
    let n := if e < 0 then (-e).toNat else 0
    let x := if e < 0 then m else m * 2 ^ e.toNat
    let a : Int := if neg then -(x : Int) else x
    let i : Int := a / (2 ^ n : Nat)
    let frac : Nat := (a % (2 ^ n : Nat)).toNat
    if frac = 0 then .fin false 1 i
    else sticky false (exp2Frac frac n n (2 ^ 257) (2 ^ 256)) false (i - 256)

/-- Binary digits of log2 of y / 2^400 (1 ≤ y / 2^400 < 2) by repeated squaring, n of them, after those of acc. -/
def log2Digits : Nat → Nat → Nat → Nat
  | 0, _, acc => acc
  | n + 1, y, acc =>
    let z := y * y / 2 ^ 400
    if 2 ^ 401 ≤ z then log2Digits n (z / 2) (2 * acc + 1) else log2Digits n z (2 * acc)

/-- log2 of m * 2^e > 0: exact where it is a power of two. -/
def fvLog2 (m : Nat) (e : Int) : FVal :=
  let l := Nat.log2 m
  let i : Int := (l : Int) + e
  if m = 2 ^ l then (if i = 0 then .fin false 0 0 else .fin (decide (i < 0)) i.natAbs 0)
  else
    let d := log2Digits 128 (m * 2 ^ 400 / 2 ^ l) 0
    if 0 ≤ i then sticky false (i.toNat * 2 ^ 128 + d) false (-128)
    -- −(|i| − 0.d...): the digits below are those of the difference, which lies just under it
    else sticky true ((-i).toNat * 2 ^ 128 - d - 1) false (-128)

/-- The transcendental functions of R108. -/
inductive Trans where
  | rcp | rsq | sqrt | exp2 | log2
  deriving DecidableEq, Repr

/-- F(a) rounded once, with the special operands of R108. -/
def fvTrans (c : RCtx) (t : Trans) (a : Nat) : Nat × RCtx :=
  match fmtDecode .f32 a with
  | .nan s => rnd c .f32 false (.nan s)
  | .inf n =>
    match t with
    | .rcp => rnd c .f32 false (.fin n 0 0)
    | .rsq => if n then rnd c .f32 false (.nan true) else rnd c .f32 false (.fin false 0 0)
    | .sqrt => if n then rnd c .f32 false (.nan true) else rnd c .f32 false (.inf false)
    | .exp2 => if n then rnd c .f32 false (.fin false 0 0) else rnd c .f32 false (.inf false)
    | .log2 => if n then rnd c .f32 false (.nan true) else rnd c .f32 false (.inf false)
  | .fin n m e =>
    if m = 0 then
      match t with
      | .rcp | .rsq => rnd (raise c fDZ) .f32 false (.inf n)
      | .sqrt => rnd c .f32 false (.fin n 0 0)
      | .exp2 => rnd c .f32 false (.fin false 1 0)
      | .log2 => rnd (raise c fDZ) .f32 false (.inf true)
    else
      match t with
      | .rcp => rnd c .f32 false (fvRecip n m e)
      | .rsq => rnd c .f32 false (if n then .nan true else fvRsqrt m e)
      | .sqrt => rnd c .f32 false (if n then .nan true else fvSqrt m e)
      | .exp2 => rnd c .f32 false (fvExp2 n m e)
      | .log2 => rnd c .f32 false (if n then .nan true else fvLog2 m e)

/-! ### Sine and cosine for the MLP template (R246) -/

/-- 2π * 2^320, rounded down. -/
def twoPi320 : Nat := 13420802360424337830311681948440006481608388178854297901454212848703426437343610760199000777828079

/-- Alternating Taylor terms: x, t in fixed point with 320 bits; k the next divisor pair. -/
def taylor (x2 : Nat) : Nat → Nat → Nat → Int
  | 0, _, _ => 0
  | n + 1, k, t => (t : Int) - taylor x2 n (k + 2) (t * x2 / 2 ^ 320 / (k * (k + 1)))

/-- sin of 2π * j / 2^24 for 0 < j < 2^22 (first quadrant), over 2^320. -/
def sinQ (j : Nat) : Nat :=
  let x := twoPi320 * j / 2 ^ 24
  (taylor (x * x / 2 ^ 320) 60 2 x).toNat

/-- Exact sine of 2π θ / 2^24 as a value to round once: exact at the quadrant points. -/
def fvSin (θ : Nat) : FVal :=
  let t := θ % 2 ^ 24
  let quad := t / 2 ^ 22
  let j := t % 2 ^ 22
  if j = 0 then
    match quad with
    | 1 => .fin false 1 0
    | 3 => .fin true 1 0
    | _ => .fin false 0 0
  else
    let a := if quad % 2 = 0 then sinQ j else sinQ (2 ^ 22 - j)
    sticky (decide (2 ≤ quad)) a false (-320)

/-- Exact cosine of 2π θ / 2^24. -/
def fvCos (θ : Nat) : FVal := fvSin (θ + 2 ^ 22)

end Sys2Proof.Machine
end

