-- ==== Sys2Proof/WellFormed.lean ====
section
/-! DEFINITION. Well-formed instructions: those that the fill admits. -/

namespace Sys2Proof

/-- What R34, R74 and R86 admit, every field in range and of a value the instruction's row lists. -/
def Instr.WellFormed (i : Instr) : Prop := Machine.legal i = true

end Sys2Proof
end

