-- ==== Sys2Proof/Decode.lean ====
section
/-! DEFINITION. The code stream's words: reading the fields of a word (R75), the encoder, and the decoder,
which takes a word exactly when it is the encoding of the instruction its fields name and the fill admits
that instruction (R34, R74, R86: no field value is silently ignored). -/

namespace Sys2Proof

open Machine

/-- The long form less its prefix: OP, DST, A, B and the low half-word (R75). -/
structure Fields where
  op : Nat
  d : Nat
  a : Nat
  b : Nat
  low : Nat
  deriving DecidableEq, Repr

/-- C of format A3 (bits 15..1). -/
def Fields.c (f : Fields) : Nat := f.low / 2
/-- S of format A3 (bit 0). -/
def Fields.s (f : Fields) : Nat := f.low % 2
/-- RND of format A2 (bits 15..13). -/
def Fields.rnd (f : Fields) : Nat := f.low / 8192
/-- TYPE of format A2 (bits 12..8). -/
def Fields.ty (f : Fields) : Nat := f.low / 256 % 32
/-- P8D of format A2 (bits 7..3). -/
def Fields.p8d (f : Fields) : Nat := f.low / 8 % 32
/-- OPS of format A2 (bits 2..0). -/
def Fields.ops (f : Fields) : Nat := f.low % 8
/-- IMM20 of format I (bits 30..11). -/
def Fields.imm (f : Fields) : Nat := f.b * 32 + f.low / 2048
/-- RND of MOD11 (bits 10..8). -/
def Fields.irnd (f : Fields) : Nat := f.low / 256 % 8
/-- TYPE of MOD11 (bits 7..3). -/
def Fields.ity (f : Fields) : Nat := f.low / 8 % 32
/-- Bits 2..0 of MOD11. -/
def Fields.m3 (f : Fields) : Nat := f.low % 8
/-- SIZE of format M (bits 15..13). -/
def Fields.sz (f : Fields) : Nat := f.low / 8192
/-- OFS8 of format M (bits 12..5). -/
def Fields.ofs (f : Fields) : Nat := f.low / 32 % 256
/-- ORD of format M (bits 4..0). -/
def Fields.ord (f : Fields) : Nat := f.low % 32
/-- CK of format B (bits 45..44). -/
def Fields.ck (f : Fields) : Nat := f.a / 8192
/-- TGT of format B (bits 43..24). -/
def Fields.tgt (f : Fields) : Nat := (f.a % 8192) * 128 + f.b / 256
/-- LINK of format B (bits 23..16). -/
def Fields.link (f : Fields) : Nat := f.b % 256

/-! ### Reading the fields -/

/-- A number below n as a Fin. -/
def finOf (n x : Nat) : Option (Fin n) := if h : x < n then some ⟨x, h⟩ else none
/-- A number as a bit vector of width w, if it fits. -/
def bvOf (w x : Nat) : Option (BitVec w) := if x < 2 ^ w then some (BitVec.ofNat w x) else none
/-- A one-bit field. -/
def boolOf (x : Nat) : Option Bool := if x = 0 then some false else if x = 1 then some true else none
/-- A field that takes one of two values. -/
def selOf (off on x : Nat) : Option Bool := if x = off then some false else if x = on then some true else none

/-- Source specifier (R42). -/
def srcOf (lit : Option W32) (x : Nat) : Option Src :=
  if h : x < 128 then some (.v ⟨x, h⟩)
  else if x < 192 then (finOf 64 (x - 128)).map .c
  else if x < 224 then (finOf 32 (x - 192)).map .imm
  else if x < 232 then (finOf 8 (x - 224)).map .q
  else if x < 240 then (finOf 8 (x - 232)).map .o
  else match x with
  | 240 => some .h0
  | 241 => some .h1
  | 242 => lit.map .lit
  | 243 => some .lane
  | 244 => some .grp
  | _ => none

/-- Lane pattern (R55). -/
def patOf (x : Nat) : Option Pat :=
  if x = 0 then some .ident
  else if x < 32 then none
  else if x < 64 then (finOf 32 (x - 32)).map .rot
  else if x < 96 then (finOf 32 (x - 64)).map .bc
  else (finOf 32 (x - 96)).map .bf

/-- Operand field: specifier above pattern (R55, R75). -/
def opOf (lit : Option W32) (x : Nat) : Option Opnd :=
  match srcOf lit (x / 128), patOf (x % 128) with
  | some s, some p => some ⟨s, p⟩
  | _, _ => none

/-- The specifier of an operand field. -/
def srcFOf (lit : Option W32) (x : Nat) : Option Src := srcOf lit (x / 128)
/-- A v register in an operand field. -/
def vOf (x : Nat) : Option (Fin 128) := finOf 128 (x / 128)

/-- Destination specifier (R48). -/
def dstOf (x : Nat) : Option Dst :=
  if h : x < 128 then some (.v ⟨x, h⟩)
  else if 224 ≤ x ∧ x < 232 then (finOf 8 (x - 224)).map .q
  else if 232 ≤ x ∧ x < 240 then (finOf 8 (x - 232)).map .o
  else if x = 255 then some .none else none

/-- CREG (R78). -/
def cregOf (x : Nat) : Option Creg :=
  if h : x < 128 then some (.v ⟨x, h⟩)
  else if 232 ≤ x ∧ x < 240 then (finOf 8 (x - 232)).map .o
  else if x = 240 then some .h0 else if x = 241 then some .h1 else none

/-- Integer TYPE (R61, R87). -/
def ityOf (x : Nat) : Option ITy :=
  match x with
  | 0 => some .i32 | 1 => some .z32 | 6 => some .i64 | 7 => some .z64 | _ => none
/-- Scalar float TYPE (R104). -/
def ftyOf (x : Nat) : Option FTy :=
  match x with
  | 8 => some .f32 | 9 => some .f16 | 10 => some .bf16 | _ => none
/-- RND (R79). -/
def rndOf (x : Nat) : Option Rnd :=
  match x with
  | 0 => some .dyn | 1 => some .rne | 2 => some .rtz | 3 => some .rup | 4 => some .rdn | 5 => some .rna
  | 6 => some .sr | _ => none
/-- Condition of `icmp` (R90). -/
def ccOf (x : Nat) : Option Cc :=
  match x with
  | 0 => some .eq | 1 => some .ne | 2 => some .lt | 3 => some .le | 4 => some .gt | 5 => some .ge | _ => none
/-- Condition of `fcmp` (R105). -/
def fccOf (x : Nat) : Option Fcc :=
  match x with
  | 0 => some .eq | 1 => some .ne | 2 => some .lt | 3 => some .le | 4 => some .gt | 5 => some .ge | 6 => some .un
  | _ => none
/-- Mode of `vote` (R91). -/
def voteOf (x : Nat) : Option Vote :=
  match x with
  | 0 => some .all | 1 => some .any | 2 => some .ballot | 3 => some .uni | _ => none
/-- DIR of `cvt` (R111). -/
def dirOf (x : Nat) : Option Dir :=
  match x with
  | 0 => some .fromF32 | 1 => some .toF32 | 2 => some .fromF64 | 3 => some .toF64 | _ => none
/-- Block size of `quant` (R112). -/
def blkOf (x : Nat) : Option Blk :=
  match x with
  | 0 => some .b16 | 1 => some .b32 | 2 => some .b64 | 3 => some .b128 | _ => none
/-- SIZE (R79). -/
def sizeOf (x : Nat) : Option Size :=
  match x with
  | 0 => some .b | 1 => some .h | 2 => some .w | 3 => some .d | 4 => some .q | 5 => some .e | _ => none
/-- SEM (R79). -/
def semOf (x : Nat) : Option Sem :=
  match x with
  | 0 => some .plain | 1 => some .rlx | 2 => some .acqrel | 3 => some .sc | _ => none
/-- SCOPE (R18). -/
def scopeOf (x : Nat) : Option Scope :=
  match x with
  | 0 => some .core | 1 => some .quad | 2 => some .die | 3 => some .pkg | 4 => some .pod | _ => none
/-- SEM of an access that takes core scope alone (R127). -/
def semOf8 (x : Nat) : Option Sem := if x % 8 = 0 then semOf (x / 8) else none
/-- ORD (R79). -/
def ordOf (x : Nat) : Option Ord :=
  match semOf (x / 8), scopeOf (x % 8) with
  | some m, some c => some ⟨m, c⟩
  | _, _ => none
/-- CK of `brc` (R79). -/
def ckOf (x : Nat) : Option Ck :=
  match x with
  | 1 => some .nz | 2 => some .z | 3 => some .neg | _ => none
/-- PATH of `drain` (R146). -/
def pathOf (x : Nat) : Option Path :=
  match x with
  | 0 => some .scratch | 1 => some .priv | 2 => some .device | 3 => some .acc | _ => none
/-- BARID without its ARR bit (R147). -/
def barOf (x : Nat) : Option BarId :=
  match scopeOf (x / 8192), finOf 64 (x % 8192) with
  | some c, some i => some ⟨c, i⟩
  | _, _ => none
/-- Kind of `fence` from OFS8 and SEM (R140). -/
def fkOf (ofs sem : Nat) : Option FenceKind :=
  match sem, ofs with
  | 1, 0 => some .rlx | 2, 1 => some .acq | 2, 2 => some .rel | 2, 3 => some .ar | 3, 0 => some .sc | _, _ => none
/-- Duration of `sleep` from CREG and OPSPEC (R101). -/
def sleepOf (d x : Nat) : Option SleepArg :=
  if x = 0x8000 then (cregOf d).map .reg else (finOf 32768 x).map .ticks
/-- OPK of `csrw` (R165). -/
def csrOpOf (x : Nat) : Option CsrOp :=
  match x with
  | 0 => some .write | 1 => some .set | 2 => some .clr | _ => none
/-- CSR number (R291). -/
def csrOf (x : Nat) : Option Csr :=
  match x with
  | 0x000 => some .fmode | 0x001 => some .srseed | 0x002 => some .srcnt | 0x210 => some .regpc
  | 0x211 => some .regcnt | 0x410 => some .mstat | 0x411 => some .txpc | 0x412 => some .tscratch
  | 0x413 => some .tvec | 0x610 => some .tcause | 0x611 => some .txval | 0x810 => some .hvec | _ => none
/-- Special register number (R167). -/
def sregOf (x : Nat) : Option Sreg :=
  match x with
  | 0x200 => some .launchid | 0x201 => some .cblen | 0x202 => some .galtime | 0x203 => some .kclass
  | 0x204 => some .accept | 0x205 => some .coreclk | 0x206 => some .privsz | 0x207 => some .sgfault
  | 0x400 => some .svscr | 0x600 => some .asid | 0x601 => some .coremap | 0xA00 => some .vmid | _ => none
/-- Class code of `rclass` (R174). -/
def rclassOf (x : Nat) : Option RClass :=
  match x with
  | 0 => some .proof | 1 => some .check | 2 => some .draft | _ => none

/-- Reading the integer group, OP 0x00 to 0x1F (R80). -/
def readInteger (lit : Option W32) (fl : Fields) : Option Instr :=
  match fl.op with
  | 0x00 => some .nop
  | 0x01 => do return .mov (← ityOf fl.ty) (← dstOf fl.d) (← opOf lit fl.a)
  | 0x02 => do return .iadd (← ityOf fl.ty) (← boolOf fl.ops) (← dstOf fl.d) (← opOf lit fl.a) (← opOf lit fl.b)
  | 0x03 => do return .isub (← ityOf fl.ty) (← boolOf fl.ops) (← dstOf fl.d) (← opOf lit fl.a) (← opOf lit fl.b)
  | 0x04 => do return .imul (← ityOf fl.ty) (← boolOf fl.ops) (← dstOf fl.d) (← opOf lit fl.a) (← opOf lit fl.b)
  | 0x05 => do return .imulh (← selOf 0 1 fl.ty) (← dstOf fl.d) (← opOf lit fl.a) (← opOf lit fl.b)
  | 0x06 => do return .imad (← dstOf fl.d) (← opOf lit fl.a) (← opOf lit fl.b) (← opOf lit fl.c)
  | 0x07 => do return .iaddw (← selOf 0 1 fl.ty) (← dstOf fl.d) (← opOf lit fl.a) (← opOf lit fl.b)
  | 0x08 => do return .imulw (← selOf 0 1 fl.ty) (← dstOf fl.d) (← opOf lit fl.a) (← opOf lit fl.b)
  | 0x09 => do return .imin (← ityOf fl.ty) (← dstOf fl.d) (← opOf lit fl.a) (← opOf lit fl.b)
  | 0x0A => do return .imax (← ityOf fl.ty) (← dstOf fl.d) (← opOf lit fl.a) (← opOf lit fl.b)
  | 0x0B => do return .iabs (← selOf 0 6 fl.ty) (← boolOf fl.ops) (← dstOf fl.d) (← opOf lit fl.a)
  | 0x0C => do return .and (← ityOf fl.ty) (← dstOf fl.d) (← opOf lit fl.a) (← opOf lit fl.b)
  | 0x0D => do return .or (← ityOf fl.ty) (← dstOf fl.d) (← opOf lit fl.a) (← opOf lit fl.b)
  | 0x0E => do return .xor (← ityOf fl.ty) (← dstOf fl.d) (← opOf lit fl.a) (← opOf lit fl.b)
  | 0x0F => do return .andn (← ityOf fl.ty) (← dstOf fl.d) (← opOf lit fl.a) (← opOf lit fl.b)
  | 0x10 => do return .shl (← ityOf fl.ty) (← dstOf fl.d) (← opOf lit fl.a) (← opOf lit fl.b)
  | 0x11 => do return .shr (← ityOf fl.ty) (← dstOf fl.d) (← opOf lit fl.a) (← opOf lit fl.b)
  | 0x12 => do return .sar (← ityOf fl.ty) (← dstOf fl.d) (← opOf lit fl.a) (← opOf lit fl.b)
  | 0x13 => do return .rot (← ityOf fl.ty) (← dstOf fl.d) (← opOf lit fl.a) (← opOf lit fl.b)
  | 0x14 => do return .bfx (← boolOf fl.s) (← dstOf fl.d) (← opOf lit fl.a) (← opOf lit fl.b) (← opOf lit fl.c)
  | 0x15 => do return .bfi (← dstOf fl.d) (← opOf lit fl.a) (← opOf lit fl.b) (← opOf lit fl.c)
  | 0x16 => do return .popc (← ityOf fl.ty) (← dstOf fl.d) (← opOf lit fl.a)
  | 0x17 => do return .clz (← ityOf fl.ty) (← dstOf fl.d) (← opOf lit fl.a)
  | 0x18 => do return .ctz (← ityOf fl.ty) (← dstOf fl.d) (← opOf lit fl.a)
  | 0x19 => do return .brev (← ityOf fl.ty) (← dstOf fl.d) (← opOf lit fl.a)
  | 0x1A => do return .icmp (← ccOf fl.ops) (← ityOf fl.ty) (← dstOf fl.d) (← opOf lit fl.a) (← opOf lit fl.b)
  | 0x1B => do return .sel (← dstOf fl.d) (← opOf lit fl.a) (← opOf lit fl.b) (← opOf lit fl.c)
  | 0x1C => do return .lea (← selOf 0 1 fl.ty) (← finOf 8 fl.ops) (← dstOf fl.d) (← opOf lit fl.a) (← opOf lit fl.b)
  | 0x1D => do return .prmt (← dstOf fl.d) (← opOf lit fl.a) (← opOf lit fl.b) (← opOf lit fl.c)
  | 0x1E => do return .vote (← voteOf fl.ops) (← dstOf fl.d) (← opOf lit fl.a)
  | 0x1F => do return .perm (← selOf 0 6 fl.ty) (← dstOf fl.d) (← opOf lit fl.a) (← opOf lit fl.b)
  | _ => none

/-- Reading the float group, OP 0x20 to 0x3F (R80). -/
def readFloat (lit : Option W32) (fl : Fields) : Option Instr :=
  match fl.op with
  | 0x20 => do return .fadd (← ftyOf fl.ty) (← rndOf fl.rnd) (← dstOf fl.d) (← opOf lit fl.a) (← opOf lit fl.b)
  | 0x21 => do return .fsub (← ftyOf fl.ty) (← rndOf fl.rnd) (← dstOf fl.d) (← opOf lit fl.a) (← opOf lit fl.b)
  | 0x22 => do return .fmul (← ftyOf fl.ty) (← rndOf fl.rnd) (← dstOf fl.d) (← opOf lit fl.a) (← opOf lit fl.b)
  | 0x23 => do return .fma (← boolOf fl.s) (← dstOf fl.d) (← opOf lit fl.a) (← opOf lit fl.b) (← opOf lit fl.c)
  | 0x24 => do return .fmac (← ftyOf fl.ty) (← rndOf fl.rnd) (← dstOf fl.d) (← opOf lit fl.a) (← opOf lit fl.b)
  | 0x25 => do return .fmin (← ftyOf fl.ty) (← boolOf fl.ops) (← dstOf fl.d) (← opOf lit fl.a) (← opOf lit fl.b)
  | 0x26 => do return .fmax (← ftyOf fl.ty) (← boolOf fl.ops) (← dstOf fl.d) (← opOf lit fl.a) (← opOf lit fl.b)
  | 0x27 => do return .fcmp (← fccOf fl.ops) (← ftyOf fl.ty) (← dstOf fl.d) (← opOf lit fl.a) (← opOf lit fl.b)
  | 0x28 => do return .frcp (← rndOf fl.rnd) (← dstOf fl.d) (← opOf lit fl.a)
  | 0x29 => do return .frsq (← rndOf fl.rnd) (← dstOf fl.d) (← opOf lit fl.a)
  | 0x2A => do return .fsqrt (← rndOf fl.rnd) (← dstOf fl.d) (← opOf lit fl.a)
  | 0x2B => do return .fexp2 (← rndOf fl.rnd) (← dstOf fl.d) (← opOf lit fl.a)
  | 0x2C => do return .flog2 (← rndOf fl.rnd) (← dstOf fl.d) (← opOf lit fl.a)
  | 0x2D => do return .frnd (← ftyOf fl.ty) (← rndOf fl.rnd) (← boolOf fl.ops) (← dstOf fl.d) (← opOf lit fl.a)
  | 0x2E => do return .fclass (← ftyOf fl.ty) (← dstOf fl.d) (← opOf lit fl.a)
  | 0x2F => do return .fscale (← ftyOf fl.ty) (← rndOf fl.rnd) (← dstOf fl.d) (← opOf lit fl.a) (← opOf lit fl.b)
  | 0x30 => do return .cvt (← dirOf (fl.ops % 4)) (← fmtOf fl.ty fl.p8d) (← boolOf (fl.ops / 4)) (← rndOf fl.rnd) (← dstOf fl.d) (← opOf lit fl.a)
  | 0x31 => do return .quant (← fmtOf fl.ty fl.p8d) (← blkOf (fl.ops % 4)) (← boolOf (fl.ops / 4)) (← rndOf fl.rnd) (← dstOf fl.d) (← opOf lit fl.a)
  | 0x32 => do return .deq (← fmtOf fl.ty fl.p8d) (← finOf 8 fl.ops) (← rndOf fl.rnd) (← dstOf fl.d) (← opOf lit fl.a) (← opOf lit fl.b)
  | 0x33 => do return .h2add (← selOf 9 10 fl.ty) (← rndOf fl.rnd) (← dstOf fl.d) (← opOf lit fl.a) (← opOf lit fl.b)
  | 0x34 => do return .h2mul (← selOf 9 10 fl.ty) (← rndOf fl.rnd) (← dstOf fl.d) (← opOf lit fl.a) (← opOf lit fl.b)
  | 0x35 => do return .h2fma (← boolOf fl.s) (← dstOf fl.d) (← opOf lit fl.a) (← opOf lit fl.b) (← opOf lit fl.c)
  | 0x36 => do return .fdot2 (← boolOf fl.s) (← dstOf fl.d) (← opOf lit fl.a) (← opOf lit fl.b) (← opOf lit fl.c)
  | 0x37 => do return .dadd (← rndOf fl.rnd) (← dstOf fl.d) (← opOf lit fl.a) (← opOf lit fl.b)
  | 0x38 => do return .dmul (← rndOf fl.rnd) (← dstOf fl.d) (← opOf lit fl.a) (← opOf lit fl.b)
  | 0x39 => do return .dfma (← boolOf fl.s) (← dstOf fl.d) (← opOf lit fl.a) (← opOf lit fl.b) (← opOf lit fl.c)
  | 0x3A => do return .mmag (← fmtOf fl.ty fl.p8d) (← boolOf fl.ops) (← rndOf fl.rnd) (← finOf 128 fl.d) (← vOf fl.a) (← vOf fl.b)
  | 0x3B => do return .cmul (← ftyOf fl.ty) (← boolOf fl.ops) (← rndOf fl.rnd) (← dstOf fl.d) (← opOf lit fl.a) (← opOf lit fl.b)
  | 0x3C => do return .rng (← fmtOf fl.ty fl.p8d) (← dstOf fl.d) (← opOf lit fl.a) (← opOf lit fl.b)
  | _ => none

/-- Reading the immediate group, OP 0x40 to 0x5F (R80). -/
def readImmediate (lit : Option W32) (fl : Fields) : Option Instr :=
  match fl.op with
  | 0x40 => do return .movi (← ityOf fl.ity) (← dstOf fl.d) (← bvOf 20 fl.imm)
  | 0x41 => do return .movhi (← dstOf fl.d) (← opOf lit fl.a) (← bvOf 20 fl.imm)
  | 0x42 => do return .iaddi (← ityOf fl.ity) (← boolOf fl.m3) (← dstOf fl.d) (← opOf lit fl.a) (← bvOf 20 fl.imm)
  | 0x43 => do return .imuli (← ityOf fl.ity) (← boolOf fl.m3) (← dstOf fl.d) (← opOf lit fl.a) (← bvOf 20 fl.imm)
  | 0x44 => do return .andi (← ityOf fl.ity) (← dstOf fl.d) (← opOf lit fl.a) (← bvOf 20 fl.imm)
  | 0x45 => do return .ori (← ityOf fl.ity) (← dstOf fl.d) (← opOf lit fl.a) (← bvOf 20 fl.imm)
  | 0x46 => do return .xori (← ityOf fl.ity) (← dstOf fl.d) (← opOf lit fl.a) (← bvOf 20 fl.imm)
  | 0x47 => do return .shli (← ityOf fl.ity) (← dstOf fl.d) (← opOf lit fl.a) (← bvOf 20 fl.imm)
  | 0x48 => do return .shri (← ityOf fl.ity) (← dstOf fl.d) (← opOf lit fl.a) (← bvOf 20 fl.imm)
  | 0x49 => do return .sari (← ityOf fl.ity) (← dstOf fl.d) (← opOf lit fl.a) (← bvOf 20 fl.imm)
  | 0x4A => do return .icmpi (← ccOf fl.m3) (← ityOf fl.ity) (← dstOf fl.d) (← opOf lit fl.a) (← bvOf 20 fl.imm)
  | 0x4B => do return .fmovi (← dstOf fl.d) (← bvOf 20 fl.imm)
  | 0x4C => do return .faddi (← rndOf fl.irnd) (← dstOf fl.d) (← opOf lit fl.a) (← bvOf 20 fl.imm)
  | 0x4D => do return .fmuli (← rndOf fl.irnd) (← dstOf fl.d) (← opOf lit fl.a) (← bvOf 20 fl.imm)
  | 0x4E => do return .fmai (← rndOf fl.irnd) (← dstOf fl.d) (← opOf lit fl.a) (← bvOf 20 fl.imm)
  | 0x4F => do return .fcmpi (← fccOf fl.m3) (← dstOf fl.d) (← opOf lit fl.a) (← bvOf 20 fl.imm)
  | 0x50 => do return .ldc (← dstOf fl.d) (← opOf lit fl.a) (← bvOf 20 fl.imm)
  | 0x51 => do return .leai (← finOf 8 fl.m3) (← dstOf fl.d) (← opOf lit fl.a) (← bvOf 20 fl.imm)
  | _ => none

/-- Reading the memory group, OP 0x60 to 0x7F (R80). -/
def readMemory (lit : Option W32) (fl : Fields) : Option Instr :=
  match fl.op with
  | 0x60 => do return .ld (← sizeOf fl.sz) (← ordOf fl.ord) (← dstOf fl.d) (← vOf fl.a) (← bvOf 8 fl.ofs) (← opOf lit fl.b)
  | 0x61 => do return .st (← sizeOf fl.sz) (← ordOf fl.ord) (← srcOf lit fl.d) (← vOf fl.a) (← bvOf 8 fl.ofs) (← opOf lit fl.b)
  | 0x62 => do return .lds (← sizeOf fl.sz) (← semOf8 fl.ord) (← dstOf fl.d) (← vOf fl.a) (← bvOf 8 fl.ofs) (← opOf lit fl.b)
  | 0x63 => do return .sts (← sizeOf fl.sz) (← semOf8 fl.ord) (← srcOf lit fl.d) (← vOf fl.a) (← bvOf 8 fl.ofs) (← opOf lit fl.b)
  | 0x64 => do return .ldp (← sizeOf fl.sz) (← dstOf fl.d) (← vOf fl.a) (← bvOf 8 fl.ofs) (← opOf lit fl.b)
  | 0x65 => do return .stp (← sizeOf fl.sz) (← srcOf lit fl.d) (← vOf fl.a) (← bvOf 8 fl.ofs) (← opOf lit fl.b)
  | 0x66 => do return .ldacc (← sizeOf fl.sz) (← dstOf fl.d) (← vOf fl.a) (← bvOf 8 fl.ofs) (← opOf lit fl.b)
  | 0x67 => do return .qdef (← finOf 8 (fl.d - 0xE0)) (← vOf fl.a) (← finOf 8 fl.ofs)
  | 0x68 => do return .qget (← dstOf fl.d) (← finOf 8 (fl.ofs / 8)) (← finOf 8 (fl.ofs % 8))
  | 0x69 => do return .pf (← vOf fl.a) (← bvOf 8 fl.ofs) (← opOf lit fl.b)
  | 0x6A => do return .cwb (← vOf fl.a) (← bvOf 8 fl.ofs) (← opOf lit fl.b)
  | 0x6B => do return .cinv (← vOf fl.a) (← bvOf 8 fl.ofs) (← opOf lit fl.b)
  | 0x6C => do return .ttag (← srcOf lit fl.d) (← opOf lit fl.b)
  | 0x6D => do return .ldt (← dstOf fl.d) (← opOf lit fl.b)
  | _ => none

/-- Reading the atomic group, OP 0x80 to 0x9F (R80). -/
def readAtomic (lit : Option W32) (fl : Fields) : Option Instr :=
  match fl.op with
  | 0x80 => do return .aadd (← selOf 2 3 fl.sz) (← ordOf fl.ord) (← dstOf fl.d) (← vOf fl.a) (← bvOf 8 fl.ofs) (← opOf lit fl.b)
  | 0x81 => do return .amin (← selOf 2 3 fl.sz) (← ordOf fl.ord) (← dstOf fl.d) (← vOf fl.a) (← bvOf 8 fl.ofs) (← opOf lit fl.b)
  | 0x82 => do return .amax (← selOf 2 3 fl.sz) (← ordOf fl.ord) (← dstOf fl.d) (← vOf fl.a) (← bvOf 8 fl.ofs) (← opOf lit fl.b)
  | 0x83 => do return .aand (← selOf 2 3 fl.sz) (← ordOf fl.ord) (← dstOf fl.d) (← vOf fl.a) (← bvOf 8 fl.ofs) (← opOf lit fl.b)
  | 0x84 => do return .aor (← selOf 2 3 fl.sz) (← ordOf fl.ord) (← dstOf fl.d) (← vOf fl.a) (← bvOf 8 fl.ofs) (← opOf lit fl.b)
  | 0x85 => do return .axor (← selOf 2 3 fl.sz) (← ordOf fl.ord) (← dstOf fl.d) (← vOf fl.a) (← bvOf 8 fl.ofs) (← opOf lit fl.b)
  | 0x86 => do return .axchg (← selOf 2 3 fl.sz) (← ordOf fl.ord) (← dstOf fl.d) (← vOf fl.a) (← bvOf 8 fl.ofs) (← opOf lit fl.b)
  | 0x87 => do return .ainc (← ordOf fl.ord) (← dstOf fl.d) (← vOf fl.a) (← bvOf 8 fl.ofs) (← opOf lit fl.b)
  | 0x88 => do return .acas (← selOf 2 3 fl.sz) (← ordOf fl.ord) (← dstOf fl.d) (← vOf fl.a) (← bvOf 8 fl.ofs) (← opOf lit fl.b)
  | 0x89 => do return .afadd (← selOf 2 3 fl.sz) (← ordOf fl.ord) (← dstOf fl.d) (← vOf fl.a) (← bvOf 8 fl.ofs) (← opOf lit fl.b)
  | 0x8A => do return .afmin (← ordOf fl.ord) (← dstOf fl.d) (← vOf fl.a) (← bvOf 8 fl.ofs) (← opOf lit fl.b)
  | 0x8B => do return .afmax (← ordOf fl.ord) (← dstOf fl.d) (← vOf fl.a) (← bvOf 8 fl.ofs) (← opOf lit fl.b)
  | 0x8C => do return .afadd2 (← ordOf fl.ord) (← dstOf fl.d) (← vOf fl.a) (← bvOf 8 fl.ofs) (← opOf lit fl.b)
  | 0x8D => do return .eld (← sizeOf fl.sz) (← ordOf fl.ord) (← dstOf fl.d) (← vOf fl.a) (← bvOf 8 fl.ofs) (← opOf lit fl.b)
  | 0x8E => do return .est (← sizeOf fl.sz) (← ordOf fl.ord) (← dstOf fl.d) (← vOf fl.a) (← bvOf 8 fl.ofs) (← opOf lit fl.b)
  | 0x8F => do return .erel (← ordOf fl.ord) (← vOf fl.a) (← bvOf 8 fl.ofs) (← opOf lit fl.b)
  | 0x90 => do return .enew (← ordOf fl.ord) (← dstOf fl.d) (← vOf fl.a) (← bvOf 8 fl.ofs)
  | 0x91 => do return .precast (← vOf fl.a) (← bvOf 8 fl.ofs)
  | 0x92 => do return .psync (← vOf fl.a) (← bvOf 8 fl.ofs)
  | 0x93 => do return .pquery (← dstOf fl.d) (← vOf fl.a) (← bvOf 8 fl.ofs)
  | 0x94 => do return .pset (← srcOf lit fl.d) (← vOf fl.a) (← bvOf 8 fl.ofs) (← opOf lit fl.b)
  | 0x95 => do return .fence (← fkOf fl.ofs (fl.ord / 8)) (← scopeOf (fl.ord % 8))
  | 0x96 => do return .acqr (← scopeOf (fl.ord % 8)) (← vOf fl.a) (← bvOf 8 fl.ofs)
  | _ => none

/-- Reading the control group, OP 0xA0 to 0xBF (R80). -/
def readControl (lit : Option W32) (fl : Fields) : Option Instr :=
  match fl.op with
  | 0xA0 => do return .bra (← bvOf 20 fl.tgt)
  | 0xA1 => do return .brc (← ckOf fl.ck) (← cregOf fl.d) (← bvOf 20 fl.tgt)
  | 0xA2 => do return .call (← bvOf 20 fl.tgt) (← dstOf fl.link)
  | 0xA3 => do return .ret (← cregOf fl.d)
  | 0xA4 => do return .jmpi (← cregOf fl.d) (← dstOf fl.link)
  | 0xA5 => do return .brx (← cregOf fl.d) (← bvOf 20 fl.tgt) (← bvOf 8 (fl.low % 256)) (← bvOf 8 (fl.low / 256))
  | 0xA6 => some .exit
  | 0xA7 => some .yield
  | 0xA8 => do return .wait (← finOf 16 (fl.low / 4096)) (← finOf 16 (fl.low / 256 % 16)) (← finOf 16 (fl.low / 16 % 16)) (← finOf 16 (fl.low % 16))
  | 0xA9 => do return .drain (← pathOf fl.low)
  | 0xAA => do return .barArr (← cregOf fl.d) (← barOf fl.low)
  | 0xAB => do return .barWait (← cregOf fl.d) (← barOf fl.low)
  | 0xAC => do return .barSync (← barOf fl.low)
  | 0xAD => do return .barInit (← cregOf fl.d) (← barOf fl.low)
  | 0xAE => do return .sleep (← sleepOf fl.d fl.low)
  | _ => none

/-- Reading the engine group, OP 0xC0 to 0xDF (R80). -/
def readEngine (lit : Option W32) (fl : Fields) : Option Instr :=
  match fl.op with
  | 0xC0 => do return .fcopy (← finOf 4 fl.d) (← boolOf fl.low) (← srcFOf lit fl.a)
  | 0xC1 => do return .pcmd (← srcFOf lit fl.a)
  | 0xC2 => do return .pbank (← finOf 2 fl.d) (← srcFOf lit fl.a) (← srcFOf lit fl.b) (← barOf (fl.low / 8192 * 8192 + fl.low % 4096)) (← boolOf (fl.low / 4096 % 2))
  | 0xC3 => do return .pclr (← srcFOf lit fl.a) (← srcFOf lit fl.b) (← barOf (fl.low / 8192 * 8192 + fl.low % 4096)) (← boolOf (fl.low / 4096 % 2))
  | 0xC4 => do return .sgset (← finOf 64 fl.d) (← srcFOf lit fl.a)
  | 0xC5 => if fl.low = 1 then do return .collNow (← srcFOf lit fl.a) else do return .coll (← bvOf 8 fl.d) (← srcFOf lit fl.a)
  | 0xC6 => do return .bkset (← bvOf 8 fl.d) (← srcFOf lit fl.a)
  | 0xC7 => do return .bkadd (← bvOf 8 fl.d) (← srcFOf lit fl.b)
  | 0xC8 => do return .tapePush (← srcFOf lit fl.a)
  | 0xC9 => some .tapeMark
  | 0xCA => some .tapeUnwind
  | 0xCB => do return .taskPost (← srcFOf lit fl.a) (← srcFOf lit fl.b)
  | 0xCC => some .taskDone
  | 0xCD => do return .spawn (← srcFOf lit fl.a) (← srcFOf lit fl.b)
  | 0xCE => do return .qfence (← finOf 6 fl.d) (← bvOf 6 fl.low)
  | 0xCF => do return .launch (← finOf 8 fl.d) (← srcFOf lit fl.a)
  | _ => none

/-- Reading the system group, OP 0xE0 to 0xFF (R80). -/
def readSystem (lit : Option W32) (fl : Fields) : Option Instr :=
  match fl.op with
  | 0xE0 => do return .syscall (← bvOf 16 fl.low)
  | 0xE1 => do return .hcall (← bvOf 16 fl.low)
  | 0xE2 => some .tret
  | 0xE3 => do return .sread (← dstOf fl.d) (← sregOf fl.low) (← srcFOf lit fl.a)
  | 0xE4 => do return .swrite (← sregOf fl.low) (← srcFOf lit fl.a) (← srcFOf lit fl.b)
  | 0xE5 => do return .csrr (← dstOf fl.d) (← csrOf fl.low)
  | 0xE6 => do return .csrw (← csrOpOf (fl.low / 4096)) (← dstOf fl.d) (← csrOf (fl.low % 4096)) (← srcFOf lit fl.a)
  | 0xE7 => do return .brk (← bvOf 16 fl.low)
  | 0xE8 => do return .halt (← bvOf 16 fl.low)
  | 0xE9 => do return .tick (← dstOf fl.d)
  | 0xEA => do return .trace (← bvOf 16 fl.low) (← srcFOf lit fl.a)
  | 0xEB => do return .icinv (← srcFOf lit fl.a) (← srcFOf lit fl.b)
  | 0xEC => if fl.low = 1 then do return .lmapSet (← srcFOf lit fl.a) (← srcFOf lit fl.b) else do return .lmapClr (← srcFOf lit fl.a) (← srcFOf lit fl.b)
  | 0xED => if fl.low = 1 then do return .ebudSet (← dstOf fl.d) (← srcFOf lit fl.a) (← srcFOf lit fl.b) else do return .ebudGet (← dstOf fl.d)
  | 0xEE => if fl.low = 4 then do return .rclassGet (← dstOf fl.d) else do return .rclassSet (← rclassOf fl.low) (← dstOf fl.d)
  | _ => none

/-- The instruction that the fields of a long form name, before the checks of R34 and R74. -/
def readLong (lit : Option W32) (fl : Fields) : Option Instr :=
  match fl.op / 32 with
  | 0 => readInteger lit fl
  | 1 => readFloat lit fl
  | 2 => readImmediate lit fl
  | 3 => readMemory lit fl
  | 4 => readAtomic lit fl
  | 5 => readControl lit fl
  | 6 => readEngine lit fl
  | 7 => readSystem lit fl
  | _ => none

/-- The instruction that the fields of a short form name (R33, R85). -/
def readShort (sop d a b : Nat) : Option Instr :=
  match sop with
  | 0x00 => some .nopShort
  | 0x01 => do return .movShort (← dstOf d) (← srcOf none a)
  | 0x02 => do return .iaddShort (← dstOf d) (← srcOf none a) (← srcOf none b)
  | 0x03 => do return .isubShort (← dstOf d) (← srcOf none a) (← srcOf none b)
  | 0x04 => do return .imulShort (← dstOf d) (← srcOf none a) (← srcOf none b)
  | 0x05 => do return .imulhShort (← dstOf d) (← srcOf none a) (← srcOf none b)
  | 0x06 => do return .imadShort (← dstOf d) (← srcOf none a) (← srcOf none b)
  | 0x07 => do return .iminShort (← dstOf d) (← srcOf none a) (← srcOf none b)
  | 0x08 => do return .imaxShort (← dstOf d) (← srcOf none a) (← srcOf none b)
  | 0x09 => do return .iminZ32Short (← dstOf d) (← srcOf none a) (← srcOf none b)
  | 0x0A => do return .imaxZ32Short (← dstOf d) (← srcOf none a) (← srcOf none b)
  | 0x0B => do return .iabsShort (← dstOf d) (← srcOf none a)
  | 0x0C => do return .andShort (← dstOf d) (← srcOf none a) (← srcOf none b)
  | 0x0D => do return .orShort (← dstOf d) (← srcOf none a) (← srcOf none b)
  | 0x0E => do return .xorShort (← dstOf d) (← srcOf none a) (← srcOf none b)
  | 0x0F => do return .andnShort (← dstOf d) (← srcOf none a) (← srcOf none b)
  | 0x10 => do return .shlShort (← dstOf d) (← srcOf none a) (← srcOf none b)
  | 0x11 => do return .shrShort (← dstOf d) (← srcOf none a) (← srcOf none b)
  | 0x12 => do return .sarShort (← dstOf d) (← srcOf none a) (← srcOf none b)
  | 0x13 => do return .rotShort (← dstOf d) (← srcOf none a) (← srcOf none b)
  | 0x14 => do return .popcShort (← dstOf d) (← srcOf none a)
  | 0x15 => do return .clzShort (← dstOf d) (← srcOf none a)
  | 0x16 => do return .ctzShort (← dstOf d) (← srcOf none a)
  | 0x17 => do return .brevShort (← dstOf d) (← srcOf none a)
  | 0x18 => do return .icmpEqShort (← dstOf d) (← srcOf none a) (← srcOf none b)
  | 0x19 => do return .icmpNeShort (← dstOf d) (← srcOf none a) (← srcOf none b)
  | 0x1A => do return .icmpLtShort (← dstOf d) (← srcOf none a) (← srcOf none b)
  | 0x1B => do return .icmpLeShort (← dstOf d) (← srcOf none a) (← srcOf none b)
  | 0x1C => do return .icmpLtZ32Short (← dstOf d) (← srcOf none a) (← srcOf none b)
  | 0x1D => do return .icmpLeZ32Short (← dstOf d) (← srcOf none a) (← srcOf none b)
  | 0x1E => do return .selShort (← dstOf d) (← srcOf none a) (← srcOf none b)
  | 0x1F => do return .permShort (← dstOf d) (← srcOf none a) (← srcOf none b)
  | 0x20 => do return .faddShort (← dstOf d) (← srcOf none a) (← srcOf none b)
  | 0x21 => do return .fsubShort (← dstOf d) (← srcOf none a) (← srcOf none b)
  | 0x22 => do return .fmulShort (← dstOf d) (← srcOf none a) (← srcOf none b)
  | 0x23 => do return .fmaShort (← dstOf d) (← srcOf none a) (← srcOf none b)
  | 0x24 => do return .fmacShort (← dstOf d) (← srcOf none a) (← srcOf none b)
  | 0x25 => do return .fminShort (← dstOf d) (← srcOf none a) (← srcOf none b)
  | 0x26 => do return .fmaxShort (← dstOf d) (← srcOf none a) (← srcOf none b)
  | 0x27 => do return .fcmpEqShort (← dstOf d) (← srcOf none a) (← srcOf none b)
  | 0x28 => do return .fcmpLtShort (← dstOf d) (← srcOf none a) (← srcOf none b)
  | 0x29 => do return .fcmpLeShort (← dstOf d) (← srcOf none a) (← srcOf none b)
  | 0x2A => do return .frcpShort (← dstOf d) (← srcOf none a)
  | 0x2B => do return .frsqShort (← dstOf d) (← srcOf none a)
  | 0x2C => do return .fsqrtShort (← dstOf d) (← srcOf none a)
  | 0x2D => do return .fexp2Short (← dstOf d) (← srcOf none a)
  | 0x2E => do return .flog2Short (← dstOf d) (← srcOf none a)
  | 0x2F => do return .frndShort (← dstOf d) (← srcOf none a)
  | 0x30 => do return .fclassShort (← dstOf d) (← srcOf none a)
  | 0x31 => do return .fscaleShort (← dstOf d) (← srcOf none a) (← srcOf none b)
  | 0x32 => do return .cvtI32F32Short (← dstOf d) (← srcOf none a)
  | 0x33 => do return .cvtF32I32Short (← dstOf d) (← srcOf none a)
  | 0x34 => do return .h2addF16Short (← dstOf d) (← srcOf none a) (← srcOf none b)
  | 0x35 => do return .h2mulF16Short (← dstOf d) (← srcOf none a) (← srcOf none b)
  | 0x36 => do return .h2fmaF16Short (← dstOf d) (← srcOf none a) (← srcOf none b)
  | 0x37 => do return .h2addBf16Short (← dstOf d) (← srcOf none a) (← srcOf none b)
  | 0x38 => do return .h2mulBf16Short (← dstOf d) (← srcOf none a) (← srcOf none b)
  | 0x39 => do return .h2fmaBf16Short (← dstOf d) (← srcOf none a) (← srcOf none b)
  | 0x3A => do return .fdot2F16Short (← dstOf d) (← srcOf none a) (← srcOf none b)
  | 0x3B => do return .fdot2Bf16Short (← dstOf d) (← srcOf none a) (← srcOf none b)
  | 0x3C => do return .daddShort (← dstOf d) (← srcOf none a) (← srcOf none b)
  | 0x3D => do return .dmulShort (← dstOf d) (← srcOf none a) (← srcOf none b)
  | 0x3E => do return .dfmaShort (← dstOf d) (← srcOf none a) (← srcOf none b)
  | _ => none

/-! ### The encoder -/

/-- Source specifier code (R42). -/
def srcC : Src → Nat
  | .v n => n.val | .c n => 128 + n.val | .imm k => 192 + k.val | .q n => 224 + n.val | .o n => 232 + n.val
  | .h0 => 240 | .h1 => 241 | .lit _ => 242 | .lane => 243 | .grp => 244
/-- Pattern code (R55). -/
def patC : Pat → Nat
  | .ident => 0 | .rot p => 32 + p.val | .bc p => 64 + p.val | .bf p => 96 + p.val
/-- Operand field (R75). -/
def opC (o : Opnd) : Nat := srcC o.src * 128 + patC o.pat
/-- Destination specifier code (R48). -/
def dstC : Dst → Nat
  | .v n => n.val | .q n => 224 + n.val | .o n => 232 + n.val | .none => 255
/-- CREG code (R78). -/
def cregC : Creg → Nat
  | .v n => n.val | .o n => 232 + n.val | .h0 => 240 | .h1 => 241
/-- Integer TYPE code. -/
def ityC : ITy → Nat
  | .i32 => 0 | .z32 => 1 | .i64 => 6 | .z64 => 7
/-- Float TYPE code. -/
def ftyC : FTy → Nat
  | .f32 => 8 | .f16 => 9 | .bf16 => 10
/-- RND code. -/
def rndC : Rnd → Nat
  | .dyn => 0 | .rne => 1 | .rtz => 2 | .rup => 3 | .rdn => 4 | .rna => 5 | .sr => 6
/-- Condition code of `icmp`. -/
def ccC : Cc → Nat
  | .eq => 0 | .ne => 1 | .lt => 2 | .le => 3 | .gt => 4 | .ge => 5
/-- Condition code of `fcmp`. -/
def fccC : Fcc → Nat
  | .eq => 0 | .ne => 1 | .lt => 2 | .le => 3 | .gt => 4 | .ge => 5 | .un => 6
/-- Mode code of `vote`. -/
def voteC : Vote → Nat
  | .all => 0 | .any => 1 | .ballot => 2 | .uni => 3
/-- DIR code. -/
def dirC : Dir → Nat
  | .fromF32 => 0 | .toF32 => 1 | .fromF64 => 2 | .toF64 => 3
/-- Block size code. -/
def blkC : Blk → Nat
  | .b16 => 0 | .b32 => 1 | .b64 => 2 | .b128 => 3
/-- SIZE code. -/
def sizeC : Size → Nat
  | .b => 0 | .h => 1 | .w => 2 | .d => 3 | .q => 4 | .e => 5
/-- SEM code. -/
def semC : Sem → Nat
  | .plain => 0 | .rlx => 1 | .acqrel => 2 | .sc => 3
/-- SCOPE code. -/
def scopeC : Scope → Nat
  | .core => 0 | .quad => 1 | .die => 2 | .pkg => 3 | .pod => 4
/-- ORD code. -/
def ordC (o : Ord) : Nat := semC o.sem * 8 + scopeC o.scope
/-- CK code. -/
def ckC : Ck → Nat
  | .nz => 1 | .z => 2 | .neg => 3
/-- PATH code. -/
def pathC : Path → Nat
  | .scratch => 0 | .priv => 1 | .device => 2 | .acc => 3
/-- BARID with ARR = 0. -/
def barC (b : BarId) : Nat := scopeC b.scope * 8192 + b.index.val
/-- OFS8 of a fence kind (R140). -/
def fkOfs : FenceKind → Nat
  | .rlx => 0 | .acq => 1 | .rel => 2 | .ar => 3 | .sc => 0
/-- SEM of a fence kind (R140). -/
def fkSem : FenceKind → Nat
  | .rlx => 1 | .acq => 2 | .rel => 2 | .ar => 2 | .sc => 3
/-- CREG of `sleep`. -/
def sleepCreg : SleepArg → Nat
  | .ticks _ => 0 | .reg c => cregC c
/-- OPSPEC of `sleep`. -/
def sleepC : SleepArg → Nat
  | .ticks n => n.val | .reg _ => 0x8000
/-- OPK code. -/
def csrOpC : CsrOp → Nat
  | .write => 0 | .set => 1 | .clr => 2
/-- CSR number (R291). -/
def csrC : Csr → Nat
  | .fmode => 0x000 | .srseed => 0x001 | .srcnt => 0x002 | .regpc => 0x210 | .regcnt => 0x211 | .mstat => 0x410
  | .txpc => 0x411 | .tscratch => 0x412 | .tvec => 0x413 | .tcause => 0x610 | .txval => 0x611 | .hvec => 0x810
/-- Special register number (R167). -/
def sregC : Sreg → Nat
  | .launchid => 0x200 | .cblen => 0x201 | .galtime => 0x202 | .kclass => 0x203 | .accept => 0x204
  | .coreclk => 0x205 | .privsz => 0x206 | .sgfault => 0x207 | .svscr => 0x400 | .asid => 0x600
  | .coremap => 0x601 | .vmid => 0xA00
/-- Class code (R174). -/
def rclassC : RClass → Nat
  | .proof => 0 | .check => 1 | .draft => 2

/-- Format A3. -/
def fA3 (op d a b c s : Nat) : Fields := ⟨op, d, a, b, c * 2 + s⟩
/-- Format A2. -/
def fA2 (op d a b rnd ty p8d ops : Nat) : Fields := ⟨op, d, a, b, rnd * 8192 + ty * 256 + p8d * 8 + ops⟩
/-- Format I. -/
def fI (op d a imm rnd ty m3 : Nat) : Fields := ⟨op, d, a, imm / 32, imm % 32 * 2048 + rnd * 256 + ty * 8 + m3⟩
/-- Format M. -/
def fM (op d a b sz ofs ord : Nat) : Fields := ⟨op, d, a, b, sz * 8192 + ofs * 32 + ord⟩
/-- Format B. -/
def fB (op creg ck tgt link opspec : Nat) : Fields :=
  ⟨op, creg, ck * 8192 + tgt / 128, tgt % 128 * 256 + link, opspec⟩
/-- Formats E and P. -/
def fE (op d a b low : Nat) : Fields := ⟨op, d, a, b, low⟩

/-- The fields of a long instruction, from the encoding tables of R75 to R84, R120, R149 to R159. -/
def fieldsOf : Instr → Option Fields
  | .nop => some (fA2 0x00 255 0 0 0 0 0 0)
  | .mov t d a => some (fA2 0x01 (dstC d) (opC a) 0 0 (ityC t) 0 0)
  | .iadd t sat d a b => some (fA2 0x02 (dstC d) (opC a) (opC b) 0 (ityC t) 0 (b2n sat))
  | .isub t sat d a b => some (fA2 0x03 (dstC d) (opC a) (opC b) 0 (ityC t) 0 (b2n sat))
  | .imul t sat d a b => some (fA2 0x04 (dstC d) (opC a) (opC b) 0 (ityC t) 0 (b2n sat))
  | .imulh uns d a b => some (fA2 0x05 (dstC d) (opC a) (opC b) 0 (if uns then 1 else 0) 0 0)
  | .iaddw uns d a b => some (fA2 0x07 (dstC d) (opC a) (opC b) 0 (if uns then 1 else 0) 0 0)
  | .imulw uns d a b => some (fA2 0x08 (dstC d) (opC a) (opC b) 0 (if uns then 1 else 0) 0 0)
  | .imad d a b c => some (fA3 0x06 (dstC d) (opC a) (opC b) (opC c) 0)
  | .imin t d a b => some (fA2 0x09 (dstC d) (opC a) (opC b) 0 (ityC t) 0 0)
  | .imax t d a b => some (fA2 0x0A (dstC d) (opC a) (opC b) 0 (ityC t) 0 0)
  | .iabs wide sat d a => some (fA2 0x0B (dstC d) (opC a) 0 0 (if wide then 6 else 0) 0 (b2n sat))
  | .and t d a b => some (fA2 0x0C (dstC d) (opC a) (opC b) 0 (ityC t) 0 0)
  | .or t d a b => some (fA2 0x0D (dstC d) (opC a) (opC b) 0 (ityC t) 0 0)
  | .xor t d a b => some (fA2 0x0E (dstC d) (opC a) (opC b) 0 (ityC t) 0 0)
  | .andn t d a b => some (fA2 0x0F (dstC d) (opC a) (opC b) 0 (ityC t) 0 0)
  | .shl t d a b => some (fA2 0x10 (dstC d) (opC a) (opC b) 0 (ityC t) 0 0)
  | .shr t d a b => some (fA2 0x11 (dstC d) (opC a) (opC b) 0 (ityC t) 0 0)
  | .sar t d a b => some (fA2 0x12 (dstC d) (opC a) (opC b) 0 (ityC t) 0 0)
  | .rot t d a b => some (fA2 0x13 (dstC d) (opC a) (opC b) 0 (ityC t) 0 0)
  | .bfx sgn d a b c => some (fA3 0x14 (dstC d) (opC a) (opC b) (opC c) (b2n sgn))
  | .bfi d a b c => some (fA3 0x15 (dstC d) (opC a) (opC b) (opC c) 0)
  | .popc t d a => some (fA2 0x16 (dstC d) (opC a) 0 0 (ityC t) 0 0)
  | .clz t d a => some (fA2 0x17 (dstC d) (opC a) 0 0 (ityC t) 0 0)
  | .ctz t d a => some (fA2 0x18 (dstC d) (opC a) 0 0 (ityC t) 0 0)
  | .brev t d a => some (fA2 0x19 (dstC d) (opC a) 0 0 (ityC t) 0 0)
  | .icmp cc t d a b => some (fA2 0x1A (dstC d) (opC a) (opC b) 0 (ityC t) 0 (ccC cc))
  | .sel d a b c => some (fA3 0x1B (dstC d) (opC a) (opC b) (opC c) 0)
  | .lea uns sc d a b => some (fA2 0x1C (dstC d) (opC a) (opC b) 0 (if uns then 1 else 0) 0 (sc.val))
  | .prmt d a b c => some (fA3 0x1D (dstC d) (opC a) (opC b) (opC c) 0)
  | .vote m d a => some (fA2 0x1E (dstC d) (opC a) 0 0 0 0 (voteC m))
  | .perm wide d a b => some (fA2 0x1F (dstC d) (opC a) (opC b) 0 (if wide then 6 else 0) 0 0)
  | .fadd t r d a b => some (fA2 0x20 (dstC d) (opC a) (opC b) (rndC r) (ftyC t) 0 0)
  | .fsub t r d a b => some (fA2 0x21 (dstC d) (opC a) (opC b) (rndC r) (ftyC t) 0 0)
  | .fmul t r d a b => some (fA2 0x22 (dstC d) (opC a) (opC b) (rndC r) (ftyC t) 0 0)
  | .fma neg d a b c => some (fA3 0x23 (dstC d) (opC a) (opC b) (opC c) (b2n neg))
  | .fmac t r d a b => some (fA2 0x24 (dstC d) (opC a) (opC b) (rndC r) (ftyC t) 0 0)
  | .fmin t nan d a b => some (fA2 0x25 (dstC d) (opC a) (opC b) 0 (ftyC t) 0 (b2n nan))
  | .fmax t nan d a b => some (fA2 0x26 (dstC d) (opC a) (opC b) 0 (ftyC t) 0 (b2n nan))
  | .fcmp cc t d a b => some (fA2 0x27 (dstC d) (opC a) (opC b) 0 (ftyC t) 0 (fccC cc))
  | .frcp r d a => some (fA2 0x28 (dstC d) (opC a) 0 (rndC r) 8 0 0)
  | .frsq r d a => some (fA2 0x29 (dstC d) (opC a) 0 (rndC r) 8 0 0)
  | .fsqrt r d a => some (fA2 0x2A (dstC d) (opC a) 0 (rndC r) 8 0 0)
  | .fexp2 r d a => some (fA2 0x2B (dstC d) (opC a) 0 (rndC r) 8 0 0)
  | .flog2 r d a => some (fA2 0x2C (dstC d) (opC a) 0 (rndC r) 8 0 0)
  | .frnd t r x d a => some (fA2 0x2D (dstC d) (opC a) 0 (rndC r) (ftyC t) 0 (b2n x))
  | .fclass t d a => some (fA2 0x2E (dstC d) (opC a) 0 0 (ftyC t) 0 0)
  | .fscale t r d a b => some (fA2 0x2F (dstC d) (opC a) (opC b) (rndC r) (ftyC t) 0 0)
  | .cvt dir f sat r d a => some (fA2 0x30 (dstC d) (opC a) 0 (rndC r) (fmtCode f) (fmtP8d f) (dirC dir + 4 * b2n sat))
  | .quant f blk tr r d a => some (fA2 0x31 (dstC d) (opC a) 0 (rndC r) (fmtCode f) (fmtP8d f) (blkC blk + 4 * b2n tr))
  | .deq f j r d a b => some (fA2 0x32 (dstC d) (opC a) (opC b) (rndC r) (fmtCode f) (fmtP8d f) (j.val))
  | .h2add bf r d a b => some (fA2 0x33 (dstC d) (opC a) (opC b) (rndC r) (if bf then 10 else 9) 0 0)
  | .h2mul bf r d a b => some (fA2 0x34 (dstC d) (opC a) (opC b) (rndC r) (if bf then 10 else 9) 0 0)
  | .h2fma bf d a b c => some (fA3 0x35 (dstC d) (opC a) (opC b) (opC c) (b2n bf))
  | .fdot2 bf d a b c => some (fA3 0x36 (dstC d) (opC a) (opC b) (opC c) (b2n bf))
  | .dadd r d a b => some (fA2 0x37 (dstC d) (opC a) (opC b) (rndC r) 11 0 0)
  | .dmul r d a b => some (fA2 0x38 (dstC d) (opC a) (opC b) (rndC r) 11 0 0)
  | .dfma neg d a b c => some (fA3 0x39 (dstC d) (opC a) (opC b) (opC c) (b2n neg))
  | .mmag f mix r d a b => some (fA2 0x3A (d.val) (a.val * 128) (b.val * 128) (rndC r) (fmtCode f) (fmtP8d f) (b2n mix))
  | .cmul t conj r d a b => some (fA2 0x3B (dstC d) (opC a) (opC b) (rndC r) (ftyC t) 0 (b2n conj))
  | .rng f d a b => some (fA2 0x3C (dstC d) (opC a) (opC b) 0 (fmtCode f) (fmtP8d f) 0)
  | .movi t d k => some (fI 0x40 (dstC d) 0 (k.toNat) 0 (ityC t) 0)
  | .movhi d a k => some (fI 0x41 (dstC d) (opC a) (k.toNat) 0 1 0)
  | .iaddi t sat d a k => some (fI 0x42 (dstC d) (opC a) (k.toNat) 0 (ityC t) (b2n sat))
  | .imuli t sat d a k => some (fI 0x43 (dstC d) (opC a) (k.toNat) 0 (ityC t) (b2n sat))
  | .andi t d a k => some (fI 0x44 (dstC d) (opC a) (k.toNat) 0 (ityC t) 0)
  | .ori t d a k => some (fI 0x45 (dstC d) (opC a) (k.toNat) 0 (ityC t) 0)
  | .xori t d a k => some (fI 0x46 (dstC d) (opC a) (k.toNat) 0 (ityC t) 0)
  | .shli t d a k => some (fI 0x47 (dstC d) (opC a) (k.toNat) 0 (ityC t) 0)
  | .shri t d a k => some (fI 0x48 (dstC d) (opC a) (k.toNat) 0 (ityC t) 0)
  | .sari t d a k => some (fI 0x49 (dstC d) (opC a) (k.toNat) 0 (ityC t) 0)
  | .icmpi cc t d a k => some (fI 0x4A (dstC d) (opC a) (k.toNat) 0 (ityC t) (ccC cc))
  | .fmovi d k => some (fI 0x4B (dstC d) 0 (k.toNat) 0 8 0)
  | .faddi r d a k => some (fI 0x4C (dstC d) (opC a) (k.toNat) (rndC r) 8 0)
  | .fmuli r d a k => some (fI 0x4D (dstC d) (opC a) (k.toNat) (rndC r) 8 0)
  | .fmai r d a k => some (fI 0x4E (dstC d) (opC a) (k.toNat) (rndC r) 8 0)
  | .fcmpi cc d a k => some (fI 0x4F (dstC d) (opC a) (k.toNat) 0 8 (fccC cc))
  | .ldc d a k => some (fI 0x50 (dstC d) (opC a) (k.toNat) 0 1 0)
  | .leai sc d a k => some (fI 0x51 (dstC d) (opC a) (k.toNat) 0 6 (sc.val))
  | .ld sz ord d a ofs b => some (fM 0x60 (dstC d) (a.val * 128) (opC b) (sizeC sz) (ofs.toNat) (ordC ord))
  | .st sz ord x a ofs b => some (fM 0x61 (srcC x) (a.val * 128) (opC b) (sizeC sz) (ofs.toNat) (ordC ord))
  | .lds sz sem d a ofs b => some (fM 0x62 (dstC d) (a.val * 128) (opC b) (sizeC sz) (ofs.toNat) (semC sem * 8))
  | .sts sz sem x a ofs b => some (fM 0x63 (srcC x) (a.val * 128) (opC b) (sizeC sz) (ofs.toNat) (semC sem * 8))
  | .ldp sz d a ofs b => some (fM 0x64 (dstC d) (a.val * 128) (opC b) (sizeC sz) (ofs.toNat) 0)
  | .stp sz x a ofs b => some (fM 0x65 (srcC x) (a.val * 128) (opC b) (sizeC sz) (ofs.toNat) 0)
  | .ldacc sz d a ofs b => some (fM 0x66 (dstC d) (a.val * 128) (opC b) (sizeC sz) (ofs.toNat) 0)
  | .qdef q a f => some (fM 0x67 (0xE0 + q.val) (a.val * 128) 0 0 (f.val) 0)
  | .qget d q f => some (fM 0x68 (dstC d) 0 0 0 (8 * q.val + f.val) 0)
  | .pf a ofs b => some (fM 0x69 0 (a.val * 128) (opC b) 0 (ofs.toNat) 0)
  | .cwb a ofs b => some (fM 0x6A 0 (a.val * 128) (opC b) 0 (ofs.toNat) 0)
  | .cinv a ofs b => some (fM 0x6B 0 (a.val * 128) (opC b) 0 (ofs.toNat) 0)
  | .ttag x b => some (fM 0x6C (srcC x) 0 (opC b) 0 0 0)
  | .ldt d b => some (fM 0x6D (dstC d) 0 (opC b) 0 0 0)
  | .aadd wide ord d a ofs b => some (fM 0x80 (dstC d) (a.val * 128) (opC b) (if wide then 3 else 2) (ofs.toNat) (ordC ord))
  | .amin wide ord d a ofs b => some (fM 0x81 (dstC d) (a.val * 128) (opC b) (if wide then 3 else 2) (ofs.toNat) (ordC ord))
  | .amax wide ord d a ofs b => some (fM 0x82 (dstC d) (a.val * 128) (opC b) (if wide then 3 else 2) (ofs.toNat) (ordC ord))
  | .aand wide ord d a ofs b => some (fM 0x83 (dstC d) (a.val * 128) (opC b) (if wide then 3 else 2) (ofs.toNat) (ordC ord))
  | .aor wide ord d a ofs b => some (fM 0x84 (dstC d) (a.val * 128) (opC b) (if wide then 3 else 2) (ofs.toNat) (ordC ord))
  | .axor wide ord d a ofs b => some (fM 0x85 (dstC d) (a.val * 128) (opC b) (if wide then 3 else 2) (ofs.toNat) (ordC ord))
  | .axchg wide ord d a ofs b => some (fM 0x86 (dstC d) (a.val * 128) (opC b) (if wide then 3 else 2) (ofs.toNat) (ordC ord))
  | .ainc ord d a ofs b => some (fM 0x87 (dstC d) (a.val * 128) (opC b) 2 (ofs.toNat) (ordC ord))
  | .acas wide ord d a ofs b => some (fM 0x88 (dstC d) (a.val * 128) (opC b) (if wide then 3 else 2) (ofs.toNat) (ordC ord))
  | .afadd wide ord d a ofs b => some (fM 0x89 (dstC d) (a.val * 128) (opC b) (if wide then 3 else 2) (ofs.toNat) (ordC ord))
  | .afmin ord d a ofs b => some (fM 0x8A (dstC d) (a.val * 128) (opC b) 2 (ofs.toNat) (ordC ord))
  | .afmax ord d a ofs b => some (fM 0x8B (dstC d) (a.val * 128) (opC b) 2 (ofs.toNat) (ordC ord))
  | .afadd2 ord d a ofs b => some (fM 0x8C (dstC d) (a.val * 128) (opC b) 2 (ofs.toNat) (ordC ord))
  | .eld sz ord d a ofs b => some (fM 0x8D (dstC d) (a.val * 128) (opC b) (sizeC sz) (ofs.toNat) (ordC ord))
  | .est sz ord d a ofs b => some (fM 0x8E (dstC d) (a.val * 128) (opC b) (sizeC sz) (ofs.toNat) (ordC ord))
  | .erel ord a ofs b => some (fM 0x8F 0 (a.val * 128) (opC b) 0 (ofs.toNat) (ordC ord))
  | .enew ord d a ofs => some (fM 0x90 (dstC d) (a.val * 128) 0 0 (ofs.toNat) (ordC ord))
  | .precast a ofs => some (fM 0x91 0 (a.val * 128) 0 0 (ofs.toNat) 0)
  | .psync a ofs => some (fM 0x92 0 (a.val * 128) 0 0 (ofs.toNat) 0)
  | .pquery d a ofs => some (fM 0x93 (dstC d) (a.val * 128) 0 0 (ofs.toNat) 0)
  | .pset x a ofs b => some (fM 0x94 (srcC x) (a.val * 128) (opC b) 0 (ofs.toNat) 0)
  | .fence k scope => some (fM 0x95 0 0 0 0 (fkOfs k) (fkSem k * 8 + scopeC scope))
  | .acqr scope a ofs => some (fM 0x96 0 (a.val * 128) 0 0 (ofs.toNat) (16 + scopeC scope))
  | .bra tgt => some (fB 0xA0 0 0 (tgt.toNat) 0 0)
  | .brc ck c tgt => some (fB 0xA1 (cregC c) (ckC ck) (tgt.toNat) 0 0)
  | .call tgt link => some (fB 0xA2 0 0 (tgt.toNat) (dstC link) 0)
  | .ret c => some (fB 0xA3 (cregC c) 0 0 0 0)
  | .jmpi c link => some (fB 0xA4 (cregC c) 0 0 (dstC link) 0)
  | .brx c tgt stride count => some (fB 0xA5 (cregC c) 0 (tgt.toNat) 0 (count.toNat * 256 + stride.toNat))
  | .exit => some (fB 0xA6 0 0 0 0 0)
  | .yield => some (fB 0xA7 0 0 0 0 0)
  | .sleep n => some (fB 0xAE (sleepCreg n) 0 0 0 (sleepC n))
  | .wait ld st cp tl => some (fE 0xA8 0 0 0 (ld.val * 4096 + st.val * 256 + cp.val * 16 + tl.val))
  | .drain p => some (fB 0xA9 0 0 0 0 (pathC p))
  | .barArr c bar => some (fB 0xAA (cregC c) 0 0 0 (barC bar))
  | .barWait c bar => some (fB 0xAB (cregC c) 0 0 0 (barC bar))
  | .barSync bar => some (fB 0xAC 0 0 0 0 (barC bar))
  | .barInit c bar => some (fB 0xAD (cregC c) 0 0 0 (barC bar))
  | .fcopy q spad a => some (fE 0xC0 (q.val) (srcC a * 128) 0 (b2n spad))
  | .pcmd a => some (fE 0xC1 0 (srcC a * 128) 0 0)
  | .pbank n a b bar arr => some (fE 0xC2 (n.val) (srcC a * 128) (srcC b * 128) (barC bar + 4096 * b2n arr))
  | .pclr a b bar arr => some (fE 0xC3 0 (srcC a * 128) (srcC b * 128) (barC bar + 4096 * b2n arr))
  | .sgset e a => some (fE 0xC4 (e.val) (srcC a * 128) 0 0)
  | .coll k a => some (fE 0xC5 (k.toNat) (srcC a * 128) 0 0)
  | .collNow a => some (fE 0xC5 0 (srcC a * 128) 0 1)
  | .bkset k a => some (fE 0xC6 (k.toNat) (srcC a * 128) 0 0)
  | .bkadd k b => some (fE 0xC7 (k.toNat) 0 (srcC b * 128) 0)
  | .tapePush a => some (fE 0xC8 0 (srcC a * 128) 0 0)
  | .tapeMark => some (fE 0xC9 0 0 0 0)
  | .tapeUnwind => some (fE 0xCA 0 0 0 0)
  | .taskPost a b => some (fE 0xCB 0 (srcC a * 128) (srcC b * 128) 0)
  | .taskDone => some (fE 0xCC 0 0 0 0)
  | .spawn a b => some (fE 0xCD 0 (srcC a * 128) (srcC b * 128) 0)
  | .qfence q mask => some (fE 0xCE (q.val) 0 0 (mask.toNat))
  | .launch p a => some (fE 0xCF (p.val) (srcC a * 128) 0 0)
  | .syscall n => some (fE 0xE0 0 0 0 (n.toNat))
  | .hcall n => some (fE 0xE1 0 0 0 (n.toNat))
  | .tret => some (fE 0xE2 0 0 0 0)
  | .sread d sr a => some (fE 0xE3 (dstC d) (srcC a * 128) 0 (sregC sr))
  | .swrite sr a b => some (fE 0xE4 0 (srcC a * 128) (srcC b * 128) (sregC sr))
  | .csrr d n => some (fE 0xE5 (dstC d) 0 0 (csrC n))
  | .csrw op d n a => some (fE 0xE6 (dstC d) (srcC a * 128) 0 (csrOpC op * 4096 + csrC n))
  | .brk n => some (fE 0xE7 0 0 0 (n.toNat))
  | .halt n => some (fE 0xE8 0 0 0 (n.toNat))
  | .tick d => some (fE 0xE9 (dstC d) 0 0 0)
  | .trace t a => some (fE 0xEA 0 (srcC a * 128) 0 (t.toNat))
  | .icinv a b => some (fE 0xEB 0 (srcC a * 128) (srcC b * 128) 0)
  | .lmapSet a b => some (fE 0xEC 0 (srcC a * 128) (srcC b * 128) 1)
  | .lmapClr a b => some (fE 0xEC 0 (srcC a * 128) (srcC b * 128) 0)
  | .ebudGet d => some (fE 0xED (dstC d) 0 0 0)
  | .ebudSet d a b => some (fE 0xED (dstC d) (srcC a * 128) (srcC b * 128) 1)
  | .rclassSet c d => some (fE 0xEE (dstC d) 0 0 (rclassC c))
  | .rclassGet d => some (fE 0xEE (dstC d) 0 0 4)
  | _ => none

/-- The word of a short form (R33). -/
def sWord (sop d a b : Nat) : Nat := sop * 2 ^ 25 + d * 2 ^ 17 + a * 2 ^ 9 + b * 2

/-- The word of a short form, by the map of R85. -/
def shortWord : Instr → Option Nat
  | .nopShort => some (sWord 0x00 0xFF 0 0)
  | .movShort d a => some (sWord 0x01 (dstC d) (srcC a) 0)
  | .iaddShort d a b => some (sWord 0x02 (dstC d) (srcC a) (srcC b))
  | .isubShort d a b => some (sWord 0x03 (dstC d) (srcC a) (srcC b))
  | .imulShort d a b => some (sWord 0x04 (dstC d) (srcC a) (srcC b))
  | .imulhShort d a b => some (sWord 0x05 (dstC d) (srcC a) (srcC b))
  | .imadShort d a b => some (sWord 0x06 (dstC d) (srcC a) (srcC b))
  | .iminShort d a b => some (sWord 0x07 (dstC d) (srcC a) (srcC b))
  | .imaxShort d a b => some (sWord 0x08 (dstC d) (srcC a) (srcC b))
  | .iminZ32Short d a b => some (sWord 0x09 (dstC d) (srcC a) (srcC b))
  | .imaxZ32Short d a b => some (sWord 0x0A (dstC d) (srcC a) (srcC b))
  | .iabsShort d a => some (sWord 0x0B (dstC d) (srcC a) 0)
  | .andShort d a b => some (sWord 0x0C (dstC d) (srcC a) (srcC b))
  | .orShort d a b => some (sWord 0x0D (dstC d) (srcC a) (srcC b))
  | .xorShort d a b => some (sWord 0x0E (dstC d) (srcC a) (srcC b))
  | .andnShort d a b => some (sWord 0x0F (dstC d) (srcC a) (srcC b))
  | .shlShort d a b => some (sWord 0x10 (dstC d) (srcC a) (srcC b))
  | .shrShort d a b => some (sWord 0x11 (dstC d) (srcC a) (srcC b))
  | .sarShort d a b => some (sWord 0x12 (dstC d) (srcC a) (srcC b))
  | .rotShort d a b => some (sWord 0x13 (dstC d) (srcC a) (srcC b))
  | .popcShort d a => some (sWord 0x14 (dstC d) (srcC a) 0)
  | .clzShort d a => some (sWord 0x15 (dstC d) (srcC a) 0)
  | .ctzShort d a => some (sWord 0x16 (dstC d) (srcC a) 0)
  | .brevShort d a => some (sWord 0x17 (dstC d) (srcC a) 0)
  | .icmpEqShort d a b => some (sWord 0x18 (dstC d) (srcC a) (srcC b))
  | .icmpNeShort d a b => some (sWord 0x19 (dstC d) (srcC a) (srcC b))
  | .icmpLtShort d a b => some (sWord 0x1A (dstC d) (srcC a) (srcC b))
  | .icmpLeShort d a b => some (sWord 0x1B (dstC d) (srcC a) (srcC b))
  | .icmpLtZ32Short d a b => some (sWord 0x1C (dstC d) (srcC a) (srcC b))
  | .icmpLeZ32Short d a b => some (sWord 0x1D (dstC d) (srcC a) (srcC b))
  | .selShort d a b => some (sWord 0x1E (dstC d) (srcC a) (srcC b))
  | .permShort d a b => some (sWord 0x1F (dstC d) (srcC a) (srcC b))
  | .faddShort d a b => some (sWord 0x20 (dstC d) (srcC a) (srcC b))
  | .fsubShort d a b => some (sWord 0x21 (dstC d) (srcC a) (srcC b))
  | .fmulShort d a b => some (sWord 0x22 (dstC d) (srcC a) (srcC b))
  | .fmaShort d a b => some (sWord 0x23 (dstC d) (srcC a) (srcC b))
  | .fmacShort d a b => some (sWord 0x24 (dstC d) (srcC a) (srcC b))
  | .fminShort d a b => some (sWord 0x25 (dstC d) (srcC a) (srcC b))
  | .fmaxShort d a b => some (sWord 0x26 (dstC d) (srcC a) (srcC b))
  | .fcmpEqShort d a b => some (sWord 0x27 (dstC d) (srcC a) (srcC b))
  | .fcmpLtShort d a b => some (sWord 0x28 (dstC d) (srcC a) (srcC b))
  | .fcmpLeShort d a b => some (sWord 0x29 (dstC d) (srcC a) (srcC b))
  | .frcpShort d a => some (sWord 0x2A (dstC d) (srcC a) 0)
  | .frsqShort d a => some (sWord 0x2B (dstC d) (srcC a) 0)
  | .fsqrtShort d a => some (sWord 0x2C (dstC d) (srcC a) 0)
  | .fexp2Short d a => some (sWord 0x2D (dstC d) (srcC a) 0)
  | .flog2Short d a => some (sWord 0x2E (dstC d) (srcC a) 0)
  | .frndShort d a => some (sWord 0x2F (dstC d) (srcC a) 0)
  | .fclassShort d a => some (sWord 0x30 (dstC d) (srcC a) 0)
  | .fscaleShort d a b => some (sWord 0x31 (dstC d) (srcC a) (srcC b))
  | .cvtI32F32Short d a => some (sWord 0x32 (dstC d) (srcC a) 0)
  | .cvtF32I32Short d a => some (sWord 0x33 (dstC d) (srcC a) 0)
  | .h2addF16Short d a b => some (sWord 0x34 (dstC d) (srcC a) (srcC b))
  | .h2mulF16Short d a b => some (sWord 0x35 (dstC d) (srcC a) (srcC b))
  | .h2fmaF16Short d a b => some (sWord 0x36 (dstC d) (srcC a) (srcC b))
  | .h2addBf16Short d a b => some (sWord 0x37 (dstC d) (srcC a) (srcC b))
  | .h2mulBf16Short d a b => some (sWord 0x38 (dstC d) (srcC a) (srcC b))
  | .h2fmaBf16Short d a b => some (sWord 0x39 (dstC d) (srcC a) (srcC b))
  | .fdot2F16Short d a b => some (sWord 0x3A (dstC d) (srcC a) (srcC b))
  | .fdot2Bf16Short d a b => some (sWord 0x3B (dstC d) (srcC a) (srcC b))
  | .daddShort d a b => some (sWord 0x3C (dstC d) (srcC a) (srcC b))
  | .dmulShort d a b => some (sWord 0x3D (dstC d) (srcC a) (srcC b))
  | .dfmaShort d a b => some (sWord 0x3E (dstC d) (srcC a) (srcC b))
  | _ => none

/-- Bits 61..0 of a long form (R75). -/
def Fields.word (f : Fields) : Nat := f.op * 2 ^ 54 + f.d * 2 ^ 46 + f.a * 2 ^ 31 + f.b * 2 ^ 16 + f.low

/-- The fields of bits 61..0 of a long form (R75). -/
def fieldsOfWord (w : Nat) : Fields :=
  ⟨w / 2 ^ 54 % 256, w / 2 ^ 46 % 256, w / 2 ^ 31 % 2 ^ 15, w / 2 ^ 16 % 2 ^ 15, w % 2 ^ 16⟩

/-- The stream bytes of an instruction: short form, long form, or long form with its literal word (R24). -/
def encode (i : Instr) : Option (List Byte) :=
  match shortWord i with
  | some w => some (beBytes 4 w)
  | none =>
    match fieldsOf i with
    | none => none
    | some f =>
      match lits i with
      | [] => some (beBytes 8 (2 * 2 ^ 62 + f.word))
      | l :: _ => some (beBytes 8 (3 * 2 ^ 62 + f.word) ++ beBytes 4 l.toNat)

/-! ### The decoder -/

/-- Why a word is ILLEGAL (R34, R74, R86). -/
inductive Reject where
  /-- Fewer bytes than the form has. -/
  | truncated
  /-- OP unassigned, or a field holds a reserved value. -/
  | reserved
  /-- An unused field is not zero, or prefix and LIT disagree. -/
  | notCanonical
  /-- A value the instruction does not admit. -/
  | notAdmitted
  deriving DecidableEq, Repr

/-- A decoded instruction with its length in bytes, or the reason it is ILLEGAL. -/
inductive Decoded where
  | ok (i : Instr)
  | reject (r : Reject)
  deriving DecidableEq, Repr

/-- Length of the instruction whose first byte this is (R24). -/
def lenOf (first : Byte) : Nat :=
  if first.toNat < 128 then 4 else if first.toNat < 192 then 8 else 12

/-- Accept the instruction read from a word where the word is its encoding and the fill admits it. -/
def accept (bs : List Byte) : Option Instr → Decoded
  | none => .reject .reserved
  | some i =>
    if encode i ≠ some bs then .reject .notCanonical
    else if legal i then .ok i else .reject .notAdmitted

/-- The instruction of exactly the bytes of one instruction. -/
def decodeExact (bs : List Byte) : Decoded :=
  match bs.length with
  | 4 =>
    let w := beNat bs
    accept bs (readShort (w / 2 ^ 25) (w / 2 ^ 17 % 256) (w / 2 ^ 9 % 256) (w / 2 % 256))
  | 8 => accept bs (readLong none (fieldsOfWord (beNat bs % 2 ^ 62)))
  | 12 => accept bs (readLong (some (BitVec.ofNat 32 (beNat (bs.drop 8)))) (fieldsOfWord (beNat (bs.take 8) % 2 ^ 62)))
  | _ => .reject .truncated

/-- Decode the first instruction of a stream: what it is, and the bytes it occupies (R24). Total on any bytes. -/
def decode (bs : List Byte) : Decoded × Nat :=
  match bs with
  | [] => (.reject .truncated, 0)
  | b :: _ => if bs.length < lenOf b then (.reject .truncated, lenOf b) else (decodeExact (bs.take (lenOf b)), lenOf b)

/-- The stream bytes of a table word: its first 32 or 64 bits as one big-endian value with bit 0 the least
significant bit, and a literal word above bit 63. Bits the table does not give are zero. -/
def tableBytes (nbits w : Nat) : List Byte :=
  if nbits ≤ 32 then beBytes 4 w else beBytes 8 (w % 2 ^ 64) ++ beBytes 4 (w / 2 ^ 64)

/-- The instruction read from a word whose bits are numbered as spec/opcode_table.json numbers them. -/
def decodeTableWord (nbits w : Nat) : Option Instr :=
  match decode (tableBytes nbits w) with
  | (.ok i, _) => some i
  | _ => none

end Sys2Proof
end

