-- ==== Sys2Proof/Machine/Trap.lean ====
section
/-! DEFINITION. Ending a launch by force (R305, R295, R353), taking a lane trap (R295), and the return from one
(R163, R297). -/

namespace Sys2Proof.Machine

/-! ### The forced end of a launch -/

/-- The TLB entry of an owner that translates a virtual offset for a context (R315). -/
def tlbHit (vmid asid off : Nat) (e : TlbEnt) : Bool :=
  e.vmid == vmid && e.asid == asid && decide (e.vpage ≤ off) && decide (off < e.vpage + e.attr.size)

/-- Change INFLIGHT of the entry that translates a pointer of a context (R316). -/
def modPin (s : State) (vmid asid : Nat) (va : W64) (f : Nat → Nat) : State :=
  let owner := bits va.toNat 54 52
  let off := bits va.toNat 51 0
  if bits va.toNat 63 55 ≠ 0x1FF ∧ bits va.toNat 63 55 ≠ bits s.pkgnum.toNat 8 0 then s
  else { s with tlbs := tMod s.tlbs owner (fun es => es.map (fun e =>
      if tlbHit vmid asid off e then { e with inflight := f e.inflight } else e)) }

/-- Release the pins of the listed segments (R274, R305). -/
def unpinAll (s : State) (vmid asid : Nat) (segs : List Segment) : State :=
  segs.foldl (fun s g => if g.pinned then modPin s vmid asid g.va (fun n => n - 1) else s) s

/-- Release the pins of a command's walk (R274). -/
def unpinWalk (s : State) (vmid asid : Nat) (ps : List (Bool × W64)) : State :=
  ps.foldl (fun s p => modPin s vmid asid p.2 (fun n => n - 1)) s

/-- Discard a command: out of its table and every queue, its pins released (R305). -/
def dropCmd (s : State) (k : Nat) : State :=
  let c := cmdAt s k
  let s := unpinWalk (unpinAll s c.by_.vmid c.by_.asid c.fix) c.by_.vmid c.by_.asid c.pins
  { s with
    cmds := tDel s.cmds k
    cores := s.cores.map (fun p => (p.1, { p.2 with queues := p.2.queues.map (fun q => q.filter (fun n => n != k)) }))
    dies := s.dies.map (fun p => (p.1, { p.2 with collQ := p.2.collQ.filter (fun n => n != k) })) }

/-- Remove a group at once: its wait-table entries, registrations, requests and save frame go with it (R305). -/
def dropGroup (s : State) (u : Nat) : State :=
  let g := grp s u
  let c := ctxOf s u
  let s := match g.frame with
    | some n => modCtx s c (fun x => { x with frames := x.frames.filter (fun m => m != n) })
    | none => s
  { s with
    groups := tDel s.groups u
    gangs := tMod s.gangs g.gang (fun k => { k with groups := k.groups.filter (fun n => n != u) })
    dies := s.dies.map (fun p => (p.1, { p.2 with waits := p.2.waits.filter (fun w => w.uid != u) }))
    edRegs := s.edRegs.filter (fun p => p.2.launch || p.2.who != u)
    polls := s.polls.filter (fun p => p.2.launch || p.2.who != u)
    faults := s.faults.filter (fun p => p.2.uid != some u)
    icinvs := s.icinvs.filter (fun p => p.2.uid != u)
    lmaps := s.lmaps.filter (fun p => p.2.uid != u)
    promotes := s.promotes.filter (fun p => p.2.uid != u) }

/-- A gang leaves its core: its scratch bytes stay behind (R205), its colophons go. -/
def dropGang (s : State) (k : Nat) : State :=
  let g := gangAt s k
  let s := modCore s g.core (fun c => { c with
    leftover := g.scratch.foldl (fun m p => smSet 0 m p.1 p.2) c.leftover
    colophons := c.colophons.filter (fun x => x.gang != k) })
  { s with gangs := tDel s.gangs k }

/-- What removed groups have on its way goes with them (R241, R255, R305): the entries of core views and held store requests, and the
transfers of the link queues. With `keep`, whether a store on a link queue is performed or not stays open. -/
def cutEntries (s : State) (keep : Bool) (us : List Nat) : State :=
  let gone (e : FEntry) : Bool := us.contains e.uid
  let stays (p : (Nat × Xfer) × Nat) : Bool :=
    match p.1.2 with
    | .entry e _ => !gone e || (keep && bit (Config.freeWord (s.free + p.2)).toNat 0)
    | .read r _ => !us.contains r.uid
  { s with
    cores := s.cores.map (fun p => (p.1, { p.2 with view := p.2.view.filter (fun e => !gone e) }))
    plates := s.plates.map (fun p => (p.1, { p.2 with held := p.2.held.filter (fun h => !gone h.e) }))
    links := (s.links.zipIdx.filter stays).map (fun p => p.1)
    free := s.free + s.links.length }

/-- Commands leave their meetings: what was read for them or written of theirs goes, the other members stay (R353). -/
def leaveMeets (s : State) (cs : List Nat) : State :=
  let out (m : Meet) : Meet :=
    let gone := m.members.filter (fun x => cs.contains x.2)
    { m with
      members := m.members.filter (fun x => !cs.contains x.2)
      got := m.got.filter (fun g => !gone.any (fun x => x.1 == g.1))
      put := m.put.filter (fun p => !cs.contains p.1)
      come := m.come - gone.length }
  { s with meets := (s.meets.map (fun m => (m.1, out m.2))).filter (fun m => m.2.broken || !m.2.members.isEmpty || !m.2.peers.isEmpty) }

/-- Every gang that a test picks stops and is removed, with its groups and engine commands (R305); `keep` as for cutEntries. -/
def stopGangs (s : State) (keep : Bool) (p : Gang → Bool) : State :=
  let gs := (s.gangs.filter (fun g => p g.2)).map (fun g => g.1)
  let us := (s.groups.filter (fun g => gs.contains g.2.gang)).map (fun g => g.1)
  let cs := (s.cmds.filter (fun c => gs.contains c.2.by_.gang)).map (fun c => c.1)
  let s := cs.foldl dropCmd (cutEntries s keep us)
  let s := us.foldl dropGroup s
  leaveMeets (gs.foldl dropGang s) cs

/-- Put an effect into a write-behind buffer by the number of its issue, after what has the same (R352). -/
def bufferPut (seq : Nat) (b : Buffered) (l : List (Nat × Buffered)) : List (Nat × Buffered) :=
  l.takeWhile (fun x => decide (x.1 ≤ seq)) ++ (seq, b) :: l.dropWhile (fun x => decide (x.1 ≤ seq))

/-- What a launch holds beside its gangs is removed (R305): tasks, galleys, registrations, requests, buckets, wider barriers and its
write-behind buffer. -/
def clearLaunch (s : State) (k : Nat) : State :=
  let s := { s with
    tasks := s.tasks.filter (fun p => p.2.launch != k)
    edRegs := s.edRegs.filter (fun p => !(p.2.launch && p.2.who == k))
    polls := s.polls.filter (fun p => !(p.2.launch && p.2.who == k))
    cores := s.cores.map (fun p => (p.1, { p.2 with
      galleys := p.2.galleys.filter (fun q => q.2.launch != k), galKept := p.2.galKept.filter (fun q => q.2.launch != k) }))
    dies := s.dies.map (fun p => (p.1, { p.2 with buckets := p.2.buckets.map (fun q =>
      if q.2.launch = some k then (q.1, { launch := some k }) else q), kicks := p.2.kicks.filter (fun x => x.by_.launch != k) })) }
  modLaunch s k (fun l => { l with bars := [], buffer := [], held := [] })

/-- Every piece of work of a launch stops and is removed, with the effects of R305 for that launch; `keep` as for cutEntries. -/
def stopLaunch (s : State) (keep : Bool) (k : Nat) : State :=
  let s := stopGangs s keep (fun g => g.launch == k)
  let cs := (s.cmds.filter (fun c => c.2.by_.launch == k)).map (fun c => c.1)
  clearLaunch (leaveMeets (cs.foldl dropCmd s) cs) k

/-- End a launch by force with a status (R295, R305): it takes no further gang. -/
def forceLaunch (s : State) (k : Nat) (st : Status) : State :=
  modLaunch (stopLaunch s true k) k (fun l => { l with state := .ended, statuses := l.statuses ++ [st] })

/-! ### Trap frames (R292, R294) -/

/-- LIM of R294. -/
def depthLimit (p : Nat) : Nat := min 3 (p / 64 - 1)

/-- Slice address of the frame of a depth; the double-fault slot for depth 4 (R294). -/
def frameAt (p depth : Nat) : Nat := if depth = 4 then p - 64 else p - 64 - 64 * depth

/-- The 64 bytes of a frame (R292). -/
def frameBytes (ln : Lane) (restart rhdr txpc txval : W64) (cause : Cause) : List Byte :=
  leBytes 8 restart.toNat ++ leBytes 8 txpc.toNat ++ leBytes 4 0 ++ leBytes 1 (causeCode cause) ++
  leBytes 1 (modeCode ln.mode) ++ leBytes 1 (2 * b2n ln.syncp + 4 * classCode ln.rclass) ++ leBytes 1 0 ++
  leBytes 4 ln.h0.toNat ++ leBytes 4 ln.h1.toNat ++ leBytes 4 ln.fmode.toNat ++ leBytes 4 ln.synctok.toNat ++
  leBytes 8 txval.toNat ++ leBytes 8 rhdr.toNat ++ leBytes 8 0

/-- What a lane trap is: cause, TXVAL, TXPC, restart point and the header of its block (R296). -/
structure TrapInfo where
  cause : Cause
  txval : W64
  txpc : W64
  restart : W64
  rhdr : W64
  deriving DecidableEq, Repr

/-- A trap that restarts at REGPC (R296). -/
def trapAtRegion (ln : Lane) (c : Cause) (txval txpc : W64) : TrapInfo :=
  ⟨c, txval, txpc, (curRec ln).regpc, (curRec ln).reghdr⟩

/-- The lane after a trap entry of R295, for a slice of p bytes; `id` names the frame's private store. -/
def trapEnter (p u l id : Nat) (ln : Lane) (t : TrapInfo) : Lane :=
  let full := ln.depth = depthLimit p
  let target := if t.cause = .hcall ∨ ln.mode = .h ∨ full then Mode.h else Mode.s
  let txval := if full then BitVec.ofNat 64 (causeCode t.cause) else t.txval
  let cause := if full then Cause.doubleFault else t.cause
  let d := if full then 4 else ln.depth + 1
  let vec := if target = .h then ln.hvec else ln.tvec
  let ln1 := privStore ln u l id (frameAt p d) (frameBytes ln t.restart t.rhdr t.txpc txval cause)
  { ln1 with
    depth := d
    recs := setNth ln.recs d {}
    mode := target
    retire := false
    syncp := false
    flight := none
    qgot := []
    eldGot := none
    st := .run
    at_ := .enter vec .vector vec }

/-- Write the results of the last-result file that are still pending for a lane (R109): what follows records h0 and h1. -/
def flushH (s : State) (u l : Nat) : State :=
  modGrp s u (fun g =>
    let mine (w : RegWrite) : Bool := w.lane == l && decide (136 ≤ w.reg)
    let ws := (g.pend.map (fun p => p.2.writes.filter mine)).flatten
    let g := ws.foldl (fun g w => modLaneG g l (fun ln => setReg ln w.reg w.val)) g
    { g with pend := g.pend.map (fun p => (p.1, { p.2 with writes := p.2.writes.filter (fun w => !mine w) })) })

/-- The commits of a lane that are issued and not performed are taken: a restart performs none again, unless it fails at its owner (R125). -/
def takeCommits (ln : Lane) : Lane :=
  (ln.commits.filter (fun c => !c.taken)).foldl (fun ln c => { ln with recs := setNth ln.recs c.depth c.region }) (passCommits ln)

/-- The commit of an access is performed (R125): it and what was issued before it are past. -/
def commitDone (ln : Lane) (acc : Nat) : Lane :=
  match ln.commits.find? (fun c => c.acc == acc) with
  | none => ln
  | some c =>
    if c.taken then { ln with commits := ln.commits.filter (fun x => x.acc != acc) }
    else
      { ln with
        recs := setNth ln.recs c.depth c.region
        commits := (ln.commits.takeWhile (fun x => x.acc != acc)).map (fun x => { x with taken := true }) ++
          (ln.commits.dropWhile (fun x => x.acc != acc)).drop 1 }

/-- A commit of a lane is issued: the record that it leaves when it is performed, and that which stands before it. -/
def commitIssued (ln : Lane) (acc n : Nat) : Lane :=
  { ln with commits := ln.commits ++ [⟨acc, ln.depth, curRec (commitLane ln n), curRec (takeCommits ln), false⟩] }

/-- The commit of an access ends in a trap: its record is not taken. -/
def commitCut (ln : Lane) (acc : Nat) : Lane := { ln with commits := ln.commits.filter (fun c => c.acc != acc) }

/-- The depth that a trap at a depth enters, in a slice of p bytes (R294). -/
def nextDepth (p depth : Nat) : Nat := if depth = depthLimit p then 4 else depth + 1

/-- The commit of an access ends in a trap at its owner, in a slice of p bytes (R125): its region executes again from the record before it,
though a later record was taken; where the lane is in a handler since, the frame of its level restarts there. -/
def commitFail (p u l id acc : Nat) (ln : Lane) : Lane :=
  match ln.commits.find? (fun c => c.acc == acc) with
  | none => takeCommits ln
  | some c =>
    let ln := takeCommits (commitCut ln acc)
    let ln := { ln with recs := setNth ln.recs c.depth c.before }
    if c.depth < ln.depth then
      let a := frameAt p (nextDepth p c.depth)
      privStore (privStore ln u l id a (leBytes 8 c.before.regpc.toNat)) u l id (a + 48) (leBytes 8 c.before.reghdr.toNat)
    else ln

/-- What an instruction changed at its issue is given back to a lane whose access traps (R49, R51), at the level of the instruction. -/
def undoLane (ln : Lane) (un : Option Undo) : Lane :=
  match un with
  | none => ln
  | some x =>
    if x.depth ≠ ln.depth then ln
    else
      let ln := { ln with q := x.pos.foldl (fun q p => modNth q p.1 (fun st => { st with pos := p.2 })) ln.q }
      match x.h with
      | some h => { ln with h0 := h.1, h1 := h.2 }
      | none => ln

/-- Take a lane trap (R295): a trap at depth 4 ends the launch with status DOUBLE_FAULT. -/
def trapLane (s : State) (u l : Nat) (t : TrapInfo) : State :=
  let s := modLane s u l takeCommits
  if (lane s u l).depth = 4 then forceLaunch s (launchOf s u) .doubleFault
  else
    let id := takeFresh (flushH s u l)
    modLane id.2 u l (fun ln => trapEnter (gangOf s u).privsz u l id.1 ln t)

/-- A lane trap that restarts at REGPC. -/
def trapRegion (s : State) (u l : Nat) (c : Cause) (txval txpc : W64) : State :=
  let s := modLane s u l takeCommits
  trapLane s u l (trapAtRegion (lane s u l) c txval txpc)

/-! ### Reading the newest frame (R291) -/

/-- A field of the newest frame, by its byte offset and length. -/
def frameField (p : Nat) (ln : Lane) (ofs n : Nat) : Nat :=
  if ln.depth = 0 then 0 else leNat (privBytes ln (frameAt p ln.depth + ofs) n)

/-- FMODE after a write (R64): reserved bits stay, RM takes only 001 to 110. -/
def fmodeWrite (old new : Nat) : Nat :=
  let rm := bits new 2 0
  setBits old 14 4 (bits new 14 4) - bits old 2 0 + (if rm = 0 ∨ rm = 7 then bits old 2 0 else rm)

/-- The lane after the frame it leaves is popped (R163, R297): h0, h1, FMODE, SYNCPEND, the token, RCLASS, the mode
and the level come back. -/
def popFrame (p : Nat) (ln : Lane) : Lane :=
  let flags := frameField p ln 22 1
  { ln with
    h0 := BitVec.ofNat 32 (frameField p ln 24 4)
    h1 := BitVec.ofNat 32 (frameField p ln 28 4)
    fmode := BitVec.ofNat 32 (fmodeWrite ln.fmode.toNat (frameField p ln 32 4))
    synctok := BitVec.ofNat 32 (frameField p ln 36 4)
    syncp := bit flags 1
    rclass := classOf (bits flags 3 2)
    mode := modeOf (bits (frameField p ln 21 1) 1 0)
    depth := if ln.depth = 4 then depthLimit p else ln.depth - 1
    retire := false }

/-- Exit a thread: it takes no further part (R100). -/
def exitLane (ln : Lane) : Lane := { ln with st := .exited }

end Sys2Proof.Machine
end

