-- ==== Sys2Proof/Machine/Reliability.lean ====
section
/-! DEFINITION. Events of the reliability layer: fault windows and the error log (R343, R345), budgets (R355),
consumed errors (R350), poisoned sectors (R337, R338). -/

namespace Sys2Proof.Machine

/-! ### Windows, log, budgets -/

/-- Append a record of R345 at ELTAIL, or count it as dropped (R344). -/
def logEvent (s : State) (ev ukind unit cls addr : Nat) (launch : W64) : State :=
  if s.elsize = 0 then s
  else if s.elsize.toNat ≤ (s.eltail - s.elhead).toNat then { s with eldrop := s.eldrop + 1 }
  else
    let k := mkey 4 (s.elbase.toNat + 32 * (s.eltail.toNat % s.elsize.toNat))
    let r := leBytes 8 s.gtick.toNat ++ leBytes 1 ev ++ leBytes 1 ukind ++ leBytes 2 unit ++ leBytes 1 cls ++
      leBytes 3 0 ++ leBytes 8 addr ++ leBytes 8 launch.toNat
    { wrBytes s k r with eltail := s.eltail + 1 }

/-- The stamps of a unit's window (R343). -/
def windowOf (s : State) (ukind unit : Nat) : List Nat := (tGet? s.windows (ukind * 1024 + unit)).getD []

/-- Stamp an event in a unit's window: the last T stamps stay (R343). -/
def stamp (s : State) (ukind unit : Nat) : State :=
  let w := windowOf s ukind unit ++ [s.gtick.toNat]
  { s with windows := tPut s.windows (ukind * 1024 + unit) (w.drop (w.length - s.fwt.toNat)) }

/-- A unit is lasting-faulty (R343). -/
def lastingFaulty (s : State) (ukind unit : Nat) : Bool :=
  let w := windowOf s ukind unit
  decide (w.length = s.fwt.toNat) && decide (w.getLastD 0 - w.headD 0 < s.fwwin.toNat)

/-- Charge an event to a launch: the corrected budget, or the detected one (R355). -/
def charge (s : State) (k : Nat) (detected : Bool) : State :=
  modLaunch s k (fun l =>
    let b := if detected then l.detBudget else l.corrBudget
    if b = 0xFFFFFFFF then l
    else if b = 0 then { l with latches := l.latches + 1 }
    else if detected then { l with detBudget := b - 1 } else { l with corrBudget := b - 1 })

/-- The test of the step that stamps (R343): a unit that is found lasting-faulty stays so. A base die degrades its stack, and nothing else
is done (R346). -/
def faultTest (s : State) (ukind unit : Nat) : State :=
  if s.lasting.contains (ukind, unit) || !lastingFaulty s ukind unit then s
  else
    let s := { s with lasting := s.lasting ++ [(ukind, unit)] }
    if ukind = 3 then logEvent s 7 3 unit 0xFF 0 0 else s

/-- An event of R343 against a unit, logged, and charged to a launch where one is concerned. -/
def relEvent (s : State) (ev ukind unit cls addr : Nat) (k : Option Nat) : State :=
  let s := stamp s ukind unit
  let s := match k with
    | some n => charge (logEvent s ev ukind unit cls addr (launchAt s n).launchid) n (ev != 1)
    | none => logEvent s ev ukind unit cls addr 0
  faultTest s ukind unit

/-- The stack that holds an address of a die's memory (assumption 6). -/
def stackOf (key : Nat) : Nat := 2 * (key / 2 ^ 52 % 4) + key / 2 ^ 12 % 2

/-! ### Pointers of this package (R308) -/

/-- A pointer in a table, with this package named by PEER 0x1FF where it is named by its number. -/
def ptrHome (s : State) (x : Nat) : Nat := if bits x 63 55 = bits s.pkgnum.toNat 8 0 then 0x1FF * 2 ^ 55 + x % 2 ^ 55 else x
/-- A pointer that reaches this package, so named. -/
def vaHome (va : W64) : Nat := 0x1FF * 2 ^ 55 + va.toNat % 2 ^ 55

/-! ### Sectors -/

/-- Two runs overlap. -/
def overlaps (a n b m : Nat) : Bool := decide (a < b + m) && decide (b < a + n)

/-- n bytes from a touch a poisoned run. -/
def poisoned (ps : List (Nat × Nat)) (a n : Nat) : Bool := ps.any (fun p => overlaps p.1 p.2 a n)

/-- A store of n bytes at a clears every poisoned run that it covers (R338). -/
def unpoison (ps : List (Nat × Nat)) (a n : Nat) : List (Nat × Nat) :=
  ps.filter (fun p => !(decide (a ≤ p.1) && decide (p.1 + p.2 ≤ a + n)))

/-- Data bytes per sector (R337). -/
def sectorBytes : RClass → Nat
  | .proof => 32 | .check => 35 | .draft => 36

/-- The sector that holds offset x of a page of p bytes: its first offset and its length (R337). -/
def sectorOf (c : RClass) (p x : Nat) : Nat × Nat :=
  let b := x / sectorBytes c * sectorBytes c
  (b, min (sectorBytes c) (p - b))

/-! ### Consumption (R349, R350) -/

/-- A consumption of a detected error by a launch: the outcome is true where the consumer takes POISON, false where
the launch is to be replayed. `cont` says that the error is containable. -/
def consume (s : State) (k : Nat) (cont : Bool) : State × Bool :=
  let l := launchAt s k
  if isReplay l && l.snapArmed && decide (l.replays < 3) && cont && !l.notContainable then
    (modLaunch s k (fun l => { l with replayDue := true }), false)
  else
    (logEvent (modLaunch s k (fun l => { l with statuses := l.statuses ++ [.uncontained] })) 9 0 0 0xFF 0 l.launchid, true)

/-- A snapshot is of the page of a key. -/
def Snap.has (p : Snap) (key : Nat) : Bool := decide (p.key ≤ key) && decide (key < p.key + p.size)

/-- A snapshot of the launch holds a copy of the page of a key. -/
def snapTaken (l : Launch) (key : Nat) : Bool := l.snaps.any (fun p => p.has key)

/-- Snapshots hold copies of the pages of keys that were taken before the errors at the keys arose (R349). -/
def snapHolds (l : Launch) (keys : List Nat) : Bool :=
  keys.all (fun key => l.snaps.any (fun p => p.has key && !p.pois.any (fun r => overlaps r.1 r.2 key 1)))

/-- The class that a byte was written in (R339). -/
def byteClassOf (s : State) (key : Nat) : RClass := (tGet? s.byteClass key).getD (smGet .proof s.frameClass (key / 4096))

/-- n bytes from a key are written in a class. -/
def classWrite (fc : SMap RClass) (t : Table RClass) (cls : RClass) (k : Nat) : Nat → Table RClass
  | 0 => t
  | n + 1 => classWrite fc (if smGet .proof fc (k / 4096) = cls then tDel t k else tPut t k cls) cls (k + 1) n

/-- The run of memory bytes that an error mark is about, and the CLASS of its store (R345): none for a word of a table. -/
def markRun (s : State) (e : ErrMark) : Option (Nat × Nat × Nat) :=
  match e.place with
  | .hbm a n => some (a, n, classCode (byteClassOf s a))
  | .table a => some (a, 4, 0xFF)
  | _ => none

/-- A mark is about memory bytes among n from a key. -/
def markHit (s : State) (key n : Nat) (e : ErrMark) : Bool := (markRun s e).any (fun r => overlaps r.1 r.2.1 key n)

/-- EVENT of an error that a check meets (R345). -/
def markEvent (e : ErrMark) : Nat := if e.kind = .detected then 2 else 1

/-- Error marks go, each counted as an event. -/
def takeMarks (s : State) (hit : ErrMark → Bool) (count : State → ErrMark → State) : State :=
  if s.errors.isEmpty then s else (s.errors.filter hit).foldl count { s with errors := s.errors.filter (fun e => !hit e) }

/-- Pending error marks of a run of memory bytes are met by a read: corrected and detected events are counted
against the stack and the launch, and the marks go (R338). -/
def meetHbm (s : State) (key n : Nat) (k : Option Nat) : State :=
  takeMarks s (markHit s key n) (fun s e => match markRun s e with
    | some r => relEvent s (markEvent e) 3 (stackOf r.1) r.2.2 r.1 k
    | none => s)

/-- The first byte of each poisoned run among n bytes from a key; the key where none is poisoned. -/
def badAt (s : State) (key n : Nat) : List Nat :=
  match s.poison.filter (fun p => overlaps p.1 p.2 key n) with
  | [] => [key]
  | ps => ps.map (fun p => max p.1 key)

/-! ### Errors in a core's own arrays (R204, R337, R338) -/

/-- The gang whose array a place is in. -/
def placeGang (s : State) : ErrPlace → Nat
  | .scratch g _ | .acc g _ | .bank g .. => g
  | .priv u .. => (grp s u).gang
  | _ => 0

/-- Bytes of the sector at a scratch or private address, words or cells of an accumulator or bank word: sectors count from a tile's or a
slice's first byte (R337). -/
def placeLen (s : State) (p : ErrPlace) : Nat :=
  let g := gangAt s (placeGang s p)
  match p with
  | .scratch _ a => (sectorOf g.kclass 4096 (a % 4096)).2
  | .priv _ _ a => (sectorOf g.kclass g.privsz a).2
  | .bank .. => 4
  | _ => 1

/-- Where in its array a place is. -/
def placeAt : ErrPlace → Nat
  | .scratch _ a | .priv _ _ a => a
  | .acc _ w => w
  | .bank _ _ c => c
  | _ => 0

/-- Two places are in one array. -/
def sameArray (p q : ErrPlace) : Bool :=
  match p, q with
  | .scratch g _, .scratch h _ => g == h
  | .priv u l _, .priv v m _ => u == v && l == m
  | .acc g _, .acc h _ => g == h
  | .bank g i _, .bank h j _ => g == h && i == j
  | _, _ => false

/-- An error of an array that a check meets is counted against the core or its Press, and the launch. -/
def countArr (s : State) (e : ErrMark) : State :=
  let g := gangAt s (placeGang s e.place)
  match e.place with
  | .scratch .. | .priv .. => relEvent s (markEvent e) 0 g.core (classCode g.kclass) 0 (some g.launch)
  | _ => relEvent s (markEvent e) 1 g.core 0xFF 0 (some g.launch)

/-- A read of n bytes, words or cells of an array meets its error marks. -/
def meetArr (s : State) (p : ErrPlace) (n : Nat) : State :=
  takeMarks s (fun e => sameArray e.place p && overlaps (placeAt e.place) (placeLen s e.place) (placeAt p) n) countArr

/-- A read of register word n of a lane meets the error that it is marked with: it is counted, detected where the word is poisoned (R204). -/
def meetReg (s : State) (u l n : Nat) : State :=
  let ev := if (lane s u l).vpois.contains n then 2 else 1
  relEvent (modLane s u l (fun ln => { ln with vmark := ln.vmark.filter (fun m => m != n) })) ev 0 (coreOf s u) 0xFF 0 (some (launchOf s u))

/-- A write of an array at the places that `wr` names: an error in what it covers is past (R338). -/
def coverArr (s : State) (p : ErrPlace) (wr : Nat → Bool) : State :=
  { s with errors := s.errors.filter (fun e =>
    !(sameArray e.place p && (List.range (placeLen s e.place)).all (fun i => wr (placeAt e.place + i)))) }

/-! ### Data of a page (R123 step 6, R338, R339) -/

/-- n bytes are read under a class that one of them was not written in (R339). -/
def classMixed (s : State) (cls : RClass) (owner pa n : Nat) : Bool :=
  decide (owner < 4) && ((smGet .proof s.frameClass (mkey owner pa / 4096) != cls ||
    smGet .proof s.frameClass ((mkey owner pa + n - 1) / 4096) != cls || !s.byteClass.isEmpty) &&
    (List.range n).any (fun i => byteClassOf s (mkey owner pa + i) != cls))

/-- Reading these bytes consumes a detected error (R337, R339). -/
def dataBad (s : State) (cls : RClass) (owner pa n : Nat) : Bool :=
  poisoned s.poison (mkey owner pa) n || (cls != .draft && classMixed s cls owner pa n)

/-- n bytes that nothing fixes. -/
def freeBytes (s : State) (n : Nat) : List Byte := (List.range n).map (fun i => Config.freeByte (s.free + i))

/-- n bytes from a place that nothing fixes, the same throughout a step of the device. -/
def openBytes (s : State) (k n : Nat) : List Byte := (List.range n).map (fun i => Config.openByte s.epoch (k + i))

/-- The bytes that a read of a page delivers: arbitrary ones where they were written in another class than the page's (R339). -/
def dataBytes (s : State) (cls : RClass) (owner pa n : Nat) : List Byte :=
  if classMixed s cls owner pa n then openBytes s (2 ^ 64 + mkey owner pa) n else rdBytes s (mkey owner pa) n

/-- Count the errors that a read meets (R338, R339). -/
def dataMet (s : State) (k : Nat) (cls : RClass) (owner pa n : Nat) : State :=
  let s := if owner < 4 then meetHbm s (mkey owner pa) n (some k) else s
  if cls != .draft && classMixed s cls owner pa n then
    relEvent s 2 3 (stackOf (mkey owner pa)) (classCode cls) (mkey owner pa) (some k)
  else s

end Sys2Proof.Machine
end

