-- ==== Sys2Proof/Machine/Translate.lean ====
section
/-! DEFINITION. Address translation: pointers, context table, two-stage walk, TLBs (R308 to R316, R321). -/

namespace Sys2Proof.Machine

/-! ### Pointers (R308) -/

/-- PEER of a pointer. -/
def ptrPeer (va : W64) : Nat := bits va.toNat 63 55
/-- OWNER of a pointer. -/
def ptrOwner (va : W64) : Nat := bits va.toNat 54 52
/-- OFFSET of a pointer. -/
def ptrOfs (va : W64) : Nat := bits va.toNat 51 0

/-- The pointer names this package (R308). -/
def ptrHere (s : State) (va : W64) : Bool := ptrPeer va == 0x1FF || ptrPeer va == bits s.pkgnum.toNat 8 0
/-- PEER or OWNER is reserved (R308). -/
def ptrReserved (va : W64) : Bool := (decide (384 ≤ ptrPeer va) && ptrPeer va != 0x1FF) || decide (5 ≤ ptrOwner va)

/-! ### Accesses and outcomes -/

/-- The access kinds of R314. -/
inductive AccKind where
  | read | write | readWrite | fetch
  deriving DecidableEq, Repr

/-- ACC code of a fault record (R319). -/
def accCode : AccKind → Nat
  | .read => 0 | .write => 1 | .readWrite => 2 | .fetch => 3

/-- The outcome of Translate (R314). -/
inductive TrOut where
  | ok (a : PageAttr) (pa : Nat)
  | access
  | poison
  | fault (absent : Bool) (stage level : Nat)
  deriving DecidableEq, Repr

/-- Do permission bits admit an access? -/
def permits (rd wr ex : Bool) : AccKind → Bool
  | .read => rd
  | .write => wr
  | .readWrite => rd && wr
  | .fetch => ex

/-- Table index of a level (R310). -/
def walkIndex (lvl off : Nat) : Nat :=
  match lvl with
  | 0 => bits off 51 39
  | 1 => bits off 38 30
  | 2 => bits off 29 21
  | _ => bits off 20 12

/-- Size of the page of a leaf entry at a level (R311). -/
def leafSize (lvl e : Nat) : Nat :=
  match lvl with
  | 1 => 2 ^ 30
  | 2 => 2 ^ 21
  | _ => if bit e 5 then 2 ^ 16 else 2 ^ 12

/-- FRAME * 2^12 of an entry. -/
def entFrame (e : Nat) : Nat := bits e 51 12 * 4096

/-- An entry by itself is malformed (R311; R313 for stage 2). -/
def entBad (stage2 : Bool) (lvl e : Nat) : Bool :=
  if bit e 1 then
    lvl == 0 || (bit e 5 && lvl != 3) || entFrame e % (if lvl = 3 then 4096 else leafSize lvl e) != 0 ||
    (if stage2 then bits e 63 52 != 0 || bits e 11 6 != 0 else bits e 9 8 == 3)
  else lvl == 3 || bits e 63 52 != 0 || bits e 11 2 != 0

/-- The sixteen entries of a 64 KiB page hang together (R311); `grp` are they. -/
def group64Ok (grp : List Nat) : Bool :=
  let e0 := grp.headD 0
  decide (entFrame e0 % 65536 = 0) &&
  (List.range 16).all (fun i =>
    let e := nth 0 grp i
    bit e 5 && bits e 63 52 == bits e0 63 52 && entFrame e == entFrame e0 + i * 4096)

/-- Read one entry; none where its bytes are poisoned (R314). -/
def rdEntry (s : State) (k : Nat) : Option Nat := if poisoned s.poison k 8 then none else some (rdNat s k 8)

/-- The outcome of a walk through the levels of one stage: the leaf entry, its level. -/
inductive WalkOut where
  | leaf (e lvl : Nat)
  | access
  | poison
  | fault (absent : Bool) (stage level : Nat)
  deriving DecidableEq, Repr

/-- Examine the entry of a level that lies at a key (R311, R314): its group of sixteen for a 64 KiB page. -/
def checkEntry (s : State) (stage2 : Bool) (lvl idx key : Nat) : WalkOut :=
  match rdEntry s key with
  | none => .poison
  | some e =>
    if !bit e 0 then .fault (e != 0) (if stage2 then 2 else 1) lvl
    else if entBad stage2 lvl e then .access
    else if lvl = 3 ∧ bit e 5 = true then
      let first := key - 8 * (idx % 16)
      if poisoned s.poison first 128 then .poison
      else if group64Ok ((List.range 16).map (fun i => rdNat s (first + 8 * i) 8)) then .leaf e lvl
      else .access
    else .leaf e lvl

/-- Stage-2 walk of an intermediate-physical address (R313): levels still to do, table address. -/
def walk2 (s : State) (owner addr : Nat) : List Nat → Nat → WalkOut
  | [], _ => .access
  | lvl :: more, t =>
    let idx := walkIndex lvl addr
    match checkEntry s true lvl idx (mkey owner (t + 8 * idx)) with
    | .leaf e l => if bit e 1 then .leaf e l else walk2 s owner addr more (entFrame e)
    | o => o

/-- Stage 2 of an address: owner-physical address, the bytes of its page, and RD, WR, EX. -/
inductive S2Out where
  | ok (pa size : Nat) (rd wr ex : Bool)
  | access
  | poison
  | fault (absent : Bool) (level : Nat)
  deriving DecidableEq, Repr

/-- S2 of R314: identity where S2ROOT is 0. -/
def stage2 (s : State) (owner s2root addr : Nat) : S2Out :=
  if s2root = 0 then .ok addr (2 ^ 52) true true true
  else match walk2 s owner addr [0, 1, 2, 3] s2root with
  | .leaf e lvl =>
    let n := leafSize lvl e
    .ok (entFrame e / n * n + addr % n) n (bit e 2) (bit e 3) (bit e 4)
  | .access => .access
  | .poison => .poison
  | .fault a _ l => .fault a l

/-- Stage-1 walk (R314): each table read passes through stage 2. -/
def walk1 (s : State) (owner s2root off : Nat) : List Nat → Nat → WalkOut
  | [], _ => .access
  | lvl :: more, t =>
    match stage2 s owner s2root t with
    | .ok pt _ _ _ _ =>
      let idx := walkIndex lvl off
      match checkEntry s false lvl idx (mkey owner (pt + 8 * idx)) with
      | .leaf e l => if bit e 1 then .leaf e l else walk1 s owner s2root off more (entFrame e)
      | o => o
    | .access => .access
    | .poison => .poison
    | .fault a l => .fault a 2 l

/-- KIND of an entry (R311). -/
def kindOf (e : Nat) : PKind :=
  match bits e 7 6 with
  | 0 => .ordinary
  | 1 => .editioned
  | 2 => .plated
  | _ => .code

/-- A region-table entry (R312). -/
def regionOf (s : State) (bs : List Byte) : RegionEnt :=
  ⟨BitVec.ofNat 64 (ptrHome s (fld bs 0 8)), fld bs 8 1, fld bs 9 1, fld bs 10 1, fld bs 16 8, fld bs 24 8⟩

/-- The region entry of an RTI: none for 0. -/
inductive RegOut where
  | ok (r : Option RegionEnt)
  | access
  | poison
  | fault (absent : Bool) (level : Nat)
  deriving DecidableEq, Repr

/-- A page's RTI makes its entry malformed (R312): none for another kind than ordinary, or one beyond RTLEN. -/
def rtiBad (rtlen rti : Nat) (kind : PKind) : Bool := if rti = 0 then kind != .ordinary else decide (rtlen ≤ rti)

/-- The region-table entry of an RTI, read through stage 2 (R312, R313). -/
def regionEntry (s : State) (owner s2root rtbase rti : Nat) : RegOut :=
  if rti = 0 then .ok none
  else match stage2 s owner s2root (rtbase + 32 * rti) with
  | .ok pa _ _ _ _ =>
    let k := mkey owner pa
    if poisoned s.poison k 32 then .poison else .ok (some (regionOf s (rdBytes s k 32)))
  | .access => .access
  | .poison => .poison
  | .fault a l => .fault a l

/-- Translate by the tables (R314). -/
def walkAll (s : State) (owner vmid asid off : Nat) (acc : AccKind) (m : Mode) : TrOut :=
  let ck := mkey owner ((nth {} s.trblks owner).ctxbase.toNat + 32 * (vmid * 1024 + asid))
  if poisoned s.poison ck 32 then .poison
  else
    let c := rdBytes s ck 32
    let s1 := fld c 0 8
    let s2 := fld c 8 8
    if !bit s1 0 then .fault false 1 0
    else match walk1 s owner s2 off [0, 1, 2, 3] (s1 / 2 * 2) with
    | .access => .access
    | .poison => .poison
    | .fault a st l => .fault a st l
    | .leaf e lvl =>
      let kind := kindOf e
      if (owner = 4 ∧ kind ≠ .ordinary) ∨ rtiBad (fld c 24 2) (bits e 63 52) kind then .access
      else if !permits (bit e 2) (bit e 3) (bit e 4) acc || (m == .u && !bit e 11) then .access
      else
        let n := leafSize lvl e
        let ip := entFrame e / n * n + off % n
        match stage2 s owner s2 ip with
        | .access => .access
        | .poison => .poison
        | .fault a l => .fault a 2 l
        | .ok pa n2 rd wr ex =>
          if !permits rd wr ex acc then .access
          else match regionEntry s owner s2 (fld c 16 8) (bits e 63 52) with
          | .access => .access
          | .poison => .poison
          | .fault a l => .fault a 2 l
          | .ok r =>
            let size := min n n2
            .ok { frame := pa - off % size, size := size, kind := kind, rclass := classOf (bits e 9 8), sto := bit e 10,
                  ua := bit e 11, rd := bit e 2 && rd, wr := bit e 3 && wr, ex := bit e 4 && ex, region := r } pa

/-! ### The words of the tables that a walk reads (R337, R338) -/

/-- The entry at a key with the group that it is checked with. -/
def entryRun (s : State) (lvl idx key : Nat) : Nat × Nat := if lvl = 3 ∧ bit (rdNat s key 8) 5 then (key - 8 * (idx % 16), 128) else (key, 8)

/-- Keys and lengths of the entries of a stage-2 walk. -/
def runs2 (s : State) (owner addr : Nat) : List Nat → Nat → List (Nat × Nat)
  | [], _ => []
  | lvl :: more, t =>
    let idx := walkIndex lvl addr
    let k := mkey owner (t + 8 * idx)
    entryRun s lvl idx k :: (match checkEntry s true lvl idx k with
      | .leaf e _ => if bit e 1 then [] else runs2 s owner addr more (entFrame e)
      | _ => [])

def runsS2 (s : State) (owner s2root addr : Nat) : List (Nat × Nat) :=
  if s2root = 0 then [] else runs2 s owner addr [0, 1, 2, 3] s2root

/-- Those of a walk of both stages, with the region-table entry of its page. -/
def runs1 (s : State) (owner s2root rtbase off : Nat) : List Nat → Nat → List (Nat × Nat)
  | [], _ => []
  | lvl :: more, t =>
    runsS2 s owner s2root t ++ (match stage2 s owner s2root t with
      | .ok pt _ _ _ _ =>
        let idx := walkIndex lvl off
        let k := mkey owner (pt + 8 * idx)
        entryRun s lvl idx k :: (match checkEntry s false lvl idx k with
          | .leaf e _ =>
            if bit e 1 then
              let n := leafSize lvl e
              let rt := rtbase + 32 * bits e 63 52
              runsS2 s owner s2root (entFrame e / n * n + off % n) ++ (if bits e 63 52 = 0 then [] else
                runsS2 s owner s2root rt ++ (match stage2 s owner s2root rt with
                  | .ok pa _ _ _ _ => [(mkey owner pa, 32)]
                  | _ => []))
            else runs1 s owner s2root rtbase off more (entFrame e)
          | _ => [])
      | _ => [])

/-- Those of a translation, with its context's entry. -/
def walkRuns (s : State) (owner vmid asid off : Nat) : List (Nat × Nat) :=
  let ck := mkey owner ((nth {} s.trblks owner).ctxbase.toNat + 32 * (vmid * 1024 + asid))
  let c := rdBytes s ck 32
  (ck, 32) :: (if bit (fld c 0 8) 0 then runs1 s owner (fld c 8 8) (fld c 16 8) off [0, 1, 2, 3] (fld c 0 8 / 2 * 2) else [])

/-- A walk for launch k counts the errors that it meets in the tables (R338). -/
def walkMet (s : State) (k owner vmid asid off : Nat) : State :=
  if s.errors.isEmpty || decide (4 ≤ owner) then s
  else (walkRuns s owner vmid asid off).foldl (fun s r => meetHbm s r.1 r.2 (some k)) s

/-- The TLB entry of an owner for an offset. -/
def tlbFind (s : State) (owner vmid asid off : Nat) : Option TlbEnt :=
  ((tGet? s.tlbs owner).getD []).find? (tlbHit vmid asid off)

/-- What a held translation answers. -/
def tlbAnswer (e : TlbEnt) (off : Nat) (acc : AccKind) (m : Mode) : TrOut :=
  if !permits e.attr.rd e.attr.wr e.attr.ex acc || (m == .u && !e.attr.ua) then .access
  else .ok e.attr (e.attr.frame + (off - e.vpage))

/-- Translate (R314, R315, R317): the held translation of a pinned page; else the walk, or a held translation that an invalidation has not
dropped yet, no guarantee which. -/
def translate (s : State) (owner vmid asid off : Nat) (acc : AccKind) (m : Mode) : TrOut :=
  match tlbFind s owner vmid asid off with
  | some e =>
    let held := tlbAnswer e off acc m
    if e.inflight ≠ 0 then held
    else
      let new := walkAll s owner vmid asid off acc m
      if new = held then held
      else if Config.newEntry s.epoch (mkey owner (vmid * 1024 + asid)) off then new else held
  | none => walkAll s owner vmid asid off acc m

/-- Hold a translation, made for launch k, in the owner's TLB: 16,384 entries, a pinned one is never replaced (R315). -/
def tlbFill (s : State) (k owner vmid asid off : Nat) (a : PageAttr) : State :=
  if (tlbFind s owner vmid asid off).isSome then s
  else
    let s := walkMet s k owner vmid asid off
    let es := (tGet? s.tlbs owner).getD []
    let es := if es.length < 16384 then es
      else match es.find? (fun e => e.inflight == 0) with
        | some e => es.erase e
        | none => es
    if 16384 ≤ es.length then s
    else { s with tlbs := tPut s.tlbs owner (es ++ [⟨vmid, asid, off / a.size * a.size, a, 0⟩]) }

/-! ### The entry of a page (R311, R318) -/

/-- The entry of a page: its key and level, whether it is valid, the bytes of the virtual page, its class, and whether it is one of stage 2. -/
structure PageEnt where
  key : Nat
  lvl : Nat
  valid : Bool
  size : Nat
  cls : RClass
  second : Bool := false
  deriving DecidableEq, Repr

/-- The entry with V clear that a stage-2 walk meets: its key and level. -/
def miss2 (s : State) (owner addr : Nat) : List Nat → Nat → Option (Nat × Nat)
  | [], _ => none
  | lvl :: more, t =>
    let k := mkey owner (t + 8 * walkIndex lvl addr)
    match checkEntry s true lvl (walkIndex lvl addr) k with
    | .fault .. => some (k, lvl)
    | .leaf e _ => if bit e 1 then none else miss2 s owner addr more (entFrame e)
    | _ => none

def missS2 (s : State) (owner s2root addr : Nat) : Option (Nat × Nat) :=
  if s2root = 0 then none else miss2 s owner addr [0, 1, 2, 3] s2root

/-- Bytes of the page of an entry, valid or absent: one frame where it is a table's. -/
def entSize (lvl e : Nat) : Nat := if bit e 1 then leafSize lvl e else 4096

/-- Where a walk of both stages, and the read of the region table after it, meets an entry with V clear, or else the leaf entry of stage 1. -/
def findEntry (s : State) (owner s2root rtbase off : Nat) : List Nat → Nat → Option PageEnt
  | [], _ => none
  | lvl :: more, t =>
    match missS2 s owner s2root t, stage2 s owner s2root t with
    | some m, _ => some ⟨m.1, m.2, false, 4096, .proof, true⟩
    | none, .ok pt _ _ _ _ =>
      let k := mkey owner (pt + 8 * walkIndex lvl off)
      (match checkEntry s false lvl (walkIndex lvl off) k with
       | .fault .. =>
         let e := rdNat s k 8
         some ⟨k, lvl, false, entSize lvl e, if bit e 1 then classOf (bits e 9 8) else .proof, false⟩
       | .leaf e _ =>
         if bit e 1 then
           let n := leafSize lvl e
           match missS2 s owner s2root (entFrame e / n * n + off % n),
                 (if bits e 63 52 = 0 then none else missS2 s owner s2root (rtbase + 32 * bits e 63 52)) with
           | some m, _ => some ⟨m.1, m.2, false, min n (entSize m.2 (rdNat s m.1 8)), classOf (bits e 9 8), true⟩
           | none, some m => some ⟨m.1, m.2, false, n, .proof, true⟩
           | none, none => some ⟨k, lvl, true, n, classOf (bits e 9 8), false⟩
         else findEntry s owner s2root rtbase off more (entFrame e)
       | _ => none)
    | none, _ => none

/-- Bytes of the virtual range of an entry of a level: of the page where it is a leaf's. -/
def coverOf (lvl e : Nat) : Nat := if lvl = 3 ∧ bit e 5 = true then 2 ^ 16 else 2 ^ (12 + 9 * (3 - lvl))

/-- Bytes of the range of the entry of stage 1 where the walk for an offset ends, whatever stage 2 maps its page by; 4 KiB where none is reached. -/
def walkCover (s : State) (owner s2root off : Nat) : List Nat → Nat → Nat
  | [], _ => 4096
  | lvl :: more, t =>
    match stage2 s owner s2root t with
    | .ok pt _ _ _ _ =>
      let e := rdNat s (mkey owner (pt + 8 * walkIndex lvl off)) 8
      if !bit e 0 || bit e 1 then coverOf lvl e else walkCover s owner s2root off more (entFrame e)
    | _ => 4096

/-- The two roots of a context at an owner (R309): stage 1 where it is valid, and S2ROOT. -/
def rootsOf (s : State) (owner vmid asid : Nat) : Option (Nat × Nat) :=
  let ck := mkey owner ((nth {} s.trblks owner).ctxbase.toNat + 32 * (vmid * 1024 + asid))
  let s1 := rdNat s ck 8
  if bit s1 0 then some (s1 / 2 * 2, rdNat s (ck + 8) 8) else none

/-- RTBASE of a context at an owner (R310). -/
def rtbaseOf (s : State) (owner vmid asid : Nat) : Nat :=
  rdNat s (mkey owner ((nth {} s.trblks owner).ctxbase.toNat + 32 * (vmid * 1024 + asid)) + 16) 8

/-- The entry that a page at an owner has or lacks. -/
def pageEntry (s : State) (owner vmid asid off : Nat) : Option PageEnt :=
  (rootsOf s owner vmid asid).bind (fun r => findEntry s owner r.2 (rtbaseOf s owner vmid asid) off [0, 1, 2, 3] r.1)

/-- The range that an invalidation of the page at an offset covers (R317): what the entry where the walk ends stands for, and the held
translation of the offset where that is larger. -/
def tinvSpan (s : State) (owner vmid asid off : Nat) : Nat × Nat :=
  let n := max (((rootsOf s owner vmid asid).map (fun r => walkCover s owner r.2 off [0, 1, 2, 3] r.1)).getD 4096)
    (((tlbFind s owner vmid asid off).map (fun e => e.attr.size)).getD 4096)
  (off / n * n, n)

/-- The page that holds an offset of an owner: its first offset and its bytes. -/
def ownerPage (s : State) (owner vmid asid off : Nat) : Nat × Nat :=
  let n := match tlbFind s owner vmid asid off, pageEntry s owner vmid asid off with
    | some e, _ => e.attr.size
    | none, some e => e.size
    | none, none => 4096
  (off / n * n, n)

/-- The page of a pointer, present or not: its first byte's pointer, this package named by PEER 0x1FF, and its bytes; 4 KiB of another package's. -/
def pageSpan (s : State) (vmid asid : Nat) (va : W64) : Nat × Nat :=
  if ptrHere s va then
    let p := ownerPage s (ptrOwner va) vmid asid (ptrOfs va)
    (vaHome va - (ptrOfs va - p.1), p.2)
  else (va.toNat / 4096 * 4096, 4096)

/-- A number lies in a span. -/
def inSpan (p : Nat × Nat) (a : Nat) : Bool := decide (p.1 ≤ a) && decide (a < p.1 + p.2)

/-- An address lies in a page, by whichever PEER it names this package. -/
def inPage (s : State) (p : Nat × Nat) (a : Nat) : Bool := inSpan p (ptrHome s a)

/-! ### The reach check of R123 step 2 -/

/-- What a pointer reaches: a page of this package, another package, or why not. -/
inductive Reach where
  | page (a : PageAttr) (owner pa : Nat)
  | peer (n : Nat)
  | access
  | poison
  | fault (absent : Bool) (stage level : Nat)
  deriving DecidableEq, Repr

/-- Reach of a pointer for an access in a context and mode (R123, R308, R309). -/
def reach (s : State) (vmid asid : Nat) (va : W64) (acc : AccKind) (m : Mode) : Reach :=
  if ptrReserved va then .access
  else if !ptrHere s va then
    match Config.peerReach vmid asid (va.toNat / 4096) (accCode acc) (modeCode m) with
    | 0 => .peer (ptrPeer va)
    | 1 => .access
    | n + 2 =>
      if s.peerPages.contains (asid, vmid, va.toNat / 4096) then .peer (ptrPeer va)
      else .fault (bit n 3) (1 + bits n 2 2) (n % 4)
  else match translate s (ptrOwner va) vmid asid (ptrOfs va) acc m with
  | .ok a pa => .page a (ptrOwner va) pa
  | .access => .access
  | .poison => .poison
  | .fault a st l => .fault a st l

/-- Hold the translation that an access of launch k used; a walk that ends in a detected error of the tables has met it (R338). -/
def reachFill (s : State) (k vmid asid : Nat) (va : W64) (r : Reach) : State :=
  match r with
  | .page a o _ => tlbFill s k o vmid asid (ptrOfs va) a
  | .poison => walkMet s k (ptrOwner va) vmid asid (ptrOfs va)
  | _ => s

end Sys2Proof.Machine
end

