-- ==== Sys2Proof/Machine/Code.lean ====
section
/-! DEFINITION. Block entry (R25 to R30, R370), the start of a context save (R301), the restart of a region (R299),
and the fill of internal words (R32 to R39). -/

namespace Sys2Proof.Machine

/-! ### Reading code bytes -/

/-- n bytes at a pointer that was reached: memory here; another package answers with bytes that nothing fixes. -/
def reachBytes (s : State) (r : Reach) (va : W64) (n : Nat) : List Byte :=
  match r with
  | .page a o pa => dataBytes s a.rclass o pa n
  | _ => openBytes s va.toNat n

/-- Reading the bytes consumes a detected error (R338, R339). -/
def reachPoisoned (s : State) (r : Reach) (n : Nat) : Bool :=
  match r with
  | .page a o pa => dataBad s a.rclass o pa n
  | _ => false

/-- Count the errors that a read of n bytes meets, for launch k (R338). -/
def reachMet (s : State) (k : Nat) (r : Reach) (n : Nat) : State :=
  match r with
  | .page a o pa => dataMet s k a.rclass o pa n
  | _ => s

/-- A page from which fetch is admitted: KIND code (R35; EX is in the translation). -/
def codeReach (r : Reach) : Reach :=
  match r with
  | .page a _ _ => if a.kind = .code then r else .access
  | r => r

/-- Where the landing bit of a slot lies: key of its map byte (R30, R312); none where the page has no region. -/
def landingKey (a : PageAttr) (owner : Nat) (h : W64) : Option Nat :=
  match a.region with
  | some r => some (mkey owner (r.desc + (BitVec.ofNat 64 (vaHome h) - r.base).toNat / 64))
  | none => none

/-! ### The checks of R28 -/

/-- Header fields (R26). -/
def hLen (w : Nat) : Nat := bits w 55 48
def hWords (w : Nat) : Nat := bits w 47 40
def hReconv (w : Nat) : Int := sext 12 (bits w 23 12)
def hPref (w : Nat) : Nat := bits w 11 8
def hRegion (w : Nat) : Bool := bit w 7
def hLoop (w : Nat) : Bool := bit w 6
def hEntry (w : Nat) : Bool := bit w 5

/-- DecodeBody (R28): the words still to walk over the body bytes. -/
def decodeBody : Nat → List Byte → Nat
  | 0, bs => if bs.all (fun b => b == 0) then 0 else 9
  | n + 1, bs =>
    match bs with
    | [] => 8
    | b :: _ => if bs.length < lenOf b then 8 else decodeBody n (bs.drop (lenOf b))

/-- The reason code of R28 for a header word by itself: 1 to 6, 0 for a header. -/
def headReason (h w : Nat) : Nat :=
  if bits w 63 56 ≠ 0xC5 then 1
  else if xorNibbles 16 w ≠ 0 then 2
  else if bit w 4 then 3
  else if hLen w = 0 then 4
  else if 4096 < h % 4096 + 8 * hLen w then 5
  else if hLoop w ∧ 48 < hWords w then 6
  else 0

/-- The reason code x of R28, R29 for a header word and the body bytes after it. -/
def blockReason (h w : Nat) (kind : Entry) (body : List Byte) : Nat :=
  if headReason h w ≠ 0 then headReason h w
  else if kind = .start ∧ hRegion w = false then 7
  else decodeBody (hWords w) (body.take (8 * hLen w - 8))

/-- The outcome of an entry (R28). -/
inductive EntOut where
  | ok (w : Nat)
  | trap (c : Cause) (txval txpc : W64)
  | poison (txpc : W64) (keys : List Nat)
  | fault (absent : Bool) (stage level : Nat)
  deriving DecidableEq, Repr

/-- Kinds that consult the landing map (R28). -/
def needsLanding (k : Entry) : Bool := k != .fallthrough && k != .start

/-- Kinds that need ENTRY (R28). -/
def needsEntry (k : Entry) : Bool := k == .call || k == .indirect || k == .start || k == .vector

/-- Bytes of the block at a header that an entry reads: 8 * LEN of them, at least the header, within its window (assumption 21). -/
def blockBytes (s : State) (r : Reach) (h : W64) : Nat :=
  max 8 (min (8 * hLen (beNat (reachBytes s r h 8))) (4096 - h.toNat % 4096))

/-- The checks of R28 and R370 after FetchHeader's page is known. Header and body are the bytes now in memory, of the versions that R37 leaves
open (assumption 26). -/
def entryChecks (s : State) (r : Reach) (h : W64) (kind : Entry) (src : W64) : EntOut :=
  let w := beNat (reachBytes s r h 8)
  let n := blockBytes s r h
  if reachPoisoned s r n then
    .poison src (match r with | .page _ o pa => badAt s (mkey o pa) n | _ => [])
  else
    let x := blockReason h.toNat w kind ((reachBytes s r h n).drop 8)
    if x ≠ 0 then .trap .badBlock (BitVec.ofNat 64 x) h
    else if needsEntry kind && !hEntry w then .trap .badTarget h src
    else .ok w

/-- The landing bit of a slot, bit b of the map byte at a key: while an `lmap` of the slot runs, its old bit or the new one (R171). -/
def landingBit (s : State) (k b : Nat) : Bool :=
  (s.lmaps.filter (fun m => m.2.bits.any (fun x => mkey m.2.owner x.1 == k && x.2 == b))).foldl
    (fun v m => if bit (Config.openByte s.epoch (k + 2 ^ 64 * (m.1 + 1))).toNat b then m.2.val else v) (bit (rdByte s k).toNat b)

/-- One thread enters at h by way of kind (R28); src is what the table of R28 reports as TXPC. -/
def enterBlock (s : State) (vmid asid : Nat) (m : Mode) (h : W64) (kind : Entry) (src : W64) : EntOut :=
  if needsLanding kind && h.toNat % 8 != 0 then .trap .badTarget h src
  else
    let r := codeReach (reach s vmid asid h .fetch m)
    match r with
    | .access => .trap .access h src
    | .poison => .poison src [5 * 2 ^ 52]
    | .fault a st l => .fault a st l
    | .peer _ =>
      if needsLanding kind && !Config.peerLanding s.epoch h.toNat then .trap .badTarget h src
      else entryChecks s r h kind src
    | .page a o _ =>
      if needsLanding kind then
        match landingKey a o h with
        | none => .trap .badTarget h src
        | some k =>
          if poisoned s.poison k 1 then .poison src [k]
          else if !landingBit s k (h.toNat / 8 % 8) then .trap .badTarget h src
          else entryChecks s r h kind src
      else entryChecks s r h kind src

/-- The errors that an entry meets are counted: in the landing byte, and in the block where the landing bit is set (R338). -/
def entryMet (s : State) (u : Nat) (r : Reach) (h : W64) (kind : Entry) (out : EntOut) : State :=
  match r with
  | .page a o _ =>
    let k := launchOf s u
    let land (s : State) : State := match landingKey a o h with
      | some b => if needsLanding kind && h.toNat % 8 == 0 then meetHbm s b 1 (some k) else s
      | none => s
    (match out with
     | .trap .badTarget _ _ => land s
     | .trap .access _ _ => s
     | .fault .. => s
     | _ => reachMet (land s) k r (blockBytes s r h))
  | _ => s

/-- A lane that has entered the block with header word w at h (R28, R53, R298); its earlier commits are past (R125). -/
def enterLane (ln : Lane) (h : W64) (w : Nat) : Lane :=
  let ln := if hRegion w then
      recordLane (modRec (takeCommits ln) (fun r => { r with regpc := h, reghdr := h, regcnt := r.regcnt + 1 }))
    else ln
  { ln with at_ :=
      if hWords w = 0 then .enter (h + BitVec.ofNat 64 (8 * hLen w)) .fallthrough (h + BitVec.ofNat 64 (8 * hLen w))
      else .word h (hLen w) (h + 8) (hWords w) }

/-- Lines that PREF of a block asks for (R39). -/
def prefLines (h : W64) (w : Nat) : List W64 :=
  let first := (h.toNat + 8 * hLen w - 1) / 64 + 1
  (List.range (hPref w)).map (fun i => BitVec.ofNat 64 ((first + i) * 64))

/-! ### Saving a group (R301) -/

/-- WHERE of a record (R319). -/
def faultWhere (ab : Bool) (stage level : Nat) : Nat := level + (if stage = 2 then 4 else 0) + (if ab then 8 else 0)

/-- Begin the save of a group: it issues nothing further (R301 step 1). Lanes of `restart` resume at their restart
points, those of `fs` met the pages named (R303). -/
def beginSave (s : State) (u : Nat) (why : SaveWhy) (fs : List LaneFault) (restart : List Nat) : State :=
  modGrp s u (fun g =>
    match g.place with
    | .resident n => { g with place := .saving n why, faults := fs, restart := restart }
    | _ => { g with faults := g.faults ++ fs, restart := g.restart ++ restart })

/-! ### Entry of the lanes that have one to make -/

/-- A BUDGET_EXHAUSTED latch that the lane has not taken (R355). -/
def budgetDue (s : State) (u : Nat) (ln : Lane) : Bool := decide (ln.budgetSeen < (launchAt s (launchOf s u)).latches)

/-- A branch back to a LOOP block has its lane's loop buffer keep it (R38). -/
def keepLoop (s : State) (u l : Nat) (h : W64) (w : Nat) (kind : Entry) (src : W64) : State :=
  match slotOf (grp s u) with
  | some slot =>
    if hLoop w && kind != .fallthrough && kind != .start && decide (h.toNat ≤ src.toNat) then
      modCore s (coreOf s u) (fun c =>
        let b : LoopBuf := (tGet? c.loopBuf (slot * 32 + l)).getD {}
        { c with loopBuf := tPut c.loopBuf (slot * 32 + l) { b with keep := some (h, 8 * hLen w) } })
    else s
  | none => s

/-- A lane that has a block to enter: its group and number, the header, the kind, and what the table of R28 reports as TXPC. -/
structure Entering where
  u : Nat
  l : Nat
  h : W64
  kind : Entry
  src : W64
  deriving DecidableEq, Repr

/-- What a lane's entry reaches, and its outcome (R28), as the state has it. -/
def entryLook (s : State) (e : Entering) : Reach × EntOut :=
  let c := ctxOf s e.u
  let m := (lane s e.u e.l).mode
  (codeReach (reach s (vmidOf s c) (asidOf s c) e.h .fetch m), enterBlock s (vmidOf s c) (asidOf s c) m e.h e.kind e.src)

/-- The lane enters, traps, or is noted as faulting, by the outcome of its entry; its group's faults are collected by the caller. -/
def enterOne (s : State) (e : Entering) (r : Reach) (out : EntOut) : State :=
  let u := e.u
  let l := e.l
  let h := e.h
  let kind := e.kind
  let src := e.src
  let c := ctxOf s u
  let ln := lane s u l
  let s := entryMet s u r h kind out
  /- A vector entry that fails restarts at the vector (R295). -/
  let fail (s : State) (c : Cause) (txval txpc : W64) : State :=
    if kind = .vector then trapLane s u l ⟨c, txval, h, h, h⟩ else trapRegion s u l c txval txpc
  match out with
  | .ok w =>
    let s := reachFill s (launchOf s u) (vmidOf s c) (asidOf s c) h r
    let s := modCore s (coreOf s u) (fun k => { k with wanted := k.wanted ++ (prefLines h w).filter (fun x => !k.wanted.contains x) })
    let s := modLane (flushH (keepLoop s u l h w kind src) u l) u l (fun ln => enterLane ln h w)
    if hRegion w && budgetDue s u ln then
      trapLane (modLane s u l (fun ln => { ln with budgetSeen := ln.budgetSeen + 1 })) u l ⟨.budgetExhausted, 0, h, h, h⟩
    else s
  | .trap c txval txpc => fail s c txval txpc
  | .poison txpc keys =>
    let p := consume s (launchOf s u) (snapHolds (launchAt s (launchOf s u)) keys)
    if p.2 then fail p.1 .poison h txpc else p.1
  | .fault ab st lv =>
    beginSave s u .pageFault [⟨l, h, src, accCode .fetch, decide (kind = .vector), false, faultWhere ab st lv⟩] (if kind = .vector then [] else [l])

/-- Lanes of a resident group that have a block to enter and run. -/
def enterings (u : Nat) (g : Group) : List Entering :=
  match g.place with
  | .resident _ =>
    if g.stopped || g.ended then []
    else (List.range 32).filterMap (fun l =>
      let ln := laneAt g l
      match ln.at_ with
      | .enter h k src => if running ln then some ⟨u, l, h, k, src⟩ else none
      | .word .. => none)
  | _ => []

/-- A group has entries to make; one whose launch is to be replayed makes none (R353). -/
def entersNow (s : State) (p : Nat × Group) : Bool := !(enterings p.1 p.2).isEmpty && !(launchAt s (launchOf s p.1)).replayDue

/-- Every entry that is to be made now, once, each with its outcome as the state has it: that of a transfer's entry is the one by which its link
was written (R96, R98). -/
def settleOnce (s : State) : State :=
  let es := (s.groups.filter (fun p => entersNow s p)).flatMap (fun p => enterings p.1 p.2)
  (es.map (fun e => (e, entryLook s e))).foldl (fun s x =>
    match (tGet? s.groups x.1.u).map Group.place with
    | none | some (.saved _ _) => s
    | _ => enterOne s x.1 x.2.1 x.2.2) s

/-- Some lane has an entry to make. -/
def unsettled (s : State) : Bool := s.groups.any (entersNow s)

/-- Make entries until none is left, at most n rounds (empty blocks and failing vectors each take one more). -/
def settle : Nat → State → State
  | 0, s => s
  | n + 1, s => if unsettled s then settle n (settleOnce s) else s

/-! ### Restart (R299) -/

/-- Address, length and remaining words of the block that holds a word, walked from its header: the position of a
restart inside a block. -/
def restartWalk : Nat → List Byte → Nat → Nat → Nat
  | 0, _, _, left => left
  | n + 1, bs, pos, left =>
    if pos = 0 then left
    else match bs with
      | [] => left
      | b :: _ => if pos < lenOf b then left else restartWalk n (bs.drop (lenOf b)) (pos - lenOf b) (left - 1)

/-- Position of a restart point in the block whose header is hdr (R299): no check is made of the header, whose bytes nothing fixes where
they cannot be read. -/
def restartPos (s : State) (vmid asid : Nat) (m : Mode) (pc hdr : W64) : Pos :=
  if pc = hdr then .enter hdr .fallthrough hdr
  else
    let r := codeReach (reach s vmid asid hdr .fetch m)
    let w := beNat (reachBytes s r hdr 8)
    let body := (reachBytes s r hdr (8 * hLen w)).drop 8
    .word hdr (hLen w) pc (restartWalk 255 body ((pc - hdr).toNat - 8) (hWords w))

/-- Resume a lane at its restart point with what its region record holds (R299), over the results of its last-result file that are
still pending. -/
def restartLane (s : State) (u l : Nat) : State :=
  let c := ctxOf s u
  modLane (flushH s u l) u l (fun ln =>
    let ln := restoreRec (takeCommits ln)
    { ln with st := .run, flight := none, qgot := [], eldGot := none, qdue := [], at_ := restartPos s (vmidOf s c) (asidOf s c) ln.mode (curRec ln).regpc (curRec ln).reghdr })

/-! ### Fill (R32 to R37) -/

/-- The held internal word at an address. -/
def wordAt (c : Core) (pc : W64) : Option IWord := c.icache.find? (fun w => w.va == pc)

/-- Number of internal words of an instruction cache: 128 KiB of 96-bit words (R10, R32). -/
def icacheWords : Nat := 131072 / 12

/-- Put a word into the cache, for the one that was there or the oldest. -/
def putWord (c : Core) (w : IWord) : Core :=
  let ws := c.icache.filter (fun x => x.va != w.va)
  { c with icache := (if ws.length < icacheWords then ws else ws.drop 1) ++ [w] }

/-- A prefetched line gives n bytes at an address, where it holds them (R39). -/
def lineBytes (c : Core) (pc : W64) (n : Nat) : Option (List Byte) :=
  match c.lines.find? (fun p => decide (p.1.toNat ≤ pc.toNat) && decide (pc.toNat + n ≤ p.1.toNat + 64)) with
  | some p => some ((p.2.drop (pc.toNat - p.1.toNat)).take n)
  | none => none

/-- The state of a word of these bytes: valid where the decoder admits it, else ILLEGAL (R34). -/
def wordState (bs : List Byte) : WState :=
  match decodeExact bs with
  | .ok _ => .valid
  | .reject _ => .illegal

/-- The whole word at an address, where a prefetched line holds it (R37, R39). -/
def lineWord (c : Core) (pc : W64) : Option (List Byte) := (lineBytes c pc 1).bind (fun b => lineBytes c pc (lenOf (b.headD 0)))

/-- Bytes from an address to the end of its 4 KiB page. -/
def pageRest (pc : W64) : Nat := 4096 - pc.toNat % 4096

/-- The word of n bytes at pc, whose page is reached, where it lies beyond a first page of m bytes too (R35): both pages are tested. -/
def fillTwo (s : State) (vmid asid : Nat) (md : Mode) (pc : W64) (r : Reach) (m n : Nat) : IWord :=
  let pc2 := pc + BitVec.ofNat 64 m
  let r2 := codeReach (reach s vmid asid pc2 .fetch md)
  match r2 with
  | .access => { va := pc, bytes := [], st := .access, miss := m, mode := md }
  | .poison => { va := pc, bytes := [], st := .poisoned, miss := m }
  | .fault ab st lv => { va := pc, bytes := [], st := .faulted, miss := m, where_ := faultWhere ab st lv }
  | _ =>
    if reachPoisoned s r m then { va := pc, bytes := [], st := .poisoned }
    else if reachPoisoned s r2 (n - m) then { va := pc, bytes := [], st := .poisoned, miss := m }
    else let bs := reachBytes s r pc m ++ reachBytes s r2 pc2 (n - m); { va := pc, bytes := bs, st := wordState bs }

/-- The internal word that a fill makes of the bytes at pc (R32 to R35): a prefetched line where it holds the whole word, else memory
(R37). -/
def fillWord (s : State) (core vmid asid : Nat) (m : Mode) (pc : W64) : IWord :=
  let r := codeReach (reach s vmid asid pc .fetch m)
  match r with
  | .access => { va := pc, bytes := [], st := .access, mode := m }
  | .poison => { va := pc, bytes := [], st := .poisoned }
  | .fault ab st lv => { va := pc, bytes := [], st := .faulted, where_ := faultWhere ab st lv }
  | _ =>
    match lineWord (coreAt s core) pc with
    | some bs => { va := pc, bytes := bs, st := wordState bs }
    | none =>
      let n := lenOf ((reachBytes s r pc 1).headD 0)
      if pageRest pc < n then fillTwo s vmid asid m pc r (pageRest pc) n
      else if reachPoisoned s r n then { va := pc, bytes := [], st := .poisoned }
      else let bs := reachBytes s r pc n; { va := pc, bytes := bs, st := wordState bs }

end Sys2Proof.Machine
end

