-- ==== Sys2Proof/Machine/Snapshot.lean ====
section
/-! DEFINITION. What the tables of a context map (R310 to R313), and with it the snapshots of REPLAY launches (R351, R241, R255) and writes at an
owner. -/

namespace Sys2Proof.Machine

/-! ### What the tables map -/

/-- Entries of a table of n at a key that hold a listed byte: no other is valid. -/
def listedEntries (s : State) (k n : Nat) : List Nat :=
  ((s.mem.filter (fun c => decide (k ≤ c.1) && decide (c.1 < k + 8 * n))).map (fun c => (c.1 - k) / 8)).eraseDups

/-- A table of stage 1 (its owner-physical address, entry 0), or a page that a valid leaf maps (its intermediate address, entry and offset). -/
structure Mapping where
  addr : Nat
  size : Nat
  ent : Nat
  va : Nat
  deriving DecidableEq, Repr

/-- The tables from one of a level on, whose first entry stands for offset va, and the pages that they map. -/
def mappings (s : State) (owner s2root : Nat) : List Nat → Nat → Nat → List Mapping
  | [], _, _ => []
  | lvl :: more, t, va =>
    match stage2 s owner s2root t with
    | .ok pt _ _ _ _ =>
      let n := if lvl = 0 then 8192 else 512
      ⟨pt, 8 * n, 0, va⟩ :: (listedEntries s (mkey owner pt) n).flatMap (fun i =>
        let e := rdNat s (mkey owner (pt + 8 * i)) 8
        let n := leafSize lvl e
        let off := va + i * 2 ^ (12 + 9 * (3 - lvl))
        if !bit e 0 || entBad false lvl e then []
        else if bit e 1 then [⟨entFrame e / n * n, n, e, off / n * n⟩]
        else mappings s owner s2root more (entFrame e) off)
    | _ => []

/-- The owner-physical pages, with their sizes and whether stage 2 lets them be written, of n bytes at an intermediate address (R313). -/
def stage2Pages (s : State) (owner s2root a n : Nat) : List (Nat × Nat × Bool) :=
  if s2root = 0 then [(a, n, true)]
  else ((List.range (n / 4096)).filterMap (fun i => match stage2 s owner s2root (a + 4096 * i) with
    | .ok pa size _ w _ => some (pa / min n size * min n size, min n size, w)
    | _ => none)).eraseDups

/-- A page of an owner that a context's tables map, or a table: its frame, its bytes, its entry, whether the context may write it, and the offset of
the page that it is part of. -/
structure CtxPage where
  frame : Nat
  size : Nat
  ent : Nat
  wr : Bool
  va : Nat
  deriving DecidableEq, Repr

/-- What the tables of a context map at an owner, with the tables themselves. -/
def ctxPages (s : State) (owner c : Nat) : List CtxPage :=
  match rootsOf s owner (vmidOf s c) (asidOf s c) with
  | none => []
  | some r => (mappings s owner r.2 [0, 1, 2, 3] r.1 0).flatMap (fun m =>
      if m.ent = 0 then [⟨m.addr, m.size, 0, false, m.va⟩]
      else (stage2Pages s owner r.2 m.addr m.size).map (fun p => ⟨p.1, p.2.1, m.ent, bit m.ent 3 && p.2.2, m.va⟩))

/-! ### What a context may write (R351, R241, R255) -/

/-- The kind of a page and the entry of its region. -/
def pageRegion (s : State) (owner c : Nat) (p : CtxPage) : Option (PKind × RegionEnt) :=
  match regionEntry s owner (((rootsOf s owner (vmidOf s c) (asidOf s c)).map (fun r => r.2)).getD 0)
      (rtbaseOf s owner (vmidOf s c) (asidOf s c)) (bits p.ent 63 52) with
  | .ok (some r) => some (kindOf p.ent, r)
  | _ => none

/-- The translations of a context that an owner holds and that let it write. -/
def heldWrites (s : State) (owner c : Nat) : List TlbEnt :=
  ((tGet? s.tlbs owner).getD []).filter (fun e => e.vmid == vmidOf s c && e.asid == asidOf s c && e.attr.wr)

/-- The editioned and plated regions of an owner that a context may write: kind and descriptor. -/
def writeRegions (s : State) (owner c : Nat) : List (PKind × Nat) :=
  let rs := ((ctxPages s owner c).filter (fun p => p.wr)).filterMap (pageRegion s owner c) ++
    (heldWrites s owner c).filterMap (fun e => e.attr.region.map (fun r => (e.attr.kind, r)))
  (rs.filter (fun r => r.1 == .editioned || r.1 == .plated)).map (fun r => (r.1, r.2.desc))

/-- The arrays of a region at its owner: metadata and slots of an editioned one (R229), descriptor, block, staged image and lists of a plated
one (R242). -/
def regionRuns (s : State) (owner : Nat) (r : PKind × Nat) : List (Nat × Nat) :=
  let k := mkey owner r.2
  let len := rdNat s (k + 8) 4
  if r.1 = .editioned then [(rdNat s (k + 24) 8, 16 * len), (rdNat s (k + 16) 8, 8 * len * rdNat s (k + 12) 1)]
  else
    let block := if rdNat s (k + 12) 1 = 2 then 13312 else 516
    [(r.2, 64), (rdNat s (k + 32) 8, block), (rdNat s (k + 48) 8, 524288), (rdNat s (k + 56) 8, 524288)] ++
      (if rdNat s (k + 12) 1 = 2 then [(rdNat s (k + 40) 8, block)] else [])

/-- The page of a key that a context may write, key and size: by its tables, by a held translation, or a frame of an array of a region. -/
def snapPage (s : State) (c key : Nat) : Option (Nat × Nat) :=
  let o := key / 2 ^ 52
  let a := key % 2 ^ 52
  let in_ (b n : Nat) : Bool := decide (b ≤ a) && decide (a < b + n)
  if 4 ≤ o then none
  else match (ctxPages s o c).find? (fun p => p.wr && in_ p.frame p.size), (heldWrites s o c).find? (fun e => in_ e.attr.frame e.attr.size) with
    | some p, _ => some (mkey o p.frame, p.size)
    | none, some e => some (mkey o e.attr.frame, e.attr.size)
    | none, none =>
      if (writeRegions s o c).any (fun r => (regionRuns s o r).any (fun x => in_ x.1 x.2)) then some (key / 4096 * 4096, 4096) else none

/-! ### Snapshots (R351) -/

/-- Sixteenths of a 64 KiB frame that copies take. -/
def snapCost (l : Launch) : Nat := l.snaps.foldl (fun n p => n + max 1 (p.size / 4096)) 0

/-- Sixteenths of frames of the save pool of a context that are free (R301, R351). -/
def poolRoom (s : State) (c : Nat) : Nat :=
  let x := ctxAt s c
  16 * (x.savecnt.toNat - x.frames.length) - (s.launches.filter (fun p => p.2.ctx == c)).foldl (fun n p => n + snapCost p.2) 0

/-- A copy of a page. -/
def snapCopy (s : State) (b n : Nat) : Snap :=
  { key := b, size := n
    bytes := s.mem.filter (fun p => decide (b ≤ p.1) && decide (p.1 < b + n))
    pois := s.poison.filter (fun r => overlaps r.1 r.2 b n)
    cls := s.byteClass.filter (fun p => decide (b ≤ p.1) && decide (p.1 < b + n)) }

/-- The page of a key is copied for launch k before its first write after the start; without room its protection is lost. -/
def snapWrite (s : State) (key k : Nat) : State :=
  let l := launchAt s k
  if !l.snapArmed || snapTaken l key then s
  else match snapPage s l.ctx key with
    | none => s
    | some (b, n) =>
      if poolRoom s l.ctx < max 1 (n / 4096) then logEvent (modLaunch s k (fun l => { l with snapArmed := false })) 10 0 0 0xFF 0 l.launchid
      else modLaunch s k (fun l => { l with snaps := l.snaps ++ [snapCopy s b n] })

/-- Copy the pages that a write of n bytes at a key touches, for every launch that takes snapshots. -/
def copyOnWrite (s : State) (key n : Nat) : State :=
  let ks := (s.launches.filter (fun p => p.2.snapArmed)).map (fun p => p.1)
  if n = 0 ∨ ks = [] then s
  else
    let one (s : State) (x : Nat) : State := ks.foldl (fun s k => snapWrite s x k) s
    (List.range ((key + n - 1) / 4096 - key / 4096)).foldl (fun s i => one s ((key / 4096 + 1 + i) * 4096)) (one s key)

/-- Write bytes at an owner on a page of class cls: snapshots first, then the bytes, their class, and the poison that the write covers
(R338, R339, R351). -/
def ownerWrite (s : State) (key : Nat) (cls : RClass) (bs : List Byte) : State :=
  let s := copyOnWrite s key bs.length
  let s := wrBytes s key bs
  { s with
    poison := unpoison s.poison key bs.length
    byteClass := classWrite s.frameClass s.byteClass cls key bs.length
    errors := s.errors.filter (fun e => match e.place with
      | .hbm a m => !(decide (key ≤ a) && decide (a + m ≤ key + bs.length))
      | .table a => !(decide (key ≤ a) && decide (a + 4 ≤ key + bs.length))
      | _ => true) }

end Sys2Proof.Machine
end

