-- ==== Sys2Proof/Machine/Editions.lean ====
section
/-! DEFINITION. The edition service of an owner (R229 to R237). A cell is named by the key of its metadata. -/

namespace Sys2Proof.Machine

/-- An edition descriptor (R229); `base` names this package by PEER 0x1FF. -/
structure EdDesc where
  base : Nat
  length : Nat
  depth : Nat
  dclass : RClass
  store : Nat
  meta_ : Nat
  deriving DecidableEq, Repr

/-- Outcome of reading a descriptor: it may be inactive or hold a reserved value, or be poisoned. -/
inductive DescOut (α : Type) where
  | ok (d : α)
  | access
  | poison
  deriving DecidableEq, Repr

/-- The edition descriptor at a key (R229). -/
def edDesc (s : State) (k : Nat) : DescOut EdDesc :=
  if poisoned s.poison k 64 then .poison
  else
    let b := rdBytes s k 64
    let len := fld b 8 4
    if !bit (fld b 14 1) 0 || bits (fld b 14 1) 7 1 != 0 || fld b 15 1 != 0 || fld b 32 32 != 0 || decide (2 < fld b 13 1) ||
       fld b 12 1 == 0 || len == 0 || decide (2 ^ 24 < len) then .access
    else .ok ⟨ptrHome s (fld b 0 8), len, fld b 12 1, classOf (fld b 13 1), fld b 16 8, fld b 24 8⟩

/-- Index of the cell that holds an address, where it is a cell of the region (R229). -/
def edIndex (d : EdDesc) (va : W64) : Option Nat :=
  if d.base ≤ vaHome va ∧ vaHome va < d.base + 8 * d.length then some ((vaHome va - d.base) / 8) else none

/-- Key of a cell's metadata (R230). -/
def edCell (d : EdDesc) (owner i : Nat) : Nat := mkey owner (d.meta_ + 16 * i)
/-- Key of the slot of edition e of cell i (R230). -/
def edSlot (d : EdDesc) (owner i e : Nat) : Nat := mkey owner (d.store + 8 * (i * d.depth + e % d.depth))

/-- NEWEST, RELMARK and RELSET of a cell (R230). -/
def edNewest (s : State) (cell : Nat) : Nat := rdNat s cell 4
def edRelmark (s : State) (cell : Nat) : Nat := rdNat s (cell + 4) 4
def edRelset (s : State) (cell : Nat) : Bool := bit (rdNat s (cell + 8) 1) 0

/-- Edition e is reclaimed (R236). -/
def edReclaimed (s : State) (d : EdDesc) (cell e : Nat) : Bool :=
  e != edNewest s cell && (decide (d.depth + e ≤ edNewest s cell) || (edRelset s cell && decide (e ≤ edRelmark s cell)))

/-- The eight bytes of edition e. -/
def edBytes (s : State) (d : EdDesc) (owner i e : Nat) : List Byte := rdBytes s (edSlot d owner i e) 8

/-- Entries and registrations whose edition now exists are marked: their wakes are on the way (R200, R234, R235). -/
def markWakes (s : State) (cell n : Nat) : State :=
  { s with
    dies := s.dies.map (fun p => (p.1, { p.2 with waits := p.2.waits.map (fun w =>
      if w.cell = cell ∧ w.ed ≤ n then { w with due := true } else w) }))
    edRegs := s.edRegs.map (fun p => if p.2.cell = cell ∧ p.2.ed ≤ n then (p.1, { p.2 with due := true }) else p) }

/-- Create the next edition of a cell with these eight bytes, (R231). -/
def edCreate (s : State) (d : EdDesc) (owner i : Nat) (bs : List Byte) : State :=
  let cell := edCell d owner i
  let n := edNewest s cell + 1
  let s := ownerWrite s (edSlot d owner i n) d.dclass bs
  let s := ownerWrite s cell .proof (leBytes 4 n)
  markWakes s cell n

/-- `erel` (R138, R236). -/
def edRelease (s : State) (d : EdDesc) (owner i : Nat) (m : Nat) : State :=
  let cell := edCell d owner i
  let m' := if edRelset s cell then max (edRelmark s cell) m else m
  let s := ownerWrite s (cell + 4) .proof (leBytes 4 m')
  ownerWrite s (cell + 8) .proof (leBytes 1 (setBits (rdNat s (cell + 8) 1) 0 0 1))

/-- What an owner step answers: a value, that the thread parks, a trap, or consumed errors at keys. -/
inductive OwnOut where
  | val (x : Nat)
  | park (cell : Nat)
  | trap (c : Cause)
  | poison (keys : List Nat)
  deriving DecidableEq, Repr

/-- The newest edition's n bytes at offset ofs of its cell, as `ld` reads them (R122, R138). -/
def edReadNewest (s : State) (d : EdDesc) (owner i ofs n : Nat) : OwnOut :=
  let cell := edCell d owner i
  let k := edSlot d owner i (edNewest s cell)
  if poisoned s.poison cell 16 then .poison (badAt s cell 16)
  else if poisoned s.poison (k + ofs) n then .poison (badAt s (k + ofs) n)
  else .val (leNat (rdBytes s (k + ofs) n))

/-- `eld` of edition e (R138, R233, R237). -/
def edRead (s : State) (d : EdDesc) (owner i e ofs n : Nat) : OwnOut :=
  let cell := edCell d owner i
  if poisoned s.poison cell 16 then .poison (badAt s cell 16)
  else if edNewest s cell < e then .park cell
  else if edReclaimed s d cell e then .trap .editionGone
  else
    let k := edSlot d owner i e + ofs
    if poisoned s.poison k n then .poison (badAt s k n) else .val (leNat (rdBytes s k n))

/-- `enew` (R138). -/
def edQuery (s : State) (d : EdDesc) (owner i : Nat) : OwnOut :=
  let cell := edCell d owner i
  if poisoned s.poison cell 16 then .poison (badAt s cell 16) else .val (edNewest s cell)

/-- The bytes of a new edition: the newest's with the accessed ones replaced (R138). -/
def edReplace (old : List Byte) (ofs : Nat) (bs : List Byte) : List Byte :=
  old.take ofs ++ bs ++ old.drop (ofs + bs.length)

/-- `est` or a store (R138, R231, R232): the state after the step and the new edition's number, or the trap. -/
def edStore (s : State) (d : EdDesc) (owner i ofs : Nat) (bs : List Byte) : State × OwnOut :=
  let cell := edCell d owner i
  if poisoned s.poison cell 16 then (s, .poison (badAt s cell 16))
  else
    let n := edNewest s cell
    let k := edSlot d owner i n
    if n = 2 ^ 32 - 1 then (s, .trap .editionOverflow)
    else if bs.length < 8 ∧ poisoned s.poison k 8 = true then (s, .poison (badAt s k 8))
    else (edCreate s d owner i (edReplace (edBytes s d owner i n) ofs bs), .val (n + 1))

end Sys2Proof.Machine
end

