-- ==== Sys2Proof/Machine/Plates.lean ====
section
/-! DEFINITION. The plate unit of an owner and the Caster's refits (R242 to R255). A region is named by the key of its
descriptor. -/

namespace Sys2Proof.Machine

/-- A plate descriptor (R242); `base` names this package by PEER 0x1FF. -/
structure PlDesc where
  base : Nat
  length : Nat
  mlp : Bool
  fmt : Fmt
  knots : Nat
  side : Bool
  tol : Nat
  timeout : Nat
  castcnt : Nat
  thresh : Nat
  params : Nat
  staged : Nat
  err0 : Nat
  err1 : Nat
  deriving DecidableEq, Repr

/-- The plate descriptor at a key (R242). -/
def plDesc (s : State) (k : Nat) : DescOut PlDesc :=
  if poisoned s.poison k 64 then .poison
  else
    let b := rdBytes s k 64
    let len := fld b 8 4
    let tpl := fld b 12 1
    let kn := fld b 14 1
    let fl := fld b 15 1
    let tol := fld b 16 4
    let fmt := match fld b 13 1 with
      | 8 => some Fmt.f32
      | 9 => some Fmt.f16
      | 10 => some Fmt.bf16
      | _ => none
    let okTol := match fmtDecode .f32 tol with
      | .fin n m _ => !n || m == 0
      | _ => false
    match fmt with
    | none => .access
    | some f =>
      if !bit fl 0 || bits fl 7 3 != 0 || len == 0 || decide (2 ^ 24 < len) || tpl == 0 || decide (2 < tpl) ||
         (tpl == 1 && (kn == 0 || decide (64 < kn))) || (tpl == 2 && kn != 0) || !okTol || fld b 20 4 == 0 || fld b 30 2 != 0 then
        .access
      else .ok ⟨ptrHome s (fld b 0 8), len, tpl == 2, f, kn, bit fl 1, tol, fld b 20 4, fld b 24 4,
                (if fld b 28 2 = 0 then 65536 else fld b 28 2), fld b 32 8, fld b 40 8, fld b 48 8, fld b 56 8⟩

/-- Bytes of a parameter block (R245, R246). -/
def plBlockSize (d : PlDesc) : Nat := if d.mlp then 13312 else 516

/-! ### Evaluation (R245, R246) -/

/-- Round(w * x + acc, f32, RNE): the step that every template takes. -/
def plStep (fw : Fmt) (w : Nat) (x : FVal) (acc : Nat) : Nat :=
  roundNE .f32 (fvSum false [fvMul (fmtDecode fw w) x, term (fmtDecode .f32 acc)])

/-- EvalPlate for PL (R245): the knots still to add. -/
def evalPl (p : List Byte) (i : Nat) : Nat → Nat → Nat → Nat
  | 0, _, acc => acc
  | n + 1, j, acc =>
    evalPl p i n (j + 1) (plStep .f32 (fld p (260 + 4 * j) 4) (.fin false (i - fld p (4 + 4 * j) 4) 0) acc)

/-- A dot of a row of bf16 weights with bf16 inputs, added one by one (R246). -/
def mlpDot (p : List Byte) : Nat → List Nat → Nat → Nat
  | _, [], acc => acc
  | ofs, x :: xs, acc => mlpDot p (ofs + 2) xs (plStep .bf16 (fld p ofs 2) (fmtDecode .bf16 x) acc)

/-- Round(Relu(acc), bf16) (R246). -/
def mlpRelu (acc : Nat) : Nat :=
  match fmtDecode .f32 acc with
  | .nan _ => roundNE .bf16 (.nan false)
  | x => if fvLt (.fin false 0 0) x then roundNE .bf16 x else 0

/-- EvalPlate for MLP before the final rounding (R246). -/
def evalMlp (p : List Byte) (i : Nat) : Nat :=
  let nf := fld p 0 1
  let h1 := fld p 1 1
  let h2 := fld p 2 1
  let u := ((List.range nf).map (fun f =>
    let θ := i * fld p (8 + 4 * f) 4 % 2 ^ 24
    [roundNE .bf16 (fvSin θ), roundNE .bf16 (fvCos θ)])).flatten
  let a1 := (List.range h1).map (fun j => mlpRelu (mlpDot p (72 + 64 * j) u (fld p (4168 + 4 * j) 4)))
  let a2 := (List.range h2).map (fun j => mlpRelu (mlpDot p (4424 + 128 * j) a1 (fld p (12616 + 4 * j) 4)))
  mlpDot p 12872 a2 (fld p 13000 4)

/-- EvalPlate(R, i) under a parameter block: a code of ELEMFMT. -/
def evalPlate (d : PlDesc) (p : List Byte) (i : Nat) : Nat :=
  let acc := if d.mlp then evalMlp p i else evalPl p i d.knots 0 (fld p 0 4)
  roundNE d.fmt (fmtDecode .f32 acc)

/-- Near(v, s, τ) for codes of ELEMFMT (R244). -/
def plNear (d : PlDesc) (v s : Nat) : Bool :=
  match fmtDecode .f32 d.tol with
  | .fin _ 0 _ => v == s
  | t =>
    match fmtDecode d.fmt v, fmtDecode d.fmt s with
    | .nan _, .nan _ => true
    | .inf a, .inf b => a == b
    | .fin a m e, .fin b n q =>
      match fvSum false [term (.fin a m e), term (.fin (!b) n q)] with
      | .fin _ x y => !fvLt t (.fin false x y)
      | _ => false
    | _, _ => false

/-! ### Errata lists (R243) -/

/-- The key of an owner-physical address at the owner of a key. -/
def ownKey (k a : Nat) : Nat := k / 2 ^ 52 * 2 ^ 52 + a % 2 ^ 52

/-- Entries of list 0 or list 1. -/
def plCount (p : Plate) (side : Bool) : Nat := if side then p.len1 else p.len0
def plSetCount (p : Plate) (side : Bool) (n : Nat) : Plate := if side then { p with len1 := n } else { p with len0 := n }
/-- Capacity of a list (R243). -/
def plCap : Nat := 65536

/-- Key of entry j of a list of the region at k. -/
def plEntry (k : Nat) (d : PlDesc) (side : Bool) (j : Nat) : Nat := ownKey k (if side then d.err1 else d.err0) + 8 * j

/-- The entry of a list that holds the erratum for index i. -/
def plSlot (s : State) (k : Nat) (d : PlDesc) (side : Bool) (i : Nat) : Option Nat :=
  (List.range (plCount (plateAt s k) side)).find? (fun j => rdNat s (plEntry k d side j) 3 == i)

/-- The code of a list's erratum for index i. -/
def plErr (s : State) (k : Nat) (d : PlDesc) (side : Bool) (i : Nat) : Option Nat :=
  (plSlot s k d side i).map (fun j => rdNat s (plEntry k d side j + 4) 4)

/-- Put an erratum into a list: in the place of the one for its index, else at the end. -/
def plPut (s : State) (k : Nat) (d : PlDesc) (side : Bool) (i code : Nat) : State :=
  let n := plCount (plateAt s k) side
  let j := (plSlot s k d side i).getD n
  let a := plEntry k d side j
  modPlate (ownerWrite s a (byteClassOf s a) (leBytes 4 i ++ leBytes 4 code)) k (fun p => plSetCount p side (max n (j + 1)))

/-- The active parameter block. -/
def plParams (s : State) (k : Nat) (d : PlDesc) : List Byte := rdBytes s (ownKey k d.params) (plBlockSize d)

/-- The true value of index i (R247): the erratum, else the plate. -/
def plTrue (s : State) (k : Nat) (d : PlDesc) (i : Nat) : Nat := (plErr s k d d.side i).getD (evalPlate d (plParams s k d) i)

/-- A plated load of index i (R247): the erratum of the current list, else the plate's value. -/
def plLoad (s : State) (k i : Nat) : OwnOut :=
  match plDesc s k with
  | .poison => .poison (badAt s k 64)
  | .access => .trap .access
  | .ok d =>
    if d.length ≤ i then .trap .access
    else match plSlot s k d d.side i with
      | some j =>
        let a := plEntry k d d.side j
        if poisoned s.poison a 8 then .poison (badAt s a 8) else .val (rdNat s (a + 4) 4)
      | none =>
        if poisoned s.poison (ownKey k d.params) (plBlockSize d) then .poison (badAt s (ownKey k d.params) (plBlockSize d))
        else .val (evalPlate d (plParams s k d) i)

/-- `pquery` (R139): the errata count low, the cast count high. -/
def plQuery (s : State) (k : Nat) : OwnOut :=
  match plDesc s k with
  | .poison => .poison (badAt s k 64)
  | .access => .trap .access
  | .ok d => .val (plCount (plateAt s k) d.side + 2 ^ 32 * d.castcnt)

/-! ### Requests and stores (R248, R249) -/

/-- A die's Caster runs this region's refit. -/
def plRunning (p : Plate) : Bool := p.refit != .idle

/-- Request a refit (R249). -/
def plRequest (s : State) (k : Nat) : State :=
  let p := plateAt s k
  if p.pend then s
  else
    let s := modPlate s k (fun p => { p with pend := true })
    if plRunning p then s else modDie s (k / 2 ^ 52) (fun x => { x with pending := x.pending ++ [k] })

/-- The refit of a region ends: another pending one enters the die's order (R249). -/
def plEnd (s : State) (k : Nat) : State :=
  let p := plateAt s k
  let s := modPlate s k (fun p => { p with refit := .idle, new := [], served := p.served + 1 })
  let s := { s with caster := tDel s.caster (k / 2 ^ 52) }
  if p.pend then modDie s (k / 2 ^ 52) (fun x => { x with pending := x.pending ++ [k] }) else s

/-- Write a flag bit of FLAGS (R242). -/
def plFlag (s : State) (k b : Nat) (v : Bool) : State :=
  ownerWrite s (k + 15) .proof (leBytes 1 (setBits (rdNat s (k + 15) 1) b b (b2n v)))

/-- Abandon the running refit (R252). -/
def plAbandon (s : State) (k : Nat) : State :=
  let side := bit (rdNat s (k + 15) 1) 1
  plEnd (plFlag (modPlate s k (fun p => plSetCount p (!side) 0)) k 2 true) k

/-- A store step of a code at index i (R248): false where it does not take place and is to be held. -/
def plStore (s : State) (k : Nat) (d : PlDesc) (i code : Nat) : State × Bool :=
  let p := plateAt s k
  let has := (plSlot s k d d.side i).isSome
  if !has && decide (plCap ≤ plCount p d.side) then (s, false)
  else
    let full := plRunning p && (plSlot s k d (!d.side) i).isNone && decide (plCap ≤ plCount p (!d.side))
    let s := if full then plAbandon s k else s
    let s := plPut s k d d.side i code
    let s := if plRunning (plateAt s k) then plPut s k d (!d.side) i code else s
    if !has && decide (d.thresh ≤ plCount (plateAt s k) d.side) then (plRequest s k, true) else (s, true)

/-- Words of the staged image that `pset` may write (R139, R246). -/
def plWords (d : PlDesc) : Nat := if d.mlp then 3328 else 0

/-- `pset` of a word (R139). -/
def plSet (s : State) (k : Nat) (d : PlDesc) (cls : RClass) (i : Nat) (w : W32) : State :=
  ownerWrite s (ownKey k (d.staged + 4 * i)) cls (leBytes 4 w.toNat)

/-! ### The refit (R250, R251) -/

/-- The staged MLP image is in range (R250 step 3). -/
def plImageOk (p : List Byte) : Bool :=
  let ok (x hi : Nat) : Bool := decide (1 ≤ x) && decide (x ≤ hi)
  ok (fld p 0 1) 16 && ok (fld p 1 1) 64 && ok (fld p 2 1) 64 && ((p.drop 3).take 5).all (fun b => b == 0) &&
  (List.range 16).all (fun f => decide (fld p (8 + 4 * f) 4 < 2 ^ 24)) && ((p.drop 13004).take 308).all (fun b => b == 0)

/-- Start a refit of the first pending region of a die (R249, R250 steps 1 and 3). -/
def plStart (s : State) (die : Nat) : State :=
  match (dieAt s die).pending with
  | [] => s
  | k :: ks =>
    if (tGet? s.caster die).isSome then s
    else match plDesc s k with
    | .ok d =>
      let s := modDie s die (fun x => { x with pending := ks })
      let img := if d.mlp then rdBytes s (ownKey k d.staged) 13312 else plParams s k d
      let s := { s with caster := tPut s.caster die k }
      let s := modPlate s k (fun p => plSetCount { p with pend := false, new := img, refit := if d.mlp then .verify 0 else .fit [] } (!d.side) 0)
      if d.mlp && !plImageOk img then plAbandon s k else s
    | _ => modDie s die (fun x => { x with pending := ks })

/-- x / n rounded to f32 with RNE, x exact (R251). -/
def divRound (x : FVal) (n : Nat) : Nat :=
  match x with
  | .fin neg m e =>
    if m = 0 then roundNE .f32 x
    else
      let k := bitLen n + 64
      roundNE .f32 (sticky neg (m * 2 ^ k / n) (m * 2 ^ k % n == 0) (e - k))
  | x => roundNE .f32 x

/-- Slopes m_0 .. m_(n-1) of R251 from knot indices and values. -/
def plSlopes : List Nat → List FVal → List Nat
  | k0 :: k1 :: ks, s0 :: s1 :: ss =>
    divRound (fvSum false [term s1, term (fvNeg s0)]) (k1 - k0) :: plSlopes (k1 :: ks) (s1 :: ss)
  | _ :: _, _ :: _ => [0]
  | _, _ => []

/-- W_0 .. of R251: differences of the slopes, the one before the first being 0. -/
def plWeights : Nat → List Nat → List Nat
  | _, [] => []
  | prev, m :: ms =>
    roundNE .f32 (fvSum false [term (fmtDecode .f32 m), term (fvNeg (fmtDecode .f32 prev))]) :: plWeights m ms

/-- The parameter block that the fit of R251 gives from the knot values (codes of ELEMFMT). -/
def plFit (d : PlDesc) (old : List Byte) (vals : List Nat) : List Byte :=
  let ks := (List.range d.knots).map (fun j => fld old (4 + 4 * j) 4)
  let ss := vals.map (fmtDecode d.fmt)
  let ws := plWeights 0 (plSlopes ks ss)
  leBytes 4 (roundNE .f32 (ss.headD (.fin false 0 0))) ++ (old.drop 4).take 256 ++
    (ws.map (leBytes 4)).flatten ++ old.drop (260 + 4 * ws.length)

/-- Read the next knot of the refit that a die runs (R250 step 2). -/
def plKnot (s : State) (die : Nat) : State :=
  match tGet? s.caster die with
  | none => s
  | some k =>
    match plDesc s k, (plateAt s k).refit with
    | .ok d, .fit vals =>
      let vals := vals ++ [plTrue s k d (fld (plateAt s k).new (4 + 4 * vals.length) 4)]
      modPlate s k (fun p =>
        if vals.length < d.knots then { p with refit := .fit vals }
        else { p with refit := .verify 0, new := plFit d p.new vals })
    | _, _ => s

/-- Verify the next index of the refit that a die runs (R250 step 4). -/
def plVerify (s : State) (die : Nat) : State :=
  match tGet? s.caster die with
  | none => s
  | some k =>
    match plDesc s k, (plateAt s k).refit with
    | .ok d, .verify i =>
      let p := plateAt s k
      let t := plTrue s k d i
      let go (s : State) : State := modPlate s k (fun p => { p with refit := if i + 1 < d.length then .verify (i + 1) else .done })
      if (plSlot s k d (!d.side) i).isSome || plNear d (evalPlate d p.new i) t then go s
      else if plCap ≤ plCount p (!d.side) then plAbandon s k
      else go (plPut s k d (!d.side) i t)
    | _, _ => s

/-- The swap of the refit that a die runs (R250 step 5), without the retry of held requests: the region, if it swapped. -/
def plSwap (s : State) (die : Nat) : State × Option Nat :=
  match tGet? s.caster die with
  | none => (s, none)
  | some k =>
    match plDesc s k, (plateAt s k).refit with
    | .ok d, .done =>
      let pk := ownKey k d.params
      let s := ownerWrite s pk (byteClassOf s pk) (plateAt s k).new
      let s := plFlag (plFlag s k 1 (!d.side)) k 2 false
      let s := ownerWrite s (k + 24) .proof (leBytes 4 (d.castcnt + 1))
      let s := modPlate s k (fun p => plSetCount p d.side 0)
      (plEnd s k, some k)
    | _, _ => (s, none)

end Sys2Proof.Machine
end

