-- ==== Sys2Proof/Machine/Tags.lean ====
section
/-! DEFINITION. Fields of tile tags (R133), Feeder descriptors (R267) and Press command records (R259), and where a copy's
bytes lie in its destination (R270). -/

namespace Sys2Proof.Machine

/-! ### Tile tags (R133) -/

def tagFmt (t : Nat) : Nat := bits t 4 0
def tagP8d (t : Nat) : Nat := bits t 9 5
def tagBlock (t : Nat) : Nat := bits t 12 10
def tagLayout (t : Nat) : Nat := bits t 15 13
def tagValid (t : Nat) : Bool := bit t 16

/-! ### Feeder descriptor (R267) -/

def fdSrc (d : List Byte) : Nat := bits (fld d 0 1) 3 0
def fdDst (d : List Byte) : Nat := bits (fld d 0 1) 7 4
def fdUnit (d : List Byte) : Nat := fld d 1 1
def fdFlag (d : List Byte) (i : Nat) : Bool := bit (fld d 2 1) i
def fdXclass (d : List Byte) : Bool := fdFlag d 0
def fdCond (d : List Byte) : Bool := fdFlag d 1
def fdFollow (d : List Byte) : Bool := fdFlag d 2
def fdArr (d : List Byte) : Bool := fdFlag d 3
def fdBkt (d : List Byte) : Bool := fdFlag d 4
def fdSg (d : List Byte) : Bool := fdFlag d 5
def fdTagsrc (d : List Byte) : Bool := fdFlag d 6
def fdSA (d : List Byte) : Nat := fld d 8 8
def fdDA (d : List Byte) : Nat := fld d 16 8
def fdExt (d : List Byte) (k : Nat) : Nat := fld d (24 + 2 * k) 2
def fdStr (d : List Byte) (k : Nat) : Int := sext 32 (fld d (36 + 4 * k) 4)
def fdTag (d : List Byte) : Nat := fld d 56 4
def fdFollowAt (d : List Byte) : Nat := fld d 60 4
/-- Units that the copy moves. -/
def fdUnits (d : List Byte) : Nat := (List.range 5).foldl (fun n k => n * fdExt d k) 1
/-- Bytes that the copy moves. -/
def fdBytes (d : List Byte) : Nat := fdUnits d * 2 ^ fdUnit d

/-! ### Press command record (R259) -/

def pcOpc (r : List Byte) : Nat := fld r 0 1
def pcBank (r : List Byte) : Nat := fld r 1 1
def pcWa (r : List Byte) : Nat := fld r 2 1
def pcKba (r : List Byte) : Nat := fld r 3 1
def pcKbb (r : List Byte) : Nat := fld r 4 1
def pcFlag (r : List Byte) (i : Nat) : Bool := bit (fld r 5 1) i
def pcClear (r : List Byte) : Bool := pcFlag r 0
def pcStamp (r : List Byte) : Bool := pcFlag r 1
def pcWaitb (r : List Byte) : Bool := pcFlag r 2
def pcArr (r : List Byte) : Bool := pcFlag r 3
def pcTopk (r : List Byte) : Nat := fld r 6 1
def pcArrn (r : List Byte) : Nat := fld r 7 1
def pcAring (r : List Byte) : Nat := fld r 8 4
def pcRtiles (r : List Byte) : Nat := fld r 12 2
def pcAoff (r : List Byte) : Nat := fld r 16 4
def pcAscale (r : List Byte) : Nat := fld r 20 4
def pcM (r : List Byte) : Nat := fld r 24 2
def pcK (r : List Byte) : Nat := fld r 26 2
def pcNcol (r : List Byte) : Nat := fld r 28 2
def pcRow0 (r : List Byte) : Nat := fld r 30 2
def pcWbar (r : List Byte) : Nat := fld r 32 2
def pcAbar (r : List Byte) : Nat := fld r 34 2
def pcWtok (r : List Byte) : W32 := BitVec.ofNat 32 (fld r 36 4)
def pcColo (r : List Byte) : W64 := BitVec.ofNat 64 (fld r 40 8)
def pcTaga (r : List Byte) : Nat := fld r 48 4

/-! ### Places of a copy's bytes (R270) -/

/-- Where linear byte o of a tile is stored, by LAYOUT; a condensed tile has no such place. -/
def layoutByte (lay o : Nat) : Nat :=
  match lay with
  | 2 => o ^^^ (o / 256 % 8 * 32)
  | 3 => o ^^^ (o / 512 % 8 * 64)
  | _ => o

/-- Scratch address of stream byte b of a copy to address dst with LAYOUT lay. -/
def copyPlace (lay dst b : Nat) : Nat := (dst + b) / 4096 * 4096 + layoutByte lay ((dst + b) % 4096)

/-! ### The tiles of a copy (R206, R212, R270) -/

/-- The width of a tag's elements; 8 where its format is reserved. -/
def tagWidth (t : Nat) : Nat := ((fmtOf (tagFmt t) (tagP8d t)).map fmtWidth).getD 8

/-- Stream bytes that a tile of the destination takes, and the offset of the first in its tile. -/
def tilePer (d : List Byte) (t : Nat) : Nat × Nat :=
  if fdCond d then (256 * tagWidth t, 0) else (4096, fdDA d % 4096)

/-- The tile that takes stream byte b. -/
def tileOf (d : List Byte) (t b : Nat) : Nat := fdDA d % 2 ^ 32 / 4096 + (b + (tilePer d t).2) / (tilePer d t).1

/-- First stream byte of a tile and the byte after its last. -/
def tileSpan (d : List Byte) (t k : Nat) : Nat × Nat :=
  let p := tilePer d t
  let j := k - fdDA d % 2 ^ 32 / 4096
  (j * p.1 - p.2, min ((j + 1) * p.1 - p.2) (fdBytes d))

/-- Tiles that a copy writes. -/
def copyTiles (d : List Byte) (t : Nat) : List Nat :=
  if fdDst d ≠ 1 ∨ fdBytes d = 0 then []
  else (List.range (tileOf d t (fdBytes d - 1) + 1 - tileOf d t 0)).map (fun k => tileOf d t 0 + k)

/-! ### Condensed tiles as they are made (R212) -/

/-- Run b of a list cut into runs of n. -/
def runAt {α : Type} (n : Nat) (l : List α) (b : Nat) : List α := (l.drop (b * n)).take n

/-- Bytes of a group with this mask. -/
def groupLen (w mask : Nat) : Nat := 4 + (popcW 32 mask * w + 31) / 32 * 4

/-- Sub-stream bytes of the groups k, k + 16, ... of a run of elements: masks and non-zero codes (R212). -/
def condPack (w : Nat) (codes : List Nat) (k : Nat) : List Byte :=
  (List.range 4).flatMap (fun i =>
    let els := runAt 32 codes (k + 16 * i)
    let mask := ((List.range 32).filter (fun j => nth 0 els j != 0)).foldl (fun m j => m + 2 ^ j) 0
    let nz := els.filter (fun c => c != 0)
    let packed := nz.foldr (fun c r => c % 2 ^ w + 2 ^ w * r) 0
    leBytes 4 mask ++ leBytes (groupLen w mask - 4) packed)

/-- The bytes of a condensed tile of 2,048 elements: header entries, then the sub-streams one after another. -/
def condTile (w : Nat) (codes : List Nat) : List Byte :=
  let subs := (List.range 16).map (condPack w codes)
  let heads := (List.range 16).flatMap (fun k =>
    leBytes 4 (4 * 2 ^ 16 + 16 + ((subs.take k).map List.length).foldl (· + ·) 0 / 4))
  heads ++ subs.flatMap id

/-- Every stream byte of a tile has been read, and the tile has not landed. -/
def tileDue (c : Cmd) (d : List Byte) (k : Nat) : Bool :=
  let sp := tileSpan d c.tagw k
  !c.landedTiles.contains k && (copyTiles d c.tagw).contains k &&
    (List.range (sp.2 - sp.1)).all (fun i => (smGet none c.buf (sp.1 + i)).isSome)

/-- Bytes of a condensed tile that nothing fixes follow those that R212 gives. -/
def condBytes (s : State) (c : Cmd) (d : List Byte) (k : Nat) : List Byte :=
  let sp := tileSpan d c.tagw k
  let w := tagWidth c.tagw
  let x := leNat ((List.range (sp.2 - sp.1)).map (fun i => (smGet none c.buf (sp.1 + i)).getD 0))
  let bs := condTile w ((List.range 2048).map (fun e => x / 2 ^ (w * e) % 2 ^ w))
  bs ++ freeBytes s (4096 - bs.length)

/-- Bytes of a copy that lie in a tile, with their places. -/
def tileBytes (s : State) (c : Cmd) (d : List Byte) (k : Nat) : List (Nat × Byte) :=
  if fdCond d then ((List.range 4096).zip (condBytes s c d k)).map (fun p => (k * 4096 + p.1, p.2))
  else
    let sp := tileSpan d c.tagw k
    (List.range (sp.2 - sp.1)).filterMap (fun i =>
      (smGet none c.buf (sp.1 + i)).map (fun b => (copyPlace (tagLayout c.tagw) (fdDA d % 2 ^ 32) (sp.1 + i), b)))

/-! ### What is being written (R207, R266) -/

/-- Bytes that a running copy has read for a gang's tiles and that have not landed: their places. A condensed tile's bytes are known where
its elements have all been read. -/
def flying (s : State) (c : Cmd) (gang : Nat) : List (Nat × Byte) :=
  match c.kind with
  | .copy d _ =>
    if c.state ≠ .running ∨ c.by_.gang ≠ gang ∨ fdDst d ≠ 1 then []
    else if tagLayout c.tagw = 4 then ((copyTiles d c.tagw).filter (tileDue c d)).flatMap (tileBytes s c d)
    else c.buf.filterMap (fun p => p.2.map (fun b => (copyPlace (tagLayout c.tagw) (fdDA d % 2 ^ 32) p.1, b)))
  | _ => []

/-- A byte that an engine is writing into a gang's tiles (R207). -/
def flyingByte (s : State) (gang a : Nat) : Option Byte :=
  (s.cmds.flatMap (fun p => flying s p.2 gang)).findSome? (fun q => if q.1 = a then some q.2 else none)

/-- An accumulator word that a Press command of the gang is writing (R131). -/
def flyingWord (s : State) (gang w : Nat) : Option W32 :=
  (s.cmds.flatMap (fun p => if p.2.by_.gang = gang then p.2.stage else [])).findSome? (fun q => if q.1 = w then some q.2 else none)

/-- Whether an engine's read of a place, in one step of the device, comes before a write that nothing orders with it. -/
def readsOld (s : State) (x : Nat) : Bool := bit (Config.openByte s.epoch (2 ^ 80 + x)).toNat 0

/-- A scratch byte as an engine command reads it: one that a thread has stored since the command was issued is the old or the new
(R207). -/
def engByte (s : State) (c : Cmd) (a : Nat) : Byte :=
  match tGet? c.old a with
  | some b => if readsOld s a then b else smGet 0 (gangAt s c.by_.gang).scratch a
  | none => smGet 0 (gangAt s c.by_.gang).scratch a

/-- An accumulator word as a copy reads it: one that a running compute command writes is the one before or after that write (R266). -/
def engWord (s : State) (c : Cmd) (w : Nat) : W32 :=
  let x := smGet 0 (gangAt s c.by_.gang).acc w
  match flyingWord s c.by_.gang w with
  | some y => if readsOld s (2 ^ 40 + w) then x else y
  | none => x

/-- A gang's arrays as a Press command reads them (R207). -/
def engGang (s : State) (c : Cmd) : Gang :=
  let g := gangAt s c.by_.gang
  { g with scratch := c.old.foldl (fun m p => smSet 0 m p.1 (engByte s c p.1)) g.scratch }

/-- A thread stores to scratch bytes: the commands of its gang keep what those were when they were issued (R207). -/
def noteOld (s : State) (gang a n : Nat) : State :=
  let g := gangAt s gang
  { s with cmds := s.cmds.map (fun p => (p.1, if p.2.by_.gang = gang then
      { p.2 with old := (List.range n).foldl (fun t i =>
          if (tGet? t (a + i)).isSome then t else tPut t (a + i) (smGet 0 g.scratch (a + i))) p.2.old }
    else p.2)) }

end Sys2Proof.Machine
end

