-- ==== Sys2Proof/Machine/Order.lean ====
section
/-! DEFINITION. The ordering machine (R214 to R226): entries, owner steps, the moves of R216, and where a load reads. -/

namespace Sys2Proof.Machine

/-! ### Counters (R143) -/

def ctrGet (g : Group) : Ctr → Nat
  | .ld => g.ld | .st => g.st | .cp => g.cp | .tl => g.tl

def ctrSet (g : Group) (c : Ctr) (n : Nat) : Group :=
  match c with
  | .ld => { g with ld := n }
  | .st => { g with st := n }
  | .cp => { g with cp := n }
  | .tl => { g with tl := n }

/-- Raise a counter for one instruction, its access being number a with n lanes (R143). -/
def beginAcc (s : State) (u a : Nat) (c : Ctr) (n : Nat) : State :=
  if n = 0 then s
  else modGrp s u (fun g => { ctrSet g c (ctrGet g c + 1) with accs := tPut g.accs a ⟨c, n⟩ })

/-- One lane of an access is done: with the last one the counter falls (R143). -/
def endAcc (s : State) (u a : Nat) : State :=
  modGrp s u (fun g =>
    match tGet? g.accs a with
    | none => g
    | some x =>
      if x.left ≤ 1 then { ctrSet g x.ctr (ctrGet g x.ctr - 1) with accs := tDel g.accs a }
      else { g with accs := tPut g.accs a { x with left := x.left - 1 } })

/-! ### Threads that wait -/

/-- A waiting thread runs again, from the cycle after this one (R190). -/
def wakeLane (s : State) (u l : Nat) : State := modLane s u l (fun ln => { ln with st := .run, readyAt := s.cycle + 1 })

/-- A waiting thread finishes its instruction. -/
def finishWait (s : State) (u l : Nat) : State :=
  modLane s u l (fun ln => { advance (finishQ ln) ln.ilen with st := .run, readyAt := s.cycle + 1 })

/-- A waiting thread takes a trap at the instruction it is inside (R123). -/
def trapWait (s : State) (u l : Nat) (c : Cause) (txval : W64) : State :=
  let pc := posAddr (lane s u l).at_
  let s := modLane s u l (fun ln => { ln with readyAt := s.cycle + 1, qdue := [] })
  trapRegion s u l c txval pc

/-- A lane takes the trap that its access meets at the owner (R123): at the instruction of the access, wherever the lane is, its own commit
failed and what it changed at its issue given back. A lane that has exited takes none. -/
def trapLate (s : State) (u l acc : Nat) (un : Option Undo) (c : Cause) (txval pc : W64) : State :=
  if (lane s u l).st = .exited then s
  else
    let s := match (lane s u l).eldGot with
      | some p => endAcc s u p.1.acc
      | none => s
    let id := takeFresh (flushH s u l)
    let s := modLane id.2 u l (fun ln =>
      { commitFail (gangOf s u).privsz u l id.1 acc (undoLane ln un) with readyAt := s.cycle + 1, qdue := [], eldAcc := none })
    trapRegion s u l c txval pc

/-- A lane consumes the error that its access meets at the owner (R350). -/
def poisonLate (s : State) (u l acc : Nat) (keys : List Nat) (un : Option Undo) (va pc : W64) : State :=
  let p := consume s (launchOf s u) (snapHolds (launchAt s (launchOf s u)) keys)
  if p.2 then trapLate p.1 u l acc un .poison va pc else p.1

/-- Write a result of n words to a target. -/
def writeTarget (s : State) (u l : Nat) (t : Target) (x : Nat) : State :=
  if t.cnt = 0 then s else modLane s u l (fun ln => setRegs ln (targetReg t) t.cnt x)

/-! ### Entries and where they are -/

/-- Entries of a thread that lie in its FIFO. -/
def inFifo (s : State) (u l : Nat) : List FEntry := (lane s u l).fifo
/-- Entries of a thread in the core view. -/
def inView (s : State) (u l : Nat) : List FEntry := (coreAt s (coreOf s u)).view.filter (fun e => e.uid == u && e.lane == l)
/-- Entries of a thread on their way to an owner. -/
def inLinks (s : State) (u l : Nat) : List FEntry :=
  s.links.filterMap (fun p => match p.2 with
    | .entry e _ => if e.uid = u ∧ e.lane = l then some e else none
    | .read .. => none)
/-- Plated stores of a thread that a plate unit holds (R248). -/
def inHeld (s : State) (u l : Nat) : List FEntry :=
  (s.plates.map (fun p => p.2.held.filterMap (fun h => if h.e.uid = u ∧ h.e.lane = l then some h.e else none))).flatten
/-- Loads of a thread that have been sent and not performed, by number. -/
def readsOut (s : State) (u l : Nat) : List (Nat × ReadReq) :=
  s.links.filterMap (fun p => match p.2 with
    | .entry .. => none
    | .read r _ => if r.uid = u ∧ r.lane = l then some (p.1, r) else none)

/-- A store of ordinary bytes. -/
def isBytes (e : FEntry) : Bool :=
  match e.act with
  | .bytes _ => true
  | _ => false

/-- A store of a whole ordinary cell or of an element in it: bytes, or bits (R129). -/
def isStore (e : FEntry) : Bool :=
  match e.act with
  | .bytes _ | .bits .. => true
  | _ => false

/-- An entry that acts on a local array, at Leave (R225). -/
def isLocal (e : FEntry) : Bool :=
  match e.act with
  | .scratch _ => true
  | .priv _ => true
  | .tag _ => true
  | _ => false

/-- An atomic: it carries an acquire half under `.ar` and `.sc` (R219). -/
def isAtomic (e : FEntry) : Bool :=
  match e.act with
  | .atom .. => true
  | .atomEd .. => true
  | _ => false

/-- A releasing entry (R219). -/
def isRelease (e : FEntry) : Bool := e.sem == .acqrel || e.sem == .sc
/-- An entry that acquires when it is performed: a sequentially consistent one, or an atomic with `.ar` (R219). -/
def isAcqEntry (e : FEntry) : Bool := e.sem == .sc || (isAtomic e && e.sem == .acqrel)
/-- A load that acquires (R219). -/
def isAcqRead (r : ReadReq) : Bool := r.sem == .acqrel || r.sem == .sc

/-- Scopes at the point of the owner (R219). -/
def devScope (s : Scope) : Bool := s == .pkg || s == .pod

/-- The runs in which n bytes from a place lie: with a tail, the bytes beyond its page lie there (R128). -/
def pieces (pa n : Nat) (tail : Option (Nat × RClass)) : List (Nat × Nat) :=
  match tail with
  | none => [(pa, n)]
  | some t => let m := 4096 - pa % 4096
    [(pa, m), (t.1, n - m)]

/-- The same with the class of the page of each. -/
def clsPieces (cls : RClass) (pa n : Nat) (tail : Option (Nat × RClass)) : List (RClass × Nat × Nat) :=
  (cls :: (tail.map (fun t => t.2)).toList).zip (pieces pa n tail)

/-- The runs of an entry: by pointer at another package. -/
def entryRuns (e : FEntry) : List (Nat × Nat) :=
  if e.peer.isSome then [(e.va.toNat, max 1 e.size)] else pieces e.pa (max 1 e.size) e.tail

/-- Some run overlaps n bytes from a. -/
def runsHit (rs : List (Nat × Nat)) (a n : Nat) : Bool := rs.any (fun r => overlaps r.1 r.2 a n)

/-- The offset in memory of byte i of an entry or a request. -/
def pieceAt (pa : Nat) (tail : Option (Nat × RClass)) (i : Nat) : Nat :=
  match tail with
  | none => pa + i
  | some t => let m := 4096 - pa % 4096
    if i < m then pa + i else t.1 + (i - m)

/-- Bytes of runs at an owner. -/
def runBytes (s : State) (owner : Nat) (rs : List (RClass × Nat × Nat)) : List Byte := (rs.map (fun r => dataBytes s r.1 owner r.2.1 r.2.2)).flatten

/-- Write bytes to runs at an owner. -/
def runsWrite (s : State) (owner : Nat) : List (RClass × Nat × Nat) → List Byte → State
  | [], _ => s
  | r :: rs, bs => runsWrite (ownerWrite s (mkey owner r.2.1) r.1 (bs.take r.2.2)) owner rs (bs.drop r.2.2)

/-- The key under which a remote view holds a byte of another package: context and pointer (R215). -/
def peerKey (s : State) (ctx : Nat) (va : W64) : Nat := (1 + vmidOf s ctx * 1024 + asidOf s ctx) * 2 ^ 64 + va.toNat

/-- A page of another package is ordinary memory of one of its dies. -/
def peerMem (s : State) (ctx : Nat) (va : W64) : Bool :=
  decide (bits va.toNat 54 52 < 4) && Config.peerPlain (vmidOf s ctx) (asidOf s ctx) (va.toNat / 4096)

/-- A page of another package is ordinary, on a die or with its host (R211). -/
def peerPage (s : State) (ctx : Nat) (va : W64) : Bool := decide (4 ≤ bits va.toNat 54 52) || peerMem s ctx va

/-- The key of byte i of an entry in a remote view. -/
def viewKey (s : State) (e : FEntry) (i : Nat := 0) : Nat := if e.peer.isSome then peerKey s e.ctx e.va + i else mkey e.owner (pieceAt e.pa e.tail i)

/-- The entry counts as a cell of the remote view once it drained (R215, R216). -/
def viewable (s : State) (e : FEntry) (die : Nat) : Bool :=
  isStore e && (if e.peer.isSome then peerMem s e.ctx e.va else decide (e.owner < 4) && e.owner != die)

/-- An entry that has drained has not reached the point of a scope (R219). -/
def linkShort (s : State) (sc : Scope) (die : Nat) (e : FEntry) : Bool := devScope sc || !viewable s e die

/-- The stores of a thread that pending results issue once they are ready (R109). -/
def inPend (s : State) (u l : Nat) : List FEntry := (grp s u).pend.flatMap (fun p => p.2.stores.filter (fun e => e.lane == l))

/-- Some store of the thread with a number below id has not reached the point of a scope (R219), that of a scoreboarded result among them. -/
def storesShort (s : State) (u l : Nat) (sc : Scope) (id : Nat) : Bool :=
  let old (e : FEntry) := decide (e.id < id)
  (grp s u).pend.any (fun p => decide (p.1 < id) && p.2.stores.any (fun e => e.lane == l)) || (inFifo s u l).any old || (sc != .core && ((inView s u l).any old || (inHeld s u l).any old ||
    (inLinks s u l).any (fun e => old e && linkShort s sc (dieOf (coreOf s u)) e)))

/-- Some load of the thread with a number below id has been sent and not performed. -/
def loadsOut (s : State) (u l id : Nat) : Bool := (readsOut s u l).any (fun p => decide (p.1 < id))

/-- The acquires of the thread that are not performed, by number (R219, R221). -/
def acquires (s : State) (u l : Nat) : List Nat :=
  ((readsOut s u l).filter (fun p => isAcqRead p.2)).map (fun p => p.1) ++
  ((inFifo s u l ++ inView s u l ++ inLinks s u l ++ inHeld s u l).filter isAcqEntry).map (fun e => e.id) ++
  (s.promotes.filter (fun p => p.2.uid == u && p.2.lane == l)).map (fun p => p.1)

/-- Some acquire of the thread with a number below id has not been performed. -/
def acquireOut (s : State) (u l id : Nat) : Bool := (acquires s u l).any (fun n => decide (n < id))

/-- An acquire of a lane can be performed now: its earlier loads and acquires are (R219). -/
def acqReady (s : State) (u l : Nat) : Bool := (readsOut s u l).isEmpty && (acquires s u l).isEmpty

/-! ### Owner steps -/

/-- New value of an atomic of w bytes (R136). -/
def atomNew (op : AtomOp) (w x b cmp : Nat) : Nat :=
  let c : RCtx := ⟨.rne, 0, 0, 0⟩
  let f := if w = 8 then Fmt.f64 else Fmt.f32
  match op with
  | .add => (x + b) % 2 ^ (8 * w)
  | .min => if sext (8 * w) x ≤ sext (8 * w) b then x else b
  | .max => if sext (8 * w) b ≤ sext (8 * w) x then x else b
  | .and => x &&& b
  | .or => x ||| b
  | .xor => x ^^^ b
  | .xchg => b
  | .inc => if b ≤ x then 0 else x + 1
  | .cas => if x = cmp then b else x
  | .fadd => (fused c f [term (fmtDecode f x), term (fmtDecode f b)]).1
  | .fmin => (fvMinMax c .f32 false false x b).1
  | .fmax => (fvMinMax c .f32 true false x b).1
  | .fadd2 =>
    let h (k : Nat) := (fused c .bf16 [term (fmtDecode .bf16 (x / 2 ^ (16 * k))), term (fmtDecode .bf16 (b / 2 ^ (16 * k)))]).1
    h 0 + 2 ^ 16 * h 1

/-- What an owner step of an entry answers (R224): the state, and the outcome; none where a plated store is held. -/
def ownerStep (s : State) (e : FEntry) : State × Option OwnOut :=
  let k := mkey e.owner e.pa
  match e.act with
  | .bytes bs => (ownerWrite s k e.cls bs, some (.val 0))
  | .bits ofs w code =>
    let n := (ofs + w + 7) / 8
    let rs := clsPieces e.cls e.pa n e.tail
    let old := leNat (rs.flatMap (fun r => rdBytes s (mkey e.owner r.2.1) r.2.2))
    (runsWrite s e.owner rs (leBytes n (setBits old (ofs + w - 1) ofs code)), some (.val 0))
  | .atom op w x cmp =>
    if dataBad s e.cls e.owner e.pa w then (s, some (.poison (badAt s k w))) else
    let old := leNat (dataBytes s e.cls e.owner e.pa w)
    let new := atomNew op w old x cmp
    (if op = .cas ∧ old ≠ cmp then s else ownerWrite s k e.cls (leBytes w new), some (.val old))
  | .atomEd op w x cmp desc =>
    match edDesc s desc with
    | .access => (s, some (.trap .access))
    | .poison => (s, some (.poison (badAt s desc 64)))
    | .ok d =>
      match edIndex d e.va with
      | none => (s, some (.trap .access))
      | some i =>
        if op ≠ .cas ∧ edNewest s (edCell d e.owner i) = 2 ^ 32 - 1 ∧ poisoned s.poison (edCell d e.owner i) 16 = false then
          (s, some (.trap .editionOverflow))
        else match edReadNewest s d e.owner i (e.va.toNat % 8) w with
        | .val old =>
          if op = .cas ∧ old ≠ cmp then (s, some (.val old))
          else
            let p := edStore s d e.owner i (e.va.toNat % 8) (leBytes w (atomNew op w old x cmp))
            (p.1, some (match p.2 with
              | .val _ => .val old
              | o => o))
        | o => (s, some o)
  | .est bs desc =>
    match edDesc s desc with
    | .access => (s, some (.trap .access))
    | .poison => (s, some (.poison (badAt s desc 64)))
    | .ok d =>
      match edIndex d e.va with
      | none => (s, some (.trap .access))
      | some i => let p := edStore s d e.owner i (e.va.toNat % 8) bs; (p.1, some p.2)
  | .erel m desc =>
    match edDesc s desc with
    | .ok d =>
      match edIndex d e.va with
      | none => (s, some (.trap .access))
      | some i =>
        if poisoned s.poison (edCell d e.owner i) 16 then (s, some (.poison (badAt s (edCell d e.owner i) 16)))
        else (edRelease s d e.owner i m.toNat, some (.val 0))
    | .access => (s, some (.trap .access))
    | .poison => (s, some (.poison (badAt s desc 64)))
  | .plate i code desc =>
    match plDesc s desc with
    | .access => (s, some (.trap .access))
    | .poison => (s, some (.poison (badAt s desc 64)))
    | .ok d =>
      if d.length ≤ i then (s, some (.trap .access))
      else
        let p := plStore s desc d i code
        if p.2 then (p.1, some (.val 0)) else (p.1, none)
  | .precast desc =>
    match plDesc s desc with
    | .ok _ => (plRequest s desc, some (.val 0))
    | .access => (s, some (.trap .access))
    | .poison => (s, some (.poison (badAt s desc 64)))
  | .pset i w desc =>
    match plDesc s desc with
    | .ok d => if plWords d ≤ i then (s, some (.trap .access)) else (plSet s desc d e.cls i w, some (.val 0))
    | .access => (s, some (.trap .access))
    | .poison => (s, some (.poison (badAt s desc 64)))
  | _ => (s, some (.val 0))

/-- The errors that a step of the edition service meets, in the descriptor, the cell's metadata and the slot that it reads (R338): of edition
`ed`, or the newest. -/
def edMet (s : State) (k desc owner : Nat) (va : W64) (ed : Option Nat) : State :=
  let s := meetHbm s desc 64 (some k)
  match edDesc s desc with
  | .ok d =>
    (match edIndex d va with
     | some i =>
       let cell := edCell d owner i
       meetHbm (meetHbm s cell 16 (some k)) (edSlot d owner i (ed.getD (edNewest s cell))) 8 (some k)
     | none => s)
  | _ => s

/-- Those of a plated load of index i: in the descriptor, and in the list entry or the parameter block (R247, R338). -/
def plMet (s : State) (k desc i : Nat) : State :=
  let s := meetHbm s desc 64 (some k)
  match plDesc s desc with
  | .ok d =>
    (match plSlot s desc d d.side i with
     | some j => meetHbm s (plEntry desc d d.side j) 8 (some k)
     | none => meetHbm s (ownKey desc d.params) (plBlockSize d) (some k))
  | _ => s

/-- The errors that an entry's owner step meets are counted (R338). -/
def ownerMet (s : State) (e : FEntry) : State :=
  match e.act with
  | .atom _ w .. => dataMet s e.launch e.cls e.owner e.pa w
  | .atomEd _ _ _ _ desc | .est _ desc | .erel _ desc => edMet s e.launch desc e.owner e.va none
  | .plate _ _ desc | .precast desc | .pset _ _ desc => meetHbm s desc 64 (some e.launch)
  | _ => s

/-- A pkg or pod acquire of a lane is performed now (R219). -/
def noteAcquire (s : State) (u l : Nat) (sem : Sem) (sc : Scope) : State :=
  if (sem == .acqrel || sem == .sc) && devScope sc then modLane s u l (fun ln => { ln with acqStep := s.mstep }) else s

/-- A plated store of a lane is held no longer: a lane that waits for no other goes on (R188, R248). -/
def wakeHeld (s : State) (e : FEntry) : State :=
  if (lane s e.uid e.lane).held.contains e.acc then
    modLane s e.uid e.lane (fun ln => { ln with held := ln.held.erase e.acc, readyAt := if ln.held.length = 1 then s.cycle + 1 else ln.readyAt })
  else s

/-- What follows an entry's owner step: the result, the commit of its lane, the counter, or the trap that it meets (R123, R125, R143). -/
def entryDone (s : State) (e : FEntry) (o : OwnOut) : State :=
  let s := { s with mstep := s.mstep + 1 }
  let s := endAcc s e.uid e.acc
  let s := if isAcqEntry e then noteAcquire s e.uid e.lane e.sem e.scope else s
  if (tGet? s.groups e.uid).isNone then s
  else
    let s := wakeHeld s e
    match o with
    | .val x =>
      let s := writeTarget s e.uid e.lane e.dest x
      if e.commits then modLane s e.uid e.lane (fun ln => commitDone ln e.acc) else s
    | .trap c => trapLate s e.uid e.lane e.acc e.undo c e.va e.pc
    | .poison k => poisonLate s e.uid e.lane e.acc k e.undo e.va e.pc
    | .park _ => s

/-- A lane waits for its plated store that found the list full, whatever it waits for beside (R188). -/
def waitHeld (s : State) (e : FEntry) : State := modLane s e.uid e.lane (fun ln => { ln with held := ln.held ++ [e.acc] })

/-- Perform an entry at its owner; a plated store that finds its list full is held there and its lane waits, with a refit requested at
the first attempt (R224, R248). -/
def performEntry (s : State) (e : FEntry) : State :=
  let p := ownerStep (ownerMet s e) e
  match p.2 with
  | some o => entryDone p.1 e o
  | none =>
    match e.act with
    | .plate _ _ desc =>
      plRequest (modPlate (waitHeld p.1 e) desc (fun x => { x with held := x.held ++ [⟨e, s.gtick.toNat⟩] })) desc
    | _ => p.1

/-- Retry the held stores of a region, oldest first (R248, R250). -/
def retryHeld (s : State) (desc : Nat) : State :=
  let hs := (plateAt s desc).held
  let s := modPlate s desc (fun p => { p with held := [] })
  hs.foldl (fun s h =>
    let p := ownerStep (ownerMet s h.e) h.e
    match p.2 with
    | some o => entryDone p.1 h.e o
    | none => modPlate p.1 desc (fun x => { x with held := x.held ++ [h] })) s

/-! ### Parking (R200, R233, R234) -/

/-- A die's wait table has an entry for a key of a group, or room for one. -/
def waitRoom (d : Die) (cell ed u : Nat) : Bool :=
  d.waits.any (fun w => w.cell == cell && w.ed == ed && w.uid == u && !w.due) || decide (d.waits.length < 8192)

/-- Add a lane to the entry of its key, or make the entry. -/
def waitAdd (d : Die) (cell ed u l : Nat) : Die :=
  if d.waits.any (fun w => w.cell == cell && w.ed == ed && w.uid == u && !w.due) then
    { d with waits := d.waits.map (fun w =>
        if w.cell = cell ∧ w.ed = ed ∧ w.uid = u ∧ w.due = false then { w with lanes := w.lanes ++ [l] } else w) }
  else { d with waits := d.waits ++ [⟨cell, ed, u, [l], false⟩] }

/-- The edition service of a cell: that of the base die under its stack, or another package's (R10, R234, assumption 6). -/
def cellService (cell : Nat) : Nat := if cell < 2 ^ 64 then stackOf cell else 8 + cell / 2 ^ 52

/-- Register a saved group or a launch under a key at the owner, or on the poll list where the table is full (R234). -/
def register (s : State) (r : EdReg) : State :=
  let id := takeFresh s
  if (id.2.edRegs.filter (fun p => cellService p.2.cell == cellService r.cell)).length < 4096 then
    { id.2 with edRegs := tPut id.2.edRegs id.1 r }
  else { id.2 with polls := tPut id.2.polls id.1 r }

/-- The keys under which lanes of a group are parked (R233). -/
def parkedKeys (g : Group) : List (Nat × Nat) :=
  (g.lanes.filterMap (fun ln => match ln.st with
    | .wait (.eld c e _) => some (c, e)
    | _ => none)).eraseDups

/-- The wait table of its die has no room for a group, or the group is already being saved for that (R234). -/
def overflowing (g : Group) : Bool :=
  match g.place with
  | .saving _ .waitOverflow | .saved .waitOverflow _ => true
  | _ => false

/-- An `eld` of a set that overflows is evaluated again in every lane, those that were answered too: they keep the access alone (R234). -/
def eldAgain (acc : Nat) (ln : Lane) : Lane :=
  if ln.flight = some acc then { ln with flight := none, eldGot := none, eldAcc := some acc } else ln

/-- Parking overflows (R234): the owners register the group under each key that it needs, those of lanes that parked before with them;
it holds no entry of the wait table, and its lanes stand at their `eld`s. -/
def parkOverflow (s : State) (u : Nat) (ks : List (Nat × Nat)) : State :=
  let g := grp s u
  let all := (ks ++ parkedKeys g).eraseDups
  let s := modDie s (dieOf (coreOf s u)) (fun d => { d with waits := d.waits.filter (fun w => w.uid != u) })
  let s := all.foldl (fun s k => register s ⟨k.1, k.2, u, false, false⟩) s
  (List.range 32).foldl (fun s l => match (laneAt g l).st with
    | .wait (.eld _ _ _) => wakeLane s u l
    | _ => s) s

/-- Park a lane under (cell, ed); where the table lacks an entry the group is saved, and every lane of the set stands at its `eld` (R234). -/
def park (s : State) (u l acc cell ed : Nat) : State :=
  let die := dieOf (coreOf s u)
  let s := modLane s u l (fun ln => { ln with st := .wait (.eld cell ed acc), eldAcc := some acc, flight := none })
  if !overflowing (grp s u) && waitRoom (dieAt s die) cell ed u then modDie s die (fun d => waitAdd d cell ed u l)
  else
    modGrp (parkOverflow s u [(cell, ed)]) u (fun g =>
      let g := { g with lanes := g.lanes.map (eldAgain acc) }
      match g.place with
      | .resident n => { g with place := .saving n .waitOverflow }
      | _ => g)

/-! ### Performing a load at its owner -/

/-- Value of an element of an ordinary page as `ld.e` delivers it (R128, R129). -/
def elemValue (f : Fmt) (scale : Option Nat) (code : Nat) (c : RCtx) : Nat × RCtx :=
  match scale with
  | some sc =>
    let x := fmtDecode f code
    if sc = 0xFF ∨ fvIsNan x then (0x7FC00000, c)
    else match x with
      | .fin n m e => rnd c .f32 false (.fin n m (e + ((sc : Int) - 127)))
      | y => rnd c .f32 false y
  | none =>
    match f with
    | .f64 | .i64 | .z64 | .i32 | .z32 => (code, c)
    | .i8 => (wrap 32 (sext 8 code), c)
    | .i16 => (wrap 32 (sext 16 code), c)
    | .z8 | .z16 => (code, c)
    | _ => rnd c .f32 false (fmtDecode f code)

/-- What another package answers to an `eld` (R233, R235, R237): an edition, that it does not exist yet, or that it is reclaimed. -/
def peerEld (s : State) (r : ReadReq) (bs : List Byte) : OwnOut :=
  match (nth 0 bs r.size).toNat % 4 with
  | 0 => .park (peerKey s r.ctx (BitVec.ofNat 64 (r.va.toNat / 8 * 8)))
  | 1 => .trap .editionGone
  | _ => .val (leNat (bs.take r.size))

/-- The bytes that a load takes at its owner. -/
def readBytesOf (s : State) (r : ReadReq) (answer : Option (List Byte)) : List Byte :=
  match answer with
  | some bs => (List.range r.size).map (fun i => (bs[i]?).getD (Config.freeByte (s.free + i)))
  | none => runBytes s r.owner (clsPieces r.cls r.pa r.size r.tail)

/-- An own load of ordinary bytes consumes an error at its owner, or in its block's scale (R123 step 6, R338, R339). -/
def readStepBad (s : State) (r : ReadReq) (answer : Option (List Byte)) : Option (List Nat) :=
  if answer.isSome then none
  else
    let own := (clsPieces r.cls r.pa r.size r.tail).flatMap (fun p => if dataBad s p.1 r.owner p.2.1 p.2.2 then badAt s (mkey r.owner p.2.1) p.2.2 else [])
    let all := match r.kind with
      | .elem _ _ (some k) => if dataBad s r.cls (k / 2 ^ 52) (k % 2 ^ 52) 1 then own ++ badAt s k 1 else own
      | _ => own
    if all.isEmpty then none else some all

/-- The value of a load as its destination receives it, with the flags of an element's conversion (R126, R129). -/
def readValue (s : State) (r : ReadReq) (x : Nat) : Nat × Nat :=
  match r.kind with
  | .elem ofs f scale =>
    let p := elemValue f (scale.map (fun k => leNat (dataBytes s r.cls (k / 2 ^ 52) (k % 2 ^ 52) 1))) (bits x (ofs + fmtWidth f - 1) ofs) ⟨.rne, 0, 0, 0⟩
    (p.1, p.2.flags)
  | _ => (x, 0)

/-- Some flag has its trap enabled in a lane (R66). -/
def flagsDue (s : State) (r : ReadReq) (fl : Nat) : Bool := (bits (lane s r.uid r.lane).fmode.toNat 13 9 &&& fl) != 0

/-- What a load answers at its owner (R217, R224). `answer` holds the bytes from another package. The rounding of an element is checked before
its data (R123). -/
def readStep (s : State) (r : ReadReq) (answer : Option (List Byte)) : OwnOut :=
  match r.kind with
  | .bytes _ | .stream _ | .elem .. =>
    let x := leNat (readBytesOf s r answer)
    match readStepBad s r answer with
    | some k => if flagsDue s r (readValue s r x).2 then .val x else .poison k
    | none => .val x
  | k =>
    match answer with
    | some bs => (match k with
      | .eld .. => peerEld s r bs
      | _ => .val (leNat bs))
    | none =>
      match k with
      | .newest ofs desc | .eld ofs _ desc | .streamEd _ ofs desc =>
        match edDesc s desc with
        | .access => .trap .access
        | .poison => .poison (badAt s desc 64)
        | .ok d =>
          match edIndex d r.va with
          | none => .trap .access
          | some i =>
            match k with
            | .eld _ e _ => edRead s d r.owner i e ofs r.size
            | _ => edReadNewest s d r.owner i ofs r.size
      | .enew desc =>
        match edDesc s desc with
        | .access => .trap .access
        | .poison => .poison (badAt s desc 64)
        | .ok d =>
          match edIndex d r.va with
          | none => .trap .access
          | some i => edQuery s d r.owner i
      | .plate i desc =>
        match plDesc s desc, plLoad s desc i with
        | .ok d, .val c => .val (elemValue d.fmt none c ⟨.rne, 0, 0, 0⟩).1
        | _, o => o
      | .pquery desc => plQuery s desc
      | .psync desc _ =>
        match plDesc s desc with
        | .ok _ => .val 0
        | .access => .trap .access
        | .poison => .poison (badAt s desc 64)
      | _ => .val 0

/-- The stream that a read request is for. -/
def readStreamNo (r : ReadReq) : Option Nat :=
  match r.kind with
  | .stream k => some k
  | .streamEd k .. => some k
  | _ => none

/-- What a sent stream read brought is kept for the instruction its lane is held at (R52). -/
def gotStream (s : State) (r : ReadReq) (k : Nat) (g : Got) : State :=
  modLane s r.uid r.lane (fun ln => if ln.flight = some r.acc then { ln with qgot := ln.qgot ++ [(k, g)] } else ln)

/-- A lane is held at its `eld` for a request (R138). -/
def heldFor (s : State) (r : ReadReq) : Bool := r.waits && (lane s r.uid r.lane).flight == some r.acc

/-- Some flag of a lane's load has its trap enabled: it takes FPX, its flags set and nothing written (R66, R123 step 5). -/
def readFlags (s : State) (r : ReadReq) (fl : Nat) : State × Bool :=
  (modLane s r.uid r.lane (fun ln => orFmode ln (fl % 32 * 16)), flagsDue s r fl)

/-- The lane leaves its `psync`: it goes on past it. -/
def syncPass (s : State) (r : ReadReq) : State :=
  match (lane s r.uid r.lane).st with
  | .wait (.psync _) => finishWait s r.uid r.lane
  | _ => s

/-- A lane that was answered finishes its `eld`: its result is written, or it takes the trap (R138). -/
def eldFinish (s : State) (l : Nat) (r : ReadReq) (g : Got) : State :=
  let s := modLane (endAcc s r.uid r.acc) r.uid l (fun ln => { ln with eldAcc := none, flight := none, eldGot := none })
  match g with
  | .val x => finishWait (writeTarget s r.uid l r.dest x) r.uid l
  | .trap c => trapLate s r.uid l r.acc r.undo c r.va r.pc
  | .poison ks => poisonLate s r.uid l r.acc ks r.undo r.va r.pc

/-- The lanes of a set that were answered finish their `eld` once every lane of it was answered or parks (R234). -/
def eldSettle (s : State) (u acc : Nat) : State :=
  if (List.range 32).any (fun l => (readsOut s u l).any (fun p => p.2.acc == acc && p.2.waits)) then s
  else (List.range 32).foldl (fun s l => match (lane s u l).eldGot with
    | some p => if p.1.acc = acc then eldFinish s l p.1 p.2 else s
    | none => s) s

/-- The `eld` of a lane that is held for it is answered (R138, R233). -/
def eldAnswer (s : State) (r : ReadReq) (ed : Nat) (o : OwnOut) : State :=
  let keep (g : Got) : State := modLane s r.uid r.lane (fun ln => { ln with eldGot := some (r, g) })
  match o with
  | .val x => keep (.val x)
  | .trap c => keep (.trap c)
  | .poison ks => keep (.poison ks)
  | .park cell => park s r.uid r.lane r.acc cell ed

/-- The `eld` of a lane that is to be evaluated again, its group being saved, is answered: where it would park the owner registers the group; of a
lane that gave it up the access ends. -/
def eldLate (s : State) (r : ReadReq) (ed : Nat) (o : OwnOut) : State :=
  if (lane s r.uid r.lane).eldAcc = some r.acc then
    match o with
    | .park cell => if overflowing (grp s r.uid) then register s ⟨cell, ed, r.uid, false, false⟩ else s
    | _ => s
  else endAcc s r.uid r.acc

/-- What follows a load that is performed: its result, its counter, or the trap it meets (R123, R138, R143). -/
def readDone (s : State) (r : ReadReq) (o : OwnOut) : State :=
  let s := noteAcquire s r.uid r.lane r.sem r.scope
  if (tGet? s.groups r.uid).isNone then s
  else match r.kind with
  | .eld _ ed _ => if heldFor s r then eldSettle (eldAnswer s r ed o) r.uid r.acc else eldLate s r ed o
  | _ =>
  match readStreamNo r, o with
  | some k, .val x => gotStream (endAcc s r.uid r.acc) r k (.val x)
  | some k, .poison key => gotStream (endAcc s r.uid r.acc) r k (.poison key)
  | some k, .trap c => gotStream (endAcc s r.uid r.acc) r k (.trap c)
  | _, .val x =>
    let v := readValue s r x
    let p := readFlags (endAcc s r.uid r.acc) r v.2
    if p.2 then trapLate p.1 r.uid r.lane r.acc r.undo .fpx (BitVec.ofNat 64 (v.2 % 32)) r.pc
    else if r.waits then syncPass p.1 r
    else writeTarget p.1 r.uid r.lane r.dest v.1
  | _, .trap c => trapLate (endAcc s r.uid r.acc) r.uid r.lane r.acc r.undo c r.va r.pc
  | _, .poison k => poisonLate (endAcc s r.uid r.acc) r.uid r.lane r.acc k r.undo r.va r.pc
  | _, .park _ => endAcc s r.uid r.acc

/-! ### The moves of R216 -/

/-- An entry acts on a whole cell of an editioned page (R137). -/
def onCell (e : FEntry) : Bool :=
  match e.act with
  | .est .. | .atomEd .. | .erel .. => true
  | _ => false

/-- Two entries of one instruction act on one place: overlapping bytes, or one cell of an editioned page (R124). -/
def oneSpot (e f : FEntry) : Bool :=
  e.acc == f.acc && e.uid == f.uid && e.owner == f.owner && e.peer == f.peer &&
  (if e.peer.isSome then overlaps (e.va.toNat / 8 * 8) (8 + e.size) (f.va.toNat / 8 * 8) (8 + f.size)
   else if onCell e then e.pa / 8 == f.pa / 8 else (entryRuns f).any (fun r => runsHit (entryRuns e) r.1 r.2))

/-- An entry of a lower lane of the same instruction for the same place is still in a list (R124). -/
def lowerFirst (es : List FEntry) (e : FEntry) : Bool :=
  match e.act with
  | .priv _ => false
  | .mark => false
  | _ => es.any (fun f => decide (f.id < e.id) && oneSpot f e)

/-- Leave may take the oldest entry of a thread (R216, R219); lanes of one instruction go in order (R124). -/
def mayLeave (s : State) (u l : Nat) : Bool :=
  match inFifo s u l with
  | [] => false
  | e :: _ =>
    !lowerFirst ((grp s u).lanes.map (fun ln => ln.fifo)).flatten e &&
    !acquireOut s u l e.id &&
    (!isRelease e || (!loadsOut s u l e.id && !storesShort s u l e.scope e.id))

/-- Write a local array at Leave (R225): a scratch or private sector that the store covers is clean again. -/
def localWrite (s : State) (e : FEntry) : State :=
  match e.act with
  | .scratch bs =>
    let s := coverArr s (.scratch (grp s e.uid).gang e.pa) (fun a => decide (e.pa ≤ a) && decide (a < e.pa + bs.length))
    modGang (noteOld s (grp s e.uid).gang e.pa bs.length) (grp s e.uid).gang (fun g => { g with scratch := arrWrite g.scratch e.pa bs, scratchPois := unpoison g.scratchPois e.pa bs.length })
  | .priv bs =>
    let s := coverArr s (.priv e.uid e.lane e.pa) (fun a => decide (e.pa ≤ a) && decide (a < e.pa + bs.length))
    modLane s e.uid e.lane (fun ln => { ln with priv := arrWrite ln.priv e.pa bs, privPois := unpoison ln.privPois e.pa bs.length })
  | .tag w => modGang s (grp s e.uid).gang (fun g => { g with tags := smSet 0 g.tags e.pa w })
  | _ => s

/-- Leave (R216, R225). -/
def leaveMove (s : State) (u l : Nat) : State :=
  match inFifo s u l with
  | [] => s
  | e :: es =>
    let s := modLane s u l (fun ln => { ln with fifo := es })
    if isLocal e then endAcc (localWrite { s with mstep := s.mstep + 1 } e) u e.acc
    else modCore { s with mstep := s.mstep + 1 } (coreOf s u) (fun c => { c with view := c.view ++ [e] })

/-- Write bytes into a remote view, with the step that writes them (R214, R216). -/
def remoteWrite (t : Table (Byte × Nat)) (step k : Nat) : List Byte → Table (Byte × Nat)
  | [] => t
  | b :: bs => remoteWrite (tPut t k (b, step)) step (k + 1) bs

/-- A store that a REPLAY launch keeps in its write-behind buffer (R352). -/
def buffered (s : State) (e : FEntry) : Bool :=
  isReplay (launchAt s e.launch) && (e.peer.isSome || e.owner == 4)

/-- The newest byte that a launch has buffered for an address at an owner of a package (R352). -/
def bufferByte (l : Launch) (owner peer x : Nat) : Option Byte :=
  l.buffer.foldl (fun r b => match b.2 with
    | .store o a p _ bs => if o = owner ∧ p = peer ∧ a ≤ x ∧ x < a + bs.length then some (nth 0 bs (x - a)) else r
    | .service e bs => if e.owner = owner ∧ e.peer = some peer ∧ e.va.toNat ≤ x ∧ x < e.va.toNat + bs.length then some (nth 0 bs (x - e.va.toNat)) else r
    | _ => r) none

/-- Bytes that a launch reads of a place of which it has buffered some (R352): the others as the host holds them, or for another
package as nothing fixes. -/
def bufferRead (s : State) (l : Launch) (owner pa : Nat) (peer : Option Nat) (va : W64) (n : Nat) : Option (List Byte) :=
  let x := if peer.isSome then va.toNat else pa
  let bs := (List.range n).map (fun i => bufferByte l owner (peer.getD 0x1FF) (x + i))
  if bs.all (fun b => b.isNone) then none
  else some ((List.range n).map (fun i => (nth none bs i).getD
    (if peer.isSome then Config.freeByte (s.free + i) else rdByte s (mkey owner (pa + i)))))

/-- The bytes that a launch reads of a place, buffered or not. -/
def bufferOld (s : State) (e : FEntry) (pa n : Nat) (va : W64) : List Byte :=
  (bufferRead s (launchAt s e.launch) e.owner pa e.peer va n).getD
    (if e.peer.isSome then openBytes s va.toNat n else rdBytes s (mkey e.owner pa) n)

/-- What an entry puts into its launch's buffer (R352): the bytes of a store by place, an element's merged into those that lie there; or the
entry of a service, with the bytes of the cell or element that it stores. -/
def bufferOf (s : State) (e : FEntry) : List Buffered :=
  let merged (ofs w code : Nat) : List Byte :=
    let old := if e.peer.isSome then bufferOld s e e.pa e.size e.va else (pieces e.pa e.size e.tail).flatMap (fun r => bufferOld s e r.1 r.2 e.va)
    leBytes e.size (setBits (leNat old) (ofs + w - 1) ofs code)
  let stores (bs : List Byte) : List Buffered :=
    if e.peer.isSome then [.store e.owner e.va.toNat (e.peer.getD 0x1FF) e.va bs]
    else ((pieces e.pa bs.length e.tail).foldl (fun r p =>
      (r.1 ++ [Buffered.store e.owner p.1 0x1FF (e.va + BitVec.ofNat 64 (bs.length - r.2.length)) (r.2.take p.2)], r.2.drop p.2)) (([] : List Buffered), bs)).1
  match e.act with
  | .bytes bs => stores bs
  | .bits ofs w code => stores (merged ofs w code)
  | .est bs _ => [.service e bs]
  | .mark => []
  | _ => [.service e []]

/-- What a buffered entry answers its thread: the number of an edition that does not exist yet nothing fixes (assumption 44). -/
def bufferVal (s : State) (e : FEntry) : Nat :=
  match e.act with
  | .est .. => (Config.freeWord s.free).toNat % 2 ^ 32
  | _ => 0

/-- The bytes that a store leaves in a remote view (R216): an element's bits go into the copy, or where there is none into the bytes at the
owner. -/
def viewBytes (s : State) (e : FEntry) (die : Nat) : List Byte :=
  match e.act with
  | .bytes bs => bs
  | .bits ofs w code =>
    let old := (List.range e.size).map (fun i => match tGet? (dieAt s die).remote (viewKey s e i) with
      | some p => p.1
      | none => if e.peer.isSome then Config.openByte s.epoch (e.va.toNat + i) else rdByte s (viewKey s e i))
    leBytes e.size (setBits (leNat old) (ofs + w - 1) ofs code)
  | _ => []

/-- The step at which byte i of a store is as new as its copy in a remote view says: a byte that an element covers only in part is as old as the
copy that the rest of it lies in (R216, R219). -/
def viewStamp (s : State) (e : FEntry) (die i : Nat) : Nat :=
  match e.act with
  | .bits ofs w _ =>
    if ofs ≤ 8 * i ∧ 8 * i + 8 ≤ ofs + w then s.mstep
    else match tGet? (dieAt s die).remote (viewKey s e i) with
      | some p => p.2
      | none => s.mstep
  | _ => s.mstep

/-- A store is written into a remote view (R216). -/
def viewWrite (s : State) (e : FEntry) (die : Nat) (t : Table (Byte × Nat)) : Table (Byte × Nat) :=
  (viewBytes s e die).zipIdx.foldl (fun t p => tPut t (viewKey s e p.2) (p.1, viewStamp s e die p.2)) t

/-- Take an entry to the die point (R216): performed where the die owns the cell, else it becomes the last transfer of the link queue, a
store to an ordinary cell being written into the remote view. -/
def toDiePoint (s : State) (e : FEntry) (die : Nat) : State :=
  let s := { s with mstep := s.mstep + 1 }
  if e.peer.isNone && e.owner == die then performEntry s e
  else if buffered s e then
    let bs := bufferOf s e
    let v := bufferVal s e
    let s := modLaunch s e.launch (fun x => { x with buffer := bs.foldl (fun r b => bufferPut e.id b r) x.buffer })
    entryDone { s with free := s.free + 1 } e (.val v)
  else
    let s := if viewable s e die then
        modDie s die (fun d => { d with remote := viewWrite s e die d.remote })
      else s
    let id := takeFresh s
    { id.2 with links := tPut id.2.links id.1 (.entry e die) }

/-- Drain may take the oldest core-view entry of a thread (R216, R124); while the network is stopped none goes on (R348). -/
def mayDrain (s : State) (u l : Nat) : Bool :=
  match inView s u l with
  | [] => false
  | e :: _ => !s.netStopped && !lowerFirst (coreAt s (coreOf s u)).view e

/-- Drain the oldest core-view entry of a thread (R216). -/
def drainMove (s : State) (u l : Nat) : State :=
  let c := coreOf s u
  match inView s u l with
  | [] => s
  | e :: _ => toDiePoint (modCore s c (fun k => { k with view := k.view.filter (fun x => x.id != e.id) })) e (dieOf c)

/-- Place of a transfer: issuing die, owner, package, and runs of bytes. -/
def xferPlace (x : Xfer) : Nat × Nat × Option Nat × List (Nat × Nat) :=
  match x with
  | .entry e d => (d, e.owner, e.peer, entryRuns e)
  | .read r d => (d, r.owner, r.peer, if r.peer.isSome then [(r.va.toNat, max 1 r.size)] else pieces r.pa (max 1 r.size) r.tail)

/-- A transfer to a whole cell of an editioned page, or to a page of another package, which may be one. -/
def xferCell (x : Xfer) : Bool :=
  match x with
  | .entry e _ => e.peer.isSome || onCell e
  | .read r _ => r.peer.isSome || (match r.kind with
    | .newest .. | .eld .. | .enew _ | .streamEd .. => true
    | _ => false)

/-- Two transfers of one queue to one cell (R214, R216): overlapping bytes, or one cell of an editioned page. -/
def sameCell (x y : Xfer) : Bool :=
  let a := xferPlace x
  let b := xferPlace y
  a.1 == b.1 && a.2.1 == b.2.1 && a.2.2.1 == b.2.2.1 &&
  a.2.2.2.any (fun r => if xferCell x || xferCell y then runsHit b.2.2.2 (r.1 / 8 * 8) (8 * ((r.1 % 8 + r.2 + 7) / 8)) else runsHit b.2.2.2 r.1 r.2)

/-- A transfer of the same die touches the scale byte that a request reads beside its element (R217). -/
def scaleCell (x y : Xfer) : Bool :=
  match y with
  | .read r d => (match r.kind with
    | .elem _ _ (some k) => let a := xferPlace x
      a.1 == d && a.2.1 == k / 2 ^ 52 && a.2.2.1.isNone && runsHit a.2.2.2 (k % 2 ^ 52) 1
    | _ => false)
  | .entry .. => false

/-- Deliver may take a transfer (R216): no undelivered predecessor to the same cell; a `psync` once its refits ended. -/
def mayDeliver (s : State) (id : Nat) : Bool :=
  match tGet? s.links id with
  | none => false
  | some x =>
    !s.netStopped && !s.links.any (fun p => decide (p.1 < id) && (sameCell p.2 x || scaleCell p.2 x)) &&
    (match x with
     | .read r _ => match r.kind with
       | .psync desc target => decide (target ≤ (plateAt s desc).served)
       | _ => true
     | _ => true)

/-- What another package answers to an entry (R224, R232, R248): a value, or that no further edition can be created, or no erratum held. -/
def peerDone (e : FEntry) (answer : List Byte) : OwnOut :=
  match e.act with
  | .est .. => if (nth 0 answer 8).toNat % 4 = 0 then .trap .editionOverflow else .val (leNat (answer.take 4))
  | .atomEd .. => if (nth 0 answer 8).toNat % 4 = 0 then .trap .editionOverflow else .val (leNat (answer.take e.size))
  | .plate .. => if (nth 0 answer 8).toNat % 4 = 0 then .trap .errataFull else .val 0
  | _ => .val (leNat (answer.take e.size))

/-- The errors that a load meets at its owner are counted (R338); what another package answers is new each time. -/
def readMet (s : State) (r : ReadReq) : State :=
  if r.peer.isSome then { s with free := s.free + 64 }
  else match r.kind with
    | .bytes _ | .stream _ => dataMet s r.launch r.cls r.owner r.pa r.size
    | .elem _ _ k =>
      let s := (clsPieces r.cls r.pa r.size r.tail).foldl (fun s p => dataMet s r.launch p.1 r.owner p.2.1 p.2.2) s
      (match k with
       | some k => dataMet s r.launch r.cls (k / 2 ^ 52) (k % 2 ^ 52) 1
       | none => s)
    | .newest _ desc | .streamEd _ _ desc | .enew desc => edMet s r.launch desc r.owner r.va none
    | .eld _ e desc => edMet s r.launch desc r.owner r.va (some e)
    | .plate i desc => plMet s r.launch desc i
    | .pquery desc | .psync desc _ => meetHbm s desc 64 (some r.launch)

/-- Deliver (R216): perform a transfer at its owner; `answer` is what another package returns. -/
def deliverMove (s : State) (id : Nat) (answer : List Byte) : State :=
  match tGet? s.links id with
  | none => s
  | some x =>
    let s := { s with links := tDel s.links id, mstep := s.mstep + 1 }
    match x with
    | .entry e _ => if e.peer.isSome then entryDone s e (peerDone e answer) else performEntry s e
    | .read r _ =>
      let o := readStep s r (if r.peer.isSome then some answer else none)
      readDone (readMet s r) r o

/-- A store of a die to a byte is on its way to the owner (R216). -/
def undelivered (s : State) (die k : Nat) : Bool :=
  s.links.any (fun p => match p.2 with
    | .entry e d => d == die && isStore e && (List.range e.size).any (fun i => viewKey s e i == k)
    | .read .. => false)

/-- The bytes at an owner that the services of a region work in: an edition region's descriptor, slots and metadata, or a plate's descriptor,
images and lists (R20, R229, R242). -/
def serviceRuns (s : State) (kind : PKind) (k : Nat) : List (Nat × Nat) :=
  (k, 64) :: (match kind with
    | .editioned => (match edDesc s k with
      | .ok d => [(ownKey k d.store, 8 * d.length * d.depth), (ownKey k d.meta_, 16 * d.length)]
      | _ => [])
    | .plated => (match plDesc s k with
      | .ok d => [(ownKey k d.params, plBlockSize d), (ownKey k d.err0, 8 * plCap), (ownKey k d.err1, 8 * plCap)] ++
          (if d.mlp then [(ownKey k d.staged, plBlockSize d)] else [])
      | _ => [])
    | _ => [])

/-- A byte belongs to a region's services, as the translations that its owner holds name them, and the plates at work there. -/
def serviceByte (s : State) (k : Nat) : Bool :=
  let o := k / 2 ^ 52
  let hit (kind : PKind) (desc : Nat) : Bool := (serviceRuns s kind desc).any (fun r => overlaps r.1 r.2 k 1)
  ((tGet? s.tlbs o).getD []).any (fun e => match e.attr.region with
    | some r => hit e.attr.kind (mkey o r.desc)
    | none => false) ||
  s.plates.any (fun p => p.1 / 2 ^ 52 == o && hit .plated p.1)

/-- A byte lies on a page of KIND ordinary or code, and on none of another, as the translations held by its owner say, and no service works in
it (R20, R215). It holds no error and was written in the class of its page: what a check refuses is not copied (R338, R339). -/
def plainByte (s : State) (k : Nat) : Bool :=
  let es := ((tGet? s.tlbs (k / 2 ^ 52)).getD []).filter (fun e => overlaps e.attr.frame e.attr.size (k % 2 ^ 52) 1)
  !es.isEmpty && es.all (fun e => (e.attr.kind == .ordinary || e.attr.kind == .code) && byteClassOf s k == e.attr.rclass) &&
  !serviceByte s k && !poisoned s.poison k 1 && !s.errors.any (markHit s k 1)

/-- A key of a remote view names a byte on an ordinary page of a die of another package (R215). -/
def peerByte (s : State) (k : Nat) : Bool :=
  let c := k / 2 ^ 64 - 1
  let va := k % 2 ^ 64
  decide (2 ^ 64 ≤ k) && decide (bits va 54 52 < 4) && bits va 63 55 != 0x1FF && bits va 63 55 != bits s.pkgnum.toNat 8 0 &&
  Config.peerPlain (c / 1024) (c % 1024) (va / 4096)

/-- A die may hold a copy of a byte: another die owns it, or a die of another package, on a plain page (R215). -/
def remoteByte (s : State) (die k : Nat) : Bool :=
  peerByte s k || (decide (k / 2 ^ 52 < 4) && k / 2 ^ 52 != die && plainByte s k)

/-- A run of bytes that is a cell, or a line: aligned to its size (R215). -/
def cellRun (k n : Nat) : Bool := [1, 2, 4, 8, 16, 32, 64].contains n && k % n == 0

/-- Refresh the copies of a cell, where no store of the die to it is undelivered (R216); what another package holds nothing fixes. -/
def refreshMove (s : State) (die k n : Nat) : State :=
  if cellRun k n && (List.range n).all (fun i => remoteByte s die (k + i) && !undelivered s die (k + i)) then
    let s := { s with mstep := s.mstep + 1 }
    let bs := if 2 ^ 64 ≤ k then openBytes s k n else rdBytes s k n
    modDie s die (fun d => { d with remote := remoteWrite d.remote s.mstep k bs })
  else s

/-- Drop the copies of a cell, where no store of the die to it is undelivered (R216). -/
def dropMove (s : State) (die k n : Nat) : State :=
  if cellRun k n && (List.range n).all (fun i => !undelivered s die (k + i)) then
    modDie { s with mstep := s.mstep + 1 } die (fun d => { d with remote := d.remote.filter (fun p =>
      !(decide (k ≤ p.1) && decide (p.1 < k + n))) })
  else s

/-- Drop every copy of the lines that an engine wrote, in a die's remote view (R222). -/
def dropLines (s : State) (die k n : Nat) : State :=
  modDie s die (fun d => { d with remote := d.remote.filter (fun p => !overlaps (k / 64 * 64) ((k + n + 63) / 64 * 64 - k / 64 * 64) p.1 1) })

/-! ### Where a load reads (R217) -/

/-- The outcome of rules 1 to 4 for a load of ordinary bytes. -/
inductive LoadAt where
  /-- Held: an entry of its own has to be performed first. -/
  | wait
  /-- Performed now with these bytes. -/
  | now (bs : List Byte)
  /-- To be sent. -/
  | send
  deriving DecidableEq, Repr

/-- What a load reads of memory: whole bytes, or the element of w bits at a bit offset (R129). -/
inductive Part where
  | bytes
  | elem (ofs w : Nat)
  deriving DecidableEq, Repr

/-- Bytes of an entry from an address, where it covers the load: of an element, those that its bits lie in. -/
def entryCovers (e : FEntry) (pa n : Nat) (part : Part) : Option (List Byte) :=
  match e.act with
  | .bytes bs => if e.pa ≤ pa ∧ pa + n ≤ e.pa + bs.length then some ((bs.drop (pa - e.pa)).take n) else none
  | .bits ofs w code =>
    if e.tail.isSome then none else
    let x := leBytes e.size (code * 2 ^ ofs)
    let all : Bool := ofs == 0 && w % 8 == 0 && decide (e.pa ≤ pa) && decide (pa + n ≤ e.pa + w / 8)
    let same : Bool := part == .elem ofs w && e.pa == pa
    if all then some ((x.drop (pa - e.pa)).take n) else if same then some (x.take n) else none
  | _ => none

/-- As `entryCovers` for the pointers of another package. -/
def peerCovers (e : FEntry) (va : W64) (n : Nat) (part : Part) : Option (List Byte) :=
  entryCovers { e with pa := e.va.toNat } va.toNat n part

/-- An entry that a load of its bytes has to do with: no local array, no `cwb`. -/
def forLoads (e : FEntry) : Bool :=
  !isLocal e && (match e.act with
    | .mark => false
    | _ => true)

/-- Entries of a thread for bytes, oldest first: core view before FIFO. -/
def ownEntries (s : State) (u l : Nat) (peer : Option Nat) (owner pa : Nat) (va : W64) (n : Nat) : List FEntry :=
  (inView s u l ++ inFifo s u l).filter (fun e =>
    forLoads e && e.peer == peer && e.owner == owner &&
    runsHit (entryRuns e) (if peer.isSome then va.toNat else pa) n)

/-- An atomic or owner-service entry of a thread for a place has drained and is not performed (R217 rule 1). -/
def serviceOut (s : State) (u l : Nat) (peer : Option Nat) (owner pa : Nat) (va : W64) (n : Nat) : Bool :=
  (inLinks s u l ++ inHeld s u l).any (fun e => forLoads e && !isStore e && e.peer == peer && e.owner == owner &&
    runsHit (entryRuns e) (if peer.isSome then va.toNat else pa) n)

/-- Entries of other threads of the core that rule 2 lets a load read and that overlap its bytes, oldest first. -/
def coreEntries (s : State) (u l : Nat) (peer : Option Nat) (owner pa : Nat) (va : W64) (n : Nat) : List FEntry :=
  (coreAt s (coreOf s u)).view.filter (fun e =>
    !(e.uid == u && e.lane == l) && isStore e && e.peer == peer && (e.sem == .plain || e.scope == .core) &&
    (if peer.isSome then e.ctx == ctxOf s u else e.owner == owner) && runsHit (entryRuns e) (if peer.isSome then va.toNat else pa) n)

/-- Rule 2 of R217: the newest of them, which a load that it overlaps in part waits for (assumption 17); none where there is none, or the
order of the load forbids it. -/
def coreEntry (s : State) (u l : Nat) (sem : Sem) (sc : Scope) (peer : Option Nat) (owner pa : Nat) (va : W64) (n : Nat) (part : Part) : Option LoadAt :=
  if sem == .plain || sc == .core then
    ((coreEntries s u l peer owner pa va n).getLast?).map (fun e =>
      match (if peer.isSome then peerCovers e va n part else entryCovers e pa n part) with
      | some bs => .now bs
      | none => .wait)
  else none

/-- The copies of a run of bytes in a remote view, each written after a step; none where one is missing. -/
def remoteRead (t : Table (Byte × Nat)) (after k : Nat) : Nat → Option (List Byte)
  | 0 => some []
  | n + 1 =>
    match tGet? t k, remoteRead t after (k + 1) n with
    | some (b, st), some bs => if after < st ∨ after = 0 then some (b :: bs) else none
    | _, _ => none

/-- Rule 3 of R217 for a cell that the die does not own: the copies of its remote view, where R219 permits them; else rule 4. -/
def viewRead (s : State) (u l : Nat) (sem : Sem) (sc : Scope) (k n : Nat) : LoadAt :=
  if (sem == .acqrel || sem == .sc) && devScope sc then .send
  else match remoteRead (dieAt s (dieOf (coreOf s u))).remote (lane s u l).acqStep k n with
    | some bs => .now bs
    | none => .send

/-- Rules 1 to 4 of R217 for a load of n ordinary bytes, or of an element in them. -/
def loadAt (s : State) (u l : Nat) (sem : Sem) (sc : Scope) (peer : Option Nat) (owner pa : Nat) (va : W64) (n : Nat)
    (part : Part := .bytes) : LoadAt :=
  match (ownEntries s u l peer owner pa va n).getLast? with
  | some e =>
    let own := if peer.isSome then (if peerMem s (ctxOf s u) va then peerCovers e va n part else none) else entryCovers e pa n part
    (match own with
     | some bs => .now bs
     | none => .wait)
  | none =>
    if serviceOut s u l peer owner pa va n then .wait
    else
    match bufferRead s (launchAt s (launchOf s u)) owner pa peer va n with
    | some bs => .now bs
    | none =>
      match peer with
      | some p =>
        if !peerMem s (ctxOf s u) va then .send
        else match coreEntry s u l sem sc (some p) owner pa va n part with
          | some x => x
          | none => viewRead s u l sem sc (peerKey s (ctxOf s u) va) n
      | none =>
        if owner == 4 then .send
        else
          match coreEntry s u l sem sc none owner pa va n part with
          | some x => x
          | none => if owner = dieOf (coreOf s u) then .now (rdBytes s (mkey owner pa) n) else viewRead s u l sem sc (mkey owner pa) n

/-- A load of a lane reads the memory of its own die: no entry, buffer or copy gives its bytes (R217 rule 3). -/
def ownMem (s : State) (u l : Nat) (sem : Sem) (sc : Scope) (o pa : Nat) (va : W64) (n : Nat) (part : Part := .bytes) : Bool :=
  o == dieOf (coreOf s u) && (ownEntries s u l none o pa va n).isEmpty && (bufferRead s (launchAt s (launchOf s u)) o pa none va n).isNone &&
  (coreEntry s u l sem sc none o pa va n part).isNone

/-- A transfer of a die to bytes of an owner is on its way: a request would be performed after it (R216, R217 rule 4). -/
def linkBusy (s : State) (die owner pa n : Nat) : Bool :=
  s.links.any (fun p =>
    let x := xferPlace p.2
    x.1 == die && x.2.1 == owner && x.2.2.1.isNone && runsHit x.2.2.2 pa n)

/-- A load of a thread may be performed or sent now (R219): no acquire is outstanding, and an sc load has its stores at the
point of its scope. -/
def loadFree (s : State) (u l : Nat) (sem : Sem) (sc : Scope) : Bool :=
  !acquireOut s u l s.fresh && (sem != .sc || !storesShort s u l sc s.fresh)

/-- A reading owner-service access waits for every entry of its own for the cell (R217 rule 1): the whole cell of an editioned page. -/
def serviceFree (s : State) (u l : Nat) (ed : Bool) (owner pa : Nat) (va : W64) (n : Nat) : Bool :=
  let pa := if ed then pa / 8 * 8 else pa
  let n := if ed then 8 else n
  (ownEntries s u l none owner pa va n).isEmpty &&
  !(inLinks s u l).any (fun e => e.peer.isNone && e.owner == owner && runsHit (entryRuns e) pa n) &&
  !(inHeld s u l).any (fun e => e.owner == owner && runsHit (entryRuns e) pa n)

end Sys2Proof.Machine
end

