-- ==== Sys2Proof/Machine/Operands.lean ====
section
/-! DEFINITION. The checks of an access (R123, R362), and what a source field delivers to a lane (R42 to R56). -/

namespace Sys2Proof.Machine

/-! ### The checks of an access -/

/-- The key of an error that lies in a table of the translation: no snapshot holds it (R349). -/
def noKey : Nat := 5 * 2 ^ 52


/-- Why a lane ends its part of an instruction without effect: a trap with TXVAL, a consumed error (of memory at a key, of
the launch's own scratch or private bytes, or of a register), a watch with the ports that claim it, a page that is not there. -/
inductive Halt where
  | trap (c : Cause) (txval : W64)
  | poison (keys : List Nat) (va : W64)
  /-- A detected error in one of the gang's own arrays, among n bytes or words of it. -/
  | poisonOwn (p : ErrPlace) (n : Nat) (va : W64)
  | poisonReg
  | watch (ports : List Nat) (va : W64)
  /-- FPX of an element access, with the flags raised and SRCNT after its draws (R66). -/
  | fpx (flags cnt : Nat)
  | page (absent : Bool) (stage level : Nat) (va : W64) (acc : AccKind)
  deriving DecidableEq, Repr

/-- Watch j of a port matches an access of n bytes (R362). -/
def watchHit (p : Port) (j : Nat) (va : W64) (n : Nat) (rd wr : Bool) : Bool :=
  let c := bits p.wcfg.toNat (8 * j + 6) (8 * j)
  let base := if j = 0 then p.waddr0 else p.waddr1
  bit c 6 && ((bit c 4 && rd) || (bit c 5 && wr)) && overlaps base.toNat (2 ^ bits c 3 0) va.toNat n

/-- Ports of a context that watch an access. -/
def watchPorts (s : State) (c : Nat) (va : W64) (n : Nat) (rd wr : Bool) : List Nat :=
  (List.range 4).filter (fun k =>
    let p := nth {} (ctxAt s c).ports k
    watchHit p 0 va n rd wr || watchHit p 1 va n rd wr)

/-- What the watches make of an access (R362): the claiming ports halt the group, else the lane takes WATCH. -/
def watchHalt (s : State) (c : Nat) (va : W64) (n : Nat) (rd wr : Bool) : Option Halt :=
  match watchPorts s c va n rd wr with
  | [] => none
  | ps => some (.watch (ps.filter (fun k => bit (nth {} (ctxAt s c).ports k).dctl.toNat 1)) va)

/-- An access before its checks: alignment, bytes, what it does, the page kinds that R122 admits, whether CLASS_CROSS is
tested, whether watches see it. -/
structure AccReq where
  va : W64
  align : Nat
  size : Nat
  acc : AccKind
  kinds : List PKind
  cls : Bool := false
  watched : Bool := true
  deriving DecidableEq, Repr

/-- Rank of a class (R123). -/
def classRank : RClass → Nat
  | .proof => 2 | .check => 1 | .draft => 0

/-- Outcome of the checks of R123, steps 1 to 3: what the pointer reaches, or why the lane ends. -/
inductive AccOut where
  | ok (r : Reach)
  | halt (h : Halt)
  deriving DecidableEq, Repr

/-- A page may be accessed so: KIND (R122); a condensed page takes no elements, an editioned access one cell. -/
def kindOk (a : PageAttr) (q : AccReq) : Bool :=
  q.kinds.contains a.kind && !(a.kind == .editioned && decide (8 < q.va.toNat % 8 + q.size))

/-- A page of another package may be accessed so, as far as it is known: a cell is on an editioned page, a plate on a plated one, and either is on
none of its ordinary pages nor of its host's; an editioned access takes one cell (R122). -/
def peerKindOk (s : State) (c : Nat) (q : AccReq) : Bool :=
  if q.kinds.contains .ordinary then peerPage s c q.va || !q.kinds.contains .editioned || decide (q.va.toNat % 8 + q.size ≤ 8)
  else !peerPage s c q.va

/-- Steps 1 to 3 of R123 for a lane, with the watch of R362 between 2 and 3. -/
def checkAcc (s : State) (u l : Nat) (q : AccReq) : AccOut :=
  let c := ctxOf s u
  let ln := lane s u l
  if q.va.toNat % q.align ≠ 0 then .halt (.trap .align q.va)
  else
    let rd := q.acc == .read || q.acc == .readWrite
    let wr := q.acc == .write || q.acc == .readWrite
    let w := if q.watched then watchHalt s c q.va q.size rd wr else none
    match reach s (vmidOf s c) (asidOf s c) q.va q.acc ln.mode with
    | .access => .halt (.trap .access q.va)
    | .poison => .halt (.poison [noKey] q.va)
    | .fault a st lv => .halt (.page a st lv q.va q.acc)
    | .peer n =>
      if !peerKindOk s c q then .halt (.trap .access q.va)
      else match w with
      | some h => .halt h
      | none => .ok (.peer n)
    | .page a o pa =>
      if !kindOk a q then .halt (.trap .access q.va)
      else match w with
      | some h => .halt h
      | none =>
        if q.cls && decide (classRank a.rclass < classRank ln.rclass) then .halt (.trap .classCross q.va)
        else .ok (.page a o pa)

/-! ### Immediates, literals, identity -/

/-- Code of the exact value k in a format (R43). -/
def fmtOfInt (f : Fmt) (k : Int) : Nat := (round f .rtz true 0 (fvalOfInt k)).code

/-- What an immediate specifier of value k delivers to an operand type (R43). -/
def immCode (t : OTy) (k : Int) : Nat :=
  match t with
  | .int w => wrap w k
  | .flt f => fmtOfInt f k
  | .pair bf => fmtOfInt (pairFmt bf) k * 65537
  | .cplx c => fmtOfInt (ftyFmt c) k
  | .dyn => wrap 32 k
  | .q4 | .run _ => 0

/-- An f32 code as an f64 code, exactly (R44). -/
def f32to64 (c : Nat) : Nat := (round .f64 .rne false 0 (fmtDecode .f32 c)).code

/-- What LIT delivers to an operand type (R44). -/
def litCode (t : OTy) (w : W32) : Nat :=
  match t with
  | .int 64 => wrap 64 (sext 32 w.toNat)
  | .int n => w.toNat % 2 ^ n
  | .flt f => if f = .f64 then f32to64 w.toNat else w.toNat % 2 ^ fmtWidth f
  | _ => w.toNat

/-- The group identity word (R45). -/
def grpWord (s : State) (u : Nat) : Nat :=
  let g := grp s u
  coreOf s u * 2 ^ 13 + (slotOf g).getD 0 * 2 ^ 8 + ((gangOf s u).groups.length - 1) % 16 * 2 ^ 4 + g.gidx % 16

/-- The lane that a pattern selects (R55). -/
def patLane (p : Pat) (l : Nat) : Nat :=
  match p with
  | .ident => l
  | .rot k => (l + k.val) % 32
  | .bc k => k.val
  | .bf k => (l ^^^ k.val) % 32

/-- The width that an element of a stream must have for a float or packed operand (R51); none for an integer. A float of 4 or 6 bits has a whole
byte (assumption 47). -/
def streamWidth : OTy → Option Nat
  | .flt f => some (8 * ((fmtWidth f + 7) / 8))
  | .pair _ => some 32
  | .cplx t => some (if t = .f32 then 64 else 32)
  | _ => none

/-- Cut an operand to its width. -/
def cutTo (t : OTy) (x : Nat) : Nat :=
  match t with
  | .int w => x % 2 ^ w
  | .flt f => x % 2 ^ fmtWidth f
  | _ => x

/-! ### Streams (R51) -/

/-- Total of a stream. -/
def streamTotal (q : Stream) : Nat := (q.dims.map (fun d => d.ext.toNat)).foldl (· * ·) 1

/-- Address of linear index n: coordinates with dimension 0 fastest. -/
def streamOffset : List Dim → Nat → Int
  | [], _ => 0
  | [d], n => (n : Int) * sext 32 d.stride.toNat
  | d :: ds, n => ((n % d.ext.toNat : Nat) : Int) * sext 32 d.stride.toNat + streamOffset ds (n / d.ext.toNat)

def streamAddr (q : Stream) (n : Nat) : W64 := q.base + BitVec.ofInt 64 (streamOffset q.dims n)

/-- The stream with dimensions 0 and 1 exchanged: `quant.t` walks dimension 1 fastest (R112). -/
def streamT (q : Stream) : Stream :=
  match q.dims with
  | a :: b :: ds => { q with dims := b :: a :: ds }
  | _ => q

/-- Bytes of an element. -/
def esizeBytes (q : Stream) : Nat := 2 ^ q.esize.toNat

/-- The address that lane l uses of a stream, none beyond its total. -/
def streamAt (q : Stream) (l : Nat) : Option W64 :=
  let n := q.pos.toNat + l
  if n < streamTotal q then some (streamAddr q n) else none

/-- The access of a stream read or write. -/
def streamReq (q : Stream) (va : W64) (wr : Bool) : AccReq :=
  { va := va, align := esizeBytes q, size := esizeBytes q, acc := if wr then .write else .read,
    kinds := [.ordinary, .editioned, .code], cls := !wr, watched := false }

/-- An element read by a lane: its raw code, or why the lane ends. -/
inductive Elem where
  | val (x : Nat)
  | halt (h : Halt)
  deriving DecidableEq, Repr

/-- Editioned newest value at issue (R122). -/
def editionNow (s : State) (a : PageAttr) (owner : Nat) (va : W64) (n : Nat) : OwnOut :=
  match a.region with
  | none => .trap .access
  | some r =>
    match edDesc s (mkey owner r.desc) with
    | .access => .trap .access
    | .poison => .poison (badAt s (mkey owner r.desc) 64)
    | .ok d => match edIndex d va with
      | none => .trap .access
      | some i => edReadNewest s d owner i (va.toNat % 8) n

/-- An element as an owner's answer gives it. -/
def elemOf (va : W64) : OwnOut → Elem
  | .val x => .val x
  | .poison k => .halt (.poison k va)
  | .trap c => .halt (.trap c va)
  | .park _ => .val 0

/-- Read an element of stream k, as q describes it, for lane l of a group: R217 at the step of issue, or the answer to the request that
was sent for it (R52). -/
def streamElem (s : State) (u l k : Nat) (q : Stream) : Elem :=
  match streamAt q l with
  | none => .val 0
  | some va =>
    let n := esizeBytes q
    match (lane s u l).qgot.find? (fun p => p.1 == k) with
    | some (_, .val x) => .val x
    | some (_, .poison keys) => .halt (.poison keys va)
    | some (_, .trap c) => .halt (.trap c va)
    | none =>
      match checkAcc s u l (streamReq q va false) with
      | .halt h => .halt h
      | .ok (.page a o pa) =>
        if a.kind = .editioned then elemOf va (editionNow s a o va n)
        else if ownMem s u l .plain .core o pa va n then
          if dataBad s a.rclass o pa n then .halt (.poison (badAt s (mkey o pa) n) va) else .val (leNat (dataBytes s a.rclass o pa n))
        else match loadAt s u l .plain .core none o pa va n with
          | .now bs => .val (leNat bs)
          | _ => .val (leNat (dataBytes s a.rclass o pa n))
      | .ok (.peer p) =>
        (match loadAt s u l .plain .core (some p) (ptrOwner va) (ptrOfs va) va n with
         | .now bs => .val (leNat bs)
         | _ => .val (leNat (openBytes s va.toNat n)))
      | .ok _ => .val 0

/-- The stream of a lane as an instruction reads it. -/
def streamOf (s : State) (u l k : Nat) (tr : Bool) : Stream :=
  let q := nth {} (lane s u l).q k
  if tr then streamT q else q

/-- Extend an element to an integer operand, or check its size (R51). -/
def elemTo (t : OTy) (q : Stream) (x : Nat) : Elem :=
  let w := 8 * esizeBytes q
  match streamWidth t with
  | some n => if w = n then .val (cutTo t x) else .halt (.trap .illegal 2)
  | none =>
    let m := match t with
      | .int m => m
      | _ => 32
    .val (if w < m then (if q.sign then wrap m (sext w x) else x) else x % 2 ^ m)

/-! ### Reading a source in a lane -/

/-- A source as a lane reads it: its value, why the lane ends if it does, and whether XLANE is set (R56). -/
structure SrcVal where
  val : Nat
  halt : Option Halt := none
  xlane : Bool := false
  deriving DecidableEq, Repr

/-- Register words n .. n + cnt - 1 of a lane; a poisoned word halts the reader (R204). -/
def readRegs (ln : Lane) (n cnt : Nat) (x : Bool := false) : SrcVal :=
  ⟨getRegs ln n cnt, if ln.vpois.any (fun k => decide (n ≤ k) && decide (k < n + cnt)) then some .poisonReg else none, x⟩

/-- Read per-lane registers from the selected lane, 0 and XLANE where it is not in S. -/
def readCross (g : Group) (ls : List Nat) (src n cnt : Nat) : SrcVal :=
  if ls.contains src then readRegs (laneAt g src) n cnt else ⟨0, none, true⟩

/-- What a lane's own read of stream k delivers to an operand type: its size is checked, then its access is made (R51, R52). -/
def streamOwn (s : State) (u : Nat) (t : OTy) (k l : Nat) (tr : Bool) : Elem :=
  let q := streamOf s u l k tr
  match elemTo t q 0 with
  | .halt h => .halt h
  | .val _ => match streamElem s u l k q with
    | .val x => elemTo t q x
    | .halt h => .halt h

/-- Read stream k for lane l: every lane reads its own element (R51), and l receives that of the selected lane (R55). Where that lane ends
in its own access, l receives a value that nothing fixes. -/
def readStream (s : State) (u : Nat) (ls : List Nat) (t : OTy) (k src l : Nat) (tr : Bool) : SrcVal :=
  let own : Option Halt := match streamOwn s u t k l tr with
    | .val _ => none
    | .halt h => some h
  if !ls.contains src then ⟨0, own, true⟩
  else match streamOwn s u t k src tr with
    | .val x => ⟨x, own, false⟩
    | .halt _ => ⟨(Config.freeWord (s.free + src)).toNat % 2 ^ (32 * otyRegs t), own, false⟩

/-- What an operand field delivers to lane l of issue set ls (R42 to R47, R55, R56). -/
def readSrc (s : State) (u : Nat) (ls : List Nat) (t : OTy) (o : Opnd) (l : Nat) (tr : Bool := false) : SrcVal :=
  let g := grp s u
  let src := patLane o.pat l
  let cnt := otyRegs t
  let cut (r : SrcVal) : SrcVal := { r with val := cutTo t r.val }
  match o.src with
  | .v n => cut (readCross g ls src n.val cnt)
  | .o n => cut (readCross g ls src (128 + n.val) cnt)
  | .h0 => cut (readCross g ls src 136 cnt)
  | .h1 => cut (readCross g ls src 137 1)
  | .c n => ⟨cutTo t ((smGet 0 g.cbank n.val).toNat + (if cnt = 2 then 2 ^ 32 * (smGet 0 g.cbank (n.val + 1)).toNat else 0)), none, false⟩
  | .imm k => ⟨immCode t (immVal k), none, false⟩
  | .lit w => ⟨litCode t w, none, false⟩
  | .lane => ⟨cutTo t l, none, false⟩
  | .grp => ⟨cutTo t (grpWord s u), none, false⟩
  | .q n => readStream s u ls t n.val src l tr

/-- The operands of a lane: values in field order, the first reason that ends it, whether XLANE is set. -/
structure LaneIn where
  lane : Nat
  vals : List Nat
  halt : Option Halt := none
  xlane : Bool := false
  deriving DecidableEq, Repr

/-- Read every operand of a lane. -/
def readLane (s : State) (u : Nat) (ls : List Nat) (os : List (Opnd × OTy)) (tr : Bool) (l : Nat) : LaneIn :=
  let rs := os.map (fun p => readSrc s u ls p.2 p.1 l tr)
  ⟨l, rs.map (fun r => r.val), rs.findSome? (fun r => r.halt), rs.any (fun r => r.xlane)⟩

/-- Read every operand of every lane of S before anything is written (R55). -/
def readAll (s : State) (u : Nat) (ls : List Nat) (os : List (Opnd × OTy)) (tr : Bool := false) : List LaneIn :=
  ls.map (readLane s u ls os tr)

/-- Operand k of a lane. -/
def LaneIn.x (a : LaneIn) (k : Nat) : Nat := nth 0 a.vals k

/-- The streams that sources name, each once (R52). -/
def srcStreams (os : List (Opnd × OTy)) : List Nat :=
  (os.filterMap (fun p => match p.1.src with
    | .q n => some n.val
    | _ => none)).eraseDups

/-- Errors met by the stream reads of a lane are counted (R338), and translations held (R315). -/
def streamMet (s : State) (u l k : Nat) (tr : Bool) : State :=
  let q := streamOf s u l k tr
  match streamAt q l with
  | none => s
  | some va =>
    match checkAcc s u l (streamReq q va false) with
    | .ok (.page a o pa) =>
      let s1 := tlbFill s (launchOf s u) o (vmidOf s (ctxOf s u)) (asidOf s (ctxOf s u)) (ptrOfs va) a
      if a.kind = .editioned ∨ ownMem s u l .plain .core o pa va (esizeBytes q) then dataMet s1 (launchOf s u) a.rclass o pa (esizeBytes q) else s1
    | _ => s

/-! ### Sent stream reads (R52, R217 rule 4) -/

/-- The streams that an instruction reads, each with the types of its fields. -/
def streamFields (os : List (Opnd × OTy)) : List (Nat × OTy) :=
  os.filterMap (fun p => match p.1.src with
    | .q n => some (n.val, p.2)
    | _ => none)

/-- The request that a lane's read of stream k needs, where the element is not at hand and the lane does not end. -/
def streamSend (s : State) (u l acc k : Nat) (tr : Bool) : Option ReadReq :=
  let q := streamOf s u l k tr
  match streamAt q l with
  | none => none
  | some va =>
    let n := esizeBytes q
    let base : ReadReq := {
      kind := .stream k, uid := u, lane := l, acc := acc, owner := ptrOwner va, pa := ptrOfs va, va := va, size := n,
      sem := .plain, scope := .core, ctx := ctxOf s u, launch := launchOf s u }
    if (lane s u l).qgot.any (fun p => p.1 == k) then none
    else match checkAcc s u l (streamReq q va false) with
      | .ok (.page a o pa) =>
        if a.kind = .editioned then
          (match a.region with
           | some r => if o = dieOf (coreOf s u) then none
             else some { base with kind := .streamEd k (va.toNat % 8) (mkey o r.desc), owner := o, pa := pa }
           | none => none)
        else if loadAt s u l .plain .core none o pa va n = .send then some { base with owner := o, pa := pa, cls := a.rclass }
        else none
      | .ok (.peer p) => if loadAt s u l .plain .core (some p) (ptrOwner va) (ptrOfs va) va n = .send then some { base with peer := some p } else none
      | _ => none

/-- The requests of a set for the stream elements that are not at hand; none where a lane meets a page fault, which saves the group. -/
def streamSends (s : State) (u : Nat) (ls : List Nat) (os : List (Opnd × OTy)) (tr : Bool) (acc : Nat) : List ReadReq :=
  let fs := streamFields os
  let faults : Bool := ls.any (fun l => fs.any (fun f => match streamOwn s u f.2 f.1 l tr with
    | .halt (.page ..) => true
    | _ => false))
  if faults then []
  else ls.flatMap (fun l => (srcStreams os).filterMap (fun k =>
    if fs.any (fun f => f.1 == k && elemTo f.2 (streamOf s u l k tr) 0 != .val 0) then none else streamSend s u l acc k tr))

/-! ### Ending a lane's part -/

/-- The errors that a lane met where it ends are counted (R338, R339): in the tables of its translation, in memory, or in an array of its own; a code
word counted its own when it was read. -/
def haltMet (s : State) (u l : Nat) (h : Halt) : State :=
  let c := ctxOf s u
  let k := launchOf s u
  match h with
  | .poison keys va =>
    let key := keys.headD noKey
    if key = noKey then walkMet s k (ptrOwner va) (vmidOf s c) (asidOf s c) (ptrOfs va)
    else if keys.any (fun x => poisoned s.poison x 1) then keys.foldl (fun s x => meetHbm s x 1 (some k)) s
    else match reach s (vmidOf s c) (asidOf s c) va .read (lane s u l).mode with
      | .page a _ _ => if a.kind = .code then s else relEvent s 2 3 (stackOf key) (classCode a.rclass) key (some k)
      | _ => s
  | .poisonOwn p n _ => meetArr s p n
  | _ => s

/-- Deal with a lane that ends (R123, R296, R350, R362); `pc` is the instruction. Page faults are not dealt with here. -/
def haltLane (s : State) (u l : Nat) (pc : W64) (h : Halt) : State :=
  let s := haltMet s u l h
  match h with
  | .trap c v => trapRegion s u l c v pc
  | .fpx fl cnt =>
    trapRegion (modLane s u l (fun ln => { orFmode ln (fl % 32 * 16) with srcnt := BitVec.ofNat 64 cnt })) u l .fpx (BitVec.ofNat 64 (fl % 32)) pc
  | .poison keys va =>
    let p := consume s (launchOf s u) (snapHolds (launchAt s (launchOf s u)) keys)
    if p.2 then trapRegion p.1 u l .poison va pc else p.1
  | .poisonOwn _ _ va =>
    let p := consume s (launchOf s u) true
    if p.2 then trapRegion p.1 u l .poison va pc else p.1
  | .poisonReg =>
    let p := consume s (launchOf s u) true
    if p.2 then
      let w := takeFreeWord p.1
      trapRegion w.2 u l .poison w.1 pc
    else p.1
  | .watch ports va =>
    match ports with
    | [] => trapRegion s u l .watch va pc
    | _ => modGrp (modLane s u l (fun ln => { ln with rewind := true })) u (fun g => { g with halted := (g.halted ++ ports).eraseDups })
  | .page .. => s

/-- The page faults among the outcomes of the lanes. -/
def pageFaults (hs : List (Nat × Option Halt)) (pc : W64) : List LaneFault :=
  hs.filterMap (fun p => match p.2 with
    | some (.page ab st lv va acc) => some ⟨p.1, va, pc, accCode acc, false, false, faultWhere ab st lv⟩
    | _ => none)

/-- Settle the lanes that end; where one met a page fault, the group is saved and nothing else happens (R123, R301). The
outcome is true where the instruction goes on. -/
def haltLanes (s : State) (hs : List (Nat × Option Halt)) : State × Bool :=
  let pc := s.cur.pc
  match pageFaults hs pc with
  | [] => (hs.foldl (fun s p => match p.2 with
      | some h => haltLane s s.cur.uid p.1 pc h
      | none => s) s, true)
  | fs => (beginSave s s.cur.uid .pageFault fs (hs.map (fun p => p.1)), false)

end Sys2Proof.Machine
end

