-- ==== Sys2Proof/Machine/Flags.lean ====
section
/-! DEFINITION. FMODE: the sticky flags, their trap enables and FPX (R64, R66), XLANE (R56), and the runner of the
instructions that compute (integer, float, immediate). -/

namespace Sys2Proof.Machine

/-- Flags (FNV, FDZ, FOF, FUF, FNX in bits 0 to 4) as FMODE bits 4 to 8 (R64). -/
def flagBits (fl : Nat) : Nat := fl % 32 * 16

/-- The trap enables of FMODE in the order of the flags (R64). -/
def enables (fmode : W32) : Nat := bits fmode.toNat 13 9

/-- Some raised flag has its trap enabled (R66). -/
def fpxDue (ln : Lane) (fl : Nat) : Bool := (enables ln.fmode &&& fl) != 0

/-- OR flags into FMODE. -/
def setFlags (ln : Lane) (fl : Nat) : Lane := orFmode ln (flagBits fl)

/-- Set XLANE (R56). -/
def setXlane (ln : Lane) (x : Bool) : Lane := if x then orFmode ln 0x4000 else ln

/-- What the computation of a lane gives: the result, the flags raised, SRCNT after it, an XLANE of its own (R91), and a
reason that ends the lane (R95). -/
structure Res where
  val : Nat
  flags : Nat := 0
  cnt : Option Nat := none
  xlane : Bool := false
  halt : Option Halt := none
  deriving DecidableEq, Repr

/-- The result of a computation under a rounding state (R65). -/
def resOf (p : Nat × RCtx) : Res := { val := p.1, flags := p.2.flags, cnt := some p.2.cnt }

/-- What a lane brings to the end of an instruction: its result, or the reason that ends it. -/
structure LaneEnd where
  lane : Nat
  res : Res
  halt : Option Halt
  deriving DecidableEq, Repr

/-- The access of the destination stream of a lane, at its advanced position (R52). -/
def destAt (ln : Lane) (srcQs : List Nat) (k l : Nat) : Stream × Option W64 :=
  let q := nth {} (advanceQs ln srcQs).q k
  (q, streamAt q l)

/-- The checks of a stream write (R52): those of `st`, and the size of a float or packed result. `bits` is the width that
the element must have, none for an integer result. -/
def destCheck (s : State) (u l : Nat) (srcQs : List Nat) (k : Nat) (width : Option Nat) : Option Halt × Option (Stream × W64 × Reach) :=
  let q := destAt (lane s u l) srcQs k l
  match width with
  | some w => if 8 * esizeBytes q.1 ≠ w then (some (.trap .illegal 2), none) else go q
  | none => go q
where
  go (q : Stream × Option W64) : Option Halt × Option (Stream × W64 × Reach) :=
    match q.2 with
    | none => (none, none)
    | some va =>
      match checkAcc s u l (streamReq q.1 va true) with
      | .halt h => (some h, none)
      | .ok (.page a o pa) =>
        if a.kind = .editioned then
          match a.region with
          | none => (some (.trap .access va), none)
          | some r =>
            match edDesc s (mkey o r.desc) with
            | .access => (some (.trap .access va), none)
            | .poison => (none, some (q.1, va, .page a o pa))
            | .ok d => match edIndex d va with
              | none => (some (.trap .access va), none)
              | some i =>
                if edNewest s (edCell d o i) = 2 ^ 32 - 1 then (some (.trap .editionOverflow va), none)
                else (none, some (q.1, va, .page a o pa))
        else (none, some (q.1, va, .page a o pa))
      | .ok r => (none, some (q.1, va, r))

/-- The entry of a stream store of ordinary or editioned bytes: a commit (R52, R125, R216). -/
def streamEntry (s : State) (u l acc : Nat) (r : Reach) (va : W64) (bs : List Byte) : FEntry :=
  let base : FEntry := {
    id := 0, uid := u, lane := l, acc := acc, act := .bytes bs, owner := 0, pa := 0, va := va,
    size := bs.length,
    sem := .plain, scope := .core, coreRel := (lane s u l).coreRelFence, commits := true, pc := s.cur.pc, ctx := ctxOf s u,
    launch := launchOf s u }
  match r with
  | .page a o pa =>
    match a.kind, a.region with
    | .editioned, some g => { base with act := .est bs (mkey o g.desc), owner := o, pa := pa, cls := a.rclass }
    | _, _ => { base with owner := o, pa := pa, cls := a.rclass }
  | .peer n =>
    { base with owner := ptrOwner va, pa := ptrOfs va, peer := some n, act := if peerPage s (ctxOf s u) va then .bytes bs else .est bs 0 }
  | _ => base

/-- What an instruction changes at its issue in a lane, before it does: POS of the streams it names, and h0 and h1 where it shifts them. -/
def undoOf (ln : Lane) (ks : List Nat) (h : Bool) : Undo :=
  ⟨ln.depth, ks.map (fun k => (k, (nth {} ln.q k).pos)), if h then some (ln.h0, ln.h1) else none⟩

/-- What an access of a lane has on its way keeps what a trap of it gives back (R51). -/
def markUndo (s : State) (u l acc : Nat) (un : Undo) : State :=
  { modLane s u l (fun ln => { ln with fifo := ln.fifo.map (fun e => if e.acc = acc then { e with undo := some un } else e) }) with
    links := s.links.map (fun p => match p.2 with
      | .read r d => if r.uid = u ∧ r.lane = l ∧ r.acc = acc then (p.1, .read { r with undo := some un } d) else p
      | .entry .. => p) }

/-- Put an entry at the tail of its thread's FIFO (R216). -/
def pushEntry (s : State) (e : FEntry) : State :=
  let id := takeFresh s
  modLane id.2 e.uid e.lane (fun ln => { ln with fifo := ln.fifo ++ [{ e with id := id.1 }] })

/-- The commit step of R125 for a lane of the current issue set: what is pending of the last-result file is written first. -/
def commitCur (s : State) (l : Nat) : State :=
  modLane (flushH s s.cur.uid l) s.cur.uid l (fun ln => commitLane ln s.cur.len)

/-- A commit of a lane of the current issue set is issued under an access: what is pending of the last-result file is written
first (R125). -/
def commitStart (s : State) (l acc : Nat) : State :=
  modLane (flushH s s.cur.uid l) s.cur.uid l (fun ln => commitIssued ln acc s.cur.len)

/-- Go on past the current instruction in a lane. -/
def advanceCur (s : State) (l : Nat) : State := modLane s s.cur.uid l (fun ln => advance ln s.cur.len)

/-- The streams of a lane that completes advance (R51); what its reads met is counted (R338). -/
def finishStreams (s : State) (l : Nat) (ks : List Nat) (tr : Bool) : State :=
  let s := ks.foldl (fun s k => streamMet s s.cur.uid l k tr) s
  modLane s s.cur.uid l (fun ln => advanceQs ln ks)

/-- Registers that a result of n words writes at a destination; none for a stream or `none`. -/
def dstReg : Dst → Option Nat
  | .v n => some n.val
  | .o n => some (128 + n.val)
  | _ => none

/-- Write a result of cnt words at once and shift the last-result file (R48, R49). -/
def writeResult (ln : Lane) (d : Dst) (cnt x : Nat) : Lane :=
  let ln := match dstReg d with
    | some n => setRegs ln n cnt x
    | none => ln
  shiftH ln (cnt == 2) x

/-- The register writes of a deferred result (R109): its destination, and the last-result file. -/
def deferWrites (ln : Lane) (l : Nat) (d : Dst) (cnt x : Nat) : List RegWrite :=
  (match dstReg d with
    | some n => regWrites l n cnt x
    | none => []) ++
  (if cnt = 2 then [⟨l, 136, BitVec.ofNat 32 x⟩, ⟨l, 137, BitVec.ofNat 32 (x / 2 ^ 32)⟩] else [⟨l, 137, ln.h0⟩, ⟨l, 136, BitVec.ofNat 32 x⟩])

/-- The width of the element that a result needs as a stream store (R51): a float or packed result states one, a float of 4 or 6 bits a whole byte
(assumption 47). -/
def resWidth (i : Instr) : Option Nat :=
  match i with
  | .fadd t .. | .fsub t .. | .fmul t .. | .fmac t .. | .fmin t .. | .fmax t .. | .frnd t .. | .fscale t .. => some (fmtWidth (ftyFmt t))
  | .fma .. | .frcp .. | .frsq .. | .fsqrt .. | .fexp2 .. | .flog2 .. | .deq .. | .fdot2 .. | .fmovi .. | .faddi .. | .fmuli .. | .fmai .. => some 32
  | .h2add .. | .h2mul .. | .h2fma .. => some 32
  | .dadd .. | .dmul .. | .dfma .. => some 64
  | .cmul t .. => some (if t = .f32 then 64 else 32)
  | .cvt dir f .. =>
    match dir with
    | .toF32 => some 32
    | .toF64 => some 64
    | _ => if fmtIsInt f then none else some (8 * ((fmtWidth f + 7) / 8))
  | .rng f .. => if f = .f32 then some 32 else none
  | _ => none

/-- Flags, XLANE and SRCNT of a lane are kept whether it completes or ends (R56, R66). -/
def noteLane (s : State) (e : LaneEnd) (x : Bool) : State :=
  modLane s s.cur.uid e.lane (fun ln =>
    let ln := setXlane (setFlags ln e.res.flags) (x || e.res.xlane)
    match e.res.cnt with
    | some n => { ln with srcnt := BitVec.ofNat 64 n }
    | none => ln)

/-- Complete a lane of a computing instruction: streams advance, the result is written and the instruction passed. A stream store enters
the FIFO, its bytes above a result of 32 bits being 0, and commits when it is performed, at once where there is nothing to store
(R49, R51, R125). -/
def completeLane (s : State) (d : Dst) (cnt acc : Nat) (ks : List Nat) (tr : Bool) (width : Option Nat) (e : LaneEnd) : State :=
  let s0 := finishStreams s e.lane ks tr
  match d with
  | .q k =>
    let chk := destCheck s s.cur.uid e.lane ks k.val width
    let s1 := modLane s0 s.cur.uid e.lane (fun ln => shiftH (advanceQ ln k.val) (cnt == 2) e.res.val)
    match chk.2 with
    | some (q, va, r) =>
      let s1 := advanceCur (commitStart s1 e.lane acc) e.lane
      let s1 := reachFill s1 (launchOf s s.cur.uid) (vmidOf s (ctxOf s s.cur.uid)) (asidOf s (ctxOf s s.cur.uid)) va r
      pushEntry s1 { streamEntry s s.cur.uid e.lane acc r va (leBytes (esizeBytes q) e.res.val) with
        undo := some (undoOf (lane s s.cur.uid e.lane) (ks ++ [k.val]) true) }
    | none => endAcc (advanceCur (commitCur s1 e.lane) e.lane) s.cur.uid acc
  | _ => modLane s0 s.cur.uid e.lane (fun ln => advance (writeResult ln d cnt e.res.val) s.cur.len)

/-- The outcome of a lane: its operands, then its destination, then its own computation, then FPX (R123). -/
def laneEnd (s : State) (d : Dst) (ks : List Nat) (width : Option Nat) (f : LaneIn → Res) (a : LaneIn) : LaneEnd :=
  match a.halt with
  | some h => ⟨a.lane, { val := 0 }, some h⟩
  | none =>
    let dh := match d with
      | .q k => (destCheck s s.cur.uid a.lane ks k.val width).1
      | _ => none
    match dh with
    | some h => ⟨a.lane, { val := 0 }, some h⟩
    | none =>
      let r := f a
      match r.halt with
      | some h => ⟨a.lane, { r with flags := 0, cnt := none }, some h⟩
      | none =>
        if fpxDue (lane s s.cur.uid a.lane) r.flags then ⟨a.lane, r, some (.trap .fpx (BitVec.ofNat 64 (r.flags % 32)))⟩
        else ⟨a.lane, r, none⟩

/-- Run a computing instruction with operands `os` and destination `d` of `cnt` words (R42 to R56, R66, R123): `f` computes
a lane's result from its operands, given those of every lane. `width` is the element width that a stream result needs, `tr`
reads streams transposed. -/
def runWith (s : State) (os : List (Opnd × OTy)) (d : Dst) (cnt : Nat) (width : Option Nat) (tr : Bool)
    (f : List LaneIn → LaneIn → Res) : State :=
  let u := s.cur.uid
  let ks := srcStreams os
  let ins := readAll s u s.cur.lanes os tr
  let ends := ins.map (laneEnd s d ks width (f ins))
  let hs := ends.map (fun e => (e.lane, e.halt))
  if !(pageFaults hs s.cur.pc).isEmpty then (haltLanes s hs).1
  else
    let id := takeFresh s
    let ok := ends.filter (fun e => e.halt.isNone)
    let s := (ins.zip ends).foldl (fun s p => noteLane s p.2 p.1.xlane) { id.2 with free := s.free + 64 }
    let s := match d with
      | .q _ => beginAcc s u id.1 .st ok.length
      | _ => s
    let s := ok.foldl (fun s e => completeLane s d cnt id.1 ks tr width e) s
    (haltLanes s hs).1

/-- Run a computing instruction whose operands and destination are those of i. -/
def runCompute (s : State) (i : Instr) (f : LaneIn → Res) : State :=
  let d := (dest i).getD (.none, 1)
  runWith s (srcs i) d.1 d.2 (resWidth i) false (fun _ a => f a)

/-- The stream stores of a scoreboarded result (R109). -/
def deferStores (s : State) (d : Dst) (ks : List Nat) (width : Option Nat) (acc : Nat) (ok : List LaneEnd) : List FEntry :=
  match d with
  | .q k => ok.filterMap (fun e => (destCheck s s.cur.uid e.lane ks k.val width).2.map (fun c =>
      { streamEntry s s.cur.uid e.lane acc c.2.2 c.2.1 (leBytes (esizeBytes c.1) e.res.val) with
        undo := some (undoOf (lane (flushH s s.cur.uid e.lane) s.cur.uid e.lane) (ks ++ [k.val]) true) }))
  | _ => []

/-- A lane whose result is deferred, with a stream destination: its stream advances, and its commit is issued with the last-result file
as the result leaves it (R109, R125). -/
def deferLane (s : State) (d : Dst) (cnt acc : Nat) (stores : List FEntry) (e : LaneEnd) : State :=
  match d with
  | .q k =>
    modLane (flushH s s.cur.uid e.lane) s.cur.uid e.lane (fun ln =>
      let ln := advanceQ ln k.val
      let after := shiftH ln (cnt == 2) e.res.val
      if stores.any (fun x => x.lane == e.lane) then { ln with commits := (commitIssued after acc s.cur.len).commits }
      else { ln with recs := (commitLane after s.cur.len).recs, commits := (passCommits ln).commits })
  | _ => s

/-- A lane that issues a scoreboarded instruction, before and after its flags are noted. -/
def issuedLane (before after : Lane) (l : Nat) : Issued :=
  ⟨l, before.depth, curRec (takeCommits before), after.fmode &&& ~~~before.fmode⟩

/-- As `runCompute` for an instruction whose result is scoreboarded (R95, R109): registers and last-result file are written by
RESULT_WRITEBACK, which issues the store of a stream result; ST counts it from now. `fz`: a lane with a trap enabled issues nothing
until then. -/
def runDeferred (s : State) (i : Instr) (fz : Bool) (f : List LaneIn → LaneIn → Res) : State :=
  let d := (dest i).getD (.none, 1)
  let u := s.cur.uid
  let os := srcs i
  let ks := srcStreams os
  let ins := readAll s u s.cur.lanes os
  let ends := ins.map (laneEnd s d.1 ks (resWidth i) (f ins))
  let hs := ends.map (fun e => (e.lane, e.halt))
  if !(pageFaults hs s.cur.pc).isEmpty then (haltLanes s hs).1
  else
    let id := takeFresh s
    let acc := takeFresh id.2
    let ok := ends.filter (fun e => e.halt.isNone)
    let stores := deferStores s d.1 ks (resWidth i) acc.1 ok
    let before := s
    let s := (ins.zip ends).foldl (fun s p => noteLane s p.2 p.1.xlane) { acc.2 with free := s.free + 64 }
    let ws := (ok.map (fun e => deferWrites (lane s u e.lane) e.lane d.1 d.2 e.res.val)).flatten
    let frozen := (ok.filter (fun e => fz && enables (lane s u e.lane).fmode != 0)).map (fun e => e.lane)
    let since := ok.map (fun e => issuedLane (lane before u e.lane) (lane s u e.lane) e.lane)
    let s := beginAcc s u acc.1 .st stores.length
    let s := ok.foldl (fun s e => advanceCur (deferLane (finishStreams s e.lane ks false) d.1 d.2 acc.1 stores e) e.lane) s
    let s := if ok.isEmpty then s
      else modGrp s u (fun g => { g with pend := tPut g.pend id.1 { writes := ws, stores := stores, frozen := frozen, since := since } })
    (haltLanes s hs).1

end Sys2Proof.Machine
end

