-- ==== Sys2Proof/Machine/IntInstr.lean ====
section
/-! DEFINITION. The integer and logic group, the integer immediates, and their short forms (R87 to R95). -/

namespace Sys2Proof.Machine

/-- The outcome of an instruction that goes on. -/
abbrev Out := Host.Outcome State Fault Refusal

/-- A type is signed (R87). -/
def itySigned : ITy → Bool
  | .i32 | .i64 => true
  | _ => false

/-- Int(x) of R87. -/
def intVal (t : ITy) (x : Nat) : Int := if itySigned t then sext (ityW t) x else ((x % 2 ^ ityW t : Nat) : Int)

/-- Sat(x, t) of R87. -/
def satVal (t : ITy) (x : Int) : Nat :=
  let w := ityW t
  let lo : Int := if itySigned t then -((2 ^ (w - 1) : Nat) : Int) else 0
  let hi : Int := if itySigned t then ((2 ^ (w - 1) - 1 : Nat) : Int) else ((2 ^ w - 1 : Nat) : Int)
  wrap w (max lo (min hi x))

/-- Wrap or Sat of an exact result (R88). -/
def narrow (t : ITy) (sat : Bool) (x : Int) : Nat := if sat then satVal t x else wrap (ityW t) x

/-- The type that the Bool of `imulh`, `iaddw`, `imulw` and `bfx` names: z32 or i32. -/
def ity32 (uns : Bool) : ITy := if uns then .z32 else .i32

/-- Bitwise complement in w bits. -/
def notW (w x : Nat) : Nat := 2 ^ w - 1 - x % 2 ^ w

/-- Shift left by n, taken whole (R89). -/
def shlW (w x n : Nat) : Nat := if w ≤ n then 0 else x * 2 ^ n % 2 ^ w
/-- Shift right with zeros (R89). -/
def shrW (w x n : Nat) : Nat := if w ≤ n then 0 else x % 2 ^ w / 2 ^ n
/-- Shift right with copies of the sign bit (R89). -/
def sarW (w x n : Nat) : Nat := wrap w (sext w x / ((2 ^ min n (w - 1) : Nat) : Int))
/-- Rotate left (R89). -/
def rotW (w x n : Nat) : Nat := (x * 2 ^ (n % w) + x % 2 ^ w / 2 ^ (w - n % w)) % 2 ^ w

/-- Zero bits above the highest 1 bit (R88). -/
def clzW (w x : Nat) : Nat := w - bitLen (x % 2 ^ w)
/-- Zero bits below the lowest 1 bit (R88). -/
def ctzW (w x : Nat) : Nat := ((List.range w).find? (fun i => bit x i)).getD w
/-- Bit i moved to bit w - 1 - i (R88). -/
def brevW (w x : Nat) : Nat := (List.range w).foldl (fun r i => 2 * r + b2n (bit x i)) 0

/-- All ones where a condition holds (R90). -/
def maskOf (b : Bool) : Nat := if b then 0xFFFFFFFF else 0

/-- An integer condition (R90). -/
def ccHolds (cc : Cc) (x y : Int) : Bool :=
  match cc with
  | .eq => x == y
  | .ne => x != y
  | .lt => decide (x < y)
  | .le => decide (x ≤ y)
  | .gt => decide (y < x)
  | .ge => decide (y ≤ x)

/-- Bit-field extract (R92). -/
def bfxVal (sgn : Bool) (a b c : Nat) : Nat :=
  let pos := b % 256
  let len := c % 256
  if len = 0 ∨ 32 ≤ pos then 0
  else
    let e := min (pos + len) 32
    let f := bits a (e - 1) pos
    if sgn then wrap 32 (sext (e - pos) f) else f

/-- Bit-field insert (R92). -/
def bfiVal (a b c : Nat) : Nat :=
  let pos := c % 256
  let len := c / 256 % 256
  if len = 0 ∨ 32 ≤ pos then b else setBits b (min (pos + len) 32 - 1) pos a

/-- Byte permute (R92). -/
def prmtVal (a b c : Nat) : Nat :=
  let x := a % 2 ^ 32 + b * 2 ^ 32
  let byte (k : Nat) : Nat :=
    let s := bits c (4 * k + 3) (4 * k)
    let y := bits x (8 * (s % 8) + 7) (8 * (s % 8))
    if 8 ≤ s then (if 128 ≤ y then 0xFF else 0) else y
  byte 0 + byte 1 * 2 ^ 8 + byte 2 * 2 ^ 16 + byte 3 * 2 ^ 24

/-- Sext(IMM20, 20) (R76). -/
def imm20 (k : BitVec 20) : Int := sext 20 k.toNat

/-- A result without flags. -/
def val (x : Nat) : Res := { val := x }

/-- Run a lane-local integer instruction. -/
def runInt (s : State) (i : Instr) (f : LaneIn → Nat) : Out := .next (runCompute s i (fun a => val (f a)))

/-! ### Shared effects, used by the long and the short form -/

def doMov (t : ITy) (d : Dst) (a : Opnd) (s : State) : Out := runInt s (.mov t d a) (fun x => x.x 0)
def doIadd (t : ITy) (sat : Bool) (d : Dst) (a b : Opnd) (s : State) : Out :=
  runInt s (.iadd t sat d a b) (fun x => narrow t sat (intVal t (x.x 0) + intVal t (x.x 1)))
def doIsub (t : ITy) (sat : Bool) (d : Dst) (a b : Opnd) (s : State) : Out :=
  runInt s (.isub t sat d a b) (fun x => narrow t sat (intVal t (x.x 0) - intVal t (x.x 1)))
def doImul (t : ITy) (sat : Bool) (d : Dst) (a b : Opnd) (s : State) : Out :=
  runInt s (.imul t sat d a b) (fun x => narrow t sat (intVal t (x.x 0) * intVal t (x.x 1)))
def doImulh (uns : Bool) (d : Dst) (a b : Opnd) (s : State) : Out :=
  runInt s (.imulh uns d a b) (fun x => wrap 64 (intVal (ity32 uns) (x.x 0) * intVal (ity32 uns) (x.x 1)) / 2 ^ 32)
def doImad (d : Dst) (a b c : Opnd) (s : State) : Out :=
  runInt s (.imad d a b c) (fun x => (x.x 0 * x.x 1 + x.x 2) % 2 ^ 32)
def doImin (t : ITy) (d : Dst) (a b : Opnd) (s : State) : Out :=
  runInt s (.imin t d a b) (fun x => if intVal t (x.x 1) < intVal t (x.x 0) then x.x 1 else x.x 0)
def doImax (t : ITy) (d : Dst) (a b : Opnd) (s : State) : Out :=
  runInt s (.imax t d a b) (fun x => if intVal t (x.x 0) < intVal t (x.x 1) then x.x 1 else x.x 0)
def doIabs (wide sat : Bool) (d : Dst) (a : Opnd) (s : State) : Out :=
  let t : ITy := if wide then .i64 else .i32
  runInt s (.iabs wide sat d a) (fun x => narrow t sat ((intVal t (x.x 0)).natAbs : Int))
def doAnd (t : ITy) (d : Dst) (a b : Opnd) (s : State) : Out := runInt s (.and t d a b) (fun x => x.x 0 &&& x.x 1)
def doOr (t : ITy) (d : Dst) (a b : Opnd) (s : State) : Out := runInt s (.or t d a b) (fun x => x.x 0 ||| x.x 1)
def doXor (t : ITy) (d : Dst) (a b : Opnd) (s : State) : Out := runInt s (.xor t d a b) (fun x => x.x 0 ^^^ x.x 1)
def doAndn (t : ITy) (d : Dst) (a b : Opnd) (s : State) : Out :=
  runInt s (.andn t d a b) (fun x => x.x 0 &&& notW (ityW t) (x.x 1))
def doShl (t : ITy) (d : Dst) (a b : Opnd) (s : State) : Out := runInt s (.shl t d a b) (fun x => shlW (ityW t) (x.x 0) (x.x 1))
def doShr (t : ITy) (d : Dst) (a b : Opnd) (s : State) : Out := runInt s (.shr t d a b) (fun x => shrW (ityW t) (x.x 0) (x.x 1))
def doSar (t : ITy) (d : Dst) (a b : Opnd) (s : State) : Out := runInt s (.sar t d a b) (fun x => sarW (ityW t) (x.x 0) (x.x 1))
def doRot (t : ITy) (d : Dst) (a b : Opnd) (s : State) : Out := runInt s (.rot t d a b) (fun x => rotW (ityW t) (x.x 0) (x.x 1))
def doPopc (t : ITy) (d : Dst) (a : Opnd) (s : State) : Out := runInt s (.popc t d a) (fun x => popcW (ityW t) (x.x 0))
def doClz (t : ITy) (d : Dst) (a : Opnd) (s : State) : Out := runInt s (.clz t d a) (fun x => clzW (ityW t) (x.x 0))
def doCtz (t : ITy) (d : Dst) (a : Opnd) (s : State) : Out := runInt s (.ctz t d a) (fun x => ctzW (ityW t) (x.x 0))
def doBrev (t : ITy) (d : Dst) (a : Opnd) (s : State) : Out := runInt s (.brev t d a) (fun x => brevW (ityW t) (x.x 0))
def doIcmp (cc : Cc) (t : ITy) (d : Dst) (a b : Opnd) (s : State) : Out :=
  runInt s (.icmp cc t d a b) (fun x => maskOf (ccHolds cc (intVal t (x.x 0)) (intVal t (x.x 1))))
def doSel (d : Dst) (a b c : Opnd) (s : State) : Out :=
  runInt s (.sel d a b c) (fun x => if x.x 2 ≠ 0 then x.x 0 else x.x 1)

/-- The A operand of `perm` as lane j reads it (R91): a poisoned register ends the reader, a stream that lane j cannot read only lane j
itself. -/
def permRead (s : State) (t : OTy) (a : Opnd) (j : Nat) : Res :=
  let r := readSrc s s.cur.uid s.cur.lanes t a j
  match r.halt with
  | some .poisonReg => { val := 0, halt := some .poisonReg }
  | _ => val r.val

/-- `perm` (R91): the operand a of the lane that b names, 0 and XLANE where it is not in S. -/
def doPerm (wide : Bool) (d : Dst) (a b : Opnd) (s : State) : Out :=
  let t : OTy := .int (if wide then 64 else 32)
  let stream := match a.src with
    | .q _ => [(a, t)]
    | _ => []
  .next (runWith s ((b, .int 32) :: stream) d (if wide then 2 else 1) none false (fun _ x =>
    let j := x.x 0 % 32
    if s.cur.lanes.contains j then permRead s t a j else { val := 0, xlane := true }))

/-! ### The long forms -/

/-- NOP (R93). -/
def execNop (s : State) : Out := .next (modCur s s.cur.lanes (fun _ ln => advance ln s.cur.len))
/-- MOV (R88). -/
def execMov (t : ITy) (d : Dst) (a : Opnd) (s : State) : Out := doMov t d a s
/-- IADD (R88). -/
def execIadd (t : ITy) (sat : Bool) (d : Dst) (a b : Opnd) (s : State) : Out := doIadd t sat d a b s
/-- ISUB (R88). -/
def execIsub (t : ITy) (sat : Bool) (d : Dst) (a b : Opnd) (s : State) : Out := doIsub t sat d a b s
/-- IMUL (R88). -/
def execImul (t : ITy) (sat : Bool) (d : Dst) (a b : Opnd) (s : State) : Out := doImul t sat d a b s
/-- IMULH (R88). -/
def execImulh (uns : Bool) (d : Dst) (a b : Opnd) (s : State) : Out := doImulh uns d a b s
/-- IADDW (R88). -/
def execIaddw (uns : Bool) (d : Dst) (a b : Opnd) (s : State) : Out :=
  runInt s (.iaddw uns d a b) (fun x => wrap 64 (intVal (ity32 uns) (x.x 0) + intVal (ity32 uns) (x.x 1)))
/-- IMULW (R88). -/
def execImulw (uns : Bool) (d : Dst) (a b : Opnd) (s : State) : Out :=
  runInt s (.imulw uns d a b) (fun x => wrap 64 (intVal (ity32 uns) (x.x 0) * intVal (ity32 uns) (x.x 1)))
/-- IMAD (R92). -/
def execImad (d : Dst) (a b c : Opnd) (s : State) : Out := doImad d a b c s
/-- IMIN (R88). -/
def execImin (t : ITy) (d : Dst) (a b : Opnd) (s : State) : Out := doImin t d a b s
/-- IMAX (R88). -/
def execImax (t : ITy) (d : Dst) (a b : Opnd) (s : State) : Out := doImax t d a b s
/-- IABS (R88). -/
def execIabs (wide sat : Bool) (d : Dst) (a : Opnd) (s : State) : Out := doIabs wide sat d a s
/-- AND (R88). -/
def execAnd (t : ITy) (d : Dst) (a b : Opnd) (s : State) : Out := doAnd t d a b s
/-- OR (R88). -/
def execOr (t : ITy) (d : Dst) (a b : Opnd) (s : State) : Out := doOr t d a b s
/-- XOR (R88). -/
def execXor (t : ITy) (d : Dst) (a b : Opnd) (s : State) : Out := doXor t d a b s
/-- ANDN (R88). -/
def execAndn (t : ITy) (d : Dst) (a b : Opnd) (s : State) : Out := doAndn t d a b s
/-- SHL (R89). -/
def execShl (t : ITy) (d : Dst) (a b : Opnd) (s : State) : Out := doShl t d a b s
/-- SHR (R89). -/
def execShr (t : ITy) (d : Dst) (a b : Opnd) (s : State) : Out := doShr t d a b s
/-- SAR (R89). -/
def execSar (t : ITy) (d : Dst) (a b : Opnd) (s : State) : Out := doSar t d a b s
/-- ROT (R89). -/
def execRot (t : ITy) (d : Dst) (a b : Opnd) (s : State) : Out := doRot t d a b s
/-- BFX (R92). -/
def execBfx (sgn : Bool) (d : Dst) (a b c : Opnd) (s : State) : Out :=
  runInt s (.bfx sgn d a b c) (fun x => bfxVal sgn (x.x 0) (x.x 1) (x.x 2))
/-- BFI (R92). -/
def execBfi (d : Dst) (a b c : Opnd) (s : State) : Out := runInt s (.bfi d a b c) (fun x => bfiVal (x.x 0) (x.x 1) (x.x 2))
/-- POPC (R88). -/
def execPopc (t : ITy) (d : Dst) (a : Opnd) (s : State) : Out := doPopc t d a s
/-- CLZ (R88). -/
def execClz (t : ITy) (d : Dst) (a : Opnd) (s : State) : Out := doClz t d a s
/-- CTZ (R88). -/
def execCtz (t : ITy) (d : Dst) (a : Opnd) (s : State) : Out := doCtz t d a s
/-- BREV (R88). -/
def execBrev (t : ITy) (d : Dst) (a : Opnd) (s : State) : Out := doBrev t d a s
/-- ICMP (R90). -/
def execIcmp (cc : Cc) (t : ITy) (d : Dst) (a b : Opnd) (s : State) : Out := doIcmp cc t d a b s
/-- SEL (R92). -/
def execSel (d : Dst) (a b c : Opnd) (s : State) : Out := doSel d a b c s
/-- LEA (R88). -/
def execLea (uns : Bool) (sc : Fin 8) (d : Dst) (a b : Opnd) (s : State) : Out :=
  runInt s (.lea uns sc d a b) (fun x => wrap 64 ((x.x 0 : Int) + intVal (ity32 uns) (x.x 1) * ((2 ^ sc.val : Nat) : Int)))
/-- PRMT (R92). -/
def execPrmt (d : Dst) (a b c : Opnd) (s : State) : Out := runInt s (.prmt d a b c) (fun x => prmtVal (x.x 0) (x.x 1) (x.x 2))
/-- VOTE (R91): lanes whose own read of a ends in a trap count as lanes outside S. -/
def execVote (m : Vote) (d : Dst) (a : Opnd) (s : State) : Out :=
  .next (runWith s [(a, .int 32)] d 1 none false (fun ins _ =>
    let xs := ins.filter (fun i => i.halt.isNone)
    val (match m with
      | .all => maskOf (xs.all (fun i => i.x 0 != 0))
      | .any => maskOf (xs.any (fun i => i.x 0 != 0))
      | .ballot => lanesMask ((xs.filter (fun i => i.x 0 != 0)).map (fun i => i.lane))
      | .uni => maskOf (xs.all (fun i => i.x 0 == (xs.map (fun j => j.x 0)).headD 0)))))
/-- PERM (R91). -/
def execPerm (wide : Bool) (d : Dst) (a b : Opnd) (s : State) : Out := doPerm wide d a b s

/-! ### Immediates (R94, R95) -/

/-- MOVI (R94). -/
def execMovi (t : ITy) (d : Dst) (k : BitVec 20) (s : State) : Out := runInt s (.movi t d k) (fun _ => wrap (ityW t) (imm20 k))
/-- MOVHI (R94). -/
def execMovhi (d : Dst) (a : Opnd) (k : BitVec 20) (s : State) : Out :=
  runInt s (.movhi d a k) (fun x => k.toNat * 2 ^ 12 + x.x 0 % 2 ^ 12)
/-- IADDI (R94). -/
def execIaddi (t : ITy) (sat : Bool) (d : Dst) (a : Opnd) (k : BitVec 20) (s : State) : Out :=
  runInt s (.iaddi t sat d a k) (fun x => narrow t sat (intVal t (x.x 0) + intVal t (wrap (ityW t) (imm20 k))))
/-- IMULI (R94). -/
def execImuli (t : ITy) (sat : Bool) (d : Dst) (a : Opnd) (k : BitVec 20) (s : State) : Out :=
  runInt s (.imuli t sat d a k) (fun x => narrow t sat (intVal t (x.x 0) * intVal t (wrap (ityW t) (imm20 k))))
/-- ANDI (R94). -/
def execAndi (t : ITy) (d : Dst) (a : Opnd) (k : BitVec 20) (s : State) : Out :=
  runInt s (.andi t d a k) (fun x => x.x 0 &&& wrap (ityW t) (imm20 k))
/-- ORI (R94). -/
def execOri (t : ITy) (d : Dst) (a : Opnd) (k : BitVec 20) (s : State) : Out :=
  runInt s (.ori t d a k) (fun x => x.x 0 ||| wrap (ityW t) (imm20 k))
/-- XORI (R94). -/
def execXori (t : ITy) (d : Dst) (a : Opnd) (k : BitVec 20) (s : State) : Out :=
  runInt s (.xori t d a k) (fun x => x.x 0 ^^^ wrap (ityW t) (imm20 k))
/-- SHLI (R94). -/
def execShli (t : ITy) (d : Dst) (a : Opnd) (k : BitVec 20) (s : State) : Out :=
  runInt s (.shli t d a k) (fun x => shlW (ityW t) (x.x 0) k.toNat)
/-- SHRI (R94). -/
def execShri (t : ITy) (d : Dst) (a : Opnd) (k : BitVec 20) (s : State) : Out :=
  runInt s (.shri t d a k) (fun x => shrW (ityW t) (x.x 0) k.toNat)
/-- SARI (R94). -/
def execSari (t : ITy) (d : Dst) (a : Opnd) (k : BitVec 20) (s : State) : Out :=
  runInt s (.sari t d a k) (fun x => sarW (ityW t) (x.x 0) k.toNat)
/-- ICMPI (R94). -/
def execIcmpi (cc : Cc) (t : ITy) (d : Dst) (a : Opnd) (k : BitVec 20) (s : State) : Out :=
  runInt s (.icmpi cc t d a k) (fun x => maskOf (ccHolds cc (intVal t (x.x 0)) (intVal t (wrap (ityW t) (imm20 k)))))
/-- LDC (R95): the bank holds CBLEN words; a lane beyond them takes ACCESS; the result is scoreboarded. -/
def execLdc (d : Dst) (a : Opnd) (k : BitVec 20) (s : State) : Out :=
  .next (runDeferred s (.ldc d a k) false (fun _ x =>
    let n := wrap 32 ((x.x 0 : Int) + imm20 k)
    let g := grp s s.cur.uid
    if n < g.cblen then val (smGet 0 g.cbank n).toNat else { val := 0, halt := some (.trap .access (BitVec.ofNat 64 n)) }))
/-- LEAI (R94). -/
def execLeai (sc : Fin 8) (d : Dst) (a : Opnd) (k : BitVec 20) (s : State) : Out :=
  runInt s (.leai sc d a k) (fun x => wrap 64 ((x.x 0 : Int) + imm20 k * ((2 ^ sc.val : Nat) : Int)))

/-! ### Short forms (R85) -/

/-- The C operand of a short form: its destination (R33). -/
def shortC (d : Dst) : Opnd := op ((dstAsSrc d).getD (.imm 0))

/-- NOP, short. -/
def execNopShort (s : State) : Out := .next (modCur s s.cur.lanes (fun _ ln => advance ln s.cur.len))
/-- MOV, short. -/
def execMovShort (d : Dst) (a : Src) (s : State) : Out := doMov .i32 d (op a) s
/-- IADD, short. -/
def execIaddShort (d : Dst) (a b : Src) (s : State) : Out := doIadd .i32 false d (op a) (op b) s
/-- ISUB, short. -/
def execIsubShort (d : Dst) (a b : Src) (s : State) : Out := doIsub .i32 false d (op a) (op b) s
/-- IMUL, short. -/
def execImulShort (d : Dst) (a b : Src) (s : State) : Out := doImul .i32 false d (op a) (op b) s
/-- IMULH, short. -/
def execImulhShort (d : Dst) (a b : Src) (s : State) : Out := doImulh false d (op a) (op b) s
/-- IMAD, short. -/
def execImadShort (d : Dst) (a b : Src) (s : State) : Out := doImad d (op a) (op b) (shortC d) s
/-- IMIN, short. -/
def execIminShort (d : Dst) (a b : Src) (s : State) : Out := doImin .i32 d (op a) (op b) s
/-- IMAX, short. -/
def execImaxShort (d : Dst) (a b : Src) (s : State) : Out := doImax .i32 d (op a) (op b) s
/-- IMIN.z32, short. -/
def execIminZ32Short (d : Dst) (a b : Src) (s : State) : Out := doImin .z32 d (op a) (op b) s
/-- IMAX.z32, short. -/
def execImaxZ32Short (d : Dst) (a b : Src) (s : State) : Out := doImax .z32 d (op a) (op b) s
/-- IABS, short. -/
def execIabsShort (d : Dst) (a : Src) (s : State) : Out := doIabs false false d (op a) s
/-- AND, short. -/
def execAndShort (d : Dst) (a b : Src) (s : State) : Out := doAnd .i32 d (op a) (op b) s
/-- OR, short. -/
def execOrShort (d : Dst) (a b : Src) (s : State) : Out := doOr .i32 d (op a) (op b) s
/-- XOR, short. -/
def execXorShort (d : Dst) (a b : Src) (s : State) : Out := doXor .i32 d (op a) (op b) s
/-- ANDN, short. -/
def execAndnShort (d : Dst) (a b : Src) (s : State) : Out := doAndn .i32 d (op a) (op b) s
/-- SHL, short. -/
def execShlShort (d : Dst) (a b : Src) (s : State) : Out := doShl .i32 d (op a) (op b) s
/-- SHR, short. -/
def execShrShort (d : Dst) (a b : Src) (s : State) : Out := doShr .i32 d (op a) (op b) s
/-- SAR, short. -/
def execSarShort (d : Dst) (a b : Src) (s : State) : Out := doSar .i32 d (op a) (op b) s
/-- ROT, short. -/
def execRotShort (d : Dst) (a b : Src) (s : State) : Out := doRot .i32 d (op a) (op b) s
/-- POPC, short. -/
def execPopcShort (d : Dst) (a : Src) (s : State) : Out := doPopc .i32 d (op a) s
/-- CLZ, short. -/
def execClzShort (d : Dst) (a : Src) (s : State) : Out := doClz .i32 d (op a) s
/-- CTZ, short. -/
def execCtzShort (d : Dst) (a : Src) (s : State) : Out := doCtz .i32 d (op a) s
/-- BREV, short. -/
def execBrevShort (d : Dst) (a : Src) (s : State) : Out := doBrev .i32 d (op a) s
/-- ICMP.eq, short. -/
def execIcmpEqShort (d : Dst) (a b : Src) (s : State) : Out := doIcmp .eq .i32 d (op a) (op b) s
/-- ICMP.ne, short. -/
def execIcmpNeShort (d : Dst) (a b : Src) (s : State) : Out := doIcmp .ne .i32 d (op a) (op b) s
/-- ICMP.lt, short. -/
def execIcmpLtShort (d : Dst) (a b : Src) (s : State) : Out := doIcmp .lt .i32 d (op a) (op b) s
/-- ICMP.le, short. -/
def execIcmpLeShort (d : Dst) (a b : Src) (s : State) : Out := doIcmp .le .i32 d (op a) (op b) s
/-- ICMP.lt.z32, short. -/
def execIcmpLtZ32Short (d : Dst) (a b : Src) (s : State) : Out := doIcmp .lt .z32 d (op a) (op b) s
/-- ICMP.le.z32, short. -/
def execIcmpLeZ32Short (d : Dst) (a b : Src) (s : State) : Out := doIcmp .le .z32 d (op a) (op b) s
/-- SEL, short. -/
def execSelShort (d : Dst) (a b : Src) (s : State) : Out := doSel d (op a) (op b) (shortC d) s
/-- PERM, short. -/
def execPermShort (d : Dst) (a b : Src) (s : State) : Out := doPerm false d (op a) (op b) s

end Sys2Proof.Machine
end

