-- ==== Sys2Proof/Machine/FloatInstr.lean ====
section
/-! DEFINITION. The float, conversion and group-matrix group, the float immediates, and their short forms (R102 to R119). -/

namespace Sys2Proof.Machine

/-- The rounding state of the lane that brings these operands (R65). -/
def ctxFor (s : State) (r : Rnd) (x : LaneIn) : RCtx := laneRnd (lane s s.cur.uid x.lane) r

/-- Run a lane-local float instruction whose result is rounded in mode r. -/
def runFlt (s : State) (i : Instr) (r : Rnd) (f : RCtx → LaneIn → Nat × RCtx) : Out :=
  .next (runCompute s i (fun x => resOf (f (ctxFor s r x) x)))

/-- Operand k as a value of a format. -/
def LaneIn.fv (x : LaneIn) (f : Fmt) (k : Nat) : FVal := fmtDecode f (x.x k)

/-- Half k of a packed operand as a value (R110). -/
def LaneIn.half (x : LaneIn) (bf : Bool) (k h : Nat) : FVal := fmtDecode (pairFmt bf) (x.x k / 2 ^ (16 * h) % 2 ^ 16)

/-- A negated term. -/
def negTerm (t : FVal × Bool) : FVal × Bool := (fvNeg t.1, t.2)

/-- a * 2^n (R104). -/
def fvScale (a : FVal) (n : Int) : FVal :=
  match a with
  | .fin s m e => .fin s m (e + n)
  | y => y

/-- Two halves rounded in turn, half 0 first (R65, R110). -/
def twoHalves (c : RCtx) (bf : Bool) (f : Nat → List (FVal × Bool)) : Nat × RCtx :=
  let p := fused c (pairFmt bf) (f 0)
  let q := fused p.2 (pairFmt bf) (f 1)
  (p.1 + 2 ^ 16 * q.1, q.2)

/-- A code of a format as it lies in a register: i8 and i16 sign-extended (R111). -/
def regCode (f : Fmt) (c : Nat) : Nat :=
  match f with
  | .i8 => wrap 32 (sext 8 c)
  | .i16 => wrap 32 (sext 16 c)
  | _ => c

/-! ### Shared effects, used by the long and the short form -/

def doFadd (t : FTy) (r : Rnd) (d : Dst) (a b : Opnd) (s : State) : Out :=
  runFlt s (.fadd t r d a b) r (fun c x => fused c (ftyFmt t) [term (x.fv (ftyFmt t) 0), term (x.fv (ftyFmt t) 1)])
def doFsub (t : FTy) (r : Rnd) (d : Dst) (a b : Opnd) (s : State) : Out :=
  runFlt s (.fsub t r d a b) r (fun c x => fused c (ftyFmt t) [term (x.fv (ftyFmt t) 0), term (fvNeg (x.fv (ftyFmt t) 1))])
def doFmul (t : FTy) (r : Rnd) (d : Dst) (a b : Opnd) (s : State) : Out :=
  runFlt s (.fmul t r d a b) r (fun c x => fused c (ftyFmt t) [fvMul (x.fv (ftyFmt t) 0) (x.fv (ftyFmt t) 1)])
def doFma (neg : Bool) (d : Dst) (a b c : Opnd) (s : State) : Out :=
  runFlt s (.fma neg d a b c) .dyn (fun k x =>
    let p := fvMul (x.fv .f32 0) (x.fv .f32 1)
    fused k .f32 [if neg then negTerm p else p, term (x.fv .f32 2)])
def doFmac (t : FTy) (r : Rnd) (d : Dst) (a b : Opnd) (s : State) : Out :=
  runFlt s (.fmac t r d a b) r (fun c x =>
    fused c (ftyFmt t) [fvMul (x.fv (ftyFmt t) 0) (x.fv (ftyFmt t) 1), term (x.fv (ftyFmt t) 2)])
def doFmin (t : FTy) (nan : Bool) (d : Dst) (a b : Opnd) (s : State) : Out :=
  runFlt s (.fmin t nan d a b) .rne (fun c x => fvMinMax c (ftyFmt t) false nan (x.x 0) (x.x 1))
def doFmax (t : FTy) (nan : Bool) (d : Dst) (a b : Opnd) (s : State) : Out :=
  runFlt s (.fmax t nan d a b) .rne (fun c x => fvMinMax c (ftyFmt t) true nan (x.x 0) (x.x 1))
def doFcmp (cc : Fcc) (t : FTy) (d : Dst) (a b : Opnd) (s : State) : Out :=
  runFlt s (.fcmp cc t d a b) .rne (fun c x =>
    let p := fvCmp cc (x.fv (ftyFmt t) 0) (x.fv (ftyFmt t) 1)
    (maskOf p.1, raise c p.2))
/-- A transcendental (R108, R109). -/
def doTrans (s : State) (i : Instr) (r : Rnd) (t : Trans) : Out :=
  .next (runDeferred s i true (fun _ x => resOf (fvTrans (ctxFor s r x) t (x.x 0))))
def doFrnd (t : FTy) (r : Rnd) (ex : Bool) (d : Dst) (a : Opnd) (s : State) : Out :=
  runFlt s (.frnd t r ex d a) r (fun c x => fvIntegral c (ftyFmt t) ex (x.x 0))
def doFclass (t : FTy) (d : Dst) (a : Opnd) (s : State) : Out := runInt s (.fclass t d a) (fun x => fvClass (ftyFmt t) (x.x 0))
def doFscale (t : FTy) (r : Rnd) (d : Dst) (a b : Opnd) (s : State) : Out :=
  runFlt s (.fscale t r d a b) r (fun c x => fused c (ftyFmt t) [term (fvScale (x.fv (ftyFmt t) 0) (sext 32 (x.x 1)))])
def doCvt (dir : Dir) (f : Fmt) (sat : Bool) (r : Rnd) (d : Dst) (a : Opnd) (s : State) : Out :=
  let p : Fmt × Fmt := match dir with
    | .fromF32 => (.f32, f)
    | .toF32 => (f, .f32)
    | .fromF64 => (.f64, f)
    | .toF64 => (f, .f64)
  runFlt s (.cvt dir f sat r d a) r (fun c x =>
    let q := rnd c p.2 sat (x.fv p.1 0)
    (regCode p.2 q.1, q.2))
def doH2add (bf : Bool) (r : Rnd) (d : Dst) (a b : Opnd) (s : State) : Out :=
  runFlt s (.h2add bf r d a b) r (fun c x => twoHalves c bf (fun h => [term (x.half bf 0 h), term (x.half bf 1 h)]))
def doH2mul (bf : Bool) (r : Rnd) (d : Dst) (a b : Opnd) (s : State) : Out :=
  runFlt s (.h2mul bf r d a b) r (fun c x => twoHalves c bf (fun h => [fvMul (x.half bf 0 h) (x.half bf 1 h)]))
def doH2fma (bf : Bool) (d : Dst) (a b c : Opnd) (s : State) : Out :=
  runFlt s (.h2fma bf d a b c) .dyn (fun k x =>
    twoHalves k bf (fun h => [fvMul (x.half bf 0 h) (x.half bf 1 h), term (x.half bf 2 h)]))
def doFdot2 (bf : Bool) (d : Dst) (a b c : Opnd) (s : State) : Out :=
  runFlt s (.fdot2 bf d a b c) .dyn (fun k x =>
    fused k .f32 [fvMul (x.half bf 0 0) (x.half bf 1 0), fvMul (x.half bf 0 1) (x.half bf 1 1), term (x.fv .f32 2)])
def doDadd (r : Rnd) (d : Dst) (a b : Opnd) (s : State) : Out :=
  runFlt s (.dadd r d a b) r (fun c x => fused c .f64 [term (x.fv .f64 0), term (x.fv .f64 1)])
def doDmul (r : Rnd) (d : Dst) (a b : Opnd) (s : State) : Out :=
  runFlt s (.dmul r d a b) r (fun c x => fused c .f64 [fvMul (x.fv .f64 0) (x.fv .f64 1)])
def doDfma (neg : Bool) (d : Dst) (a b c : Opnd) (s : State) : Out :=
  runFlt s (.dfma neg d a b c) .dyn (fun k x =>
    let p := fvMul (x.fv .f64 0) (x.fv .f64 1)
    fused k .f64 [if neg then negTerm p else p, term (x.fv .f64 2)])

/-! ### The long forms -/

/-- FADD (R104). -/
def execFadd (t : FTy) (r : Rnd) (d : Dst) (a b : Opnd) (s : State) : Out := doFadd t r d a b s
/-- FSUB (R104). -/
def execFsub (t : FTy) (r : Rnd) (d : Dst) (a b : Opnd) (s : State) : Out := doFsub t r d a b s
/-- FMUL (R104). -/
def execFmul (t : FTy) (r : Rnd) (d : Dst) (a b : Opnd) (s : State) : Out := doFmul t r d a b s
/-- FMA (R107). -/
def execFma (neg : Bool) (d : Dst) (a b c : Opnd) (s : State) : Out := doFma neg d a b c s
/-- FMAC (R104). -/
def execFmac (t : FTy) (r : Rnd) (d : Dst) (a b : Opnd) (s : State) : Out := doFmac t r d a b s
/-- FMIN (R104). -/
def execFmin (t : FTy) (nan : Bool) (d : Dst) (a b : Opnd) (s : State) : Out := doFmin t nan d a b s
/-- FMAX (R104). -/
def execFmax (t : FTy) (nan : Bool) (d : Dst) (a b : Opnd) (s : State) : Out := doFmax t nan d a b s
/-- FCMP (R105). -/
def execFcmp (cc : Fcc) (t : FTy) (d : Dst) (a b : Opnd) (s : State) : Out := doFcmp cc t d a b s
/-- FRCP (R108). -/
def execFrcp (r : Rnd) (d : Dst) (a : Opnd) (s : State) : Out := doTrans s (.frcp r d a) r .rcp
/-- FRSQ (R108). -/
def execFrsq (r : Rnd) (d : Dst) (a : Opnd) (s : State) : Out := doTrans s (.frsq r d a) r .rsq
/-- FSQRT (R108). -/
def execFsqrt (r : Rnd) (d : Dst) (a : Opnd) (s : State) : Out := doTrans s (.fsqrt r d a) r .sqrt
/-- FEXP2 (R108). -/
def execFexp2 (r : Rnd) (d : Dst) (a : Opnd) (s : State) : Out := doTrans s (.fexp2 r d a) r .exp2
/-- FLOG2 (R108). -/
def execFlog2 (r : Rnd) (d : Dst) (a : Opnd) (s : State) : Out := doTrans s (.flog2 r d a) r .log2
/-- FRND (R104). -/
def execFrnd (t : FTy) (r : Rnd) (ex : Bool) (d : Dst) (a : Opnd) (s : State) : Out := doFrnd t r ex d a s
/-- FCLASS (R106). -/
def execFclass (t : FTy) (d : Dst) (a : Opnd) (s : State) : Out := doFclass t d a s
/-- FSCALE (R104). -/
def execFscale (t : FTy) (r : Rnd) (d : Dst) (a b : Opnd) (s : State) : Out := doFscale t r d a b s
/-- CVT (R111). -/
def execCvt (dir : Dir) (f : Fmt) (sat : Bool) (r : Rnd) (d : Dst) (a : Opnd) (s : State) : Out := doCvt dir f sat r d a s

/-- EMAX of R68. -/
def emaxOf (f : Fmt) : Int :=
  match fmtDecode f (fmtMax f false) with
  | .fin _ m e => if f = .mxint8 then 0 else dyLog2 m e
  | _ => 0

/-- Scale of a block of values (R68): 0xFF where one is NaN or infinite. -/
def blockScale (f : Fmt) (xs : List FVal) : Nat :=
  if xs.any (fun x => match x with | .fin .. => false | _ => true) then 0xFF
  else
    let logs := xs.filterMap (fun x => match x with
      | .fin _ m e => if m = 0 then none else some (dyLog2 m e)
      | _ => none)
    match logs with
    | [] => 127
    | l :: ls => (min (max (ls.foldl max l - emaxOf f) (-127)) 127 + 127).toNat

/-- Elements of a lane rounded in turn and packed w bits apart (R63, R68, R112). -/
def quantLane (f : Fmt) (scale : Nat) : RCtx → Nat → List FVal → Nat × RCtx
  | c, _, [] => (0, c)
  | c, j, x :: xs =>
    let p := rnd c f true (fvScale x (127 - (scale : Int)))
    let q := quantLane f scale p.2 (j + 1) xs
    (p.1 * 2 ^ (fmtWidth f * j) + q.1, q.2)

/-- The elements that a lane supplies (R112). -/
def quantElems (k : Nat) (x : LaneIn) : List FVal := (List.range k).map (fun j => fmtDecode .f32 (x.x 0 / 2 ^ (32 * j) % 2 ^ 32))

/-- QUANT (R112): lanes outside S, and lanes whose own read ends in a trap, count as +0. -/
def execQuant (f : Fmt) (blk : Blk) (tr : Bool) (r : Rnd) (d : Dst) (a : Opnd) (s : State) : Out :=
  let k := blkK blk
  .next (runWith s (srcs (.quant f blk tr r d a)) d 2 none tr (fun ins x =>
    let mine := ins.filter (fun i => i.halt.isNone && (blk != .b16 || i.lane / 16 == x.lane / 16))
    let scale := blockScale f ((mine.map (quantElems k)).flatten)
    if scale = 0xFF then val (0xFF * 2 ^ 32)
    else
      let p := quantLane f scale (ctxFor s r x) 0 (quantElems k x)
      resOf (p.1 + scale * 2 ^ 32, p.2)))

/-- DEQ (R113). -/
def execDeq (f : Fmt) (j : Fin 8) (r : Rnd) (d : Dst) (a b : Opnd) (s : State) : Out :=
  runFlt s (.deq f j r d a b) r (fun c x =>
    let code := x.x 0 / 2 ^ (fmtWidth f * j.val) % 2 ^ fmtWidth f
    let sc := x.x 1 % 256
    if sc = 0xFF ∨ fvIsNan (fmtDecode f code) = true then (0x7FC00000, c)
    else rnd c .f32 false (fvScale (fmtDecode f code) ((sc : Int) - 127)))
/-- H2ADD (R110). -/
def execH2add (bf : Bool) (r : Rnd) (d : Dst) (a b : Opnd) (s : State) : Out := doH2add bf r d a b s
/-- H2MUL (R110). -/
def execH2mul (bf : Bool) (r : Rnd) (d : Dst) (a b : Opnd) (s : State) : Out := doH2mul bf r d a b s
/-- H2FMA (R107). -/
def execH2fma (bf : Bool) (d : Dst) (a b c : Opnd) (s : State) : Out := doH2fma bf d a b c s
/-- FDOT2 (R107). -/
def execFdot2 (bf : Bool) (d : Dst) (a b c : Opnd) (s : State) : Out := doFdot2 bf d a b c s
/-- DADD (R110). -/
def execDadd (r : Rnd) (d : Dst) (a b : Opnd) (s : State) : Out := doDadd r d a b s
/-- DMUL (R110). -/
def execDmul (r : Rnd) (d : Dst) (a b : Opnd) (s : State) : Out := doDmul r d a b s
/-- DFMA (R107). -/
def execDfma (neg : Bool) (d : Dst) (a b c : Opnd) (s : State) : Out := doDfma neg d a b c s

/-- CMUL (R110): the real part is rounded first. -/
def execCmul (t : FTy) (conj : Bool) (r : Rnd) (d : Dst) (a b : Opnd) (s : State) : Out :=
  let f := ftyFmt t
  let w := fmtWidth f
  runFlt s (.cmul t conj r d a b) r (fun c x =>
    let ar := fmtDecode f (x.x 0 % 2 ^ w)
    let ai := fmtDecode f (x.x 0 / 2 ^ w % 2 ^ w)
    let br := fmtDecode f (x.x 1 % 2 ^ w)
    let bi := fmtDecode f (x.x 1 / 2 ^ w % 2 ^ w)
    let cn (t : FVal × Bool) (neg : Bool) : FVal × Bool := if neg then negTerm t else t
    let re := fused c f [fvMul ar br, cn (fvMul ai bi) (!conj)]
    let im := fused re.2 f (if conj then [fvMul ai br, negTerm (fvMul ar bi)] else [fvMul ar bi, fvMul ai br])
    (re.1 + 2 ^ w * im.1, im.2))

/-- RNG (R114). -/
def execRng (f : Fmt) (d : Dst) (a b : Opnd) (s : State) : Out :=
  runInt s (.rng f d a b) (fun x =>
    let h := kHash (x.x 0) (x.x 1 % 2 ^ 48) (x.x 1 / 2 ^ 48 % 2 ^ 16)
    match f with
    | .z32 => h / 2 ^ 32
    | .f32 => roundNE .f32 (.fin false (h / 2 ^ 40) (-24))
    | _ => h)

/-! ### Group matrix (R115 to R118) -/

/-- The other 8-bit format of `.mix` (R115). -/
def mixFmt (f : Fmt) (mix : Bool) : Fmt := if mix then (if f = .e4m3 then .e5m2 else .e4m3) else f

/-- Element k of a fragment that the lanes 16 h + idx hold, of width w in registers from n (R116): +0 where the lane is
outside S. -/
def fragElem (g : Group) (ls : List Nat) (f : Fmt) (n idx k : Nat) : FVal :=
  let per := 32 / fmtWidth f
  let h := k / (4 * per)
  let r := k % (4 * per)
  let l := 16 * h + idx
  if ls.contains l then fmtDecode f ((getReg (laneAt g l) (n + r / per)).toNat / 2 ^ (fmtWidth f * (r % per)))
  else .fin false 0 0

/-- The terms of C[i][j] (R117). -/
def mmagTerms (g : Group) (ls : List Nat) (fa fb : Fmt) (a b i j : Nat) (c : FVal) : List (FVal × Bool) :=
  term c :: (List.range (8 * (32 / fmtWidth fa))).map (fun k => fvMul (fragElem g ls fa a i k) (fragElem g ls fb b j k))

/-- The eight results of a lane, rounded in register order (R117). -/
def mmagLane (g : Group) (ls : List Nat) (fa fb : Fmt) (d a b l : Nat) : Nat → RCtx → List W32 × RCtx
  | 0, c => ([], c)
  | n + 1, c =>
    let p := mmagLane g ls fa fb d a b l n c
    let ci := fmtDecode .f32 (getReg (laneAt g l) (d + n)).toNat
    let q := fused p.2 .f32 (mmagTerms g ls fa fb a b (8 * (l / 16) + n) (l % 16) ci)
    (p.1 ++ [BitVec.ofNat 32 q.1], q.2)

/-- A lane holds a poisoned word among the registers that `mmag` reads (R204). -/
def mmagPoison (ln : Lane) (d a b : Nat) : Bool :=
  ln.vpois.any (fun k => (decide (d ≤ k) && decide (k < d + 8)) || (decide (a ≤ k) && decide (k < a + 4)) || (decide (b ≤ k) && decide (k < b + 4)))

/-- MMAG (R115 to R118): C is scoreboarded (R109). -/
def execMmag (f : Fmt) (mix : Bool) (r : Rnd) (d a b : Fin 128) (s : State) : Out :=
  let u := s.cur.uid
  let g := grp s u
  let ls := s.cur.lanes
  let ends := ls.map (fun l =>
    let ln := laneAt g l
    if mmagPoison ln d.val a.val b.val then (l, ([] : List W32), laneRnd ln r, some Halt.poisonReg)
    else
      let p := mmagLane g ls f (mixFmt f mix) d.val a.val b.val l 8 (laneRnd ln r)
      (l, p.1, p.2, if fpxDue ln p.2.flags then some (.trap .fpx (BitVec.ofNat 64 p.2.flags)) else none))
  let id := takeFresh s
  let before := s
  let s := ends.foldl (fun s e => noteLane s ⟨e.1, { val := 0, flags := e.2.2.1.flags, cnt := some e.2.2.1.cnt }, none⟩ (ls.length != 32)) id.2
  let ok := ends.filter (fun e => e.2.2.2.isNone)
  let ws := (ok.map (fun e => e.2.1.zipIdx.map (fun p => (⟨e.1, d.val + p.2, p.1⟩ : RegWrite)))).flatten
  let frozen := (ok.filter (fun e => enables (lane s u e.1).fmode != 0)).map (fun e => e.1)
  let since := ok.map (fun e => issuedLane (lane before u e.1) (lane s u e.1) e.1)
  let s := ok.foldl (fun s e => advanceCur s e.1) s
  let s := modGrp s u (fun g => { g with pend := tPut g.pend id.1 { writes := ws, frozen := frozen, since := since } })
  let s := modCore s (coreOf s u) (fun c => { c with mmagAt := s.cycle + 4, mmagPipe := (slotOf (grp s u)).getD 0 % 4 })
  .next (haltLanes s (ends.map (fun e => (e.1, e.2.2.2)))).1

/-! ### Float immediates (R119) -/

/-- The truncated float of IMM20 (R76). -/
def immF (k : BitVec 20) : Nat := k.toNat * 2 ^ 12

/-- FMOVI (R119). -/
def execFmovi (d : Dst) (k : BitVec 20) (s : State) : Out := runInt s (.fmovi d k) (fun _ => immF k)
/-- FADDI (R119). -/
def execFaddi (r : Rnd) (d : Dst) (a : Opnd) (k : BitVec 20) (s : State) : Out :=
  runFlt s (.faddi r d a k) r (fun c x => fused c .f32 [term (x.fv .f32 0), term (fmtDecode .f32 (immF k))])
/-- FMULI (R119). -/
def execFmuli (r : Rnd) (d : Dst) (a : Opnd) (k : BitVec 20) (s : State) : Out :=
  runFlt s (.fmuli r d a k) r (fun c x => fused c .f32 [fvMul (x.fv .f32 0) (fmtDecode .f32 (immF k))])
/-- FMAI (R119). -/
def execFmai (r : Rnd) (d : Dst) (a : Opnd) (k : BitVec 20) (s : State) : Out :=
  runFlt s (.fmai r d a k) r (fun c x => fused c .f32 [fvMul (x.fv .f32 0) (fmtDecode .f32 (immF k)), term (x.fv .f32 1)])
/-- FCMPI (R119). -/
def execFcmpi (cc : Fcc) (d : Dst) (a : Opnd) (k : BitVec 20) (s : State) : Out :=
  runFlt s (.fcmpi cc d a k) .rne (fun c x =>
    let p := fvCmp cc (x.fv .f32 0) (fmtDecode .f32 (immF k))
    (maskOf p.1, raise c p.2))

/-! ### Short forms (R85) -/

/-- FADD, short. -/
def execFaddShort (d : Dst) (a b : Src) (s : State) : Out := doFadd .f32 .dyn d (op a) (op b) s
/-- FSUB, short. -/
def execFsubShort (d : Dst) (a b : Src) (s : State) : Out := doFsub .f32 .dyn d (op a) (op b) s
/-- FMUL, short. -/
def execFmulShort (d : Dst) (a b : Src) (s : State) : Out := doFmul .f32 .dyn d (op a) (op b) s
/-- FMA, short. -/
def execFmaShort (d : Dst) (a b : Src) (s : State) : Out := doFma false d (op a) (op b) (shortC d) s
/-- FMAC, short. -/
def execFmacShort (d : Dst) (a b : Src) (s : State) : Out := doFmac .f32 .dyn d (op a) (op b) s
/-- FMIN, short. -/
def execFminShort (d : Dst) (a b : Src) (s : State) : Out := doFmin .f32 false d (op a) (op b) s
/-- FMAX, short. -/
def execFmaxShort (d : Dst) (a b : Src) (s : State) : Out := doFmax .f32 false d (op a) (op b) s
/-- FCMP.eq, short. -/
def execFcmpEqShort (d : Dst) (a b : Src) (s : State) : Out := doFcmp .eq .f32 d (op a) (op b) s
/-- FCMP.lt, short. -/
def execFcmpLtShort (d : Dst) (a b : Src) (s : State) : Out := doFcmp .lt .f32 d (op a) (op b) s
/-- FCMP.le, short. -/
def execFcmpLeShort (d : Dst) (a b : Src) (s : State) : Out := doFcmp .le .f32 d (op a) (op b) s
/-- FRCP, short. -/
def execFrcpShort (d : Dst) (a : Src) (s : State) : Out := doTrans s (.frcp .dyn d (op a)) .dyn .rcp
/-- FRSQ, short. -/
def execFrsqShort (d : Dst) (a : Src) (s : State) : Out := doTrans s (.frsq .dyn d (op a)) .dyn .rsq
/-- FSQRT, short. -/
def execFsqrtShort (d : Dst) (a : Src) (s : State) : Out := doTrans s (.fsqrt .dyn d (op a)) .dyn .sqrt
/-- FEXP2, short. -/
def execFexp2Short (d : Dst) (a : Src) (s : State) : Out := doTrans s (.fexp2 .dyn d (op a)) .dyn .exp2
/-- FLOG2, short. -/
def execFlog2Short (d : Dst) (a : Src) (s : State) : Out := doTrans s (.flog2 .dyn d (op a)) .dyn .log2
/-- FRND, short. -/
def execFrndShort (d : Dst) (a : Src) (s : State) : Out := doFrnd .f32 .dyn false d (op a) s
/-- FCLASS, short. -/
def execFclassShort (d : Dst) (a : Src) (s : State) : Out := doFclass .f32 d (op a) s
/-- FSCALE, short. -/
def execFscaleShort (d : Dst) (a b : Src) (s : State) : Out := doFscale .f32 .dyn d (op a) (op b) s
/-- CVT, i32 to f32, short. -/
def execCvtI32F32Short (d : Dst) (a : Src) (s : State) : Out := doCvt .toF32 .i32 false .dyn d (op a) s
/-- CVT, f32 to i32, short. -/
def execCvtF32I32Short (d : Dst) (a : Src) (s : State) : Out := doCvt .fromF32 .i32 false .rtz d (op a) s
/-- H2ADD.f16, short. -/
def execH2addF16Short (d : Dst) (a b : Src) (s : State) : Out := doH2add false .dyn d (op a) (op b) s
/-- H2MUL.f16, short. -/
def execH2mulF16Short (d : Dst) (a b : Src) (s : State) : Out := doH2mul false .dyn d (op a) (op b) s
/-- H2FMA.f16, short. -/
def execH2fmaF16Short (d : Dst) (a b : Src) (s : State) : Out := doH2fma false d (op a) (op b) (shortC d) s
/-- H2ADD.bf16, short. -/
def execH2addBf16Short (d : Dst) (a b : Src) (s : State) : Out := doH2add true .dyn d (op a) (op b) s
/-- H2MUL.bf16, short. -/
def execH2mulBf16Short (d : Dst) (a b : Src) (s : State) : Out := doH2mul true .dyn d (op a) (op b) s
/-- H2FMA.bf16, short. -/
def execH2fmaBf16Short (d : Dst) (a b : Src) (s : State) : Out := doH2fma true d (op a) (op b) (shortC d) s
/-- FDOT2.f16, short. -/
def execFdot2F16Short (d : Dst) (a b : Src) (s : State) : Out := doFdot2 false d (op a) (op b) (shortC d) s
/-- FDOT2.bf16, short. -/
def execFdot2Bf16Short (d : Dst) (a b : Src) (s : State) : Out := doFdot2 true d (op a) (op b) (shortC d) s
/-- DADD, short. -/
def execDaddShort (d : Dst) (a b : Src) (s : State) : Out := doDadd .dyn d (op a) (op b) s
/-- DMUL, short. -/
def execDmulShort (d : Dst) (a b : Src) (s : State) : Out := doDmul .dyn d (op a) (op b) s
/-- DFMA, short. -/
def execDfmaShort (d : Dst) (a b : Src) (s : State) : Out := doDfma false d (op a) (op b) (shortC d) s

end Sys2Proof.Machine
end

