-- ==== Sys2Proof/Machine/Access.lean ====
section
/-! DEFINITION. The shared operations of the memory instructions: effective addresses (R121), the runner of R123, results
that wait for RESULT_WRITEBACK, loads and entries that are sent, and elements (R128, R129). -/

namespace Sys2Proof.Machine

/-- Bytes of a SIZE (R79). -/
def sizeBytes : Size → Nat
  | .b => 1 | .h => 2 | .w => 4 | .d => 8 | .q => 16 | .e => 1

/-- EA of an indexed pointer access (R121). -/
def eaIndexed (sz : Nat) (a : Nat) (ofs : BitVec 8) (b : Nat) : W64 :=
  BitVec.ofInt 64 ((a : Int) + (sext 32 b + sext 8 ofs.toNat) * (sz : Int))

/-- EA of a direct pointer access (R121). -/
def eaDirect (sz : Nat) (a : Nat) (ofs : BitVec 8) : W64 := BitVec.ofInt 64 ((a : Int) + sext 8 ofs.toNat * (sz : Int))

/-- EA of a core-local access (R121). -/
def eaLocal (sz : Nat) (a : Nat) (ofs : BitVec 8) (b : Nat) : Nat :=
  wrap 32 ((a : Int) + (sext 32 b + sext 8 ofs.toNat) * (sz : Int))

/-- The target of a destination of cnt words. -/
def dstTarget (d : Dst) (cnt : Nat) : Target :=
  match d with
  | .v n => ⟨false, n.val, cnt⟩
  | .o n => ⟨true, n.val, cnt⟩
  | _ => {}

/-- Words k and up of a target. -/
def targetFrom (t : Target) (k cnt : Nat) : Target := if t.cnt = 0 then t else { t with n := t.n + k, cnt := cnt }

/-! ### The runner -/

/-- What a memory instruction finds for a lane: a lane that ends, or data for its effect. -/
inductive Find (α : Type) where
  | go (x : α)
  | halt (h : Halt)
  deriving DecidableEq, Repr

/-- A lane with its operands and what was found for it. -/
structure Found (α : Type) where
  ins : LaneIn
  out : Find α

/-- The halts among what was found. -/
def foundHalts {α : Type} (fs : List (Found α)) : List (Nat × Option Halt) :=
  fs.map (fun f => (f.ins.lane, match f.out with
    | .halt h => some h
    | .go _ => none))

/-- Run an instruction of the memory kind (R123): the operands of every lane are read and checked; a page fault saves the
group; else one access is counted (R143), lanes take effect in rising order (R124), and those that end do so. `find` checks
a lane, `cnt` says whether and how often a lane counts, `act` is its effect under the access number. -/
def runAccess {α : Type} (s : State) (os : List (Opnd × OTy)) (find : State → LaneIn → Find α) (ctr : Option Ctr)
    (cnt : LaneIn → α → Nat) (act : State → Nat → LaneIn → α → State) : State :=
  let u := s.cur.uid
  let ins := readAll s u s.cur.lanes os
  let fs := ins.map (fun a => (⟨a, match a.halt with
    | some h => .halt h
    | none => find s a⟩ : Found α))
  let hs := foundHalts fs
  if !(pageFaults hs s.cur.pc).isEmpty then (haltLanes s hs).1
  else
    let id := takeFresh s
    let s := ins.foldl (fun s a => modLane s u a.lane (fun ln => setXlane ln a.xlane)) id.2
    let n := fs.foldl (fun n f => match f.out with
      | .go x => n + cnt f.ins x
      | .halt _ => n) 0
    let s := match ctr with
      | some c => beginAcc s u id.1 c n
      | none => s
    let ks := srcStreams os
    let s := fs.foldl (fun s f => match f.out with
      | .go x =>
        if ks.isEmpty then act s id.1 f.ins x
        else markUndo (act s id.1 f.ins x) u f.ins.lane id.1 (undoOf (lane s u f.ins.lane) ks false)
      | .halt _ => s) s
    (haltLanes s hs).1

/-- A lane passes its instruction: streams of its index advance, the next word is due. -/
def passLane (s : State) (os : List (Opnd × OTy)) (l : Nat) : State := advanceCur (finishStreams s l (srcStreams os) false) l

/-- A lane waits inside its instruction. -/
def waitLane (s : State) (os : List (Opnd × OTy)) (l : Nat) (w : Wait) : State :=
  modLane s s.cur.uid l (fun ln => { ln with st := .wait w, ilen := s.cur.len, qdue := srcStreams os })

/-- A result that RESULT_WRITEBACK writes: of an access that counts on LD (R109, R143). -/
def pendResult (s : State) (l acc : Nat) (t : Target) (x : Nat) : State :=
  let id := takeFresh s
  let p : Pending := { writes := if t.cnt = 0 then [] else regWrites l (targetReg t) t.cnt x, acc := some acc }
  modGrp id.2 s.cur.uid (fun g => { g with pend := tPut g.pend id.1 p })

/-- Send a load (R217 rule 4): its number is its place in the queue. -/
def sendRead (s : State) (r : ReadReq) : State :=
  let id := takeFresh s
  { id.2 with links := tPut id.2.links id.1 (.read r (dieOf (coreOf s r.uid))) }

/-- A lane is held at its instruction, running, until its request is performed (R188). -/
def holdLane (s : State) (os : List (Opnd × OTy)) (l acc : Nat) : State :=
  modLane s s.cur.uid l (fun ln => { ln with flight := some acc, ilen := s.cur.len, qdue := srcStreams os })

/-- A lane passes a commit, which is issued under an access (R125). -/
def commitPass (s : State) (os : List (Opnd × OTy)) (l acc : Nat) : State :=
  advanceCur (commitStart (finishStreams s l (srcStreams os) false) l acc) l

/-- A read request of a lane of the current set. -/
def readReq (s : State) (l acc : Nat) (k : ReadKind) (r : Reach) (va : W64) (n : Nat) (sem : Sem) (sc : Scope) (t : Target) : ReadReq :=
  let base : ReadReq := {
    kind := k, uid := s.cur.uid, lane := l, acc := acc, owner := ptrOwner va, pa := ptrOfs va, va := va,
    size := n, sem := sem, scope := sc, dest := t, pc := s.cur.pc, ctx := ctxOf s s.cur.uid, launch := launchOf s s.cur.uid }
  match r with
  | .page a o pa => { base with owner := o, pa := pa, cls := a.rclass }
  | .peer n => { base with peer := some n }
  | _ => base

/-- An entry of a lane of the current set, to enter its FIFO. -/
def newEntry (s : State) (l acc : Nat) (act : Act) (r : Reach) (va : W64) (n : Nat) (sem : Sem) (sc : Scope) (t : Target) (commits : Bool) : FEntry :=
  let base : FEntry := {
    id := 0, uid := s.cur.uid, lane := l, acc := acc, act := act, owner := ptrOwner va, pa := ptrOfs va, va := va,
    size := n, sem := sem, scope := sc, coreRel := (lane s s.cur.uid l).coreRelFence, dest := t, commits := commits, pc := s.cur.pc,
    ctx := ctxOf s s.cur.uid, launch := launchOf s s.cur.uid }
  match r with
  | .page a o pa => { base with owner := o, pa := pa, cls := a.rclass }
  | .peer n => { base with peer := some n }
  | _ => base

/-- Hold the translation that an access of the current group used. -/
def fillCur (s : State) (va : W64) (r : Reach) : State :=
  reachFill s (launchOf s s.cur.uid) (vmidOf s (ctxOf s s.cur.uid)) (asidOf s (ctxOf s s.cur.uid)) va r

/-- An `eld` of a lane whose set asks other dies too: the lane is held at it until every lane was answered (R234). -/
def eldAsk (s : State) (os : List (Opnd × OTy)) (r : ReadReq) (ed : Nat) : State :=
  let s := holdLane s os r.lane r.acc
  if r.peer.isNone && r.owner == dieOf (coreOf s r.uid) then
    let s := readMet s r
    let o := readStep s r none
    eldAnswer (noteAcquire s r.uid r.lane r.sem r.scope) r ed o
  else sendRead s r

/-- A service read of a lane is performed at the owner of its own die at once, and is sent otherwise (R217); an `eld` is inside its
instruction until then (R138). -/
def serviceRead (s : State) (os : List (Opnd × OTy)) (r : ReadReq) : State :=
  if r.peer.isNone && r.owner == dieOf (coreOf s r.uid) then
    let s := readMet s r
    match readStep s r none with
    | .val x =>
      let s := noteAcquire s r.uid r.lane r.sem r.scope
      let s := modLane s r.uid r.lane (fun ln => { ln with eldAcc := none })
      passLane (pendResult s r.lane r.acc r.dest x) os r.lane
    | .park cell =>
      match r.kind with
      | .eld _ e _ => modLane (park s r.uid r.lane r.acc cell e) r.uid r.lane (fun ln => { ln with ilen := s.cur.len })
      | _ => s
    | .trap c => haltLane (modLane (endAcc s r.uid r.acc) r.uid r.lane (fun ln => { ln with eldAcc := none })) r.uid r.lane s.cur.pc (.trap c r.va)
    | .poison k => haltLane (modLane (endAcc s r.uid r.acc) r.uid r.lane (fun ln => { ln with eldAcc := none })) r.uid r.lane s.cur.pc (.poison k r.va)
  else passLane (sendRead s r) os r.lane

/-! ### Data checks (R123 step 6) -/

/-- A read of a page consumes a detected error now (R338): where it is made at the owner of the own die. -/
def readBad (s : State) (l : Nat) (sem : Sem) (sc : Scope) (r : Reach) (va : W64) (n : Nat) : Option Halt :=
  match r with
  | .page a o pa => if ownMem s s.cur.uid l sem sc o pa va n && dataBad s a.rclass o pa n then some (.poison (badAt s (mkey o pa) n) va) else none
  | _ => none

/-- The bytes of a load that is performed now, and the state that has counted the errors it meets (R338). -/
def readNow (s : State) (l : Nat) (sem : Sem) (sc : Scope) (a : PageAttr) (o pa : Nat) (va : W64) (bs : List Byte) : List Byte × State :=
  if ownMem s s.cur.uid l sem sc o pa va bs.length then
    (dataBytes s a.rclass o pa bs.length, dataMet s (launchOf s s.cur.uid) a.rclass o pa bs.length)
  else (bs, s)

/-- The context's buffered places do not take atomics (R352). -/
def bufferedPlace (s : State) (r : Reach) : Bool :=
  let l := launchAt s (launchOf s s.cur.uid)
  isReplay l && (match r with
    | .peer _ => true
    | .page _ o _ => o == 4
    | _ => false)

/-! ### Elements (R128, R129) -/

/-- An element of `ld.e` or `st.e`: its reach, EA, bit offset within EA's byte, width, format, block scale place, plate index. -/
structure ElemAt where
  reach : Reach
  va : W64
  ofs : Nat
  fmt : Fmt
  /-- Key of the scale byte (BLOCK not 0). -/
  scale : Option Nat := none
  block : Bool := false
  /-- Index in a plated region, and key of its descriptor. -/
  plate : Option (Nat × Nat) := none
  /-- Where the bytes beyond the first page lie, if they are on another, and its class (R128). -/
  tail : Option (Nat × RClass) := none
  deriving DecidableEq, Repr

/-- Bytes that an element lies in. -/
def elemBytes (e : ElemAt) : Nat := (e.ofs + fmtWidth e.fmt + 7) / 8

/-- Elements per block of a BLOCK code (R67). -/
def blockLen (b : Nat) : Nat := 8 * 2 ^ b

/-- The page that holds a[l], as far as an element access needs it: its region (R128). Where it has none, or is denied, the element has no EA, and
TXVAL is a[l] (assumption 18). -/
def regionAt (s : State) (l : Nat) (va : W64) (acc : AccKind) : Find (PageAttr × RegionEnt) :=
  let c := ctxOf s s.cur.uid
  match reach s (vmidOf s c) (asidOf s c) va acc (lane s s.cur.uid l).mode with
  | .page a _ _ => match a.region with
    | some r => .go (a, r)
    | none => .halt (.trap .access va)
  | .poison => .halt (.poison [noKey] va)
  | .fault ab st lv => .halt (.page ab st lv va acc)
  | _ => .halt (.trap .access va)

/-- What follows the checks of step 2 of an element access: the watch of R362, then CLASS_CROSS of a read from pages of these classes (R123). -/
def elemCross (s : State) (l : Nat) (acc : AccKind) (cs : List RClass) (e : ElemAt) : Find ElemAt :=
  match watchHalt s (ctxOf s s.cur.uid) e.va (elemBytes e) (acc == .read) (acc == .write) with
  | some h => .halt h
  | none =>
    if acc == .read && cs.any (fun c => decide (classRank c < classRank (lane s s.cur.uid l).rclass)) then .halt (.trap .classCross e.va) else .go e

/-- An element on pages of another package, from the pointer a[l] at package n (assumption 7): EA's page and that of the last byte are reached
there; what is not ordinary memory is plated. -/
def peerElem (s : State) (l n a : Nat) (i : Int) (acc : AccKind) : Find ElemAt :=
  let c := ctxOf s s.cur.uid
  let x := Config.peerFmt (vmidOf s c) (asidOf s c) (a / 4096)
  let f := (fmtOf (x % 32) (x / 32 % 32)).getD .i32
  let w := fmtWidth f
  let va : W64 := BitVec.ofInt 64 ((a : Int) + (w * i) / 8)
  let e : ElemAt := { reach := .peer n, va := va, ofs := ((w * i) % 8).toNat, fmt := f, block := bit x 10 && blockFmt f }
  let va2 := va + BitVec.ofNat 64 (elemBytes e - 1)
  let at_ (v : W64) : Reach := reach s (vmidOf s c) (asidOf s c) v acc (lane s s.cur.uid l).mode
  if i < 0 then .halt (.trap .access va)
  else match at_ va, at_ va2 with
    | .fault ab st lv, _ => .halt (.page ab st lv va acc)
    | .peer m, .fault ab st lv => if m = n then .halt (.page ab st lv va2 acc) else .halt (.trap .access va)
    | .peer m, .peer k =>
      if m ≠ n ∨ k ≠ n then .halt (.trap .access va)
      else if peerPage s c va then elemCross s l acc [] e
      else if !bit (nth 0 s.accept 0).toNat 0 then .halt (.trap .illegal 0x100)
      else elemCross s l acc [] { e with plate := some (0, 0), block := false }
    | _, _ => .halt (.trap .access va)

/-- Steps 1 to 4 of R123 for an element access (R122, R128). What an element of another package's page is nothing fixes (assumption 7). A block
element below BASE takes ACCESS as one that is not whole does (assumption 18). -/
def findElem (s : State) (l : Nat) (a : Nat) (i : Int) (acc : AccKind) : Find ElemAt :=
  let va0 := BitVec.ofNat 64 a
  let c := ctxOf s s.cur.uid
  let m := (lane s s.cur.uid l).mode
  if !ptrReserved va0 && !ptrHere s va0 then
    match reach s (vmidOf s c) (asidOf s c) va0 acc m with
    | .fault ab st lv => .halt (.page ab st lv va0 acc)
    | .peer n => peerElem s l n a i acc
    | _ => .halt (.trap .access va0)
  else match regionAt s l va0 acc with
  | .halt h => .halt h
  | .go (pg, r) =>
    match fmtOf r.elemfmt r.p8d with
    | none => .halt (.trap .access va0)
    | some f =>
      let w := fmtWidth f
      let va : W64 := BitVec.ofInt 64 ((a : Int) + (w * i) / 8)
      let ofs := ((w * i) % 8).toNat
      let n := (ofs + w + 7) / 8
      let off : Int := (vaHome va0 : Int) - (r.base.toNat : Int)
      if i < 0 then .halt (.trap .access va)
      else match checkAcc s s.cur.uid l { va := va, align := 1, size := n, acc := acc, kinds := [.ordinary, .plated], watched := false } with
        | .halt h => .halt h
        | .ok (.page p o pa) =>
          let last := reach s (vmidOf s c) (asidOf s c) (va + BitVec.ofNat 64 (n - 1)) acc m
          match last with
          | .fault ab st lv => .halt (.page ab st lv (va + BitVec.ofNat 64 (n - 1)) acc)
          | .poison => .halt (.poison [noKey] (va + BitVec.ofNat 64 (n - 1)))
          | .page p2 _ pa2 =>
            let tail := if pa2 = pa + (n - 1) then none else some (pa2 - (pa % 4096 + (n - 1) - 4096), p2.rclass)
            let e : ElemAt := { reach := .page p o pa, va := va, ofs := ofs, fmt := f, tail := tail }
            if p.region != some r || p2.region != some r || p.kind != pg.kind || p2.kind != pg.kind || p.sto || p2.sto ||
               (r.block != 0 && !fmtBlock f r.block) then .halt (.trap .access va)
            else if p.kind = .plated then
              let j := off * 8 / (w : Int) + i
              if !bit (nth 0 s.accept 0).toNat 0 then .halt (.trap .illegal 0x100)
              else if off < 0 ∨ off * 8 % (w : Int) ≠ 0 ∨ j < 0 then .halt (.trap .access va)
              else match plDesc s (mkey o r.desc) with
                | .access => .halt (.trap .access va)
                | .poison => elemCross s l acc [p.rclass, p2.rclass] { e with plate := some (j.toNat, mkey o r.desc) }
                | .ok d =>
                  if (d.length : Int) ≤ j then .halt (.trap .access va)
                  else elemCross s l acc [p.rclass, p2.rclass] { e with plate := some (j.toNat, mkey o r.desc) }
            else if r.block = 0 then elemCross s l acc [p.rclass, p2.rclass] e
            else
              let k : Int := 8 * off + w * i
              if k < 0 ∨ k % (w : Int) ≠ 0 then .halt (.trap .access va)
              else elemCross s l acc [p.rclass, p2.rclass]
                { e with block := true, scale := some (mkey o (r.scale + (k / (w : Int)).toNat / blockLen r.block)) }
          | _ => .halt (.trap .access va)
        | .ok _ => .halt (.trap .access va)

/-! ### Loading an element (R129, R217) -/

/-- A run of memory that the load of an element reads: its place, and what rules 1 to 4 of R217 make of it. -/
structure ElemRun where
  owner : Nat
  pa : Nat
  va : W64
  n : Nat
  part : Part
  cls : RClass
  at_ : LoadAt
  deriving DecidableEq, Repr

/-- A run that the element lies in, or its block's scale byte, on a page of this package. -/
def elemRun (s : State) (u l : Nat) (ord : Ord) (cls : RClass) (o pa : Nat) (va : W64) (n : Nat) (part : Part) : ElemRun :=
  ⟨o, pa, va, n, part, cls, loadAt s u l ord.sem ord.scope none o pa va n part⟩

/-- The runs of an element: its own bytes, page by page, then its block's scale byte, which lies at the same owner (R67). -/
def elemRuns (s : State) (u l : Nat) (ord : Ord) (e : ElemAt) : List ElemRun :=
  match e.reach with
  | .page a o pa =>
    let n := elemBytes e
    let part : Part := .elem e.ofs (fmtWidth e.fmt)
    (match e.tail with
     | none => [elemRun s u l ord a.rclass o pa e.va n part]
     | some t => let m := 4096 - pa % 4096
       [elemRun s u l ord a.rclass o pa e.va m .bytes, elemRun s u l ord t.2 o t.1 (e.va + BitVec.ofNat 64 m) (n - m) .bytes]) ++
    (match e.scale with
     | some k => [elemRun s u l ord a.rclass (k / 2 ^ 52) (k % 2 ^ 52) e.va 1 .bytes]
     | none => [])
  | .peer p =>
    [⟨ptrOwner e.va, ptrOfs e.va, e.va, elemBytes e, .elem e.ofs (fmtWidth e.fmt), .proof,
      loadAt s u l ord.sem ord.scope (some p) (ptrOwner e.va) (ptrOfs e.va) e.va (elemBytes e) (.elem e.ofs (fmtWidth e.fmt))⟩]
  | _ => []

/-- An entry of the thread or of its core gives a run, and not the die point. -/
def runNear (s : State) (u l : Nat) (ord : Ord) (peer : Option Nat) (r : ElemRun) : Bool :=
  !(ownEntries s u l peer r.owner r.pa r.va r.n).isEmpty || (coreEntry s u l ord.sem ord.scope peer r.owner r.pa r.va r.n r.part).isSome

/-- What an element load does (R217), its runs together: now, with the bytes of every run; sent, where the owner gives them all; else it waits
for the entries that give some of them (assumption 17). What a REPLAY launch has buffered in part it reads with the rest as it stands. -/
def elemAt (s : State) (u l : Nat) (ord : Ord) (e : ElemAt) : LoadAt :=
  let rs := elemRuns s u l ord e
  let peer := match e.reach with
    | .peer p => some p
    | _ => none
  let now : List (List Byte) := rs.filterMap (fun r => match r.at_ with
    | .now bs => some bs
    | _ => none)
  if rs.any (fun r => r.at_ == .wait) then .wait
  else if now.length = rs.length then .now now.flatten
  else if rs.any (runNear s u l ord peer) then .wait
  else if rs.any (fun r => (bufferRead s (launchAt s (launchOf s u)) r.owner r.pa peer r.va r.n).isSome) then
    .now (rs.flatMap (fun r => match r.at_ with
      | .now bs => bs
      | _ => rdBytes s (mkey r.owner r.pa) r.n))
  else .send

/-- A run is read in the memory of the own die now. -/
def runMem (s : State) (l : Nat) (ord : Ord) (e : ElemAt) (r : ElemRun) : Bool :=
  (match e.reach with
   | .page .. => true
   | _ => false) && ownMem s s.cur.uid l ord.sem ord.scope r.owner r.pa r.va r.n r.part

/-- The bytes that an element load is performed with now, those of the scale last; none where it is sent. -/
def elemLoad (s : State) (l : Nat) (ord : Ord) (e : ElemAt) : Option (List Byte) :=
  match elemAt s s.cur.uid l ord e with
  | .now bs =>
    let rs := elemRuns s s.cur.uid l ord e
    if rs.any (runMem s l ord e) then
      some (rs.flatMap (fun r => if runMem s l ord e r then dataBytes s r.cls r.owner r.pa r.n else match r.at_ with
        | .now bs => bs
        | _ => rdBytes s (mkey r.owner r.pa) r.n))
    else some bs
  | _ => none

/-- The errors that an element load meets now are counted (R338). -/
def elemMet (s : State) (l : Nat) (ord : Ord) (e : ElemAt) : State :=
  ((elemRuns s s.cur.uid l ord e).filter (runMem s l ord e)).foldl (fun s r => dataMet s (launchOf s s.cur.uid) r.cls r.owner r.pa r.n) s

/-- The value of an element whose bytes a load gives, with the flags of its conversion (R129). -/
def elemFrom (e : ElemAt) (bs : List Byte) : Nat × Nat :=
  let n := elemBytes e
  let code := bits (leNat (bs.take n)) (e.ofs + fmtWidth e.fmt - 1) e.ofs
  let p := elemValue e.fmt (e.scale.map (fun _ => (nth 0 bs n).toNat)) code ⟨.rne, 0, 0, 0⟩
  (p.1, p.2.flags)

/-- The data check of an element that is loaded now: its own bytes, and its scale byte (R123 step 6). -/
def elemBad (s : State) (l : Nat) (ord : Ord) (e : ElemAt) : Option Halt :=
  if elemAt s s.cur.uid l ord e == .send then none
  else match ((elemRuns s s.cur.uid l ord e).filter (fun r => runMem s l ord e r && dataBad s r.cls r.owner r.pa r.n)).flatMap
      (fun r => badAt s (mkey r.owner r.pa) r.n) with
    | [] => none
    | ks => some (.poison ks e.va)

/-- Registers that an element takes (R128). -/
def elemRegs (e : ElemAt) : Nat := if e.block then 1 else if fmtWidth e.fmt = 64 then 2 else 1

/-- The register of an element operand is odd where a pair is needed (R128). -/
def elemOdd (cnt : Nat) : Option Nat → Bool
  | some n => cnt == 2 && n % 2 == 1
  | none => false

/-- The type in which `st.e` reads its data (R128). -/
def elemOTy (f : Fmt) : OTy :=
  match f with
  | .f64 => .flt .f64
  | .i64 | .z64 => .int 64
  | _ => if fmtIsInt f then .int 32 else .flt .f32

end Sys2Proof.Machine
end

