-- ==== Sys2Proof/Machine/MemInstr.lean ====
section
/-! DEFINITION. The memory group: loads, stores, core-local memories, streams, line operations and tile tags (R120 to R135). -/

namespace Sys2Proof.Machine

/-! ### ld and st -/

/-- The page of an access to bytes is editioned: of another package, one that is not ordinary (assumption 7). -/
def onEdition (s : State) (va : W64) (r : Reach) : Bool :=
  match r with
  | .page a _ _ => a.kind == .editioned
  | .peer _ => !peerPage s (ctxOf s s.cur.uid) va
  | _ => false

/-- The descriptor of the region that a reach lies in. -/
def descOf (r : Reach) : Nat :=
  match r with
  | .page a o _ => (match a.region with
    | some g => mkey o g.desc
    | none => 0)
  | _ => 0

/-- The reach of a place n bytes on, within a page. -/
def reachNext (r : Reach) (n : Nat) : Reach :=
  match r with
  | .page a o pa => .page a o (pa + n)
  | y => y

/-- What `ld` found for a lane: bytes, or an element. -/
inductive LdAt where
  | bytes (va : W64) (r : Reach)
  | elem (e : ElemAt)
  deriving DecidableEq, Repr

/-- The accepted checks of `ld` on bytes (R122, R123). -/
def findLd (s : State) (sz : Size) (ord : Ord) (va : W64) (l : Nat) : Find LdAt :=
  let n := sizeBytes sz
  match checkAcc s s.cur.uid l { va := va, align := n, size := n, acc := .read, kinds := [.ordinary, .editioned, .code], cls := true } with
  | .halt h => .halt h
  | .ok (.page a o pa) =>
    if a.kind = .editioned then
      match a.region with
      | none => .halt (.trap .access va)
      | some _ => .go (.bytes va (.page a o pa))
    else match readBad s l ord.sem ord.scope (.page a o pa) va n with
      | some h => .halt h
      | none => .go (.bytes va (.page a o pa))
  | .ok r => .go (.bytes va r)

/-- The rounding check of an element that is loaded now (R66, R123 step 5). -/
def elemFpx (s : State) (l : Nat) (ord : Ord) (e : ElemAt) : Option Halt :=
  match elemLoad s l ord e with
  | some bs =>
    let v := elemFrom e bs
    if fpxDue (lane s s.cur.uid l) v.2 then some (.fpx v.2 (lane s s.cur.uid l).srcnt.toNat) else none
  | none => none

/-- The checks of `ld.e` (R123, R128, R129): destination shape, which comes after step 3 (assumption 18), FPX, data; a plate answers at its
owner (R224). -/
def findLdE (s : State) (d : Dst) (ord : Ord) (a : Nat) (i : Int) (l : Nat) : Find LdAt :=
  match findElem s l a i .read with
  | .halt h => .halt h
  | .go e =>
    if elemOdd (elemRegs e) (dstReg d) then .halt (.trap .access e.va)
    else match e.plate with
      | some _ => .go (.elem e)
      | none =>
        match elemFpx s l ord e with
        | some h => .halt h
        | none => match elemBad s l ord e with
          | some h => .halt h
          | none => .go (.elem e)

/-- One piece of a load of bytes: performed now, or sent (R217). -/
def loadPiece (s : State) (l acc : Nat) (ord : Ord) (r : Reach) (va : W64) (n : Nat) (t : Target) : State :=
  let u := s.cur.uid
  match r with
  | .page a o pa =>
    match loadAt s u l ord.sem ord.scope none o pa va n with
    | .now bs =>
      let p := readNow s l ord.sem ord.scope a o pa va bs
      noteAcquire (pendResult p.2 l acc t (leNat p.1)) u l ord.sem ord.scope
    | _ => sendRead s (readReq s l acc (.bytes false) r va n ord.sem ord.scope t)
  | .peer p =>
    match loadAt s u l ord.sem ord.scope (some p) (ptrOwner va) (ptrOfs va) va n with
    | .now bs => noteAcquire (pendResult s l acc t (leNat bs)) u l ord.sem ord.scope
    | _ => sendRead s (readReq s l acc (.bytes false) r va n ord.sem ord.scope t)
  | _ => sendRead s (readReq s l acc (.bytes false) r va n ord.sem ord.scope t)

/-- Pieces that a size moves as (R226): a q is two 8-byte entries. -/
def sizePieces (sz : Size) : Nat := if sz = .q then 2 else 1

/-- The effect of `ld` on bytes in a lane. -/
def actLdBytes (os : List (Opnd × OTy)) (sz : Size) (ord : Ord) (d : Dst) (s : State) (acc l : Nat) (va : W64) (r : Reach) : State :=
  let n := sizeBytes sz
  let t := dstTarget d (sizeRegs sz)
  if onEdition s va r then serviceRead s os (readReq s l acc (.newest (va.toNat % 8) (descOf r)) r va n ord.sem ord.scope t)
  else if sz = .q then
    let s := loadPiece s l acc ord r va 8 (targetFrom t 0 2)
    passLane (loadPiece s l acc ord (reachNext r 8) (va + 8) 8 (targetFrom t 2 2)) os l
  else passLane (loadPiece s l acc ord r va n t) os l

/-- The bytes that an element load is performed with now: of a plated element only what a REPLAY launch has buffered for another package. -/
def elemNow (s : State) (l : Nat) (ord : Ord) (e : ElemAt) : Option (List Byte) :=
  match e.plate, e.reach with
  | some _, .peer _ => elemLoad s l ord e
  | some _, _ => none
  | none, _ => elemLoad s l ord e

/-- The effect of `ld.e` in a lane: performed now, its flags set, or sent (R129, R217). -/
def actLdElem (os : List (Opnd × OTy)) (ord : Ord) (d : Dst) (s : State) (acc l : Nat) (e : ElemAt) : State :=
  let u := s.cur.uid
  let t := dstTarget d (elemRegs e)
  match elemNow s l ord e with
  | some bs =>
    let v := elemFrom e bs
    let s := modLane (elemMet s l ord e) u l (fun ln => setFlags ln v.2)
    passLane (noteAcquire (pendResult s l acc t v.1) u l ord.sem ord.scope) os l
  | none =>
    match e.plate with
    | some (j, k) => serviceRead s os (readReq s l acc (.plate j k) e.reach e.va 8 ord.sem ord.scope t)
    | none =>
      let kind : ReadKind := match e.reach with
        | .peer _ => if e.block then .bytes false else .elem e.ofs e.fmt none
        | _ => .elem e.ofs e.fmt e.scale
      passLane (sendRead s { readReq s l acc kind e.reach e.va (if kind = .bytes false then 4 else elemBytes e) ord.sem ord.scope t with
        tail := e.tail }) os l

/-- The effect of `ld` in a lane. -/
def actLd (os : List (Opnd × OTy)) (sz : Size) (ord : Ord) (d : Dst) (s : State) (acc : Nat) (x : LaneIn) (f : LdAt) : State :=
  match f with
  | .bytes va r => actLdBytes os sz ord d (fillCur s va r) acc x.lane va r
  | .elem e => actLdElem os ord d (fillCur s e.va e.reach) acc x.lane e

/-- LD (R122, R126, R128, R129). -/
def execLd (sz : Size) (ord : Ord) (d : Dst) (a : Fin 128) (ofs : BitVec 8) (b : Opnd) (s : State) : Out :=
  let os := srcs (.ld sz ord d a ofs b)
  let find (s : State) (x : LaneIn) : Find LdAt :=
    if sz = .e then findLdE s d ord (x.x 0) ((x.x 1 : Int) + sext 8 ofs.toNat) x.lane
    else findLd s sz ord (eaIndexed (sizeBytes sz) (x.x 0) ofs (x.x 1)) x.lane
  .next (runAccess s os find (some .ld) (fun _ f => match f with
    | .bytes va r => if onEdition s va r then 1 else sizePieces sz
    | .elem .. => 1) (actLd os sz ord d))

/-- What `st` found for a lane: bytes, or an element with its code, flags and SRCNT. -/
inductive StAt where
  | bytes (va : W64) (r : Reach)
  | elem (e : ElemAt) (code flags cnt : Nat)
  deriving DecidableEq, Repr

/-- The checks of `st` on bytes. -/
def findSt (s : State) (sz : Size) (va : W64) (l : Nat) : Find StAt :=
  let n := sizeBytes sz
  match checkAcc s s.cur.uid l { va := va, align := n, size := n, acc := .write, kinds := [.ordinary, .editioned, .code] } with
  | .halt h => .halt h
  | .ok r => .go (.bytes va r)

/-- The checks of `st.e` (R129): data shape, rounding and FPX. -/
def findStE (s : State) (x : Src) (a : Nat) (i : Int) (l : Nat) : Find StAt :=
  match findElem s l a i .write with
  | .halt h => .halt h
  | .go e =>
    let reg := match x with
      | .v n => some n.val
      | .o n => some n.val
      | .c n => some n.val
      | .h1 => some 1
      | _ => none
    let t := elemOTy e.fmt
    if e.block then .halt (.trap .access e.va)
    else if elemOdd (elemRegs e) reg then .halt (.trap .access e.va)
    else
      let v := readSrc s s.cur.uid s.cur.lanes t (op x) l
      match v.halt with
      | some h => .halt h
      | none =>
        let c := laneRnd (lane s s.cur.uid l) .dyn
        let val : FVal := if e.fmt = .f64 then .fin false 0 0
          else if fmtIsInt e.fmt then fvalOfInt (if fmtUnsigned e.fmt then (v.val : Int) else sext (if t = .int 64 then 64 else 32) v.val)
          else fmtDecode .f32 v.val
        let q := if e.fmt = .f64 then (v.val, c) else rnd c e.fmt false val
        if fpxDue (lane s s.cur.uid l) q.2.flags then .halt (.fpx q.2.flags q.2.cnt)
        else .go (.elem e q.1 q.2.flags q.2.cnt)

/-- Enter the pieces of a store of bytes; on an editioned page it is a commit (R125, R138). -/
def actStBytes (os : List (Opnd × OTy)) (sz : Size) (ord : Ord) (x : Nat) (s : State) (acc l : Nat) (va : W64) (r : Reach) : State :=
  let s := fillCur s va r
  let n := sizeBytes sz
  if onEdition s va r then
    commitPass (pushEntry s (newEntry s l acc (.est (leBytes n x) (descOf r)) r va n ord.sem ord.scope {} true)) os l acc
  else if sz = .q then
    let s := pushEntry s (newEntry s l acc (.bytes (leBytes 8 x)) r va 8 ord.sem ord.scope {} false)
    passLane (pushEntry s (newEntry s l acc (.bytes (leBytes 8 (x / 2 ^ 64))) (reachNext r 8) (va + 8) 8 ord.sem ord.scope {} false)) os l
  else passLane (pushEntry s (newEntry s l acc (.bytes (leBytes n x)) r va n ord.sem ord.scope {} false)) os l

/-- The effect of `st` in a lane. -/
def actSt (os : List (Opnd × OTy)) (sz : Size) (ord : Ord) (s : State) (acc : Nat) (x : LaneIn) (f : StAt) : State :=
  match f with
  | .bytes va r => actStBytes os sz ord (x.x 0) s acc x.lane va r
  | .elem e code fl cnt =>
    let s := modLane (fillCur s e.va e.reach) s.cur.uid x.lane (fun ln => { setFlags ln fl with srcnt := BitVec.ofNat 64 cnt })
    let n := elemBytes e
    match e.plate with
    | some (j, k) =>
      commitPass (pushEntry s (newEntry s x.lane acc (.plate j code k) e.reach e.va n ord.sem ord.scope {} true)) os x.lane acc
    | none => passLane (pushEntry s { newEntry s x.lane acc (.bits e.ofs (fmtWidth e.fmt) code) e.reach e.va n ord.sem ord.scope {} false with tail := e.tail })
        os x.lane

/-- ST (R122, R126, R128, R129). -/
def execSt (sz : Size) (ord : Ord) (x : Src) (a : Fin 128) (ofs : BitVec 8) (b : Opnd) (s : State) : Out :=
  let os := srcs (.st sz ord x a ofs b)
  let find (s : State) (y : LaneIn) : Find StAt :=
    if sz = .e then findStE s x (y.x 1) ((y.x 2 : Int) + sext 8 ofs.toNat) y.lane
    else findSt s sz (eaIndexed (sizeBytes sz) (y.x 1) ofs (y.x 2)) y.lane
  .next (runAccess s os find (some .st) (fun _ f => match f with
    | .bytes va r => if onEdition s va r then 1 else sizePieces sz
    | .elem .. => 1) (actSt os sz ord))

/-! ### Core-local memories (R130, R131, R225) -/

/-- A scratch address lies in a tile of the gang (R130, R205). -/
def tileOk (g : Gang) (a : Nat) : Bool := decide (a < 2 ^ 21) && decide (a / 4096 < g.tiles)

/-- Bytes of a run of a local array that its own entries do not give a thread: those that a load reads in the array (R225). -/
def arrayReads (own : Nat → Bool) (a n : Nat) : List Nat := ((List.range n).map (fun i => a + i)).filter (fun x => !own x)

/-- A thread's own entries give a scratch byte. -/
def scratchOwn (es : List FEntry) (a : Nat) : Bool :=
  es.any (fun e => match e.act with
    | .scratch bs => decide (e.pa ≤ a) && decide (a < e.pa + bs.length)
    | _ => false)

/-- The checks of `lds` and `sts`; a read of the array consumes a poisoned sector. -/
def findScratch (rd : Bool) (n a : Nat) (s : State) (l : Nat) : Find Nat :=
  let g := gangOf s s.cur.uid
  let va := BitVec.ofNat 64 a
  if a % n ≠ 0 then .halt (.trap .align va)
  else if !tileOk g a then .halt (.trap .access va)
  else if rd && (arrayReads (scratchOwn (lane s s.cur.uid l).fifo) a n).any (fun x => poisoned g.scratchPois x 1) then
    .halt (.poisonOwn (.scratch (grp s s.cur.uid).gang a) n va)
  else .go a

/-- A scratch byte as a thread reads it: its own newest entry, else what the array gives (R225). -/
def scratchByte (es : List FEntry) (x : Byte) (a : Nat) : Byte :=
  es.foldl (fun r e => match e.act with
    | .scratch bs => if e.pa ≤ a ∧ a < e.pa + bs.length then nth 0 bs (a - e.pa) else r
    | _ => r) x

/-- A byte of the array: where an engine is writing it, the value before or after that write (R207). -/
def arrayByte (s : State) (u a i : Nat) : Byte :=
  let x := smGet 0 (gangOf s u).scratch a
  match flyingByte s (grp s u).gang a with
  | some y => if bit (Config.freeWord s.free).toNat i then y else x
  | none => x

/-- n scratch bytes as a thread reads them. -/
def scratchBytes (s : State) (u l a n : Nat) : List Byte :=
  (List.range n).map (fun i => scratchByte (lane s u l).fifo (arrayByte s u (a + i) i) (a + i))

/-- An entry that acts on a local array. -/
def localEntry (s : State) (l acc : Nat) (act : Act) (a n : Nat) (sem : Sem) : FEntry :=
  { newEntry s l acc act .access (BitVec.ofNat 64 a) n sem .core {} false with owner := 0, pa := a }

/-- LDS (R130). -/
def execLds (sz : Size) (sem : Sem) (d : Dst) (a : Fin 128) (ofs : BitVec 8) (b : Opnd) (s : State) : Out :=
  let os := srcs (.lds sz sem d a ofs b)
  let n := sizeBytes sz
  .next (runAccess s os (fun s x => findScratch true n (eaLocal n (x.x 0) ofs (x.x 1)) s x.lane) (some .ld) (fun _ _ => 1) (fun s acc x ea =>
    let s := (arrayReads (scratchOwn (lane s s.cur.uid x.lane).fifo) ea n).foldl (fun s a => meetArr s (.scratch (grp s s.cur.uid).gang a) 1) s
    let v := leNat (scratchBytes s s.cur.uid x.lane ea n)
    passLane (noteAcquire (pendResult { s with free := s.free + 1 } x.lane acc (dstTarget d (sizeRegs sz)) v) s.cur.uid x.lane sem .core) os x.lane))

/-- STS (R130). -/
def execSts (sz : Size) (sem : Sem) (x : Src) (a : Fin 128) (ofs : BitVec 8) (b : Opnd) (s : State) : Out :=
  let os := srcs (.sts sz sem x a ofs b)
  let n := sizeBytes sz
  .next (runAccess s os (fun s y => findScratch false n (eaLocal n (y.x 1) ofs (y.x 2)) s y.lane) (some .st) (fun _ _ => 1) (fun s acc y ea =>
    passLane (pushEntry s (localEntry s y.lane acc (.scratch (leBytes n (y.x 0))) ea n sem)) os y.lane))

/-- The checks of `ldp` and `stp` (R130, R208, R290). -/
def findPriv (rd : Bool) (n a : Nat) (s : State) (l : Nat) : Find Nat :=
  let p := (gangOf s s.cur.uid).privsz
  let ln := lane s s.cur.uid l
  let va := BitVec.ofNat 64 a
  if a % n ≠ 0 then .halt (.trap .align va)
  else if p ≤ a then .halt (.trap .access va)
  else if ln.mode = .u ∧ (p ≤ 256 ∨ p - 256 < a + n) then .halt (.trap .access va)
  else if ln.mode = .s ∧ p - 64 < a + n then .halt (.trap .access va)
  else if rd && (arrayReads (fun x => (fifoPriv ln.fifo x).isSome) a n).any (fun x => poisoned ln.privPois x 1) then .halt (.poisonOwn (.priv s.cur.uid l a) n va)
  else .go a

/-- LDP (R130). -/
def execLdp (sz : Size) (d : Dst) (a : Fin 128) (ofs : BitVec 8) (b : Opnd) (s : State) : Out :=
  let os := srcs (.ldp sz d a ofs b)
  let n := sizeBytes sz
  .next (runAccess s os (fun s x => findPriv true n (eaLocal n (x.x 0) ofs (x.x 1)) s x.lane) (some .ld) (fun _ _ => 1) (fun s acc x ea =>
    let s := (arrayReads (fun a => (fifoPriv (lane s s.cur.uid x.lane).fifo a).isSome) ea n).foldl (fun s a => meetArr s (.priv s.cur.uid x.lane a) 1) s
    passLane (pendResult s x.lane acc (dstTarget d (sizeRegs sz)) (leNat (privBytes (lane s s.cur.uid x.lane) ea n))) os x.lane))

/-- STP (R130). -/
def execStp (sz : Size) (x : Src) (a : Fin 128) (ofs : BitVec 8) (b : Opnd) (s : State) : Out :=
  let os := srcs (.stp sz x a ofs b)
  let n := sizeBytes sz
  .next (runAccess s os (fun s y => findPriv false n (eaLocal n (y.x 1) ofs (y.x 2)) s y.lane) (some .st) (fun _ _ => 1) (fun s acc y ea =>
    passLane (pushEntry s (localEntry s y.lane acc (.priv (leBytes n (y.x 0))) ea n .plain)) os y.lane))

/-- The checks of `ldacc` (R131): its word number, row * 256 + column. A negative column takes ACCESS as one beyond the row does
(assumption 18). -/
def findAcc (n row : Nat) (col : Int) (s : State) : Find Nat :=
  let g := gangOf s s.cur.uid
  let tx : W64 := BitVec.ofInt 64 ((row : Int) * 256 + col)
  if col % (n : Int) ≠ 0 then .halt (.trap .align tx)
  else if g.accrows ≤ row ∨ col < 0 ∨ 256 < col + n then .halt (.trap .access tx)
  else
    let w := row * 256 + col.toNat
    if g.accPois.any (fun k => decide (w ≤ k) && decide (k < w + n)) then .halt (.poisonOwn (.acc (grp s s.cur.uid).gang w) n tx) else .go w

/-- LDACC (R131). -/
def execLdacc (sz : Size) (d : Dst) (a : Fin 128) (ofs : BitVec 8) (b : Opnd) (s : State) : Out :=
  let os := srcs (.ldacc sz d a ofs b)
  let n := sizeRegs sz
  .next (runAccess s os (fun s x => findAcc n (x.x 0) ((x.x 1 : Int) + sext 8 ofs.toNat * (n : Int)) s) (some .ld) (fun _ _ => 1)
    (fun s acc x w =>
      let s := meetArr s (.acc (grp s s.cur.uid).gang w) n
      let g := gangOf s s.cur.uid
      let word (i : Nat) : W32 := match flyingWord s (grp s s.cur.uid).gang (w + i) with
        | some y => if bit (Config.freeWord s.free).toNat i then y else smGet 0 g.acc (w + i)
        | none => smGet 0 g.acc (w + i)
      let v := (List.range n).foldr (fun i r => (word i).toNat + 2 ^ 32 * r) 0
      passLane (pendResult { s with free := s.free + 1 } x.lane acc (dstTarget d n) v) os x.lane))

/-! ### Streams (R132) -/

/-- Set part f of a stream (R132). -/
def qdefPart (q : Stream) (f p : Nat) : Stream :=
  match f with
  | 0 => { q with base := BitVec.ofNat 64 p, pos := 0 }
  | 6 => { q with esize := BitVec.ofNat 2 p, sign := bit p 2 }
  | 7 => { q with pos := BitVec.ofNat 64 p }
  | k => { q with dims := setNth q.dims (k - 1) ⟨BitVec.ofNat 32 p, BitVec.ofNat 16 (p / 2 ^ 32)⟩ }

/-- Part f of a stream (R132). -/
def qgetPart (q : Stream) (f : Nat) : Nat :=
  match f with
  | 0 => q.base.toNat
  | 6 => q.esize.toNat + 4 * b2n q.sign
  | 7 => q.pos.toNat
  | k => let d := nth {} q.dims (k - 1); d.stride.toNat + 2 ^ 32 * d.ext.toNat

/-- Write a result that does not shift the last-result file, at once. -/
def putDst (ln : Lane) (d : Dst) (cnt x : Nat) : Lane :=
  match dstReg d with
  | some n => setRegs ln n cnt x
  | none => ln

/-- QDEF (R132). -/
def execQdef (q : Fin 8) (a : Fin 128) (f : Fin 8) (s : State) : Out :=
  let os := srcs (.qdef q a f)
  .next (runAccess s os (fun _ x => .go (x.x 0)) none (fun _ _ => 0) (fun s _ x p =>
    passLane (modLane s s.cur.uid x.lane (fun ln => { ln with q := modNth ln.q q.val (fun st => qdefPart st f.val p) })) os x.lane))

/-- QGET (R132). -/
def execQget (d : Dst) (q : Fin 8) (f : Fin 8) (s : State) : Out :=
  .next (modCur s s.cur.lanes (fun _ ln =>
    advance (putDst ln d (if f.val = 6 then 1 else 2) (qgetPart (nth {} ln.q q.val) f.val)) s.cur.len))

/-! ### Line operations (R135) -/

/-- PF (R135): the die cache is not seen by programs (R19), and no failed check raises anything. -/
def execPf (a : Fin 128) (ofs : BitVec 8) (b : Opnd) (s : State) : Out :=
  let os := srcs (.pf a ofs b)
  .next (runAccess s os (fun _ _ => .go ()) none (fun _ _ => 0) (fun s _ x _ => passLane s os x.lane))

/-- The checks of `cwb` and `cinv` (R135): steps 1 and 2 of R123, read permission; every KIND. -/
def findLine (s : State) (va : W64) (l : Nat) : Find (W64 × Reach) :=
  match checkAcc s s.cur.uid l { va := va, align := 1, size := 1, acc := .read, kinds := [.ordinary, .editioned, .plated, .code], watched := false } with
  | .halt h => .halt h
  | .ok r => .go (va, r)

/-- A line operation acts on an ordinary page only (R122). -/
def lineActs (s : State) (va : W64) (r : Reach) : Bool :=
  match r with
  | .page a _ _ => a.kind == .ordinary
  | .peer _ => peerPage s (ctxOf s s.cur.uid) va
  | _ => false

/-- The line of a place: its first byte (R121). -/
def lineReach (r : Reach) : Reach :=
  match r with
  | .page a o pa => .page a o (pa / 64 * 64)
  | y => y

/-- CWB (R135): an entry that is performed after the thread's earlier stores to the line. -/
def execCwb (a : Fin 128) (ofs : BitVec 8) (b : Opnd) (s : State) : Out :=
  let os := srcs (.cwb a ofs b)
  .next (runAccess s os (fun s x => findLine s (eaIndexed 1 (x.x 0) ofs (x.x 1)) x.lane) (some .st) (fun _ f => if lineActs s f.1 f.2 then 1 else 0)
    (fun s acc x f =>
      let s := fillCur s f.1 f.2
      if lineActs s f.1 f.2 then
        let va := BitVec.ofNat 64 (f.1.toNat / 64 * 64)
        passLane (pushEntry s (newEntry s x.lane acc .mark (lineReach f.2) va 64 .plain .core {} false)) os x.lane
      else passLane s os x.lane))

/-- CINV (R135): the issuing die's copies of the line go, those of undelivered stores too: a later load is sent after them. -/
def execCinv (a : Fin 128) (ofs : BitVec 8) (b : Opnd) (s : State) : Out :=
  let os := srcs (.cinv a ofs b)
  .next (runAccess s os (fun s x => findLine s (eaIndexed 1 (x.x 0) ofs (x.x 1)) x.lane) none (fun _ _ => 0) (fun s _ x f =>
    let s := fillCur s f.1 f.2
    match f.2 with
    | .page pg o pa =>
      if pg.kind = .ordinary then passLane (dropLines s (dieOf (coreOf s s.cur.uid)) (mkey o pa) 1) os x.lane else passLane s os x.lane
    | .peer _ =>
      if lineActs s f.1 f.2 then passLane (dropLines s (dieOf (coreOf s s.cur.uid)) (peerKey s (ctxOf s s.cur.uid) f.1) 1) os x.lane else passLane s os x.lane
    | _ => passLane s os x.lane))

/-! ### Tile tags (R133, R134) -/

/-- TTAG (R134). -/
def execTtag (x : Src) (b : Opnd) (s : State) : Out :=
  let os := srcs (.ttag x b)
  let find (s : State) (y : LaneIn) : Find Nat :=
    let va := BitVec.ofNat 64 (y.x 1)
    if !tileOk (gangOf s s.cur.uid) (y.x 1) then .halt (.trap .access va)
    else if bits (y.x 0) 31 17 ≠ 0 ∨ 5 ≤ bits (y.x 0) 15 13 ∨ 5 ≤ bits (y.x 0) 12 10 then .halt (.trap .access va)
    else .go (y.x 1 / 4096)
  .next (runAccess s os find (some .st) (fun _ _ => 1) (fun s acc y tile =>
    passLane (pushEntry s (localEntry s y.lane acc (.tag (BitVec.ofNat 32 (y.x 0))) tile 1 .plain)) os y.lane))

/-- The tag of a tile as a thread reads it (R225). -/
def tagRead (es : List FEntry) (m : SMap W32) (tile : Nat) : W32 :=
  es.foldl (fun r e => match e.act with
    | .tag w => if e.pa = tile then w else r
    | _ => r) (smGet 0 m tile)

/-- LDT (R134). -/
def execLdt (d : Dst) (b : Opnd) (s : State) : Out :=
  let os := srcs (.ldt d b)
  let find (s : State) (y : LaneIn) : Find Nat :=
    if !tileOk (gangOf s s.cur.uid) (y.x 0) then .halt (.trap .access (BitVec.ofNat 64 (y.x 0))) else .go (y.x 0 / 4096)
  .next (runAccess s os find (some .ld) (fun _ _ => 1) (fun s acc y tile =>
    let t := tagRead (lane s s.cur.uid y.lane).fifo (gangOf s s.cur.uid).tags tile
    passLane (pendResult s y.lane acc (dstTarget d 1) t.toNat) os y.lane))

end Sys2Proof.Machine
end

