-- ==== Sys2Proof/Machine/AtomInstr.lean ====
section
/-! DEFINITION. The atomics (R136), the edition instructions (R138), the plate instructions (R139), `fence` and `acqr`
(R140, R221). -/

namespace Sys2Proof.Machine

/-! ### Atomics -/

/-- The checks of an atomic on w bytes (R121 to R123); a place that a REPLAY launch buffers takes none (R352). -/
def findAtom (w : Nat) (va : W64) (s : State) (l : Nat) : Find (W64 × Reach) :=
  match checkAcc s s.cur.uid l { va := va, align := w, size := w, acc := .readWrite, kinds := [.ordinary, .editioned], cls := true } with
  | .halt h => .halt h
  | .ok r =>
    if bufferedPlace s r then .halt (.trap .access va) else .go (va, r)

/-- The effect of an atomic in a lane: an entry that carries its destination, and a commit that is made when it is performed (R125,
R224). -/
def actAtom (os : List (Opnd × OTy)) (op : AtomOp) (w : Nat) (ord : Ord) (d : Dst) (x cmp : Nat) (s : State) (acc l : Nat)
    (f : W64 × Reach) : State :=
  let s := fillCur s f.1 f.2
  let t := dstTarget d (if w = 8 then 2 else 1)
  let act : Act := if onEdition s f.1 f.2 then .atomEd op w x cmp (descOf f.2) else .atom op w x cmp
  commitPass (pushEntry s (newEntry s l acc act f.2 f.1 w ord.sem ord.scope t true)) os l acc

/-- Run an atomic: sources are the pointer, the operand, and for `acas` the comparand, a free value where it has no
register (assumption 8). -/
def runAtom (s : State) (i : Instr) (op : AtomOp) (wide : Bool) (ord : Ord) (d : Dst) (ofs : BitVec 8) : State :=
  let os := srcs i
  let w := if wide then 8 else 4
  let find (s : State) (x : LaneIn) : Find (W64 × Reach) := findAtom w (eaDirect w (x.x 0) ofs) s x.lane
  let cmp (x : LaneIn) : Nat := if d = .none then (Config.freeWord (s.free + x.lane)).toNat % 2 ^ (8 * w) else x.x 2
  runAccess (if op = .cas ∧ d = .none then { s with free := s.free + 32 } else s) os find (some (if d = .none then .st else .ld)) (fun _ _ => 1)
    (fun s acc x f => actAtom os op w ord d (x.x 1) (cmp x) s acc x.lane f)

/-- AADD (R136). -/
def execAadd (wide : Bool) (ord : Ord) (d : Dst) (a : Fin 128) (ofs : BitVec 8) (b : Opnd) (s : State) : Out :=
  .next (runAtom s (.aadd wide ord d a ofs b) .add wide ord d ofs)
/-- AMIN (R136). -/
def execAmin (wide : Bool) (ord : Ord) (d : Dst) (a : Fin 128) (ofs : BitVec 8) (b : Opnd) (s : State) : Out :=
  .next (runAtom s (.amin wide ord d a ofs b) .min wide ord d ofs)
/-- AMAX (R136). -/
def execAmax (wide : Bool) (ord : Ord) (d : Dst) (a : Fin 128) (ofs : BitVec 8) (b : Opnd) (s : State) : Out :=
  .next (runAtom s (.amax wide ord d a ofs b) .max wide ord d ofs)
/-- AAND (R136). -/
def execAand (wide : Bool) (ord : Ord) (d : Dst) (a : Fin 128) (ofs : BitVec 8) (b : Opnd) (s : State) : Out :=
  .next (runAtom s (.aand wide ord d a ofs b) .and wide ord d ofs)
/-- AOR (R136). -/
def execAor (wide : Bool) (ord : Ord) (d : Dst) (a : Fin 128) (ofs : BitVec 8) (b : Opnd) (s : State) : Out :=
  .next (runAtom s (.aor wide ord d a ofs b) .or wide ord d ofs)
/-- AXOR (R136). -/
def execAxor (wide : Bool) (ord : Ord) (d : Dst) (a : Fin 128) (ofs : BitVec 8) (b : Opnd) (s : State) : Out :=
  .next (runAtom s (.axor wide ord d a ofs b) .xor wide ord d ofs)
/-- AXCHG (R136). -/
def execAxchg (wide : Bool) (ord : Ord) (d : Dst) (a : Fin 128) (ofs : BitVec 8) (b : Opnd) (s : State) : Out :=
  .next (runAtom s (.axchg wide ord d a ofs b) .xchg wide ord d ofs)
/-- AINC (R136). -/
def execAinc (ord : Ord) (d : Dst) (a : Fin 128) (ofs : BitVec 8) (b : Opnd) (s : State) : Out :=
  .next (runAtom s (.ainc ord d a ofs b) .inc false ord d ofs)
/-- ACAS (R136). -/
def execAcas (wide : Bool) (ord : Ord) (d : Dst) (a : Fin 128) (ofs : BitVec 8) (b : Opnd) (s : State) : Out :=
  .next (runAtom s (.acas wide ord d a ofs b) .cas wide ord d ofs)
/-- AFADD (R136). -/
def execAfadd (wide : Bool) (ord : Ord) (d : Dst) (a : Fin 128) (ofs : BitVec 8) (b : Opnd) (s : State) : Out :=
  .next (runAtom s (.afadd wide ord d a ofs b) .fadd wide ord d ofs)
/-- AFMIN (R136). -/
def execAfmin (ord : Ord) (d : Dst) (a : Fin 128) (ofs : BitVec 8) (b : Opnd) (s : State) : Out :=
  .next (runAtom s (.afmin ord d a ofs b) .fmin false ord d ofs)
/-- AFMAX (R136). -/
def execAfmax (ord : Ord) (d : Dst) (a : Fin 128) (ofs : BitVec 8) (b : Opnd) (s : State) : Out :=
  .next (runAtom s (.afmax ord d a ofs b) .fmax false ord d ofs)
/-- AFADD2 (R136). -/
def execAfadd2 (ord : Ord) (d : Dst) (a : Fin 128) (ofs : BitVec 8) (b : Opnd) (s : State) : Out :=
  .next (runAtom s (.afadd2 ord d a ofs b) .fadd2 false ord d ofs)

/-! ### Editions (R138) -/

/-- The checks of an access to an editioned cell of n bytes. -/
def findCell (n : Nat) (acc : AccKind) (cls : Bool) (va : W64) (s : State) (l : Nat) : Find (W64 × Reach) :=
  match checkAcc s s.cur.uid l { va := va, align := n, size := n, acc := acc, kinds := [.editioned], cls := cls } with
  | .halt h => .halt h
  | .ok r => .go (va, r)

/-- The request of an `eld` of a lane, under the access that a lane woken from its parking still holds. -/
def eldReq (s : State) (sz : Size) (ord : Ord) (d : Dst) (acc : Nat) (x : LaneIn) (f : W64 × Reach) : ReadReq :=
  { readReq s x.lane (((lane s s.cur.uid x.lane).eldAcc).getD acc) (.eld (f.1.toNat % 8) (x.x 1) (descOf f.2)) f.2 f.1 (sizeBytes sz)
      ord.sem ord.scope (dstTarget d (sizeRegs sz)) with waits := true }

/-- A lane that ends instead of being evaluated again gives up the access of its earlier `eld`. -/
def eldEnded (s0 s : State) : State :=
  s0.cur.lanes.foldl (fun s l =>
    match (lane s0 s0.cur.uid l).eldAcc, (lane s s0.cur.uid l).eldAcc, (lane s s0.cur.uid l).st with
    | some a, some _, .run => modLane (endAcc s s0.cur.uid a) s0.cur.uid l (fun ln => { ln with eldAcc := none })
    | _, _, _ => s) s

/-- The keys (cell, edition) under which lanes would park at the owner service of their own die. -/
def parkKeys (s : State) (sz : Size) (ord : Ord) (d : Dst) (ofs : BitVec 8) (os : List (Opnd × OTy)) : List (Nat × Nat) :=
  ((readAll s s.cur.uid s.cur.lanes os).filterMap (fun x =>
    match x.halt, findCell (sizeBytes sz) .read true (eaDirect (sizeBytes sz) (x.x 0) ofs) s x.lane with
    | none, .go f =>
      let r := eldReq s sz ord d 0 x f
      if r.peer.isNone && r.owner == dieOf (coreOf s r.uid) then
        (match readStep s r none with
         | .park cell => some (cell, x.x 1)
         | _ => none)
      else none
    | _, _ => none)).eraseDups

/-- Every lane of the set that asks for an edition asks the service of its own die. -/
def eldOwn (s : State) (sz : Size) (ord : Ord) (d : Dst) (ofs : BitVec 8) (os : List (Opnd × OTy)) : Bool :=
  (readAll s s.cur.uid s.cur.lanes os).all (fun x =>
    match x.halt, findCell (sizeBytes sz) .read true (eaDirect (sizeBytes sz) (x.x 0) ofs) s x.lane with
    | none, .go f =>
      let r := eldReq s sz ord d 0 x f
      r.peer.isNone && r.owner == dieOf (coreOf s r.uid)
    | _, _ => true)

/-- The wait table of a die lacks entries for some of these keys (R234). -/
def parkShort (d : Die) (u : Nat) (ks : List (Nat × Nat)) : Bool :=
  let new := ks.filter (fun k => !d.waits.any (fun w => w.cell == k.1 && w.ed == k.2 && w.uid == u && !w.due))
  decide (8192 < d.waits.length + new.length)

/-- ELD (R138, R233, R234). -/
def execEld (sz : Size) (ord : Ord) (d : Dst) (a : Fin 128) (ofs : BitVec 8) (b : Opnd) (s : State) : Out :=
  let os := srcs (.eld sz ord d a ofs b)
  let find (s : State) (x : LaneIn) : Find (W64 × Reach) :=
    findCell (sizeBytes sz) .read true (eaDirect (sizeBytes sz) (x.x 0) ofs) s x.lane
  let own := eldOwn s sz ord d ofs os
  let t := runAccess s os find (some .ld) (fun x _ => if (lane s s.cur.uid x.lane).eldAcc.isSome then 0 else 1) (fun s acc x f =>
    let r := eldReq s sz ord d acc x f
    if own then serviceRead (fillCur s f.1 f.2) os r else eldAsk (fillCur s f.1 f.2) os r (x.x 1))
  let ks := parkKeys s sz ord d ofs os
  if parkShort (dieAt s (dieOf (coreOf s s.cur.uid))) s.cur.uid ks && (grp t s.cur.uid).faults.isEmpty then
    .next (beginSave (parkOverflow s s.cur.uid ks) s.cur.uid .waitOverflow [] [])
  else .next (eldEnded s t)

/-- EST (R138): the edition's number goes to the destination when it is performed. -/
def execEst (sz : Size) (ord : Ord) (d : Dst) (a : Fin 128) (ofs : BitVec 8) (b : Opnd) (s : State) : Out :=
  let os := srcs (.est sz ord d a ofs b)
  let n := sizeBytes sz
  .next (runAccess s os (fun s x => findCell n .write false (eaDirect n (x.x 0) ofs) s x.lane) (some .st) (fun _ _ => 1) (fun s acc x f =>
    let s := fillCur s f.1 f.2
    commitPass (pushEntry s (newEntry s x.lane acc (.est (leBytes n (x.x 1)) (descOf f.2)) f.2 f.1 n ord.sem ord.scope (dstTarget d 1) true))
      os x.lane acc))

/-- EREL (R138). -/
def execErel (ord : Ord) (a : Fin 128) (ofs : BitVec 8) (b : Opnd) (s : State) : Out :=
  let os := srcs (.erel ord a ofs b)
  let find (s : State) (x : LaneIn) : Find (W64 × Reach) :=
    match findCell 1 .write false (eaDirect 1 (x.x 0) ofs) s x.lane with
    | .halt h => .halt h
    | .go f =>
      match f.2 with
      | .page .. => (match edDesc s (descOf f.2) with
        | .access => .halt (.trap .access f.1)
        | .poison => .go f
        | .ok e => if (edIndex e f.1).isSome then .go f else .halt (.trap .access f.1))
      | _ => .go f
  .next (runAccess s os find (some .st) (fun _ _ => 1) (fun s acc x f =>
    passLane (pushEntry (fillCur s f.1 f.2) (newEntry s x.lane acc (.erel (BitVec.ofNat 32 (x.x 1)) (descOf f.2)) f.2 f.1 8 ord.sem ord.scope {} false))
      os x.lane))

/-- ENEW (R138). -/
def execEnew (ord : Ord) (d : Dst) (a : Fin 128) (ofs : BitVec 8) (s : State) : Out :=
  let os := srcs (.enew ord d a ofs)
  let req (s : State) (x : LaneIn) (acc : Nat) (f : W64 × Reach) : ReadReq :=
    readReq s x.lane acc (.enew (descOf f.2)) f.2 f.1 8 ord.sem ord.scope (dstTarget d 1)
  let find (s : State) (x : LaneIn) : Find (W64 × Reach) :=
    findCell 1 .read false (eaDirect 1 (x.x 0) ofs) s x.lane
  .next (runAccess s os find (some .ld) (fun _ _ => 1) (fun s acc x f => serviceRead (fillCur s f.1 f.2) os (req s x acc f)))

/-! ### Plates (R139) -/

/-- The checks of a plate instruction: the plated region that holds EA, with its descriptor. -/
def findPlate (acc : AccKind) (ok : PlDesc → Bool) (va : W64) (s : State) (l : Nat) : Find (W64 × Reach) :=
  match checkAcc s s.cur.uid l { va := va, align := 1, size := 1, acc := acc, kinds := [.plated], watched := false } with
  | .halt h => .halt h
  | .ok (.page a o pa) =>
    match plDesc s (descOf (.page a o pa)) with
    | .access => .halt (.trap .access va)
    | .poison => .go (va, .page a o pa)
    | .ok d => if ok d then .go (va, .page a o pa) else .halt (.trap .access va)
  | .ok r => .go (va, r)

/-- PRECAST (R139). -/
def execPrecast (a : Fin 128) (ofs : BitVec 8) (s : State) : Out :=
  let os := srcs (.precast a ofs)
  .next (runAccess s os (fun s x => findPlate .write (fun _ => true) (eaDirect 1 (x.x 0) ofs) s x.lane) (some .st) (fun _ _ => 1) (fun s acc x f =>
    passLane (pushEntry (fillCur s f.1 f.2) (newEntry s x.lane acc (.precast (descOf f.2)) f.2 f.1 1 .plain .core {} false)) os x.lane))

/-- Refits of a region that a `psync` issued now waits for (R139). -/
def psyncTarget (p : Plate) : Nat := p.served + b2n (plRunning p) + b2n p.pend

/-- PSYNC (R139): the lane waits until its request is performed. -/
def execPsync (a : Fin 128) (ofs : BitVec 8) (s : State) : Out :=
  let os := srcs (.psync a ofs)
  .next (runAccess s os (fun s x => findPlate .read (fun _ => true) (eaDirect 1 (x.x 0) ofs) s x.lane) none (fun _ _ => 0) (fun s acc x f =>
    let s := fillCur s f.1 f.2
    let k := descOf f.2
    let r := readReq s x.lane acc (.psync k (psyncTarget (plateAt s k))) f.2 f.1 1 .plain .core {}
    waitLane (sendRead s { r with waits := true }) os x.lane (.psync s.fresh)))

/-- PQUERY (R139). -/
def execPquery (d : Dst) (a : Fin 128) (ofs : BitVec 8) (s : State) : Out :=
  let os := srcs (.pquery d a ofs)
  .next (runAccess s os (fun s x => findPlate .read (fun _ => true) (eaDirect 1 (x.x 0) ofs) s x.lane) (some .ld) (fun _ _ => 1) (fun s acc x f =>
    serviceRead (fillCur s f.1 f.2) os (readReq s x.lane acc (.pquery (descOf f.2)) f.2 f.1 8 .plain .core (dstTarget d 2))))

/-- PSET (R139): a PL region, or an index beyond the image, takes ACCESS. -/
def execPset (x : Src) (a : Fin 128) (ofs : BitVec 8) (b : Opnd) (s : State) : Out :=
  let os := srcs (.pset x a ofs b)
  .next (runAccess s os (fun s y => findPlate .write (fun d => decide (y.x 2 < plWords d)) (eaDirect 1 (y.x 1) ofs) s y.lane) (some .st) (fun _ _ => 1)
    (fun s acc y f =>
      passLane (pushEntry (fillCur s f.1 f.2)
        (newEntry s y.lane acc (.pset (y.x 2) (BitVec.ofNat 32 (y.x 0)) (descOf f.2)) f.2 f.1 1 .plain .core {} false)) os y.lane))

/-! ### Fences (R140, R219, R221) -/

/-- FENCE (R140): every kind but rlx waits until R219 lets it complete. -/
def execFence (k : FenceKind) (scope : Scope) (s : State) : Out :=
  if k = .rlx then .next (modCur s s.cur.lanes (fun _ ln => advance ln s.cur.len))
  else .next (modCur s s.cur.lanes (fun _ ln => { ln with st := .wait (.fence k scope), ilen := s.cur.len }))

/-- The cores that an instance of a scope covers (R11, R18). -/
def coversCore (sc : Scope) (c k : Nat) : Bool :=
  match sc with
  | .core => k == c
  | .quad => k / 4 == c / 4
  | .die => k / 48 == c / 48
  | _ => true

/-- The owner and first byte by which a promote names its line; 16 and up for another package. -/
def promoteLine (va : W64) (r : Reach) : Nat × Nat :=
  match r with
  | .page _ o pa => (o, pa / 64 * 64)
  | .peer n => (16 + n, va.toNat / 64 * 64)
  | _ => (0, 0)

/-- ACQR (R140, R221): the promote goes out to every core that the scope covers; it acts on ordinary pages. -/
def execAcqr (scope : Scope) (a : Fin 128) (ofs : BitVec 8) (s : State) : Out :=
  let os := srcs (.acqr scope a ofs)
  .next (runAccess s os (fun s x => findLine s (eaDirect 1 (x.x 0) ofs) x.lane) (some .ld) (fun _ f => if lineActs s f.1 f.2 then 1 else 0)
    (fun s acc x f =>
      let s := fillCur s f.1 f.2
      if lineActs s f.1 f.2 then
        let id := takeFresh s
        let ln := promoteLine f.1 f.2
        let cores := (List.range 192).filter (fun k => bit s.coremap.toNat k && coversCore scope (coreOf s s.cur.uid) k)
        passLane { id.2 with promotes := tPut id.2.promotes id.1 ⟨s.cur.uid, x.lane, acc, scope, ln.1, ln.2, cores, []⟩ } os x.lane
      else passLane s os x.lane))

end Sys2Proof.Machine
end

