-- ==== Sys2Proof/Machine/Barrier.lean ====
section
/-! DEFINITION. Barriers (R147 to R151), the engine-fault record (R144), and the instructions that use them. -/

namespace Sys2Proof.Machine

/-! ### Names -/

/-- ORD.SCOPE code (R18). -/
def scopeCode : Scope → Nat
  | .core => 0 | .quad => 1 | .die => 2 | .pkg => 3 | .pod => 4

/-- BARID of a barrier name with ARR = 0 (R147). -/
def barId (b : BarId) : Nat := scopeCode b.scope * 2 ^ 13 + b.index.val

/-- Barriers of a scope that a launch's image asks for (R327). -/
def imgBars (l : Launch) (sc : Scope) : Nat := fld l.img (44 + scopeCode sc) 1

/-- The unit of a scope that a core lies in (R11). -/
def scopeUnit (sc : Scope) (core : Nat) : Nat :=
  match sc with
  | .quad => core / 4
  | .die => core / 48
  | _ => 0

/-- The barrier that a gang of a launch on a core names. -/
def barKeyAt (gang launch core : Nat) (b : BarId) : BarKey :=
  if b.scope = .core then ⟨.core, gang, 0, b.index.val⟩ else ⟨b.scope, launch, scopeUnit b.scope core, b.index.val⟩

/-- The barrier that a group names. -/
def barKey (s : State) (u : Nat) (b : BarId) : BarKey := barKeyAt (grp s u).gang (launchOf s u) (coreOf s u) b

/-- Number of a wider barrier within its launch. -/
def barNum (k : BarKey) : Nat := scopeCode k.scope * 2 ^ 20 + k.unit * 64 + k.index

/-- A wider barrier as it starts: EXPECT from the words of EXPPTR in the order quad, die, pkg, pod (R327, R329). -/
def barStart (l : Launch) (k : BarKey) : Bar :=
  let before : Nat := match k.scope with
    | .die => imgBars l .quad
    | .pkg => imgBars l .quad + imgBars l .die
    | .pod => imgBars l .quad + imgBars l .die + imgBars l .pkg
    | _ => 0
  { expect := nth 0 l.expects (before + k.index) }

/-- A barrier, where its gang or launch has it allotted (R147, R151). -/
def barGet (s : State) (k : BarKey) : Option Bar :=
  if k.scope = .core then (tGet? s.gangs k.holder).bind (fun g => g.bars[k.index]?)
  else match tGet? s.launches k.holder with
    | none => none
    | some l =>
      if l.state = .ended ∨ imgBars l k.scope ≤ k.index then none
      else some ((tGet? l.bars (barNum k)).getD (barStart l k))

def barPut (s : State) (k : BarKey) (b : Bar) : State :=
  if k.scope = .core then modGang s k.holder (fun g => { g with bars := setNth g.bars k.index b })
  else modLaunch s k.holder (fun l => { l with bars := tPut l.bars (barNum k) b })

/-! ### Arrivals (R148, R144) -/

/-- One arrival; with a fault, the phase that it counts in is marked. -/
def arriveOne (f : Option EngFault) (b : Bar) : Bar :=
  let fs := match f with
    | some x => b.faulted ++ [(b.phase + 1, x)]
    | none => b.faulted
  if b.arrived + 1 = b.expect then { b with phase := b.phase + 1, arrived := 0, faulted := fs }
  else { b with arrived := b.arrived + 1, faulted := fs }

/-- An arrival of count n. -/
def arriveN (f : Option EngFault) : Nat → Bar → Bar
  | 0, b => b
  | n + 1, b => arriveN f n (arriveOne f b)

/-- An engine's arrival, one step; discarded where the barrier is gone (R151). -/
def engineArrive (s : State) (k : BarKey) (n : Nat) (f : Option EngFault) : State :=
  match barGet s k with
  | some b => barPut s k (arriveN f n b)
  | none => s

/-! ### The engine-fault record (R144) -/

/-- Latch a fault of a completed command in its group's record. -/
def latchFault (s : State) (u : Nat) (f : EngFault) : State :=
  modGrp s u (fun g =>
    if g.engFault.isSome then { g with engLost := g.engLost ++ [f] }
    else { g with engFault := some f, lanes := g.lanes.map (fun ln => { ln with engTaken := false }) })

/-- The record clears once every thread that has not exited has taken the fault. -/
def clearFault (s : State) (u : Nat) : State :=
  modGrp s u (fun g =>
    let live := g.lanes.filter (fun ln => ln.st != .exited)
    if g.engFault.isSome && !live.isEmpty && live.all (fun ln => ln.engTaken) then { g with engFault := none } else g)

/-- The latched fault that a lane has still to take. -/
def faultDue (s : State) (u l : Nat) : Option EngFault :=
  if (lane s u l).engTaken then none else (grp s u).engFault

/-- A lane takes the latched fault at the instruction at pc. -/
def takeLatched (s : State) (u l : Nat) (f : EngFault) (pc : W64) : State :=
  clearFault (trapRegion (modLane s u l (fun ln => { ln with engTaken := true })) u l f.cause f.at_ pc) u

/-! ### Waits (R148, R144, R150) -/

/-- A phase count p releases a waiter with token k. -/
def released (p k : W32) : Bool := decide (0 < sext 32 (p - k).toNat)

/-- The earliest faulted phase that a release with token k passes and the lane has not taken. -/
def phaseFault (b : Bar) (key : BarKey) (k : W32) (ln : Lane) : Option (W32 × EngFault) :=
  (b.faulted.filter (fun f =>
    decide (0 < sext 32 (f.1 - k).toNat) && decide (0 ≤ sext 32 (b.phase - f.1).toNat) && !ln.phasesTaken.contains (key, f.1))).foldl
    (fun r f => match r with
      | none => some f
      | some g => if (f.1 - k).toNat < (g.1 - k).toNat then some f else some g) none

/-- A lane takes the fault of a phase (at the instruction at pc). -/
def takePhase (s : State) (u l : Nat) (key : BarKey) (f : W32 × EngFault) (pc : W64) : State :=
  let s := { s with groups := s.groups.map (fun g => (g.1, { g.2 with engLost := g.2.engLost.erase f.2 })) }
  let same := (grp s u).engFault = some f.2
  let s := modLane s u l (fun ln => { ln with phasesTaken := ln.phasesTaken ++ [(key, f.1)], engTaken := ln.engTaken || same })
  clearFault (trapRegion s u l f.2.cause f.2.at_ pc) u

/-- A lane leaves its wait: the barrier releases it, and the acquire of the release can be made, its earlier loads and acquires being
performed, or a faulted phase is delivered instead (R148, R223). -/
def barGo (s : State) (u l : Nat) (key : BarKey) (b : Bar) (k : W32) : Bool :=
  released b.phase k && (acqReady s u l || (phaseFault b key k (lane s u l)).isSome)

/-- A released lane: it takes a faulted phase, or goes on with n bytes passed and acquires at the scope (R223). -/
def barLeave (s : State) (u l : Nat) (key : BarKey) (b : Bar) (k : W32) (sync : Bool) (n : Nat) : State :=
  let ln := lane s u l
  match phaseFault b key k ln with
  | some f => takePhase s u l key f (posAddr ln.at_)
  | none =>
    noteAcquire (modLane s u l (fun ln =>
      { advance ln n with st := .run, syncp := if sync then false else ln.syncp })) u l .acqrel key.scope

/-! ### bar.arr, bar.wait, bar.sync, bar.init (R149, R150) -/

/-- The barrier of the current set's lane, or ACCESS with TXVAL = BARID; an arrival also needs EXPECT not 0 (R147, R148). -/
def barCheck (s : State) (b : BarId) (arrive : Bool) : Find Bar :=
  match barGet s (barKey s s.cur.uid b) with
  | none => .halt (.trap .access (BitVec.ofNat 64 (barId b)))
  | some x => if arrive && x.expect == 0 then .halt (.trap .access (BitVec.ofNat 64 (barId b))) else .go x

/-- The destination of a control register field. -/
def cregDst : Creg → Dst
  | .v n => .v n
  | .o n => .o n
  | _ => .none

/-- What the release of an arrival at a scope leaves (R221, R223). -/
def arriveNote (sc : Scope) (ln : Lane) : Lane := { ln with coreRelFence := ln.coreRelFence || sc == .core }

/-- BAR_ARR (R149). -/
def execBarArr (c : Creg) (b : BarId) (s : State) : Out :=
  .next (runAccess s [] (fun s _ => barCheck s b true) none (fun _ _ => 0) (fun s _ x _ =>
    let u := s.cur.uid
    let key := barKey s u b
    match barGet s key with
    | none => s
    | some bar =>
      let s := barPut s key (arriveN none 1 bar)
      let s := modLane s u x.lane (fun ln => arriveNote b.scope (putDst ln (cregDst c) 1 bar.phase.toNat))
      advanceCur (commitCur s x.lane) x.lane))

/-- A lane waits at a barrier with a token, or leaves at once. -/
def barStay (s : State) (l : Nat) (key : BarKey) (k : W32) (sync : Bool) : State :=
  let u := s.cur.uid
  match barGet s key with
  | some b =>
    if barGo s u l key b k then barLeave s u l key b k sync s.cur.len
    else modLane s u l (fun ln => { ln with st := .wait (.bar key b.phase.toNat k sync), ilen := s.cur.len })
  | none => s

/-- BAR_WAIT (R149, R144). -/
def execBarWait (c : Creg) (b : BarId) (s : State) : Out :=
  let os := srcs (.barWait c b)
  .next (runAccess s os (fun s _ => barCheck s b false) none (fun _ _ => 0) (fun s _ x _ =>
    match faultDue s s.cur.uid x.lane with
    | some f => takeLatched s s.cur.uid x.lane f s.cur.pc
    | none => barStay s x.lane (barKey s s.cur.uid b) (BitVec.ofNat 32 (x.x 0)) false))

/-- The arrival of a lane at `bar.sync` (R150): one step with the commit, REGPC staying at the `bar.sync`. -/
def syncArrive (s : State) (l : Nat) (key : BarKey) (bar : Bar) : State :=
  let u := s.cur.uid
  let s := barPut s key (arriveN none 1 bar)
  modLane (flushH s u l) u l (fun ln =>
    let hdr := match ln.at_ with
      | .word h _ _ _ => h
      | .enter h _ _ => h
    recordLane (modRec { arriveNote key.scope (passCommits ln) with syncp := true, synctok := bar.phase } (fun r => { r with regpc := s.cur.pc, reghdr := hdr })))

/-- BAR_SYNC (R149, R150, R144): lanes in rising order arrive, or wait again with the token they hold. -/
def execBarSync (b : BarId) (s : State) : Out :=
  .next (runAccess s [] (fun s x => barCheck s b !(lane s s.cur.uid x.lane).syncp) none (fun _ _ => 0) (fun s _ x _ =>
    let u := s.cur.uid
    let key := barKey s u b
    match faultDue s u x.lane with
    | some f => takeLatched s u x.lane f s.cur.pc
    | none =>
      match barGet s key with
      | none => s
      | some bar =>
        let s := if (lane s u x.lane).syncp then s else syncArrive s x.lane key bar
        barStay s x.lane key (lane s u x.lane).synctok true))

/-- BAR_INIT (R149): once per issue set, with the leader's value. -/
def execBarInit (c : Creg) (b : BarId) (s : State) : Out :=
  let os := srcs (.barInit c b)
  let u := s.cur.uid
  let lead := readLane s u s.cur.lanes os false (leader s)
  let h : Option Halt := match lead.halt with
    | some h => some h
    | none => match barCheck s b false with
      | .halt h => some h
      | .go _ => if lead.x 0 = 0 then some (.trap .access (BitVec.ofNat 64 (barId b))) else none
  match h with
  | some h => .next (haltLanes s (s.cur.lanes.map (fun l => (l, some h)))).1
  | none =>
    let key := barKey s u b
    match barGet s key with
    | none => .next s
    | some bar =>
      let s := barPut s key { bar with expect := BitVec.ofNat 32 (lead.x 0), arrived := 0 }
      .next (s.cur.lanes.foldl (fun s l => advanceCur (commitCur s l) l) s)

end Sys2Proof.Machine
end

