-- ==== Sys2Proof/Machine/Records.lean ====
section
/-! DEFINITION. Barrier names in the engines' records (R147), and which memory a command writes (R146). -/

namespace Sys2Proof.Machine

/-! ### BARIDs in records (R147) -/

/-- The scope of a code. -/
def scopeOf : Nat → Option Scope
  | 0 => some .core
  | 1 => some .quad
  | 2 => some .die
  | 3 => some .pkg
  | 4 => some .pod
  | _ => none

/-- Range of INDEX by scope. -/
def scopeBars : Scope → Nat
  | .core | .quad => 16
  | .die | .pkg => 32
  | .pod => 64

/-- The barrier name of a BARID with ARR 0; none for a reserved or out-of-range value. -/
def barOfId (x : Nat) : Option BarId :=
  match scopeOf (bits x 15 13) with
  | none => none
  | some sc =>
    if bits x 12 6 = 0 ∧ x % 64 < scopeBars sc then some ⟨sc, ⟨x % 64, Nat.mod_lt _ (by decide)⟩⟩ else none

/-- The barrier that a command's BARID names for its issuer, where it is allotted. -/
def cmdBar (s : State) (i : Issuer) (x : Nat) : Option BarKey :=
  match barOfId x with
  | none => none
  | some b =>
    let k := barKeyAt i.gang i.launch i.core b
    if (barGet s k).isSome then some k else none

/-! ### Which memory a command writes (R146) -/

/-- A command writes the memory of a `drain` path. -/
def cmdWrites (c : Cmd) (p : Path) : Bool :=
  match c.kind with
  | .copy d _ =>
    (match p with
     | .device => fdDst d == 0
     | .scratch => fdDst d == 1
     | .priv => fdDst d == 2
     | .acc => false)
  | .compute .. => p == .acc
  | .clear .. => p == .acc
  | .coll _ => c.cp && p == .device
  | _ => false

end Sys2Proof.Machine
end

