-- ==== Sys2Proof/Machine/CtlInstr.lean ====
section
/-! DEFINITION. Control instructions (R93, R96 to R101), `wait` and `drain` (R145, R146). -/

namespace Sys2Proof.Machine

/-! ### Transfers (R96 to R99) -/

/-- Static target of R96 in a lane. -/
def staticTarget (ln : Lane) (tgt : BitVec 20) : W64 :=
  match ln.at_ with
  | .word h _ _ _ => h + BitVec.ofInt 64 (8 * sext 20 tgt.toNat)
  | .enter h _ _ => h

/-- The return point of R27 in a lane. -/
def returnPoint (ln : Lane) : W64 :=
  match ln.at_ with
  | .word h len _ _ => h + BitVec.ofNat 64 (8 * len)
  | .enter h _ _ => h

/-- A lane goes to a block; the entry is made at the end of the step (R28). -/
def goTo (s : State) (l : Nat) (t : W64) (k : Entry) : State :=
  modLane s s.cur.uid l (fun ln => { ln with at_ := .enter t k s.cur.pc })

/-- A lane goes to a block with a link, written where the entry passes R28 (R98). -/
def goLink (s : State) (l : Nat) (t : W64) (k : Entry) (link : Dst) : State :=
  let u := s.cur.uid
  let c := ctxOf s u
  let ln := lane s u l
  match enterBlock s (vmidOf s c) (asidOf s c) ln.mode t k s.cur.pc with
  | .ok _ => goTo (modLane s u l (fun ln => putDst ln link 2 (returnPoint ln).toNat)) l t k
  | _ => goTo s l t k

/-- Run an instruction that counts on nothing and does `act` in each lane that reads its operands. -/
def runPlain (s : State) (os : List (Opnd × OTy)) (act : State → LaneIn → State) : State :=
  runAccess s os (fun _ _ => .go ()) none (fun _ _ => 0) (fun s _ x _ => act s x)

/-- BRA (R97). -/
def execBra (tgt : BitVec 20) (s : State) : Out :=
  .next (runPlain s [] (fun s x => goTo s x.lane (staticTarget (curLane s x.lane) tgt) .branch))

/-- The CK test of R79. -/
def ckHolds (ck : Ck) (x : Nat) : Bool :=
  match ck with
  | .nz => x != 0
  | .z => x == 0
  | .neg => bit x 31

/-- BRC (R97). -/
def execBrc (ck : Ck) (c : Creg) (tgt : BitVec 20) (s : State) : Out :=
  .next (runPlain s (srcs (.brc ck c tgt)) (fun s x =>
    if ckHolds ck (x.x 0) then goTo s x.lane (staticTarget (curLane s x.lane) tgt) .branch else advanceCur s x.lane))

/-- CALL (R98). -/
def execCall (tgt : BitVec 20) (link : Dst) (s : State) : Out :=
  .next (runPlain s [] (fun s x => goLink s x.lane (staticTarget (curLane s x.lane) tgt) .call link))

/-- RET (R98). -/
def execRet (c : Creg) (s : State) : Out :=
  .next (runPlain s (srcs (.ret c)) (fun s x => goTo s x.lane (BitVec.ofNat 64 (x.x 0)) .ret))

/-- JMPI (R98). -/
def execJmpi (c : Creg) (link : Dst) (s : State) : Out :=
  .next (runPlain s (srcs (.jmpi c link)) (fun s x => goLink s x.lane (BitVec.ofNat 64 (x.x 0)) .indirect link))

/-- BRX (R99). -/
def execBrx (c : Creg) (tgt : BitVec 20) (stride count : BitVec 8) (s : State) : Out :=
  .next (runPlain s (srcs (.brx c tgt stride count)) (fun s x =>
    if x.x 0 < count.toNat then
      goTo s x.lane (staticTarget (curLane s x.lane) tgt + BitVec.ofNat 64 (8 * stride.toNat * x.x 0)) .indirect
    else advanceCur s x.lane))

/-! ### exit, yield, sleep (R100, R101) -/

/-- EXIT (R100): PRIV with TXVAL 0 outside U mode. -/
def execExit (s : State) : Out :=
  .next (clearFault (runPlain s [] (fun s x =>
    if (curLane s x.lane).mode = .u then modLane s s.cur.uid x.lane exitLane
    else trapRegion s s.cur.uid x.lane .priv 0 s.cur.pc)) s.cur.uid)

/-- YIELD (R101). -/
def execYield (s : State) : Out :=
  .next (modGrp (runPlain s [] (fun s x => advanceCur s x.lane)) s.cur.uid (fun g => { g with yielded := true }))

/-- SLEEP (R101): a duration of 0 is a `yield`. -/
def execSleep (n : SleepArg) (s : State) : Out :=
  let dur (x : LaneIn) : Nat := match n with
    | .ticks k => k.val
    | .reg _ => x.x 0
  .next (runPlain s (srcs (.sleep n)) (fun s x =>
    if dur x = 0 then modGrp (advanceCur s x.lane) s.cur.uid (fun g => { g with yielded := true })
    else modLane s s.cur.uid x.lane (fun ln => { ln with st := .wait (.sleep (s.gtick.toNat + dur x)), ilen := s.cur.len })))

/-! ### wait and drain (R145, R146) -/

/-- The thresholds of a `wait` hold; 15 does not wait. -/
def countsMet (g : Group) (ld st cp tl : Nat) : Bool :=
  let ok (n t : Nat) : Bool := t == 15 || decide (n ≤ t)
  ok g.ld ld && ok g.st st && ok g.cp cp && ok g.tl tl

/-- WAIT (R145, R144). -/
def execWait (ld st cp tl : Fin 16) (s : State) : Out :=
  .next (runPlain s [] (fun s x =>
    match faultDue s s.cur.uid x.lane with
    | some f => takeLatched s s.cur.uid x.lane f s.cur.pc
    | none =>
      if countsMet (grp s s.cur.uid) ld.val st.val cp.val tl.val then advanceCur s x.lane
      else modLane s s.cur.uid x.lane (fun ln => { ln with st := .wait (.count ld.val st.val cp.val tl.val), ilen := s.cur.len })))

/-- Commands that a `drain` waits for: of this core, issued or appended in an earlier cycle, not complete (R146). -/
def drainCmds (s : State) (p : Path) : List Nat :=
  (s.cmds.filter (fun c => c.2.by_.core == coreOf s s.cur.uid && decide (c.2.cycle < s.cycle) && cmdWrites c.2 p)).map (fun c => c.1)

/-- DRAIN (R146, R144). -/
def execDrain (p : Path) (s : State) : Out :=
  .next (runPlain s [] (fun s x =>
    match faultDue s s.cur.uid x.lane with
    | some f => takeLatched s s.cur.uid x.lane f s.cur.pc
    | none =>
      match drainCmds s p with
      | [] => advanceCur s x.lane
      | cs => modLane s s.cur.uid x.lane (fun ln => { ln with st := .wait (.drain cs), ilen := s.cur.len })))

end Sys2Proof.Machine
end

