-- ==== Sys2Proof/Machine/Ports.lean ====
section
/-! DEFINITION. Debug ports and trace rings (R356 to R366). -/

namespace Sys2Proof.Machine

def portAt (s : State) (c k : Nat) : Port := nth {} (ctxAt s c).ports k
def modPort (s : State) (c k : Nat) (f : Port → Port) : State := modCtx s c (fun x => { x with ports := modNth x.ports k f })

/-- A trace record (R365). -/
def traceRecord (tick : W64) (kind slot core mask tag value : Nat) : List Byte :=
  leBytes 8 tick.toNat ++ leBytes 1 kind ++ leBytes 1 slot ++ leBytes 2 core ++ leBytes 4 mask ++ leBytes 2 tag ++
  leBytes 6 0 ++ leBytes 8 value

/-- Entries free in a port's ring. -/
def ringRoom (p : Port) : Nat := p.trsize.toNat - (p.trtail - p.trhead).toNat

/-- Write one record at TRTAIL and advance it (R364): the ring lies in host memory. -/
def putRecord (s : State) (c k : Nat) (r : List Byte) : State :=
  let p := portAt s c k
  let s := wrBytes s (mkey 4 (p.trbase.toNat + 32 * (p.trtail.toNat % max 1 p.trsize.toNat))) r
  modPort s c k (fun p => { p with trtail := p.trtail + 1 })

/-- A record of an open session (R364): a LOST record goes before it where records were dropped; without room it is dropped. -/
def sendRecord (s : State) (c k : Nat) (r : List Byte) : State :=
  if (portAt s c k).session then
    let s :=
      if 0 < (portAt s c k).lost ∧ 0 < ringRoom (portAt s c k) then
        modPort (putRecord s c k (traceRecord s.gtick 3 0 0xFFFF 0 0 (portAt s c k).lost)) c k (fun p => { p with lost := 0 })
      else s
    if 0 < ringRoom (portAt s c k) then putRecord s c k r
    else modPort s c k (fun p => { p with trdrop := p.trdrop + 1, lost := p.lost + 1 })
  else s

/-- End the session of a port with a last record (R364, R366). -/
def endSession (s : State) (c k : Nat) (r : List Byte) : State :=
  if (portAt s c k).session then modPort (sendRecord s c k r) c k (fun p => { p with session := false, lost := 0 }) else s

/-- End every session of a context with a TRUNCATED record of a cause (R366). -/
def truncateAll (s : State) (c cause : Nat) : State :=
  (List.range 4).foldl (fun s k => endSession s c k (traceRecord s.gtick 5 0 0xFFFF 0 cause 0)) s

/-- Bits of DRIGHTS and PRIGHTS (R356). -/
def hasRight (p : Port) (b : Nat) : Bool := bit p.prights.toNat b

/-- Ports of a context that claim BREAK (R362). -/
def breakPorts (s : State) (c : Nat) : List Nat := (List.range 4).filter (fun k => bit (portAt s c k).dctl.toNat 0)

end Sys2Proof.Machine
end

