-- ==== Sys2Proof/Machine/SysInstr.lean ====
section
/-! DEFINITION. The system instructions (R159 to R174). -/

namespace Sys2Proof.Machine

/-! ### Runners -/

/-- Every lane of the set takes PRIV with a TXVAL (R159). -/
def privAll (s : State) (txval : Nat) : State := (haltLanes s (s.cur.lanes.map (fun l => (l, some (.trap .priv (BitVec.ofNat 64 txval)))))).1

/-- The lanes of the current set are in a mode below a lowest mode (R159, R161). -/
def below (s : State) (m : Nat) : Bool := decide (modeCode (curLane s (leader s)).mode < m)

/-- Per-lane issue: the mode check, then the lanes in rising order (R159). -/
def runLanes {α : Type} (s : State) (m imm : Nat) (os : List (Opnd × OTy)) (find : State → LaneIn → Find α)
    (act : State → LaneIn → α → State) : State :=
  if below s m then privAll s imm else runAccess s os find none (fun _ _ => 0) (fun s _ x f => act s x f)

/-- Leader issue: the mode check, then the leader's operands and checks for every lane of S (R159, R160). -/
def runLeader {α : Type} (s : State) (m imm : Nat) (os : List (Opnd × OTy)) (find : State → LaneIn → Find α)
    (act : State → LaneIn → α → State) : State :=
  if below s m then privAll s imm
  else
    let x := readLane s s.cur.uid s.cur.lanes os false (leader s)
    let f : Find α := match x.halt with
      | some h => .halt h
      | none => find s x
    match f with
    | .halt h => (haltLanes s (s.cur.lanes.map (fun l => (l, some h)))).1
    | .go y => act s x y

/-- Every lane of S passes the instruction. -/
def passAll (s : State) : State := modCur s s.cur.lanes (fun _ ln => advance ln s.cur.len)

/-- Every lane of S commits and passes the instruction (R125). -/
def commitAll (s : State) : State := s.cur.lanes.foldl (fun s l => advanceCur (commitCur s l) l) s

/-- A result of cnt words goes to every lane of S. -/
def putAll (s : State) (d : Dst) (cnt x : Nat) : State := modCur s s.cur.lanes (fun _ ln => putDst ln d cnt x)

/-! ### syscall, hcall, brk, tret (R162, R163, R297) -/

/-- A trap on request: the commit step of R125 and the trap entry, restarting at the following word (R162). -/
def requestTrap (s : State) (l : Nat) (c : Cause) (n : BitVec 16) : State :=
  let s := commitCur s l
  let w := nextWord (curLane s l).at_ s.cur.len
  trapLane s s.cur.uid l ⟨c, BitVec.ofNat 64 n.toNat, s.cur.pc, w.1, w.2⟩

/-- SYSCALL (R162): PRIV in H. -/
def execSyscall (n : BitVec 16) (s : State) : Out :=
  .next (runLanes s 0 0 [] (fun s x =>
    if (curLane s x.lane).mode = .h then .halt (.trap .priv (BitVec.ofNat 64 n.toNat)) else .go ())
    (fun s x _ => requestTrap s x.lane .syscall n))

/-- HCALL (R162). -/
def execHcall (n : BitVec 16) (s : State) : Out :=
  .next (runLanes s 1 n.toNat [] (fun _ _ => .go ()) (fun s x _ => requestTrap s x.lane .hcall n))

/-- BRK (R162, R362): claimed, it stops the group, with TXPC the instruction and TXVAL its immediate, and the lane goes on at its restart
point after RESUME. -/
def execBrk (n : BitVec 16) (s : State) : Out :=
  .next (runLanes s 0 0 [] (fun _ _ => .go ()) (fun s x _ =>
    match breakPorts s (ctxOf s s.cur.uid) with
    | [] => requestTrap s x.lane .brk n
    | ps => modGrp (modLane (advanceCur (commitCur s x.lane) x.lane) s.cur.uid x.lane (fun ln =>
        { ln with broke := some (s.cur.pc, n.setWidth 64) })) s.cur.uid (fun g => { g with halted := (g.halted ++ ps).eraseDups })))

/-- How a lane returns (R163): it retires, goes to a redirected target, or to its frame's restart point. -/
inductive Return where
  | retire | redirect (t : W64) | restart (pc hdr : W64)
  deriving DecidableEq, Repr

/-- The checks of `tret` for a lane (R163, R297). -/
def findTret (s : State) (l : Nat) : Find Return :=
  let u := s.cur.uid
  let ln := lane s u l
  let p := (gangOf s u).privsz
  if ln.retire then .go .retire
  else if ln.depth = 0 then .halt (.trap .illegal 0)
  else if poisoned ln.privPois (frameAt p ln.depth) 64 then .halt (.poisonOwn (.priv u l (frameAt p ln.depth)) 64 (BitVec.ofNat 64 (frameAt p ln.depth)))
  else
    let m := modeOf (bits (frameField p ln 21 1) 1 0)
    if modeCode ln.mode < modeCode m then .halt (.trap .priv 0)
    else if bit (frameField p ln 22 1) 0 then
      let t := BitVec.ofNat 64 (frameField p ln 8 8)
      let c := ctxOf s u
      match enterBlock s (vmidOf s c) (asidOf s c) m t .indirect s.cur.pc with
      | .ok _ => .go (.redirect t)
      | .trap c x _ => .halt (.trap c x)
      | .poison _ k => .halt (.poison k t)
      | .fault a st lv => .halt (.page a st lv t .fetch)
    else .go (.restart (BitVec.ofNat 64 (frameField p ln 0 8)) (BitVec.ofNat 64 (frameField p ln 48 8)))

/-- TRET (R163, R297, R299): the frame is popped, and the restored level's record gives what a restart restores. -/
def execTret (s : State) : Out :=
  .next (clearFault (runLanes s 1 0 [] (fun s x => findTret s x.lane) (fun s x r =>
    let u := s.cur.uid
    let p := (gangOf s u).privsz
    let s := flushH s u x.lane
    let s := if (lane s u x.lane).retire then s else meetArr s (.priv u x.lane (frameAt p (lane s u x.lane).depth)) 64
    match r with
    | .retire => modLane s u x.lane (fun ln => exitLane { ln with depth := 0, mode := .u, retire := false })
    | .redirect t => modLane s u x.lane (fun ln => { popFrame p ln with at_ := .enter t .indirect s.cur.pc })
    | .restart pc hdr =>
      let c := ctxOf s u
      modLane s u x.lane (fun ln =>
        let ln := restoreRec (popFrame p ln)
        { ln with at_ := restartPos s (vmidOf s c) (asidOf s c) ln.mode pc hdr }))) s.cur.uid)

/-! ### sread and swrite (R166, R167) -/

/-- MINMODE of a number (R161). -/
def minMode (n : Nat) : Nat := bits n 11 10

/-- Elements of a special register (R167). -/
def sregCount : Sreg → Nat
  | .accept => 4 | .sgfault => 2 | .svscr => 16 | .coremap => 6 | _ => 1

/-- Element i of a special register, as the group sees it (R167). -/
def sregRead (s : State) (u : Nat) (r : Sreg) (i : Nat) : Nat :=
  let l := launchAt s (launchOf s u)
  match r with
  | .launchid => l.launchid.toNat
  | .cblen => (grp s u).cblen
  | .galtime => imgGaltime l
  | .kclass => classCode (imgKclass l)
  | .accept => (nth 0 s.accept i).toNat
  | .coreclk => s.coreclk.toNat
  | .privsz => (gangOf s u).privsz
  | .sgfault =>
    let f := (tGet? (dieAt s (dieOf (coreOf s u))).sgfault (ctxOf s u)).getD (0, 0)
    if i = 0 then f.1.toNat else f.2.toNat
  | .svscr => (nth 0 (coreAt s (coreOf s u)).svscr i).toNat
  | .asid => asidOf s (ctxOf s u)
  | .coremap => bits s.coremap.toNat (32 * i + 31) (32 * i)
  | .vmid => vmidOf s (ctxOf s u)

/-- SREAD (R166). -/
def execSread (d : Dst) (sr : Sreg) (a : Src) (s : State) : Out :=
  .next (runLeader s (minMode (sregC sr)) (sregC sr) (srcs (.sread d sr a))
    (fun _ x => if sregCount sr ≤ x.x 0 then .halt (.trap .access (BitVec.ofNat 64 (x.x 0))) else .go ())
    (fun s x _ => passAll (putAll s d (if sregWide sr then 2 else 1) (sregRead s s.cur.uid sr (x.x 0)))))

/-- SWRITE (R166): SVSCR is the one that takes writes (R167). -/
def execSwrite (sr : Sreg) (a b : Src) (s : State) : Out :=
  .next (runLeader s (minMode (sregC sr)) (sregC sr) (srcs (.swrite sr a b))
    (fun _ x => if sregCount sr ≤ x.x 1 then .halt (.trap .access (BitVec.ofNat 64 (x.x 1))) else .go ())
    (fun s x _ =>
      passAll (if sr = .svscr then
        modCore s (coreOf s s.cur.uid) (fun c => { c with svscr := setNth c.svscr (x.x 1) (BitVec.ofNat 32 (x.x 0)) })
      else s)))

/-! ### csrr and csrw (R164, R165, R291) -/

/-- A CSR as a lane reads it (R291); TXPC and TXVAL are those of a claimed BREAK in a lane that one stopped (R162). -/
def csrRead (p : Nat) (ln : Lane) (n : Csr) : Nat :=
  match n with
  | .fmode => ln.fmode.toNat
  | .srseed => ln.srseed.toNat
  | .srcnt => ln.srcnt.toNat
  | .regpc => (curRec ln).regpc.toNat
  | .regcnt => (curRec ln).regcnt.toNat
  | .mstat => modeCode ln.mode + 4 * ln.depth + 32 * b2n ln.syncp + 64 * classCode ln.rclass + 256 * b2n ln.retire
  | .txpc => match ln.broke with
    | some b => b.1.toNat
    | none => frameField p ln 8 8
  | .tscratch => ln.tscratch.toNat
  | .tvec => ln.tvec.toNat
  | .tcause => frameField p ln 20 1
  | .txval => match ln.broke with
    | some b => b.2.toNat
    | none => frameField p ln 40 8
  | .hvec => ln.hvec.toNat

/-- Write a CSR of a lane (R165, R291): `id` and `id + 1` number the private stores of a TXPC write. -/
def csrWrite (p u l id : Nat) (ln : Lane) (n : Csr) (x : Nat) : Lane :=
  match n with
  | .fmode => { ln with fmode := BitVec.ofNat 32 (fmodeWrite ln.fmode.toNat x) }
  | .srseed => { ln with srseed := BitVec.ofNat 64 x }
  | .srcnt => { ln with srcnt := BitVec.ofNat 64 x }
  | .mstat => { ln with retire := bit x 8 }
  | .txpc =>
    let ln := { ln with broke := ln.broke.map (fun b => (BitVec.ofNat 64 x, b.2)) }
    if ln.depth = 0 then ln
    else
      let f := frameAt p ln.depth
      let ln := privStore ln u l id (f + 8) (leBytes 8 x)
      privStore ln u l (id + 1) (f + 22) (leBytes 1 (setBits (frameField p ln 22 1) 0 0 1))
  | .tscratch => { ln with tscratch := BitVec.ofNat 64 x }
  | .tvec => { ln with tvec := BitVec.ofNat 64 x }
  | .hvec => { ln with hvec := BitVec.ofNat 64 x }
  | .regpc | .regcnt | .tcause | .txval => ln

/-- Words of a CSR. -/
def csrWords (n : Csr) : Nat := if csrWide n then 2 else 1

/-- CSRR (R164). -/
def execCsrr (d : Dst) (n : Csr) (s : State) : Out :=
  .next (runLanes s (minMode (csrC n)) (csrC n) [] (fun _ _ => .go ()) (fun s x _ =>
    advanceCur (modLane s s.cur.uid x.lane (fun ln => putDst ln d (csrWords n) (csrRead (gangOf s s.cur.uid).privsz ln n))) x.lane))

/-- The new value of a `csrw` (R165). -/
def csrNew (op : CsrOp) (n : Csr) (old a : Nat) : Nat :=
  match op with
  | .write => a
  | .set => old ||| a
  | .clr => old &&& ((2 ^ (32 * csrWords n) - 1) ^^^ a)

/-- CSRW (R165). -/
def execCsrw (op : CsrOp) (d : Dst) (n : Csr) (a : Src) (s : State) : Out :=
  .next (runLanes s (minMode (csrC n)) (csrC n) (srcs (.csrw op d n a)) (fun _ _ => .go ()) (fun s x _ =>
    let u := s.cur.uid
    let p := (gangOf s u).privsz
    let id := s.fresh
    let s := { s with fresh := s.fresh + 2 }
    let s := modLane s u x.lane (fun ln =>
      let old := csrRead p ln n
      putDst (csrWrite p u x.lane id ln n (csrNew op n old (x.x 0))) d (csrWords n) old)
    advanceCur (commitCur s x.lane) x.lane))

/-! ### halt, tick, trace (R172, R168, R169) -/

/-- HALT (R172): the launch starts no further gang, its groups stop, and it ends HALTED with the first code. -/
def execHalt (n : BitVec 16) (s : State) : Out :=
  let k := launchOf s s.cur.uid
  let s := commitAll s
  let gs := (s.gangs.filter (fun g => g.2.launch == k)).map (fun g => g.1)
  let s := { s with
    groups := s.groups.map (fun g => if gs.contains g.2.gang then (g.1, { g.2 with stopped := true }) else g)
    tasks := s.tasks.filter (fun t => t.2.launch != k)
    cores := s.cores.map (fun c => (c.1, { c.2 with
      galleys := c.2.galleys.filter (fun g => g.2.launch != k), galKept := c.2.galKept.filter (fun g => g.2.launch != k) })) }
  .next (modLaunch s k (fun l =>
    if l.halted then l
    else { l with halted := true, statuses := l.statuses ++ [.halted], code := BitVec.ofNat 32 n.toNat }))

/-- TICK (R168). -/
def execTick (d : Dst) (s : State) : Out := .next (passAll (putAll s d 2 s.gtick.toNat))

/-- TRACE (R169, R364): a record into each session of the context that holds TRACE. -/
def execTrace (t : BitVec 16) (a : Src) (s : State) : Out :=
  .next (runLeader s 0 0 (srcs (.trace t a)) (fun _ _ => .go ()) (fun s x _ =>
    let u := s.cur.uid
    let c := ctxOf s u
    let r := traceRecord s.gtick 1 ((slotOf (grp s u)).getD 0) (coreOf s u) (lanesMask s.cur.lanes) t.toNat (x.x 0)
    passAll ((List.range 4).foldl (fun s k => if hasRight (portAt s c k) 3 then sendRecord s c k r else s) s)))

/-! ### icinv and lmap (R170, R171) -/

/-- ICINV (R170): the lanes wait until ICINV_COMPLETE. -/
def execIcinv (a b : Src) (s : State) : Out :=
  .next (runLeader s 0 0 (srcs (.icinv a b))
    (fun _ x => if 2 ^ 30 < x.x 1 then .halt (.trap .access (BitVec.ofNat 64 (x.x 1))) else .go ())
    (fun s x _ =>
      if x.x 1 = 0 then passAll s
      else
        let id := takeFresh s
        let s := { id.2 with icinvs := tPut id.2.icinvs id.1 ⟨ctxOf s s.cur.uid, s.cur.uid, s.cur.lanes, BitVec.ofNat 64 (x.x 0), x.x 1⟩ }
        modCur s s.cur.lanes (fun _ ln => { ln with st := .wait (.icinv id.1), ilen := s.cur.len })))

/-- The checks of `lmap` (R171): alignment, count and page of 4 KiB, then the page, which is to be a code page, and one that its mode may fetch
from (assumption 47). -/
def findLmap (s : State) (a n : Nat) : Find (W64 × Reach) :=
  let va := BitVec.ofNat 64 a
  let c := ctxOf s s.cur.uid
  if a % 8 ≠ 0 then .halt (.trap .align va)
  else if n = 0 ∨ 512 < n ∨ 4096 < a % 4096 + 8 * n then .halt (.trap .access va)
  else match reach s (vmidOf s c) (asidOf s c) va .fetch (curLane s (leader s)).mode with
    | .page p o pa => if p.kind = .code then .go (va, .page p o pa) else .halt (.trap .access va)
    | .peer k => .go (va, .peer k)
    | .access => .halt (.trap .access va)
    | .poison => .halt (.poison [noKey] va)
    | .fault ab st lv => .halt (.page ab st lv va .fetch)

/-- Owner and map places (address, bit) of n slots from a slot address (R30). -/
def mapBits (r : Reach) (va : W64) (n : Nat) : Nat × List (Nat × Nat) :=
  match r with
  | .page p o _ =>
    (match landingKey p o va with
     | some _ => (o, (List.range n).map (fun i =>
        ((landingKey p o (va + BitVec.ofNat 64 (8 * i))).getD 0 % 2 ^ 52, (va.toNat / 8 + i) % 8)))
     | none => (o, []))
  | _ => (0, [])

/-- Run `lmap`: it counts on ST until LMAP_COMPLETE (R171). -/
def runLmap (s : State) (i : Instr) (val : Bool) : State :=
  runLeader s 1 (if val then 1 else 0) (srcs i) (fun s x => findLmap s (x.x 0) (x.x 1)) (fun s x f =>
    let id := takeFresh (fillCur s f.1 f.2)
    let m := mapBits f.2 f.1 (x.x 1)
    let s := beginAcc { id.2 with lmaps := tPut id.2.lmaps id.1 ⟨s.cur.uid, s.cur.lanes, id.1, m.1, m.2, val⟩ } s.cur.uid id.1 .st 1
    modCur s s.cur.lanes (fun _ ln => { ln with st := .wait (.lmap id.1), ilen := s.cur.len }))

/-- LMAP_SET (R171). -/
def execLmapSet (a b : Src) (s : State) : Out := .next (runLmap s (.lmapSet a b) true)
/-- LMAP_CLR (R171). -/
def execLmapClr (a b : Src) (s : State) : Out := .next (runLmap s (.lmapClr a b) false)

/-! ### ebud and rclass (R173, R174) -/

/-- The remaining budget of the issuing launch as a pair (R173). -/
def budgetWord (s : State) : Nat :=
  let l := launchAt s (launchOf s s.cur.uid)
  l.corrBudget.toNat + 2 ^ 32 * l.detBudget.toNat

/-- EBUD_GET (R173). -/
def execEbudGet (d : Dst) (s : State) : Out := .next (passAll (putAll s d 2 (budgetWord s)))

/-- EBUD_SET (R173). -/
def execEbudSet (d : Dst) (a b : Src) (s : State) : Out :=
  .next (runLeader s 1 1 (srcs (.ebudSet d a b)) (fun _ _ => .go ()) (fun s x _ =>
    let old := budgetWord s
    let s := modLaunch s (launchOf s s.cur.uid) (fun l => { l with corrBudget := BitVec.ofNat 32 (x.x 0), detBudget := BitVec.ofNat 32 (x.x 1) })
    commitAll (putAll s d 2 old)))

/-- RCLASS_SET (R174): a U lane may not rise above KCLASS. -/
def execRclassSet (c : RClass) (d : Dst) (s : State) : Out :=
  .next (runLanes s 0 0 [] (fun s x =>
    let ln := curLane s x.lane
    if ln.mode = .u ∧ classRank ln.rclass < classRank c ∧ classRank (imgKclass (launchAt s (launchOf s s.cur.uid))) < classRank c then
      .halt (.trap .priv (BitVec.ofNat 64 (rclassC c)))
    else .go ())
    (fun s x _ =>
      let s := modLane s s.cur.uid x.lane (fun ln => { putDst ln d 1 (classCode ln.rclass) with rclass := c })
      advanceCur (commitCur s x.lane) x.lane))

/-- RCLASS_GET (R174). -/
def execRclassGet (d : Dst) (s : State) : Out :=
  .next (runLanes s 0 0 [] (fun _ _ => .go ()) (fun s x _ =>
    let s := modLane s s.cur.uid x.lane (fun ln => putDst ln d 1 (classCode ln.rclass))
    advanceCur (commitCur s x.lane) x.lane))

end Sys2Proof.Machine
end

