-- ==== Sys2Proof/Machine/EngInstr.lean ====
section
/-! DEFINITION. The engine group: Feeder, Press, stride-gather, collective, tape, task and slug commands
(R141 to R144, R152 to R158, R277 to R280). -/

namespace Sys2Proof.Machine

/-! ### Issue -/

/-- Issue an engine-group instruction (R141, R142): the leader's operands and checks decide for every lane of S; what is
issued commits every lane. -/
def runEngine {α : Type} (s : State) (os : List (Opnd × OTy)) (find : State → LaneIn → Find α) (act : State → LaneIn → α → State) : State :=
  runLeader s 0 0 os find (fun s x f => commitAll (act s x f))

/-- Who issues (R141). -/
def issuer (s : State) : Issuer :=
  let u := s.cur.uid
  let c := ctxOf s u
  { uid := u, gang := (grp s u).gang, core := coreOf s u, launch := launchOf s u, vmid := vmidOf s c, asid := asidOf s c,
    mode := (curLane s (leader s)).mode, lane := leader s, slot := (slotOf (grp s u)).getD 0 }

/-- ACCESS with a number as TXVAL. -/
def accessAt {α : Type} (x : Nat) : Find α := .halt (.trap .access (BitVec.ofNat 64 x))

/-- What a record's load, which is one of every lane of S, finds in entries of the core, a buffer or a remote view (R217 rules 1 to 3, R219);
none where it is read at the owner, which is done at issue, the set being held until what its die has sent there is performed (R141, R222). -/
def recordNear (s : State) (peer : Option Nat) (owner pa : Nat) (va : W64) (n : Nat) : Option (List Byte) :=
  let at_ (l : Nat) : LoadAt := loadAt s s.cur.uid l .plain .core peer owner pa va n
  if peer.isNone && ownMem s s.cur.uid (leader s) .plain .core owner pa va n then none
  else if s.cur.lanes.any (fun l => at_ l == .send) then none
  else match at_ (leader s) with
    | .now bs => some bs
    | _ => none

/-- Reach of a record's run of bytes, and its KIND (R142 step 2). -/
def devReach (s : State) (va : W64) : Find Reach :=
  let c := ctxOf s s.cur.uid
  match reach s (vmidOf s c) (asidOf s c) va .read (curLane s (leader s)).mode with
  | .page a o pa => if a.kind != .ordinary then .halt (.trap .access va) else .go (.page a o pa)
  | .peer p => if peerPage s c va then .go (.peer p) else .halt (.trap .access va)
  | .access => .halt (.trap .access va)
  | .poison => .halt (.poison [noKey] va)
  | .fault ab st lv => .halt (.page ab st lv va .read)

/-- A run of n bytes of a record in device memory, on an ordinary page (R142). -/
def devBytes (s : State) (va : W64) (n : Nat) : Find (List Byte) :=
  match devReach s va with
  | .halt h => .halt h
  | .go (.page a o pa) =>
    (match recordNear s none o pa va n with
     | some bs => .go bs
     | none => if dataBad s a.rclass o pa n then .halt (.poison (badAt s (mkey o pa) n) va) else .go (dataBytes s a.rclass o pa n))
  | .go (.peer p) =>
    .go ((recordNear s (some p) (ptrOwner va) (ptrOfs va) va n).getD (openBytes s va.toNat n))
  | .go _ => .go (openBytes s va.toNat n)

/-- A check of R142 step 2 comes before a detected error of step 4. -/
def poisonLast {α β : Type} (x : Find α) (y : Find β) : Find α :=
  match x, y with
  | .halt (.poison k va), .halt (.poison ..) => .halt (.poison k va)
  | .halt (.poison ..), .halt h => .halt h
  | x, _ => x

/-- The 64-byte record in device memory that a pointer names (R142). -/
def devRecord (s : State) (a : Nat) : Find (List Byte) :=
  if a % 64 ≠ 0 then .halt (.trap .align (BitVec.ofNat 64 a)) else devBytes s (BitVec.ofNat 64 a) 64

/-- The 64-byte record at a scratch address, as the threads of S read it (R142, R205, R207). -/
def spRecord (s : State) (a : Nat) : Find (List Byte) :=
  let g := gangOf s s.cur.uid
  if a % 64 ≠ 0 then .halt (.trap .align (BitVec.ofNat 64 a))
  else if !tileOk g a then accessAt a
  else if poisoned g.scratchPois a 64 then .halt (.poisonOwn (.scratch (grp s s.cur.uid).gang a) 64 (BitVec.ofNat 64 a))
  else .go ((List.range 64).map (fun i => arrayByte s s.cur.uid (a + i) i))

/-- The errors that the read of a record's bytes at the owner, or in scratch, meets are counted (R338). -/
def devMet (s : State) (a n : Nat) : State :=
  let va := BitVec.ofNat 64 a
  match devReach s va with
  | .go (.page p o pa) => if (recordNear s none o pa va n).isSome then s else dataMet s (launchOf s s.cur.uid) p.rclass o pa n
  | _ => s

def recMet (s : State) (spad : Bool) (a : Nat) : State :=
  if spad then meetArr s (.scratch (grp s s.cur.uid).gang a) 64 else devMet s a 64

/-- Put a command into a queue of the issuing core (0 to 3 Feeder, 4 compute, 5 bank) and raise its counters (R143). -/
def pushCmd (s : State) (c : Cmd) (q : Nat) : State :=
  let id := takeFresh s
  let s := { id.2 with cmds := tPut id.2.cmds id.1 c }
  let s := modCore s c.by_.core (fun k => { k with queues := modNth k.queues q (fun l => l ++ [id.1]) })
  modGrp s c.by_.uid (fun g => { g with cp := g.cp + b2n c.cp, tl := g.tl + b2n c.tl })

/-! ### Feeder and Press (R152 to R154) -/

/-- The descriptor of a copy, and the follow-on record that it names (R142). -/
def findFcopy (spad : Bool) (s : State) (x : LaneIn) : Find (List Byte × List Byte) :=
  match (if spad then spRecord s (x.x 0) else devRecord s (x.x 0)) with
  | .halt h => .halt h
  | .go d =>
    if fdFollow d then
      (match spRecord s (fdFollowAt d) with
       | .halt h => .halt h
       | .go r => .go (d, r))
    else .go (d, [])

/-- FCOPY (R152, R142). -/
def execFcopy (q : Fin 4) (spad : Bool) (a : Src) (s : State) : Out :=
  .next (runEngine s (srcs (.fcopy q spad a)) (findFcopy spad) (fun s x f =>
    let s := recMet s spad (x.x 0)
    let s := if fdFollow f.1 then recMet s true (fdFollowAt f.1) else s
    pushCmd s { kind := .copy f.1 f.2, by_ := issuer s, srcAt := BitVec.ofNat 64 (x.x 0), cp := true, tl := fdFollow f.1, cycle := s.cycle } q.val))

/-- PCMD (R152). -/
def execPcmd (a : Src) (s : State) : Out :=
  .next (runEngine s (srcs (.pcmd a)) (fun s x => spRecord s (x.x 0)) (fun s x r =>
    let s := recMet s true (x.x 0)
    pushCmd s { kind := .compute r 0 0, by_ := issuer s, srcAt := BitVec.ofNat 64 (x.x 0), tl := true, cycle := s.cycle } 4))

/-- The check of the arrival barrier in EMOD: allotted where ARR is set (R142, R147). -/
def emodBar (s : State) (b : BarId) (arr : Bool) : Find Unit :=
  if arr && (barGet s (barKey s s.cur.uid b)).isNone then accessAt (barId b + 2 ^ 12) else .go ()

/-- The checks of a bank load (R142). -/
def findPbank (n : Fin 2) (bar : BarId) (arr : Bool) (s : State) (x : LaneIn) : Find Unit :=
  let g := gangOf s s.cur.uid
  let tiles := if tagBlock (x.x 1) = 0 then 16 else 17
  if x.x 0 % 4096 ≠ 0 then .halt (.trap .align (BitVec.ofNat 64 (x.x 0)))
  else if g.banks.length ≤ n.val then accessAt n.val
  else if g.tiles < x.x 0 / 4096 + tiles then accessAt (x.x 0)
  else emodBar s bar arr

/-- PBANK (R152, R258). -/
def execPbank (n : Fin 2) (a b : Src) (bar : BarId) (arr : Bool) (s : State) : Out :=
  .next (runEngine s (srcs (.pbank n a b bar arr)) (findPbank n bar arr) (fun s x _ =>
    pushCmd s { kind := .bank n.val (x.x 0) (BitVec.ofNat 32 (x.x 1)) bar arr, by_ := issuer s, srcAt := BitVec.ofNat 64 (x.x 0),
                tl := true, cycle := s.cycle } 5))

/-- The checks of a clear (R142). -/
def findPclr (bar : BarId) (arr : Bool) (s : State) (x : LaneIn) : Find Unit :=
  if x.x 1 = 0 ∨ 512 < x.x 1 then accessAt (x.x 1)
  else if (gangOf s s.cur.uid).accrows < x.x 0 + x.x 1 then accessAt (x.x 0)
  else emodBar s bar arr

/-- PCLR (R152). -/
def execPclr (a b : Src) (bar : BarId) (arr : Bool) (s : State) : Out :=
  .next (runEngine s (srcs (.pclr a b bar arr)) (findPclr bar arr) (fun s x _ =>
    pushCmd s { kind := .clear (x.x 0) (x.x 1) bar arr, by_ := issuer s, srcAt := BitVec.ofNat 64 (x.x 0), tl := true, cycle := s.cycle } 4))

/-- The 32 bytes of a pattern, which may lie in two pages (R142, R283). -/
def findSgset (e : Fin 64) (s : State) (x : LaneIn) : Find (List Byte) :=
  let va := BitVec.ofNat 64 (x.x 0)
  if !(launchAt s (launchOf s s.cur.uid)).patterns.contains e.val then accessAt e.val
  else
    let n := min 32 (4096 - x.x 0 % 4096)
    let second : Find (List Byte) := if n = 32 then .go [] else devBytes s (va + BitVec.ofNat 64 n) (32 - n)
    match poisonLast (devBytes s va n) second, second with
    | .go x, .go y => .go (x ++ y)
    | .halt h, _ => .halt h
    | _, .halt h => .halt h

/-- SGSET (R152, R283): it completes when every stack's table holds the entry. -/
def execSgset (e : Fin 64) (a : Src) (s : State) : Out :=
  .next (runEngine s (srcs (.sgset e a)) (findSgset e) (fun s x p =>
    let n := min 32 (4096 - x.x 0 % 4096)
    let s := devMet s (x.x 0) n
    let s := if n = 32 then s else devMet s (x.x 0 + n) (32 - n)
    let id := takeFresh s
    let c : Cmd := { kind := .sgset e.val p, by_ := issuer s, srcAt := BitVec.ofNat 64 (x.x 0), cp := true, cycle := s.cycle }
    modGrp { id.2 with cmds := tPut id.2.cmds id.1 c } s.cur.uid (fun g => { g with cp := g.cp + 1 })))

/-- Commands in the queues of a mask that have not completed (R154). -/
def maskCmds (c : Core) (mask : Nat) : List Nat :=
  ((List.range 6).filter (fun q => bit mask q)).flatMap (fun q => nth [] c.queues q)

/-- QFENCE (R154): a mask of 0 completes at once. -/
def execQfence (q : Fin 6) (mask : BitVec 6) (s : State) : Out :=
  .next (runEngine s [] (fun _ _ => .go ()) (fun s _ _ =>
    if mask = 0 then s else pushCmd s { kind := .fence (maskCmds (coreAt s (coreOf s s.cur.uid)) mask.toNat), by_ := issuer s, srcAt := 0, cycle := s.cycle } q.val))

/-! ### Collectives and buckets (R155, R279, R280) -/

/-- The launch of the current set holds bucket k. -/
def bucketOk (s : State) (k : Nat) : Bool := (launchAt s (launchOf s s.cur.uid)).buckets.contains k

def bucketAt (s : State) (die k : Nat) : Bucket := smGet {} (dieAt s die).buckets k
def modBucket (s : State) (die k : Nat) (f : Bucket → Bucket) : State :=
  modDie s die (fun d => { d with buckets := smSet {} d.buckets k (f (smGet {} d.buckets k)) })

/-- Append a collective to its die's queue (R280). -/
def pushColl (s : State) (r : List Byte) (i : Issuer) (src : W64) (cp : Bool) : State :=
  let id := takeFresh s
  let c : Cmd := { kind := .coll r, by_ := i, srcAt := src, cp := cp, cycle := s.cycle }
  modDie { id.2 with cmds := tPut id.2.cmds id.1 c } (dieOf i.core) (fun d => { d with collQ := d.collQ ++ [id.1] })

/-- A kick of a bucket waits (R280). -/
def kickWaits (s : State) (die k : Nat) : Bool := (dieAt s die).kicks.any (fun x => x.bucket == k)

/-- A kick appends REG as the fire finds it, or waits behind the earlier ones while the queue is full (R280). -/
def kickBucket (s : State) (die k : Nat) : State :=
  match (bucketAt s die k).reg with
  | none => s
  | some (r, i, src) =>
    if (dieAt s die).collQ.length < 64 ∧ (dieAt s die).kicks = [] then pushColl s r i src false
    else modDie s die (fun d => { d with kicks := d.kicks ++ [⟨k, r, i, src⟩] })

/-- The oldest kick that waits on a die, of bucket k, is appended; a `bkset` that came meanwhile arms the bucket now (R280). -/
def kickAppend (s : State) (die k : Nat) : State :=
  match (dieAt s die).kicks with
  | [] => s
  | x :: rest =>
    if x.bucket ≠ k ∨ 64 ≤ (dieAt s die).collQ.length then s
    else
      let s := modDie s die (fun d => { d with kicks := rest })
      modBucket (pushColl s x.record x.by_ x.src false) die k (fun b => { b with armed := b.armed || b.rearm, rearm := false })

/-- Add bytes to a bucket (R155, R280): an armed one counts, and fires where it reaches TOTAL. -/
def bucketAdd (s : State) (die k n : Nat) : State :=
  let b := bucketAt s die k
  if !b.armed then s
  else
    let c := min (2 ^ 48 - 1) (b.count.toNat + n)
    let s := modBucket s die k (fun b => { b with count := BitVec.ofNat 48 c })
    if c < b.total.toNat then s else kickBucket (modBucket s die k (fun b => { b with armed := false })) die k

/-- COLL (R155): registers the record with the bucket. -/
def execColl (k : BitVec 8) (a : Src) (s : State) : Out :=
  .next (runEngine s (srcs (.coll k a)) (fun s x =>
      poisonLast (devRecord s (x.x 0)) (if bucketOk s k.toNat then .go () else accessAt k.toNat : Find Unit) |> fun f => match f with
      | .halt h => .halt h
      | .go r => if bucketOk s k.toNat then .go r else accessAt k.toNat)
    (fun s x r => modBucket (recMet s false (x.x 0)) (dieOf (coreOf s s.cur.uid)) k.toNat (fun b => { b with reg := some (r, issuer s, BitVec.ofNat 64 (x.x 0)) })))

/-- COLL_NOW (R155). -/
def execCollNow (a : Src) (s : State) : Out :=
  .next (runEngine s (srcs (.collNow a)) (fun s x => devRecord s (x.x 0)) (fun s x r =>
    let s := recMet s false (x.x 0)
    modGrp (pushColl s r (issuer s) (BitVec.ofNat 64 (x.x 0)) true) s.cur.uid (fun g => { g with cp := g.cp + 1 })))

/-- BKSET (R155): of two ACCESS grounds TOTAL's is tested first (assumption 29). -/
def execBkset (k : BitVec 8) (a : Src) (s : State) : Out :=
  .next (runEngine s (srcs (.bkset k a)) (fun s x =>
      if x.x 0 = 0 ∨ 2 ^ 48 ≤ x.x 0 then accessAt (x.x 0) else if bucketOk s k.toNat then .go () else accessAt k.toNat)
    (fun s x _ =>
      let w := kickWaits s (dieOf (coreOf s s.cur.uid)) k.toNat
      modBucket s (dieOf (coreOf s s.cur.uid)) k.toNat (fun b =>
        { b with total := BitVec.ofNat 48 (x.x 0), count := 0, armed := !w, rearm := w })))

/-- BKADD (R155). -/
def execBkadd (k : BitVec 8) (b : Src) (s : State) : Out :=
  .next (runEngine s (srcs (.bkadd k b)) (fun s _ => if bucketOk s k.toNat then .go () else accessAt k.toNat)
    (fun s x _ => bucketAdd s (dieOf (coreOf s s.cur.uid)) k.toNat (x.x 0)))

/-! ### Tapes (R157, R277, R278) -/

/-- Records above the newest mark, newest first, and the stack without them and the mark (R277). -/
def tapeSplit : List TapeEnt → List (List Byte) × List TapeEnt
  | [] => ([], [])
  | .mark :: t => ([], t)
  | .entry r :: t => let p := tapeSplit t; (r :: p.1, p.2)

/-- The stack, newest first, as the tape commands that a launch has buffered leave it when they take their steps (R278). -/
def tapeAfter (l : Launch) (t : List TapeEnt) : List TapeEnt :=
  l.buffer.foldl (fun t b => match b.2 with
    | .push r => .entry r :: t
    | .mark => .mark :: t
    | .unwind => (tapeSplit t).2
    | _ => t) t

/-- The launch of the current set holds its tape commands back (R278). -/
def tapeHeld (s : State) : Bool := isReplay (launchAt s (launchOf s s.cur.uid))

/-- The tape stack is full, as what the launch has buffered leaves it. -/
def tapeFull (s : State) : Bool :=
  let c := ctxAt s (ctxOf s s.cur.uid)
  let t := if tapeHeld s then tapeAfter (launchAt s (launchOf s s.cur.uid)) c.tape else c.tape
  decide (c.tapecap.toNat ≤ t.length)

/-- Push an entry (newest first). -/
def tapePushEnt (s : State) (c : Nat) (e : TapeEnt) : State := modCtx s c (fun x => { x with tape := e :: x.tape })

/-- Detach for a launch: an unwind of its records begins once it has completed (R277). -/
def tapeDetach (s : State) (c k : Nat) : State :=
  let p := tapeSplit (ctxAt s c).tape
  modCtx s c (fun x => { x with
    tape := p.2
    unwinds := if p.1.isEmpty then x.unwinds else x.unwinds ++ [⟨p.1, k, (launchAt s k).prio, false⟩] })

/-- A tape command: its step now, or into the write-behind buffer (R278). -/
def tapeDo (s : State) (b : Buffered) : State :=
  let k := launchOf s s.cur.uid
  let c := ctxOf s s.cur.uid
  if tapeHeld s then
    let id := takeFresh s
    modLaunch id.2 k (fun l => { l with buffer := bufferPut id.1 b l.buffer })
  else match b with
    | .push r => tapePushEnt s c (.entry r)
    | .mark => tapePushEnt s c .mark
    | .unwind => tapeDetach s c k
    | .store .. | .service .. => s

/-- KIND of a record (R156). -/
def recKind (r : List Byte) : Nat := fld r 22 1

/-- TAPE_PUSH (R157). -/
def execTapePush (a : Src) (s : State) : Out :=
  .next (runEngine s (srcs (.tapePush a)) (fun s x => match devRecord s (x.x 0) with
      | .halt h => .halt h
      | .go r => if (recKind r = 1 ∨ recKind r = 2) ∧ tapeFull s = false then .go r else accessAt (x.x 0))
    (fun s x r => tapeDo (recMet s false (x.x 0)) (.push r)))

/-- TAPE_MARK (R157, R277). -/
def execTapeMark (s : State) : Out :=
  .next (runEngine s [] (fun s _ => if tapeFull s then accessAt 0 else .go ()) (fun s _ _ => tapeDo s .mark))

/-- TAPE_UNWIND (R157, R277). -/
def execTapeUnwind (s : State) : Out := .next (runEngine s [] (fun _ _ => .go ()) (fun s _ _ => tapeDo s .unwind))

/-! ### Tasks and launches (R156, R157) -/

/-- A counter that a task record names, as a word of 32 bits on an ordinary page, of any alignment (assumption 47): its owner and address; for
another package, 16 and its number, and the pointer. -/
def counterAt (s : State) (p : Nat) (acc : AccKind) : Find (Option (Nat × Nat)) :=
  let va := BitVec.ofNat 64 p
  let c := ctxOf s s.cur.uid
  let r := reach s (vmidOf s c) (asidOf s c) va acc (curLane s (leader s)).mode
  if acc == .readWrite && bufferedPlace s r then .halt (.trap .access va)
  else match r with
  | .page a o pa =>
    if a.kind != .ordinary then .halt (.trap .access va)
    else if dataBad s a.rclass o pa 4 then .halt (.poison (badAt s (mkey o pa) 4) va)
    else .go (some (o, pa))
  | .peer k => if peerPage s c va then .go (some (16 + k, va.toNat)) else .halt (.trap .access va)
  | .access => .halt (.trap .access va)
  | .poison => .halt (.poison [noKey] va)
  | .fault ab st lv => .halt (.page ab st lv va acc)

/-- The records of a `task.post` with the places of their gates (R157). -/
def findTasks (s : State) (a : Nat) : Nat → Find (List (List Byte × Option (Nat × Nat)))
  | 0 => .go []
  | n + 1 =>
    match poisonLast (devRecord s a) (findTasks s (a + 64) n) with
    | .halt h => .halt h
    | .go r =>
      if recKind r ≠ 0 then accessAt a
      else
        let g : Find (Option (Nat × Nat)) := if fld r 32 8 = 0 then .go none else counterAt s (fld r 32 8) .read
        match g with
        | .halt h => .halt h
        | .go g =>
          match findTasks s (a + 64) n with
          | .halt h => .halt h
          | .go rs => .go ((r, g) :: rs)

/-- A gate lets its task run now: none, a counter that reads 0, or for another package what nothing fixes. -/
def gateOpen (s : State) (r : List Byte) (g : Option (Nat × Nat)) : Bool :=
  if fld r 32 8 = 0 then true
  else match g with
    | some (o, pa) => if 16 ≤ o then Config.freeWord s.free == 0 else rdNat s (mkey o pa) 4 == 0
    | none => false

/-- TASK_POST (R157). -/
def execTaskPost (a b : Src) (s : State) : Out :=
  .next (runEngine s (srcs (.taskPost a b)) (fun s x =>
      if x.x 1 = 0 ∨ 64 < x.x 1 then accessAt (x.x 1) else findTasks s (x.x 0) (x.x 1))
    (fun s x rs => rs.foldl (fun s r =>
      let id := takeFresh s
      let t : Task := { record := r.1, launch := launchOf s s.cur.uid, gang := (grp s s.cur.uid).gang, die := dieOf (coreOf s s.cur.uid),
                        ready := gateOpen s r.1 r.2, gate := r.2, held := !gateOpen s r.1 r.2 }
      { id.2 with tasks := tPut id.2.tasks id.1 t, free := id.2.free + 1 })
      ((List.range (x.x 1)).foldl (fun s i => recMet s false (x.x 0 + 64 * i)) s)))

/-- Every task held under a counter becomes ready (R157). -/
def openGate (s : State) (o pa : Nat) : State :=
  { s with tasks := s.tasks.map (fun t => if t.2.gate = some (o, pa) then (t.1, { t.2 with ready := true }) else t) }

/-- Another package's counter under which a task is held has reached 0 there. -/
def openPeerGate (s : State) (task : Nat) : State :=
  match (tGet? s.tasks task).bind (fun t => t.gate) with
  | some (o, pa) => if 16 ≤ o && !s.netStopped then openGate s o pa else s
  | none => s

/-- TASK_DONE (R157): the decrement is one step at the owner, another package's answers to itself; its acquire half covers every lane of S. -/
def execTaskDone (s : State) : Out :=
  let succ : Option Nat := match (grp s s.cur.uid).start with
    | .task p => some p.toNat
    | _ => none
  .next (runEngine s [] (fun s _ => match succ with
      | none => accessAt 0
      | some p => if p = 0 then .go none else counterAt s p .readWrite)
    (fun s _ g =>
      let u := s.cur.uid
      match g with
      | none => s
      | some (o, pa) =>
        let n := rdNat s (mkey o pa) 4
        let s := { s with mstep := s.mstep + 1 }
        let s := s.cur.lanes.foldl (fun s l => noteAcquire s u l .acqrel .pkg) s
        if n = 0 ∨ 16 ≤ o then s
        else
          let s := ownerWrite s (mkey o pa) (byteClassOf s (mkey o pa)) (leBytes 4 (n - 1))
          if n = 1 then openGate s o pa else s))

/-- The record of a `launch` (R142, R156). -/
def findLaunch (s : State) (x : LaneIn) : Find (List Byte) :=
  match devRecord s (x.x 0) with
  | .halt h => .halt h
  | .go r => if recKind r = 1 then .go r else accessAt (x.x 0)

/-- LAUNCH (R157): a copy of the record goes to the device ring of the priority. -/
def execLaunch (p : Fin 8) (a : Src) (s : State) : Out :=
  .next (runEngine s (srcs (.launch p a)) findLaunch (fun s x r =>
    let s := recMet s false (x.x 0)
    modCtx s (ctxOf s s.cur.uid) (fun c => { c with rings := modNth c.rings p.val (fun q => { q with dev := q.dev ++ [r] }) })))

/-! ### Slugs (R158) -/

/-- The galley of a core that takes a slug for an entry of a context: the one that holds the key and is not locked. -/
def galleyOf (s : State) (core c : Nat) (entry : W64) : Option Nat :=
  ((coreAt s core).galleys.find? (fun g => g.2.entry == entry && !g.2.locked && (launchAt s g.2.launch).ctx == c)).map (fun g => g.1)

/-- A core is present (R334) and not fenced. -/
def corePresent (s : State) (core : Nat) : Bool := s.coremap.getLsbD core && !(coreAt s core).fenced

/-- A present core of a die that has a free galley, of its 32 (R10), preferably one that holds a context. -/
def galleyCore (s : State) (die : Nat) (ctx : Option Nat) : Option Nat :=
  let cs := (List.range 192).filter (fun c => dieOf c == die && corePresent s c && decide ((coreAt s c).galleys.length < 32))
  match cs.find? (fun c => (coreAt s c).ctx == ctx) with
  | some c => some c
  | none => cs.head?

/-- Move a galley of a fenced core to another core of its die; it waits where none has a free one. -/
def moveGalley (s : State) (core g : Nat) : State :=
  match tGet? (coreAt s core).galleys g, galleyCore s (dieOf core) (coreAt s core).ctx with
  | some x, some c =>
    modCore (modCore s core (fun k => { k with galleys := tDel k.galleys g })) c (fun k => { k with galleys := tPut k.galleys g x })
  | _, _ => s

/-- Append a slug for a lane of a group: false where no galley is free (R158). -/
def putSlug (s : State) (u : Nat) (entry arg : W64) : State × Bool :=
  let core := coreOf s u
  let add (s : State) (k : Nat) : State :=
    modCore s core (fun c => { c with galleys := tMod c.galleys k (fun g =>
      let g := { g with slugs := g.slugs ++ [({ entry := entry, arg := arg } : Slug)] }
      { g with locked := decide (32 ≤ g.slugs.length) }) })
  match galleyOf s core (ctxOf s u) entry with
  | some k => (add s k, true)
  | none =>
    if 32 ≤ (coreAt s core).galleys.length then (s, false)
    else
      let id := takeFresh s
      let l := launchOf s u
      let g : Galley := { entry := entry, launch := l, gang := (grp s u).gang, slugs := [], expires := s.gtick.toNat + imgGaltime (launchAt s l) }
      (add (modCore id.2 core (fun c => { c with galleys := tPut c.galleys id.1 g })) id.1, true)

/-- SPAWN (R158): per lane, in rising order; a lane without a galley waits. -/
def execSpawn (a b : Src) (s : State) : Out :=
  .next (runPlain s (srcs (.spawn a b)) (fun s x =>
    let u := s.cur.uid
    let e := BitVec.ofNat 64 (x.x 0)
    let g := BitVec.ofNat 64 (x.x 1)
    let p := putSlug s u e g
    if p.2 then advanceCur (commitCur p.1 x.lane) x.lane
    else modLane s u x.lane (fun ln => { ln with st := .wait (.spawn e g), ilen := s.cur.len })))

end Sys2Proof.Machine
end

