-- ==== Sys2Proof/Machine/EngMem.lean ====
section
/-! DEFINITION. What the engines share: reads and writes of device memory at the owner (R222, R231, R254), consumed errors
(R350), page requests (R319), and completion of a command with its faults (R144). -/

namespace Sys2Proof.Machine

/-! ### Device memory as an engine reaches it -/

/-- Reach of a pointer for an engine command: in its context, in the mode of the leader that issued it (R314). -/
def engReach (s : State) (i : Issuer) (va : W64) (acc : AccKind) : Reach := reach s i.vmid i.asid va acc i.mode

/-- The context of an issuer's launch. -/
def issuerCtx (s : State) (i : Issuer) : Nat := (launchAt s i.launch).ctx

/-- What an engine access finds: bytes, a page that is not there, a fault, a detected error at a key. -/
inductive EngOut where
  | ok (bs : List Byte)
  | absent (ab : Bool) (stage level : Nat)
  | bad (c : Cause)
  | poison (keys : List Nat)
  deriving DecidableEq, Repr

/-- Elements of a plated page that a command has read: descriptor, index and code. -/
abbrev PlGot := List (Nat × Nat × Nat)

/-- The code of an element: the one that the command has read of it, else what a load of it gives now (R247, R254). -/
def plCode (s : State) (got : PlGot) (desc i : Nat) : OwnOut :=
  match got.find? (fun p => p.1 == desc && p.2.1 == i) with
  | some p => .val p.2.2
  | none => plLoad s desc i

/-- Codes of n elements of a plated region from index i on, packed w bits each (R63, R254); the first that has none counts. -/
def plCodes (s : State) (got : PlGot) (desc w : Nat) : Nat → Nat → OwnOut
  | _, 0 => .val 0
  | i, n + 1 =>
    match plCode s got desc i, plCodes s got desc w (i + 1) n with
    | .val c, .val r => .val (c % 2 ^ w + 2 ^ w * r)
    | .val _, o => o
    | o, _ => o

/-- Bits that n bytes at a pointer lie at in a plated region, and the elements that they are part of; none below its BASE. -/
def plRange (d : PlDesc) (va : W64) (n : Nat) : Option (Nat × Nat × Nat) :=
  let w := fmtWidth d.fmt
  let b := 8 * (vaHome va - d.base)
  if vaHome va < d.base then none else some (b, b / w, (b + 8 * n + w - 1) / w)

/-- n bytes of a page at a pointer, by the kind of the page (R231, R254): newest editions, element codes, or plain bytes. A read that uses no
element format goes through none of its region's (assumption 47). -/
def pageRead (s : State) (got : PlGot) (a : PageAttr) (o pa : Nat) (va : W64) (n : Nat) : EngOut :=
  match a.kind, a.region with
  | .editioned, some g =>
    (match edDesc s (mkey o g.desc) with
     | .access => .bad .access
     | .poison => .poison (badAt s (mkey o g.desc) 64)
     | .ok d =>
       match edIndex d va with
       | none => .bad .access
       | some i =>
         match edReadNewest s d o i (va.toNat % 8) n with
         | .val x => .ok (leBytes n x)
         | .poison k => .poison k
         | _ => .bad .access)
  | .plated, some g =>
    (match plDesc s (mkey o g.desc) with
     | .access => .bad .access
     | .poison => .poison (badAt s (mkey o g.desc) 64)
     | .ok d =>
       match plRange d va n with
       | none => .bad .access
       | some (b, lo, hi) =>
         match plCodes s got (mkey o g.desc) (fmtWidth d.fmt) lo (hi - lo) with
         | .val x => .ok (leBytes n (x / 2 ^ (b - fmtWidth d.fmt * lo)))
         | .poison k => .poison k
         | _ => .bad .access)
  | .ordinary, _ | .code, _ => if dataBad s a.rclass o pa n then .poison (badAt s (mkey o pa) n) else .ok (dataBytes s a.rclass o pa n)
  | _, none => .bad .access

/-- n bytes at a pointer, all in one page, as an engine reads them; another package answers with bytes that nothing fixes. -/
def engRead (s : State) (i : Issuer) (va : W64) (n : Nat) (got : PlGot := []) : EngOut :=
  let l := launchAt s i.launch
  match engReach s i va .read with
  | .page a o pa => (match bufferRead s l o pa none va n with
    | some bs => .ok bs
    | none => pageRead s got a o pa va n)
  | .peer p => .ok ((bufferRead s l (ptrOwner va) 0 (some p) va n).getD (freeBytes s n))
  | .access => .bad .access
  | .poison => .poison [noKey]
  | .fault ab st lv => .absent ab st lv

/-- The elements of a plated page that n bytes at a pointer are part of: descriptor and index (R254). -/
def plNeed (s : State) (i : Issuer) (va : W64) (n : Nat) : List (Nat × Nat) :=
  match engReach s i va .read with
  | .page a o _ =>
    (match a.kind, a.region with
     | .plated, some g =>
       (match plDesc s (mkey o g.desc) with
        | .ok d => ((plRange d va n).map (fun r => (List.range (r.2.2 - r.2.1)).map (fun j => (mkey o g.desc, r.2.1 + j)))).getD []
        | _ => [])
     | _, _ => [])
  | _ => []

/-- What an engine read leaves behind: the translation held, free values used, and the errors counted that it meets in memory, or in the words of
its page's service (R338); an element read before has met its own. -/
def engMet (s : State) (i : Issuer) (va : W64) (n : Nat) (got : PlGot := []) : State :=
  let s := { s with free := s.free + 16 }
  match engReach s i va .read with
  | .page a o pa =>
    let s := reachFill s i.launch i.vmid i.asid va (.page a o pa)
    if (bufferRead s (launchAt s i.launch) o pa none va n).isSome then s
    else match a.kind, a.region with
      | .editioned, some g => edMet s i.launch (mkey o g.desc) o va none
      | .plated, some _ => ((plNeed s i va n).filter (fun p => !got.any (fun g => g.1 == p.1 && g.2.1 == p.2))).foldl (fun s p => plMet s i.launch p.1 p.2) s
      | _, _ => dataMet s i.launch a.rclass o pa n
  | r => reachFill s i.launch i.vmid i.asid va r

/-- A destination page of an engine write: KIND ordinary (R268, R231, R254). -/
def engDest (s : State) (i : Issuer) (va : W64) : EngOut :=
  match engReach s i va .write with
  | .page a _ _ => if a.kind = .ordinary then .ok [] else .bad .access
  | .peer _ => .ok []
  | .access => .bad .access
  | .poison => .poison [noKey]
  | .fault ab st lv => .absent ab st lv

/-- The launch of an issuer holds its writes outside this package's memory back (R352). -/
def engBuffers (s : State) (i : Issuer) : Bool := isReplay (launchAt s i.launch)

/-- Put a write into its launch's write-behind buffer. -/
def engBuffer (s : State) (i : Issuer) (seq owner x peer : Nat) (va : W64) (bs : List Byte) : State :=
  modLaunch s i.launch (fun l => { l with buffer := bufferPut seq (.store owner x peer va bs) l.buffer })

/-- A write of bytes, all in one page, as it is made. -/
def engOut (s : State) (i : Issuer) (va : W64) (bs : List Byte) : Option OutWrite :=
  match engReach s i va .write with
  | .page a o pa => some ⟨va, o, pa, a.rclass, none, bs⟩
  | .peer p => some ⟨va, ptrOwner va, va.toNat, .proof, some p, bs⟩
  | _ => none

/-- A write reaches its owner (R222), for the command of number `seq`; a write to another package leaves this one. -/
def engPut (s : State) (i : Issuer) (seq : Nat) (w : OutWrite) : State :=
  match w.peer with
  | some p => if engBuffers s i then engBuffer s i seq w.owner w.pa p w.va w.bs else s
  | none => if w.owner = 4 ∧ engBuffers s i then engBuffer s i seq w.owner w.pa 0x1FF w.va w.bs else ownerWrite s (mkey w.owner w.pa) w.cls w.bs

/-- The key in a remote view of what a write reaches, for the lines to drop (R215, R222). -/
def outKey (s : State) (i : Issuer) (w : OutWrite) : Nat := if w.peer.isSome then peerKey s (issuerCtx s i) w.va else mkey w.owner w.pa

/-- A command's write reaches its owner, and the command notes what it reached. -/
def cmdPut (s : State) (id : Nat) (w : OutWrite) : State :=
  let i := (cmdAt s id).by_
  modCmd (engPut s i id w) id (fun c => { c with wrote := c.wrote ++ [(outKey s i w, w.bs.length)] })

/-- The translation that a command's write uses is held (R315). -/
def outFill (s : State) (i : Issuer) (va : W64) : State := reachFill s i.launch i.vmid i.asid va (engReach s i va .write)

/-! ### The pages of a walk (R274, R316) -/

/-- The page that a held translation covers holds another pointer too. -/
def samePage (e : TlbEnt) (a b : W64) : Bool := ptrOwner a == ptrOwner b && decide (e.vpage ≤ ptrOfs b) && decide (ptrOfs b < e.vpage + e.attr.size)

/-- The walk of a command goes on at a pointer of one side: the page there is pinned, that of the segment before no longer. -/
def walkPin (s : State) (id : Nat) (dst : Bool) (va : W64) : State :=
  let c := cmdAt s id
  let i := c.by_
  let old := c.pins.find? (fun p => p.1 == dst)
  let e := if ptrHere s va then tlbFind s (ptrOwner va) i.vmid i.asid (ptrOfs va) else none
  if (match e, old with
    | some e, some p => samePage e va p.2
    | _, _ => false) then s
  else
    let rest := c.pins.filter (fun p => p.1 != dst)
    let s := unpinWalk s i.vmid i.asid (c.pins.filter (fun p => p.1 == dst))
    match e with
    | some _ => modCmd (modPin s i.vmid i.asid va (fun n => n + 1)) id (fun c => { c with pins := rest ++ [(dst, va)] })
    | none => modCmd s id (fun c => { c with pins := rest })

/-- The walk of a command ends: it pins nothing. -/
def walkUnpin (s : State) (id : Nat) : State :=
  let c := cmdAt s id
  modCmd (unpinWalk s c.by_.vmid c.by_.asid c.pins) id (fun c => { c with pins := [] })

/-! ### Orders that nothing fixes -/

/-- The r-th number that a rising list lacks. -/
def lacking : List Nat → Nat → Nat
  | [], r => r
  | x :: xs, r => if x ≤ r then lacking xs (r + 1) else r

/-- Insert into a rising list. -/
def insertRising (x : Nat) : List Nat → List Nat
  | [] => [x]
  | y :: t => if x < y then x :: y :: t else y :: insertRising x t

/-- Class of the page of a pointer (R271); another package's is one that nothing fixes. -/
def engClass (s : State) (i : Issuer) (va : W64) (acc : AccKind) : RClass :=
  match engReach s i va acc with
  | .page a _ _ => a.rclass
  | _ => classOf ((Config.freeWord s.free).toNat % 3)

/-! ### Requests to the Foreman (R319) -/

/-- Records that the fault queue holds. -/
def faultQueueCap : Nat := 1024

/-- Post a record where the queue has room: its tag, 0 where it has none. -/
def postFault (s : State) (f : OpenFault) : State × Nat :=
  if faultQueueCap ≤ s.faults.length then (s, 0)
  else
    let id := takeFresh s
    ({ id.2 with faults := tPut id.2.faults id.1 { f with r := { f.r with tag := id.1 } } }, id.1)

/-! ### Consumption and completion (R350, R144) -/

/-- A command consumes detected errors at keys (R349, R350): it faults, or its launch is to be replayed. `own` says that the
errors lie in the launch's own arrays. -/
def engPoison (s : State) (id : Nat) (keys : List Nat) (own : Bool) : State :=
  let k := (cmdAt s id).by_.launch
  let p := consume s k (own || snapHolds (launchAt s k) keys)
  if p.2 then modCmd p.1 id (fun c => { c with fault := some .poison }) else p.1

/-- A command of the core's own engines. -/
def coreCmd (c : Cmd) : Bool :=
  match c.kind with
  | .sgset .. | .coll _ => false
  | _ => true

/-- A command reaches beyond its core: device memory, the tables of the stacks. -/
def usesNet (c : Cmd) : Bool :=
  match c.kind with
  | .copy d _ => fdSrc d == 0 || fdDst d == 0
  | .sgset .. | .coll _ => true
  | _ => false

/-- The launch of a command is to be replayed: its commands move nothing further (R353). The engines of a core that is being fenced start nothing
further (R347), and what the network carries waits while it is stopped (R348). -/
def cmdHeld (s : State) (c : Cmd) : Bool :=
  (launchAt s c.by_.launch).replayDue || (coreCmd c && (coreAt s c.by_.core).fenced) || (s.netStopped && usesNet c)

/-- A launch ends with ENGINE_FAULT (R144, R282, R332): its first such fault is reported. -/
def launchFault (s : State) (k : Nat) (x : Cause) (r : W64) : State :=
  modLaunch s k (fun l =>
    if l.statuses.contains .engineFault then l
    else { l with statuses := l.statuses ++ [.engineFault], cause := causeCode x, frec := r })

/-- Completion of a command in one step (R144, R222): lines dropped, arrival (BARID and count), counters, the fault latched. -/
def completeCmd (s : State) (id : Nat) (bar : Option (Nat × Nat)) : State :=
  let c := cmdAt s id
  let s := c.wrote.foldl (fun s w => dropLines s (dieOf c.by_.core) w.1 w.2) s
  let key := bar.bind (fun b => (cmdBar s c.by_ b.1).map (fun k => (k, b.2)))
  let dead := key.any (fun k => (barGet s k.1).any (fun b => b.expect == 0))
  let cause := if c.fault.isNone && dead then some Cause.access else c.fault
  let s := modGrp s c.by_.uid (fun g => { g with cp := g.cp - b2n c.cp, tl := g.tl - b2n c.tl })
  let s := match key with
    | some k => if dead then s else engineArrive s k.1 k.2 (cause.map (fun x => ⟨x, c.srcAt, id⟩))
    | none => s
  let s := match cause with
    | some x => if (tGet? s.groups c.by_.uid).isSome then latchFault s c.by_.uid ⟨x, c.srcAt, id⟩ else launchFault s c.by_.launch x c.srcAt
    | none => s
  dropCmd s id

/-- Fault a command and complete it (R144). -/
def faultCmd (s : State) (id : Nat) (x : Cause) (bar : Option (Nat × Nat)) : State :=
  completeCmd (modCmd s id (fun c => { c with fault := some x })) id bar

/-- The command at the head of a queue of a core, where it is one. -/
def headCmd (s : State) (core q : Nat) : Option (Nat × Cmd) :=
  if (coreAt s core).fenced then none
  else match nth [] (coreAt s core).queues q with
    | [] => none
    | id :: _ => (tGet? s.cmds id).map (fun c => (id, c))

/-- The arrival that a BARID with ARR asks for. -/
def arrOf (b : BarId) (arr : Bool) : Option (Nat × Nat) := if arr then some (barId b, 1) else none

/-! ### Colophons (R275, R276) -/

/-- The 64 bytes of a colophon. -/
def coloBytes (s : State) (core : Nat) (c : Colophon) (cpout : Nat) : List Byte :=
  leBytes 8 c.cpin ++ leBytes 8 c.landed ++ leBytes 8 c.opready ++ leBytes 8 c.cstart ++ leBytes 8 c.cend ++ leBytes 8 cpout ++
    leBytes 2 c.stall ++ leBytes 1 c.opc ++ leBytes 1 c.bank ++ leBytes 2 core ++ leBytes 1 c.slot ++ leBytes 1 0 ++
    leBytes 8 (launchAt s c.launch).launchid.toNat

/-- Retire a colophon: one write at COLO, discarded where the address fails. -/
def coloRetire (s : State) (core : Nat) (c : Colophon) (cpout : Nat) : State :=
  let i : Issuer := ⟨0, c.gang, core, c.launch, c.vmid, c.asid, c.mode, 0, c.slot⟩
  let s := modCore s core (fun k => { k with colophons := k.colophons.filter (fun x => x != c) })
  if c.colo.toNat % 64 ≠ 0 then s
  else match engDest s i c.colo, engOut s i c.colo (coloBytes s core c cpout) with
    | .ok _, some w => dropLines (engPut (outFill s i c.colo) i s.fresh w) (dieOf core) (outKey s i w) 64
    | _, _ => s

/-- Retire the pending colophons of a gang's rows that a test picks. -/
def coloRetireIf (s : State) (core gang cpout : Nat) (p : Colophon → Bool) : State :=
  ((coreAt s core).colophons.filter (fun c => c.gang == gang && p c)).foldl (fun s c => coloRetire s core c cpout) s

/-- Retire the colophons of rows row0 to row0 + n - 1. -/
def coloRows (s : State) (core gang row0 n : Nat) : State :=
  coloRetireIf s core gang 0 (fun c => overlaps c.row0 c.m row0 n)

/-- A colophon becomes pending; the oldest retires where there are more than 16. -/
def coloAdd (s : State) (core : Nat) (c : Colophon) : State :=
  let s := modCore s core (fun k => { k with colophons := k.colophons ++ [c] })
  match (coreAt s core).colophons with
  | old :: rest => if 16 ≤ rest.length then coloRetire s core old 0 else s
  | [] => s

end Sys2Proof.Machine
end

