-- ==== Sys2Proof/Machine/Press.lean ====
section
/-! DEFINITION. Press arithmetic (R67 to R71), TOPK (R265), condensed tiles (R212, R213), the A ring (R261, R262) and bank
contents (R256, R263). -/

namespace Sys2Proof.Machine

/-! ### Align (R69) -/

/-- The integer nearest to m * 2^e, ties to even. -/
def nearestInt (m : Nat) (e : Int) : Nat :=
  let d := dyDiv m e 0
  if roundUp .rne false (d.1 % 2 == 1) d.2.1 d.2.2 0 then d.1 + 1 else d.1

/-- E of a block: the largest exponent of a non-zero element, none where every element is 0. -/
def alignExp : List FVal → Option Int
  | [] => none
  | .fin _ m e :: ys =>
    if m = 0 then alignExp ys
    else match alignExp ys with
      | none => some (dyLog2 m e)
      | some x => some (max (dyLog2 m e) x)
  | _ :: ys => alignExp ys

/-- The integer of an element for width w and block exponent x. -/
def alignInt (w : Nat) (x : Int) : FVal → Int
  | .fin n m e =>
    let i : Int := min (nearestInt m (e + w - 2 - x)) (2 ^ (w - 1) - 1)
    if n then -i else i
  | _ => 0

/-- An aligned block: its integers, the exponent of its unit times its scale, and whether it makes g a NaN (R70). -/
structure ABlock where
  ints : List Int
  sh : Int
  bad : Bool
  deriving DecidableEq, Repr

/-- An element that is NaN or infinite. -/
def notFinite : FVal → Bool
  | .fin .. => false
  | _ => true

/-- Align a block of elements with its e8m0 scale (R69, R70). -/
def alignBlock (w : Nat) (ys : List FVal) (scale : Nat) : ABlock :=
  let x := (alignExp ys).getD 0
  { ints := ys.map (alignInt w x), sh := x - w + 2 + scale - 127, bad := ys.any notFinite || scale == 255 }

/-! ### Products (R70, R71) -/

/-- Σ of products. -/
def dotInt : List Int → List Int → Int
  | x :: xs, y :: ys => x * y + dotInt xs ys
  | _, _ => 0

/-- Every other element, from the first. -/
def evens : List Int → List Int
  | x :: _ :: t => x :: evens t
  | [x] => [x]
  | [] => []

def odds (l : List Int) : List Int := evens (l.drop 1)

/-- The f32 canonical NaN. -/
def nan32 : Nat := 0x7FC00000

/-- g of an exact product sum (R70). -/
def pressG (p sh : Int) : Nat :=
  match fmtDecode .f32 (roundNE .f32 (fvalOfInt p)) with
  | .fin n m e => roundNE .f32 (.fin n m (e + sh))
  | _ => nan32

/-- acc + g (R70). -/
def pressAdd (acc g : Nat) : Nat := roundNE .f32 (fvSum false [term (fmtDecode .f32 acc), term (fmtDecode .f32 g)])

/-- The g's of one finer block: two for CMUL, one otherwise (R70, R71). -/
def blockG (opc : Nat) (a b : List Int) (sa sb : Int) (bad : Bool) : List Nat :=
  if bad then (if opc = 2 then [nan32, nan32] else [nan32])
  else if opc = 0 then [pressG (dotInt a b) (sa + sb)]
  else if opc = 2 then
    [pressG (dotInt (evens a) (evens b) - dotInt (odds a) (odds b)) (sa + sb),
     pressG (dotInt (evens a) (odds b) + dotInt (odds a) (evens b)) (sa + sb)]
  else
    let x := 2 * dotInt a b
    [roundNE .f32 (fvSum false [term (.fin false (dotInt a a).natAbs (2 * sa)), term (.fin false (dotInt b b).natAbs (2 * sb)),
      term (.fin (decide (0 < x)) x.natAbs (sa + sb))])]

/-- One row of A against one column of B: the accumulators after every finer block of K (R264). -/
def pressDot (opc k bsA bsB : Nat) (as bs : List ABlock) (acc : List Nat) : List Nat :=
  let f := min bsA bsB
  (List.range (k / f)).foldl (fun acc t =>
    let a := nth ⟨[], 0, false⟩ as (t * f / bsA)
    let b := nth ⟨[], 0, false⟩ bs (t * f / bsB)
    let x := (a.ints.drop (t * f % bsA)).take f
    let y := (b.ints.drop (t * f % bsB)).take f
    (acc.zip (blockG opc x y a.sh b.sh (a.bad || b.bad))).map (fun p => pressAdd p.1 p.2)) acc

/-! ### TOPK (R265) -/

/-- (n, d_n) goes before (m, d_m). -/
def topBefore (x y : Nat × Nat) : Bool :=
  let a := fmtDecode .f32 x.2
  let b := fmtDecode .f32 y.2
  if fvIsNan a then fvIsNan b && decide (x.1 < y.1)
  else fvIsNan b || fvLt a b || (!fvLt b a && decide (x.1 < y.1))

/-- Insert into a list that is in order. -/
def topInsert (x : Nat × Nat) : List (Nat × Nat) → List (Nat × Nat)
  | [] => [x]
  | y :: t => if topBefore x y then x :: y :: t else y :: topInsert x t

/-- The distances with their n in order. -/
def topSort (ds : List (Nat × Nat)) : List (Nat × Nat) := ds.foldr topInsert []

/-! ### Condensed tiles (R212, R213) -/

/-- Starts of n groups from byte o on, and the end; none where they pass byte 4,095. `rd` reads a word at a byte offset. -/
def condGroups (rd : Nat → Nat) (w : Nat) : Nat → Nat → Option (List Nat × Nat)
  | 0, o => some ([], o)
  | n + 1, o =>
    if 4096 < o + 4 then none
    else
      let e := o + groupLen w (rd o)
      if 4096 < e then none else (condGroups rd w n e).map (fun p => (o :: p.1, p.2))

/-- Groups of sub-stream k among g groups. -/
def condCount (g k : Nat) : Nat := g / 16 + b2n (decide (k < g % 16))

/-- The sub-streams of a condensed tile of g groups, each with its group starts and its run; none where a check of R213 fails. -/
def condSubs (rd : Nat → Nat) (w g : Nat) : Option (List (List Nat × Nat × Nat)) :=
  let subs := (List.range 16).map (fun k =>
    let h := rd (4 * k)
    if bits h 31 26 ≠ 0 ∨ bits h 15 10 ≠ 0 ∨ bits h 9 0 < 16 ∨ bits h 25 16 ≠ condCount g k then none
    else (condGroups rd w (condCount g k) (4 * bits h 9 0)).map (fun p => (p.1, 4 * bits h 9 0, p.2)))
  if subs.any (fun x => x.isNone) then none
  else
    let xs := subs.filterMap id
    let clash := (List.range 16).any (fun i => (List.range i).any (fun j =>
      let x := (nth ([], 0, 0) xs i).2
      let y := (nth ([], 0, 0) xs j).2
      decide (x.1 < x.2) && decide (y.1 < y.2) && decide (x.1 < y.2) && decide (y.1 < x.2)))
    if clash then none else some xs

/-- Code of element p of a condensed tile. -/
def condElem (rd : Nat → Nat) (w : Nat) (subs : List (List Nat × Nat × Nat)) (p : Nat) : Nat :=
  let g := p / 32
  let o := nth 0 (nth ([], 0, 0) subs (g % 16)).1 (g / 16)
  let mask := rd o
  if !bit mask (p % 32) then 0
  else
    let b := w * popcW 32 (mask % 2 ^ (p % 32))
    let x := rd (o + 4 + b / 32 * 4) + 2 ^ 32 * rd (o + 8 + b / 32 * 4)
    x / 2 ^ (b % 32) % 2 ^ w

/-! ### The A ring (R261, R262) -/

/-- The element formats that B admits, and A besides f16 and bf16. -/
def pressFmt : Fmt → Bool
  | .e4m3 | .e5m2 | .e2m3 | .e3m2 | .e2m1 | .mxint8 | .b8 .. => true
  | _ => false

/-- A 32-bit word of scratch. -/
def scrWord (g : Gang) (a : Nat) : Nat := leNat (arrBytes g.scratch a 4)

/-- Element capacity of a ring of n tiles; none where it is not whole. -/
def ringCap (cond : Bool) (n w : Nat) : Option Nat :=
  if cond then some (n * 2048) else if n * 32768 % w = 0 then some (n * 32768 / w) else none

/-- Code of element e of the ring at scratch address base. -/
def ringElem (g : Gang) (cond : Bool) (base w e : Nat) : Nat :=
  if cond then
    let rd (o : Nat) : Nat := scrWord g (base + e / 2048 * 4096 + o)
    match condSubs rd w 64 with
    | some subs => condElem rd w subs (e % 2048)
    | none => 0
  else leNat (arrBytes g.scratch (base + w * e / 8) 3) / 2 ^ (w * e % 8) % 2 ^ w

/-- Runs of ring elements that rows of m * k elements from aoff on take: at most two. -/
def ringRuns (cap aoff n : Nat) : List (Nat × Nat) :=
  if cap ≤ n then [(0, cap)]
  else if aoff + n ≤ cap then [(aoff, n)]
  else [(aoff, cap - aoff), (0, aoff + n - cap)]

/-- Tiles of the ring that hold these elements. -/
def ringTiles (cond : Bool) (w rtiles : Nat) (runs : List (Nat × Nat)) : List Nat :=
  (List.range rtiles).filter (fun t => runs.any (fun r =>
    if cond then overlaps (t * 2048) 2048 r.1 r.2 else overlaps (t * 32768) 32768 (w * r.1) (w * r.2)))

/-- The byte runs, relative to the ring, that a read of these elements takes: of a condensed tile its header and its
sub-streams. -/
def ringBytes (g : Gang) (cond : Bool) (base w rtiles : Nat) (runs : List (Nat × Nat)) : List (Nat × Nat) :=
  if cond then (ringTiles cond w rtiles runs).flatMap (fun t =>
    let subs := (condSubs (fun o => scrWord g (base + t * 4096 + o)) w 64).getD []
    (t * 4096, 64) :: subs.map (fun x => (t * 4096 + x.2.1, x.2.2 - x.2.1)))
  else runs.map (fun r => (w * r.1 / 8, (w * (r.1 + r.2) + 7) / 8 - w * r.1 / 8))

/-- Row m of A as aligned blocks (R261, R262, R264). -/
def pressRowA (g : Gang) (r : List Byte) (f : Fmt) (cap m : Nat) : List ABlock :=
  let w := fmtWidth f
  let k := pcK r
  let bs := blockLen (pcKba r)
  let cond := tagLayout (pcTaga r) = 4
  let codes := (List.range k).map (fun j => ringElem g cond (pcAring r) w ((pcAoff r + m * k + j) % cap))
  (List.range (k / bs)).map (fun b =>
    let scale := if tagBlock (pcTaga r) = 0 then 127 else (smGet 0 g.scratch (pcAscale r + m * (k / bs) + b)).toNat
    alignBlock (pcWa r) ((runAt bs codes b).map (fmtDecode f)) scale)

/-- Column n of a bank as aligned blocks. -/
def pressColB (b : Bank) (k n : Nat) : List ABlock :=
  (List.range (k / b.kb)).map (fun t =>
    { ints := (List.range b.kb).map (fun j => smGet 0 b.cells ((t * b.kb + j) * 256 + n)),
      sh := smGet 0 b.exps (n * 16 + t) - 6 + smGet 127 b.scales (n * 16 + t) - 127,
      bad := b.bad.contains (n * 16 + t) })

/-- The accumulator words of a command, by word number, with their values: row m (R264, R265). -/
def pressRow (g : Gang) (bk : Bank) (r : List Byte) (f : Fmt) (cap m : Nat) : List (Nat × W32) :=
  let opc := pcOpc r
  let as := pressRowA g r f cap m
  let w0 := (pcRow0 r + m) * 256
  let acc (c : Nat) : Nat := if pcClear r || opc == 3 then 0 else (smGet 0 g.acc (w0 + c)).toNat
  let dot (n : Nat) : List Nat :=
    pressDot opc (pcK r) (blockLen (pcKba r)) bk.kb as (pressColB bk (pcK r) n) (if opc = 2 then [acc n, acc (n + 128)] else [acc n])
  let cols := (List.range (pcNcol r)).map (fun n => (n, dot n))
  if opc = 3 then
    let top := topSort (cols.map (fun p => (p.1, nth 0 p.2 0)))
    (List.range (pcTopk r)).flatMap (fun i =>
      let p := nth (0xFFFFFFFF, 0x7F800000) top i
      [(w0 + i, BitVec.ofNat 32 p.2), (w0 + 16 + i, BitVec.ofNat 32 p.1)])
  else cols.flatMap (fun p =>
    (w0 + p.1, BitVec.ofNat 32 (nth 0 p.2 0)) :: (if opc = 2 then [(w0 + 128 + p.1, BitVec.ofNat 32 (nth 0 p.2 1))] else []))

/-! ### Bank loads (R263) -/

/-- The contents of a bank loaded from the tiles at scratch address a with a tag. -/
def bankContents (g : Gang) (a tag : Nat) (f : Fmt) : Bank :=
  let w := fmtWidth f
  let scaled := tagBlock tag != 0
  let kb := if scaled then blockLen (tagBlock tag) else 16
  let code (k n : Nat) : Nat :=
    let b := 8 * (a + n / 16 * 4096 + n % 16 * 32 * w) + w * k
    leNat (arrBytes g.scratch (b / 8) 2) / 2 ^ (b % 8) % 2 ^ w
  let blk (n t : Nat) : List FVal := (List.range kb).map (fun j => fmtDecode f (code (t * kb + j) n))
  let scale (n t : Nat) : Nat := if scaled then (smGet 0 g.scratch (a + 65536 + n * (256 / kb) + t)).toNat else 127
  let blocks := (List.range 256).flatMap (fun n => (List.range (256 / kb)).map (fun t => (n, t)))
  let cell (i : Nat) : Option (Nat × Int) :=
    let n := i % 256
    let k := i / 256
    let v := alignInt 8 ((alignExp (blk n (k / kb))).getD 0) (fmtDecode f (code k n))
    if v = 0 then none else some (i, v)
  { state := .loading, kb := kb, fmt := some f, scaled := scaled
    cells := (List.range 65536).filterMap cell
    exps := blocks.filterMap (fun p => match alignExp (blk p.1 p.2) with
      | some x => if x = 0 then none else some (p.1 * 16 + p.2, x)
      | none => none)
    scales := blocks.filterMap (fun p => if scale p.1 p.2 = 127 then none else some (p.1 * 16 + p.2, scale p.1 p.2))
    bad := (blocks.filter (fun p => (blk p.1 p.2).any notFinite || scale p.1 p.2 == 255)).map (fun p => p.1 * 16 + p.2) }

end Sys2Proof.Machine
end

