-- ==== Sys2Proof/Machine/EvPress.lean ====
section
/-! DEFINITION. The Press's events: compute commands, `pclr`, bank loads (R152, R153, R256 to R266, R276). -/

namespace Sys2Proof.Machine

/-! ### Order of the two queues (R153) -/

/-- The bank that a command names, within its gang. -/
def cmdBank (c : Cmd) : Option Nat :=
  match c.kind with
  | .compute r _ _ => some (pcBank r)
  | .bank n _ _ _ _ => some n
  | _ => none

/-- A command of the other kind for the same bank, issued before command id, has not completed. -/
def bankBusy (s : State) (id : Nat) (c : Cmd) : Bool :=
  let q := match c.kind with
    | .compute .. => 5
    | _ => 4
  (nth [] (coreAt s c.by_.core).queues q).any (fun j =>
    decide (j < id) && (cmdAt s j).by_.gang == c.by_.gang && (cmdBank (cmdAt s j)).isSome && cmdBank (cmdAt s j) == cmdBank c)

/-! ### Waits of a compute command (R260, R275) -/

/-- WAITB names no barrier of the launch. -/
def wbarBad (s : State) (c : Cmd) (r : List Byte) : Bool := pcWaitb r && (cmdBar s c.by_ (pcWbar r)).isNone

/-- WBAR has released the command. -/
def wbarDone (s : State) (c : Cmd) (r : List Byte) : Bool :=
  !pcWaitb r || (match (cmdBar s c.by_ (pcWbar r)).bind (barGet s) with
    | some b => released b.phase (pcWtok r)
    | none => true)

/-- Set a STALL bit. -/
def setStall (c : Cmd) (i : Nat) : Cmd := if bit c.stall i then c else { c with stall := c.stall + 2 ^ i }

/-- WBAR has released a command: the stores that its threads made before they arrived are what it reads (R223, R260). -/
def pressAcquire (s : State) (id : Nat) (c : Cmd) (r : List Byte) : State :=
  if pcWaitb r && !c.acq then modCmd s id (fun c => { c with acq := true, old := [] }) else s

/-- Note what the commands of a core's compute queue wait for, and the operand-ready tick of its head; run in every step. -/
def pressWatch (s : State) (core : Nat) : State :=
  match nth [] (coreAt s core).queues 4 with
  | [] => s
  | id :: rest =>
    let isCompute (j : Nat) : Bool := match (cmdAt s j).kind with
      | .compute .. => true
      | _ => false
    let behind := ((id :: rest).filter isCompute).drop 1
    let s := behind.foldl (fun s j => modCmd s j (fun c => setStall c 2)) s
    let c := cmdAt s id
    match c.kind with
    | .compute r _ _ =>
      if c.ready then s
      else if wbarBad s c r then modCmd s id (fun c => { c with ready := true, t0 := s.gtick.toNat })
      else if !wbarDone s c r then modCmd s id (fun c => setStall c 0)
      else
        let s := pressAcquire s id c r
        if bankBusy s id c then modCmd s id (fun c => setStall c 1)
        else modCmd s id (fun c => { c with ready := true, t0 := s.gtick.toNat })
    | _ => s

/-! ### Compute commands (R260) -/

/-- The arrival of a compute command. -/
def pcArrival (r : List Byte) : Option (Nat × Nat) := if pcArr r then some (pcAbar r, pcArrn r) else none

/-- Block size of a KBLK code; 0 for one that is out of range. -/
def kblk (x : Nat) : Nat := if 1 ≤ x ∧ x ≤ 4 then blockLen x else 0

/-- The reserved values, ranges and allotments of R259 and R260; false gives ACCESS. -/
def pressRanges (s : State) (c : Cmd) (r : List Byte) : Bool :=
  let g := gangAt s c.by_.gang
  let t := pcTaga r
  let big := max (kblk (pcKba r)) (kblk (pcKbb r))
  let capOk : Bool := match fmtOf (tagFmt t) (tagP8d t) with
    | none => true
    | some f =>
      match ringCap (tagLayout t == 4) (pcRtiles r) (fmtWidth f) with
      | some cap => decide (pcAoff r < cap)
      | none => decide (tagLayout t ≠ 0)
  let scaleEnd := pcAscale r + pcM r * (pcK r / blockLen (tagBlock t))
  decide (pcOpc r ≤ 3) && decide (pcBank r < g.banks.length) && [2, 4, 8, 12, 16].contains (pcWa r) &&
    decide (kblk (pcKba r) ≠ 0) && decide (kblk (pcKbb r) ≠ 0) &&
    (if pcOpc r = 3 then decide (1 ≤ pcTopk r) && decide (pcTopk r ≤ 16) else pcTopk r == 0) &&
    (if pcArr r then decide (1 ≤ pcArrn r) && (cmdBar s c.by_ (pcAbar r)).isSome else pcArrn r == 0) &&
    decide (pcAring r % 4096 = 0) && decide (1 ≤ pcRtiles r) && decide (pcRtiles r ≤ 512) && capOk &&
    decide (1 ≤ pcM r) && decide (pcM r ≤ 512) && decide (16 ≤ pcK r) && decide (pcK r ≤ 256) && decide (pcK r % big = 0) &&
    decide (1 ≤ pcNcol r) && decide (pcNcol r ≤ if pcOpc r = 2 then 128 else 256) && decide (pcRow0 r + pcM r ≤ g.accrows) &&
    decide (pcAring r / 4096 + pcRtiles r ≤ g.tiles) && (tagBlock t == 0 || decide (scaleEnd ≤ 4096 * g.tiles))

/-- The tag of a scale tile: VALID, e8m0, row, BLOCK 0. -/
def scaleTag : Nat := 2 ^ 16 + 0x13

/-- Tile t of a gang carries this tag, with VALID set (R206); bits 31 to 17 of the word that asks for it take no part (assumption 47). -/
def tagIs (g : Gang) (t tag : Nat) : Bool := tagValid tag && (smGet 0 g.tags t).toNat == tag % 2 ^ 17

/-- The bank, tags and formats that R260 and R261 ask for; false gives LAYOUT_MISMATCH. -/
def pressLayout (s : State) (c : Cmd) (r : List Byte) : Bool :=
  let g := gangAt s c.by_.gang
  let b := nth {} g.banks (pcBank r)
  let t := pcTaga r
  let fmtOk : Bool := match fmtOf (tagFmt t) (tagP8d t) with
    | none => false
    | some f =>
      (pressFmt f || ((f == .f16 || f == .bf16) && tagBlock t == 0 && tagLayout t == 0)) &&
        (tagLayout t == 0 || tagLayout t == 4)
  let first := pcAscale r / 4096
  let last := (pcAscale r + pcM r * (pcK r / blockLen (tagBlock t)) - 1) / 4096
  b.state == .ready && b.kb == kblk (pcKbb r) && fmtOk && (tagBlock t == 0 || tagBlock t == pcKba r) &&
    (List.range (pcRtiles r)).all (fun i => tagIs g (pcAring r / 4096 + i) t) &&
    (tagBlock t == 0 || (List.range (last + 1 - first)).all (fun i => tagIs g (first + i) scaleTag))

/-- Capacity of the ring of a checked command. -/
def pressCap (r : List Byte) (f : Fmt) : Nat := (ringCap (tagLayout (pcTaga r) == 4) (pcRtiles r) (fmtWidth f)).getD 1

/-- The headers of the condensed tiles that a command reads hold together (R213). -/
def pressHeads (g : Gang) (r : List Byte) (f : Fmt) : Bool :=
  if tagLayout (pcTaga r) ≠ 4 then true
  else
    let w := fmtWidth f
    (ringTiles true w (pcRtiles r) (ringRuns (pressCap r f) (pcAoff r) (pcM r * pcK r))).all (fun t =>
      (condSubs (fun o => scrWord g (pcAring r + t * 4096 + o)) w 64).isSome)

/-- The ring bytes that a command reads: offsets from ARING, and lengths. -/
def ringReads (g : Gang) (r : List Byte) (f : Fmt) : List (Nat × Nat) :=
  ringBytes g (tagLayout (pcTaga r) = 4) (pcAring r) (fmtWidth f) (pcRtiles r) (ringRuns (pressCap r f) (pcAoff r) (pcM r * pcK r))

/-- A read of a command meets a detected error in the gang's arrays: ring and scale bytes, accumulator words, bank words. -/
def pressBad (g : Gang) (r : List Byte) (f : Fmt) : Bool :=
  let runs := ringReads g r f
  let lo := pcRow0 r * 256
  let cols := pcNcol r
  let reads : Bool := !pcClear r && pcOpc r != 3
  runs.any (fun x => poisoned g.scratchPois (pcAring r + x.1) x.2) ||
    (tagBlock (pcTaga r) != 0 && poisoned g.scratchPois (pcAscale r) (pcM r * (pcK r / blockLen (tagBlock (pcTaga r))))) ||
    (reads && g.accPois.any (fun x => decide (lo ≤ x) && decide (x < lo + 256 * pcM r) &&
      (decide (x % 256 < cols) || (pcOpc r == 2 && decide (128 ≤ x % 256) && decide (x % 256 < 128 + cols))))) ||
    (nth {} g.banks (pcBank r)).pois.any (fun x => decide (x / 256 < pcK r) && decide (x % 256 / 4 * 4 < cols))

/-- The errors that the reads of a command meet are counted, in ring and scale bytes, accumulator words, and bank words (R338). -/
def pressMet (s : State) (gang : Nat) (g : Gang) (r : List Byte) (f : Fmt) : State :=
  let s := (ringReads g r f).foldl (fun s x => meetArr s (.scratch gang (pcAring r + x.1)) x.2) s
  let s := if tagBlock (pcTaga r) = 0 then s
    else meetArr s (.scratch gang (pcAscale r)) (pcM r * (pcK r / blockLen (tagBlock (pcTaga r))))
  (List.range (max (pcM r) (pcK r))).foldl (fun s i =>
    let s := if pcClear r || pcOpc r = 3 || decide (pcM r ≤ i) then s
      else
        let s := meetArr s (.acc gang ((pcRow0 r + i) * 256)) (pcNcol r)
        if pcOpc r = 2 then meetArr s (.acc gang ((pcRow0 r + i) * 256 + 128)) (pcNcol r) else s
    if pcK r ≤ i then s else meetArr s (.bank gang (pcBank r) (i * 256)) (pcNcol r)) s

/-- Write accumulator words of a gang; each is clean again. -/
def accWrite (s : State) (gang : Nat) (ws : List (Nat × W32)) : State :=
  modGang (coverArr s (.acc gang 0) (fun x => ws.any (fun w => w.1 == x))) gang (fun g => { g with
    acc := ws.foldl (fun a w => smSet 0 a w.1 w.2) g.acc
    accPois := g.accPois.filter (fun x => !ws.any (fun w => w.1 == x)) })

/-- A running command commits its next staging row (R342, R347). -/
def commitRow (s : State) (id : Nat) : State :=
  let c := cmdAt s id
  match c.stage with
  | [] => s
  | w :: _ =>
    let here (x : Nat × W32) : Bool := x.1 / 256 == w.1 / 256
    modCmd (accWrite s c.by_.gang (c.stage.filter here)) id (fun c => { c with stage := c.stage.filter (fun x => !here x), rows := c.rows + 1 })

/-- PRESS_COMMAND_START (R260, R264, R265): the waits of the head have ended; its checks are made and its words computed. A running command
commits its next row; at what pace nothing fixes. Whether it waited on ring bytes or decode (STALL bit 3) is left open. -/
def execPressCommandStart (core : Nat) (s : State) : Out :=
  .next (match headCmd s core 4 with
    | some (id, c) =>
      (match c.kind with
       | .compute r _ _ =>
         if cmdHeld s c then s
         else if c.state = .running then commitRow s id
         else if c.state ≠ .queued ∨ !c.ready then s
         else if wbarBad s c r then faultCmd s id .access (pcArrival r)
         else if !pressRanges s c r then faultCmd s id .access (pcArrival r)
         else if !pressLayout s c r then faultCmd s id .layoutMismatch (pcArrival r)
         else match fmtOf (tagFmt (pcTaga r)) (tagP8d (pcTaga r)) with
           | none => faultCmd s id .layoutMismatch (pcArrival r)
           | some f =>
             let g := engGang s c
             if !pressHeads g r f then faultCmd s id .layoutMismatch (pcArrival r)
             else if pressBad g r f then
               let s := pressMet s c.by_.gang g r f
               let s := engPoison s id [noKey] true
               if (cmdAt s id).fault.isSome then completeCmd s id (pcArrival r) else s
             else
               let s := pressMet s c.by_.gang g r f
               let s := coloRows s core c.by_.gang (pcRow0 r) (pcM r)
               let words := (List.range (pcM r)).flatMap (pressRow g (nth {} g.banks (pcBank r)) r f (pressCap r f))
               let open_ := takeFreeWord s
               modCmd open_.2 id (fun c =>
                 let c := if bit open_.1.toNat 0 then setStall c 3 else c
                 { c with state := .running, stage := words, t1 := s.gtick.toNat })
       | _ => s)
    | none => s)

/-- PRESS_COMMAND_COMPLETE (R266, R276): the words are written, the colophon becomes pending, the arrival is made. -/
def execPressCommandComplete (core : Nat) (s : State) : Out :=
  .next (match headCmd s core 4 with
    | some (id, c) =>
      (match c.kind with
       | .compute r cpin landed =>
         if c.state ≠ .running ∨ cmdHeld s c then s
         else
           let s := accWrite s c.by_.gang c.stage
           let s := if pcStamp r then coloAdd s core
               { row0 := pcRow0 r, m := pcM r, gang := c.by_.gang, colo := pcColo r, vmid := c.by_.vmid, asid := c.by_.asid, cpin := cpin,
                 landed := landed, opready := c.t0, cstart := c.t1, cend := s.gtick.toNat, stall := c.stall, opc := pcOpc r,
                 bank := pcBank r, slot := c.by_.slot, launch := c.by_.launch, mode := c.by_.mode }
             else s
           completeCmd s id (pcArrival r)
       | _ => s)
    | none => s)

/-- PCLR_RUN (R152, R276). -/
def execPclrRun (core : Nat) (s : State) : Out :=
  .next (match headCmd s core 4 with
    | some (id, c) =>
      (match c.kind with
       | .clear row0 n bar arr =>
         if cmdHeld s c then s
         else
           let s := coloRows s core c.by_.gang row0 n
           let s := accWrite s c.by_.gang ((List.range (256 * n)).map (fun i => (row0 * 256 + i, 0)))
           completeCmd s id (arrOf bar arr)
       | _ => s)
    | none => s)

/-! ### Bank loads (R152, R153, R256, R263) -/

/-- Set a bank of a gang. -/
def setBank (s : State) (gang n : Nat) (b : Bank) : State := modGang (coverArr s (.bank gang n 0) (fun _ => true)) gang (fun g => { g with banks := setNth g.banks n b })

/-- A bank load's tag and tiles hold together; false gives LAYOUT_MISMATCH. -/
def bankLayout (g : Gang) (a tag : Nat) : Bool :=
  (match fmtOf (tagFmt tag) (tagP8d tag) with
   | some f => pressFmt f
   | none => false) && tagLayout tag == 1 && decide (tagBlock tag ≤ 4) &&
    (List.range 16).all (fun t => tagIs g (a / 4096 + t) tag) && (tagBlock tag == 0 || tagIs g (a / 4096 + 16) scaleTag)

/-- The bytes of tile t that a load reads, and those of its scale tile. -/
def bankBad (g : Gang) (a tag : Nat) (f : Fmt) : Bool :=
  (List.range 16).any (fun t => poisoned g.scratchPois (a + t * 4096) (512 * fmtWidth f)) ||
    (tagBlock tag != 0 && poisoned g.scratchPois (a + 65536) (256 * (256 / blockLen (tagBlock tag))))

/-- The errors that a bank load meets are counted (R338). -/
def bankMet (s : State) (gang a tag : Nat) (f : Fmt) : State :=
  let s := (List.range 16).foldl (fun s t => meetArr s (.scratch gang (a + t * 4096)) (512 * fmtWidth f)) s
  if tagBlock tag = 0 then s else meetArr s (.scratch gang (a + 65536)) (256 * (256 / blockLen (tagBlock tag)))

/-- A bank load runs from its first tile (R263): a fault leaves the bank EMPTY (R256). -/
def runBankLoad (s : State) (id : Nat) (c : Cmd) (n a tag : Nat) (arr : Option (Nat × Nat)) : State :=
  let g := gangAt s c.by_.gang
  if !bankLayout g a tag then faultCmd (setBank s c.by_.gang n {}) id .layoutMismatch arr
  else match fmtOf (tagFmt tag) (tagP8d tag) with
    | none => faultCmd (setBank s c.by_.gang n {}) id .layoutMismatch arr
    | some f =>
      let s := bankMet s c.by_.gang a tag f
      if bankBad g a tag f then
        let s := engPoison s id [noKey] true
        if (cmdAt s id).fault.isSome then completeCmd (setBank s c.by_.gang n {}) id arr else s
      else modCmd (setBank s c.by_.gang n (bankContents (engGang s c) a tag f)) id (fun c => { c with state := .running })

/-- BANK_LOAD (R153, R263). -/
def execBankLoad (core : Nat) (s : State) : Out :=
  .next (match headCmd s core 5 with
    | some (id, c) =>
      (match c.kind with
       | .bank n a tag bar arr =>
         if c.state ≠ .queued ∨ bankBusy s id c ∨ cmdHeld s c then s else runBankLoad s id c n a tag.toNat (arrOf bar arr)
       | _ => s)
    | none => s)

/-- BANK_LOAD_COMPLETE (R256). -/
def execBankLoadComplete (core : Nat) (s : State) : Out :=
  .next (match headCmd s core 5 with
    | some (id, c) =>
      (match c.kind with
       | .bank n _ _ bar arr =>
         if c.state ≠ .running ∨ cmdHeld s c then s
         else completeCmd (modGang s c.by_.gang (fun g => { g with banks := modNth g.banks n (fun b => { b with state := .ready }) })) id (arrOf bar arr)
       | _ => s)
    | none => s)

end Sys2Proof.Machine
end

