-- ==== Sys2Proof/Machine/Feeder.lean ====
section
/-! DEFINITION. A Feeder copy: its walk, the checks at start, one unit's move, fix-up lists, landing and completion
(R206, R208, R267 to R274, R283 to R285). -/

namespace Sys2Proof.Machine

/-! ### The walk (R269, R284) -/

def patPitch (p : List Byte) : Nat := fld p 0 8
def patRows (p : List Byte) : Nat := fld p 8 4
def patCols (p : List Byte) : Nat := fld p 12 4
def patEsz (p : List Byte) : Nat := fld p 16 1

/-- A pattern without reserved or out-of-range values (R283). -/
def patOk (p : List Byte) : Bool :=
  decide (1 ≤ patPitch p) && decide (patPitch p ≤ 2 ^ 40) && decide (1 ≤ patRows p) && decide (patRows p ≤ 2 ^ 24) &&
    decide (1 ≤ patCols p) && decide (patCols p ≤ 2 ^ 24) && decide (patEsz p ≤ 3) && (p.drop 17).all (fun b => b == 0)

/-- Σ c_d * STR_d of walk index i. -/
def walkOfs (d : List Byte) : List Nat → Nat → Int
  | [], _ => 0
  | k :: ks, i => ((i % fdExt d k : Nat) : Int) * fdStr d k + walkOfs d ks (i / fdExt d k)

/-- Source address of unit i: a pointer, or the low 32 bits for the other spaces (R268). -/
def walkSrc (d pat : List Byte) (i : Nat) : Nat :=
  if fdSg d then (fdSA d + i % patRows pat * patPitch pat + i / patRows pat % patCols pat * 2 ^ patEsz pat) % 2 ^ 64
  else
    let a := wrap 64 ((fdSA d : Int) + walkOfs d [0, 1, 2, 3, 4] i)
    if fdSrc d = 0 then a else a % 2 ^ 32

/-- Destination address of stream byte b. -/
def walkDst (d : List Byte) (b : Nat) : Nat := if fdDst d = 0 then (fdDA d + b) % 2 ^ 64 else fdDA d % 2 ^ 32 + b

def fdPat (d : List Byte) : Nat := fld d 6 1
def fdBucket (d : List Byte) : Nat := fld d 7 1
def fdArrn (d : List Byte) : Nat := fld d 3 1

/-- The arrival of a copy. -/
def fdArrival (d : List Byte) : Option (Nat × Nat) := if fdArr d then some (fld d 4 2, fdArrn d) else none

/-- A tag that TAGSRC has still to determine. -/
def tagOpen : Nat := 2 ^ 20

/-! ### Checks at start (R268, R270, R284) -/

/-- Bytes of a space that a command may reach; none for device memory. -/
def spaceLimit (s : State) (i : Issuer) (sp : Nat) : Option Nat :=
  let g := gangAt s i.gang
  match sp with
  | 0 => none
  | 1 => some (4096 * g.tiles)
  | 2 => some (g.privsz - if i.mode = .u then 256 else 0)
  | _ => some (1024 * g.accrows)

/-- The pattern that an SG copy reads at start, from its issuing die's tables. -/
def copyPat (s : State) (c : Cmd) (d : List Byte) : List Byte :=
  smGet [] (dieAt s (dieOf c.by_.core)).pats (fdPat d)

/-- The reserved values, allotments and SG checks; false gives ACCESS. -/
def copyFields (s : State) (c : Cmd) (d : List Byte) : Bool :=
  let l := launchAt s c.by_.launch
  let p := copyPat s c d
  decide (fdSrc d ≤ 3) && decide (fdDst d ≤ 2) && decide (fdUnit d ≤ 3) &&
    (!fdArr d || (decide (1 ≤ fdArrn d) && (cmdBar s c.by_ (fld d 4 2)).isSome)) &&
    (!fdBkt d || l.buckets.contains (fdBucket d)) &&
    (!fdSg d || (fdSrc d == 0 && l.patterns.contains (fdPat d) && patOk p && decide (fdUnit d = patEsz p) &&
      decide (fdUnits d ≤ patRows p * patCols p)))

/-- Every address of a copy lies inside its spaces; false gives ACCESS. -/
def copySpaces (s : State) (c : Cmd) (d pat : List Byte) : Bool :=
  (match spaceLimit s c.by_ (fdSrc d) with
   | none => true
   | some n => (List.range (fdUnits d)).all (fun i => decide (walkSrc d pat i + 2 ^ fdUnit d ≤ n))) &&
  (match spaceLimit s c.by_ (fdDst d) with
   | none => true
   | some n => (fdCond d && fdDst d == 1) || fdUnits d == 0 || decide (fdDA d % 2 ^ 32 + fdBytes d ≤ n))

/-- FMT, P8D and BLOCK of a tag or a region hold no reserved value (R61, R67). -/
def attrOk (fmt p8d block : Nat) : Bool :=
  match fmtOf fmt p8d with
  | some f => fmtBlock f block
  | none => false

/-- What a source place gives for TAGSRC (R270): FMT, P8D and BLOCK; a reserved attribute is a mismatch (R61). -/
def srcFields (s : State) (c : Cmd) (d : List Byte) (a : Nat) : EngOut :=
  match fdSrc d with
  | 1 =>
    let t := (smGet 0 (gangAt s c.by_.gang).tags (a / 4096)).toNat
    if attrOk (tagFmt t) (tagP8d t) (tagBlock t) then .ok (leBytes 2 (t % 2 ^ 13)) else .bad .layoutMismatch
  | 3 => .ok (leBytes 2 8)
  | 0 =>
    (match engReach s c.by_ (BitVec.ofNat 64 a) .read with
     | .page p _ _ =>
       (match p.kind, p.region with
        | .ordinary, some g | .plated, some g =>
          if !attrOk g.elemfmt g.p8d g.block then .bad .layoutMismatch
          else .ok (leBytes 2 (g.elemfmt + g.p8d * 32 + g.block * 1024))
        | _, _ => .bad .access)
     | .peer _ => .ok (leBytes 2 ((Config.freeWord s.free).toNat % 2 ^ 13))
     | .access => .bad .access
     | .poison => .poison [noKey]
     | .fault ab st lv => .absent ab st lv)
  | _ => .bad .access

/-- The checks of a scratch destination's tag: the fault, if any. -/
def tagFault (s : State) (c : Cmd) (d : List Byte) (t : Nat) : Option Cause :=
  let f := fmtOf (tagFmt t) (tagP8d t)
  if 4 < tagLayout t then some .access
  else if !attrOk (tagFmt t) (tagP8d t) (tagBlock t) then some (if fdTagsrc d then .layoutMismatch else .access)
  else if fdCond d ≠ (tagLayout t == 4) ∨ (fdCond d ∧ (f.isNone ∨ 8 < tagWidth t)) then some .layoutMismatch
  else if fdCond d ∧ fdDA d % 4096 ≠ 0 then some .align
  else if fdCond d ∧ (copyTiles d t).any (fun k => decide ((gangAt s c.by_.gang).tiles ≤ k)) then some .access
  else none

/-! ### One unit -/

/-- The outcome of a unit's move. -/
inductive UnitOut where
  | moved (s : State)
  | absent (dst : Bool) (va : Nat) (ab : Bool) (stage level : Nat)
  /-- `src`: at the source. -/
  | bad (src : Bool) (x : Cause)
  | poison (src : Bool) (keys : List Nat) (own : Bool)

/-- The bytes of a unit at its source: those of this launch's own arrays, or of device memory. -/
def unitRead (s : State) (c : Cmd) (d : List Byte) (a : Nat) : EngOut :=
  let n := 2 ^ fdUnit d
  let g := gangAt s c.by_.gang
  match fdSrc d with
  | 0 => engRead s c.by_ (BitVec.ofNat 64 a) n c.plGot
  | 1 => if poisoned g.scratchPois a n then .poison [noKey] else .ok ((List.range n).map (fun i => engByte s c (a + i)))
  | 2 =>
    let ln := lane s c.by_.uid c.by_.lane
    if poisoned ln.privPois a n then .poison [noKey] else .ok (arrBytes ln.priv a n)
  | _ =>
    if g.accPois.any (fun w => overlaps (4 * w) 4 a n) then .poison [noKey]
    else .ok ((List.range n).map (fun i => BitVec.ofNat 8 ((engWord s c ((a + i) / 4)).toNat / 2 ^ (8 * ((a + i) % 4)))))

/-- The errors that a unit's read meets are counted (R338). -/
def unitMet (s : State) (c : Cmd) (d : List Byte) (a : Nat) : State :=
  let n := 2 ^ fdUnit d
  match fdSrc d with
  | 0 => engMet s c.by_ (BitVec.ofNat 64 a) n c.plGot
  | 1 => meetArr s (.scratch c.by_.gang a) n
  | 2 => meetArr s (.priv c.by_.uid c.by_.lane a) n
  | _ => meetArr s (.acc c.by_.gang (a / 4)) ((a % 4 + n + 3) / 4)

/-- Class of a side of a unit (R271). -/
def sideClass (s : State) (c : Cmd) (sp a : Nat) (acc : AccKind) : RClass :=
  match sp with
  | 0 => engClass s c.by_ (BitVec.ofNat 64 a) acc
  | 3 => .proof
  | _ => (gangAt s c.by_.gang).kclass

/-- The pieces of a run of bytes that lie in one page each. -/
def pagePieces (a : Nat) (bs : List Byte) : List (Nat × List Byte) :=
  let k := 4096 - a % 4096
  if bs.length ≤ k then [(a, bs)] else [(a, bs.take k), ((a + k) % 2 ^ 64, bs.drop k)]

/-- Write scratch bytes; a poisoned sector that they cover is clean again. -/
def scratchPut (s : State) (gang : Nat) (ps : List (Nat × Byte)) : State :=
  modGang (coverArr s (.scratch gang 0) (fun a => ps.any (fun p => p.1 == a))) gang (fun g => { g with
    scratch := ps.foldl (fun m p => smSet 0 m p.1 p.2) g.scratch
    scratchPois := g.scratchPois.filter (fun r => !(List.range r.2).all (fun i => ps.any (fun p => p.1 == r.1 + i))) })

/-- Set a tile's tag. -/
def tagPut (s : State) (gang t w : Nat) : State := modGang s gang (fun g => { g with tags := smSet 0 g.tags t (BitVec.ofNat 32 w) })

/-- A copy begins to write the tile of stream byte b (R206). -/
def tileBegin (s : State) (id b : Nat) : State :=
  let c := cmdAt s id
  match c.kind with
  | .copy d _ =>
    let k := tileOf d c.tagw b
    if c.begun.contains k then s
    else tagPut (modCmd s id (fun c => { c with begun := c.begun ++ [k] })) c.by_.gang k (c.tagw % 2 ^ 16)
  | _ => s

/-- Write the bytes of unit i to the destination's space: private memory at once, device memory and scratch by way of the command. -/
def unitWrite (s : State) (id : Nat) (c : Cmd) (d : List Byte) (walk : Bool) (i : Nat) (bs : List Byte) : State :=
  let b := i * 2 ^ fdUnit d
  let s := match fdDst d with
    | 0 =>
      (pagePieces (walkDst d b) bs).foldl (fun s p =>
        let va := BitVec.ofNat 64 p.1
        let s := outFill s c.by_ va
        modCmd (if walk then walkPin s id true va else s) id (fun c => { c with out := c.out ++ (engOut s c.by_ va p.2).toList })) s
    | 1 =>
      let s := (List.range bs.length).foldl (fun s j => tileBegin s id (b + j)) s
      modCmd s id (fun c => { c with buf := (List.range bs.length).foldl (fun m j => smSet none m (b + j) (some (nth 0 bs j))) c.buf })
    | _ =>
      let a := walkDst d b
      let s := coverArr s (.priv c.by_.uid c.by_.lane a) (fun x => decide (a ≤ x) && decide (x < a + bs.length))
      modLane s c.by_.uid c.by_.lane (fun ln => { ln with priv := arrWrite ln.priv a bs, privPois := unpoison ln.privPois a bs.length })
  modCmd s id (fun c => { c with written := c.written + bs.length })

/-- Move unit i of a copy (R269, R271, R273): source, destination, class, TAGSRC fields, then the bytes. The walk pins the pages that it is at. -/
def copyUnit (s : State) (id : Nat) (walk : Bool) (i : Nat) : UnitOut :=
  let c := cmdAt s id
  match c.kind with
  | .copy d _ =>
    let a := walkSrc d c.pat i
    let n := 2 ^ fdUnit d
    let da := walkDst d (i * n)
    let own : Bool := fdSrc d != 0
    (match unitRead s c d a with
     | .absent ab st lv => .absent false a ab st lv
     | .bad x => .bad true x
     | .poison k => .poison true k own
     | .ok bs =>
       let dsts : List (Nat × EngOut) :=
         if fdDst d = 0 then (pagePieces da bs).map (fun p => (p.1, engDest s c.by_ (BitVec.ofNat 64 p.1))) else []
       match dsts.find? (fun p => p.2 != .ok []) with
       | some (va, .absent ab st lv) => .absent true va ab st lv
       | some (_, .bad x) => .bad false x
       | some (_, .poison k) => .poison false k false
       | _ =>
         let same : Bool := !(fdTagsrc d && fdDst d == 1) || (match srcFields s c d a with
           | .ok f => leNat f == c.tagw % 2 ^ 13 || (fdSrc d == 0 && !ptrHere s (BitVec.ofNat 64 a))
           | _ => false)
         let src := sideClass s c (fdSrc d) a .read
         let down : Bool := ((if dsts.isEmpty then [da] else dsts.map (fun p => p.1)).any (fun x =>
           decide (classCode src > classCode (sideClass s c (fdDst d) x .write))))
         if !same then .bad false .layoutMismatch
         else if down && !fdXclass d then .bad false .classCross
         else
           let s := unitMet s c d a
           .moved (unitWrite (if walk && !own then walkPin s id false (BitVec.ofNat 64 a) else s) id c d walk i bs))
  | _ => .bad false .access

/-- The next element of a plated page that unit i has yet to read is read, in one step (R254); none where it has them all, or meets what ends or
holds it. -/
def unitElem (s : State) (id i : Nat) : Option State :=
  let c := cmdAt s id
  match c.kind with
  | .copy d _ =>
    if fdSrc d ≠ 0 then none
    else ((plNeed s c.by_ (BitVec.ofNat 64 (walkSrc d c.pat i)) (2 ^ fdUnit d)).find? (fun p => !c.plGot.any (fun g => g.1 == p.1 && g.2.1 == p.2))).bind (fun p =>
      match plLoad s p.1 p.2 with
      | .val x => some (modCmd (plMet s c.by_.launch p.1 p.2) id (fun c => { c with plGot := c.plGot ++ [(p.1, p.2, x)] }))
      | _ => none)
  | _ => none

/-- After unit i a command keeps the elements alone that its next unit is part of too (R254). -/
def unitPast (s : State) (id i : Nat) : State :=
  let c := cmdAt s id
  if c.plGot.isEmpty then s
  else match c.kind with
    | .copy d _ =>
      let next := if i + 1 < fdUnits d then plNeed s c.by_ (BitVec.ofNat 64 (walkSrc d c.pat (i + 1))) (2 ^ fdUnit d) else []
      modCmd s id (fun c => { c with plGot := c.plGot.filter (fun g => next.contains (g.1, g.2.1)) })
    | _ => s

/-! ### Landing (R206, R212, R272) -/

/-- Bytes of a copy that lie in a tile and have not landed. -/
def tileRest (s : State) (c : Cmd) (d : List Byte) (k : Nat) : List (Nat × Byte) := (tileBytes s c d k).filter (fun p => !c.early.contains p.1)

/-- Pick from a list by bits that nothing fixes. -/
def pickSome {α : Type} (free : Nat) (l : List α) : List α :=
  (l.zipIdx.filter (fun p => !bit (Config.freeWord (free + p.2)).toNat 0)).map (fun p => p.1)

/-- Some of a copy's writes reach device memory, and some bytes their tiles, in an order that nothing fixes (R222, R269). -/
def copyOut (s : State) (id : Nat) : State :=
  let c := cmdAt s id
  match c.kind with
  | .copy d _ =>
    let now := pickSome s.free c.out
    let bytes := if fdCond d then [] else pickSome (s.free + c.out.length) (((copyTiles d c.tagw).filter (fun k => !c.landedTiles.contains k)).flatMap (tileRest s c d))
    let s := { s with free := s.free + c.out.length + c.buf.length }
    let s := now.foldl (fun s w => cmdPut s id w) s
    let s := if bytes.isEmpty then s else scratchPut s c.by_.gang bytes
    modCmd s id (fun c => { c with out := now.foldl (fun l w => l.erase w) c.out, early := c.early ++ bytes.map (fun p => p.1) })
  | _ => s

/-- The last byte of a tile lands: VALID is set (R206). -/
def tileLand (s : State) (id : Nat) (c : Cmd) (d : List Byte) (k : Nat) : State :=
  let s := scratchPut s c.by_.gang (tileRest s c d k)
  let s := tagPut { s with free := s.free + 4096 } c.by_.gang k (c.tagw % 2 ^ 16 + 2 ^ 16)
  modCmd s id (fun c => { c with landedTiles := c.landedTiles ++ [k] })

/-- Append the follow-on of a landed copy, where the compute queue has room (R257, R272, R289). -/
def followAppend (s : State) (id : Nat) : State :=
  let c := cmdAt s id
  match c.kind with
  | .copy d r =>
    if !fdFollow d || c.followed || c.state != .landed || decide (64 ≤ (nth [] (coreAt s c.by_.core).queues 4).length) then s
    else
      let f := takeFresh s
      let k : Cmd := { kind := .compute r c.t0 c.t2, by_ := c.by_, srcAt := BitVec.ofNat 64 (fdFollowAt d), tl := true, cycle := s.cycle }
      let s := { f.2 with cmds := tPut f.2.cmds f.1 k }
      let s := modCore s c.by_.core (fun x => { x with queues := modNth x.queues 4 (fun l => l ++ [f.1]) })
      modCmd s id (fun c => { c with followed := true, tl := false })
  | _ => s

/-- Where every byte of a copy has landed, its follow-on goes out in that step. -/
def copyLand (s : State) (id : Nat) : State :=
  let c := cmdAt s id
  match c.kind with
  | .copy d _ =>
    if c.state = .running ∧ fdUnits d ≤ c.pos ∧ c.fix = [] ∧ c.out = [] ∧ c.tagw ≠ tagOpen ∧
        (copyTiles d c.tagw).all (fun k => c.landedTiles.contains k) then
      followAppend (modCmd s id (fun c => { c with state := .landed, t2 := s.gtick.toNat })) id
    else s
  | _ => s

/-! ### Completion (R144, R272, R276) -/

/-- Accumulator rows that the units moved have read. -/
def rowsRead (c : Cmd) (d : List Byte) : List Nat :=
  if fdSrc d ≠ 3 then [] else ((List.range (min c.pos (fdUnits d))).map (fun i => walkSrc d c.pat i / 1024)).eraseDups

/-- A copy completes: colophons, bucket, arrival, counters. -/
def copyFinish (s : State) (id : Nat) : State :=
  let c := cmdAt s id
  match c.kind with
  | .copy d _ =>
    let rows := rowsRead c d
    let s := coloRetireIf s c.by_.core c.by_.gang s.gtick.toNat (fun x => rows.any (fun r => decide (x.row0 ≤ r) && decide (r < x.row0 + x.m)))
    let s := if fdBkt d && (launchAt s c.by_.launch).buckets.contains (fdBucket d)
      then bucketAdd s (dieOf c.by_.core) (fdBucket d) c.written else s
    completeCmd s id (fdArrival d)
  | _ => s

/-- A copy faults: the bytes that it has read have landed, the tiles that they fill are VALID; it completes at once (R144, R206). -/
def copyFault (s : State) (id : Nat) (x : Cause) : State :=
  let c := cmdAt s id
  match c.kind with
  | .copy d _ =>
    let s := c.out.foldl (fun s w => cmdPut s id w) s
    let s := (copyTiles d c.tagw).foldl (fun s k =>
      if tileDue (cmdAt s id) d k then tileLand s id (cmdAt s id) d k
      else if fdCond d || c.landedTiles.contains k then s
      else scratchPut s c.by_.gang (tileRest s c d k)) s
    copyFinish (modCmd s id (fun c => { c with fault := some x })) id
  | _ => s

/-- A copy consumes a detected error. -/
def copyPoison (s : State) (id : Nat) (keys : List Nat) (own : Bool) : State :=
  let s := engPoison s id keys own
  if (cmdAt s id).fault.isSome then copyFault s id .poison else s

/-! ### Fix-up lists (R273) and SGFAULT (R285) -/

/-- A listed segment's page is present: it is pinned in its owner's translation entry, where the engine may use it (R274, R316). -/
def segPin (s : State) (c : Cmd) (x : Segment) : State × Segment :=
  let r := engReach s c.by_ x.va (if x.dst then .write else .read)
  let s := reachFill s c.by_.launch c.by_.vmid c.by_.asid x.va r
  match r with
  | .page _ o _ =>
    if (tlbFind s o c.by_.vmid c.by_.asid (ptrOfs x.va)).isSome then
      (modPin s c.by_.vmid c.by_.asid x.va (fun n => n + 1), { x with present := true, pinned := true })
    else (s, { x with present := true })
  | _ => (s, { x with present := true })

/-- The queue of its core that holds a command. -/
def queueOf (s : State) (core id : Nat) : Nat := ((List.range 6).find? (fun q => (nth [] (coreAt s core).queues q).contains id)).getD 0

/-- Note a stride-gather fault in SGFAULT of the issuing die, for the command's context; where no frame names the stack, which
one of the owner's it is stays open. -/
def sgNote (s : State) (c : Cmd) (d : List Byte) (cause a : Nat) : State :=
  if !fdSg d then s
  else
    let va := BitVec.ofNat 64 a
    let stack := match engReach s c.by_ va .read with
      | .page _ o pa => stackOf (mkey o pa)
      | _ => 2 * (ptrOwner va % 4) + (Config.freeWord s.free).toNat % 2
    let w := BitVec.ofNat 64 (fdPat d % 64 + stack * 2 ^ 6 + cause * 2 ^ 9 + 2 ^ 63)
    modDie { s with free := s.free + 1 } (dieOf c.by_.core) (fun x => { x with sgfault := tPut x.sgfault (issuerCtx s c.by_) (w, va) })

/-- The record of a page that a copy met as not present (R319). -/
def copyRecord (s : State) (id : Nat) (c : Cmd) (d : List Byte) (dst : Bool) (va : Nat) (ab : Bool) (stage level : Nat) : OpenFault :=
  let sg : Bool := fdSg d && !dst
  { page := pageSpan s c.by_.vmid c.by_.asid (BitVec.ofNat 64 va)
    r := { va := BitVec.ofNat 64 va, asid := c.by_.asid, vmid := c.by_.vmid, source := if sg then 4 else 2, acc := b2n dst,
           where_ := faultWhere ab stage level, core := if sg then 0xFFFF else c.by_.core, slot := queueOf s c.by_.core id, tag := 0 },
    absent := ab, uid := none, cmd := some id }

/-- An address lies in the page of a segment. -/
def inSeg (s : State) (x : Segment) (a : Nat) : Bool := inPage s (x.va.toNat, x.size) a

/-- Post the request of a segment, or share that of an earlier one for the page (R319): its tag, 0 while the queue is full. -/
def segPost (s : State) (id : Nat) (c : Cmd) (d : List Byte) (dst : Bool) (va : Nat) (ab : Bool) (stage level : Nat) : State × Nat :=
  match c.fix.find? (fun x => inSeg s x va && !x.present && x.tag != 0) with
  | some x => (s, x.tag)
  | none => postFault s (copyRecord s id c d dst va ab stage level)

/-- A segment of n units from i on at the page of an address. -/
def segOf (s : State) (c : Cmd) (dst : Bool) (va i n tag : Nat) : Segment :=
  let p := pageSpan s c.by_.vmid c.by_.asid (BitVec.ofNat 64 va)
  ⟨dst, BitVec.ofNat 64 p.1, p.2, i, n, tag, false, false⟩

/-- List unit i as one that met an absent page: false where the list is full. A stride-gather read is noted (R285). -/
def segList (s : State) (id i : Nat) (dst : Bool) (va : Nat) (ab : Bool) (stage level : Nat) : State × Bool :=
  let c := cmdAt s id
  match c.kind with
  | .copy d _ =>
    let note (s : State) : State := if dst then s else sgNote s c d 1 va
    (match c.fix.getLast?.filter (fun x => x.dst == dst && inSeg s x va && x.first + x.count == i && !x.present) with
     | some x => (note (modCmd s id (fun c => { c with fix := c.fix.dropLast ++ [{ x with count := x.count + 1 }] })), true)
     | none =>
       if 64 ≤ c.fix.length then (s, false)
       else
         let p := segPost s id c d dst va ab stage level
         (note (modCmd p.1 id (fun c => { c with fix := c.fix ++ [segOf s c dst va i 1 p.2] })), true))
  | _ => (s, false)

/-- A unit faults its command; an ACCESS at its source is noted (R285). -/
def unitFault (s : State) (id i : Nat) (src : Bool) (x : Cause) : State :=
  let c := cmdAt s id
  match c.kind with
  | .copy d _ => copyFault (if src && x == .access then sgNote s c d 2 (walkSrc d c.pat i) else s) id x
  | _ => s

/-- A unit consumes a detected error; one at its source is noted (R285). -/
def unitPoison (s : State) (id i : Nat) (src : Bool) (keys : List Nat) (own : Bool) : State :=
  let c := cmdAt s id
  match c.kind with
  | .copy d _ => copyPoison (if src then sgNote s c d 3 (walkSrc d c.pat i) else s) id keys own
  | _ => s

/-- The walk of a command goes on past unit i of `units`. -/
def walkPast (s : State) (id i units : Nat) : State :=
  let s := modCmd (unitPast s id i) id (fun c => { c with pos := i + 1 })
  if units ≤ i + 1 then walkUnpin s id else s

/-- Walk on by n steps (R254, R269, R273), to the last of so many units: it stops at a fault, and where the list is full. -/
def copyWalk (id units : Nat) : Nat → State → State
  | 0, s => s
  | n + 1, s =>
    let i := (cmdAt s id).pos
    if units ≤ i then s
    else match unitElem s id i with
      | some s => copyWalk id units n s
      | none =>
        match copyUnit s id true i with
        | .moved s => copyWalk id units n (walkPast s id i units)
        | .absent dst va ab st lv =>
          let p := segList s id i dst va ab st lv
          if p.2 then copyWalk id units n (walkPast p.1 id i units) else p.1
        | .bad src x => unitFault s id i src x
        | .poison src k own => unitPoison s id i src k own

/-- Determine the tag that TAGSRC leaves to the source, where its page is present: true where the walk may go on. -/
def copyTag (s : State) (id : Nat) : State × Bool :=
  let c := cmdAt s id
  match c.kind with
  | .copy d _ =>
    if c.tagw ≠ tagOpen then (s, true)
    else match srcFields s c d (walkSrc d c.pat 0) with
      | .absent ab st lv => (if c.fix.isEmpty then (segList s id 0 false (walkSrc d c.pat 0) ab st lv).1 else s, false)
      | .bad x => (unitFault s id 0 true x, false)
      | .poison k => (unitPoison s id 0 true k false, false)
      | .ok f =>
        let t := fdTag d % 2 ^ 16 / 2 ^ 13 * 2 ^ 13 + leNat f
        match tagFault s c d t with
        | some x => (copyFault s id x, false)
        | none => (modCmd { s with free := s.free + 1 } id (fun c => { c with tagw := t }), true)
  | _ => (s, false)

/-- Go on with a running copy by at most n steps of its walk, and with its writes; what has landed at its end is noted. -/
def copyGo (s : State) (id n : Nat) : State :=
  let p := copyTag s id
  if !p.2 then p.1
  else
    let c := cmdAt p.1 id
    match c.kind with
    | .copy d _ => copyLand (copyOut (copyWalk id (fdUnits d) n p.1) id) id
    | _ => p.1

/-- Put a segment of a command in the place of another. -/
def segPut (s : State) (id : Nat) (x y : Segment) : State :=
  modCmd s id (fun c => { c with fix := c.fix.map (fun z => if z = x then y else z) })

/-- A segment leaves the list of its command, its pin released (R274). -/
def segEnd (s : State) (id : Nat) (x : Segment) : State :=
  let c := cmdAt s id
  modCmd (unpinAll s c.by_.vmid c.by_.asid [x]) id (fun c => { c with fix := c.fix.erase x })

/-- Replay at most n units of a listed segment x (R273): where the other side's page is not there, what is left is listed for that page in its
place. -/
def segReplay (id : Nat) : Nat → Segment → State → State
  | 0, _, s => s
  | n + 1, x, s =>
    match unitElem s id x.first with
    | some s => segReplay id n x s
    | none =>
    match copyUnit s id false x.first with
    | .moved s =>
      let s := unitPast s id x.first
      if x.count ≤ 1 then segEnd s id x
      else
        let y := { x with first := x.first + 1, count := x.count - 1 }
        segReplay id n y (segPut s id x y)
    | .absent dst va ab st lv =>
      let c := cmdAt s id
      (match c.kind with
       | .copy d _ =>
         let p := segPost (unpinAll s c.by_.vmid c.by_.asid [x]) id c d dst va ab st lv
         segPut (if dst then p.1 else sgNote p.1 c d 1 va) id x (segOf s c dst va x.first x.count p.2)
       | _ => s)
    | .bad src e => unitFault s id x.first src e
    | .poison src k own => unitPoison s id x.first src k own

/-- The segment that a command replays next: a present one in list order; after the walk's end only the first. -/
def segNext (c : Cmd) (d : List Byte) : Option Segment :=
  if fdUnits d ≤ c.pos then (match c.fix with
    | x :: _ => if x.present then some x else none
    | [] => none)
  else c.fix.find? (fun x => x.present)

/-- A listed segment whose request has yet to be posted, where the queue has room or an earlier request of the command is for its page. -/
def segUnposted (s : State) (c : Cmd) : Option Segment :=
  c.fix.find? (fun x => !x.present && x.tag == 0 && (decide (s.faults.length < faultQueueCap) ||
    c.fix.any (fun y => y.tag != 0 && !y.present && inSeg s y x.va.toNat)))

end Sys2Proof.Machine
end

