-- ==== Sys2Proof/Machine/EvFeeder.lean ====
section
/-! DEFINITION. The Feeder's events (R152, R154, R206, R257, R269 to R274), and the completion of `qfence` and `sgset`. -/

namespace Sys2Proof.Machine

/-- The checks of a copy at its start, then its walk by n units (R268, R269). -/
def copyBegin (s : State) (id n : Nat) (c : Cmd) (d : List Byte) : State :=
  let pat := if fdSg d then copyPat s c d else []
  let toTile : Bool := fdDst d == 1 && fdUnits d != 0
  let t := if !toTile then 0 else if fdTagsrc d then tagOpen else fdTag d % 2 ^ 16
  let s := modCmd s id (fun c => { c with t0 := s.gtick.toNat, pat := pat })
  if !copyFields s c d then copyFault s id .access
  else if (List.range (fdUnits d)).any (fun i => decide (walkSrc d pat i % 2 ^ fdUnit d ≠ 0)) then copyFault s id .align
  else if !copySpaces s c d pat then copyFault s id .access
  else match (if toTile ∧ t ≠ tagOpen then tagFault s c d t else none) with
    | some x => copyFault s id x
    | none => copyGo (modCmd s id (fun c => { c with state := .running, tagw := t })) id n

/-- FEEDER_COPY_START (R268, R269): the head of a queue starts, or goes on with its walk where its list has room, by so many steps, and with its
writes; at what pace a copy moves nothing fixes. -/
def execFeederCopyStart (core : Nat) (q : Paced) (s : State) : Out :=
  .next (match headCmd s core q.of with
    | some (id, c) =>
      (match c.kind with
       | .copy d _ =>
         if cmdHeld s c then s
         else if c.state = .queued then copyBegin s id q.n c d
         else if c.state = .running then copyGo s id q.n
         else s
       | _ => s)
    | none => s)

/-- TILE_LANDED (R206). -/
def execTileLanded (core q tile : Nat) (s : State) : Out :=
  .next (match headCmd s core q with
    | some (id, c) =>
      (match c.kind with
       | .copy d _ =>
         if c.state ≠ .running ∨ cmdHeld s c ∨ tileDue c d tile = false then s else copyLand (tileLand s id c d tile) id
       | _ => s)
    | none => s)

/-- FOLLOW_ON_APPEND (R257, R272): a follow-on that found the compute queue full. -/
def execFollowOnAppend (core q : Nat) (s : State) : Out :=
  .next (match headCmd s core q with
    | some (id, c) => if cmdHeld s c then s else followAppend s id
    | none => s)

/-- FIXUP_REPLAY (R273): a listed segment whose page is present moves so many of its units, at least one; a request that found the fault queue
full is posted. -/
def execFixupReplay (w : Paced) (s : State) : Out :=
  let id := w.of
  .next (match tGet? s.cmds id with
    | some c =>
      (match c.kind with
       | .copy d _ =>
         if c.state ≠ .running ∨ cmdHeld s c then s
         else match segNext c d with
           | some x =>
             if c.tagw = tagOpen then copyGo (segEnd s id x) id 0
             else copyLand (segReplay id (max 1 w.n) x s) id
           | none =>
             match segUnposted s c with
             | some x =>
               let r := engReach s c.by_ x.va (if x.dst then .write else .read)
               (match r with
                | .fault ab st lv =>
                  let p := segPost s id c d x.dst x.va.toNat ab st lv
                  modCmd p.1 id (fun c => { c with fix := c.fix.map (fun y => if y = x then { y with tag := p.2 } else y) })
                | _ =>
                  let p := segPin s c x
                  modCmd p.1 id (fun c => { c with fix := c.fix.map (fun y => if y = x then p.2 else y) }))
             | none => s
       | _ => s)
    | none => s)

/-- FEEDER_COPY_COMPLETE (R144, R272). -/
def execFeederCopyComplete (core q : Nat) (s : State) : Out :=
  .next (match headCmd s core q with
    | some (id, c) =>
      (match c.kind with
       | .copy d _ =>
         if c.state ≠ .landed ∨ cmdHeld s c ∨ (fdFollow d ∧ c.followed = false) then s else copyFinish s id
       | _ => s)
    | none => s)

/-- QFENCE_COMPLETE (R154): the first fence of a queue whose commands have all completed completes; nothing else holds it. -/
def execQfenceComplete (core q : Nat) (s : State) : Out :=
  .next (if (coreAt s core).fenced then s
    else
      let done (id : Nat) : Bool := match (cmdAt s id).kind with
        | .fence ids => !ids.any (fun j => (tGet? s.cmds j).isSome)
        | _ => false
      match (nth [] (coreAt s core).queues q).find? done with
      | some id => dropCmd s id
      | none => s)

/-- SGSET_COMPLETE (R152, R283): every stack's table holds the entry. -/
def execSgsetComplete (id : Nat) (s : State) : Out :=
  .next (match tGet? s.cmds id with
    | some c =>
      (match c.kind with
       | .sgset e p =>
         if cmdHeld s c then s
         else completeCmd ((List.range 4).foldl (fun s d => modDie s d (fun x => { x with pats := smSet [] x.pats e p })) s) id none
       | _ => s)
    | none => s)

end Sys2Proof.Machine
end

