-- ==== Sys2Proof/Machine/EvColl.lean ====
section
/-! DEFINITION. The collective engines (R280 to R282), and the kicks that wait for them. -/

namespace Sys2Proof.Machine

/-! ### Collective records (R281) -/

def coOp (r : List Byte) : Nat := fld r 0 1
def coType (r : List Byte) : Nat := fld r 1 1
def coCid (r : List Byte) : Nat := fld r 2 2
def coNmem (r : List Byte) : Nat := fld r 4 2
def coRank (r : List Byte) : Nat := fld r 6 2
def coSrc (r : List Byte) : Nat := fld r 8 8
def coDst (r : List Byte) : Nat := fld r 16 8
def coCount (r : List Byte) : Nat := fld r 24 4
def coArr (r : List Byte) : Bool := bit (fld r 31 1) 0

/-- The arrival of a collective. -/
def coArrival (r : List Byte) : Option (Nat × Nat) := if coArr r then some (fld r 28 2, fld r 30 1) else none

/-- Element format of a TYPE. -/
def coFmt (r : List Byte) : Option Fmt :=
  match coType r with
  | 0 => some .i32
  | 8 => some .f32
  | 9 => some .f16
  | 0xA => some .bf16
  | _ => none

/-- What members have in common holds no reserved value: OP, TYPE, NMEM and COUNT; false gives ACCESS. -/
def coHead (r : List Byte) : Bool :=
  decide (coOp r ≤ 3) && (coFmt r).isSome && decide (2 ≤ coNmem r) && decide (coNmem r ≤ 1536) &&
    decide (1 ≤ coCount r) && decide (coCount r ≤ 2 ^ 28) && (coOp r != 1 || coCount r % coNmem r == 0)

/-- What is a member's own is in range: its rank and its arrival; false gives ACCESS. -/
def coSelf (s : State) (c : Cmd) (r : List Byte) : Bool :=
  decide (coRank r < coNmem r) && (if coArr r then decide (1 ≤ fld r 30 1) && (cmdBar s c.by_ (fld r 28 2)).isSome else fld r 30 1 == 0)

/-- The record of a collective command. -/
def coRec (c : Cmd) : List Byte :=
  match c.kind with
  | .coll r => r
  | _ => []

/-! ### Results (R282) -/

/-- Sum(i) of the codes of element i in rank order. -/
def coSum (f : Fmt) : List Nat → Nat
  | [] => 0
  | x :: xs => xs.foldl (fun acc y =>
      if f = .i32 then (acc + y) % 2 ^ 32 else roundNE f (fvSum false [term (fmtDecode f acc), term (fmtDecode f y)])) x

/-- Elements that rank r receives, in order, from the inputs by rank. -/
def coResult (op nmem count r : Nat) (f : Fmt) (xs : List (List Nat)) : List Nat :=
  let sum (i : Nat) : Nat := coSum f (xs.map (fun x => nth 0 x i))
  match op with
  | 0 => (List.range count).map sum
  | 1 => (List.range (count / nmem)).map (fun i => sum (r * (count / nmem) + i))
  | 2 => xs.flatMap id
  | _ => xs.headD []

/-! ### Reading and writing members' memory -/

/-- Pieces of a run of bytes that lie in one 8-byte cell each. -/
def cellPieces (a n : Nat) : List (Nat × Nat) :=
  let k := 8 - a % 8
  if n ≤ k then [(a % 2 ^ 64, n)] else [(a % 2 ^ 64, k), ((a + k) % 2 ^ 64, n - k)]

/-- Join two outcomes: the first that is not bytes counts. -/
def joinOut (x y : EngOut) : EngOut :=
  match x, y with
  | .ok a, .ok b => .ok (a ++ b)
  | .ok _, y => y
  | x, _ => x

/-- One element of n bytes at an address. -/
def coElem (s : State) (i : Issuer) (got : PlGot) (a n : Nat) : EngOut :=
  (cellPieces a n).foldl (fun r p => joinOut r (engRead s i (BitVec.ofNat 64 p.1) p.2 got)) (.ok [])

/-- Elements of plated pages that an element of n bytes is made of. -/
def coNeed (s : State) (i : Issuer) (a n : Nat) : List (Nat × Nat) := ((cellPieces a n).flatMap (fun p => plNeed s i (BitVec.ofNat 64 p.1) p.2)).eraseDups

/-- The next of them that a member has yet to read is read, in one step (R254). -/
def coPlate (s : State) (id a n : Nat) : Option State :=
  let c := cmdAt s id
  ((coNeed s c.by_ a n).find? (fun p => !c.plGot.any (fun g => g.1 == p.1 && g.2.1 == p.2))).bind (fun p =>
    match plLoad s p.1 p.2 with
    | .val x => some (modCmd (plMet s c.by_.launch p.1 p.2) id (fun c => { c with plGot := c.plGot ++ [(p.1, p.2, x)] }))
    | _ => none)

/-- The pages of a member that a check is made of: the addresses of its elements, sources or destinations. -/
def coAddrs (r : List Byte) (dst : Bool) (w : Nat) : List Nat :=
  let n := if dst then (match coOp r with
    | 1 => coCount r / coNmem r
    | 2 => coCount r * coNmem r
    | _ => coCount r) else coCount r
  (List.range n).flatMap (fun i => (cellPieces ((if dst then coDst r else coSrc r) + i * w) w).map (fun p => p.1))

/-- Bytes of an element of a member. -/
def coWidth (r : List Byte) : Nat := ((coFmt r).map (fun f => fmtWidth f / 8)).getD 4

/-- The first trouble at a member's destination: its address and outcome. -/
def coTrouble (s : State) (c : Cmd) : Option (Nat × EngOut) :=
  (coAddrs (coRec c) true (coWidth (coRec c))).findSome? (fun a =>
    match engDest s c.by_ (BitVec.ofNat 64 a) with
    | .ok _ => none
    | x => some (a, x))

/-- Write one result element of a member at its owner. -/
def coWrite (s : State) (id a w x : Nat) : State :=
  (pagePieces a (leBytes w x)).foldl (fun s q =>
    let i := (cmdAt s id).by_
    let va := BitVec.ofNat 64 q.1
    match engOut s i va q.2 with
    | some o => modCmd (cmdPut (walkPin (outFill s i va) id true va) id o) id (fun c => { c with written := c.written + q.2.length })
    | none => s) s

/-! ### Events -/

/-- KICK_APPEND (R280): a kick that found the queue full. -/
def execKickAppend (die k : Nat) (s : State) : Out := .next (kickAppend s die k)

/-- Fault members of a collective. -/
def coFault (s : State) (ids : List Nat) (x : Cause) : State :=
  ids.foldl (fun s id => faultCmd s id x (coArrival (coRec (cmdAt s id)))) s

/-- The meeting of a CID of a context that has not run. -/
def meetOf (s : State) (ctx cid : Nat) : Option (Nat × Meet) :=
  s.meets.find? (fun m => m.2.ctx == ctx && m.2.cid == cid)

/-- Two members agree. -/
def coAgree (a b : List Byte) : Bool := coOp a == coOp b && coType a == coType b && coNmem a == coNmem b && coCount a == coCount b

/-- The records of the members that have come, by rank. -/
def meetRecs (s : State) (m : Meet) : List (Nat × List Byte) :=
  m.members.map (fun p => (p.1, coRec (cmdAt s p.2))) ++ m.peers.map (fun p => (p.1, p.2.1))

/-- A member with record r comes to the meeting of its CID; one that does not fit faults every member (R282). `good` says that its own fields are
in range: else it faults, and takes no part in a meeting that it fits. `join` adds it to the meeting, `fail` faults it. -/
def coMeet (s : State) (ctx : Nat) (r : List Byte) (good : Bool) (join : Meet → Meet) (fail : State → State) : State :=
  match meetOf s ctx (coCid r) with
  | none =>
    let m : Meet := { ctx := ctx, cid := coCid r, nmem := coNmem r, members := [], come := 1 }
    let f := takeFresh s
    if !coHead r then fail { f.2 with meets := tPut f.2.meets f.1 { m with broken := true } }
    else if !good then fail s
    else { f.2 with meets := tPut f.2.meets f.1 (join m) }
  | some (k, m) =>
    let fits : Bool := (meetRecs s m).all (fun p => coAgree p.2 r)
    let n := if coHead r then max m.nmem (coNmem r) else m.nmem
    let done : Bool := decide (n ≤ m.come + 1)
    if m.broken then fail { s with meets := if done then tDel s.meets k else tPut s.meets k { m with nmem := n, come := m.come + 1 } }
    else if fits && !good then fail s
    else if fits && (meetRecs s m).all (fun p => p.1 != coRank r) then { s with meets := tPut s.meets k (join { m with come := m.come + 1 }) }
    else
      let b : Meet := { m with nmem := n, broken := true, members := [], peers := [], got := [], put := [], come := m.come + 1 }
      let s := { s with meets := if done then tDel s.meets k else tPut s.meets k b }
      fail (coFault s (m.members.map (fun p => p.2)) .access)

/-- COLLECTIVE_RENDEZVOUS (R282): the next entry of a die's queue, or a member on another package, comes to the meeting of its CID. -/
def execCollectiveRendezvous (w : Comer) (s : State) : Out :=
  .next (match w.peer with
    | some (ctx, r, xs) => if s.netStopped then s else coMeet s ctx r (decide (coRank r < coNmem r)) (fun m => { m with peers := m.peers ++ [(coRank r, r, xs)] }) id
    | none =>
      match (dieAt s w.die).collQ.find? (fun id => (cmdAt s id).state == .queued) with
      | some id =>
        let c := cmdAt s id
        let r := coRec c
        if cmdHeld s c then s
        else
          coMeet (modCmd s id (fun c => { c with state := .running })) (issuerCtx s c.by_) r (coSelf s c r)
            (fun m => { m with members := m.members ++ [(coRank r, id)] }) (fun s => coFault s [id] .access)
      | none => s)

/-- Every entry before a member in its queue has run or belongs to the same meeting (R280). -/
def coTurn (s : State) (m : Meet) (id : Nat) : Bool :=
  let q := (dieAt s (dieOf (cmdAt s id).by_.core)).collQ
  (q.takeWhile (fun j => j != id)).all (fun j => (cmdAt s j).state == .landed || m.members.any (fun p => p.2 == j))

/-- Launches of the members. -/
def meetLaunches (s : State) (m : Meet) : List Nat := (m.members.map (fun p => (cmdAt s p.2).by_.launch)).eraseDups

/-- A meeting is complete and may run: every rank is here, every entry before them has run, no page is being waited for. -/
def meetReady (s : State) (m : Meet) : Bool :=
  !m.broken && decide (m.members.length + m.peers.length = m.nmem) && m.members.all (fun p => coTurn s m p.2) &&
    m.members.all (fun p => (cmdAt s p.2).fix.all (fun x => x.present) && !cmdHeld s (cmdAt s p.2))

/-- A member asks for a page that is not there (R273, R319). -/
def coAsk (s : State) (id : Nat) (dst : Bool) (a : Nat) (ab : Bool) (st lv : Nat) : State :=
  let c := cmdAt s id
  let f : OpenFault :=
    { page := pageSpan s c.by_.vmid c.by_.asid (BitVec.ofNat 64 a)
      r := { va := BitVec.ofNat 64 a, asid := c.by_.asid, vmid := c.by_.vmid, source := 5, acc := b2n dst, where_ := faultWhere ab st lv,
             core := 0xFFFF, slot := 0, tag := 0 },
      absent := ab, uid := none, cmd := some id }
  let p := postFault s f
  if p.2 = 0 then p.1
  else modCmd p.1 id (fun c => { c with fix := c.fix ++ [segOf s c dst a 0 0 p.2] })

/-- A member's trouble: it asks for its page, or every member faults (R282). -/
def coStop (s : State) (k id : Nat) (dst : Bool) (a : Nat) (x : EngOut) : State :=
  let ids := ((tGet? s.meets k).map (fun m => m.members.map (fun p => p.2))).getD []
  match x with
  | .ok _ => s
  | .absent ab st lv => coAsk s id dst a ab st lv
  | .bad e => coFault { s with meets := tDel s.meets k } ids e
  | .poison keys =>
    ids.foldl (fun s id =>
      let s := engPoison s id keys false
      if (cmdAt s id).fault.isSome then completeCmd s id (coArrival (coRec (cmdAt s id))) else s) { s with meets := tDel s.meets k }

/-- The next input element to read, of the first member that has some left: its command, its rank, its address. -/
def coNext (s : State) (m : Meet) : Option (Nat × Nat × Nat) :=
  m.members.findSome? (fun p =>
    let r := coRec (cmdAt s p.2)
    let i := ((tGet? m.got p.1).getD []).length
    if i < coCount r then some (p.2, p.1, coSrc r + i * coWidth r) else none)

/-- Read on by n steps at the owners: an input element in one, or an element of a plated page that it is made of (R222, R254); the page that a member
is at is pinned (R274). -/
def coReadMany (k : Nat) : Nat → State → State
  | 0, s => s
  | n + 1, s =>
    match tGet? s.meets k with
    | none => s
    | some m =>
      match coNext s m with
      | none => s
      | some (id, rank, a) =>
        let c := cmdAt s id
        let w := coWidth (coRec c)
        match coPlate s id a w with
        | some s => coReadMany k n s
        | none =>
        match coElem s c.by_ c.plGot a w with
        | .ok bs =>
          let s := (cellPieces a w).foldl (fun s p => walkPin (engMet s c.by_ (BitVec.ofNat 64 p.1) p.2 c.plGot) id false (BitVec.ofNat 64 p.1)) s
          let next := coNeed s c.by_ (a + w) w
          let s := modCmd s id (fun c => { c with plGot := c.plGot.filter (fun g => next.contains (g.1, g.2.1)) })
          let got := tPut m.got rank ((tGet? m.got rank).getD [] ++ [leNat bs])
          coReadMany k n { s with meets := tPut s.meets k { m with got := got } }
        | x => coStop s k id false a x

/-- The results to write, once every input is read: command, index, address, bytes of an element and code (R282). -/
def coWords (s : State) (m : Meet) : List (Nat × Nat × Nat × Nat × Nat) :=
  let xs := (List.range m.nmem).map (fun r => match tGet? m.peers r with
    | some p => p.2
    | none => (tGet? m.got r).getD [])
  m.members.flatMap (fun p =>
    let r := coRec (cmdAt s p.2)
    let w := coWidth r
    (coResult (coOp r) m.nmem (coCount r) p.1 ((coFmt r).getD .f32) xs).zipIdx.map (fun x => (p.2, x.2, coDst r + x.2 * w, w, x.1)))

/-- REPLAY launches whose collective takes in a member outside them cannot be contained (R350, R352). -/
def coContain (s : State) (m : Meet) : State :=
  let ls := meetLaunches s m
  if 1 < ls.length ∨ m.peers ≠ [] then ls.foldl (fun s l => if isReplay (launchAt s l)
    then modLaunch s l (fun l => { l with notContainable := true }) else s) s else s

/-- Write at most n of the results that are left, in an order that nothing fixes (R222). -/
def coPutMany (k : Nat) : Nat → List (Nat × Nat × Nat × Nat × Nat) → State → State
  | 0, _, s => s
  | n + 1, ws, s =>
    match ws[(Config.freeWord s.free).toNat % ws.length]? with
    | none => s
    | some x =>
      let s := coWrite { s with free := s.free + 1 } x.1 x.2.2.1 x.2.2.2.1 x.2.2.2.2
      coPutMany k n (ws.erase x) { s with meets := tMod s.meets k (fun m => { m with put := m.put ++ [(x.1, x.2.1)] }) }

/-- Write on by n results; after the last the members' commands have moved their data. -/
def coWriteMany (s : State) (k n : Nat) (m : Meet) : State :=
  let ws := (coWords s m).filter (fun x => !m.put.contains (x.1, x.2.1))
  let s := coPutMany k n ws (coContain s m)
  if n < ws.length then s
  else
    let s := m.members.foldl (fun s p =>
      let c := cmdAt s p.2
      modCmd (walkUnpin (unpinAll s c.by_.vmid c.by_.asid c.fix) p.2) p.2 (fun c => { c with state := .landed, fix := [], t2 := s.gtick.toNat })) s
    { s with meets := tDel s.meets k }

/-- COLLECTIVE_START (R282): the meeting of that number runs, where every page is there: it reads so many further elements of its members'
inputs, and writes as many of their results once all are read; at what pace nothing fixes. A member's page that is denied or its detected error faults every
member. -/
def execCollectiveStart (w : Paced) (s : State) : Out :=
  let k := w.of
  .next (match tGet? s.meets k with
    | none => s
    | some m =>
      if !meetReady s m then s
      else match m.members.findSome? (fun p => (coTrouble s (cmdAt s p.2)).map (fun t => (p.2, t))) with
        | some (id, a, x) => coStop s k id true a x
        | none =>
          let s := coReadMany k w.n s
          match tGet? s.meets k with
          | none => s
          | some m => if (coNext s m).isSome || !meetReady s m then s else coWriteMany s k w.n m)

/-- COLLECTIVE_COMPLETE (R144, R282): the head of its die's queue, whose results are written. -/
def execCollectiveComplete (id : Nat) (s : State) : Out :=
  .next (match tGet? s.cmds id with
    | some c =>
      (match c.kind with
       | .coll r =>
         if c.state ≠ .landed ∨ cmdHeld s c ∨ (dieAt s (dieOf c.by_.core)).collQ.head? ≠ some id then s
         else completeCmd s id (coArrival r)
       | _ => s)
    | none => s)

end Sys2Proof.Machine
end

