-- ==== Sys2Proof/Machine/EvCore.lean ====
section
/-! DEFINITION. Steps of a core's fetch and of its scoreboard: FILL, LOOP_BUFFER_REFILL, CODE_PREFETCH, RESULT_WRITEBACK,
SLEEP_END (R32 to R39, R194, R109, R101). A step whose condition does not hold changes nothing. -/

namespace Sys2Proof.Machine

/-- Groups that hold a slot on a core. -/
def groupsOn (s : State) (core : Nat) : List (Nat × Group) :=
  s.groups.filter (fun p => (slotOf p.2).isSome && (gangAt s p.2.gang).core == core)

/-- The word that a lane runs next, where it is inside a block. -/
def nextPc (ln : Lane) : Option W64 :=
  match ln.at_ with
  | .word _ _ pc _ => if running ln then some pc else none
  | .enter .. => none

/-- The first lane of a core whose next word is at an address: its group and lane. -/
def wanting (s : State) (core : Nat) (pc : W64) : Option (Nat × Nat) :=
  (groupsOn s core).findSome? (fun p =>
    ((List.range 32).find? (fun l => nextPc (laneAt p.2 l) == some pc)).map (fun l => (p.1, l)))

/-- What a fill of the word at pc reads, for a lane of group u in mode m: its translations are held, and the errors that it meets counted (R315,
R338). -/
def fillMet (s : State) (u core : Nat) (m : Mode) (pc : W64) : State :=
  let c := ctxOf s u
  let read (s : State) (va : W64) (r : Reach) (n : Nat) : State :=
    reachMet (reachFill s (launchOf s u) (vmidOf s c) (asidOf s c) va r) (launchOf s u) (codeReach r) n
  let r := reach s (vmidOf s c) (asidOf s c) pc .fetch m
  let n := if (lineWord (coreAt s core) pc).isSome then 0 else lenOf ((reachBytes s r pc 1).headD 0)
  if pageRest pc < n then
    let pc2 := pc + BitVec.ofNat 64 (pageRest pc)
    read (read s pc r (pageRest pc)) pc2 (reach s (vmidOf s c) (asidOf s c) pc2 .fetch m) (n - pageRest pc)
  else read s pc r n

/-- FILL (R32, R35): a word that a thread of the core needs is read and expanded. -/
def execFill (core va : Nat) (s : State) : Out :=
  let pc := BitVec.ofNat 64 va
  match wanting s core pc with
  | none => .next s
  | some (u, l) =>
    let c := ctxOf s u
    let m := (lane s u l).mode
    let w := fillWord s core (vmidOf s c) (asidOf s c) m pc
    let s := fillMet s u core m pc
    .next (modCore { s with free := s.free + 16 } core (fun k => putWord k w))

/-- The next address of a thread: the header of a block whose first word is next. -/
def nextAddr (p : Pos) : W64 :=
  match p with
  | .word h _ pc _ => if pc = h + 8 then h else pc
  | .enter h _ _ => h

/-- The next address and mode of the lowest lane that is neither waiting nor exited (BFA and BMODE, R192). -/
def bfa (g : Group) : Option (W64 × Mode) := (g.lanes.find? running).map (fun ln => (nextAddr ln.at_, ln.mode))

/-- The word at an address in the loop buffer of a lane. -/
def bufWord (c : Core) (slot l : Nat) (pc : W64) : Option IWord :=
  ((tGet? c.loopBuf (slot * 32 + l)).getD {}).words.find? (fun w => w.va == pc)

/-- A word of the block that a loop buffer keeps. -/
def bufKeeps (b : LoopBuf) (w : IWord) : Bool :=
  match b.keep with
  | some (h, n) => decide (h.toNat ≤ w.va.toNat) && decide (w.va.toNat < h.toNat + n)
  | none => false

/-- A word comes into a loop buffer of 48 words, for the oldest that is not of the block it keeps, or for the oldest (R38). -/
def bufPut (b : LoopBuf) (w : IWord) : LoopBuf :=
  let ws := if b.words.length < 48 then b.words
    else match b.words.find? (fun x => !bufKeeps b x) with
      | some x => b.words.erase x
      | none => b.words.drop 1
  { b with words := ws ++ [w] }

/-- Lane l of a group fetches from its loop buffer (R192) and lacks its next word there, which the cache holds (R194). -/
def refillDue (c : Core) (g : Group) (slot l : Nat) : Option W64 :=
  let ln := laneAt g l
  match nextPc ln with
  | none => none
  | some pc =>
    if bfa g = some (nextAddr ln.at_, ln.mode) then none
    else if (bufWord c slot l pc).isSome then none
    else if (wordAt c pc).isSome then some pc else none

/-- Key slot * 32 + lane of each refill that is due on a pipe, with its word. -/
def refillsDue (s : State) (core pipe : Nat) : List (Nat × W64) :=
  (groupsOn s core).flatMap (fun p =>
    match slotOf p.2 with
    | none => []
    | some slot =>
      if slot % 4 = pipe then
        (List.range 32).filterMap (fun l => (refillDue (coreAt s core) p.2 slot l).map (fun pc => (slot * 32 + l, pc)))
      else [])

/-- The next of the refills after key k, counting cyclically (R194). -/
def nextRefill (k : Nat) (ds : List (Nat × W64)) : Option (Nat × W64) :=
  ds.foldl (fun r d => match r with
    | none => some d
    | some e => if (d.1 + 1024 - k - 1) % 1024 < (e.1 + 1024 - k - 1) % 1024 then some d else r) none

/-- LOOP_BUFFER_REFILL (R38, R194): the pipe grants the next refill that is due, one in a cycle. -/
def execLoopBufferRefill (core pipe : Nat) (s : State) : Out :=
  let c := coreAt s core
  match (if nth false c.refilled pipe then none else nextRefill (nth 0 c.refill pipe) (refillsDue s core pipe)) with
  | none => .next s
  | some (k, pc) =>
    match wordAt c pc with
    | none => .next s
    | some w =>
      .next (modCore s core (fun c => { c with
        loopBuf := tPut c.loopBuf k (bufPut ((tGet? c.loopBuf k).getD {}) w)
        refill := setNth c.refill pipe k
        refilled := setNth c.refilled pipe true }))

/-- CODE_PREFETCH (R39): a line that a block's PREF asks for; it is dropped where it is absent, not executable or no code. -/
def execCodePrefetch (core va : Nat) (s : State) : Out :=
  let a := BitVec.ofNat 64 va
  let k := coreAt s core
  if !k.wanted.contains a then .next s
  else
    let c := k.ctx.getD 0
    let s := modCore s core (fun k => { k with wanted := k.wanted.filter (fun x => x != a) })
    match codeReach (reach s (vmidOf s c) (asidOf s c) a .fetch .s) with
    | .page p o pa =>
      if reachPoisoned s (.page p o pa) 64 then .next s
      else .next (modCore s core (fun k => { k with lines := (k.lines.drop (k.lines.length - 63)) ++ [(a, reachBytes s (.page p o pa) a 64)] }))
    | _ => .next s

/-- A pending result of a group is written (R109, R126): its registers, the stores of a stream destination; its access is done. -/
def writePend (s : State) (uid id : Nat) : State :=
  match tGet? (grp s uid).pend id with
  | none => s
  | some p =>
    let s := p.writes.foldl (fun s w => applyWrite s uid w) s
    let s := p.stores.foldl pushEntry s
    let s := modGrp s uid (fun g => { g with pend := tDel g.pend id })
    match p.acc with
    | some a => endAcc s uid a
    | none => s

/-- RESULT_WRITEBACK (R109, R126). -/
def execResultWriteback (uid id : Nat) (s : State) : Out := .next (writePend s uid id)

/-- SLEEP_END (R101): GTICK has advanced by the duration. -/
def execSleepEnd (uid l : Nat) (s : State) : Out :=
  match (lane s uid l).st with
  | .wait (.sleep t) => if t ≤ s.gtick.toNat then .next (finishWait s uid l) else .next s
  | _ => .next s

end Sys2Proof.Machine
end

