-- ==== Sys2Proof/Machine/Place.lean ====
section
/-! DEFINITION. Placement: a core's room for gangs (R195, R16, R209), starting gangs, tasks and galleys (R196, R198, R331), and the
order of claims (R197). -/

namespace Sys2Proof.Machine

/-! ### Room on a core (R195) -/

/-- A group holds its slot: until it ended and its accesses are done (R100, R199). -/
def holdsSlot (g : Group) : Option Nat :=
  if g.ended && g.ld == 0 && g.st == 0 then none else slotOf g

/-- Free slots of a core. -/
def freeSlots (s : State) (core : Nat) : List Nat :=
  let used := (s.groups.filter (fun p => (gangAt s p.2.gang).core == core)).filterMap (fun p => holdsSlot p.2)
  (List.range 32).filter (fun n => !used.contains n)

/-- Raw storage of a tile of a class, in 35ths of a byte (R209). -/
def tileCharge : RClass → Nat
  | .proof => 4096 * 36 * 35 / 32
  | .check => 4096 * 36
  | .draft => 4096 * 35

/-- Raw bytes of a column that a private slice of n bytes takes (R209). -/
def privCharge (c : RClass) (n : Nat) : Nat :=
  match c with
  | .proof => n
  | .check => (n * 32 + 34) / 35
  | .draft => (n * 8 + 8) / 9

/-- The gangs on a core. -/
def gangsOn (s : State) (core : Nat) : List Gang := (s.gangs.filter (fun p => p.2.core == core)).map (fun p => p.2)

/-- What a gang asks of its core. -/
structure Need where
  groups : Nat
  privsz : Nat
  cls : RClass
  tiles : Nat
  rows : Nat
  banks : Nat
  bars : Nat
  deriving DecidableEq, Repr

/-- Sum of a number over a list. -/
def sumOf {α : Type} (f : α → Nat) (l : List α) : Nat := l.foldl (fun n x => n + f x) 0

/-- Times that a need fits into what these gangs and free slots leave (R195); at most 32. -/
def roomFor (gs : List Gang) (slots : Nat) (n : Need) : Nat :=
  let fits (k : Nat) : Bool :=
    decide (k * n.groups ≤ slots) &&
      decide (sumOf (fun g => g.groups.length * privCharge g.kclass g.privsz) gs + k * n.groups * privCharge n.cls n.privsz ≤ 65536) &&
      decide (sumOf (fun g => g.tiles * tileCharge g.kclass) gs + k * n.tiles * tileCharge n.cls ≤ 512 * tileCharge .proof) &&
      decide (sumOf (fun g => g.accrows) gs + k * n.rows ≤ 512) &&
      decide (sumOf (fun g => g.banks.length) gs + k * n.banks ≤ 2) &&
      decide (sumOf (fun g => g.bars.length) gs + k * n.bars ≤ 16)
  ((List.range 33).filter fits).getLastD 0

/-- Times that a need fits on a core now. -/
def roomOn (s : State) (core : Nat) (n : Need) : Nat := roomFor (gangsOn s core) (freeSlots s core).length n

/-- PRIVATE, TILES, ACCROWS, GROUPS and BANKS of an image (R327). -/
def imgPrivate (l : Launch) : Nat := fld l.img 32 4
def imgTiles (l : Launch) : Nat := fld l.img 38 2
def imgRows (l : Launch) : Nat := fld l.img 40 2
def imgGroups (l : Launch) : Nat := fld l.img 42 1
def imgBanks (l : Launch) : Nat := fld l.img 72 1
def imgCblen (l : Launch) : Nat := fld l.img 36 2

/-- What a gang of a launch asks for; a task or galley group asks for less (R198). -/
def gangNeed (l : Launch) : Need := ⟨imgGroups l, imgPrivate l, imgKclass l, imgTiles l, imgRows l, imgBanks l, imgBars l .core⟩
def soloNeed (l : Launch) : Need := ⟨1, imgPrivate l, imgKclass l, 0, 0, 0, imgBars l .core⟩

/-! ### Cores that may start work (R195, R304, R347) -/

/-- Work of a context may start on a core: loaded for it, no pre-emption in course. -/
def coreOpen (s : State) (core ctx : Nat) : Bool :=
  corePresent s core && (coreAt s core).ctx == some ctx && (coreAt s core).preempt.isNone && s.pkg == .ready

/-- A launch may start work: it is running, not halted, not to be replayed, its context enabled. -/
def launchOpen (s : State) (k : Nat) : Bool :=
  let l := launchAt s k
  l.state == .running && !l.halted && !l.replayDue && ctxEnabled (ctxAt s l.ctx)

/-! ### Reading for a start -/

/-- The Foreman as an issuer for a context: it reads in S mode. -/
def foreman (s : State) (ctx k : Nat) : Issuer := ⟨0, 0, 0, k, vmidOf s ctx, asidOf s ctx, .s, 0, 0⟩

/-- The first of n words at a pointer whose page is absent and is to be brought in first (R318, R319). -/
def foreWordsAbsent (s : State) (i : Issuer) (va n : Nat) : Option (Nat × Nat × Nat) :=
  (List.range n).findSome? (fun j => match engRead s i (BitVec.ofNat 64 (va + 4 * j)) 4 with
    | .absent true st lv => some (va + 4 * j, st, lv)
    | _ => none)

/-- The errors that the Foreman meets in n words at a pointer are counted for the launch (R338, R355). -/
def foreMet (s : State) (i : Issuer) (va n : Nat) : State :=
  (List.range n).foldl (fun s j => engMet s i (BitVec.ofNat 64 (va + 4 * j)) 4) s

/-- n little-endian words that the Foreman reads at a pointer; those that it cannot read are not fixed. -/
def foreWords (s : State) (i : Issuer) (va : Nat) (n : Nat) : List W32 :=
  (List.range n).map (fun j => match engRead s i (BitVec.ofNat 64 (va + 4 * j)) 4 with
    | .ok bs => BitVec.ofNat 32 (leNat bs)
    | _ => (Config.freeWord (s.free + j)).setWidth 32)

/-! ### Starting groups (R196) -/

/-- A thread at its start: entry, the registers that the starting record sets, and whether it acquires at pkg scope. -/
def startLane (s : State) (l : Launch) (entry : W64) (vs : List W32) (acq : Bool) : Lane :=
  { v := ((List.range vs.length).zip vs).foldl (fun m p => smSet 0 m p.1 p.2) []
    at_ := .enter entry .start entry
    st := .run
    readyAt := s.cycle + 1
    rclass := imgKclass l
    tvec := imgTvec l
    hvec := (ctxAt s l.ctx).hvec
    acqStep := if acq then s.mstep else 0
    recs := [{ regpc := entry, reghdr := entry }, {}, {}, {}, {}] }

/-- The two words of a 64-bit value. -/
def pairWords (x : Nat) : List W32 := [BitVec.ofNat 32 x, BitVec.ofNat 32 (x / 2 ^ 32)]

/-- Slots for n groups of a gang (R195): each next group goes to a pipe with as few of them as any pipe with a free slot; which of its
free slots it takes is left open. -/
def pickSlots (free : Nat) : Nat → List Nat → List Nat → List Nat
  | 0, _, got => got
  | n + 1, slots, got =>
    let load (x : Nat) : Nat := (got.filter (fun y => y % 4 == x % 4)).length
    let least := slots.foldl (fun m x => min m (load x)) 32
    let cands := slots.filter (fun x => load x == least)
    match cands[(Config.freeWord free).toNat % cands.length]? with
    | some x => pickSlots (free + 1) n (slots.filter (fun y => y != x)) (got ++ [x])
    | none => got

/-- The first word of the constant bank or of the tile tags that a gang's start reads and whose page is absent (R331). -/
def startAbsent (s : State) (k tiles : Nat) : Option (Nat × Nat × Nat) :=
  let l := launchAt s k
  let i := foreman s l.ctx k
  match foreWordsAbsent s i (fld l.img 0 8) (imgCblen l) with
  | some x => some x
  | none => foreWordsAbsent s i (fld l.img 8 8) tiles

/-- Constant-bank words of a launch, as copied at a group's start (R331). -/
def bankWords (s : State) (l : Launch) (k : Nat) : SMap W32 :=
  let ws := foreWords s (foreman s l.ctx k) (fld l.img 0 8) (imgCblen l)
  ((List.range ws.length).zip ws).foldl (fun m p => smSet 0 m p.1 p.2) []

/-- Scratch bytes at a gang's start: 0, or one left by an earlier gang of the context (R205, assumption 5). -/
def startScratch (s : State) (core tiles : Nat) : SMap Byte :=
  (((coreAt s core).leftover.filter (fun p => decide (p.1 < 4096 * tiles))).zip
    (List.range (coreAt s core).leftover.length)).filterMap (fun p => if bit (Config.freeWord (s.free + p.2)).toNat 0 then some p.1 else none)

/-- The loop buffers of a slot hold nothing of the group that takes it (R38). -/
def clearBufs (s : State) (core slot : Nat) : State :=
  modCore s core (fun c => { c with loopBuf := c.loopBuf.filter (fun b => b.1 / 32 != slot) })

/-- Put a gang with its groups on a core: `lanes` gives the threads of each group. -/
def startGang (s : State) (core k : Nat) (n : Need) (idx : Nat) (start : StartKind) (lanes : Nat → List Lane) : State :=
  let l := launchAt s k
  let slots := pickSlots s.free n.groups (freeSlots s core) []
  let s := { s with free := s.free + n.groups }
  let cb := bankWords s l k
  let gid := s.fresh
  let uids := (List.range n.groups).map (fun j => gid + 1 + j)
  let tags := if n.tiles = 0 then [] else foreWords { s with free := s.free + 4096 } (foreman s l.ctx k) (fld l.img 8 8) n.tiles
  let gang : Gang :=
    { core := core, launch := k, index := idx, groups := uids, privsz := n.privsz, kclass := n.cls, tiles := n.tiles,
      tags := ((List.range tags.length).zip tags).foldl (fun m p => smSet 0 m p.1 (p.2 &&& 0xFFFF)) [],
      scratch := startScratch { s with free := s.free + 8192 } core n.tiles, accrows := n.rows,
      banks := List.replicate n.banks {}, bars := List.replicate n.bars { expect := BitVec.ofNat 32 (32 * n.groups) } }
  let s := { s with fresh := gid + 1 + n.groups, free := s.free + 8192 + (coreAt s core).leftover.length, gangs := tPut s.gangs gid gang }
  let s := foreMet s (foreman s l.ctx k) (fld l.img 0 8) (imgCblen l)
  let s := slots.foldl (fun s x => clearBufs s core x) (foreMet s (foreman s l.ctx k) (fld l.img 8 8) n.tiles)
  (List.range n.groups).foldl (fun s j =>
    let g : Group := { gang := gid, gidx := j, place := .resident (nth 0 slots j), lanes := lanes j, start := start, cbank := cb, cblen := imgCblen l }
    { s with groups := tPut s.groups (gid + 1 + j) g }) s

/-! ### Gangs of a launch -/

/-- Gangs of a launch's grid. -/
def gridSize (l : Launch) : Nat := l.gx * l.gy * l.gz

/-- Start one more gang of a launch on a core; which of those left it is, is left open (R329, R331). -/
def startNext (s : State) (k core : Nat) : State :=
  let l := launchAt s k
  let left := gridSize l - l.placed.length
  let i := lacking l.placed ((Config.freeWord s.free).toNat % left)
  let s := { s with free := s.free + 1 }
  let x := i % l.gx
  let y := i / l.gx % l.gy
  let z := i / (l.gx * l.gy)
  let vs := pairWords (fld l.record 8 8) ++ [BitVec.ofNat 32 (x + y * 2 ^ 16), BitVec.ofNat 32 z]
  let ln := startLane s l (BitVec.ofNat 64 (fld l.record 0 8)) vs true
  let s := startGang s core k (gangNeed l) i .launch (fun _ => List.replicate 32 ln)
  modLaunch s k (fun l => { l with placed := insertRising i l.placed })

/-- Flags of a record. -/
def recFlag (l : Launch) (i : Nat) : Bool := bit (fld l.record 23 1) i

/-- A launch has a gang that may start on a core now; a COHABIT launch has them start all at once (R330). -/
def gangDue (s : State) (k core : Nat) : Bool :=
  let l := launchAt s k
  launchOpen s k && l.held.isEmpty && decide (l.placed.length < gridSize l) && coreOpen s core l.ctx && decide (0 < roomOn s core (gangNeed l)) &&
    (!recFlag l 1 || decide (gridSize l ≤ sumOf (fun c => if coreOpen s c l.ctx then roomOn s c (gangNeed l) else 0) (List.range 192)))

/-! ### Claims (R197) -/

/-- A saved group's restore is due, and no debug halt holds it (R302). -/
def restoreOk (s : State) (u : Nat) : Bool :=
  let g := grp s u
  (match g.place with
   | .saved _ due => due
   | _ => false) && g.halted.isEmpty && !g.stopped && !(gangOf s u).moved && corePresent s (gangOf s u).core &&
    !(launchAt s (launchOf s u)).replayDue && !(freeSlots s (gangOf s u).core).isEmpty

/-- A group of a fenced gang may move (R347): it is saved, or it ended and its accesses are done. -/
def mayMove (g : Group) : Bool :=
  g.halted.isEmpty && !g.stopped && (match g.place with
    | .saved .. => true
    | _ => g.ended && g.ld == 0 && g.st == 0)

/-- What a fenced gang asks of its next core. -/
def moveNeed (s : State) (g : Gang) : Need :=
  ⟨(g.groups.filter (fun u => !(grp s u).ended)).length, g.privsz, g.kclass, g.tiles, g.accrows, g.banks.length, g.bars.length⟩

/-- The queues of a core have room for the commands of a gang (R257). -/
def queuesTake (s : State) (gang old core : Nat) : Bool :=
  (List.range 6).all (fun q =>
    let mine := (nth [] (coreAt s old).queues q).filter (fun id => (cmdAt s id).by_.gang == gang)
    decide ((nth [] (coreAt s core).queues q).length + mine.length ≤ if q = 5 then 8 else 64))

/-- A fenced gang may be restored whole on a core (R347), once its old one is out of COREMAP. -/
def moveOk (s : State) (gang core : Nat) : Bool :=
  let g := gangAt s gang
  g.moved && !s.coremap.getLsbD g.core && queuesTake s gang g.core core && g.groups.all (fun u => mayMove (grp s u)) && !(launchAt s g.launch).replayDue && dieOf core == dieOf g.core &&
    coreOpen s core (launchAt s g.launch).ctx && decide (0 < roomOn s core (moveNeed s g))

/-- Some restore is due on a core. -/
def anyRestore (s : State) (core : Nat) : Bool :=
  s.groups.any (fun p => (gangAt s p.2.gang).core == core && restoreOk s p.1) || s.gangs.any (fun p => moveOk s p.1 core)

/-- A locked galley may become a group. -/
def galleyDue (s : State) (core g : Nat) : Bool :=
  match tGet? (coreAt s core).galleys g with
  | some x =>
    let l := launchAt s x.launch
    x.locked && launchOpen s x.launch && l.held.isEmpty && coreOpen s core l.ctx && decide (0 < roomOn s core (soloNeed l))
  | none => false

/-- A task may start on a core of its die. -/
def taskDue (s : State) (t : Task) (core : Nat) : Bool :=
  let l := launchAt s t.launch
  t.ready && t.die == dieOf core && launchOpen s t.launch && l.held.isEmpty && coreOpen s core l.ctx && decide (0 < roomOn s core (soloNeed l))

/-- No claim of the kinds before a gang's stands on a core. -/
def noClaims (s : State) (core : Nat) (galley task : Bool) : Bool :=
  !anyRestore s core && (!galley || !(coreAt s core).galleys.any (fun g => galleyDue s core g.1)) &&
    (!task || !s.tasks.any (fun t => taskDue s t.2 core))

/-- No launch of a higher queue priority has a gang for a core. -/
def topPrio (s : State) (k core : Nat) : Bool :=
  !s.launches.any (fun p => decide ((launchAt s k).prio < p.2.prio) && gangDue s p.1 core)

end Sys2Proof.Machine
end

