-- ==== Sys2Proof/Machine/Launch.lean ====
section
/-! DEFINITION. Launches: dequeue checks and allotment (R326 to R330), their count cells (R240), completion (R332), tapes (R277,
R278) and the write-behind buffer (R352). -/

namespace Sys2Proof.Machine

/-! ### Fields of a launch record (R326) -/

def laKimg (r : List Byte) : Nat := fld r 40 8
def laCnt (r : List Byte) : Nat := fld r 48 8
def laCnted (r : List Byte) : Nat := fld r 56 4
def laSerial (r : List Byte) : Bool := bit (fld r 60 1) 0
def laEdform (r : List Byte) : Bool := bit (fld r 60 1) 1
def laIndirect (r : List Byte) : Bool := bit (fld r 23 1) 2
def laTx (r : List Byte) : Nat := fld r 16 2
def laTy (r : List Byte) : Nat := fld r 18 2
def laTz (r : List Byte) : Nat := fld r 20 2

/-- n bytes (a multiple of 8) that the Foreman reads at an aligned pointer. -/
def foreBytes (s : State) (i : Issuer) (va n : Nat) : EngOut :=
  (List.range (n / 8)).foldl (fun r j => joinOut r (engRead s i (BitVec.ofNat 64 (va + 8 * j)) 8)) (.ok [])

/-- The first address of a run that the Foreman cannot reach for want of a page. -/
def foreAbsent (s : State) (i : Issuer) (va n : Nat) : Option (Nat × Bool × Nat × Nat) :=
  (List.range (n / 8)).findSome? (fun j => match engRead s i (BitVec.ofNat 64 (va + 8 * j)) 8 with
    | .absent ab st lv => some (va + 8 * j, ab, st, lv)
    | _ => none)

/-- The Foreman asks itself for a page, once (R319, R329): SOURCE 6. -/
def foreAsk (s : State) (i : Issuer) (k : Nat) (va : Nat) (ab : Bool) (st lv acc : Nat) : State :=
  if s.faults.any (fun f => f.2.launch == some k) then s
  else
    (postFault s
      { page := pageSpan s i.vmid i.asid (BitVec.ofNat 64 va)
        r := { va := BitVec.ofNat 64 va, asid := i.asid, vmid := i.vmid, source := 6, acc := acc, where_ := faultWhere ab st lv,
               core := 0xFFFF, slot := 0, tag := 0 },
        absent := ab, uid := none, cmd := none, launch := some k }).1

/-- A launch ends at its dequeue with a status. -/
def endAtDequeue (s : State) (k : Nat) (st : Status) (cause : Nat) : State :=
  modLaunch s k (fun l => { l with state := .ended, statuses := l.statuses ++ [st], cause := cause })

/-! ### Checks (R329) -/

/-- Ranges of the record (R326) that do not need the image. -/
def recordOk (r : List Byte) : Bool :=
  (recKind r == 1 || recKind r == 2) && decide (laKimg r % 64 = 0) && decide (1 ≤ laTx r) && decide (1 ≤ laTy r) && decide (1 ≤ laTz r) &&
    (!laEdform r || laIndirect r)

/-- Ranges of the kernel image record (R327). -/
def imageOk (l : Launch) : Bool :=
  decide (fld l.img 0 8 % 4 = 0) && decide (64 ≤ imgPrivate l) && decide (imgPrivate l ≤ 8192) && decide (imgPrivate l % 64 = 0) &&
    decide (imgCblen l ≤ 4096) && decide (imgTiles l ≤ 512) && decide (imgRows l ≤ 512) && decide (1 ≤ imgGroups l) && decide (imgGroups l ≤ 16) &&
    decide (fld l.img 43 1 ≤ 2) && decide (imgBars l .core ≤ 16) && decide (imgBars l .quad ≤ 16) && decide (imgBars l .die ≤ 32) &&
    decide (imgBars l .pkg ≤ 32) && decide (imgBars l .pod ≤ 64) && decide (fld l.img 49 2 ≤ 256) && decide (fld l.img 51 1 ≤ 64) &&
    decide (imgBanks l ≤ 2)

/-- The features that the image asks for are accepted (R324, R325). -/
def imageFeat (s : State) (l : Launch) : Bool :=
  (List.range 4).all (fun j => BitVec.ofNat 32 (fld l.img (56 + 4 * j) 4) &&& ~~~(nth 0 s.accept j) == 0)

/-- What the entry's block is found to be. -/
inductive HeadOut where
  | yes | no
  | absent (ab : Bool) (stage level : Nat)
  deriving DecidableEq, Repr

/-- ENTRY is a header: reason codes 1 to 6 of R28 are those of the header alone. One that cannot be read without a detected error is none. -/
def entryHead (s : State) (i : Issuer) (va : Nat) : HeadOut :=
  if va % 8 ≠ 0 then .no
  else match codeReach (reach s i.vmid i.asid (BitVec.ofNat 64 va) .fetch .u) with
    | .page a o pa =>
      let w := beNat (reachBytes s (.page a o pa) (BitVec.ofNat 64 va) 8)
      if headReason va w = 0 ∧ reachPoisoned s (.page a o pa) 8 = false then .yes else .no
    | .peer _ => if bit (Config.freeByte s.free).toNat 0 then .yes else .no
    | .fault ab st lv => .absent ab st lv
    | _ => .no

/-! ### Allotment (R329) -/

/-- Numbers below n that are not in use, the lowest k of them; none where there are fewer. -/
def lowestFree (n k : Nat) (used : List Nat) : Option (List Nat) :=
  let xs := ((List.range n).filter (fun x => !used.contains x)).take k
  if xs.length = k then some xs else none

/-- Launches that hold allotments. -/
def allotted (s : State) : List Launch := (s.launches.filter (fun p => p.2.state == .running)).map (fun p => p.2)

/-- The wider barriers that a launch asks for are free. -/
def barsFree (s : State) (l : Launch) : Bool :=
  [Scope.quad, .die, .pkg, .pod].all (fun sc => decide (sumOf (fun x => imgBars x sc) (allotted s) + imgBars l sc ≤ scopeBars sc))

/-- Start a launch's life: barriers, buckets, pattern entries; a REPLAY launch arms its snapshots (R241, R255, R351). Nothing happens
where some allotment is not free. -/
def launchAllot (s : State) (k : Nat) : State :=
  let l := launchAt s k
  if l.state ≠ .allotting then s
  else
    match lowestFree 256 (fld l.img 49 2) ((allotted s).flatMap (fun x => x.buckets)),
          lowestFree 64 (fld l.img 51 1) ((allotted s).flatMap (fun x => x.patterns)) with
    | some bs, some ps =>
      let n := imgBars l .quad + imgBars l .die + imgBars l .pkg + imgBars l .pod
      if !barsFree s l then s
      else match foreWordsAbsent s (foreman s l.ctx k) (fld l.img 16 8) n with
      | some (va, st, lv) => foreAsk s (foreman s l.ctx k) k va true st lv 0
      | none =>
        let ex := foreWords s (foreman s l.ctx k) (fld l.img 16 8) n
        let s := foreMet { s with free := s.free + n } (foreman s l.ctx k) (fld l.img 16 8) n
        let s := (List.range 4).foldl (fun s d => modDie s d (fun x =>
          { x with buckets := bs.foldl (fun m b => smSet {} m b { launch := some k }) x.buckets })) s
        modLaunch s k (fun l => { l with
          state := .running, buckets := bs, patterns := ps, expects := ex, snapArmed := isReplay l,
          plateSnaps := if isReplay l then s.plates else [] })
    | _, _ => s

/-- Gangs of a need that the present cores could hold at once, with all of their resources free (R330). -/
def gridRoom (s : State) (n : Need) : Nat := sumOf (fun c => if corePresent s c then roomFor [] 32 n else 0) (List.range 192)

/-- The launch's grid is known: COHABIT is judged, and the allotments are taken where they are free. -/
def launchGrid (s : State) (k tx : Nat) : State :=
  let r := (launchAt s k).record
  let s := modLaunch s k (fun l => { l with gx := tx, gy := laTy r, gz := laTz r, state := .allotting })
  let l := launchAt s k
  if recFlag l 1 ∧ gridRoom s (gangNeed l) < gridSize l then endAtDequeue s k .cohabitDenied 0 else launchAllot s k

/-- A count that was read (R329). -/
def launchCount (s : State) (k n : Nat) : State :=
  if n = 0 then modLaunch s k (fun l => { l with state := .running, gx := 0 })
  else if 65535 < n then endAtDequeue s k .badRecord (causeCode .access)
  else launchGrid s k n

/-- Read the count cell (R240, R329). -/
def countRead (s : State) (k : Nat) : State :=
  let l := launchAt s k
  let i := foreman s l.ctx k
  let va := BitVec.ofNat 64 (laCnt l.record)
  let bad := endAtDequeue s k .badRecord (causeCode .access)
  let met := { s with mstep := s.mstep + 1 }
  if laCnt l.record % 4 ≠ 0 then bad
  else match engReach s i va .read with
    | .access => bad
    | .poison => endAtDequeue s k .badRecord (causeCode .access)
    | .fault ab st lv => foreAsk s i k (laCnt l.record) ab st lv 0
    | .peer _ =>
      let w := (Config.freeWord s.free).toNat
      let met := { met with free := s.free + 1 }
      if laEdform l.record then
        (match w % 4 with
         | 0 => register met { cell := peerKey s l.ctx (BitVec.ofNat 64 (laCnt l.record / 8 * 8)), ed := laCnted l.record, who := k, launch := true }
         | 1 => endAtDequeue met k .editionGone 0
         | 2 => endAtDequeue met k .badRecord (causeCode .access)
         | _ => launchCount met k (w / 4 % 2 ^ 32))
      else launchCount met k (w / 4 % 2 ^ 32)
    | .page a o pa =>
      if a.kind = .plated ∨ a.kind = .code ∨ (laEdform l.record ∧ a.kind ≠ .editioned) then bad
      else if laEdform l.record then
        let desc := descOf (.page a o pa)
        match edDesc s desc with
        | .access => bad
        | .poison => endAtDequeue s k .badRecord (causeCode .access)
        | .ok d =>
          match edIndex d va with
          | none => bad
          | some j =>
            match edRead met d o j (laCnted l.record) (va.toNat % 8) 4 with
            | .val n => launchCount met k n
            | .park cell => register met { cell := cell, ed := laCnted l.record, who := k, launch := true }
            | .trap .editionGone => endAtDequeue met k .editionGone 0
            | .trap _ => bad
            | .poison _ => endAtDequeue s k .badRecord (causeCode .access)
      else match engRead met i va 4 with
        | .ok bs => launchCount (engMet met i va 4) k (leNat bs)
        | .poison _ => endAtDequeue s k .badRecord (causeCode .access)
        | _ => bad

/-- Go on with the dequeue of a launch whose image is read (R329): its entry, then its count. -/
def launchEntry (s : State) (k : Nat) : State :=
  let l := launchAt s k
  let i := foreman s l.ctx k
  let va := fld l.record 0 8
  match entryHead s i va with
  | .no => endAtDequeue s k .badRecord 0
  | .absent ab st lv => foreAsk s i k va ab st lv 3
  | .yes =>
    let r := codeReach (reach s i.vmid i.asid (BitVec.ofNat 64 va) .fetch .u)
    let s := modLaunch (reachMet (reachFill s k i.vmid i.asid (BitVec.ofNat 64 va) r) k r 8) k (fun l => { l with entryOk := true })
    if laIndirect l.record then countRead s k else launchGrid s k (laTx l.record)

/-- Read what a launch needs and go on with its dequeue (R329), each part once; where a page is absent it stays and asks for it. -/
def launchRead (s : State) (k : Nat) : State :=
  let l := launchAt s k
  let i := foreman s l.ctx k
  if l.state ≠ .counting then s
  else if l.entryOk then (if laIndirect l.record then countRead s k else launchGrid s k (laTx l.record))
  else if !l.img.isEmpty then launchEntry s k
  else if !recordOk l.record then endAtDequeue s k .badRecord 0
  else match foreAbsent s i (laKimg l.record) 128, foreBytes s i (laKimg l.record) 128 with
    | some (va, ab, st, lv), _ => foreAsk s i k va ab st lv 0
    | none, .ok img =>
      let s := foreMet { s with free := s.free + 128 } i (laKimg l.record) 32
      let s := modLaunch s k (fun l => { l with img := img })
      if !imageOk (launchAt s k) || !imageFeat s (launchAt s k) then endAtDequeue s k .badRecord 0 else launchEntry s k
    | none, _ => endAtDequeue (foreMet s i (laKimg l.record) 32) k .badRecord 0

/-- A new launch of a record (R167, R329): its number; then it is read. -/
def launchNew (s : State) (ctx : Nat) (r : List Byte) (prio : Nat) (dev : Bool) : State × Nat :=
  let f := takeFresh s
  let l : Launch := { ctx := ctx, record := r, prio := prio, devRing := dev, launchid := s.nextLaunchId, state := .counting }
  let s := { f.2 with launches := tPut f.2.launches f.1 l, nextLaunchId := s.nextLaunchId + 1 }
  (launchRead s f.1, f.1)

/-! ### Rings (R328) -/

/-- Entries of a host ring that have not been dequeued. -/
def ringLen (q : Ring) : Nat := (q.tail - q.head).toNat

/-- The address of the next record of a host ring. -/
def ringAt (q : Ring) : Nat := (q.base.toNat + 64 * (q.head.toNat % q.size.toNat)) % 2 ^ 64

/-- The next record of a host ring as the Foreman reads it. -/
def ringHead (s : State) (ctx p : Nat) : EngOut :=
  foreBytes s (foreman s ctx 0) (ringAt (nth {} (ctxAt s ctx).rings p)) 64

/-- A launch has completed: its record is written, or awaits room (R332). -/
def launchOver (s : State) (k : Nat) : Bool :=
  (tGet? s.launches k).isNone || (ctxAt s (launchAt s k).ctx).completed.contains k

/-- A SERIAL record waits for the completion of the launch before it in its ring. -/
def serialHolds (s : State) (r : List Byte) (prev : Option Nat) : Bool := laSerial r && prev.any (fun k => !launchOver s k)

/-- The host ring of a priority has an entry that may be dequeued (or whose page is to be fetched). -/
def hostDue (s : State) (ctx p : Nat) : Bool :=
  let q := nth {} (ctxAt s ctx).rings p
  decide (0 < ringLen q) && (match ringHead s ctx p with
    | .ok r => !serialHolds s r q.prevHost
    | _ => true)

/-- The device ring of a priority has an entry that may be dequeued. -/
def devDue (s : State) (ctx p : Nat) : Bool :=
  let q := nth {} (ctxAt s ctx).rings p
  match q.dev with
  | r :: _ => !serialHolds s r q.prevDev
  | [] => false

/-- Priority and ring of the next dequeue: the highest priority first, at one priority the two rings alternately. -/
def nextRing (s : State) (ctx : Nat) : Option (Nat × Bool) :=
  [7, 6, 5, 4, 3, 2, 1, 0].findSome? (fun p =>
    let q := nth {} (ctxAt s ctx).rings p
    match hostDue s ctx p, devDue s ctx p with
    | true, true => some (p, !q.lastDev)
    | true, false => some (p, false)
    | false, true => some (p, true)
    | false, false => none)

def modRing (s : State) (ctx p : Nat) (f : Ring → Ring) : State := modCtx s ctx (fun c => { c with rings := modNth c.rings p f })

/-! ### Completion (R332) -/

/-- A launch has nothing left to do. -/
def launchDone (s : State) (k : Nat) : Bool :=
  let l := launchAt s k
  (l.state == .ended || (l.state == .running && (l.halted || decide (gridSize l ≤ l.placed.length)))) &&
    !s.gangs.any (fun p => p.2.launch == k) && !s.tasks.any (fun p => p.2.launch == k) &&
    !s.cores.any (fun p => p.2.galleys.any (fun g => g.2.launch == k)) && !s.cmds.any (fun p => p.2.by_.launch == k) &&
    !s.dies.any (fun p => p.2.kicks.any (fun x => x.by_.launch == k)) && !l.replayDue

/-- Statuses from the lowest rank. -/
def statusRank : List Status :=
  [.deadlineReset, .uncontained, .doubleFault, .badRecord, .engineFault, .halted, .editionGone, .cohabitDenied]

/-- The status that a launch reports. -/
def reportStatus (l : Launch) : Status := (statusRank.find? (fun x => l.statuses.contains x)).getD .done

/-- The completion record. -/
def completionRecord (l : Launch) : List Byte :=
  let st := reportStatus l
  let carries : Bool := st == .engineFault || st == .badRecord
  leBytes 8 l.launchid.toNat ++ leBytes 8 l.doneAt ++ leBytes 1 (statusCode st) ++ leBytes 1 (l.prio + if l.devRing then 128 else 0) ++
    leBytes 2 (if carries then l.cause else 0) ++ leBytes 4 l.code.toNat ++ leBytes 8 (if st = .engineFault then l.frec.toNat else 0)

/-- The tape stack of a context has room. -/
def tapeRoom (s : State) (c : Nat) : Bool := decide ((ctxAt s c).tape.length < (ctxAt s c).tapecap.toNat)

/-- Release one buffered effect (R278, R352): one for another package leaves this one; what other launches have filled the stack with leaves no room for a push or a mark
(assumption 44). -/
def releaseOne (s : State) (k : Nat) (b : Buffered) : State :=
  let c := (launchAt s k).ctx
  match b with
  | .store owner pa peer _ bs => if owner = 4 ∧ peer = 0x1FF then ownerWrite s (mkey 4 pa) .proof bs else s
  | .service .. => s
  | .push r => if tapeRoom s c then tapePushEnt s c (.entry r) else s
  | .mark => if tapeRoom s c then tapePushEnt s c .mark else s
  | .unwind => tapeDetach s c k

/-- Release a launch's write-behind buffer in issue order. -/
def releaseBuffer (s : State) (k : Nat) : State :=
  (launchAt s k).buffer.foldl (fun s b => releaseOne s k b.2) (modLaunch s k (fun l => { l with buffer := [], snapArmed := false }))

/-- Launch the next record of unwind j of a context: it is running until that launch completes. -/
def unwindNext (s : State) (ctx j : Nat) : State :=
  match (ctxAt s ctx).unwinds[j]? with
  | none => s
  | some x =>
    match x.recs with
    | [] => s
    | r :: rest =>
      let p := launchNew s ctx r x.prio false
      modCtx p.1 ctx (fun c => { c with unwinds := setNth c.unwinds j { x with recs := rest, after := p.2, running := true } })

/-- The first unwind of a context in order that may begin: the launch that issued it has completed, and none is running (R157, R277). -/
def unwindBegin (s : State) (ctx : Nat) : State :=
  let us := (ctxAt s ctx).unwinds
  if us.any (fun x => x.running) then s
  else match (List.range us.length).find? (fun j => us[j]?.any (fun x => launchOver s x.after)) with
    | some j => unwindNext s ctx j
    | none => s

/-- A launch of a context has completed, normally or not: its unwind goes on, or ends with it (R277). -/
def unwindStep (s : State) (ctx k : Nat) (ok : Bool) : State :=
  let us := (ctxAt s ctx).unwinds
  let s := match (List.range us.length).find? (fun j => us[j]?.any (fun x => x.running && x.after == k)) with
    | none => s
    | some j =>
      if ok && us[j]?.any (fun x => !x.recs.isEmpty) then unwindNext s ctx j
      else modCtx s ctx (fun c => { c with unwinds := c.unwinds.take j ++ c.unwinds.drop (j + 1) })
  unwindBegin s ctx

/-- A launch completes (R332): its buffer and tape commands are released, what it had allotted is free, its record is due, and the unwind
that waits for it goes on. -/
def launchFinish (s : State) (k : Nat) : State :=
  let s := releaseBuffer s k
  let l := launchAt s k
  let s := modLaunch s k (fun l => { l with
    state := .ended, doneAt := s.gtick.toNat, buckets := [], patterns := [], snaps := [], plateSnaps := [] })
  let s := { s with
    edRegs := s.edRegs.filter (fun p => !(p.2.launch && p.2.who == k))
    polls := s.polls.filter (fun p => !(p.2.launch && p.2.who == k))
    faults := s.faults.filter (fun p => p.2.launch != some k)
    dies := s.dies.map (fun p => (p.1, { p.2 with buckets := p.2.buckets.filter (fun b => b.2.launch != some k) })) }
  let s := modCtx s l.ctx (fun x => { x with completed := x.completed ++ [k] })
  unwindStep s l.ctx k (reportStatus l == .done)

/-- Room for a record in a context's completion ring. -/
def cmplRoom (c : Ctx) : Bool := decide ((c.cmpltail - c.cmplhead).toNat < c.cmplsize.toNat)

end Sys2Proof.Machine
end

