-- ==== Sys2Proof/Machine/EvWork.lean ====
section
/-! DEFINITION. Events that start, end, save and restore work: wakes (R200, R234, R240), galleys and tasks (R157, R158), gangs
(R195, R199), saves (R301, R302), launches (R328, R329, R332). -/

namespace Sys2Proof.Machine

/-! ### Wakes (R200, R234, R235) -/

/-- The wait-table entries whose wake is due, with their dies; that of a cell of another package may come whenever its owner creates the
edition, which nothing here shows (R235). -/
def dueWaits (s : State) : List (Nat × WaitEnt) :=
  s.dies.flatMap (fun p => (p.2.waits.filter (fun w => w.due || decide (2 ^ 64 ≤ w.cell))).map (fun w => (p.1, w)))

/-- The requester of a registration can take its wake: a saved group, or a launch. -/
def regReady (s : State) (r : EdReg) : Bool :=
  r.launch || (match (grp s r.who).place with
    | .saved .. => true
    | _ => false)

/-- The registrations whose wake is due, or may come from another package (R234, R240). -/
def dueRegs (s : State) : List (Nat × EdReg) :=
  s.edRegs.filter (fun p => (p.2.due || decide (2 ^ 64 ≤ p.2.cell)) && regReady s p.2)

/-- Make the restore of a saved group due. -/
def restoreDue (s : State) (u : Nat) : State :=
  modGrp s u (fun g => match g.place with
    | .saved w _ => { g with place := .saved w true }
    | _ => g)

/-- A registration's wake arrives: the group's restore is due, or the launch's read is made (R234, R240). -/
def regWake (s : State) (r : EdReg) : State :=
  if !r.launch then restoreDue s r.who else if (launchAt s r.who).state = .counting then countRead s r.who else s

/-- WAKE (R200, R235): a die frees the entry and its lanes run again, or the owner's table gives up a registration. -/
def execWake (k : Nat) (s : State) : Out :=
  let ws := dueWaits s
  match ws[k]? with
  | some (die, w) =>
    let s := modDie s die (fun d => { d with waits := d.waits.filter (fun x => !(x.cell == w.cell && x.ed == w.ed && x.uid == w.uid && x.due == w.due)) })
    .next (w.lanes.foldl (fun s l =>
      match (lane s w.uid l).st with
      | .wait (.eld c e _) => if c = w.cell ∧ e = w.ed then wakeLane s w.uid l else s
      | _ => s) s)
  | none =>
    match (dueRegs s)[k - ws.length]? with
    | some (id, r) => .next (regWake { s with edRegs := tDel s.edRegs id } r)
    | none => .next s

/-- POLL_LIST_READ (R234): the Foreman reads NEWEST of a key of its poll list. -/
def execPollListRead (k : Nat) (s : State) : Out :=
  match s.polls[k]? with
  | none => .next s
  | some (id, r) =>
    let s := { s with mstep := s.mstep + 1 }
    let there : Bool := decide (r.ed ≤ edNewest s r.cell) || decide (2 ^ 64 ≤ r.cell)
    if there = true ∧ regReady s r = true then .next (regWake { s with polls := tDel s.polls id } r) else .next s

/-! ### Galleys and tasks (R157, R158) -/

/-- GALLEY_TIMEOUT (R158). -/
def execGalleyTimeout (core g : Nat) (s : State) : Out :=
  .next (modCore s core (fun c => { c with galleys := tMod c.galleys g (fun x =>
    if x.expires ≤ s.gtick.toNat then { x with locked := true } else x) }))

/-- GALLEY_START (R158, R198): lane i takes the i-th slug; the others start exited. A fenced core's galley moves first (R347). -/
def execGalleyStart (core g : Nat) (s : State) : Out :=
  .next (match tGet? (coreAt s core).galleys g with
    | none => s
    | some x =>
      if (coreAt s core).fenced then moveGalley s core g
      else if !galleyDue s core g || !noClaims s core false false then s
      else match startAbsent s x.launch 0 with
      | some (va, st, lv) => foreAsk s (foreman s (launchAt s x.launch).ctx x.launch) x.launch va true st lv 0
      | none =>
        let l := launchAt s x.launch
        let lanes (_ : Nat) : List Lane := (List.range 32).map (fun i => match x.slugs[i]? with
          | some sl => startLane s l sl.entry (pairWords sl.arg.toNat) false
          | none => { startLane s l 0 [] false with st := .exited })
        let s := startGang s core x.launch (soloNeed l) 0 .galley lanes
        modCore s core (fun c => { c with galleys := tDel c.galleys g }))

/-- TASK_START (R157, R198, R223): which of the tasks that are ready starts is left open. -/
def execTaskStart (die core : Nat) (s : State) : Out :=
  .next (
    let ts := s.tasks.filter (fun t => taskDue s t.2 core)
    match ts[(Config.freeWord s.free).toNat % ts.length]? with
    | none => s
    | some (id, t) =>
      if dieOf core ≠ die ∨ !noClaims s core true false then s
      else match startAbsent s t.launch 0 with
      | some (va, st, lv) => foreAsk s (foreman s (launchAt s t.launch).ctx t.launch) t.launch va true st lv 0
      | none =>
        let s := { s with free := s.free + 1 }
        let r := t.record
        let l := launchAt s t.launch
        let vs := pairWords (fld r 8 8) ++ [BitVec.ofNat 32 (fld r 16 2 + fld r 18 2 * 2 ^ 16), BitVec.ofNat 32 (fld r 20 2)]
        let ln := startLane s l (BitVec.ofNat 64 (fld r 0 8)) vs t.held
        let s := { s with tasks := tDel s.tasks id }
        startGang s core t.launch (soloNeed l) 0 (.task (BitVec.ofNat 64 (fld r 24 8))) (fun _ => List.replicate 32 ln))

/-! ### Gangs (R195, R199) -/

/-- The cores on which gangs of a launch may start now: no claim before theirs stands there (R197). -/
def gangCores (s : State) (k : Nat) : List Nat :=
  (List.range 192).filter (fun c => coreOpen s c (launchAt s k).ctx && noClaims s c true true && topPrio s k c)

/-- Start gangs of a COHABIT launch on one core, as many as fit. -/
def fillCore (k core : Nat) : Nat → State → State
  | 0, s => s
  | n + 1, s =>
    let l := launchAt s k
    if coreOpen s core l.ctx && decide (0 < roomOn s core (gangNeed l)) && decide (l.placed.length < gridSize l) then
      fillCore k core n (startNext s k core)
    else s

/-- GANG_PLACE (R195, R329 to R331). -/
def execGangPlace (launch core : Nat) (s : State) : Out :=
  .next (
    let s := launchAllot s launch
    if !gangDue s launch core || !noClaims s core true true || !topPrio s launch core then s
    else match startAbsent s launch (imgTiles (launchAt s launch)) with
    | some (va, st, lv) => foreAsk s (foreman s (launchAt s launch).ctx launch) launch va true st lv 0
    | none =>
    if recFlag (launchAt s launch) 1 then
      let l := launchAt s launch
      let cs := gangCores s launch
      if sumOf (fun c => roomOn s c (gangNeed l)) cs < gridSize l then s
      else
        let r := (Config.freeWord s.free).toNat % cs.length
        (cs.drop r ++ cs.take r).foldl (fun s c => fillCore launch c 32 s) { s with free := s.free + 1 }
    else startNext s launch core)

/-- A group has ended or stopped for good, and nothing of it is on its way. -/
def groupOver (s : State) (u : Nat) : Bool :=
  let g := grp s u
  (g.lanes.all (fun ln => ln.st == .exited) || (g.stopped && (launchAt s (launchOf s u)).halted)) && g.pend.isEmpty &&
    (List.range 32).all (fun l =>
      (inFifo s u l).isEmpty && (inView s u l).isEmpty && (inLinks s u l).isEmpty && (inHeld s u l).isEmpty && (readsOut s u l).isEmpty)

/-- Commands that a gang's end waits for (R199): those that its groups issued. -/
def gangCmds (s : State) (k : Nat) : Bool :=
  s.cmds.any (fun c => c.2.by_.gang == k && (match c.2.kind with
    | .coll _ => c.2.cp
    | _ => true))

/-- A group's latched or lost engine fault ends its launch with ENGINE_FAULT (R144). -/
def groupFault (s : State) (u : Nat) : State :=
  let g := grp s u
  match g.engFault, g.engLost with
  | some f, _ => launchFault s (launchOf s u) f.cause f.at_
  | none, f :: _ => launchFault s (launchOf s u) f.cause f.at_
  | none, [] => s

/-- GANG_END (R199, R276). -/
def execGangEnd (gang : Nat) (s : State) : Out :=
  .next (match tGet? s.gangs gang with
    | none => s
    | some g =>
      if g.groups.any (fun u => !groupOver s u) || gangCmds s gang then s
      else
        let s := g.groups.foldl groupFault s
        let s := coloRetireIf s g.core gang 0 (fun _ => true)
        let s := g.groups.foldl dropGroup s
        dropGang s gang)

/-! ### Saving and restoring (R301, R302) -/

/-- Nothing of a group is pending or on its way (R301 step 2). -/
def saveDrained (s : State) (u : Nat) : Bool :=
  (grp s u).pend.isEmpty && (List.range 32).all (fun l =>
    (inFifo s u l).isEmpty && (inView s u l).isEmpty && (inLinks s u l).isEmpty && (readsOut s u l).isEmpty) &&
    !s.icinvs.any (fun p => p.2.uid == u) && !s.lmaps.any (fun p => p.2.uid == u) && !s.promotes.any (fun p => p.2.uid == u)

/-- The lowest frame of a context's save pool that is free (R301, R351). -/
def takeFrame (s : State) (c : Nat) : Option Nat :=
  if poolRoom s c < 16 then none
  else (List.range (ctxAt s c).savecnt.toNat).find? (fun n => !(ctxAt s c).frames.contains n)

/-- The distinct pages that a group's lanes met as not present, one fault each (R319). -/
def saveFaults (s : State) (u : Nat) : List LaneFault :=
  let c := ctxOf s u
  let page (f : LaneFault) : Nat × Nat := pageSpan s (vmidOf s c) (asidOf s c) f.va
  (grp s u).faults.foldl (fun fs f => if fs.any (fun x => page x == page f) then fs else fs ++ [f]) []

/-- Post a saved group's records; the group waits for their outcomes. -/
def postSave (s : State) (u slot : Nat) (f : LaneFault) : State :=
  let c := ctxOf s u
  let p := postFault s
    { page := pageSpan s (vmidOf s c) (asidOf s c) f.va
      r := { va := f.va, asid := asidOf s c, vmid := vmidOf s c, source := if f.acc = 3 then 1 else 0, acc := f.acc, where_ := f.where_,
             core := coreOf s u, slot := slot, tag := 0 },
      absent := bit f.where_ 3, uid := some u, cmd := none }
  modGrp p.1 u (fun g => { g with waitFor := g.waitFor ++ [p.2] })

/-- A saved group's restore is due where it waits for no page and for no edition. -/
def saveDue (g : Group) : Group :=
  match g.place with
  | .saved .pageFault _ => if g.waitFor.isEmpty then { g with place := .saved .pageFault true } else g
  | _ => g

/-- SAVE_COMPLETE (R301): the slot frees and the faults are posted; a full fault queue or an empty pool holds it. -/
def execSaveComplete (uid : Nat) (s : State) : Out :=
  .next (
    let g := grp s uid
    let c := ctxOf s uid
    match g.place with
    | .saving slot why =>
      if !saveDrained s uid || decide (faultQueueCap < s.faults.length + (saveFaults s uid).length) then s
      else match takeFrame s c with
        | none => s
        | some n =>
          let s := modCtx s c (fun x => { x with frames := x.frames ++ [n] })
          let s := modGrp s uid (fun g => { g with place := .saved why false, frame := some n, lastSlot := slot })
          let s := (saveFaults s uid).foldl (fun s f => postSave s uid slot f) s
          modGrp s uid saveDue
    | _ => s)

/-- How a lane goes on after a restore (R303, R318): a denied page of a trap vector is a trap at the vector (R295). -/
def resumeLane (s : State) (u l : Nat) (g : Group) : State :=
  match g.faults.find? (fun f => f.lane == l && f.denied) with
  | some f => if f.vector then trapLane s u l ⟨.access, f.va, f.pc, f.va, f.va⟩ else trapRegion s u l .access f.va f.pc
  | none => if g.restart.contains l then restartLane s u l else s

/-- A group's saved state is loaded into a slot of its core (R302, R303). -/
def restoreGroup (s : State) (u slot : Nat) : State :=
  let g := grp s u
  let c := ctxOf s u
  let s := match g.frame with
    | some n => modCtx s c (fun x => { x with frames := x.frames.filter (fun m => m != n) })
    | none => s
  let s := modGrp s u (fun g => { g with
    place := .resident slot, frame := none, faults := [], restart := [], waitFor := [], formed := []
    lanes := g.lanes.map (fun ln => { ln with readyAt := max ln.readyAt (s.cycle + 1) }) })
  let s := { s with edRegs := s.edRegs.filter (fun p => p.2.launch || p.2.who != u), polls := s.polls.filter (fun p => p.2.launch || p.2.who != u) }
  let s := clearBufs s (coreOf s u) slot
  (List.range 32).foldl (fun s l => resumeLane s u l g) s

/-- Lanes of a group that go on at their restart points after a fencing (R347): a lane that has a vector to enter enters it. -/
def moveRestart (g : Group) : List Nat :=
  (List.range 32).filter (fun l => (laneAt g l).st != .exited && !g.faults.any (fun f => f.lane == l && f.vector))

/-- What the waiting threads of a group hold at the services is given up (R347): parked loads and wait-table entries. -/
def dropWaits (s : State) (u : Nat) : State :=
  let s := (List.range 32).foldl (fun s l =>
    let ln := lane s u l
    match ln.eldAcc, ln.st with
    | some a, _ => endAcc s u a
    | none, .wait (.eld _ _ a) => endAcc s u a
    | none, _ => s) s
  let s := modGrp s u (fun g => { g with lanes := g.lanes.map (fun ln => { ln with eldAcc := none, eldGot := none, flight := none, qgot := [], qdue := [] }) })
  { s with
    dies := s.dies.map (fun p => (p.1, { p.2 with waits := p.2.waits.filter (fun w => w.uid != u) }))
    faults := s.faults.map (fun p => (p.1, if p.2.uid = some u then { p.2 with uid := none } else p.2)) }

/-- The commands and colophons of a gang go to another core (R347): each queue keeps its order, and the oldest colophons beyond 16 retire
(R276). -/
def moveQueues (s : State) (gang old core : Nat) : State :=
  let mine (id : Nat) : Bool := (cmdAt s id).by_.gang == gang
  let from_ := coreAt s old
  let s := { s with cmds := s.cmds.map (fun p => (p.1, if p.2.by_.gang = gang then { p.2 with by_ := { p.2.by_ with core := core } } else p.2)) }
  let s := modCore s old (fun c => { c with
    queues := c.queues.map (fun q => q.filter (fun id => !mine id))
    colophons := c.colophons.filter (fun x => x.gang != gang) })
  let s := modCore s core (fun c => { c with
    queues := (c.queues.zip from_.queues).map (fun p => p.1 ++ p.2.filter mine)
    colophons := c.colophons ++ from_.colophons.filter (fun x => x.gang == gang) })
  let cs := (coreAt s core).colophons
  (cs.take (cs.length - 16)).foldl (fun s c => coloRetire s core c 0) s

/-- A fenced gang is restored whole on another core (R347). -/
def restoreGang (s : State) (gang core : Nat) : State :=
  let g := gangAt s gang
  let us := g.groups.filter (fun u => !(grp s u).ended)
  let slots := pickSlots s.free us.length (freeSlots s core) []
  let s := moveQueues { s with free := s.free + us.length } gang g.core core
  let s := modGang s gang (fun g => { g with core := core, moved := false })
  let s := (g.groups.filter (fun u => (grp s u).ended)).foldl (fun s u => modGrp s u (fun x => { x with place := .saved .fencing false })) s
  (us.zip slots).foldl (fun s p =>
    let s := dropWaits s p.1
    restoreGroup (modGrp s p.1 (fun x => { x with restart := moveRestart x, faults := [] })) p.1 p.2) s

/-- GROUP_RESTORE (R197, R302, R303, R347): a slot of the group's own core; for a fenced gang, 32 times the core that takes it whole. -/
def execGroupRestore (uid slot : Nat) (s : State) : Out :=
  .next (if moveOk s (grp s uid).gang (slot / 32) then restoreGang s (grp s uid).gang (slot / 32)
    else if restoreOk s uid && (freeSlots s (coreOf s uid)).contains slot then restoreGroup s uid slot else s)

/-! ### Queues and launches (R328, R329, R332) -/

/-- QTAIL_WRITE (R323, R328): a write that would overfill the ring is ignored. -/
def execQtailWrite (ctx p : Nat) (x : W32) (s : State) : Out :=
  .next (modRing s ctx p (fun q => if q.size.toNat < (x - q.head).toNat then q else { q with tail := x }))

/-- LAUNCH_DEQUEUE (R328, R329): a record of the host ring whose page is absent is asked for first. -/
def execLaunchDequeue (ctx : Nat) (s : State) : Out :=
  .next (if s.pkg ≠ .ready ∨ ctxEnabled (ctxAt s ctx) = false then s
    else match nextRing s ctx with
      | none => s
      | some (p, true) =>
        let q := nth {} (ctxAt s ctx).rings p
        let n := launchNew s ctx (q.dev.headD []) p true
        modRing n.1 ctx p (fun q => { q with dev := q.dev.drop 1, lastDev := true, prevDev := some n.2 })
      | some (p, false) =>
        let q := nth {} (ctxAt s ctx).rings p
        let i := foreman s ctx 0
        match foreAbsent s i (ringAt q) 64 with
        | some (va, ab, st, lv) => foreAsk s i 0 va ab st lv 0
        | none =>
          let r := match ringHead s ctx p with
            | .ok r => r
            | _ => freeBytes s 64
          let n := launchNew { s with free := s.free + 64 } ctx r p false
          let n := (foreMet n.1 (foreman s ctx n.2) (ringAt q) 16, n.2)
          modRing n.1 ctx p (fun q => { q with head := q.head + 1, lastDev := false, prevHost := some n.2 }))

/-- LAUNCH_COMPLETE (R332): the launch completes, and its record is written in order of completion; a full ring holds it. -/
def execLaunchComplete (id : Nat) (s : State) : Out :=
  .next (match tGet? s.launches id with
    | none => s
    | some l =>
      if !launchDone s id then s
      else
        let s := if (ctxAt s l.ctx).completed.contains id then s else launchFinish s id
        let c := ctxAt s l.ctx
        if c.completed.head? ≠ some id ∨ cmplRoom c = false then s
        else
          let k := mkey 4 (c.cmplbase.toNat + 32 * (c.cmpltail.toNat % c.cmplsize.toNat))
          let s := wrBytes s k (completionRecord (launchAt s id))
          let s := modCtx s l.ctx (fun x => { x with cmpltail := x.cmpltail + 1, completed := x.completed.drop 1 })
          { s with launches := tDel s.launches id })

end Sys2Proof.Machine
end

