-- ==== Sys2Proof/Machine/EvForeman.lean ====
section
/-! DEFINITION. The Foreman: page faults and evictions (R318, R320), invalidations (R317), icinv and lmap completed (R170, R171),
pre-emption (R304, R305) and the reload of units (R306). -/

namespace Sys2Proof.Machine

/-! ### The entry of a page -/

/-- The keys of the entries that stand for a page: sixteen for 64 KiB (R311). -/
def entKeys (k lvl e : Nat) : List Nat :=
  if bit e 1 && lvl == 3 && bit e 5 then (List.range 16).map (fun i => k / 128 * 128 + 8 * i) else [k]

/-- Write entries with V and FRAME, the attributes kept: entry i gets address a + i * 4096. -/
def putEntries (s : State) (ks : List Nat) (v : Bool) (a : Nat) : State :=
  ((List.range ks.length).zip ks).foldl (fun s p =>
    let e := rdNat s p.2 8
    wrBytes s p.2 (leBytes 8 (setBits (setBits e 51 12 (a / 4096 + p.1)) 0 0 (b2n v)))) s

/-- Copy n bytes from one key to another, bytes only. -/
def copyKeys (s : State) (src dst n : Nat) : State :=
  let cells := s.mem.filter (fun p => decide (src ≤ p.1) && decide (p.1 < src + n))
  let keep := s.mem.filter (fun p => !(decide (dst ≤ p.1) && decide (p.1 < dst + n)))
  { s with mem := cells.foldl (fun m p => smSet memDefault m (p.1 - src + dst) p.2) keep }

/-- The owner-physical frames, 4 KiB each, of n bytes at an intermediate address (R313): those that stage 2 maps. -/
def framesOf (s : State) (owner s2root a n : Nat) : List Nat :=
  (List.range (n / 4096)).filterMap (fun i => match stage2 s owner s2root (a + 4096 * i) with
    | .ok pa _ _ _ _ => some pa
    | _ => none)

/-! ### Completing a fault (R318) -/

/-- A denied page: the accesses of a group that met it take ACCESS on restore. -/
def denyFaults (s : State) (g : Group) (page : Nat × Nat) : Group :=
  { g with faults := g.faults.map (fun f => if inPage s page f.va.toNat then { f with denied := true } else f) }

/-- Words that a fill of the context marked for a page, in caches and loop buffers: gone where the page has come, marked as denied otherwise (R35,
R318). -/
def markWords (s : State) (r : FaultRec) (page : Nat × Nat) (present : Bool) : State :=
  let mine (w : IWord) : Bool := w.st == .faulted && inPage s page (w.va.toNat + w.miss)
  let ws (l : List IWord) : List IWord := if present then l.filter (fun w => !mine w) else l.map (fun w => if mine w then { w with st := .denied } else w)
  if r.acc ≠ 3 then s
  else { s with cores := s.cores.map (fun p =>
      if p.2.ctx.any (fun c => asidOf s c == r.asid && vmidOf s c == r.vmid) then
        (p.1, { p.2 with icache := ws p.2.icache, loopBuf := p.2.loopBuf.map (fun b => (b.1, { b.2 with words := ws b.2.words })) })
      else p) }

/-- A command's segments of a tag: present and pinned, or the command faults. -/
def segOutcome (s : State) (id tag : Nat) (present : Bool) : State :=
  match tGet? s.cmds id with
  | none => s
  | some c =>
    if present then
      c.fix.zipIdx.foldl (fun s x =>
        if x.1.tag = tag ∧ !x.1.present then
          let p := segPin s c x.1
          modCmd p.1 id (fun c => { c with fix := setNth c.fix x.2 p.2 })
        else s) s
    else match c.kind with
      | .copy .. =>
        (match c.fix.find? (fun x => x.tag == tag && !x.dst) with
         | some x => unitFault s id x.first true .access
         | none => copyFault s id .access)
      | .coll r =>
        (match meetOf s (issuerCtx s c.by_) (coCid r) with
         | some (k, m) => coFault { s with meets := tDel s.meets k } (m.members.map (fun p => p.2)) .access
         | none => coFault s [id] .access)
      | _ => s

/-- Complete the fault record of a tag. -/
def faultDone (s : State) (tag : Nat) (present : Bool) : State :=
  match tGet? s.faults tag with
  | none => s
  | some f =>
    let s := markWords { s with faults := tDel s.faults tag } f.r f.page present
    let s := match f.uid with
      | some u => modGrp s u (fun g =>
          let g := if present then g else denyFaults s g f.page
          saveDue { g with waitFor := g.waitFor.filter (fun t => t != tag) })
      | none => s
    let s := match f.cmd with
      | some id => segOutcome s id tag present
      | none => s
    match f.launch with
    | some k => if (tGet? s.launches k).isNone then s
        else if (launchAt s k).state ≠ .counting then s
        else if present then launchRead s k else endAtDequeue s k .badRecord (causeCode .access)
    | none => s

/-- A page is between the first and the last step of an eviction (R320). -/
def evicting (s : State) (r : FaultRec) : Bool :=
  s.evicts.any (fun p => p.2.owner == ptrOwner r.va && p.2.vmid == r.vmid && p.2.asid == r.asid &&
    decide (p.2.vpage ≤ ptrOfs r.va) && decide (ptrOfs r.va < p.2.vpage + p.2.size))

/-- The access that a record tells of. -/
def accOf : Nat → AccKind
  | 0 => .read
  | 1 => .write
  | 2 => .readWrite
  | _ => .fetch

/-- Records of pages of this package, or of others. -/
def faultsAt (s : State) (here : Bool) : List (Nat × OpenFault) := s.faults.filter (fun p => ptrHere s p.2.r.va == here)

/-- Raw bytes of HBM that 4 KiB of a class take, times 35 (R15). -/
def rawBytes : RClass → Nat
  | .proof => 4608 * 35
  | .check => 4096 * 36
  | .draft => 4096 * 35

/-- Raw bytes of a stack, times 35 (R15). -/
def stackRaw : Nat := 54 * 2 ^ 30 * 35

/-- Frames of 4 KiB among n bytes at an address that lie in stack j of their die (assumption 6). -/
def stackShare (j a n : Nat) : Nat := ((a + n) / 4096 + 1 - j) / 2 - (a / 4096 + 1 - j) / 2

/-- Pages of an owner that are in use, with bytes and class: those taken by the Foreman, and what the tables of the contexts map, with the tables. -/
def pagesUsed (s : State) (owner : Nat) : List (Nat × Nat × RClass) :=
  let mine := (s.taken.filter (fun t => t.1 / 2 ^ 52 == owner)).map (fun t => (t.1 % 2 ^ 52, t.2.1, t.2.2))
  let mapped := (s.ctxs.flatMap (fun c => (ctxPages s owner c.1).map (fun p => (p.frame, p.size, classOf (bits p.ent 9 8))))).eraseDups
  mine ++ mapped.filter (fun p => !mine.any (fun t => overlaps t.1 t.2.1 p.1 p.2.1))

/-- The Foreman may take frames at an owner (R15, R318): each aligned, in no page that is in use or translated, all of them within the capacity of
each stack of a die for their class. -/
def framesFree (s : State) (owner : Nat) (fs : List (Nat × Nat)) (cls : RClass) : Bool :=
  let used := pagesUsed s owner
  let raw (j : Nat) : Nat := sumOf (fun t => stackShare j t.1 t.2.1 * rawBytes t.2.2) used + sumOf (fun x => stackShare j x.1 x.2 * rawBytes cls) fs
  fs.all (fun x => x.1 % x.2 == 0 && decide (x.1 + x.2 ≤ 2 ^ 52) && !used.any (fun t => overlaps t.1 t.2.1 x.1 x.2) &&
    !((tGet? s.tlbs owner).getD []).any (fun e => overlaps e.attr.frame e.attr.size x.1 x.2)) &&
    (decide (4 ≤ owner) || [0, 1].all (fun j => decide (raw j ≤ stackRaw)))

/-- Frames for the page of an entry from `frame` on: owner-physical, or what stage 2 maps the intermediate address of a stage-1 page to. -/
def pageFrames (s : State) (o root frame n : Nat) (p : PageEnt) : List (Nat × Nat) :=
  if p.second || root = 0 then [(frame, n)] else (framesOf s o root frame n).map (fun x => (x, 4096))

/-- Bring the backing bytes of an absent page into frames of its owner: its entry becomes valid. -/
def pageIn (s : State) (o frame : Nat) (p : PageEnt) (fs : List (Nat × Nat)) : State :=
  let ks := entKeys p.key p.lvl (rdNat s p.key 8)
  let back := entFrame (rdNat s (ks.headD p.key) 8)
  let s := putEntries s ks true frame
  let one (s : State) (d src : Nat) : State :=
    let s := copyKeys s (mkey 4 src) d 4096
    { s with poison := s.poison.filter (fun q => !overlaps q.1 q.2 d 4096)
             frameClass := smSet .proof s.frameClass (d / 4096) p.cls
             byteClass := s.byteClass.filter (fun q => q.1 / 4096 != d / 4096) }
  let ds := fs.flatMap (fun x => (List.range (x.2 / 4096)).map (fun i => mkey o (x.1 + 4096 * i)))
  let s := ds.zipIdx.foldl (fun s x => one s x.1 (back + 4096 * x.2)) s
  { s with taken := s.taken ++ fs.map (fun x => (mkey o x.1, x.2, p.cls)) }

/-- FAULT_RESOLVE (R318): record k of those of this package. An absent page comes into a free frame `frame` of its owner, with its backing
bytes; an unmapped one is denied; a page that is present by now needs nothing. -/
def execFaultResolve (k frame : Nat) (s : State) : Out :=
  .next (match (faultsAt s true)[k]? with
    | none => s
    | some (tag, f) =>
      if evicting s f.r then s
      else
        let o := ptrOwner f.r.va
        match walkAll s o f.r.vmid f.r.asid (ptrOfs f.r.va) (accOf f.r.acc) .h with
        | .fault false _ _ => faultDone s tag false
        | .fault true _ _ =>
          (match pageEntry s o f.r.vmid f.r.asid (ptrOfs f.r.va) with
           | some p =>
             let root := ((rootsOf s o f.r.vmid f.r.asid).getD (0, 0)).2
             let n := entSize p.lvl (rdNat s p.key 8)
             let fs := pageFrames s o root frame n p
             if p.valid || frame % n != 0 || decide (2 ^ 52 ≤ frame) || sumOf (fun x => x.2) fs != n || !framesFree s o fs p.cls then s
             else faultDone (pageIn s o frame p fs) tag true
           | none => s)
        | _ => faultDone s tag true)

/-- FAULT_OUTCOME (R318): another package's Foreman answers record k of those of other packages. -/
def execFaultOutcome (k : Nat) (present : Bool) (s : State) : Out :=
  .next (match (faultsAt s false)[k]? with
    | none => s
    | some (tag, f) =>
      let s := if present then { s with peerPages := (f.r.asid, f.r.vmid, f.r.va.toNat / 4096) :: s.peerPages } else s
      faultDone s tag present)

/-! ### Invalidations (R317) -/

/-- GO, ASID, VMID, SCOPE of TINVC. -/
def tinvGo (x : W32) : Bool := bit x.toNat 31
def tinvAsid (x : W32) : Nat := bits x.toNat 11 2
def tinvVmid (x : W32) : Nat := bits x.toNat 17 12
def tinvScope (x : W32) : Nat := bits x.toNat 1 0

/-- Reserved bits of TINVC read 0. -/
def tinvMask : W32 := 0x8003FFFF#32

/-- A TLB entry is in the scope of an owner's invalidation. -/
def inScope (b : TrBlk) (e : TlbEnt) : Bool :=
  match tinvScope b.tinvc with
  | 0 => e.vmid == tinvVmid b.tinvc && e.asid == tinvAsid b.tinvc && overlaps e.vpage e.attr.size b.span.1 b.span.2
  | 1 => e.vmid == tinvVmid b.tinvc && e.asid == tinvAsid b.tinvc
  | 2 => e.vmid == tinvVmid b.tinvc
  | _ => true

/-- Drop the entries of an owner's scope that no engine pins. -/
def dropScope (s : State) (owner : Nat) : State :=
  let b := nth {} s.trblks owner
  { s with tlbs := tMod s.tlbs owner (fun es => es.filter (fun e => !inScope b e || e.inflight != 0)) }

/-- A write of TINVC (R317): while GO reads 1 it has no effect. -/
def tinvWrite (s : State) (owner : Nat) (x : W32) : State :=
  if tinvGo (nth {} s.trblks owner).tinvc then s
  else { s with trblks := modNth s.trblks owner (fun b =>
    { b with tinvc := x &&& tinvMask, span := tinvSpan s owner (tinvVmid x) (tinvAsid x) (ptrOfs b.tinva) }) }

/-- A command of TINVC from the driver, which reaches the block once the package is ready (R334). -/
def tinvCommand (s : State) (owner : Nat) (x : W32) : State := if s.pkg = .ready then tinvWrite s owner x else s

/-- The word of TINVC that starts an invalidation. -/
def tinvWord (scope asid vmid : Nat) : W32 := BitVec.ofNat 32 (2 ^ 31 + vmid % 64 * 2 ^ 12 + asid % 1024 * 4 + scope)

/-- INVALIDATE_PAGE (R317): of the page that holds TINVA. -/
def execInvalidatePage (owner asid vmid : Nat) (s : State) : Out := .next (tinvCommand s owner (tinvWord 0 asid vmid))
/-- INVALIDATE_ASID (R317). -/
def execInvalidateAsid (owner asid vmid : Nat) (s : State) : Out := .next (tinvCommand s owner (tinvWord 1 asid vmid))
/-- INVALIDATE_VMID (R317). -/
def execInvalidateVmid (owner vmid : Nat) (s : State) : Out := .next (tinvCommand s owner (tinvWord 2 0 vmid))
/-- INVALIDATE_ALL (R317). -/
def execInvalidateAll (owner : Nat) (s : State) : Out := .next (tinvCommand s owner (tinvWord 3 0 0))

/-- Accesses on their way, by context, pointer and length: of each entry in a FIFO, view, plate unit or link queue, each read, each write that a command has
yet to make, and each store to a host page that a launch holds back (R352). -/
def accessesOut (s : State) : List (Nat × W64 × Nat) :=
  let ent (e : FEntry) : Option (Nat × W64 × Nat) := if e.peer.isSome || isLocal e then none else some (e.ctx, e.va, e.size)
  (s.groups.flatMap (fun g => g.2.lanes.flatMap (fun ln => ln.fifo.filterMap ent))) ++
  (s.cores.flatMap (fun c => c.2.view.filterMap ent)) ++
  (s.plates.flatMap (fun p => p.2.held.filterMap (fun h => ent h.e))) ++
  s.links.filterMap (fun x => match x.2 with
    | .entry e _ => ent e
    | .read r _ => if r.peer.isSome then none else some (r.ctx, r.va, r.size)) ++
  s.cmds.flatMap (fun c => (c.2.out.filter (fun w => w.peer.isNone)).map (fun w => (issuerCtx s c.2.by_, w.va, w.bs.length))) ++
  s.launches.flatMap (fun l => l.2.buffer.filterMap (fun b => match b.2 with
    | .store _ _ 0x1FF va bs => some (l.2.ctx, va, bs.length)
    | _ => none))

/-- An access is in an owner's scope. -/
def accessInScope (s : State) (owner : Nat) (b : TrBlk) (x : Nat × W64 × Nat) : Bool :=
  let v := vmidOf s x.1
  let a := asidOf s x.1
  ptrOwner x.2.1 == owner &&
  (match tinvScope b.tinvc with
   | 0 => v == tinvVmid b.tinvc && a == tinvAsid b.tinvc && overlaps (ptrOfs x.2.1) (max 1 x.2.2) b.span.1 b.span.2
   | 1 => v == tinvVmid b.tinvc && a == tinvAsid b.tinvc
   | 2 => v == tinvVmid b.tinvc
   | _ => true)

/-- An `lmap` in course may write by an entry of an owner's scope. -/
def lmapInScope (s : State) (owner : Nat) (b : TrBlk) (m : LMap) : Bool :=
  let c := ctxOf s m.uid
  m.owner == owner && (tinvScope b.tinvc == 3 || (vmidOf s c == tinvVmid b.tinvc && (tinvScope b.tinvc == 2 || asidOf s c == tinvAsid b.tinvc)))

/-- An invalidation has nothing left to wait for (R317). -/
def invalDone (s : State) (owner : Nat) : Bool :=
  let b := nth {} s.trblks owner
  tinvGo b.tinvc && !((tGet? s.tlbs owner).getD []).any (fun e => inScope b e && e.inflight != 0) &&
    !(accessesOut s).any (accessInScope s owner b) && !s.lmaps.any (fun p => lmapInScope s owner b p.2)

/-- Steps 3 and 4 of an eviction (R320): the frame goes to the backing page and is free. -/
def evictCopy (s : State) (v : Evict) : State :=
  let s := v.frames.zipIdx.foldl (fun s p => copyKeys s (mkey v.owner p.1) (mkey 4 (v.back + 4096 * p.2)) 4096) s
  { s with taken := s.taken.filter (fun t => !v.frames.any (fun a => overlaps t.1 t.2.1 (mkey v.owner a) 4096)) }

/-- INVALIDATION_COMPLETE (R317, R320). -/
def execInvalidationComplete (owner : Nat) (s : State) : Out :=
  .next (if !invalDone s owner then s
    else
      let s := dropScope s owner
      let s := { s with trblks := modNth s.trblks owner (fun b => { b with tinvc := b.tinvc &&& 0x7FFFFFFF#32 }) }
      let mine := s.evicts.filter (fun p => p.2.owner == owner)
      let s := mine.foldl (fun s p => evictCopy s p.2) s
      { s with evicts := s.evicts.filter (fun p => p.2.owner != owner) })

/-- PAGE_EVICT (R320, R274): step 1 and the start of step 2; never a pinned page, and not while an invalidation runs. -/
def execPageEvict (owner ctx va : Nat) (s : State) : Out :=
  .next (
    let v := vmidOf s ctx
    let a := asidOf s ctx
    match (pageEntry s owner v a va).filter (fun p => p.valid) with
    | some p =>
      let e := rdNat s p.key 8
      let n := p.size
      let page := va % 2 ^ 52 / n * n
      let pinned := ((tGet? s.tlbs owner).getD []).any (fun t => t.vmid == v && t.asid == a && overlaps t.vpage t.attr.size page n && t.inflight != 0)
      if pinned || tinvGo (nth {} s.trblks owner).tinvc || decide (4 ≤ owner) then s
      else
        let root := ((rootsOf s owner v a).getD (0, 0)).2
        let ks := entKeys p.key p.lvl e
        let fs := framesOf s owner root (entFrame (rdNat s (ks.headD p.key) 8)) n
        let back := bits (Config.freeWord s.free).toNat 51 12 * 4096 / n * n
        let s := putEntries { s with free := s.free + 1 } ks false back
        let id := takeFresh s
        let s := { id.2 with
          evicts := tPut id.2.evicts id.1 ⟨owner, v, a, page, n, fs, back⟩
          trblks := modNth id.2.trblks owner (fun b => { b with tinva := BitVec.ofNat 64 page }) }
        tinvWrite s owner (tinvWord 0 a v)
    | none => s)

/-! ### icinv and lmap (R170, R171) -/

/-- The pointer with its package left out where it names this one. -/
def ptrPlace (s : State) (va : W64) : Nat := if ptrHere s va then va.toNat % 2 ^ 55 else va.toNat

/-- Longest instruction in bytes. -/
def longest : Nat := 12

/-- Stores of the issuing threads to the range that have not reached the owner, those of results that are pending among them (R109). -/
def icinvShort (s : State) (x : IcInv) : Bool :=
  x.lanes.any (fun l => (inPend s x.uid l ++ inFifo s x.uid l ++ inView s x.uid l ++ inLinks s x.uid l ++ inHeld s x.uid l).any (fun e =>
    forLoads e && overlaps (ptrPlace s e.va) (max 1 e.size) (ptrPlace s x.lo) x.n))

/-- A core of the context drops what it has fetched of the range. -/
def icinvCore (hit : W64 → Nat → Bool) (c : Core) : Core :=
  { c with
    icache := c.icache.filter (fun w => !hit w.va (if w.bytes.isEmpty then longest else w.bytes.length))
    lines := c.lines.filter (fun p => !hit p.1 64)
    loopBuf := c.loopBuf.filter (fun p => !p.2.words.any (fun w => hit w.va (if w.bytes.isEmpty then longest else w.bytes.length))) }

/-- Keys of the present pages of a range: the key of each page's first byte in the range, and the count of bytes. -/
def rangeKeys (s : State) (ctx : Nat) (lo : W64) (n : Nat) : List (Nat × Nat) :=
  let first := lo.toNat / 4096
  (List.range ((lo.toNat + n + 4095) / 4096 - first)).filterMap (fun i =>
    let va := BitVec.ofNat 64 ((first + i) * 4096)
    let at_ (acc : AccKind) : Option (Nat × Nat) := match reach s (vmidOf s ctx) (asidOf s ctx) va acc .h with
      | .page _ o pa => some (mkey o pa, 4096)
      | .peer _ => some (peerKey s ctx va, 4096)
      | _ => none
    (at_ .fetch).orElse (fun _ => (at_ .read).orElse (fun _ => at_ .write)))

/-- ICINV_COMPLETE (R170). -/
def execIcinvComplete (id : Nat) (s : State) : Out :=
  .next (match tGet? s.icinvs id with
    | none => s
    | some x =>
      if icinvShort s x then s
      else
        let lo := ptrPlace s x.lo
        let hit (a : W64) (n : Nat) : Bool := overlaps (ptrPlace s a) n lo x.n
        let ks := rangeKeys s x.ctx x.lo x.n
        let s := { s with
          icinvs := tDel s.icinvs id
          cores := s.cores.map (fun p => (p.1, if p.2.ctx = some x.ctx then icinvCore hit p.2 else p.2)) }
        let s := (List.range 4).foldl (fun s d => ks.foldl (fun s k => dropLines s d k.1 k.2) s) s
        x.lanes.foldl (fun s l => if (lane s x.uid l).st = .wait (.icinv id) then finishWait s x.uid l else s) s)

/-- LMAP_COMPLETE (R171, R30): the bits are written with PROOF protection. -/
def execLmapComplete (id : Nat) (s : State) : Out :=
  .next (match tGet? s.lmaps id with
    | none => s
    | some x =>
      let s := x.bits.foldl (fun s b =>
        let k := mkey x.owner b.1
        ownerWrite s k .proof [BitVec.ofNat 8 (setBits (rdByte s k).toNat b.2 b.2 (b2n x.val))]) s
      let s := endAcc { s with lmaps := tDel s.lmaps id } x.uid x.acc
      x.lanes.foldl (fun s l => if (lane s x.uid l).st = .wait (.lmap id) then finishWait s x.uid l else s) s)

/-! ### Pre-emption (R304, R305) -/

/-- Work of a context waits for cores. -/
def ctxQueued (s : State) (c : Nat) : Bool :=
  ctxEnabled (ctxAt s c) && (s.launches.any (fun p => p.2.ctx == c && p.2.state != .ended) || (nextRing s c).isSome)

/-- Another context is queued. -/
def othersQueued (s : State) (ctx : Nat) : Bool := s.ctxs.any (fun p => p.1 != ctx && ctxQueued s p.1)

/-- Pre-emption of a context begins on the cores that a test picks (R304). -/
def preemptOn (s : State) (ctx : Nat) (p : Core → Bool) : State :=
  { s with cores := s.cores.map (fun c =>
      if c.2.ctx = some ctx ∧ c.2.preempt = none ∧ p c.2 = true then (c.1, { c.2 with preempt := some s.gtick.toNat }) else c) }

/-- The quantum of a context has expired on a core. -/
def quantumOver (s : State) (ctx : Nat) (c : Core) : Bool :=
  let q := (ctxAt s ctx).quantum.toNat
  q != 0 && decide (c.quantumAt + q ≤ s.gtick.toNat)

/-- QUANTUM_EXPIRY (R304). -/
def execQuantumExpiry (ctx : Nat) (s : State) : Out :=
  .next (if othersQueued s ctx then preemptOn s ctx (quantumOver s ctx) else s)

/-- Cores of a context whose deadline has passed with gangs on them. -/
def deadlineCores (s : State) (ctx : Nat) : List Nat :=
  (s.cores.filter (fun c => c.2.ctx == some ctx && (match c.2.preempt with
    | some t => decide (t + (ctxAt s ctx).deadline.toNat ≤ s.gtick.toNat)
    | none => false) && s.gangs.any (fun g => g.2.core == c.1))).map (fun c => c.1)

/-- The context of a registration's group or launch. -/
def regCtx (s : State) (r : EdReg) : Nat := if r.launch then (launchAt s r.who).ctx else ctxOf s r.who

/-- Every registration of a context is removed (R235); a group or launch that is still there looks at its cells again. -/
def dropRegs (s : State) (ctx : Nat) : State :=
  let mine := (s.edRegs ++ s.polls).filter (fun p => regCtx s p.2 == ctx)
  let other (p : Nat × EdReg) : Bool := regCtx s p.2 != ctx
  let again (s : State) (r : EdReg) : State :=
    if r.launch then (if (launchAt s r.who).state = .counting then countRead s r.who else s)
    else modGrp s r.who (fun g => match g.place with
      | .saving n .waitOverflow => { g with place := .saving n .pageFault }
      | .saved .waitOverflow _ => { g with place := .saved .waitOverflow true }
      | _ => g)
  mine.foldl (fun s p => again s p.2) { s with edRegs := s.edRegs.filter other, polls := s.polls.filter other }

/-- A forced reset of a context's work on some cores (R235, R305). -/
def resetCores (s : State) (ctx : Nat) (cs : List Nat) : State :=
  let ks := ((s.gangs.filter (fun g => cs.contains g.2.core)).map (fun g => g.2.launch)).eraseDups
  let s := truncateAll s ctx (statusCode .deadlineReset)
  let s := stopGangs s true (fun g => cs.contains g.core)
  let left := (s.cmds.filter (fun c => ks.contains c.2.by_.launch && cs.contains c.2.by_.core)).map (fun c => c.1)
  let s := dropRegs (leaveMeets (left.foldl dropCmd s) left) ctx
  let other (g : Nat × Galley) : Bool := (launchAt s g.2.launch).ctx != ctx
  let s := cs.foldl (fun s c => modCore s c (fun k => { k with galleys := k.galleys.filter other, galKept := k.galKept.filter other })) s
  ks.foldl (fun s k => modLaunch (clearLaunch s k) k (fun l =>
    { l with state := .ended, statuses := l.statuses ++ [.deadlineReset], snapArmed := false, snaps := [], replayDue := false })) s

/-- DEADLINE_EXPIRY (R305). -/
def execDeadlineExpiry (ctx : Nat) (s : State) : Out :=
  .next (match deadlineCores s ctx with
    | [] => s
    | cs => resetCores s ctx cs)

/-! ### Reloading units (R306) -/

/-- A core may be loaded for a context: nothing of another one is on it; for the one that is pre-empted there only where no other is queued (R304). -/
def reloadOk (s : State) (core ctx : Nat) : Bool :=
  corePresent s core && s.pkg == .ready && ctxEnabled (ctxAt s ctx) && ((coreAt s core).ctx != some ctx || ((coreAt s core).preempt.isSome && !othersQueued s ctx)) &&
    !s.gangs.any (fun g => g.2.core == core) && (coreAt s core).queues.all (fun q => q.isEmpty) && (coreAt s core).view.isEmpty

/-- The units of a core as they are loaded: the galleys of the outgoing context wait for its return, those of the incoming one are back. -/
def reloadCore (ctx tick : Nat) (back : Table Galley) (c : Core) : Core :=
  let saved := match c.ctx with
    | some o => tPut c.svSaved o c.svscr
    | none => c.svSaved
  { c with
    ctx := some ctx, icache := [], lines := [], wanted := [], loopBuf := [], leftover := [], colophons := [], preempt := none, quantumAt := tick
    galleys := back, galKept := (c.galleys ++ c.galKept).filter (fun g => !back.any (fun b => b.1 == g.1))
    svSaved := tDel saved ctx
    svscr := (tGet? saved ctx).getD (List.replicate 16 0) }

/-- Galleys of a context that wait for a core of a die: those of the core itself, then those of fenced cores of the die (R347), 32 at most. -/
def keptFor (s : State) (core ctx : Nat) : Table Galley :=
  let mine (gs : Table Galley) : Table Galley := gs.filter (fun g => (launchAt s g.2.launch).ctx == ctx)
  let k := coreAt s core
  let others := s.cores.flatMap (fun c => if c.1 ≠ core ∧ c.2.fenced ∧ dieOf c.1 = dieOf core then mine c.2.galKept else [])
  (mine (k.galleys ++ k.galKept) ++ others).take 32

/-- UNIT_RELOAD (R306, R285): the die's SGFAULT of the context is 0 where no other core of the die holds it. -/
def execUnitReload (core ctx : Nat) (s : State) : Out :=
  .next (if !reloadOk s core ctx then s
    else
      let first := !s.cores.any (fun c => c.2.ctx == some ctx && dieOf c.1 == dieOf core)
      let back := keptFor s core ctx
      let s := { s with cores := s.cores.map (fun c => (c.1, { c.2 with galKept := c.2.galKept.filter (fun g => !back.any (fun b => b.1 == g.1)) })) }
      let s := modCore s core (reloadCore ctx s.gtick.toNat back)
      if first then modDie s (dieOf core) (fun d => { d with sgfault := tDel d.sgfault ctx }) else s)

end Sys2Proof.Machine
end

