-- ==== Sys2Proof/Machine/EvHost.lean ====
section
/-! DEFINITION. The host link: bring-up (R334), contexts (R323), register writes (R322, R323, R344, R358), power and clock (R335), host
memory (R333), and GTICK (R13). -/

namespace Sys2Proof.Machine

/-! ### Bring-up (R334) -/

/-- Host memory alone of a memory. -/
def hostCells (m : List Host.Cell) : List Host.Cell := m.filter (fun p => decide (4 * 2 ^ 52 ≤ p.1))

/-- PACKAGE_RESET (R334, R13): everything is as after reset, but for the host's memory. -/
def execPackageReset (s : State) : Out :=
  .next { State.reset with mem := hostCells s.mem, agenda := s.agenda, choices := s.choices, free := s.free }

/-- LINK_TRAINED (R334). -/
def execLinkTrained (s : State) : Out := .next (if s.pkg = .reset then { s with pkg := .linkup } else s)

/-- A write of FWCMD (R322, R334): 1 starts loading and verifying the image. -/
def fwcmdWrite (s : State) (x : W32) : State :=
  if s.pkg = .linkup then { s with pkg := if x = 1 then .firmware else .linkup, fwcmd := x } else s

/-- FIRMWARE_LOAD (R334): FWCMD = 1. -/
def execFirmwareLoad (s : State) : Out := .next (fwcmdWrite s 1)

/-- Bring-up fails with a code. -/
def failPkg (s : State) (code : Nat) : State := { s with pkg := .failed, failCode := code }

/-- FIRMWARE_VERIFIED (R334): failure 1 is a bad image, 2 a failed verification. -/
def execFirmwareVerified (failure : Fin 3) (s : State) : Out :=
  .next (if s.pkg ≠ .firmware then s else if failure.val = 0 then { s with pkg := .meminit } else failPkg s failure.val)

/-- MEMORY_INIT_DONE (R334): every page of the stacks is 0 with PROOF check bits, and COREMAP is written. -/
def execMemoryInitDone (cores : BitVec 192) (answer : Bool) (s : State) : Out :=
  .next (if s.pkg ≠ .meminit then s
    else if !answer then failPkg s 3
    else if cores = 0 then failPkg s 4
    else { s with
      pkg := .ready, coremap := cores, mem := hostCells s.mem
      poison := s.poison.filter (fun p => decide (4 * 2 ^ 52 ≤ p.1))
      frameClass := s.frameClass.filter (fun p => decide (2 ^ 42 ≤ p.1))
      byteClass := s.byteClass.filter (fun p => decide (4 * 2 ^ 52 ≤ p.1))
      errors := s.errors.filter (fun e => match e.place with
        | .hbm .. | .table _ => false
        | _ => true) })

/-! ### Contexts (R323) -/

/-- CTXCTL without its reserved bits. -/
def ctxctlMask : W32 := 0x8000FFFF#32

/-- The cores that hold a context without any gang are free of it. -/
def forgetCtx (s : State) (ctx : Nat) : State :=
  { s with cores := s.cores.map (fun c =>
      (c.1, if c.2.ctx = some ctx ∧ s.gangs.any (fun g => g.2.core == c.1) = false
        then { c.2 with ctx := none, preempt := none } else { c.2 with svSaved := tDel c.2.svSaved ctx })) }

/-- A context's entry (R310): VALID, aligned roots, the region table and its length, which the spec takes from nowhere; its reserved bits are 0. -/
def ctxEntry (s : State) : List Byte :=
  let f (i n : Nat) : List Byte := (List.range n).map (fun j => Config.freeByte (s.free + i + j))
  let top (i : Nat) : List Byte := [Config.freeByte (s.free + i) &&& 0xF, 0]
  [Config.freeByte s.free &&& 1, 0] ++ f 2 4 ++ top 6 ++ [0, 0] ++ f 10 4 ++ top 14 ++ f 16 6 ++ top 22 ++
    leBytes 2 (leNat (f 24 2) % 4097) ++ List.replicate 6 0

/-- The Foreman writes a context's entry at every owner and the Cudin port (R310). -/
def putCtxEntries (s : State) (vmid asid : Nat) : State :=
  (List.range 5).foldl (fun s o =>
    let k := mkey o ((nth {} s.trblks o).ctxbase.toNat + 32 * (vmid * 1024 + asid))
    wrBytes { s with free := s.free + 26, poison := unpoison s.poison k 32 } k (ctxEntry s)) s

/-- A context is loaded as its block has it (R310, R323): ASID and VMID are those of its threads from now on. -/
def loadCtx (s : State) (ctx : Nat) : State :=
  let x := (ctxAt s ctx).ctxctl.toNat
  putCtxEntries (modCtx s ctx (fun c => { c with asid := bits x 9 0, vmid := bits x 15 10 })) (bits x 15 10) (bits x 9 0)

/-- CONTEXT_ENABLE (R310, R323): CTXCTL with ENABLE set; a context that had it clear is loaded, and is new to the cores. -/
def execContextEnable (ctx : Nat) (x : W32) (s : State) : Out :=
  .next (if s.pkg ≠ .ready ∨ 1024 ≤ ctx ∨ bit x.toNat 31 = false then s
    else
      let set (s : State) : State := modCtx s ctx (fun c => { c with ctxctl := x &&& ctxctlMask })
      if ctxEnabled (ctxAt s ctx) then set s else loadCtx (set (forgetCtx s ctx)) ctx)

/-- A write of CTXCTL with ENABLE clear (R323, R366): where it was set, pre-emption begins, and the context's sessions end. -/
def ctxctlClear (s : State) (ctx : Nat) (x : W32) : State :=
  let set (s : State) : State := modCtx s ctx (fun c => { c with ctxctl := x &&& ctxctlMask &&& 0x7FFFFFFF#32 })
  if ctxEnabled (ctxAt s ctx) then preemptOn (set (truncateAll s ctx 0x81)) ctx (fun _ => true) else set s

/-- CONTEXT_DISABLE (R323, R366): CTXCTL with ENABLE clear. -/
def execContextDisable (w : CtxctlWrite) (s : State) : Out :=
  .next (if ctxEnabled (ctxAt s w.ctx) && !bit w.x.toNat 31 then ctxctlClear s w.ctx w.x else s)

/-! ### Register writes -/

/-- A write to a register of a context block (R323), at its offset in the block. -/
def ctxWrite (s : State) (n ofs : Nat) (x : W64) : State :=
  let c := ctxAt s n
  let w : W32 := x.setWidth 32
  let set (f : Ctx → Ctx) : State := if ctxEnabled c then s else modCtx s n f
  match ofs with
  | 0x000 => if bit w.toNat 31 then s else ctxctlClear s n w
  | 0x008 => set (fun c => { c with quantum := x })
  | 0x010 => set (fun c => { c with deadline := x })
  | 0x018 => set (fun c => { c with tapecap := w })
  | 0x020 => set (fun c => { c with savebase := x })
  | 0x028 => set (fun c => { c with savecnt := w })
  | 0x030 => set (fun c => { c with hvec := x })
  | 0x038 => set (fun c => { c with cmplbase := x })
  | 0x040 => set (fun c => { c with cmplsize := w })
  | 0x048 => modCtx s n (fun c => { c with cmplhead := w })
  | o =>
    let p := (o - 0x100) / 32
    if 0x100 ≤ o ∧ o < 0x200 then
      match (o - 0x100) % 32 with
      | 0 => set (fun c => { c with rings := modNth c.rings p (fun q => { q with base := x }) })
      | 8 => set (fun c => { c with rings := modNth c.rings p (fun q => { q with size := w }) })
      | _ => s
    else s

/-- The sample period as a port holds it (R358). -/
def clampPeriod (x : W32) : W32 := if x = 0 then 0 else if x.toNat < 1024 then 1024 else if 2 ^ 31 < x.toNat then BitVec.ofNat 32 (2 ^ 31) else x

/-- A write to a register of a debug port (R358), at its offset in the block; a register without the right that its row names keeps its
value. A DCMD write has no behaviour of its own only with GO 0. -/
def portWrite (s : State) (n k ofs : Nat) (x : W64) : State :=
  let p := portAt s n k
  let w : W32 := x.setWidth 32
  let set (ok : Bool) (f : Port → Port) : State := if ok then modPort s n k f else s
  match ofs with
  | 0x08 => set (!bit p.dcmd.toNat 31 && !bit w.toNat 31) (fun p => { p with dcmd := w &&& 0xF#32 })
  | 0x10 => set true (fun p => { p with dsel := x &&& 0xFFFFFFFF#64 })
  | 0x18 => set true (fun p => { p with ddata := x })
  | 0x20 => set true (fun p => { p with dlaunch := x })
  | 0x28 => set (hasRight p 0) (fun p => { p with dctl := w &&& 3#32 })
  | 0x30 => set (hasRight p 0) (fun p => { p with waddr0 := x })
  | 0x38 => set (hasRight p 0) (fun p => { p with waddr1 := x })
  | 0x40 => set (hasRight p 0) (fun p => { p with wcfg := w &&& 0x7F7F#32 })
  | 0x50 => set (!p.session) (fun p => { p with trbase := x })
  | 0x58 => set (!p.session) (fun p => { p with trsize := w })
  | 0x60 => set true (fun p => { p with trhead := w })
  | 0x68 => set (hasRight p 4) (fun p => { p with speriod := clampPeriod w })
  | 0x6C => set (hasRight p 4) (fun p => { p with score := w })
  | _ => s

/-- A write to a translation register block (R317) or the reliability block (R344), at its offset from TRBLK. -/
def trWrite (s : State) (ofs : Nat) (x : W64) : State :=
  let w : W32 := x.setWidth 32
  let o := ofs / 0x100
  if ofs < 0x500 then
    let set (f : TrBlk → TrBlk) : State := { s with trblks := modNth s.trblks o f }
    match ofs % 0x100 with
    | 0x00 => set (fun b => { b with ctxbase := x &&& 0xFFFFFFFFFFFF0000#64 })
    | 0x08 => set (fun b => { b with tinva := x })
    | 0x10 => if tinvGo w then s else tinvWrite s o w
    | _ => s
  else match ofs with
  | 0x810 => { s with elbase := x }
  | 0x818 => { s with elsize := w }
  | 0x820 => { s with elhead := w }
  | _ => s

/-- Some context is enabled. -/
def anyEnabled (s : State) : Bool := s.ctxs.any (fun p => ctxEnabled p.2)

/-- REGISTER_WRITE (R322, R323, R317, R344, R358): registers that have no behaviour of their own, in the states that let the host write
them (R334); unlisted offsets ignore writes. -/
def execRegisterWrite (ofs : Nat) (x : W64) (s : State) : Out :=
  let w : W32 := x.setWidth 32
  .next (
    if s.pkg = .linkup then
      if 0x010 ≤ ofs ∧ ofs < 0x020 ∧ ofs % 4 = 0 then
        { s with accept := setNth s.accept ((ofs - 0x010) / 4) (w &&& nth 0 s.feat ((ofs - 0x010) / 4)) }
      else if ofs = 0x028 then { s with fwaddr := x }
      else if ofs = 0x030 ∧ w ≠ 1 then fwcmdWrite s w
      else s
    else if s.pkg ≠ .ready then s
    else if ofs = 0x050 then
      if anyEnabled s || decide (384 ≤ bits w.toNat 8 0) then s else { s with pkgnum := w &&& 0x1FF#32 }
    else if 0x10000 ≤ ofs ∧ ofs < 0x10000 + 0x1000 * 1024 then ctxWrite s ((ofs - 0x10000) / 0x1000) ((ofs - 0x10000) % 0x1000) x
    else if 0x800000 ≤ ofs ∧ ofs < 0x800000 + 0x1000 * 1024 then
      portWrite s ((ofs - 0x800000) / 0x1000) ((ofs - 0x800000) % 0x1000 / 0x400) ((ofs - 0x800000) % 0x400) x
    else if s.trblk.toNat ≤ ofs ∧ ofs < s.trblk.toNat + 0x1000 then trWrite s (ofs - s.trblk.toNat) x
    else s)

/-! ### Register reads -/

/-- Code of a bring-up state in PKGSTATE (R334). -/
def pkgCode : PkgState → Nat
  | .reset => 0 | .linkup => 1 | .firmware => 2 | .meminit => 3 | .ready => 4 | .failed => 7

/-- What a read of a context block gives (R323), at its offset in the block. -/
def ctxRead (c : Ctx) (ofs : Nat) : W64 :=
  match ofs with
  | 0x000 => c.ctxctl.setWidth 64
  | 0x008 => c.quantum
  | 0x010 => c.deadline
  | 0x018 => c.tapecap.setWidth 64
  | 0x020 => c.savebase
  | 0x028 => c.savecnt.setWidth 64
  | 0x030 => c.hvec
  | 0x038 => c.cmplbase
  | 0x040 => c.cmplsize.setWidth 64
  | 0x044 => c.cmpltail.setWidth 64
  | 0x048 => c.cmplhead.setWidth 64
  | o =>
    if 0x100 ≤ o ∧ o < 0x200 then
      let q := nth {} c.rings ((o - 0x100) / 32)
      match (o - 0x100) % 32 with
      | 0x00 => q.base
      | 0x08 => q.size.setWidth 64
      | 0x0C => q.head.setWidth 64
      | 0x10 => q.tail.setWidth 64
      | _ => 0
    else 0

/-- What a read of a debug port's block gives (R358), at its offset in the block. -/
def portRead (p : Port) (ofs : Nat) : W64 :=
  match ofs with
  | 0x00 => p.prights
  | 0x08 => p.dcmd.setWidth 64
  | 0x0C => p.dstat.setWidth 64
  | 0x10 => p.dsel
  | 0x18 => p.ddata
  | 0x20 => p.dlaunch
  | 0x28 => p.dctl.setWidth 64
  | 0x30 => p.waddr0
  | 0x38 => p.waddr1
  | 0x40 => p.wcfg.setWidth 64
  | 0x48 => p.stopat
  | 0x50 => p.trbase
  | 0x58 => p.trsize.setWidth 64
  | 0x5C => p.trtail.setWidth 64
  | 0x60 => p.trhead.setWidth 64
  | 0x64 => p.trdrop.setWidth 64
  | 0x68 => p.speriod.setWidth 64
  | 0x6C => p.score.setWidth 64
  | _ => 0

/-- What a read from TRBLK on gives (R317, R344). -/
def trRead (s : State) (ofs : Nat) : W64 :=
  if ofs < 0x500 then
    let b := nth {} s.trblks (ofs / 0x100)
    match ofs % 0x100 with
    | 0x00 => b.ctxbase
    | 0x08 => b.tinva
    | 0x10 => b.tinvc.setWidth 64
    | _ => 0
  else match ofs with
  | 0x800 => s.fwwin
  | 0x808 => s.fwt.setWidth 64
  | 0x810 => s.elbase
  | 0x818 => s.elsize.setWidth 64
  | 0x81C => s.eltail.setWidth 64
  | 0x820 => s.elhead.setWidth 64
  | 0x824 => s.eldrop.setWidth 64
  | _ => 0

/-- What the host reads at an offset of the Cudin link (R317, R322, R323, R344, R358): the register there, zero-extended; an unlisted
offset reads 0. -/
def hostRead (s : State) (ofs : Nat) : W64 :=
  if ofs < 0x010 ∧ ofs % 4 = 0 then (nth 0 s.feat (ofs / 4)).setWidth 64
  else if ofs < 0x020 ∧ ofs % 4 = 0 then (nth 0 s.accept ((ofs - 0x010) / 4)).setWidth 64
  else if 0x2000 ≤ ofs ∧ ofs < 0xA000 ∧ ofs % 8 = 0 then
    (nth ({} : Port) (ctxAt s ((ofs - 0x2000) / 32)).ports ((ofs - 0x2000) / 8 % 4)).drights
  else if 0x10000 ≤ ofs ∧ ofs < 0x10000 + 0x1000 * 1024 then ctxRead (ctxAt s ((ofs - 0x10000) / 0x1000)) (ofs % 0x1000)
  else if 0x800000 ≤ ofs ∧ ofs < 0x800000 + 0x1000 * 1024 then
    portRead (portAt s ((ofs - 0x800000) / 0x1000) (ofs % 0x1000 / 0x400)) (ofs % 0x400)
  else if s.trblk.toNat ≤ ofs ∧ ofs < s.trblk.toNat + 0x1000 then trRead s (ofs - s.trblk.toNat)
  else match ofs with
  | 0x020 => BitVec.ofNat 64 (pkgCode s.pkg + s.failCode % 256 * 256)
  | 0x028 => s.fwaddr
  | 0x030 => s.fwcmd.setWidth 64
  | 0x034 => s.pwrlim.setWidth 64
  | 0x038 => s.pwrnow.setWidth 64
  | 0x03C => s.coreclk.setWidth 64
  | 0x040 => s.clkchg.setWidth 64
  | 0x048 => s.trblk
  | 0x050 => s.pkgnum.setWidth 64
  | _ => 0

/-! ### Power and clock (R335, R23) -/

/-- POWER_LIMIT_WRITE (R335, R322). -/
def execPowerLimitWrite (x : W32) (s : State) : Out :=
  .next (if s.pkg = .ready then
      { s with pwrlim := if x.toNat < 600 then 600 else if 2200 < x.toNat then 2200 else x }
    else s)

/-- CLOCK_CHANGE (R335, R23): steps of 100 MHz up to the nominal clock; the part of a tick that has passed stays as it is (R13). -/
def execClockChange (mhz : Nat) (s : State) : Out :=
  .next (if mhz % 100 = 0 ∧ 100 ≤ mhz ∧ mhz ≤ 3600 then
      { s with coreclk := BitVec.ofNat 32 mhz, clkchg := s.clkchg + 1 }
    else s)

/-! ### Host memory (R333) -/

/-- HOST_MEMORY_ACCESS (R333): one event is a store within one aligned 8-byte word, or an atomic of an aligned word of 4 or 8 bytes. -/
def execHostMemoryAccess (addr : Nat) (acc : HostAccess) (s : State) : Out :=
  .next (match acc with
    | .read => s
    | .atomic bs =>
      if (bs.length = 4 ∨ bs.length = 8) ∧ addr % bs.length = 0 ∧ addr + bs.length ≤ 2 ^ 52 then wrBytes s (mkey 4 addr) bs else s
    | .store bs =>
      if addr % 8 + bs.length ≤ 8 ∧ addr + bs.length ≤ 2 ^ 52 then wrBytes s (mkey 4 addr) bs else s)

end Sys2Proof.Machine
end

