-- ==== Sys2Proof/Machine/EvOrder.lean ====
section
/-! DEFINITION. The moves of the ordering machine (R216, R221), and the steps of a refit (R248 to R252). -/

namespace Sys2Proof.Machine

/-- LEAVE (R216). -/
def execLeave (uid l : Nat) (s : State) : Out := .next (if mayLeave s uid l then leaveMove s uid l else s)
/-- DRAIN_MOVE (R216). -/
def execDrainMove (uid l : Nat) (s : State) : Out := .next (if mayDrain s uid l then drainMove s uid l else s)
/-- An arrival that another package sends to a pod barrier of a launch (R17, R148). -/
def podArrive (s : State) (launch index n : Nat) : State :=
  let k : BarKey := ⟨.pod, launch, 0, index⟩
  if s.netStopped || (barGet s k).all (fun b => b.expect == 0) then s else engineArrive s k n none

/-- DELIVER (R216). -/
def execDeliver (id : Nat) (answer : Answer) (s : State) : Out :=
  .next (match answer.pod, answer.gate with
    | some (launch, index, n), _ => podArrive s launch index n
    | none, some t => openPeerGate s t
    | none, none => if mayDeliver s id then deliverMove s id answer.bytes else s)
/-- REFRESH (R216). -/
def execRefresh (die : Nat) (c : Cells) (s : State) : Out := .next (refreshMove s die c.key c.n)
/-- DROP (R216). -/
def execDrop (die : Nat) (c : Cells) (s : State) : Out := .next (dropMove s die c.key c.n)

/-! ### Promotion (R221) -/

/-- An entry for a cell of the line that a promote names. -/
def onLine (p : Promote) (e : FEntry) : Bool :=
  match e.peer with
  | some n => p.owner == 16 + n && runsHit (entryRuns e) p.line 64
  | none => p.owner == e.owner && runsHit (entryRuns e) p.line 64

/-- A core-scope release to the line (R221). -/
def coreRelease (p : Promote) (e : FEntry) : Bool := onLine p e && ((isRelease e && e.scope == .core) || e.coreRel)

/-- Entries of a view that drain with those chosen: earlier ones of the same thread, and of lower lanes of the same
instruction for the same place (R124). -/
def drainClosure : Nat → List FEntry → List FEntry → List FEntry
  | 0, _, chosen => chosen
  | n + 1, view, chosen =>
    drainClosure n view (view.filter (fun e => chosen.any (fun c =>
      (e.uid == c.uid && e.lane == c.lane && decide (e.id ≤ c.id)) || (decide (e.id < c.id) && oneSpot e c))))

/-- Entries of a core on their way to an owner. -/
def coreLinks (s : State) (core : Nat) : List FEntry :=
  s.links.filterMap (fun p => match p.2 with
    | .entry e _ => if coreOf s e.uid = core then some e else none
    | .read .. => none)

/-- An entry is on its way to its owner, or held there, by the number of the entry (R221). -/
def entryOut (s : State) (k : Nat) : Bool :=
  s.links.any (fun p => match p.2 with
    | .entry e _ => e.id == k
    | .read .. => false) || s.plates.any (fun q => q.2.held.any (fun h => h.e.id == k))

/-- An `acqr` is performed when every core has finished and what drained for it is delivered (R221). -/
def promoteDone (s : State) (id : Nat) : State :=
  match tGet? s.promotes id with
  | none => s
  | some p =>
    if p.cores.isEmpty && p.wait.all (fun k => !entryOut s k) then
      endAcc (noteAcquire { s with promotes := tDel s.promotes id, mstep := s.mstep + 1 } p.uid p.lane .acqrel p.scope) p.uid p.acc
    else s

/-- PROMOTE (R221): a core drains its core-scope releases to the line and what comes before them. -/
def execPromote (core id : Nat) (s : State) : Out :=
  match tGet? s.promotes id with
  | none => .next s
  | some p =>
    if !p.cores.contains core || s.netStopped then .next s
    else
      let view := (coreAt s core).view
      let links := coreLinks s core
      let rel := (view ++ links).filter (coreRelease p)
      let out := drainClosure view.length view (view.filter (fun e => rel.any (fun c => e.uid == c.uid && e.lane == c.lane && decide (e.id ≤ c.id))))
      let sent := links.filter (fun e => rel.any (fun c => e.uid == c.uid && e.lane == c.lane && decide (e.id ≤ c.id)))
      let s := out.foldl (fun s e =>
        toDiePoint (modCore s core (fun k => { k with view := k.view.filter (fun x => x.id != e.id) })) e (dieOf core)) s
      let s := { s with promotes := tPut s.promotes id { p with cores := p.cores.filter (fun k => k != core), wait := p.wait ++ (out ++ sent).map (fun e => e.id) } }
      .next (promoteDone s id)

/-! ### The Caster (R248 to R252) -/

/-- REFIT_START (R249, R250). -/
def execRefitStart (die : Nat) (s : State) : Out := .next (plStart s die)
/-- KNOT_READ (R250, R251). -/
def execKnotRead (die : Nat) (s : State) : Out := .next (plKnot s die)
/-- REFIT_VERIFY (R250). -/
def execRefitVerify (die : Nat) (s : State) : Out := .next (plVerify s die)
/-- REFIT_SWAP (R250, R248): held requests are retried. -/
def execRefitSwap (die : Nat) (s : State) : Out :=
  let p := plSwap s die
  .next (match p.2 with
    | some k => retryHeld p.1 k
    | none => p.1)

/-- ERRATA_TIMEOUT (R248): a held store has waited TIMEOUT ticks; its lane takes ERRATA_FULL. -/
def execErrataTimeout (id : Nat) (s : State) : Out :=
  match s.plates.findSome? (fun p => (p.2.held.find? (fun h => h.e.id == id)).map (fun h => (p.1, h))) with
  | none => .next s
  | some (k, h) =>
    match plDesc s k with
    | .ok d =>
      if h.since + d.timeout ≤ s.gtick.toNat then
        .next (entryDone (modPlate s k (fun p => { p with held := p.held.filter (fun x => x.e.id != id) })) h.e (.trap .errataFull))
      else .next s
    | _ => .next s

end Sys2Proof.Machine
end

