-- ==== Sys2Proof/Machine/Hazard.lean ====
section
/-! DEFINITION. Issue sets (R189), what holds one (R190, R109, R118, R142, R143, R219, R223), the choice within a group (R189, R193) and
the stall mask (R202). -/

namespace Sys2Proof.Machine

/-! ### Issue sets -/

/-- Put a lane into the set of its address and mode. -/
def addLane (l : Nat) (pc : W64) (m : Mode) : List ISet → List ISet
  | [] => [⟨pc, m, [l]⟩]
  | x :: xs => if x.pc = pc ∧ x.mode = m then { x with lanes := x.lanes ++ [l] } :: xs else x :: addLane l pc m xs

/-- Issue sets of a group in a cycle: lanes that run and whose wake has taken effect (R189, R190). -/
def setsOf (cycle : Nat) (g : Group) : List ISet :=
  (List.range 32).foldl (fun xs l =>
    let ln := laneAt g l
    if cycle < ln.readyAt then xs
    else match nextPc ln with
      | some pc => addLane l pc ln.mode xs
      | none => xs) []

/-- A group may issue: it holds a slot, nothing halts it, its launch is not to be replayed, its core runs. -/
def mayIssue (s : State) (u : Nat) : Bool :=
  let g := grp s u
  (match g.place with
   | .resident _ => true
   | _ => false) && g.halted.isEmpty && !g.stopped && !g.ended && !(launchAt s (launchOf s u)).replayDue && !(coreAt s (coreOf s u)).fenced

/-- The word of a set, where every lane has it: subscribed lanes from the cache, others from their loop buffers (R192). -/
def setWord (s : State) (u : Nat) (x : ISet) : Option IWord :=
  let g := grp s u
  let c := coreAt s (coreOf s u)
  match slotOf g with
  | some slot =>
    if bfa g = some (nextAddr (laneAt g (x.lanes.headD 0)).at_, x.mode) then wordAt c x.pc
    else if x.lanes.all (fun l => (bufWord c slot l x.pc).isSome) then bufWord c slot (x.lanes.headD 0) x.pc
    else none
  | none => none

/-- The instruction of a valid word. -/
def wordInstr (w : IWord) : Option Instr :=
  match w.st, decodeExact w.bytes with
  | .valid, .ok i => some i
  | _, _ => none

/-- The long instruction that a word stands for. -/
def longForm (i : Instr) : Instr := (expandShort i).getD i

/-! ### Register hazards (R109) -/

/-- cnt registers from n. -/
def regRun (n cnt : Nat) : List Nat := (List.range cnt).map (fun k => n + k)

/-- Registers of a source. -/
def srcRegs (s : Src) (cnt : Nat) : List Nat :=
  match s with
  | .v n => regRun n.val cnt
  | .o n => regRun (128 + n.val) cnt
  | .h0 => regRun 136 (min cnt 2)
  | .h1 => [137]
  | _ => []

/-- Registers that a lane reads for itself, and those that cross lanes. -/
def readsRegs (i : Instr) : List Nat × List Nat :=
  let one (cross : Bool) : List Nat := (srcs i).flatMap (fun p =>
    if (p.1.pat != .ident) == cross then srcRegs p.1.src (match p.2 with
      | .dyn => 2
      | t => otyRegs t) else [])
  (one false, one true)

/-- Registers that an instruction writes, the last-result file among them (R49). -/
def writesRegs (i : Instr) : List Nat :=
  let h : Bool := destMayStream i || (match i with
    | .quant .. => true
    | _ => false)
  (match dest i with
   | some (.v n, k) => regRun n.val (match i with
     | .ld .e .. => 2
     | _ => k)
   | some (.o n, k) => regRun (128 + n.val) k
   | _ => []) ++ (if h then [136, 137] else [])

/-- Registers of a target. -/
def targetRegs (t : Target) : List Nat := regRun (targetReg t) t.cnt

/-- Registers of a lane whose write is pending: scoreboarded results, and what is on its way (R109, R126). -/
def pendRegs (s : State) (u l : Nat) : List Nat :=
  ((grp s u).pend.flatMap (fun p => p.2.writes.filterMap (fun w => if w.lane = l then some w.reg else none))) ++
  (inFifo s u l ++ inView s u l ++ inLinks s u l ++ inHeld s u l).flatMap (fun e => targetRegs e.dest) ++
  (readsOut s u l).flatMap (fun r => targetRegs r.2.dest)

/-- A lane is held at its instruction for a request that is not performed (R52, R138). -/
def inFlight (s : State) (u l : Nat) : Bool :=
  (lane s u l).eldGot.isSome || (match (lane s u l).flight with
    | some a => (readsOut s u l).any (fun r => r.2.acc == a)
    | none => false)

/-- Some lane of the set has a register pending that the instruction names in it or reads there under a pattern (R56), or is frozen. -/
def regHeld (s : State) (u : Nat) (x : ISet) (i : Instr) : Bool :=
  let r := readsRegs i
  let own := r.1 ++ r.2 ++ writesRegs i
  x.lanes.any (fun l =>
    (grp s u).pend.any (fun p => p.2.frozen.contains l) || (pendRegs s u l).any (fun n => own.contains n))

/-! ### Counters and queues (R142, R143) -/

/-- What a set's leader issue finds in steps 1, 2 and 4 of R142, for an instruction that raises a counter or needs room in a queue. -/
def engFound (s : State) (u : Nat) (x : ISet) (i : Instr) : Option Halt :=
  let s := { s with cur := ⟨u, x.lanes, x.pc, 0⟩ }
  let a := readLane s u x.lanes (srcs i) false (leader s)
  let halt {α : Type} (f : Find α) : Option Halt := match f with
    | .halt h => some h
    | .go _ => none
  match a.halt with
  | some h => some h
  | none => match i with
    | .fcopy _ spad _ => halt (findFcopy spad s a)
    | .pcmd _ => halt (spRecord s (a.x 0))
    | .pbank n _ _ b arr => halt (findPbank n b arr s a)
    | .pclr _ _ b arr => halt (findPclr b arr s a)
    | .sgset e _ => halt (findSgset e s a)
    | .collNow _ => halt (devRecord s (a.x 0))
    | .launch _ _ => halt (findLaunch s a)
    | _ => none

/-- An engine instruction fails a check of R142 that comes before the room in its counter and its queue. -/
def engFails (s : State) (u : Nat) (x : ISet) (i : Instr) : Bool :=
  match i with
  | .fcopy .. | .pcmd .. | .pbank .. | .pclr .. | .sgset .. | .collNow .. | .launch .. =>
    (match engFound s u x i with
     | none => false
     | some (.poison ..) => false
     | some (.poisonOwn ..) => false
     | some _ => true)
  | _ => false

/-- The copy of a set's `fcopy` has a follow-on (R143). -/
def copyFollows (s : State) (u : Nat) (x : ISet) (i : Instr) : Bool :=
  let s := { s with cur := ⟨u, x.lanes, x.pc, 0⟩ }
  match i with
  | .fcopy _ spad _ => (match findFcopy spad s (readLane s u x.lanes (srcs i) false (leader s)) with
    | .go d => fdFollow d.1
    | .halt _ => false)
  | _ => false

/-- Counters that an instruction raises at issue; a copy raises TL for its follow-on. -/
def raises (i : Instr) (follow : Bool) : List Ctr :=
  (if (srcStreams (srcs i)).isEmpty then [] else [Ctr.ld]) ++
  (match dest i with
   | some (.q _, _) => [Ctr.st]
   | _ => []) ++
  (match i with
   | .ld .. | .lds .. | .ldp .. | .ldacc .. | .eld .. | .enew .. | .pquery .. | .acqr .. | .ldt .. => [Ctr.ld]
   | .st .. | .sts .. | .stp .. | .cwb .. | .ttag .. | .est .. | .erel .. | .precast .. | .pset .. | .lmapSet .. | .lmapClr .. => [.st]
   | .aadd _ _ d _ _ _ | .amin _ _ d _ _ _ | .amax _ _ d _ _ _ | .aand _ _ d _ _ _ | .aor _ _ d _ _ _ | .axor _ _ d _ _ _
   | .axchg _ _ d _ _ _ | .acas _ _ d _ _ _ | .afadd _ _ d _ _ _ | .ainc _ d _ _ _ | .afmin _ d _ _ _ | .afmax _ d _ _ _
   | .afadd2 _ d _ _ _ => [if d = .none then .st else .ld]
   | .fcopy .. => if follow then [.cp, .tl] else [.cp]
   | .sgset .. | .collNow .. => [.cp]
   | .pcmd .. | .pbank .. | .pclr .. => [.tl]
   | _ => [])

/-- A counter stands at its limit; lanes of a woken `eld` still hold theirs. -/
def ctrHeld (s : State) (u : Nat) (x : ISet) (i : Instr) : Bool :=
  let again : Bool := match i with
    | .eld .. => x.lanes.all (fun l => (lane s u l).eldAcc.isSome)
    | _ => false
  !again && (raises i (copyFollows s u x i)).any (fun c => decide (63 ≤ ctrGet (grp s u) c))

/-- The queue that a command goes to is full (R154, R257, R282, R328). -/
def queueHeld (s : State) (u : Nat) (i : Instr) : Bool :=
  let qs := (coreAt s (coreOf s u)).queues
  let full (q cap : Nat) : Bool := decide (cap ≤ (nth [] qs q).length)
  match i with
  | .fcopy q _ _ => full q.val 64
  | .pcmd _ | .pclr .. => full 4 64
  | .pbank .. => full 5 8
  | .qfence q _ => full q.val (if q.val = 5 then 8 else 64)
  | .collNow .. => decide (64 ≤ (dieAt s (dieOf (coreOf s u))).collQ.length)
  | .launch p _ => decide (64 ≤ (nth {} (ctxAt s (ctxOf s u)).rings p.val).dev.length)
  | _ => false

/-- The group-matrix unit cannot yet begin (R118). -/
def unitHeld (s : State) (u : Nat) (i : Instr) : Bool :=
  match i with
  | .mmag .. => decide (s.cycle < (coreAt s (coreOf s u)).mmagAt)
  | _ => false

/-! ### Order (R217, R219, R223) -/

/-- A releasing step of a lane at a scope cannot be made yet. -/
def relHeld (s : State) (u l : Nat) (sc : Scope) : Bool :=
  loadsOut s u l s.fresh || acquireOut s u l s.fresh || storesShort s u l sc s.fresh

/-- A load of n bytes cannot be performed or sent yet (R217 rule 1). -/
def bytesHeld (s : State) (u l : Nat) (sem : Sem) (sc : Scope) (va : W64) (n : Nat) (acc : AccKind) : Bool :=
  let c := ctxOf s u
  match reach s (vmidOf s c) (asidOf s c) va acc (lane s u l).mode with
  | .page a o pa =>
    (match a.kind with
     | .editioned => !serviceFree s u l true o pa va n
     | .plated => !serviceFree s u l false o pa va n
     | _ => loadAt s u l sem sc none o pa va n == .wait)
  | .peer p => loadAt s u l sem sc (some p) (ptrOwner va) (ptrOfs va) va n == .wait
  | _ => false

/-- An `ld` of a lane is held. -/
def ldHeld (s : State) (u l : Nat) (sz : Size) (ord : Ord) (a ix : Nat) (ofs : BitVec 8) : Bool :=
  if sz = .e then
    match findElem { s with cur := { s.cur with uid := u } } l a ((ix : Int) + sext 8 ofs.toNat) .read with
    | .go e =>
      if e.plate.isSome then bytesHeld s u l ord.sem ord.scope e.va (elemBytes e) .read else elemAt s u l ord e == .wait
    | .halt _ => false
  else
    let va := eaIndexed (sizeBytes sz) a ofs ix
    if sz = .q then bytesHeld s u l ord.sem ord.scope va 8 .read || bytesHeld s u l ord.sem ord.scope (va + 8) 8 .read
    else bytesHeld s u l ord.sem ord.scope va (sizeBytes sz) .read

/-- A plate entry of a lane for a descriptor is on its way. -/
def plateOut (s : State) (u l desc : Nat) : Bool :=
  (inFifo s u l ++ inView s u l ++ inLinks s u l ++ inHeld s u l).any (fun e => match e.act with
    | .plate _ _ d => d == desc
    | .precast d => d == desc
    | .pset _ _ d => d == desc
    | _ => false)

/-- Streams that an instruction walks with dimensions 0 and 1 exchanged (R112). -/
def readsT : Instr → Bool
  | .quant _ _ tr .. => tr
  | _ => false

/-- A stream source of a lane cannot be read yet. -/
def streamHeld (s : State) (u l k : Nat) (tr : Bool) : Bool :=
  let q := streamOf s u l k tr
  !loadFree s u l .plain .core || (match streamAt q l with
    | some va => bytesHeld s u l .plain .core va (esizeBytes q) .read
    | none => false)

/-- Device memory that an engine instruction reads at its issue: address and bytes (R141, R142). -/
def recordRun (i : Instr) (x : Nat → Nat) : Nat × Nat :=
  match i with
  | .fcopy _ spad _ => if spad then (0, 0) else (x 0, 64)
  | .coll .. | .collNow .. | .tapePush .. | .launch .. => (x 0, 64)
  | .taskPost .. => (x 0, 64 * min 64 (x 1))
  | .sgset .. => (x 0, 32)
  | _ => (0, 0)

/-- What the leader's die has sent to a record's bytes is not performed yet: the record is read at the owner after it (R141, R217, R222). -/
def recordHeld (s : State) (u l : Nat) (i : Instr) (x : Nat → Nat) : Bool :=
  let r := recordRun i x
  let c := ctxOf s u
  let die := dieOf (coreOf s u)
  (List.range ((r.2 + 31) / 32)).any (fun j =>
    let va := BitVec.ofNat 64 (r.1 + 32 * j)
    match reach s (vmidOf s c) (asidOf s c) va .read (lane s u l).mode with
    | .page _ o pa =>
      (match loadAt s u l .plain .core none o pa va 32 with
       | .wait => true
       | .now _ => false
       | .send => linkBusy s die o pa 32)
    | _ => false)

/-- A CSR that earlier instructions of a lane have still to write (R164, R165): FMODE while an element load that may raise flags is on its way,
the region's record while a commit is. -/
def csrHeld (s : State) (u l : Nat) (n : Csr) : Bool :=
  match n with
  | .fmode => (readsOut s u l).any (fun r => match r.2.kind with
    | .elem .. => true
    | _ => false)
  | .regpc => (lane s u l).commits.any (fun c => !c.taken)
  | _ => false

/-- The order of memory holds a lane's instruction. -/
def laneHeld (s : State) (u : Nat) (ls : List Nat) (i : Instr) (l : Nat) : Bool :=
  let x (k : Nat) : Nat := (readLane s u ls (srcs i) false l).x k
  (srcStreams (srcs i)).any (fun k => streamHeld s u l k (readsT i)) || (l == ls.headD 0 && recordHeld s u l i x) ||
  (match i with
   | .ld sz ord _ _ ofs _ => !loadFree s u l ord.sem ord.scope || ldHeld s u l sz ord (x 0) (x 1) ofs
   | .lds _ sem .. => !loadFree s u l sem .core
   | .ldp .. | .ldacc .. | .ldt .. => !loadFree s u l .plain .core
   | .eld sz ord _ _ ofs _ =>
     !loadFree s u l ord.sem ord.scope || bytesHeld s u l ord.sem ord.scope (eaDirect (sizeBytes sz) (x 0) ofs) (sizeBytes sz) .read
   | .enew ord _ _ ofs => !loadFree s u l ord.sem ord.scope || bytesHeld s u l ord.sem ord.scope (eaDirect 1 (x 0) ofs) 1 .read
   | .pquery _ _ ofs | .psync _ ofs =>
     let va := eaDirect 1 (x 0) ofs
     let c := ctxOf s u
     !loadFree s u l .plain .core || plateOut s u l (descOf (reach s (vmidOf s c) (asidOf s c) va .read (lane s u l).mode))
   | .acqr sc _ _ => !loadFree s u l .acqrel sc
   | .csrr _ n | .csrw _ _ n _ => csrHeld s u l n
   | .fcopy .. | .pcmd .. | .pbank .. | .pclr .. | .sgset .. | .coll .. | .collNow .. | .bkset .. | .tapePush .. | .tapeMark | .tapeUnwind
   | .taskPost .. | .launch .. | .qfence .. | .spawn .. => relHeld s u l .die
   | .bkadd .. | .taskDone | .halt _ => relHeld s u l .pkg
   | .barArr _ b => relHeld s u l b.scope
   | .barSync b => !(lane s u l).syncp && relHeld s u l b.scope
   | _ => false)

/-- While the network is stopped, accesses wait (R348). -/
def netHeld (s : State) (i : Instr) : Bool :=
  s.netStopped && (match i with
    | .ld .. | .st .. | .eld .. | .est .. | .erel .. | .enew .. | .precast .. | .psync .. | .pquery .. | .pset .. | .acqr .. | .cwb .. | .cinv ..
    | .aadd .. | .amin .. | .amax .. | .aand .. | .aor .. | .axor .. | .axchg .. | .ainc .. | .acas .. | .afadd .. | .afmin .. | .afmax ..
    | .afadd2 .. => true
    | j => !(srcStreams (srcs j)).isEmpty)

/-! ### Ready sets -/

/-- Why a set does not issue: no word, a counter or queue, a register hazard or the group-matrix unit, or the order of memory. -/
inductive Hold where
  | fetch | counter | hazard | order
  deriving DecidableEq, Repr

/-- All that holds a set. A word that is not valid is ready to be reached (R36). -/
def holdsOf (s : State) (u : Nat) (x : ISet) : List Hold :=
  match setWord s u x with
  | none => [.fetch]
  | some w =>
    match wordInstr w with
    | none => []
    | some j =>
      let i := longForm j
      (if (ctrHeld s u x i || queueHeld s u i) && !engFails s u x i then [.counter] else []) ++
      (if regHeld s u x i || unitHeld s u i then [.hazard] else []) ++
      (if x.lanes.any (inFlight s u) || netHeld s i || x.lanes.any (laneHeld s u x.lanes i) then [.order] else [])

/-- The ready sets of a group as they stand. -/
def formSets (s : State) (u : Nat) : List ISet :=
  if mayIssue s u then (setsOf s.cycle (grp s u)).filter (fun x => (holdsOf s u x).isEmpty) else []

/-- Lanes of a set formed before that are still at its word. -/
def stillAt (s : State) (u : Nat) (x : ISet) : ISet :=
  { x with lanes := x.lanes.filter (fun l => let ln := lane s u l; nextPc ln == some x.pc && ln.mode == x.mode) }

/-- The sets of a group that may issue in this cycle: ready at its start, and not held since (R190). -/
def readySets (s : State) (u : Nat) : List ISet :=
  if mayIssue s u then ((grp s u).formed.map (stillAt s u)).filter (fun x => !x.lanes.isEmpty && (holdsOf s u x).isEmpty) else []

/-! ### The choice within a group (R189, R193) -/

/-- A set holds the first lane at or after P, counted cyclically, among those of other sets. -/
def leaderDist (p : Nat) (x : ISet) : Nat := (x.lanes.headD 0 + 32 - p) % 32

/-- The set whose leader comes first. -/
def firstSet (p : Nat) : List ISet → Option ISet
  | [] => none
  | x :: xs => match firstSet p xs with
    | none => some x
    | some y => if leaderDist p y < leaderDist p x then some y else some x

/-- A lane at the first word of a block has yet to leave its header: the header is its next address (R193). -/
def atHeader (r : W64) (pc : W64) : Bool := pc == r || pc == r + 8

/-- Choose among ready sets (R189): the set, and the group with RPOINT, SKIP and P moved on. -/
def chooseSet (g : Group) (cands : List ISet) : Option (ISet × Group) :=
  let pass : Bool := match g.rpoint with
    | some r => cands.any (fun x => !atHeader r x.pc && cands.any (fun y => atHeader r y.pc && y.mode == x.mode))
    | none => false
  let cs := if pass then cands.filter (fun x => !g.rpoint.any (fun r => atHeader r x.pc)) else cands
  let g := if pass then (if g.skip + 1 = 64 then { g with rpoint := none, skip := 0 } else { g with skip := g.skip + 1 }) else g
  (firstSet g.ptr cs).map (fun x => (x, { g with ptr := (x.lanes.headD 0 + 1) % 32 }))

/-- RPOINT is unset once every thread that runs has one next address and mode (R193). -/
def meetPoint (g : Group) : Group :=
  match g.rpoint with
  | none => g
  | some _ =>
    let at_ := (g.lanes.filter running).map (fun ln => (nextAddr ln.at_, ln.mode))
    if at_.all (fun x => some x == at_.head?) then { g with rpoint := none, skip := 0 } else g

/-! ### The choice of a pipe (R12, R118) -/

/-- Slots of a pipe in round-robin order after the slot it last issued for. -/
def slotOrder (pipe last : Nat) : List Nat := (List.range 8).map (fun i => (last - pipe + 4 * (i + 1)) % 32 / 4 * 4 + pipe)

/-- The group in a slot of a core (R199). -/
def groupAt (s : State) (core slot : Nat) : Option Nat :=
  (s.groups.find? (fun p => holdsSlot p.2 == some slot && (gangAt s p.2.gang).core == core)).map (fun p => p.1)

/-- An `mmag` is the instruction of a set. -/
def setMmag (s : State) (u : Nat) (x : ISet) : Bool :=
  match (setWord s u x).bind wordInstr with
  | some (.mmag ..) => true
  | _ => false

/-- Another pipe that has not issued in this cycle comes first for the group-matrix unit (R118). -/
def mmagTurn (s : State) (core pipe : Nat) : Bool :=
  let c := coreAt s core
  let dist (p : Nat) : Nat := (p + 3 - c.mmagPipe) % 4
  !(List.range 4).any (fun p => decide (dist p < dist pipe) && !nth false c.issued p &&
    (groupsOn s core).any (fun g => (match slotOf g.2 with
      | some n => n % 4 == p
      | none => false) && (readySets s g.1).any (setMmag s g.1)))

/-- Ready sets of a group for its pipe now. -/
def pipeSets (s : State) (core pipe u : Nat) : List ISet := (readySets s u).filter (fun x => !setMmag s u x || mmagTurn s core pipe)

/-- The group that a pipe takes: the first in order with a ready set that no `yield` passes over (R12, R101). -/
def pipeGroup (s : State) (core pipe : Nat) : Option Nat :=
  (slotOrder pipe (nth 0 (coreAt s core).rr pipe)).findSome? (fun slot => match groupAt s core slot with
    | some u => if (grp s u).yielded || (pipeSets s core pipe u).isEmpty then none else some u
    | none => none)

/-- Some group of a pipe has a ready set. -/
def pipeReady (s : State) (core pipe : Nat) : Bool :=
  (groupsOn s core).any (fun g => (match slotOf g.2 with
    | some n => n % 4 == pipe
    | none => false) && !(pipeSets s core pipe g.1).isEmpty)

/-! ### A pipe's turn (R12, R101, R189) -/

/-- Slots of a pipe up to the one it takes, and their groups that a `yield` has passed over. -/
def passedOver (s : State) (core pipe : Nat) : List Nat :=
  let order := (slotOrder pipe (nth 0 (coreAt s core).rr pipe)).filterMap (groupAt s core)
  (order.takeWhile (fun u => (grp s u).yielded || (pipeSets s core pipe u).isEmpty)).filter (fun u =>
    (grp s u).yielded && !(pipeSets s core pipe u).isEmpty)

/-- The slot that a group holds, or none of them. -/
def slotNum (s : State) (u : Nat) : Nat := (slotOf (grp s u)).getD 32

/-- A pipe that has not issued in this cycle takes its turn: the group that its order gives, the set of it that issues, and the state with its
pointers moved on; a group that yielded is passed over once. None where no set of the pipe is ready. -/
def pipeTurn (s : State) (core pipe : Nat) : Option (State × Option (Nat × ISet)) :=
  if nth false (coreAt s core).issued pipe || !pipeReady s core pipe then none
  else
    let us := passedOver s core pipe
    let take := pipeGroup s core pipe
    let sets := match take with
      | some u => pipeSets s core pipe u
      | none => []
    let s := us.foldl (fun s u => modGrp s u (fun g => { g with yielded := false })) s
    let s := modCore s core (fun c => { c with issued := setNth c.issued pipe true })
    match take with
    | none => some (s, none)
    | some u =>
      match chooseSet (grp s u) sets with
      | none => some (s, none)
      | some (x, g) =>
        let s := modGrp s u (fun _ => { g with lastIssue := s.cycle + 1 })
        some (modCore s core (fun c => { c with rr := setNth c.rr pipe (slotNum s u) }), some (u, x))

/-! ### The stall mask (R202) -/

/-- Reasons that a waiting thread gives. -/
def waitReason : Wait → Nat
  | .bar .. => 1
  | .eld .. | .psync _ => 2
  | .count .. => 3
  | .drain _ | .fence .. | .icinv _ | .lmap _ | .sleep _ | .spawn .. => 4

/-- The stall mask of a group in this cycle; what holds a set back counts whether or not the group may issue. -/
def stallMask (s : State) (u : Nat) : Nat :=
  let g := grp s u
  let waits (r : Nat) : Bool := g.lanes.any (fun ln => match ln.st with
    | .wait w => waitReason w == r
    | _ => false)
  let sets := if (slotOf g).isSome then setsOf s.cycle g else []
  let holds (h : Hold) : Bool := sets.any (fun x => (holdsOf s u x).contains h)
  let saved : Bool := match g.place with
    | .resident _ => false
    | _ => true
  if g.ended || g.lastIssue == s.cycle + 1 then 0
  else b2n saved + 2 * b2n (waits 1) + 4 * b2n (waits 2 || g.lanes.any (fun ln => !ln.held.isEmpty)) + 8 * b2n (waits 3 || holds .counter) + 16 * b2n (waits 4) +
    32 * b2n (holds .hazard) + 64 * b2n (holds .fetch) + 128 * b2n (!(readySets s u).isEmpty)

/-- The lowest bit of a mask: the stall reason. -/
def stallReason (m : Nat) : Nat := ((List.range 8).find? (fun i => bit m i)).getD 0

end Sys2Proof.Machine
end

