-- ==== Sys2Proof/Machine/EvRel.lean ====
section
/-! DEFINITION. The reliability layer's events: errors in storage and their scrubbing (R337, R338), re-execution (R341, R342), fault
windows (R344), fencing (R347), routers and links (R348), replay (R353). -/

namespace Sys2Proof.Machine

/-! ### Errors in storage (R337, R338, R204) -/

/-- The first n bytes of a sector's flips. -/
def flipBytes (f : BitVec 288) (n : Nat) : List Byte := (List.range n).map (fun i => BitVec.ofNat 8 (f.toNat / 2 ^ (8 * i)))

/-- Bytes with their flips. -/
def flipped (bs : List Byte) (f : BitVec 288) : List Byte := (bs.zip (flipBytes f bs.length)).map (fun p => p.1 ^^^ p.2)

/-- Flip bits of n bytes of memory. -/
def flipMem (s : State) (key n : Nat) (f : BitVec 288) : State := wrBytes s key (flipped (rdBytes s key n) f)

/-- Flip bits of n bytes of a sparse byte array. -/
def flipArr (a : SMap Byte) (b n : Nat) (f : BitVec 288) : SMap Byte := arrWrite a b (flipped (arrBytes a b n) f)

/-- What an error does to a store of a class (R337, R338): whether a read will count it, poison it, find bits changed. A CHECK error that is not
detected, and any DRAFT error, changes bits and is counted nowhere; CHECK corrects nothing. -/
structure ErrDoes where
  noted : Bool := false
  poisons : Bool := false
  flips : Bool := false
  deriving DecidableEq, Repr

def errDoes (c : RClass) (k : ErrKind) : ErrDoes :=
  match c, k with
  | .draft, _ => { flips := true }
  | .check, .corrected => {}
  | .check, .miscorrected => { flips := true }
  | _, .detected => { noted := true, poisons := true }
  | .proof, .corrected => { noted := true }
  | .proof, .miscorrected => { noted := true, flips := true }

/-- Note an error for the read that meets it. -/
def noteError (s : State) (d : ErrDoes) (p : ErrPlace) (k : ErrKind) : State :=
  if !d.noted || s.errors.contains ⟨p, k⟩ then s else { s with errors := s.errors ++ [⟨p, k⟩] }

/-- Put an entry into a list of poisoned places. -/
def addPois {α : Type} [BEq α] (d : ErrDoes) (l : List α) (x : α) : List α := if d.poisons && !l.contains x then l ++ [x] else l

/-- The pages of an owner that hold an address, first byte and size: those that the tables of a context map, or a held translation; one frame where
there is none. -/
def pagesAt (s : State) (owner a : Nat) : List (Nat × Nat) :=
  let in_ (p : Nat × Nat) : Bool := decide (p.1 ≤ a) && decide (a < p.1 + p.2)
  let ps := (s.ctxs.flatMap (fun c => ((ctxPages s owner c.1).filter (fun p => p.ent != 0)).map (fun p => (p.frame, p.size)))).filter in_
  let es := (((tGet? s.tlbs owner).getD []).map (fun e => (e.attr.frame, e.attr.size))).filter in_
  if ps ≠ [] then ps else if es ≠ [] then es else [(a / 4096 * 4096, 4096)]

/-- n bytes at a key are a sector of a page that holds them (R337). -/
def onGrid (s : State) (c : RClass) (key n : Nat) : Bool :=
  let a := key % 2 ^ 52
  (pagesAt s (key / 2 ^ 52) a).any (fun p => sectorOf c p.2 (a - p.1) == (a - p.1, n))

/-- The words with SECDED of a region of a kind (R230, R242, R30): metadata, descriptor, or the landing bits of a page of n bytes. -/
def secdedRuns (s : State) (owner : Nat) (k : PKind) (desc from_ n : Nat) : List (Nat × Nat) :=
  match k with
  | .editioned => [(rdNat s (mkey owner desc + 24) 8, 16 * rdNat s (mkey owner desc + 8) 4)]
  | .plated => [(desc, 64)]
  | .code => [(desc + from_ / 64, n / 64)]
  | .ordinary => []

/-- What of an owner's memory carries SECDED on its words for a context (R337): its entry, its tables, its region table, and the words of its
regions. -/
def tableRuns (s : State) (owner c : Nat) : List (Nat × Nat) :=
  let v := vmidOf s c
  let a := asidOf s c
  let ck := (nth {} s.trblks owner).ctxbase.toNat + 32 * (v * 1024 + a)
  let root := ((rootsOf s owner v a).map (fun r => r.2)).getD 0
  let ps := ctxPages s owner c
  let held := ((tGet? s.tlbs owner).getD []).filter (fun e => e.vmid == v && e.asid == a)
  (ck, 32) :: (ps.filter (fun p => p.ent == 0)).map (fun p => (p.frame, p.size)) ++
    (stage2Pages s owner root (rtbaseOf s owner v a) (32 * rdNat s (mkey owner ck + 24) 2)).map (fun p => (p.1, p.2.1)) ++
    (ps.filter (fun p => p.ent != 0 && bits p.ent 63 52 != 0)).flatMap (fun p => match pageRegion s owner c p with
      | some (k, r) => secdedRuns s owner k r.desc (p.va - ptrOfs r.base) p.size
      | none => []) ++
    held.flatMap (fun e => match e.attr.region with
      | some r => secdedRuns s owner e.attr.kind r.desc (e.vpage - ptrOfs r.base) e.attr.size
      | none => [])

/-- A byte of an owner's memory lies in a word with SECDED. -/
def inTables (s : State) (key : Nat) : Bool :=
  s.ctxs.any (fun c => (tableRuns s (key / 2 ^ 52) c.1).any (fun r => decide (r.1 ≤ key % 2 ^ 52) && decide (key % 2 ^ 52 < r.1 + r.2)))

/-- An error in n bytes of a stack's memory: it is met by a read, by the scrubber, or covered by a store. -/
def memError (s : State) (p : ErrPlace) (a n : Nat) (d : ErrDoes) (k : ErrKind) (f : BitVec 288) : State :=
  let s := { noteError s d p k with poison := addPois d s.poison (a, n) }
  if d.flips then flipMem s a n f else s

/-- An error in a register word (R204): it is counted when the word is read. -/
def regError (s : State) (u l n : Nat) (k : ErrKind) (f : W32) : State :=
  if (tGet? s.groups u).isNone ∨ 32 ≤ l ∨ 128 ≤ n then s
  else
    let flip (ln : Lane) : Lane := { ln with v := smSet 0 ln.v n (smGet 0 ln.v n ^^^ f) }
    let note (ln : Lane) : Lane := { ln with vmark := ln.vmark.filter (fun x => x != n) ++ [n] }
    match k with
    | .corrected => modLane s u l note
    | .miscorrected => modLane s u l (fun ln => note (flip ln))
    | .detected => modLane s u l (fun ln => note { ln with vpois := ln.vpois.filter (fun x => x != n) ++ [n] })

/-- An error in a scratch sector (R337): sectors count from a tile's first byte. -/
def scratchError (s : State) (gang a : Nat) (k : ErrKind) (f : BitVec 288) : State :=
  match tGet? s.gangs gang with
  | none => s
  | some g =>
    if 4096 * g.tiles ≤ a then s
    else
      let x := sectorOf g.kclass 4096 (a % 4096)
      let b := a / 4096 * 4096 + x.1
      let d := errDoes g.kclass k
      modGang (noteError s d (.scratch gang b) k) gang (fun g => { g with
        scratchPois := addPois d g.scratchPois (b, x.2)
        scratch := if d.flips then flipArr g.scratch b x.2 f else g.scratch })

/-- An error in a private sector: sectors count from the slice's first byte. -/
def privError (s : State) (u l a : Nat) (k : ErrKind) (f : BitVec 288) : State :=
  let g := gangOf s u
  if (tGet? s.groups u).isNone ∨ 32 ≤ l ∨ g.privsz ≤ a then s
  else
    let x := sectorOf g.kclass g.privsz a
    let d := errDoes g.kclass k
    modLane (noteError s d (.priv u l x.1) k) u l (fun ln => { ln with
      privPois := addPois d ln.privPois x
      priv := if d.flips then flipArr ln.priv x.1 x.2 f else ln.priv })

/-- An error in an accumulator word: SECDED. -/
def accError (s : State) (gang w : Nat) (k : ErrKind) (f : W32) : State :=
  match tGet? s.gangs gang with
  | none => s
  | some g =>
    if 256 * g.accrows ≤ w then s
    else
      let d := errDoes .proof k
      modGang (noteError s d (.acc gang w) k) gang (fun g => { g with
        accPois := addPois d g.accPois w
        acc := if d.flips then smSet 0 g.acc w (smGet 0 g.acc w ^^^ f) else g.acc })

/-- Flip bits of the four cells of a bank word. -/
def flipCells (cells : SMap Int) (w : Nat) (f : W32) : SMap Int :=
  (List.range 4).foldl (fun m j =>
    let x : Byte := BitVec.ofInt 8 (smGet 0 m (w + j)) ^^^ BitVec.ofNat 8 (f.toNat / 2 ^ (8 * j))
    smSet 0 m (w + j) x.toInt) cells

/-- An error in a word of a Press bank: SECDED, four cells a word. -/
def bankError (s : State) (gang n cell : Nat) (k : ErrKind) (f : W32) : State :=
  match tGet? s.gangs gang with
  | none => s
  | some g =>
    if g.banks.length ≤ n ∨ 65536 ≤ cell then s
    else
      let w := cell / 4 * 4
      let d := errDoes .proof k
      modGang (noteError s d (.bank gang n w) k) gang (fun g => { g with banks := modNth g.banks n (fun b => { b with
        pois := addPois d b.pois w
        cells := if d.flips then flipCells b.cells w f else b.cells }) })

/-- STORAGE_ERROR (R337, R338, R204): a sector of a page, or a word that carries SECDED whatever the class of its page. -/
def execStorageError (p : ErrPlace) (k : ErrKind) (flips : BitVec 288) (s : State) : Out :=
  .next (match p with
    | .hbm a n =>
      let c := byteClassOf s a
      if 4 * 2 ^ 52 ≤ a ∨ onGrid s c a n = false ∨ (List.range n).any (fun i => inTables s (a + i)) = true then s
      else memError s p a n (errDoes c k) k flips
    | .table a => if 4 * 2 ^ 52 ≤ a ∨ a % 4 ≠ 0 ∨ inTables s a = false then s else memError s p a 4 (errDoes .proof k) k flips
    | .reg u l n => regError s u l n k (flips.setWidth 32)
    | .scratch g a => scratchError s g a k flips
    | .priv u l a => privError s u l a k flips
    | .acc g w => accError s g w k (flips.setWidth 32)
    | .bank g n c => bankError s g n c k (flips.setWidth 32))

/-- An error of a PROOF sector of a stack that nothing has met. -/
def onStack (s : State) (stack : Nat) (e : ErrMark) : Bool :=
  match e.place with
  | .hbm a _ => stackOf a == stack && byteClassOf s a == .proof
  | _ => false

/-- SCRUB (R338): what the base die meets is counted against it alone. -/
def execScrub (stack : Nat) (s : State) : Out :=
  .next (takeMarks s (onStack s stack) (fun s e => relEvent s (markEvent e) 3 stack 0 (match e.place with
      | .hbm a _ => a
      | _ => 0) none))

/-! ### Re-execution (R341, R342) -/

/-- The lanes of a struck set resume at their restart points, and the event counts (R341). -/
def struck (s : State) (core u : Nat) (ls : List Nat) : State :=
  let s := ls.foldl (fun s l => modLane (restartLane s u l) u l (fun ln => { ln with readyAt := s.cycle + 1 })) s
  relEvent s 3 0 core 0xFF 0 (some (launchOf s u))

/-- A lane is where a re-execution of its region issues a scoreboarded instruction afresh: it has committed, entered and left nothing since. -/
def sameRegion (s : State) (u id : Nat) (x : Issued) : Bool :=
  let ln := lane s u x.lane
  let before := takeCommits { ln with commits := ln.commits.filter (fun c => decide (c.acc < id)) }
  ln.st != .exited && ln.depth == x.depth && curRec before == x.region && ln.commits.all (fun c => decide (c.acc ≤ id + 1))

/-- A scoreboarded result fails its checks: it is dropped, with the stream stores that it would issue, their commits, and the flags raised. -/
def dropResult (s : State) (u id : Nat) (p : Pending) : State :=
  let s := modGrp s u (fun g => { g with pend := tDel g.pend id })
  let s := p.stores.foldl (fun s e => modLane (endAcc s u e.acc) u e.lane (fun ln => commitCut ln e.acc)) s
  p.since.foldl (fun s x => modLane s u x.lane (fun ln => { ln with fmode := ln.fmode &&& ~~~x.raised })) s

/-- PIPE_ERROR (R341): in the set that a pipe issues now, whose turn is used up, or in a scoreboarded result before it is written. -/
def execPipeError (core : Nat) (w : Struck) (s : State) : Out :=
  .next (match groupAt s core w.slot with
    | none => s
    | some u =>
      if w.result = 0 then
        match pipeTurn s core (w.slot % 4) with
        | some (t, some (v, x)) => if v = u then struck t core u x.lanes else s
        | _ => s
      else match tGet? (grp s u).pend w.result with
        | some p =>
          if p.since.isEmpty || !p.since.all (sameRegion s u w.result) then s
          else struck (dropResult s u w.result p) core u (p.since.map (fun x => x.lane))
        | none => s)

/-- The Press command of a queue that runs. -/
def pressRuns (s : State) (core q : Nat) : Option (Nat × Cmd) :=
  match headCmd s core q with
  | some (id, c) => if c.state = .running then some (id, c) else none
  | none => none

/-- A Press bank load restarts from its first tile (R342). -/
def bankAgain (s : State) (id : Nat) (c : Cmd) : State :=
  match c.kind with
  | .bank n a tag bar arr => runBankLoad s id c n a tag.toNat (arrOf bar arr)
  | _ => s

/-- The launches for which the plate unit of a base die may work: that of a store or load on its way to a region of its die, or of a store that is
held there; none for a refit. -/
def plateWork (s : State) (unit : Nat) : List (Option Nat) :=
  let here (desc : Nat) : Bool := desc / 2 ^ 52 == unit / 2
  (s.links.filterMap (fun x => match x.2 with
    | .entry e _ => (match e.act with
      | .plate _ _ d | .precast d | .pset _ _ d => if here d then some (some e.launch) else none
      | _ => none)
    | .read r _ => (match r.kind with
      | .plate _ d | .pquery d | .psync d _ => if here d then some (some r.launch) else none
      | _ => none))) ++
  (s.plates.filter (fun p => here p.1)).flatMap (fun p => p.2.held.map (fun h => some h.e.launch)) ++
  (if (tGet? s.caster (unit / 2)).isSome then [none] else [])

/-- ENGINE_PIPE_ERROR (R342, R340): in a Press it strikes a bank load or a compute command that runs, which of the two is left open; a
base die's plate unit runs its step again, for which launch is left open; a Feeder beat is sent again uncounted; the Caster and the collective engine have no window. -/
def execEnginePipeError (kind unit : Nat) (s : State) : Out :=
  .next (match kind with
    | 1 =>
      (match pressRuns s unit 5, pressRuns s unit 4 with
       | some b, some c =>
         let w := takeFreeWord s
         if bit w.1.toNat 0 then bankAgain (relEvent w.2 3 1 unit 0xFF 0 (some b.2.by_.launch)) b.1 b.2
         else relEvent w.2 3 1 unit 0xFF 0 (some c.2.by_.launch)
       | some b, none => bankAgain (relEvent s 3 1 unit 0xFF 0 (some b.2.by_.launch)) b.1 b.2
       | none, some c => relEvent s 3 1 unit 0xFF 0 (some c.2.by_.launch)
       | none, none => s)
    | 3 =>
      if unit < 8 then
        let w := takeFreeWord s
        let ks := plateWork s unit
        relEvent w.2 3 3 unit 0xFF 0 ((ks[w.1.toNat % ks.length]?).getD none)
      else s
    | _ => s)

/-- FAULT_WINDOW_WRITE (R344): clamped to the nearer bound; every window is emptied. -/
def execFaultWindowWrite (t : Bool) (x : W64) (s : State) : Out :=
  .next (if t then { s with fwt := BitVec.ofNat 32 (max 1 (min 16 (x.toNat % 2 ^ 32))), windows := [] }
    else { s with fwwin := BitVec.ofNat 64 (max 1 (min (2 ^ 48) x.toNat)), windows := [] })

/-! ### Fencing (R347) -/

/-- A resident group of a fenced gang is saved. -/
def fenceGroup (gs : List Nat) (g : Group) : Group :=
  match g.place with
  | .resident n => if gs.contains g.gang && !g.ended then { g with place := .saving n .fencing } else g
  | _ => g

/-- Running Feeder and bank commands of a fenced core are to run again from the beginning; the pages that they pin are released. -/
def fenceCmd (s : State) (id : Nat) : State :=
  let c := cmdAt s id
  match c.kind with
  | .copy .. =>
    if c.state = .running then
      let s := unpinWalk (unpinAll s c.by_.vmid c.by_.asid c.fix) c.by_.vmid c.by_.asid c.pins
      { modCmd s id (fun c => { c with
          state := .queued, fix := [], pos := 0, written := 0, buf := [], begun := [], landedTiles := [], out := [], early := [], plGot := [], pins := [] }) with
        faults := s.faults.map (fun p => (p.1, if p.2.cmd = some id then { p.2 with cmd := none } else p.2)) }
    else s
  | .bank .. =>
    if c.state = .running then
      modCmd (unpinWalk s c.by_.vmid c.by_.asid c.pins) id (fun c => { c with state := .queued, out := [], early := [], plGot := [], pins := [] })
    else s
  | _ => s

/-- Move the galleys of a fenced core to others of its die. -/
def moveGalleys (s : State) (core : Nat) : State := (coreAt s core).galleys.foldl (fun s p => moveGalley s core p.1) s

/-- The gangs of a core. -/
def coreGangs (s : State) (core : Nat) : List Nat := (s.gangs.filter (fun p => p.2.core == core)).map (fun p => p.1)

/-- Fence a core: step 1 of R347, and the start of step 2. -/
def fenceCore (s : State) (core : Nat) : State :=
  if !corePresent s core then s
  else
    let gs := coreGangs s core
    let cs := (s.cmds.filter (fun p => p.2.by_.core == core && coreCmd p.2)).map (fun p => p.1)
    let s := modCore s core (fun c => { c with fenced := true })
    cs.foldl fenceCmd { s with
      gangs := s.gangs.map (fun p => (p.1, if gs.contains p.1 then { p.2 with moved := true } else p.2))
      groups := s.groups.map (fun p => (p.1, fenceGroup gs p.2)) }

/-- Every group of the gangs of a core is saved, or has ended with nothing on its way. -/
def fenceSaved (s : State) (core : Nat) : Bool :=
  (coreGangs s core).all (fun k => (gangAt s k).groups.all (fun u =>
    let g := grp s u
    match g.place with
    | .saved .. => true
    | _ => g.ended && g.ld == 0 && g.st == 0))

/-- The save of a gang reads the words of its registers and arrays through their checks: what errs is counted, and stays poisoned where it is
uncorrectable. -/
def saveRead (s : State) (gang : Nat) : State :=
  let mine (e : ErrMark) : Bool := (match e.place with
    | .scratch .. | .priv .. | .acc .. | .bank .. => true
    | _ => false) && placeGang s e.place == gang
  (gangAt s gang).groups.foldl (fun s u => (List.range 32).foldl (fun s l => (lane s u l).vmark.foldl (fun s n => meetReg s u l n) s) s)
    (takeMarks s mine countArr)

/-- The end of step 2, and step 3 of R347. -/
def fenceEnd (s : State) (core : Nat) : State :=
  let s := (coreGangs s core).foldl saveRead s
  logEvent (moveGalleys { s with coremap := s.coremap &&& ~~~(BitVec.ofNat 192 (2 ^ core)) } core) 4 0 core 0xFF 0 0

/-- A core, its Press or its Feeder was found lasting-faulty (R343, R346). -/
def coreFaulty (s : State) (core : Nat) : Bool := [0, 1, 2].any (fun k => s.lasting.contains (k, core))

/-- CORE_FENCE (R346, R347): a core that is lasting-faulty begins to be fenced; once its gangs are saved, one that is being fenced is taken out of
COREMAP. -/
def execCoreFence (core : Nat) (s : State) : Out :=
  .next (if (coreAt s core).fenced then (if s.coremap.getLsbD core && fenceSaved s core then fenceEnd s core else s)
    else if coreFaulty s core then fenceCore s core else s)

/-! ### Routers and links (R348) -/

/-- ROUTER_DOWN (R348): the network stops; one that is already dead produces no further action (R346). -/
def execRouterDown (die router : Nat) (cut : List Nat) (s : State) : Out :=
  .next (if 4 ≤ die ∨ 64 ≤ router ∨ s.deadRouters.contains (die * 64 + router) = true then s
    else { s with deadRouters := s.deadRouters ++ [die * 64 + router], netStopped := true, reroutes := s.reroutes ++ [(5, 4, die * 64 + router, cut)] })

/-- LINK_DOWN (R348): kind 5 is a die-to-die link pair, 6 a scale-up link (R345). -/
def execLinkDown (kind unit : Nat) (s : State) : Out :=
  .next (if ¬(kind = 5 ∧ unit < 6 ∨ kind = 6 ∧ unit < 16) ∨ s.deadLinks.contains (kind * 1024 + unit) = true then s
    else { s with deadLinks := s.deadLinks ++ [kind * 1024 + unit], netStopped := true, reroutes := s.reroutes ++ [(6, kind, unit, [])] })

/-- NETWORK_RESUME (R348): the records are logged, and the cores that no route reaches are fenced. -/
def execNetworkResume (s : State) : Out :=
  .next (s.reroutes.foldl (fun s r => r.2.2.2.foldl fenceCore (logEvent s r.1 r.2.1 r.2.2.1 0xFF 0 0))
    { s with netStopped := false, reroutes := [] })

/-! ### Replay (R353) -/

/-- A snapshot page is copied back; the copies of it in the remote views go. -/
def snapBack (s : State) (p : Snap) : State :=
  let in_ (k : Nat) : Bool := p.has k
  let s := (List.range 4).foldl (fun s d => dropLines s d p.key p.size) s
  { s with
    mem := p.bytes.foldl (fun m c => smSet memDefault m c.1 c.2) (s.mem.filter (fun c => !in_ c.1))
    poison := s.poison.filter (fun r => !overlaps r.1 r.2 p.key p.size) ++ p.pois
    byteClass := s.byteClass.filter (fun q => !in_ q.1) ++ p.cls
    errors := s.errors.filter (fun e => !markHit s p.key p.size e) }

/-- The bytes, by key, of the stores of a launch on link queues, whose copies in remote views go with the stopped attempt (R354). -/
def launchKeys (s : State) (k : Nat) : List (Nat × Nat) :=
  s.links.filterMap (fun x => match x.2 with
    | .entry e _ => if e.launch = k then some e else none
    | .read .. => none) |>.flatMap (fun e => [(viewKey s e 0, 1), (viewKey s e (e.size - 1), 1)])

/-- A plated region that a launch may write (R255). -/
def plateHit (s : State) (l : Launch) (p : Nat × Plate) : Bool :=
  (writeRegions s (p.1 / 2 ^ 52) l.ctx).any (fun r => r.1 == .plated && mkey (p.1 / 2 ^ 52) r.2 == p.1)

/-- The plate units of the regions that a launch may have written, as its snapshot holds them, every refit of them abandoned (R255). -/
def platesBack (s : State) (l : Launch) : State :=
  let mine := s.plates.filter (plateHit s l)
  let ids := mine.map (fun p => p.1)
  { s with
    plates := mine.foldl (fun m p =>
      let old := smGet {} l.plateSnaps p.1
      smSet {} m p.1 { p.2 with len0 := old.len0, len1 := old.len1, pend := false, refit := .idle, new := [] }) s.plates
    caster := s.caster.filter (fun c => !ids.contains c.2)
    dies := s.dies.map (fun p => (p.1, { p.2 with pending := p.2.pending.filter (fun x => !ids.contains x) })) }

/-- REPLAY (R353): the launch stops, its snapshots come back, and it is placed again with the same number and what is left of its
budgets (R355). -/
def execReplay (id : Nat) (s : State) : Out :=
  .next (match tGet? s.launches id with
    | none => s
    | some l =>
      if !l.replayDue then s
      else
        let ks := launchKeys s id
        let s := stopLaunch s false id
        let s := ks.foldl (fun s x => (List.range 4).foldl (fun s d => dropLines s d x.1 x.2) s) s
        let s := platesBack s l
        let s := l.snaps.foldl snapBack s
        let s := logEvent s 8 0 0 0xFF 0 l.launchid
        modLaunch s id (fun x => { x with
          replayDue := false, replays := x.replays + 1, snaps := [], snapArmed := true, placed := [], statuses := l.statuses.filter (fun x => x == .uncontained), cause := 0, code := 0,
          frec := 0, halted := false, state := .running, notContainable := false, held := l.held }))

end Sys2Proof.Machine
end

