-- ==== Sys2Proof/Machine/EvDebug.lean ====
section
/-! DEFINITION. The debug ports' events (R356 to R368). A port is named 4 * context + k. -/

namespace Sys2Proof.Machine

/-! ### Commands (R359) -/

/-- A command ends: GO reads 0, DSTAT holds its result. -/
def endCommand (s : State) (port op stat : Nat) : State :=
  modPort s (port / 4) (port % 4) (fun p => { p with dcmd := BitVec.ofNat 32 op, dstat := BitVec.ofNat 32 stat })

/-- A command runs under a right (R359, R363): DENIED without it; where the right is being revoked, it may be aborted. -/
def portCommand (s : State) (port op right : Nat) (act : State → State × Nat) : State :=
  let p := portAt s (port / 4) (port % 4)
  if s.pkg ≠ .ready ∨ 4096 ≤ port then s
  else if !hasRight p right then endCommand s port op 2
  else if !bit p.drights.toNat right && bit (Config.freeWord s.free).toNat 0 then endCommand { s with free := s.free + 1 } port op 1
  else
    let r := act { s with free := s.free + 1 }
    endCommand r.1 port op r.2

/-! ### HALT and RESUME (R360) -/

/-- DLAUNCH of a port selects a launch of its context. -/
def selects (s : State) (port : Nat) (l : Launch) : Bool :=
  let d := (portAt s (port / 4) (port % 4)).dlaunch
  l.ctx == port / 4 && (d == 0 || d == l.launchid)

/-- Results of a group that are pending are written: what was issued completes. -/
def flushPend (s : State) (u : Nat) : State :=
  (grp s u).pend.foldl (fun s p => writePend s u p.1) s

/-- HALT: the groups of the launches stop, and no further gang of them starts. -/
def haltLaunches (s : State) (port : Nat) : State :=
  let ks := (s.launches.filter (fun p => selects s port p.2)).map (fun p => p.1)
  let us := (s.groups.filter (fun p => ks.contains (launchOf s p.1))).map (fun p => p.1)
  let s := us.foldl (fun s u => flushPend (modGrp s u (fun g => { g with halted := (g.halted ++ [port % 4]).eraseDups })) u) s
  ks.foldl (fun s k => modLaunch s k (fun l => { l with held := (l.held ++ [port % 4]).eraseDups })) s

/-- A port no longer halts a group; with none left, its lanes go on (R362). -/
def unhalt (k : Nat) (g : Group) : Group :=
  let hs := g.halted.filter (fun n => n != k)
  { g with halted := hs, lanes := if hs.isEmpty then g.lanes.map (fun ln => { ln with broke := none }) else g.lanes }

/-- Lanes that a claimed WATCH stopped go on at their restart points where no port halts their group any more (R362). -/
def rewindLanes (s : State) (u : Nat) : State :=
  if (grp s u).halted.isEmpty then
    (List.range 32).foldl (fun s l =>
      if (lane s u l).rewind then modLane (restartLane s u l) u l (fun ln => { ln with rewind := false }) else s) s
  else s

/-- RESUME: a port's halts of the launches that a test picks are released. -/
def releaseHalts (s : State) (k : Nat) (p : Launch → Bool) : State :=
  let ks := (s.launches.filter (fun x => p x.2)).map (fun x => x.1)
  let us := (s.groups.filter (fun x => ks.contains (launchOf s x.1))).map (fun x => x.1)
  us.foldl rewindLanes { s with
    groups := s.groups.map (fun x => (x.1, if us.contains x.1 then unhalt k x.2 else x.2))
    launches := s.launches.map (fun x => (x.1, if ks.contains x.1 then { x.2 with held := x.2.held.filter (fun n => n != k) } else x.2)) }

/-- DEBUG_HALT (R360). -/
def execDebugHalt (port : Nat) (s : State) : Out := .next (portCommand s port 1 0 (fun s => (haltLaunches s port, 0)))
/-- DEBUG_RESUME (R360). -/
def execDebugResume (port : Nat) (s : State) : Out :=
  .next (portCommand s port 2 0 (fun s => (releaseHalts s (port % 4) (selects s port), 0)))

/-! ### READREG and WRITEREG (R361) -/

/-- Fields of DSEL (R358). -/
def selCore (d : Nat) : Nat := bits d 7 0
def selSlot (d : Nat) : Nat := bits d 12 8
def selLane (d : Nat) : Nat := bits d 17 13
def selNum (d : Nat) : Nat := bits d 29 18
def selSpace (d : Nat) : Nat := bits d 31 30

/-- The halted group of a context that DSEL names: resident in the slot, or saved after it held the slot. -/
def selGroup (s : State) (ctx d : Nat) : Option Nat :=
  let here (p : Nat × Group) : Bool := (gangAt s p.2.gang).core == selCore d && ctxOf s p.1 == ctx && !p.2.halted.isEmpty
  match s.groups.find? (fun p => here p && holdsSlot p.2 == some (selSlot d)) with
  | some p => some p.1
  | none => (s.groups.find? (fun p => here p && (slotOf p.2).isNone && p.2.lastSlot == selSlot d)).map (fun p => p.1)

/-- A register that DSEL names. -/
inductive SelReg where
  | word (n : Nat) | csr (c : Csr) | bad
  deriving DecidableEq, Repr

/-- The register of DSEL's RSPACE and RNUM. -/
def selReg (d : Nat) : SelReg :=
  let n := selNum d
  match selSpace d with
  | 0 => if n < 128 then .word n else .bad
  | 1 => if n < 10 then .word (128 + n) else .bad
  | 2 => (match csrOf n with
    | some c => .csr c
    | none => .bad)
  | _ => .bad

/-- READREG: the data and the result. -/
def readSel (s : State) (ctx d : Nat) : W64 × Nat :=
  match selGroup s ctx d with
  | none => (0, 3)
  | some u =>
    let ln := lane s u (selLane d)
    match selReg d with
    | .bad => (0, 4)
    | .word n => if ln.vpois.contains n then (0, 5) else (BitVec.ofNat 64 (getReg ln n).toNat, 0)
    | .csr c => (BitVec.ofNat 64 (csrRead (gangOf s u).privsz ln c), 0)

/-- READREG (R361): DDATA changes where a word is read, and is 0 for a poisoned one. -/
def execReadreg (port : Nat) (s : State) : Out :=
  .next (portCommand s port 3 1 (fun s =>
    let r := readSel s (port / 4) (portAt s (port / 4) (port % 4)).dsel.toNat
    (if r.2 = 0 ∨ r.2 = 5 then modPort s (port / 4) (port % 4) (fun p => { p with ddata := r.1 }) else s, r.2)))

/-- A write to a CSR that may be made: not to a read-only one, and none that changes MODE or DEPTH. -/
def csrWritable (ln : Lane) (c : Csr) (x : Nat) : Bool :=
  !bit (csrC c) 9 && (c != .mstat || (bits x 1 0 == modeCode ln.mode && bits x 4 2 == ln.depth))

/-- WRITEREG. -/
def writeSel (s : State) (ctx d : Nat) (x : W64) : State × Nat :=
  match selGroup s ctx d with
  | none => (s, 3)
  | some u =>
    let l := selLane d
    match selReg d with
    | .bad => (s, 4)
    | .word n => (modLane s u l (fun ln => setReg ln n (x.setWidth 32)), 0)
    | .csr c =>
      if !csrWritable (lane s u l) c x.toNat then (s, 4)
      else
        let p := (gangOf s u).privsz
        let id := s.fresh
        (modLane { s with fresh := id + 2 } u l (fun ln => csrWrite p u l id ln c x.toNat), 0)

/-- WRITEREG (R361). -/
def execWritereg (port : Nat) (s : State) : Out :=
  .next (portCommand s port 4 2 (fun s =>
    let p := portAt s (port / 4) (port % 4)
    writeSel s (port / 4) p.dsel.toNat p.ddata))

/-! ### Sessions (R364) -/

/-- TROPEN (R364). -/
def execTropen (port : Nat) (s : State) : Out :=
  .next (portCommand s port 5 3 (fun s =>
    (modPort s (port / 4) (port % 4) (fun p => { p with session := true, trtail := p.trhead, lost := 0 }), 0)))
/-- TRCLOSE (R364). -/
def execTrclose (port : Nat) (s : State) : Out :=
  .next (portCommand s port 6 3 (fun s => (endSession s (port / 4) (port % 4) (traceRecord s.gtick 4 0 0xFFFF 0 0 0), 0)))

/-- BADCMD (R359). -/
def execBadcmd (port op : Nat) (s : State) : Out :=
  .next (if s.pkg ≠ .ready ∨ 4096 ≤ port ∨ 16 ≤ op ∨ (1 ≤ op ∧ op ≤ 6) then s else endCommand s port op 6)

/-! ### Rights (R356, R363) -/

/-- RIGHTS_WRITE (R356, R363): reserved bits read 0. -/
def execRightsWrite (port : Nat) (x : W64) (s : State) : Out :=
  .next (if s.pkg ≠ .ready ∨ 4096 ≤ port then s
    else modPort s (port / 4) (port % 4) (fun p => { p with drights := x &&& 0x3F#64 }))

/-- RIGHTS_TAKE_EFFECT (R363). -/
def execRightsTakeEffect (port : Nat) (s : State) : Out :=
  let n := port / 4
  let k := port % 4
  let p := portAt s n k
  let lost (b : Nat) : Bool := bit p.prights.toNat b && !bit p.drights.toNat b
  .next (if 4096 ≤ port then s
    else
      let s := if lost 3 then endSession s n k (traceRecord s.gtick 5 0 0xFFFF 0 0x80 0) else s
      let s := if lost 0 then releaseHalts s k (fun l => l.ctx == n) else s
      modPort s n k (fun p => { p with
        prights := p.drights
        dctl := if lost 0 then 0 else p.dctl
        wcfg := if lost 0 then 0 else p.wcfg
        speriod := if lost 4 then 0 else p.speriod }))

/-! ### STOP (R368) -/

/-- STOPAT_WRITE (R368): the earliest tick asked for is that of the STOP. -/
def execStopatWrite (port : Nat) (x : W64) (s : State) : Out :=
  .next (if s.pkg ≠ .ready ∨ 4096 ≤ port ∨ hasRight (portAt s (port / 4) (port % 4)) 5 = false then s
    else
      let t : W64 := if x.toNat ≤ s.gtick.toNat then s.gtick + 1 else x
      let t := match s.stopAt with
        | some u => if u.toNat ≤ t.toNat then u else t
        | none => t
      { modPort s (port / 4) (port % 4) (fun p => { p with stopat := x }) with stopAt := some t })

/-- The tick of a STOP has come. -/
def stopDue (s : State) : Bool :=
  match s.stopAt with
  | some t => decide (t.toNat ≤ s.gtick.toNat)
  | none => false

/-- PACKAGE_STOP (R366, R368). -/
def execPackageStop (s : State) : Out :=
  .next (if !stopDue s then s
    else
      let s := s.ctxs.foldl (fun s c => (List.range 4).foldl (fun s k => endSession s c.1 k (traceRecord s.gtick 6 0 0xFFFF 0 0 0)) s) s
      { s with stopped := true })

/-- What still has an effect in a stopped package: a reset, and what the Cudin link brings to the debug ports, whose clocks run on. -/
def portEvent (i : Instr) : Bool :=
  match i with
  | .packageReset | .rightsWrite .. | .rightsTakeEffect _ | .stopatWrite .. | .debugHalt _ | .debugResume _ | .readreg _ | .writereg _ | .tropen _
  | .trclose _ | .badcmd .. => true
  | .registerWrite ofs _ => decide (0x800000 ≤ ofs) && decide (ofs < 0x800000 + 0x1000 * 1024)
  | _ => false

/-! ### Samples (R367) -/

/-- A port owes a sample of a group: its tick has come, the group holds a slot on a selected core, and none was made in this tick. -/
def sampleOwed (s : State) (port u : Nat) : Bool :=
  let p := portAt s (port / 4) (port % 4)
  let t := s.gtick.toNat
  p.speriod != 0 && t % p.speriod.toNat == 0 && ctxOf s u == port / 4 && (holdsSlot (grp s u)).isSome && (tGet? s.groups u).isSome &&
    (p.score == 0xFFFF || p.score.toNat == coreOf s u) && p.sampleOver != t + 1 && !(p.sampleTick == t + 1 && p.sampled.contains u)

/-- The group's pipe has had its turn in this cycle: whether the group issues in it is settled (R202). -/
def turnOver (s : State) (u : Nat) : Bool :=
  let pipe := ((slotOf (grp s u)).getD 0) % 4
  nth false (coreAt s (coreOf s u)).issued pipe || !pipeReady s (coreOf s u) pipe

/-- A port's sample of a group is due: it is owed, and the group's stall mask in this cycle is settled. -/
def sampleDue (s : State) (port u : Nat) : Bool := sampleOwed s port u && turnOver s u

/-- The SAMPLE record of a group (R365). -/
def sampleRecord (s : State) (u : Nat) : List Byte :=
  let g := grp s u
  let m := stallMask s u
  let mask := m + 256 * (if m = 0 then 0xF else stallReason m) + 4096 * b2n (!g.halted.isEmpty)
  traceRecord s.gtick 2 ((holdsSlot g).getD 0) (coreOf s u) mask 0 (match bfa g with
    | some x => x.1.toNat
    | none => 0)

/-- SAMPLE (R367). -/
def execSample (port uid : Nat) (s : State) : Out :=
  .next (if !sampleDue s port uid then s
    else
      let n := port / 4
      let k := port % 4
      let t := s.gtick.toNat + 1
      let s := modPort s n k (fun p => { p with sampleTick := t, sampled := (if p.sampleTick = t then p.sampled else []) ++ [uid] })
      sendRecord s n k (sampleRecord s uid))

/-! ### Ticks (R13, R367) -/

/-- What the ports owe in this tick by a test: port and group. -/
def samplesBy (s : State) (p : State → Nat → Nat → Bool) : List (Nat × Nat) :=
  s.ctxs.flatMap (fun c => (List.range 4).flatMap (fun k => (s.groups.filter (fun g => p s (4 * c.1 + k) g.1)).map (fun g => (4 * c.1 + k, g.1))))

/-- The samples of a tick are made by the end of its first cycle; none is owed in it afterwards. -/
def makeSamples (s : State) : State :=
  let s := (samplesBy s sampleDue).foldl (fun s p => match execSample p.1 p.2 s with
    | .next t => t
    | _ => s) s
  { s with ctxs := s.ctxs.map (fun c => (c.1, { c.2 with ports := c.2.ports.map (fun p =>
      if p.speriod ≠ 0 ∧ s.gtick.toNat % p.speriod.toNat = 0 then { p with sampleOver := s.gtick.toNat + 1 } else p) })) }

/-- GTICK advances by a tick that has passed (R13); PWRNOW is renewed at its period, at a value that the spec does not fix (R322). -/
def tickOnce (s : State) : State :=
  let s := { s with gtick := s.gtick + 1, phase := s.phase - tickUnits }
  if s.gtick.toNat % 1200000 = 0 then
    { s with pwrnow := BitVec.ofNat 32 ((Config.freeWord s.free).toNat % (s.pwrlim.toNat + 1)), free := s.free + 1 }
  else s

/-- A tick has passed that GTICK has yet to count. -/
def tickOwed (s : State) : Bool := decide (tickUnits ≤ s.phase) && !s.stopped && !stopDue s

/-- GTICK_ADVANCE (R13, R322): a tick that has passed is counted, once the samples of the tick that ends are made. -/
def execGtickAdvance (s : State) : Out := .next (if tickOwed s ∧ samplesBy s sampleOwed = [] then tickOnce s else s)

/-- GTICK counts the ticks that have passed, at most n, with the samples of each. -/
def tickMany : Nat → State → State
  | 0, s => s
  | n + 1, s => if tickOwed s then tickMany n (makeSamples (tickOnce s)) else s

end Sys2Proof.Machine
end

