-- ==== Sys2Proof/Machine/Dispatch.lean ====
section
/-! DEFINITION. What each instruction does: one arm per constructor. -/

namespace Sys2Proof.Machine

def exec (i : Instr) (s : State) : Host.Outcome State Fault Refusal :=
  match i with
  | .nop => Sys2Proof.Machine.execNop s
  | .mov t d a => Sys2Proof.Machine.execMov t d a s
  | .iadd t sat d a b => Sys2Proof.Machine.execIadd t sat d a b s
  | .isub t sat d a b => Sys2Proof.Machine.execIsub t sat d a b s
  | .imul t sat d a b => Sys2Proof.Machine.execImul t sat d a b s
  | .imulh uns d a b => Sys2Proof.Machine.execImulh uns d a b s
  | .iaddw uns d a b => Sys2Proof.Machine.execIaddw uns d a b s
  | .imulw uns d a b => Sys2Proof.Machine.execImulw uns d a b s
  | .imad d a b c => Sys2Proof.Machine.execImad d a b c s
  | .imin t d a b => Sys2Proof.Machine.execImin t d a b s
  | .imax t d a b => Sys2Proof.Machine.execImax t d a b s
  | .iabs wide sat d a => Sys2Proof.Machine.execIabs wide sat d a s
  | .and t d a b => Sys2Proof.Machine.execAnd t d a b s
  | .or t d a b => Sys2Proof.Machine.execOr t d a b s
  | .xor t d a b => Sys2Proof.Machine.execXor t d a b s
  | .andn t d a b => Sys2Proof.Machine.execAndn t d a b s
  | .shl t d a b => Sys2Proof.Machine.execShl t d a b s
  | .shr t d a b => Sys2Proof.Machine.execShr t d a b s
  | .sar t d a b => Sys2Proof.Machine.execSar t d a b s
  | .rot t d a b => Sys2Proof.Machine.execRot t d a b s
  | .bfx sgn d a b c => Sys2Proof.Machine.execBfx sgn d a b c s
  | .bfi d a b c => Sys2Proof.Machine.execBfi d a b c s
  | .popc t d a => Sys2Proof.Machine.execPopc t d a s
  | .clz t d a => Sys2Proof.Machine.execClz t d a s
  | .ctz t d a => Sys2Proof.Machine.execCtz t d a s
  | .brev t d a => Sys2Proof.Machine.execBrev t d a s
  | .icmp cc t d a b => Sys2Proof.Machine.execIcmp cc t d a b s
  | .sel d a b c => Sys2Proof.Machine.execSel d a b c s
  | .lea uns sc d a b => Sys2Proof.Machine.execLea uns sc d a b s
  | .prmt d a b c => Sys2Proof.Machine.execPrmt d a b c s
  | .vote m d a => Sys2Proof.Machine.execVote m d a s
  | .perm wide d a b => Sys2Proof.Machine.execPerm wide d a b s
  | .fadd t r d a b => Sys2Proof.Machine.execFadd t r d a b s
  | .fsub t r d a b => Sys2Proof.Machine.execFsub t r d a b s
  | .fmul t r d a b => Sys2Proof.Machine.execFmul t r d a b s
  | .fma neg d a b c => Sys2Proof.Machine.execFma neg d a b c s
  | .fmac t r d a b => Sys2Proof.Machine.execFmac t r d a b s
  | .fmin t nan d a b => Sys2Proof.Machine.execFmin t nan d a b s
  | .fmax t nan d a b => Sys2Proof.Machine.execFmax t nan d a b s
  | .fcmp cc t d a b => Sys2Proof.Machine.execFcmp cc t d a b s
  | .frcp r d a => Sys2Proof.Machine.execFrcp r d a s
  | .frsq r d a => Sys2Proof.Machine.execFrsq r d a s
  | .fsqrt r d a => Sys2Proof.Machine.execFsqrt r d a s
  | .fexp2 r d a => Sys2Proof.Machine.execFexp2 r d a s
  | .flog2 r d a => Sys2Proof.Machine.execFlog2 r d a s
  | .frnd t r x d a => Sys2Proof.Machine.execFrnd t r x d a s
  | .fclass t d a => Sys2Proof.Machine.execFclass t d a s
  | .fscale t r d a b => Sys2Proof.Machine.execFscale t r d a b s
  | .cvt dir f sat r d a => Sys2Proof.Machine.execCvt dir f sat r d a s
  | .quant f blk tr r d a => Sys2Proof.Machine.execQuant f blk tr r d a s
  | .deq f j r d a b => Sys2Proof.Machine.execDeq f j r d a b s
  | .h2add bf r d a b => Sys2Proof.Machine.execH2add bf r d a b s
  | .h2mul bf r d a b => Sys2Proof.Machine.execH2mul bf r d a b s
  | .h2fma bf d a b c => Sys2Proof.Machine.execH2fma bf d a b c s
  | .fdot2 bf d a b c => Sys2Proof.Machine.execFdot2 bf d a b c s
  | .dadd r d a b => Sys2Proof.Machine.execDadd r d a b s
  | .dmul r d a b => Sys2Proof.Machine.execDmul r d a b s
  | .dfma neg d a b c => Sys2Proof.Machine.execDfma neg d a b c s
  | .mmag f mix r d a b => Sys2Proof.Machine.execMmag f mix r d a b s
  | .cmul t conj r d a b => Sys2Proof.Machine.execCmul t conj r d a b s
  | .rng f d a b => Sys2Proof.Machine.execRng f d a b s
  | .movi t d k => Sys2Proof.Machine.execMovi t d k s
  | .movhi d a k => Sys2Proof.Machine.execMovhi d a k s
  | .iaddi t sat d a k => Sys2Proof.Machine.execIaddi t sat d a k s
  | .imuli t sat d a k => Sys2Proof.Machine.execImuli t sat d a k s
  | .andi t d a k => Sys2Proof.Machine.execAndi t d a k s
  | .ori t d a k => Sys2Proof.Machine.execOri t d a k s
  | .xori t d a k => Sys2Proof.Machine.execXori t d a k s
  | .shli t d a k => Sys2Proof.Machine.execShli t d a k s
  | .shri t d a k => Sys2Proof.Machine.execShri t d a k s
  | .sari t d a k => Sys2Proof.Machine.execSari t d a k s
  | .icmpi cc t d a k => Sys2Proof.Machine.execIcmpi cc t d a k s
  | .fmovi d k => Sys2Proof.Machine.execFmovi d k s
  | .faddi r d a k => Sys2Proof.Machine.execFaddi r d a k s
  | .fmuli r d a k => Sys2Proof.Machine.execFmuli r d a k s
  | .fmai r d a k => Sys2Proof.Machine.execFmai r d a k s
  | .fcmpi cc d a k => Sys2Proof.Machine.execFcmpi cc d a k s
  | .ldc d a k => Sys2Proof.Machine.execLdc d a k s
  | .leai sc d a k => Sys2Proof.Machine.execLeai sc d a k s
  | .ld sz ord d a ofs b => Sys2Proof.Machine.execLd sz ord d a ofs b s
  | .st sz ord x a ofs b => Sys2Proof.Machine.execSt sz ord x a ofs b s
  | .lds sz sem d a ofs b => Sys2Proof.Machine.execLds sz sem d a ofs b s
  | .sts sz sem x a ofs b => Sys2Proof.Machine.execSts sz sem x a ofs b s
  | .ldp sz d a ofs b => Sys2Proof.Machine.execLdp sz d a ofs b s
  | .stp sz x a ofs b => Sys2Proof.Machine.execStp sz x a ofs b s
  | .ldacc sz d a ofs b => Sys2Proof.Machine.execLdacc sz d a ofs b s
  | .qdef q a f => Sys2Proof.Machine.execQdef q a f s
  | .qget d q f => Sys2Proof.Machine.execQget d q f s
  | .pf a ofs b => Sys2Proof.Machine.execPf a ofs b s
  | .cwb a ofs b => Sys2Proof.Machine.execCwb a ofs b s
  | .cinv a ofs b => Sys2Proof.Machine.execCinv a ofs b s
  | .ttag x b => Sys2Proof.Machine.execTtag x b s
  | .ldt d b => Sys2Proof.Machine.execLdt d b s
  | .aadd wide ord d a ofs b => Sys2Proof.Machine.execAadd wide ord d a ofs b s
  | .amin wide ord d a ofs b => Sys2Proof.Machine.execAmin wide ord d a ofs b s
  | .amax wide ord d a ofs b => Sys2Proof.Machine.execAmax wide ord d a ofs b s
  | .aand wide ord d a ofs b => Sys2Proof.Machine.execAand wide ord d a ofs b s
  | .aor wide ord d a ofs b => Sys2Proof.Machine.execAor wide ord d a ofs b s
  | .axor wide ord d a ofs b => Sys2Proof.Machine.execAxor wide ord d a ofs b s
  | .axchg wide ord d a ofs b => Sys2Proof.Machine.execAxchg wide ord d a ofs b s
  | .ainc ord d a ofs b => Sys2Proof.Machine.execAinc ord d a ofs b s
  | .acas wide ord d a ofs b => Sys2Proof.Machine.execAcas wide ord d a ofs b s
  | .afadd wide ord d a ofs b => Sys2Proof.Machine.execAfadd wide ord d a ofs b s
  | .afmin ord d a ofs b => Sys2Proof.Machine.execAfmin ord d a ofs b s
  | .afmax ord d a ofs b => Sys2Proof.Machine.execAfmax ord d a ofs b s
  | .afadd2 ord d a ofs b => Sys2Proof.Machine.execAfadd2 ord d a ofs b s
  | .eld sz ord d a ofs b => Sys2Proof.Machine.execEld sz ord d a ofs b s
  | .est sz ord d a ofs b => Sys2Proof.Machine.execEst sz ord d a ofs b s
  | .erel ord a ofs b => Sys2Proof.Machine.execErel ord a ofs b s
  | .enew ord d a ofs => Sys2Proof.Machine.execEnew ord d a ofs s
  | .precast a ofs => Sys2Proof.Machine.execPrecast a ofs s
  | .psync a ofs => Sys2Proof.Machine.execPsync a ofs s
  | .pquery d a ofs => Sys2Proof.Machine.execPquery d a ofs s
  | .pset x a ofs b => Sys2Proof.Machine.execPset x a ofs b s
  | .fence k scope => Sys2Proof.Machine.execFence k scope s
  | .acqr scope a ofs => Sys2Proof.Machine.execAcqr scope a ofs s
  | .bra tgt => Sys2Proof.Machine.execBra tgt s
  | .brc ck c tgt => Sys2Proof.Machine.execBrc ck c tgt s
  | .call tgt link => Sys2Proof.Machine.execCall tgt link s
  | .ret c => Sys2Proof.Machine.execRet c s
  | .jmpi c link => Sys2Proof.Machine.execJmpi c link s
  | .brx c tgt stride count => Sys2Proof.Machine.execBrx c tgt stride count s
  | .exit => Sys2Proof.Machine.execExit s
  | .yield => Sys2Proof.Machine.execYield s
  | .sleep n => Sys2Proof.Machine.execSleep n s
  | .wait ld st cp tl => Sys2Proof.Machine.execWait ld st cp tl s
  | .drain p => Sys2Proof.Machine.execDrain p s
  | .barArr c bar => Sys2Proof.Machine.execBarArr c bar s
  | .barWait c bar => Sys2Proof.Machine.execBarWait c bar s
  | .barSync bar => Sys2Proof.Machine.execBarSync bar s
  | .barInit c bar => Sys2Proof.Machine.execBarInit c bar s
  | .fcopy q spad a => Sys2Proof.Machine.execFcopy q spad a s
  | .pcmd a => Sys2Proof.Machine.execPcmd a s
  | .pbank n a b bar arr => Sys2Proof.Machine.execPbank n a b bar arr s
  | .pclr a b bar arr => Sys2Proof.Machine.execPclr a b bar arr s
  | .sgset e a => Sys2Proof.Machine.execSgset e a s
  | .coll k a => Sys2Proof.Machine.execColl k a s
  | .collNow a => Sys2Proof.Machine.execCollNow a s
  | .bkset k a => Sys2Proof.Machine.execBkset k a s
  | .bkadd k b => Sys2Proof.Machine.execBkadd k b s
  | .tapePush a => Sys2Proof.Machine.execTapePush a s
  | .tapeMark => Sys2Proof.Machine.execTapeMark s
  | .tapeUnwind => Sys2Proof.Machine.execTapeUnwind s
  | .taskPost a b => Sys2Proof.Machine.execTaskPost a b s
  | .taskDone => Sys2Proof.Machine.execTaskDone s
  | .spawn a b => Sys2Proof.Machine.execSpawn a b s
  | .qfence q mask => Sys2Proof.Machine.execQfence q mask s
  | .launch p a => Sys2Proof.Machine.execLaunch p a s
  | .syscall n => Sys2Proof.Machine.execSyscall n s
  | .hcall n => Sys2Proof.Machine.execHcall n s
  | .tret => Sys2Proof.Machine.execTret s
  | .sread d sr a => Sys2Proof.Machine.execSread d sr a s
  | .swrite sr a b => Sys2Proof.Machine.execSwrite sr a b s
  | .csrr d n => Sys2Proof.Machine.execCsrr d n s
  | .csrw op d n a => Sys2Proof.Machine.execCsrw op d n a s
  | .brk n => Sys2Proof.Machine.execBrk n s
  | .halt n => Sys2Proof.Machine.execHalt n s
  | .tick d => Sys2Proof.Machine.execTick d s
  | .trace t a => Sys2Proof.Machine.execTrace t a s
  | .icinv a b => Sys2Proof.Machine.execIcinv a b s
  | .lmapSet a b => Sys2Proof.Machine.execLmapSet a b s
  | .lmapClr a b => Sys2Proof.Machine.execLmapClr a b s
  | .ebudGet d => Sys2Proof.Machine.execEbudGet d s
  | .ebudSet d a b => Sys2Proof.Machine.execEbudSet d a b s
  | .rclassSet c d => Sys2Proof.Machine.execRclassSet c d s
  | .rclassGet d => Sys2Proof.Machine.execRclassGet d s
  | .nopShort => Sys2Proof.Machine.execNopShort s
  | .movShort d a => Sys2Proof.Machine.execMovShort d a s
  | .iaddShort d a b => Sys2Proof.Machine.execIaddShort d a b s
  | .isubShort d a b => Sys2Proof.Machine.execIsubShort d a b s
  | .imulShort d a b => Sys2Proof.Machine.execImulShort d a b s
  | .imulhShort d a b => Sys2Proof.Machine.execImulhShort d a b s
  | .imadShort d a b => Sys2Proof.Machine.execImadShort d a b s
  | .iminShort d a b => Sys2Proof.Machine.execIminShort d a b s
  | .imaxShort d a b => Sys2Proof.Machine.execImaxShort d a b s
  | .iminZ32Short d a b => Sys2Proof.Machine.execIminZ32Short d a b s
  | .imaxZ32Short d a b => Sys2Proof.Machine.execImaxZ32Short d a b s
  | .iabsShort d a => Sys2Proof.Machine.execIabsShort d a s
  | .andShort d a b => Sys2Proof.Machine.execAndShort d a b s
  | .orShort d a b => Sys2Proof.Machine.execOrShort d a b s
  | .xorShort d a b => Sys2Proof.Machine.execXorShort d a b s
  | .andnShort d a b => Sys2Proof.Machine.execAndnShort d a b s
  | .shlShort d a b => Sys2Proof.Machine.execShlShort d a b s
  | .shrShort d a b => Sys2Proof.Machine.execShrShort d a b s
  | .sarShort d a b => Sys2Proof.Machine.execSarShort d a b s
  | .rotShort d a b => Sys2Proof.Machine.execRotShort d a b s
  | .popcShort d a => Sys2Proof.Machine.execPopcShort d a s
  | .clzShort d a => Sys2Proof.Machine.execClzShort d a s
  | .ctzShort d a => Sys2Proof.Machine.execCtzShort d a s
  | .brevShort d a => Sys2Proof.Machine.execBrevShort d a s
  | .icmpEqShort d a b => Sys2Proof.Machine.execIcmpEqShort d a b s
  | .icmpNeShort d a b => Sys2Proof.Machine.execIcmpNeShort d a b s
  | .icmpLtShort d a b => Sys2Proof.Machine.execIcmpLtShort d a b s
  | .icmpLeShort d a b => Sys2Proof.Machine.execIcmpLeShort d a b s
  | .icmpLtZ32Short d a b => Sys2Proof.Machine.execIcmpLtZ32Short d a b s
  | .icmpLeZ32Short d a b => Sys2Proof.Machine.execIcmpLeZ32Short d a b s
  | .selShort d a b => Sys2Proof.Machine.execSelShort d a b s
  | .permShort d a b => Sys2Proof.Machine.execPermShort d a b s
  | .faddShort d a b => Sys2Proof.Machine.execFaddShort d a b s
  | .fsubShort d a b => Sys2Proof.Machine.execFsubShort d a b s
  | .fmulShort d a b => Sys2Proof.Machine.execFmulShort d a b s
  | .fmaShort d a b => Sys2Proof.Machine.execFmaShort d a b s
  | .fmacShort d a b => Sys2Proof.Machine.execFmacShort d a b s
  | .fminShort d a b => Sys2Proof.Machine.execFminShort d a b s
  | .fmaxShort d a b => Sys2Proof.Machine.execFmaxShort d a b s
  | .fcmpEqShort d a b => Sys2Proof.Machine.execFcmpEqShort d a b s
  | .fcmpLtShort d a b => Sys2Proof.Machine.execFcmpLtShort d a b s
  | .fcmpLeShort d a b => Sys2Proof.Machine.execFcmpLeShort d a b s
  | .frcpShort d a => Sys2Proof.Machine.execFrcpShort d a s
  | .frsqShort d a => Sys2Proof.Machine.execFrsqShort d a s
  | .fsqrtShort d a => Sys2Proof.Machine.execFsqrtShort d a s
  | .fexp2Short d a => Sys2Proof.Machine.execFexp2Short d a s
  | .flog2Short d a => Sys2Proof.Machine.execFlog2Short d a s
  | .frndShort d a => Sys2Proof.Machine.execFrndShort d a s
  | .fclassShort d a => Sys2Proof.Machine.execFclassShort d a s
  | .fscaleShort d a b => Sys2Proof.Machine.execFscaleShort d a b s
  | .cvtI32F32Short d a => Sys2Proof.Machine.execCvtI32F32Short d a s
  | .cvtF32I32Short d a => Sys2Proof.Machine.execCvtF32I32Short d a s
  | .h2addF16Short d a b => Sys2Proof.Machine.execH2addF16Short d a b s
  | .h2mulF16Short d a b => Sys2Proof.Machine.execH2mulF16Short d a b s
  | .h2fmaF16Short d a b => Sys2Proof.Machine.execH2fmaF16Short d a b s
  | .h2addBf16Short d a b => Sys2Proof.Machine.execH2addBf16Short d a b s
  | .h2mulBf16Short d a b => Sys2Proof.Machine.execH2mulBf16Short d a b s
  | .h2fmaBf16Short d a b => Sys2Proof.Machine.execH2fmaBf16Short d a b s
  | .fdot2F16Short d a b => Sys2Proof.Machine.execFdot2F16Short d a b s
  | .fdot2Bf16Short d a b => Sys2Proof.Machine.execFdot2Bf16Short d a b s
  | .daddShort d a b => Sys2Proof.Machine.execDaddShort d a b s
  | .dmulShort d a b => Sys2Proof.Machine.execDmulShort d a b s
  | .dfmaShort d a b => Sys2Proof.Machine.execDfmaShort d a b s
  | .fill core va => Sys2Proof.Machine.execFill core va s
  | .loopBufferRefill core pipe => Sys2Proof.Machine.execLoopBufferRefill core pipe s
  | .codePrefetch core va => Sys2Proof.Machine.execCodePrefetch core va s
  | .resultWriteback uid id => Sys2Proof.Machine.execResultWriteback uid id s
  | .sleepEnd uid lane => Sys2Proof.Machine.execSleepEnd uid lane s
  | .leave uid lane => Sys2Proof.Machine.execLeave uid lane s
  | .drainMove uid lane => Sys2Proof.Machine.execDrainMove uid lane s
  | .deliver id answer => Sys2Proof.Machine.execDeliver id answer s
  | .refresh die addr => Sys2Proof.Machine.execRefresh die addr s
  | .drop die addr => Sys2Proof.Machine.execDrop die addr s
  | .promote core id => Sys2Proof.Machine.execPromote core id s
  | .wake k => Sys2Proof.Machine.execWake k s
  | .pollListRead k => Sys2Proof.Machine.execPollListRead k s
  | .refitStart die => Sys2Proof.Machine.execRefitStart die s
  | .knotRead die => Sys2Proof.Machine.execKnotRead die s
  | .refitVerify die => Sys2Proof.Machine.execRefitVerify die s
  | .refitSwap die => Sys2Proof.Machine.execRefitSwap die s
  | .errataTimeout id => Sys2Proof.Machine.execErrataTimeout id s
  | .pressCommandStart core => Sys2Proof.Machine.execPressCommandStart core s
  | .pressCommandComplete core => Sys2Proof.Machine.execPressCommandComplete core s
  | .pclrRun core => Sys2Proof.Machine.execPclrRun core s
  | .bankLoad core => Sys2Proof.Machine.execBankLoad core s
  | .bankLoadComplete core => Sys2Proof.Machine.execBankLoadComplete core s
  | .feederCopyStart core q => Sys2Proof.Machine.execFeederCopyStart core q s
  | .tileLanded core q tile => Sys2Proof.Machine.execTileLanded core q tile s
  | .followOnAppend core q => Sys2Proof.Machine.execFollowOnAppend core q s
  | .fixupReplay id => Sys2Proof.Machine.execFixupReplay id s
  | .feederCopyComplete core q => Sys2Proof.Machine.execFeederCopyComplete core q s
  | .qfenceComplete core q => Sys2Proof.Machine.execQfenceComplete core q s
  | .sgsetComplete id => Sys2Proof.Machine.execSgsetComplete id s
  | .kickAppend die k => Sys2Proof.Machine.execKickAppend die k s
  | .collectiveRendezvous die => Sys2Proof.Machine.execCollectiveRendezvous die s
  | .collectiveStart k => Sys2Proof.Machine.execCollectiveStart k s
  | .collectiveComplete id => Sys2Proof.Machine.execCollectiveComplete id s
  | .galleyTimeout core g => Sys2Proof.Machine.execGalleyTimeout core g s
  | .galleyStart core g => Sys2Proof.Machine.execGalleyStart core g s
  | .taskStart die core => Sys2Proof.Machine.execTaskStart die core s
  | .gangPlace launch core => Sys2Proof.Machine.execGangPlace launch core s
  | .gangEnd gang => Sys2Proof.Machine.execGangEnd gang s
  | .saveComplete uid => Sys2Proof.Machine.execSaveComplete uid s
  | .faultResolve k frame => Sys2Proof.Machine.execFaultResolve k frame s
  | .faultOutcome k present => Sys2Proof.Machine.execFaultOutcome k present s
  | .groupRestore uid slot => Sys2Proof.Machine.execGroupRestore uid slot s
  | .pageEvict owner ctx va => Sys2Proof.Machine.execPageEvict owner ctx va s
  | .quantumExpiry ctx => Sys2Proof.Machine.execQuantumExpiry ctx s
  | .deadlineExpiry ctx => Sys2Proof.Machine.execDeadlineExpiry ctx s
  | .unitReload core ctx => Sys2Proof.Machine.execUnitReload core ctx s
  | .qtailWrite ctx p x => Sys2Proof.Machine.execQtailWrite ctx p x s
  | .launchDequeue ctx => Sys2Proof.Machine.execLaunchDequeue ctx s
  | .launchComplete id => Sys2Proof.Machine.execLaunchComplete id s
  | .contextEnable ctx x => Sys2Proof.Machine.execContextEnable ctx x s
  | .contextDisable ctx => Sys2Proof.Machine.execContextDisable ctx s
  | .registerWrite ofs x => Sys2Proof.Machine.execRegisterWrite ofs x s
  | .packageReset => Sys2Proof.Machine.execPackageReset s
  | .linkTrained => Sys2Proof.Machine.execLinkTrained s
  | .firmwareLoad => Sys2Proof.Machine.execFirmwareLoad s
  | .firmwareVerified failure => Sys2Proof.Machine.execFirmwareVerified failure s
  | .memoryInitDone cores answer => Sys2Proof.Machine.execMemoryInitDone cores answer s
  | .powerLimitWrite x => Sys2Proof.Machine.execPowerLimitWrite x s
  | .clockChange mhz => Sys2Proof.Machine.execClockChange mhz s
  | .invalidatePage owner asid vmid => Sys2Proof.Machine.execInvalidatePage owner asid vmid s
  | .invalidateAsid owner asid vmid => Sys2Proof.Machine.execInvalidateAsid owner asid vmid s
  | .invalidateVmid owner vmid => Sys2Proof.Machine.execInvalidateVmid owner vmid s
  | .invalidateAll owner => Sys2Proof.Machine.execInvalidateAll owner s
  | .invalidationComplete owner => Sys2Proof.Machine.execInvalidationComplete owner s
  | .icinvComplete id => Sys2Proof.Machine.execIcinvComplete id s
  | .lmapComplete id => Sys2Proof.Machine.execLmapComplete id s
  | .pipeError core slot => Sys2Proof.Machine.execPipeError core slot s
  | .enginePipeError kind unit => Sys2Proof.Machine.execEnginePipeError kind unit s
  | .scrub stack => Sys2Proof.Machine.execScrub stack s
  | .faultWindowWrite t x => Sys2Proof.Machine.execFaultWindowWrite t x s
  | .coreFence core => Sys2Proof.Machine.execCoreFence core s
  | .routerDown die router cut => Sys2Proof.Machine.execRouterDown die router cut s
  | .linkDown kind unit => Sys2Proof.Machine.execLinkDown kind unit s
  | .networkResume => Sys2Proof.Machine.execNetworkResume s
  | .replay id => Sys2Proof.Machine.execReplay id s
  | .rightsWrite port x => Sys2Proof.Machine.execRightsWrite port x s
  | .rightsTakeEffect port => Sys2Proof.Machine.execRightsTakeEffect port s
  | .debugHalt port => Sys2Proof.Machine.execDebugHalt port s
  | .debugResume port => Sys2Proof.Machine.execDebugResume port s
  | .readreg port => Sys2Proof.Machine.execReadreg port s
  | .writereg port => Sys2Proof.Machine.execWritereg port s
  | .tropen port => Sys2Proof.Machine.execTropen port s
  | .trclose port => Sys2Proof.Machine.execTrclose port s
  | .badcmd port op => Sys2Proof.Machine.execBadcmd port op s
  | .stopatWrite port x => Sys2Proof.Machine.execStopatWrite port x s
  | .packageStop => Sys2Proof.Machine.execPackageStop s
  | .sample port uid => Sys2Proof.Machine.execSample port uid s
  | .gtickAdvance => Sys2Proof.Machine.execGtickAdvance s
  | .storageError p k flips => Sys2Proof.Machine.execStorageError p k flips s
  | .hostMemoryAccess addr acc => Sys2Proof.Machine.execHostMemoryAccess addr acc s

end Sys2Proof.Machine
end

