-- ==== Sys2Proof/Machine/Issue.lean ====
section
/-! DEFINITION. The issue of one instruction for one issue set (R12, R36, R189), with the features it needs (R324, R325), and what follows
every step: block entries, reconvergence points (R193) and threads whose wait has ended (R188). -/

namespace Sys2Proof.Machine

/-! ### Features (R324, R325) -/

/-- The ORD scope of an instruction, or the scope that it names. -/
def namedScope : Instr → Option Scope
  | .ld _ o .. | .st _ o .. | .eld _ o .. | .est _ o .. | .erel o .. | .enew o .. | .aadd _ o .. | .amin _ o .. | .amax _ o .. | .aand _ o ..
  | .aor _ o .. | .axor _ o .. | .axchg _ o .. | .ainc o .. | .acas _ o .. | .afadd _ o .. | .afmin o .. | .afmax o .. | .afadd2 o .. => some o.scope
  | .fence _ sc | .acqr sc .. => some sc
  | .barArr _ b | .barWait _ b | .barSync b | .barInit _ b | .pbank _ _ _ b _ | .pclr _ _ b _ => some b.scope
  | _ => none

/-- The RND field of an instruction. -/
def namedRnd : Instr → Option Rnd
  | .fadd _ r .. | .fsub _ r .. | .fmul _ r .. | .fmac _ r .. | .frcp r .. | .frsq r .. | .fsqrt r .. | .fexp2 r .. | .flog2 r .. | .frnd _ r ..
  | .fscale _ r .. | .cvt _ _ _ r .. | .quant _ _ _ r .. | .deq _ _ r .. | .h2add _ r .. | .h2mul _ r .. | .dadd r .. | .dmul r .. | .mmag _ _ r ..
  | .cmul _ _ r .. | .faddi r .. | .fmuli r .. | .fmai r .. => some r
  | _ => none

/-- The features of FEAT0 that an instruction needs, in rising order (R325); elements of plated pages need theirs at the access. -/
def features (i : Instr) : List Nat :=
  (match i with
   | .precast .. | .psync .. | .pquery .. | .pset .. => [0]
   | .eld .. | .est .. | .erel .. | .enew .. => [1]
   | .pcmd .. | .pbank .. | .pclr .. | .ldacc .. => [2]
   | .coll .. | .collNow .. | .bkset .. | .bkadd .. => [3]
   | .tapePush .. | .tapeMark | .tapeUnwind => [4]
   | _ => []) ++
  (if namedScope i = some .pod then [5] else []) ++ (if namedRnd i = some .sr then [6] else [])

/-- The lowest feature that an instruction needs and ACCEPT0 lacks. -/
def lacks (s : State) (i : Instr) : Option Nat := (features i).find? (fun n => !bit (nth 0 s.accept 0).toNat n)

/-! ### Corrected register words (R204) -/

/-- An instruction whose operands are the leader's alone (R22, R141, R160). -/
def leaderOnly : Instr → Bool
  | .fcopy .. | .pcmd .. | .pbank .. | .pclr .. | .sgset .. | .qfence .. | .coll .. | .collNow .. | .bkset .. | .bkadd .. | .tapePush .. | .tapeMark
  | .tapeUnwind | .taskPost .. | .taskDone | .launch .. | .barInit .. | .sread .. | .swrite .. | .trace .. | .icinv .. | .lmapSet .. | .lmapClr ..
  | .ebudSet .. => true
  | _ => false

/-- Lanes whose register an operand field reads for a set: the lane that each lane selects (R55), for the A field of `perm` by its B. -/
def lanesRead (s : State) (u : Nat) (ls : List Nat) (i : Instr) (o : Opnd) : List Nat :=
  let from_ := match i with
    | .perm _ _ a b => if o = a then ls.map (fun l => (readSrc s u ls (.int 32) b l).val % 32) else ls.map (patLane o.pat)
    | _ => ls.map (patLane o.pat)
  if leaderOnly i then ls.take 1 else (from_.filter (fun l => ls.contains l)).eraseDups

/-- Words with a corrected error that a set reads: lane and register (R204). -/
def marksRead (s : State) (u : Nat) (ls : List Nat) (i : Instr) : List (Nat × Nat) :=
  ((srcs i).flatMap (fun p =>
    let rs := srcRegs p.1.src (match p.2 with
      | .dyn => 2
      | t => otyRegs t)
    (lanesRead s u ls i p.1).flatMap (fun l => ((lane s u l).vmark.filter (fun n => rs.contains n)).map (fun n => (l, n))))).eraseDups

/-- The errors in the registers that a set reads are counted, against the core and the launch. -/
def meetMarks (s : State) (u : Nat) (ls : List Nat) (i : Instr) : State := (marksRead s u ls i).foldl (fun s m => meetReg s u m.1 m.2) s

/-! ### A set reaches its word (R36) -/

/-- Every lane of the current set ends in a trap. -/
def trapSet (s : State) (c : Cause) (txval : W64) : State := (haltLanes s (s.cur.lanes.map (fun l => (l, some (.trap c txval))))).1

/-- The key of the bytes of a code word. -/
def wordKey (s : State) (u : Nat) (m : Mode) (pc : W64) : Nat :=
  match reach s (vmidOf s (ctxOf s u)) (asidOf s (ctxOf s u)) pc .fetch m with
  | .page _ o pa => mkey o pa
  | _ => noKey

/-- A set's stream elements that are not at hand are sent for: LD counts them, and the set is held at its instruction (R52, R217). -/
def sendStreams (s : State) (rs : List ReadReq) (acc : Nat) : State :=
  let u := s.cur.uid
  let s := beginAcc s u acc .ld rs.length
  let s := modCur s ((rs.map (fun r => r.lane)).eraseDups) (fun _ ln => { ln with flight := some acc })
  rs.foldl sendRead s

/-- The stream elements that came for an instruction are used up with it. -/
def dropGot (s : State) (u : Nat) (ls : List Nat) : State :=
  if ls.any (fun l => !(lane s u l).qgot.isEmpty) then modLanes s u ls (fun _ ln => { ln with qgot := [] }) else s

/-- The current set executes an instruction: it sends for the stream elements that it lacks, or has its effect. -/
def runInstr (s : State) (i : Instr) : Out :=
  let u := s.cur.uid
  let j := longForm i
  let id := takeFresh s
  match streamSends s u s.cur.lanes (srcs j) (readsT j) id.1 with
  | [] =>
    let ls := s.cur.lanes
    let s := if ls.any (fun l => !(lane s u l).qgot.isEmpty) then modLanes s u ls (fun _ ln => { ln with flight := none }) else s
    (match exec i (meetMarks s u ls j) with
     | .next t => .next (dropGot t u ls)
     | r => r)
  | rs => .next (sendStreams id.2 rs id.1)

/-- A group's fetch in a mode is permitted, or would fault, at an address. -/
def mayFetch (s : State) (u : Nat) (m : Mode) (va : W64) : Bool :=
  codeReach (reach s (vmidOf s (ctxOf s u)) (asidOf s (ctxOf s u)) va .fetch m) != .access

/-- A word that a fill in another mode found no permission for goes from a core's cache and loop buffers: it is filled again (R35). -/
def dropWord (s : State) (core : Nat) (va : W64) : State :=
  modCore s core (fun c => { c with
    icache := c.icache.filter (fun w => w.va != va)
    loopBuf := c.loopBuf.map (fun p => (p.1, { p.2 with words := p.2.words.filter (fun w => w.va != va) })) })

/-- The current set executes a word, by its state (R36). -/
def runWord (s : State) (m : Mode) (w : IWord) : Out :=
  let u := s.cur.uid
  match w.st with
  | .faulted =>
    .next (beginSave s u .pageFault (s.cur.lanes.map (fun l => ⟨l, w.va + BitVec.ofNat 64 w.miss, w.va, accCode .fetch, false, false, w.where_⟩)) s.cur.lanes)
  | .denied => .next (trapSet s .access w.va)
  | .access =>
    if w.mode ≠ m ∧ mayFetch s u m (w.va + BitVec.ofNat 64 w.miss) then .next (dropWord s (coreOf s u) w.va) else .next (trapSet s .access w.va)
  | .poisoned => .next ((haltLanes s (s.cur.lanes.map (fun l => (l, some (.poison [wordKey s u m (w.va + BitVec.ofNat 64 w.miss)] w.va))))).1)
  | .illegal => .next (trapSet s .illegal 1)
  | .valid =>
    match decodeExact w.bytes with
    | .reject _ => .next (trapSet s .illegal 1)
    | .ok i =>
      match lacks s i with
      | some n => .next (trapSet s .illegal (BitVec.ofNat 64 (0x100 + n)))
      | none => runInstr s i

/-! ### Reconvergence points (R193) -/

/-- An instruction that transfers control (R96). -/
def transfers (i : Instr) : Bool :=
  match i with
  | .bra .. | .brc .. | .call .. | .ret .. | .jmpi .. | .brx .. => true
  | _ => false

/-- The block that holds the word of a set. -/
def setHeader (s : State) (u : Nat) (x : ISet) : Option W64 :=
  match (lane s u (x.lanes.headD 0)).at_ with
  | .word h .. => some h
  | .enter .. => none

/-- Threads of a set that run have different next addresses. -/
def parted (s : State) (u : Nat) (ls : List Nat) : Bool :=
  let ps := (ls.filter (fun l => running (lane s u l))).map (fun l => posAddr (lane s u l).at_)
  ps.any (fun p => some p != ps.head?)

/-- Record RPOINT after a transfer out of the block at h that parted the set. -/
def recordPoint (s : State) (u : Nat) (x : ISet) (i : Instr) (h : Option W64) : State :=
  match h with
  | none => s
  | some h =>
    if !transfers i || (grp s u).rpoint.isSome || !parted s u x.lanes then s
    else
      let c := ctxOf s u
      let w := beNat (reachBytes s (codeReach (reach s (vmidOf s c) (asidOf s c) h .fetch x.mode)) h 8)
      let t := h + BitVec.ofInt 64 (8 * hReconv w)
      if hReconv w = 0 then s
      else match enterBlock s (vmidOf s c) (asidOf s c) x.mode t .branch t with
        | .ok _ => modGrp s u (fun g => { g with rpoint := some t, skip := 0 })
        | _ => s

/-! ### Threads whose wait has ended (R188, R145, R146, R140, R149, R158) -/

/-- A `fence` of a lane may complete (R140, R219). -/
def fenceDone (s : State) (u l : Nat) (k : FenceKind) (sc : Scope) : Bool :=
  let rel : Bool := loadsOut s u l s.fresh || storesShort s u l sc s.fresh
  let acq : Bool := !acqReady s u l
  match k with
  | .rlx => true
  | .rel => !rel
  | .acq => !acq
  | .ar | .sc => !rel && !acq

/-- What a completed fence leaves: an acquire, or a core-scope release (R219, R221). -/
def fenceNote (s : State) (u l : Nat) (k : FenceKind) (sc : Scope) : State :=
  let s := if k = .rel ∨ k = .rlx then s else noteAcquire s u l .acqrel sc
  if sc = .core ∧ k ≠ .acq ∧ k ≠ .rlx then modLane s u l (fun ln => { ln with coreRelFence := true }) else s

/-- A waiting lane goes on where what it waits for has come. -/
def wakeOne (s : State) (u l : Nat) : State :=
  let ln := lane s u l
  match ln.st with
  | .wait (.bar key _ tok sync) =>
    (match barGet s key with
     | some b => if barGo s u l key b tok then barLeave (modLane s u l (fun ln => { ln with readyAt := s.cycle + 1 })) u l key b tok sync ln.ilen else s
     | none => s)
  | .wait (.count ld st cp tl) => if countsMet (grp s u) ld st cp tl then finishWait s u l else s
  | .wait (.drain cs) => if cs.any (fun c => (tGet? s.cmds c).isSome) then s else finishWait s u l
  | .wait (.fence k sc) => if fenceDone s u l k sc then finishWait (fenceNote s u l k sc) u l else s
  | .wait (.spawn e a) =>
    let p := putSlug s u e a
    if p.2 then finishWait (modLane (flushH p.1 u l) u l (fun ln => commitLane ln ln.ilen)) u l else s
  | _ => s

/-- Every lane of the groups that hold their slots, and every `acqr` in course. -/
def wakeAll (s : State) : State :=
  let s := s.promotes.foldl (fun s p => promoteDone s p.1) s
  s.groups.foldl (fun s p =>
    match p.2.place with
    | .resident _ => if (launchAt s (launchOf s p.1)).replayDue then s else (List.range 32).foldl (fun s l => wakeOne s p.1 l) s
    | _ => s) s

/-! ### What follows every step -/

/-- A group ends when its last thread exits (R100), and a reconvergence point goes where the threads have met (R193). -/
def restGroup (g : Group) : Group :=
  meetPoint (if !g.lanes.isEmpty && g.lanes.all (fun ln => ln.st == .exited) then { g with ended := true } else g)

/-- Rounds of block entries in one step: more than any chain of failing entries takes. -/
def settleFuel : Nat := 16

/-- The device after a step: waits that ended, blocks entered, operand-ready ticks, groups that ended. -/
def afterStep (s : State) : State :=
  let s := settle settleFuel (wakeAll s)
  let s := s.cores.foldl (fun s c => pressWatch s c.1) s
  { s with epoch := s.epoch + 1, groups := s.groups.map (fun p => (p.1, restGroup p.2)) }

/-! ### The issue of a pipe (R12, R101, R189) -/

/-- A set of a group issues on its pipe. -/
def issueSet (s : State) (u : Nat) (x : ISet) : Out :=
  match setWord s u x with
  | none => .next s
  | some w =>
    let h := setHeader s u x
    let s := { s with cur := ⟨u, x.lanes, x.pc, w.bytes.length⟩ }
    match runWord s x.mode w with
    | .next t =>
      .next (match wordInstr w with
        | some i => recordPoint t u x i h
        | none => t)
    | r => r

/-- A pipe issues for the group that its order gives (R12). -/
def issueStep (s : State) (core pipe : Nat) : Out :=
  match pipeTurn s core pipe with
  | none => .next s
  | some (s, none) => .next s
  | some (s, some (u, x)) => issueSet s u x

end Sys2Proof.Machine
end

