-- ==== Sys2Proof/Machine/Sched.lean ====
section
/-! DEFINITION. What the device does of its own accord (assumption 1): the moves that a state offers, the end of a cycle (R13, R23), and
the move that a step makes. -/

namespace Sys2Proof.Machine

/-! ### The device's own moves -/

/-- A move that the device may make of its own accord: a step of spec/95 with what identifies it. Moves that the driver, the host, another
package or a failure makes come from the agenda alone. -/
inductive Inner where
  | fill (core va : Nat) | refill (core pipe : Nat) | prefetch (core va : Nat) | writeback (uid id : Nat) | sleepEnd (uid l : Nat)
  | leave (uid l : Nat) | drain (uid l : Nat) | deliver (id : Nat) | refresh (die key n : Nat) | drop (die key n : Nat) | promote (core id : Nat)
  | wake (k : Nat) | poll (k : Nat)
  | refitStart (die : Nat) | knotRead (die : Nat) | refitVerify (die : Nat) | refitSwap (die : Nat) | errataTimeout (id : Nat)
  | pressStart (core : Nat) | pressComplete (core : Nat) | pclr (core : Nat) | bankLoad (core : Nat) | bankComplete (core : Nat)
  | copyStart (core q n : Nat) | tileLanded (core q tile : Nat) | followOn (core q : Nat) | fixup (id n : Nat) | copyComplete (core q : Nat)
  | qfence (core q : Nat) | sgset (id : Nat) | kick (die k : Nat) | rendezvous (die : Nat) | collStart (k n : Nat) | collComplete (id : Nat)
  | galleyTimeout (core g : Nat) | galleyStart (core g : Nat) | taskStart (die core : Nat) | gangPlace (launch core : Nat) | gangEnd (gang : Nat)
  | saveComplete (uid : Nat) | groupRestore (uid slot : Nat) | resolve (k : Nat) | invalComplete (owner : Nat) | icinvComplete (id : Nat)
  | lmapComplete (id : Nat) | quantum (ctx : Nat) | deadline (ctx : Nat) | reload (core ctx : Nat) | dequeue (ctx : Nat) | complete (id : Nat)
  | fence (core : Nat) | replay (id : Nat) | rights (port : Nat) | sample (port uid : Nat) | tick
  deriving DecidableEq, Repr

/-- The frame that the Foreman takes for record k of the fault queue: an aligned one that nothing fixes (R318). -/
def foreFrame (s : State) (k : Nat) : Nat :=
  let x := (Config.freeWord s.free).toNat % 2 ^ 52
  match (faultsAt s true)[k]? with
  | none => 0
  | some (_, f) =>
    match pageEntry s (ptrOwner f.r.va) f.r.vmid f.r.asid (ptrOfs f.r.va) with
    | some p => x / entSize p.lvl (rdNat s p.key 8) * entSize p.lvl (rdNat s p.key 8)
    | none => x / 4096 * 4096

/-- Make a move: the meaning of its step. -/
def runInner (m : Inner) (s : State) : Out :=
  match m with
  | .fill c a => execFill c a s
  | .refill c p => execLoopBufferRefill c p s
  | .prefetch c a => execCodePrefetch c a s
  | .writeback u i => execResultWriteback u i s
  | .sleepEnd u l => execSleepEnd u l s
  | .leave u l => execLeave u l s
  | .drain u l => execDrainMove u l s
  | .deliver i => execDeliver i { bytes := freeBytes s 16 } { s with free := s.free + 16 }
  | .refresh d k n => execRefresh d ⟨k, n⟩ s
  | .drop d k n => execDrop d ⟨k, n⟩ s
  | .promote c i => execPromote c i s
  | .wake k => execWake k s
  | .poll k => execPollListRead k s
  | .refitStart d => execRefitStart d s
  | .knotRead d => execKnotRead d s
  | .refitVerify d => execRefitVerify d s
  | .refitSwap d => execRefitSwap d s
  | .errataTimeout i => execErrataTimeout i s
  | .pressStart c => execPressCommandStart c s
  | .pressComplete c => execPressCommandComplete c s
  | .pclr c => execPclrRun c s
  | .bankLoad c => execBankLoad c s
  | .bankComplete c => execBankLoadComplete c s
  | .copyStart c q n => execFeederCopyStart c ⟨q, n⟩ s
  | .tileLanded c q t => execTileLanded c q t s
  | .followOn c q => execFollowOnAppend c q s
  | .fixup i n => execFixupReplay ⟨i, n⟩ s
  | .copyComplete c q => execFeederCopyComplete c q s
  | .qfence c q => execQfenceComplete c q s
  | .sgset i => execSgsetComplete i s
  | .kick d k => execKickAppend d k s
  | .rendezvous d => execCollectiveRendezvous ⟨d, none⟩ s
  | .collStart k n => execCollectiveStart ⟨k, n⟩ s
  | .collComplete i => execCollectiveComplete i s
  | .galleyTimeout c g => execGalleyTimeout c g s
  | .galleyStart c g => execGalleyStart c g s
  | .taskStart d c => execTaskStart d c s
  | .gangPlace k c => execGangPlace k c s
  | .gangEnd g => execGangEnd g s
  | .saveComplete u => execSaveComplete u s
  | .groupRestore u n => execGroupRestore u n s
  | .resolve k => execFaultResolve k (foreFrame s k) { s with free := s.free + 1 }
  | .invalComplete o => execInvalidationComplete o s
  | .icinvComplete i => execIcinvComplete i s
  | .lmapComplete i => execLmapComplete i s
  | .quantum c => execQuantumExpiry c s
  | .deadline c => execDeadlineExpiry c s
  | .reload c x => execUnitReload c x s
  | .dequeue c => execLaunchDequeue c s
  | .complete i => execLaunchComplete i s
  | .fence c => execCoreFence c s
  | .replay i => execReplay i s
  | .rights p => execRightsTakeEffect p s
  | .sample p u => execSample p u s
  | .tick => execGtickAdvance s

/-! ### What a state offers -/

/-- Words that threads of a core need and its cache lacks. -/
def missingWords (s : State) (core : Nat) : List Nat :=
  let c := coreAt s core
  ((groupsOn s core).flatMap (fun g => g.2.lanes.filterMap (fun ln => (nextPc ln).bind (fun pc => if (wordAt c pc).isSome then none else some pc.toNat)))).eraseDups

/-- Moves of threads and their groups. -/
def groupMoves (s : State) : List Inner :=
  s.groups.flatMap (fun p =>
    p.2.pend.map (fun r => .writeback p.1 r.1) ++
    (List.range 32).flatMap (fun l =>
      let ln := laneAt p.2 l
      (match ln.st with
       | .wait (.sleep _) => [Inner.sleepEnd p.1 l]
       | _ => []) ++
      (if ln.fifo.isEmpty then [] else [.leave p.1 l]) ++ (if (inView s p.1 l).isEmpty then [] else [.drain p.1 l])) ++
    (match p.2.place with
     | .saving .. => [.saveComplete p.1]
     | .saved .. => (freeSlots s (gangAt s p.2.gang).core).map (.groupRestore p.1)
     | .resident _ => []))

/-- Restores of fenced gangs: one for each core that may take one. -/
def gangMoves (s : State) : List Inner :=
  s.gangs.flatMap (fun g => .gangEnd g.1 ::
    (match g.2.groups with
     | u :: _ => if g.2.moved then ((List.range 192).filter (fun c => moveOk s g.1 c)).map (fun c => .groupRestore u (32 * c)) else []
     | [] => []))

/-- Tiles that the head of a queue may land. -/
def headTiles (s : State) (core q : Nat) : List Nat :=
  match headCmd s core q with
  | some (_, c) => (match c.kind with
    | .copy d _ => (copyTiles d c.tagw).filter (tileDue c d)
    | _ => [])
  | none => []

/-- Moves of the units of a core. -/
def coreMoves (s : State) (core : Nat) (c : Core) : List Inner := List.flatten
  [(missingWords s core).map (Inner.fill core), (List.range 4).map (Inner.refill core), c.wanted.map (fun a => Inner.prefetch core a.toNat),
   [.pressStart core, .pressComplete core, .pclr core, .bankLoad core, .bankComplete core],
   (List.range 4).flatMap (fun q =>
     Inner.copyStart core q 1 :: Inner.copyStart core q (2 ^ 80) :: Inner.followOn core q :: Inner.copyComplete core q :: (headTiles s core q).map (Inner.tileLanded core q)),
   (List.range 6).map (Inner.qfence core),
   c.galleys.flatMap (fun g => [Inner.galleyTimeout core g.1, Inner.galleyStart core g.1]),
   s.promotes.map (fun p => Inner.promote core p.1), [.taskStart (dieOf core) core]]

/-- Moves of the network, the owners and the engines. -/
def memoryMoves (s : State) : List Inner := List.flatten
  [s.links.map (fun x => Inner.deliver x.1),
   s.dies.flatMap (fun d => d.2.remote.flatMap (fun r => [8, 64].flatMap (fun n =>
     [Inner.refresh d.1 (r.1 / n * n) n, Inner.drop d.1 (r.1 / n * n) n]))),
   (List.range ((dueWaits s).length + (dueRegs s).length)).map Inner.wake, (List.range s.polls.length).map Inner.poll,
   (List.range 4).flatMap (fun d => [Inner.refitStart d, Inner.knotRead d, Inner.refitVerify d, Inner.refitSwap d, Inner.rendezvous d]),
   s.plates.flatMap (fun p => p.2.held.map (fun h => Inner.errataTimeout h.e.id)),
   s.cmds.flatMap (fun c => [Inner.fixup c.1 1, Inner.fixup c.1 (2 ^ 80), Inner.sgset c.1, Inner.collComplete c.1]),
   s.dies.flatMap (fun d => d.2.buckets.map (fun b => Inner.kick d.1 b.1)), s.meets.flatMap (fun m => [Inner.collStart m.1 1, Inner.collStart m.1 (2 ^ 80)])]

/-- Moves of the Foreman and of the debug ports. -/
def foremanMoves (s : State) : List Inner := List.flatten
  [s.launches.flatMap (fun l => Inner.complete l.1 :: Inner.replay l.1 :: (List.range 192).map (Inner.gangPlace l.1)),
   (List.range 192).map Inner.fence, (List.range (faultsAt s true).length).map Inner.resolve, (List.range 5).map Inner.invalComplete,
   s.icinvs.map (fun x => Inner.icinvComplete x.1), s.lmaps.map (fun x => Inner.lmapComplete x.1),
   s.ctxs.flatMap (fun c => Inner.quantum c.1 :: Inner.deadline c.1 :: Inner.dequeue c.1 :: List.flatten
     [if ctxQueued s c.1 then (List.range 192).map (fun k => Inner.reload k c.1) else [],
      (List.range 4).flatMap (fun k => List.flatten
        [if (portAt s c.1 k).drights = (portAt s c.1 k).prights then [] else [Inner.rights (4 * c.1 + k)],
         s.groups.map (fun g => Inner.sample (4 * c.1 + k) g.1)])])]

/-- Every move that a state may offer. -/
def someMoves (s : State) : List Inner :=
  .tick :: groupMoves s ++ gangMoves s ++ s.cores.flatMap (fun c => coreMoves s c.1 c.2) ++ memoryMoves s ++ foremanMoves s

/-- A move is enabled where it changes more than the count of free values. -/
def enabled (s : State) (m : Inner) : Bool :=
  match runInner m s with
  | .next t => { t with free := s.free } != s
  | _ => true

/-! ### Cycles (R13, R23, R367) -/

/-- Some pipe still has an instruction to issue in this cycle: the first such core and pipe. -/
def nextIssue (s : State) : Option (Nat × Nat) :=
  s.cores.findSome? (fun c => ((List.range 4).find? (fun p => !nth false c.2.issued p && pipeReady s c.1 p)).map (fun p => (c.1, p)))

/-- Every group's ready sets of the cycle that begins (R190). -/
def formAll (s : State) : State := { s with groups := s.groups.map (fun p => (p.1, { p.2 with formed := formSets s p.1 })) }

/-- The cycle ends where every pipe has had its turn, and no STOP has come: samples are made, ticks that had passed before it are counted, and the
time of the cycle passes, 1,200 ticks for CORECLK cycles. -/
def cycleEnd (s : State) : Out :=
  let s := if (nextIssue s).isSome then s else tickMany 32 (makeSamples s)
  if (nextIssue s).isSome || stopDue s then .next s
  else
    let s := { s with phase := s.phase + 1200 * tickUnits / s.coreclk.toNat, cycle := s.cycle + 1 }
    .next (formAll { s with cores := s.cores.map (fun c => (c.1, { c.2 with issued := [false, false, false, false], refilled := [false, false, false, false] })) })

/-! ### A move -/

/-- What follows a move. -/
def after (o : Out) : Out :=
  match o with
  | .next s => .next (afterStep s)
  | r => r

/-- Make a move of the agenda: a step of the device that is no event has no place there. -/
def runMove (m : Move) (s : State) : Out :=
  match m with
  | .event i => if isEvent i then after (exec i s) else .next s
  | .issue c p => after (issueStep s c p)
  | .cycleEnd => after (cycleEnd s)

/-- The number of moves that a state offers beside an issue or the end of the cycle. -/
def offers (s : State) : List Inner := (someMoves s).filter (enabled s)

/-- The device goes on by itself: one of the moves that it may make, left open where there are several. -/
def runOwn (s : State) : Out :=
  let ms := offers s
  let k := if ms.isEmpty then 0 else Config.nextMove s.choices % (ms.length + 1)
  let s := { s with choices := s.choices + b2n (!ms.isEmpty) }
  match ms[k]? with
  | some m => after (runInner m s)
  | none =>
    match nextIssue s with
    | some p => after (issueStep s p.1 p.2)
    | none => after (cycleEnd s)

end Sys2Proof.Machine
end

