-- ==== Sys2Proof/Machine/Step.lean ====
section
/-! DEFINITION. One step of the device, and the state whose next step runs a given instruction. -/

namespace Sys2Proof.Machine

/-- One step: the next move of the agenda, or one that the device makes of its own accord (assumption 1). In the tick of a STOP it is the
STOP, and after it only a reset and the debug ports have an effect (R368). -/
def step (s : State) : Out :=
  if s.stopped then
    match s.agenda with
    | [] => .fault .stopped
    | .event i :: rest => if portEvent i then exec i { s with agenda := rest } else .next { s with agenda := rest }
    | _ :: rest => .next { s with agenda := rest }
  else if stopDue s then exec .packageStop s
  else match s.agenda with
    | m :: rest => runMove m { s with agenda := rest }
    | [] => runOwn s

/-! ### Placing one instruction (assumption 10) -/

/-- The block that holds a placed instruction: LEN 3, NWORDS 2, REGION and ENTRY set (R26). -/
def placedHeader : Nat := 0xC5030200000000A2

/-- The bytes of the word of a placed instruction. -/
def placedWord (nbits w : Nat) : List Byte :=
  let bs := tableBytes nbits w
  bs.take (lenOf (bs.headD 0))

/-- The placed block: header, the instruction, a short `nop`, padding. -/
def placedBlock (nbits w : Nat) : List Byte :=
  let bs := beBytes 8 placedHeader ++ placedWord nbits w ++ beBytes 4 0x01FE0000
  bs ++ List.replicate (24 - bs.length) 0

/-- A thread inside the placed block, before its first word. -/
def placedLane : Lane :=
  { at_ := .word 0x10000#64 3 0x10008#64 2
    st := .run
    recs := [{ regpc := 0x10000#64, reghdr := 0x10000#64, regcnt := 1 }, {}, {}, {}, {}] }

/-- The kernel image record of the placed launch (R327): PRIVATE 1,024, one group, 16 tiles, 16 rows, 2 banks, its barriers. -/
def placedImage : List Byte :=
  List.replicate 32 0 ++ leBytes 4 1024 ++ leBytes 2 0 ++ leBytes 2 16 ++ leBytes 2 16 ++ [1, 0, 16, 16, 32, 32, 64] ++ leBytes 2 0 ++ [0] ++
    List.replicate 20 0 ++ [2] ++ List.replicate 55 0

/-- The launch record of the placed launch (R326): KIND 1, one gang. -/
def placedRecord : List Byte := List.replicate 16 0 ++ leBytes 2 1 ++ leBytes 2 1 ++ leBytes 2 1 ++ [1, 0] ++ List.replicate 40 0

/-- The code page that holds the placed block, in use by an engine: the walk of no table takes its place (R316). -/
def placedPage : TlbEnt :=
  { vmid := 0, asid := 0, vpage := 0x10000, inflight := 1
    attr := { frame := 0x10000, size := 4096, kind := .code, rclass := .proof, sto := false, ua := true, rd := true, wr := false, ex := true,
              region := none } }

/-- s with an instruction where the next step fetches and issues it: a package that is READY with every feature accepted, and one group in
slot 0 of core 0 inside a block whose first word is the instruction. It stands for bring-up, a launch and the block's entry
(assumption 10). -/
def State.withFetchWord (s : State) (nbits w : Nat) : State :=
  let k := s.fresh
  let word : IWord := { va := 0x10008#64, bytes := placedWord nbits w, st := wordState (placedWord nbits w) }
  let nop : IWord := { va := 0x10008#64 + BitVec.ofNat 64 (placedWord nbits w).length, bytes := beBytes 4 0x01FE0000, st := .valid }
  let gang : Gang :=
    { core := 0, launch := k, groups := [k + 2], privsz := 1024, tiles := 16, accrows := 16, banks := [{}, {}],
      bars := List.replicate 16 { expect := 32 } }
  let s := wrBytes s (mkey 0 0x10000) (placedBlock nbits w)
  { s with
    stopAt := none, stopped := false, netStopped := false, pkg := .ready, accept := s.feat, coremap := s.coremap ||| 1
    fresh := k + 3
    ctxs := smSet {} s.ctxs 0 { ctxctl := 0x80000000#32 }
    tlbs := tPut s.tlbs 0 [placedPage]
    cores := smSet {} s.cores 0 { ctx := some 0, icache := [word, nop] }
    launches := tPut s.launches k { ctx := 0, record := placedRecord, img := placedImage, prio := 0, devRing := false, launchid := s.nextLaunchId,
                                    state := .running, gx := 1, gy := 1, gz := 1, placed := [0] }
    nextLaunchId := s.nextLaunchId + 1
    gangs := tPut (s.gangs.filter (fun g => g.2.core != 0)) (k + 1) gang
    groups := tPut (s.groups.filter (fun g => (gangAt s g.2.gang).core != 0)) (k + 2)
      { gang := k + 1, place := .resident 0, lanes := List.replicate 32 placedLane, formed := [⟨0x10008#64, .u, List.range 32⟩] }
    agenda := [.issue 0 0] }

end Sys2Proof.Machine
end

