-- ==== Sys2Proof/Safety.lean ====
section
/-! DEFINITION. What counts as a safe run, and the words that statements about single instructions are made of. -/

namespace Sys2Proof

/-- A state is live: its next step answers a next state. -/
def Live (s : Machine.State) : Prop := ∃ t, Machine.step s = .next t

/-- States that a run from s reaches in n steps. -/
inductive Reaches : Nat → Machine.State → Machine.State → Prop where
  | zero (s : Machine.State) : Reaches 0 s s
  | more (n : Nat) (s t u : Machine.State) (h : Machine.step s = .next t) (r : Reaches n t u) : Reaches (n + 1) s u

/-- A safe run: every state that it reaches within n steps is live. -/
def SafeFor (n : Nat) (s : Machine.State) : Prop := ∀ k t, k ≤ n → Reaches k s t → Live t

namespace Machine

/-! ### The issue set that an instruction runs for -/

/-- The current issue set stands: its group is there, and its lanes are lanes of it, each named once (R22). -/
structure SetOk (s : State) : Prop where
  here : (tGet? s.groups s.cur.uid).isSome = true
  nodup : s.cur.lanes.Nodup
  bound : ∀ l ∈ s.cur.lanes, l < (grp s s.cur.uid).lanes.length

/-- No register word of the set's lanes is poisoned (R204). -/
def NoPoison (s : State) : Prop := ∀ l ∈ s.cur.lanes, (curLane s l).vpois = []

/-- A source that is no stream. -/
def plainSrc : Src → Bool
  | .q _ => false
  | _ => true

/-- A destination that is no stream. -/
def plainDst : Dst → Bool
  | .q _ => false
  | _ => true

/-- Operands none of which is a stream. -/
def plainOps (os : List (Opnd × OTy)) : Bool := os.all (fun p => plainSrc p.1.src)

/-! ### A result in every lane -/

/-- What lane l of the set reads from an operand of a type (R42 to R47, R55). -/
def opnd (s : State) (t : OTy) (o : Opnd) (l : Nat) : Nat := (readSrc s s.cur.uid s.cur.lanes t o l).val

/-- Some operand pattern selects a lane outside the set, for lane l (R56). -/
def crosses (s : State) (os : List (Opnd × OTy)) (l : Nat) : Bool := os.any (fun p => (readSrc s s.cur.uid s.cur.lanes p.2 p.1 l).xlane)

/-- A lane after an instruction that gives it a result: flags, XLANE and SRCNT noted, the result written, the instruction passed. -/
def laneAfter (r : Res) (x : Bool) (d : Dst) (n len : Nat) (ln : Lane) : Lane :=
  let ln := setXlane (setFlags ln r.flags) (x || r.xlane)
  let ln := match r.cnt with
    | some n => { ln with srcnt := BitVec.ofNat 64 n }
    | none => ln
  advance (writeResult ln d n r.val) len

/-- s after every lane l of the set has completed an instruction with operands os and the result r l of n words at d; beside
the model's own counters nothing else changes. -/
def retired (s : State) (os : List (Opnd × OTy)) (d : Dst) (n : Nat) (r : Nat → Res) : State :=
  modCur { s with fresh := s.fresh + 1, free := s.free + 64 } s.cur.lanes (fun l => laneAfter (r l) (crosses s os l) d n s.cur.len)

/-- exec answers: every lane of the set has the result f of what it reads from one operand. -/
def Gives1 (s : State) (i : Instr) (d : Dst) (n : Nat) (a : Opnd × OTy) (f : Nat → Nat) : Prop :=
  exec i s = .next (retired s [a] d n (fun l => { val := f (opnd s a.2 a.1 l) }))

/-- As `Gives1` for two operands. -/
def Gives2 (s : State) (i : Instr) (d : Dst) (n : Nat) (a b : Opnd × OTy) (f : Nat → Nat → Nat) : Prop :=
  exec i s = .next (retired s [a, b] d n (fun l => { val := f (opnd s a.2 a.1 l) (opnd s b.2 b.1 l) }))

/-- As `Gives1` for three operands. -/
def Gives3 (s : State) (i : Instr) (d : Dst) (n : Nat) (a b c : Opnd × OTy) (f : Nat → Nat → Nat → Nat) : Prop :=
  exec i s = .next (retired s [a, b, c] d n (fun l => { val := f (opnd s a.2 a.1 l) (opnd s b.2 b.1 l) (opnd s c.2 c.1 l) }))

/-- The integer that a value of a type stands for: two's complement where the type is signed (R87). -/
def asInt (t : ITy) (x : Nat) : Int := if itySigned t then (BitVec.ofNat (ityW t) x).toInt else ((BitVec.ofNat (ityW t) x).toNat : Int)

/-- Least and greatest value of a type (R61). -/
def leastOf (t : ITy) : Int := if itySigned t then -(2 ^ (ityW t - 1) : Int) else 0
def greatestOf (t : ITy) : Int := if itySigned t then 2 ^ (ityW t - 1) - 1 else 2 ^ ityW t - 1

/-- An exact result as the bits of a type: clamped to its range, or cut to its width (R87). -/
def asBits (t : ITy) (sat : Bool) (z : Int) : Nat :=
  (BitVec.ofInt (ityW t) (if sat then (if z < leastOf t then leastOf t else if greatestOf t < z then greatestOf t else z) else z)).toNat

/-- The operand type of an integer type. -/
abbrev ow (t : ITy) : OTy := .int (ityW t)

/-- Bits e - 1 .. pos of a field replaced by the low bits of another value (R92). -/
def insertBits (x y : BitVec 32) (pos e : Nat) : BitVec 32 :=
  let m : BitVec 32 := (BitVec.allOnes 32 <<< pos) &&& (BitVec.allOnes 32 >>> (32 - e))
  (y &&& ~~~m) ||| ((x <<< pos) &&& m)

/-- Byte k of a `prmt` result: nibble k of the selectors names a byte of b:a, or copies its sign (R92). -/
def pickByte (a b c : BitVec 32) (k : Nat) : BitVec 8 :=
  let sel := c.extractLsb' (4 * k) 4
  let y := (b ++ a).extractLsb' (8 * (sel.toNat % 8)) 8
  if sel.msb then (if y.msb then 0xFF#8 else 0x00#8) else y

/-- Every condition of R90. -/
def ccMeans (cc : Cc) (x y : Int) : Prop :=
  match cc with
  | .eq => x = y
  | .ne => x ≠ y
  | .lt => x < y
  | .le => x ≤ y
  | .gt => x > y
  | .ge => x ≥ y

/-! ### Rounded results -/

/-- exec answers: every lane of the set has the result that f gives from its rounding state and its operands, where no flag
raised has its trap enabled (R65, R66). -/
def Rounds (s : State) (i : Instr) (d : Dst) (n : Nat) (os : List (Opnd × OTy)) (r : Rnd) (f : RCtx → List Nat → Nat × RCtx) : Prop :=
  let res (l : Nat) : Res := resOf (f (laneRnd (curLane s l) r) (os.map (fun p => opnd s p.2 p.1 l)))
  (∀ l ∈ s.cur.lanes, fpxDue (curLane s l) (res l).flags = false) → exec i s = .next (retired s os d n res)

/-- Word k of a list. -/
def el (xs : List Nat) (k : Nat) : Nat := xs.getD k 0

/-- A value is the integer k, exactly. -/
def isExactly (v : FVal) (k : Int) : Prop :=
  ∃ m e, v = .fin (decide (k < 0)) m e ∧ m * 2 ^ e.toNat = k.natAbs * 2 ^ (-e).toNat

/-- Operand k as a value of a format. -/
def fv (f : Fmt) (xs : List Nat) (k : Nat) : FVal := fmtDecode f (el xs k)

/-- Bits w h + w - 1 .. w h of operand k as a value of a format (R110). -/
def part (f : Fmt) (xs : List Nat) (k h : Nat) : FVal := fmtDecode f (el xs k / 2 ^ (fmtWidth f * h) % 2 ^ fmtWidth f)

/-- Two results of one format in one register or pair, the low one rounded first (R65, R107). -/
def twice (f : Fmt) (c : RCtx) (lo hi : List (FVal × Bool)) : Nat × RCtx :=
  let x := fused c f lo
  let y := fused x.2 f hi
  (x.1 + 2 ^ fmtWidth f * y.1, y.2)

/-- A term with the sign that a flag asks for. -/
def signed (neg : Bool) (t : FVal × Bool) : FVal × Bool := if neg then (fvNeg t.1, t.2) else t

/-- A lane that has issued an instruction whose result is scoreboarded: flags, XLANE and SRCNT are noted. -/
def notedLane (s : State) (os : List (Opnd × OTy)) (r : Res) (l : Nat) : Lane :=
  let ln := setXlane (setFlags (curLane s l) r.flags) (crosses s os l)
  match r.cnt with
  | some n => { ln with srcnt := BitVec.ofNat 64 n }
  | none => ln

/-- The state after every lane of the set has issued an instruction whose result is scoreboarded: flags, XLANE and SRCNT noted, the
instruction passed, and the writes of its result pending as one record, with the lanes that issue nothing until then (R109), and what a
failed check of the result needs (R341). -/
def deferred (s : State) (os : List (Opnd × OTy)) (r : Nat → Res) (ws : List RegWrite) (frozen : List Nat) : State :=
  let since := s.cur.lanes.map (fun l => issuedLane (curLane s l) (notedLane s os (r l) l) l)
  modGrp (modCur { s with fresh := s.fresh + 2, free := s.free + 64 } s.cur.lanes (fun l _ => advance (notedLane s os (r l) l) s.cur.len))
    s.cur.uid (fun g => { g with pend := tPut g.pend s.fresh { writes := ws, frozen := frozen, since := since } })

/-- The register writes of a one-word result of every lane: its destination, then the last-result file (R48, R49). -/
def oneWordWrites (s : State) (d : Dst) (r : Nat → Res) : List RegWrite :=
  s.cur.lanes.flatMap (fun l =>
    (match dstReg d with
      | some n => [⟨l, n, BitVec.ofNat 32 (r l).val⟩]
      | none => []) ++ [⟨l, 137, (curLane s l).h0⟩, ⟨l, 136, BitVec.ofNat 32 (r l).val⟩])

/-- Lanes of the set in which a trap of R64 is enabled. -/
def trapping (s : State) : List Nat := s.cur.lanes.filter (fun l => enables (curLane s l).fmode != 0)

/-! ### Lanes that go on, wait or trap -/

/-- A thread's records have the shape that every step keeps: five region records of eight positions, a depth among them, eight streams
(R50, R298). -/
structure TidyLane (ln : Lane) : Prop where
  recs : ln.recs.length = 5
  depth : ln.depth ≤ 4
  streams : ln.q.length = 8
  pos : ∀ r ∈ ln.recs, r.pos.length = 8

/-- The lanes of the set are tidy. -/
def Tidy (s : State) : Prop := ∀ l ∈ s.cur.lanes, TidyLane (curLane s l)

/-- s after every lane of the set has changed by f, one number having been taken. -/
def lanesDo (s : State) (f : Nat → Lane → Lane) : State := modCur { s with fresh := s.fresh + 1 } s.cur.lanes f

/-- No result of h0 or h1 is pending in a group. -/
def NoPendH (s : State) (u : Nat) : Prop := ∀ p ∈ (grp s u).pend, ∀ w ∈ p.2.writes, w.reg < 136

/-- A lane's region record after its commit step for an instruction of n bytes (R125). -/
def committed (ln : Lane) (n : Nat) : Region :=
  { curRec ln with
    regpc := (nextWord ln.at_ n).1, reghdr := (nextWord ln.at_ n).2, pos := ln.q.map (fun q => q.pos), h0 := ln.h0, h1 := ln.h1, srcnt := ln.srcnt }

/-- PMODE of a frame, and its RCLASS in FLAGS bits 3..2 (R291, R292). -/
def modeByte : Mode → Byte
  | .u => 0 | .s => 1 | .h => 2
def classBits : RClass → Byte
  | .proof => 0x0 | .check => 0x4 | .draft => 0x8

/-- The 64 bytes of a trap frame, field by field (R292). -/
def frameOf (ln : Lane) (restart rhdr txpc txval : W64) (cause : Nat) : List Byte :=
  leBytes 8 restart.toNat ++ leBytes 8 txpc.toNat ++ List.replicate 4 0#8 ++
    [BitVec.ofNat 8 cause, modeByte ln.mode, (if ln.syncp then 2#8 else 0#8) ||| classBits ln.rclass, 0#8] ++
    leBytes 4 ln.h0.toNat ++ leBytes 4 ln.h1.toNat ++ leBytes 4 ln.fmode.toNat ++ leBytes 4 ln.synctok.toNat ++ leBytes 8 txval.toNat ++
    leBytes 8 rhdr.toNat ++ List.replicate 8 0#8

/-- A lane before and after it took a trap in a slice of p bytes (R295): where no frame is left it is DOUBLE_FAULT, at depth 4, in H. What it had
got for the instruction it was held at goes. -/
def Trapped (p : Nat) (old new : Lane) (c : Cause) (txval txpc restart rhdr : W64) : Prop :=
  let full : Bool := decide (old.depth = min 3 (p / 64 - 1))
  let h : Bool := full || decide (c = .hcall) || decide (old.mode = .h)
  let at_ : Nat := if full then p - 64 else p - 64 - 64 * (old.depth + 1)
  let vec := if h then old.hvec else old.tvec
  privBytes new at_ 64 = frameOf old restart rhdr txpc (if full then BitVec.ofNat 64 (causeCode c) else txval) (if full then 0x13 else causeCode c) ∧
  new.depth = (if full then 4 else old.depth + 1) ∧
  new.mode = (if h then .h else .s) ∧
  new.at_ = .enter vec .vector vec ∧
  new.st = .run ∧ new.retire = false ∧ new.syncp = false ∧ new.flight = none ∧ new.qgot = [] ∧ new.eldGot = none ∧ curRec new = {} ∧
  (∀ k, k ≠ new.depth → nth {} new.recs k = nth {} old.recs k) ∧
  (∃ e, new.fifo = old.fifo ++ [e]) ∧
  { new with depth := old.depth, mode := old.mode, at_ := old.at_, st := old.st, retire := old.retire, syncp := old.syncp, recs := old.recs,
             fifo := old.fifo, flight := old.flight, qgot := old.qgot, eldGot := old.eldGot } = old

/-- A slice that holds the frame of the next trap of a lane, the lane not being in the double-fault handler (R294). -/
def FrameLeft (p : Nat) (ln : Lane) : Prop := 64 ≤ p ∧ ln.depth ≤ min 3 (p / 64 - 1)

/-- The lane of a FIFO entry, before and after it takes the trap that the entry meets at its owner, wherever the lane is (R123, R125): at the
instruction of the entry, with what the instruction changed at its issue given back and its commit failed. The lane restarts at the record from before
that commit, or, where the commit is of a level below, the frame of that level does. -/
def TrappedLate (p : Nat) (e : FEntry) (old new : Lane) (c : Cause) : Prop :=
  let mine : Option Commit := old.commits.find? (fun x => x.acc == e.acc)
  let r : Region := match mine with
    | some x => if x.depth = old.depth then x.before else curRec (takeCommits (commitCut old e.acc))
    | none => curRec (takeCommits old)
  ∃ mid : Lane, Trapped p mid new c e.va e.pc r.regpc r.reghdr ∧
    { mid with fifo := old.fifo, recs := old.recs, commits := old.commits, acqStep := old.acqStep, held := old.held, readyAt := old.readyAt,
               qdue := old.qdue, eldAcc := old.eldAcc } = undoLane old e.undo ∧
    ((∀ x, mine = some x → old.depth ≤ x.depth) → mid.fifo = old.fifo) ∧
    (∀ x, mine = some x → x.depth < old.depth →
      let frame := p - 64 - 64 * (x.depth + 1)
      leNat (privBytes new frame 8) = x.before.regpc.toNat ∧ leNat (privBytes new (frame + 48) 8) = x.before.reghdr.toNat)

/-- Every lane of the set has a frame left, and no h result is pending. -/
def MayTrap (s : State) : Prop := NoPendH s s.cur.uid ∧ ∀ l ∈ s.cur.lanes, FrameLeft (gangOf s s.cur.uid).privsz (curLane s l)

/-- exec answers: every lane of the set takes a trap that restarts at REGPC, with TXPC at the instruction, and nothing else happens. -/
def TrapsAll (s : State) (i : Instr) (c : Cause) (txval : Nat → W64) : Prop :=
  ∃ t, exec i s = .next t ∧ (∀ l, l ∉ s.cur.lanes → lane t s.cur.uid l = lane s s.cur.uid l) ∧
    { t with groups := s.groups, fresh := s.fresh, free := s.free } = s ∧
    ∀ l ∈ s.cur.lanes,
      let old := takeCommits (curLane s l)
      Trapped (gangOf s s.cur.uid).privsz old (lane t s.cur.uid l) c (txval l) s.cur.pc (curRec old).regpc (curRec old).reghdr

/-! ### Accesses -/

/-- EA of a pointer access in units of n bytes: base, index register and offset (R121). -/
def eaOf (n A B : Nat) (ofs : BitVec 8) : W64 := BitVec.ofInt 64 ((A : Int) + ((BitVec.ofNat 32 B).toInt + ofs.toInt) * (n : Int))

/-- EA of a core-local access (R121). -/
def eaNear (n A B : Nat) (ofs : BitVec 8) : Nat := (BitVec.ofNat 32 A + BitVec.ofInt 32 (((BitVec.ofNat 32 B).toInt + ofs.toInt) * (n : Int))).toNat

/-- Lane l may make an access of n bytes at va, which lies on page a at owner o and physical offset pa: aligned, permitted, unwatched (R123
steps 1 to 3, R362). -/
structure Admits (s : State) (l : Nat) (va : W64) (n : Nat) (acc : AccKind) (a : PageAttr) (o pa : Nat) : Prop where
  aligned : va.toNat % n = 0
  page : reach s (vmidOf s (ctxOf s s.cur.uid)) (asidOf s (ctxOf s s.cur.uid)) va acc (curLane s l).mode = .page a o pa
  unwatched : watchPorts s (ctxOf s s.cur.uid) va n true true = []

/-- The class of a page is at least a lane's read class (R123 step 4). -/
def ClassOk (s : State) (l : Nat) (a : PageAttr) : Prop := classRank (curLane s l).rclass ≤ classRank a.rclass

/-- n bytes at a place are free of errors and were written in the page's class (R338, R339). -/
def Clean (s : State) (a : PageAttr) (o pa n : Nat) : Prop := poisoned s.poison (mkey o pa) n = false ∧ classMixed s a.rclass o pa n = false

/-- No launch takes snapshots (R351). -/
def NoSnap (s : State) : Prop := ∀ p ∈ s.launches, p.2.snapArmed = false

/-- A lane that has passed a memory instruction: beside its FIFO, nothing but XLANE and the step of its last acquire has changed. -/
def Passed (s t : State) (l : Nat) (x : Bool) : Prop :=
  let old := curLane s l
  let new := lane t s.cur.uid l
  new.at_ = advancePos old.at_ s.cur.len ∧ new.fmode = (if x then old.fmode ||| 0x4000#32 else old.fmode) ∧
  { new with at_ := old.at_, fmode := old.fmode, fifo := old.fifo, acqStep := old.acqStep } = old

/-- A lane that waits inside a memory instruction. -/
def Waits (s t : State) (l : Nat) (w : Wait) : Prop :=
  (lane t s.cur.uid l).st = .wait w ∧ (lane t s.cur.uid l).at_ = (curLane s l).at_ ∧ (lane t s.cur.uid l).ilen = s.cur.len

/-- The writes of a result of cnt words at a destination of lane l. -/
def loadWrites (l : Nat) (d : Dst) (cnt v : Nat) : List RegWrite :=
  match dstReg d with
  | some n => (List.range cnt).map (fun k => ⟨l, n + k, BitVec.ofNat 32 (v / 2 ^ (32 * k))⟩)
  | none => []

/-- A result of cnt words is pending for lane l, under the access of the instruction (R109, R143). -/
def Pends (s t : State) (l : Nat) (d : Dst) (cnt v : Nat) : Prop :=
  ∃ id p, tGet? (grp t s.cur.uid).pend id = some p ∧ p.writes = loadWrites l d cnt v ∧ p.acc = some s.fresh

/-- exec answers: the load counts on LD, memory is as before, and every lane passes with its result pending. -/
def LoadsAll (s : State) (i : Instr) (os : List (Opnd × OTy)) (d : Dst) (cnt : Nat) (v : Nat → Nat) : Prop :=
  ∃ t, exec i s = .next t ∧ (grp t s.cur.uid).ld = (grp s s.cur.uid).ld + 1 ∧ t.mem = s.mem ∧
    ∀ l ∈ s.cur.lanes, Passed s t l (crosses s os l) ∧ (lane t s.cur.uid l).fifo = (curLane s l).fifo ∧ Pends s t l d cnt (v l)

/-- The entry that lane l makes for an access of n bytes at a place (R214, R216). -/
def entryFor (s : State) (l : Nat) (act : Act) (a : PageAttr) (o pa : Nat) (va : W64) (n : Nat) (sem : Sem) (sc : Scope) (dest : Target) (commits : Bool) : FEntry :=
  { id := 0, uid := s.cur.uid, lane := l, acc := s.fresh, act := act, owner := o, pa := pa, va := va, size := n, sem := sem, scope := sc,
    coreRel := (curLane s l).coreRelFence, dest := dest, commits := commits, pc := s.cur.pc, ctx := ctxOf s s.cur.uid, launch := launchOf s s.cur.uid, cls := a.rclass }

/-- The entry of an access to a core-local array at an address (R225). -/
def localFor (s : State) (l : Nat) (act : Act) (at_ va n : Nat) (sem : Sem) : FEntry :=
  { id := 0, uid := s.cur.uid, lane := l, acc := s.fresh, act := act, owner := 0, pa := at_, va := BitVec.ofNat 64 va, size := n, sem := sem, scope := .core,
    coreRel := (curLane s l).coreRelFence, pc := s.cur.pc, ctx := ctxOf s s.cur.uid, launch := launchOf s s.cur.uid }

/-- Lane l has these entries at the tail of its FIFO, numbered. -/
def Enters (s t : State) (l : Nat) (es : List FEntry) : Prop :=
  ∃ new, (lane t s.cur.uid l).fifo = (curLane s l).fifo ++ new ∧ new.map (fun e => { e with id := 0 }) = es

/-- exec answers: the store counts on ST, memory is as before (the entries wait for R216), and every lane passes with its entries made. -/
def StoresAll (s : State) (i : Instr) (os : List (Opnd × OTy)) (es : Nat → List FEntry) : Prop :=
  ∃ t, exec i s = .next t ∧ (grp t s.cur.uid).st = (grp s s.cur.uid).st + 1 ∧ t.mem = s.mem ∧
    ∀ l ∈ s.cur.lanes, Passed s t l (crosses s os l) ∧ Enters s t l (es l)

/-! ### Commands that complete -/

/-- Command id of s, which is c, has completed in t with the fault f (R144): it is gone, its counters have fallen, its arrival (BARID and count) is made where the barrier
stands, and its fault is latched where no other was. -/
structure Completed (s t : State) (id : Nat) (c : Cmd) (f : Option Cause) (bar : Option (Nat × Nat)) : Prop where
  gone : tGet? t.cmds id = none
  out : ∀ core q, id ∉ nth [] (coreAt t core).queues q
  cp : (grp t c.by_.uid).cp = (grp s c.by_.uid).cp - (if c.cp then 1 else 0)
  tl : (grp t c.by_.uid).tl = (grp s c.by_.uid).tl - (if c.tl then 1 else 0)
  arrival : ∀ b n k x, bar = some (b, n) → cmdBar s c.by_ b = some k → barGet s k = some x → x.expect ≠ 0 →
    barGet t k = some (arriveN (f.map (fun y => ⟨y, c.srcAt, id⟩)) n x)
  fault : ∀ y, f = some y → (tGet? s.groups c.by_.uid).isSome = true → (grp s c.by_.uid).engFault = none →
    (grp t c.by_.uid).engFault = some ⟨y, c.srcAt, id⟩
  clean : f = none → (grp t c.by_.uid).engFault = (grp s c.by_.uid).engFault

/-- The barrier of a command's arrival, where it stands, expects something (R148). -/
def ArrivalOk (s : State) (c : Cmd) (bar : Option (Nat × Nat)) : Prop :=
  ∀ b n k x, bar = some (b, n) → cmdBar s c.by_ b = some k → barGet s k = some x → x.expect ≠ 0

end Machine

end Sys2Proof
end

