-- ==== Sys2Proof/Certificates/Slice0/Obligations.lean ====
section
/-! DEFINITION. The statements about the machine, for the provers. -/

open Sys2Proof Sys2Proof.Machine

/-- R88: the arithmetic of the integer group, long and short forms, in every lane of the set, with the last-result file
shifted and nothing else changed. A saturating form clamps; any other keeps the low bits. -/
def Obligations.IntegerArithmetic : Prop :=
  ∀ (s : State) (i : Instr) (d : Dst) (a b c : Opnd), SetOk s → NoPoison s → plainDst d = true → plainSrc a.src = true →
    plainSrc b.src = true → plainSrc c.src = true →
    (∀ t, longForm i = .mov t d a → Gives1 s i d (ityRegs t) (a, ow t) (fun x => x)) ∧
    (∀ t sat, longForm i = .iadd t sat d a b →
      Gives2 s i d (ityRegs t) (a, ow t) (b, ow t) (fun x y => asBits t sat (asInt t x + asInt t y))) ∧
    (∀ t sat, longForm i = .isub t sat d a b →
      Gives2 s i d (ityRegs t) (a, ow t) (b, ow t) (fun x y => asBits t sat (asInt t x - asInt t y))) ∧
    (∀ t sat, longForm i = .imul t sat d a b →
      Gives2 s i d (ityRegs t) (a, ow t) (b, ow t) (fun x y => asBits t sat (asInt t x * asInt t y))) ∧
    (∀ u, longForm i = .imulh u d a b →
      Gives2 s i d 1 (a, .int 32) (b, .int 32) (fun x y => (BitVec.ofInt 64 (asInt (ity32 u) x * asInt (ity32 u) y) >>> 32).toNat)) ∧
    (∀ u, longForm i = .iaddw u d a b →
      Gives2 s i d 2 (a, .int 32) (b, .int 32) (fun x y => (BitVec.ofInt 64 (asInt (ity32 u) x + asInt (ity32 u) y)).toNat)) ∧
    (∀ u, longForm i = .imulw u d a b →
      Gives2 s i d 2 (a, .int 32) (b, .int 32) (fun x y => (BitVec.ofInt 64 (asInt (ity32 u) x * asInt (ity32 u) y)).toNat)) ∧
    (longForm i = .imad d a b c → Gives3 s i d 1 (a, .int 32) (b, .int 32) (c, .int 32)
      (fun x y z => (BitVec.ofNat 32 x * BitVec.ofNat 32 y + BitVec.ofNat 32 z).toNat)) ∧
    (∀ t, longForm i = .imin t d a b →
      Gives2 s i d (ityRegs t) (a, ow t) (b, ow t) (fun x y => if asInt t x ≤ asInt t y then x else y)) ∧
    (∀ t, longForm i = .imax t d a b →
      Gives2 s i d (ityRegs t) (a, ow t) (b, ow t) (fun x y => if asInt t x ≥ asInt t y then x else y)) ∧
    (∀ sat, longForm i = .iabs false sat d a → Gives1 s i d 1 (a, .int 32) (fun x => asBits .i32 sat |asInt .i32 x|)) ∧
    (∀ sat, longForm i = .iabs true sat d a → Gives1 s i d 2 (a, .int 64) (fun x => asBits .i64 sat |asInt .i64 x|))

/-- R88, R89: the logic, shifts and bit counts of the integer group, long and short forms. A shift count is the whole 32-bit
value. -/
def Obligations.IntegerLogic : Prop :=
  ∀ (s : State) (i : Instr) (d : Dst) (a b : Opnd) (t : ITy), SetOk s → NoPoison s → plainDst d = true → plainSrc a.src = true →
    plainSrc b.src = true →
    let v (x : Nat) : BitVec (ityW t) := BitVec.ofNat (ityW t) x
    let both := Gives2 s i d (ityRegs t) (a, ow t) (b, ow t)
    let shift := Gives2 s i d (ityRegs t) (a, ow t) (b, .int 32)
    let count := Gives1 s i d 1 (a, ow t)
    (longForm i = .and t d a b → both (fun x y => (v x &&& v y).toNat)) ∧
    (longForm i = .or t d a b → both (fun x y => (v x ||| v y).toNat)) ∧
    (longForm i = .xor t d a b → both (fun x y => (v x ^^^ v y).toNat)) ∧
    (longForm i = .andn t d a b → both (fun x y => (v x &&& ~~~v y).toNat)) ∧
    (longForm i = .shl t d a b → shift (fun x n => if n < ityW t then (v x <<< n).toNat else 0)) ∧
    (longForm i = .shr t d a b → shift (fun x n => if n < ityW t then (v x >>> n).toNat else 0)) ∧
    (longForm i = .sar t d a b → shift (fun x n => if n < ityW t then ((v x).sshiftRight n).toNat
      else if (v x).msb then (BitVec.allOnes (ityW t)).toNat else 0)) ∧
    (longForm i = .rot t d a b → shift (fun x n => ((v x).rotateLeft (n % ityW t)).toNat)) ∧
    (longForm i = .popc t d a → count (fun x => (List.range (ityW t)).countP (v x).getLsbD)) ∧
    (longForm i = .clz t d a → count (fun x => (List.range (ityW t)).countP (fun k => (List.range (k + 1)).all (fun j => !(v x).getMsbD j)))) ∧
    (longForm i = .ctz t d a → count (fun x => (List.range (ityW t)).countP (fun k => (List.range (k + 1)).all (fun j => !(v x).getLsbD j)))) ∧
    (longForm i = .brev t d a → Gives1 s i d (ityRegs t) (a, ow t) (fun x => (v x).reverse.toNat))

/-- R90, R92 and `lea` of R88: comparison, bit fields, selection and byte permute, long and short forms. -/
def Obligations.IntegerFields : Prop :=
  ∀ (s : State) (i : Instr) (d : Dst) (a b c : Opnd), SetOk s → NoPoison s → plainDst d = true → plainSrc a.src = true →
    plainSrc b.src = true → plainSrc c.src = true →
    let three := Gives3 s i d 1 (a, .int 32) (b, .int 32) (c, .int 32)
    (∀ cc t, longForm i = .icmp cc t d a b → ∃ f, Gives2 s i d 1 (a, ow t) (b, ow t) f ∧
      ∀ x y, (ccMeans cc (asInt t x) (asInt t y) → f x y = 0xFFFFFFFF) ∧ (¬ccMeans cc (asInt t x) (asInt t y) → f x y = 0)) ∧
    (∀ u sc, longForm i = .lea u sc d a b → Gives2 s i d 2 (a, .int 64) (b, .int 32)
      (fun x y => (BitVec.ofNat 64 x + BitVec.ofInt 64 (asInt (ity32 u) y * 2 ^ sc.val)).toNat)) ∧
    (∀ sg, longForm i = .bfx sg d a b c → three (fun x y z =>
      let pos := y % 256
      let e := min (pos + z % 256) 32
      if z % 256 = 0 ∨ 32 ≤ pos then 0
      else
        let f := (BitVec.ofNat 32 x).extractLsb' pos (e - pos)
        if sg then (f.signExtend 32).toNat else (f.zeroExtend 32).toNat)) ∧
    (longForm i = .bfi d a b c → three (fun x y z =>
      let pos := z % 256
      let len := z / 256 % 256
      if len = 0 ∨ 32 ≤ pos then y
      else (insertBits (BitVec.ofNat 32 x) (BitVec.ofNat 32 y) pos (min (pos + len) 32)).toNat)) ∧
    (longForm i = .sel d a b c → three (fun x y z => if z = 0 then y else x)) ∧
    (longForm i = .prmt d a b c → three (fun x y z =>
      let p := pickByte (BitVec.ofNat 32 x) (BitVec.ofNat 32 y) (BitVec.ofNat 32 z)
      (p 3 ++ p 2 ++ p 1 ++ p 0).toNat))

/-- R91: `vote` and `perm` read across the lanes of the set, and no other. -/
def Obligations.AcrossTheSet : Prop :=
  ∀ (s : State) (i : Instr) (d : Dst) (a b : Opnd), SetOk s → NoPoison s → plainDst d = true → plainSrc a.src = true →
    plainSrc b.src = true →
    let S := s.cur.lanes
    let x (l : Nat) : Nat := opnd s (.int 32) a l
    let yes (p : Bool) : Nat := if p then 0xFFFFFFFF else 0
    let vote (n : Nat) := exec i s = .next (retired s [(a, .int 32)] d 1 (fun _ => { val := n }))
    (i = .vote .all d a → vote (yes (S.all (fun l => x l != 0)))) ∧
    (i = .vote .any d a → vote (yes (S.any (fun l => x l != 0)))) ∧
    (i = .vote .ballot d a → vote ((S.filter (fun l => x l != 0)).map (fun l => 2 ^ l)).sum) ∧
    (i = .vote .uni d a → vote (yes (S.all (fun j => S.all (fun k => x j == x k))))) ∧
    (∀ w, longForm i = .perm w d a b → exec i s = .next (retired s [(b, .int 32)] d (if w then 2 else 1) (fun l =>
      let j := opnd s (.int 32) b l % 32
      if j ∈ S then { val := opnd s (.int (if w then 64 else 32)) a j } else { val := 0, xlane := true })))

/-- R94, R95: the integer immediates, and `ldc`, which reads a word of the group's constant bank; its result is scoreboarded, and it freezes no lane (the model's choice, assumption 42). -/
def Obligations.ImmediatesAndConstants : Prop :=
  (∀ (s : State) (i : Instr) (d : Dst) (a : Opnd) (k : BitVec 20), SetOk s → NoPoison s → plainDst d = true → plainSrc a.src = true →
      (∀ t, i = .movi t d k → exec i s = .next (retired s [] d (ityRegs t) (fun _ => { val := asBits t false k.toInt }))) ∧
      (i = .movhi d a k → Gives1 s i d 1 (a, .int 32) (fun x => (k ++ BitVec.ofNat 12 x).toNat)) ∧
      (∀ t,
        let v (x : Nat) : BitVec (ityW t) := BitVec.ofNat (ityW t) x
        let y : BitVec (ityW t) := BitVec.ofInt (ityW t) k.toInt
        let n := k.toNat
        let one := Gives1 s i d (ityRegs t) (a, ow t)
        (∀ sat, i = .iaddi t sat d a k → one (fun x => asBits t sat (asInt t x + asInt t y.toNat))) ∧
        (∀ sat, i = .imuli t sat d a k → one (fun x => asBits t sat (asInt t x * asInt t y.toNat))) ∧
        (i = .andi t d a k → one (fun x => (v x &&& y).toNat)) ∧
        (i = .ori t d a k → one (fun x => (v x ||| y).toNat)) ∧
        (i = .xori t d a k → one (fun x => (v x ^^^ y).toNat)) ∧
        (i = .shli t d a k → one (fun x => if n < ityW t then (v x <<< n).toNat else 0)) ∧
        (i = .shri t d a k → one (fun x => if n < ityW t then (v x >>> n).toNat else 0)) ∧
        (i = .sari t d a k → one (fun x => if n < ityW t then ((v x).sshiftRight n).toNat
          else if (v x).msb then (BitVec.allOnes (ityW t)).toNat else 0)) ∧
        (∀ cc, i = .icmpi cc t d a k → ∃ f, Gives1 s i d 1 (a, ow t) f ∧
          ∀ x, (ccMeans cc (asInt t x) (asInt t y.toNat) → f x = 0xFFFFFFFF) ∧ (¬ccMeans cc (asInt t x) (asInt t y.toNat) → f x = 0))) ∧
      (∀ sc, i = .leai sc d a k → Gives1 s i d 2 (a, .int 64) (fun x => (BitVec.ofNat 64 x + BitVec.ofInt 64 (k.toInt * 2 ^ sc.val)).toNat))) ∧
  (∀ (s : State) (d : Dst) (a : Opnd) (k : BitVec 20), SetOk s → NoPoison s → s.cur.lanes ≠ [] → plainDst d = true → plainSrc a.src = true →
      let n (l : Nat) : Nat := (BitVec.ofNat 32 (opnd s (.int 32) a l) + k.signExtend 32).toNat
      let res (l : Nat) : Res := { val := (smGet 0 (grp s s.cur.uid).cbank (n l)).toNat }
      (∀ l ∈ s.cur.lanes, n l < (grp s s.cur.uid).cblen) →
      exec (.ldc d a k) s = .next (deferred s [(a, .int 32)] res (oneWordWrites s d res) []))

/-- R104, R107, R119: sums, products and fused products of f32, f16 and bf16, long, short and immediate forms: one rounding of the exact
result. `fmac` and `fmai` read their destination as the addend. -/
def Obligations.FloatSums : Prop :=
  ∀ (s : State) (i : Instr) (d : Dst) (a b c : Opnd) (t : FTy) (r : Rnd) (k : BitVec 20), SetOk s → NoPoison s → plainDst d = true →
    plainSrc a.src = true → plainSrc b.src = true → plainSrc c.src = true →
    let f := ftyFmt t
    let imm : FVal := fmtDecode .f32 (k ++ 0#12).toNat
    let A : Opnd × OTy := (a, .flt f)
    let B : Opnd × OTy := (b, .flt f)
    let a32 : Opnd × OTy := (a, .flt .f32)
    (longForm i = .fadd t r d a b → Rounds s i d 1 [A, B] r (fun c x => fused c f [term (fv f x 0), term (fv f x 1)])) ∧
    (longForm i = .fsub t r d a b → Rounds s i d 1 [A, B] r (fun c x => fused c f [term (fv f x 0), term (fvNeg (fv f x 1))])) ∧
    (longForm i = .fmul t r d a b → Rounds s i d 1 [A, B] r (fun c x => fused c f [fvMul (fv f x 0) (fv f x 1)])) ∧
    (∀ e, dstAsSrc d = some e → longForm i = .fmac t r d a b →
      Rounds s i d 1 [A, B, (op e, .flt f)] r (fun c x => fused c f [fvMul (fv f x 0) (fv f x 1), term (fv f x 2)])) ∧
    (∀ neg, longForm i = .fma neg d a b c → Rounds s i d 1 [a32, (b, .flt .f32), (c, .flt .f32)] .dyn
      (fun c x => fused c .f32 [signed neg (fvMul (fv .f32 x 0) (fv .f32 x 1)), term (fv .f32 x 2)])) ∧
    (longForm i = .fscale t r d a b → Rounds s i d 1 [A, (b, .int 32)] r
      (fun c x => fused c f [term (fvScale (fv f x 0) (BitVec.ofNat 32 (el x 1)).toInt)])) ∧
    (i = .fmovi d k → exec i s = .next (retired s [] d 1 (fun _ => { val := (k ++ 0#12).toNat }))) ∧
    (i = .faddi r d a k → Rounds s i d 1 [a32] r (fun c x => fused c .f32 [term (fv .f32 x 0), term imm])) ∧
    (i = .fmuli r d a k → Rounds s i d 1 [a32] r (fun c x => fused c .f32 [fvMul (fv .f32 x 0) imm])) ∧
    (∀ e, dstAsSrc d = some e → i = .fmai r d a k →
      Rounds s i d 1 [a32, (op e, .flt .f32)] r (fun c x => fused c .f32 [fvMul (fv .f32 x 0) imm, term (fv .f32 x 1)]))

/-- R104 to R106, R119: minimum, maximum, comparison, integral rounding and class, long, short and immediate forms. -/
def Obligations.FloatOrderAndClass : Prop :=
  ∀ (s : State) (i : Instr) (d : Dst) (a b : Opnd) (t : FTy) (r : Rnd) (k : BitVec 20), SetOk s → NoPoison s → plainDst d = true →
    plainSrc a.src = true → plainSrc b.src = true →
    let f := ftyFmt t
    let A : Opnd × OTy := (a, .flt f)
    let B : Opnd × OTy := (b, .flt f)
    let minMax (greater nan : Bool) : RCtx → List Nat → Nat × RCtx := fun c x =>
      let u := fv f x 0
      let v := fv f x 1
      let c := if fvIsSig u || fvIsSig v then raise c fNV else c
      let can := (fmtNan f).getD 0
      (if fvIsNan u && fvIsNan v then can
       else if fvIsNan u then (if nan then can else el x 1)
       else if fvIsNan v then (if nan then can else el x 0)
       else if greater then (if fvBefore u v then el x 1 else el x 0) else (if fvBefore v u then el x 1 else el x 0), c)
    let compare (cc : Fcc) (c : RCtx) (u v : FVal) : Nat × RCtx :=
      let un := fvIsNan u || fvIsNan v
      let sig := fvIsSig u || fvIsSig v
      let lt := !un && fvLt u v
      let gt := !un && fvLt v u
      let p : Bool × Bool := match cc with
        | .eq => (!un && !lt && !gt, sig)
        | .ne => (un || lt || gt, sig)
        | .lt => (lt, un)
        | .le => (!un && !gt, un)
        | .gt => (gt, un)
        | .ge => (!un && !lt, un)
        | .un => (un, sig)
      (if p.1 then 0xFFFFFFFF else 0, if p.2 then raise c fNV else raise c 0)
    (∀ nan, longForm i = .fmin t nan d a b → Rounds s i d 1 [A, B] .rne (minMax false nan)) ∧
    (∀ nan, longForm i = .fmax t nan d a b → Rounds s i d 1 [A, B] .rne (minMax true nan)) ∧
    (∀ cc, longForm i = .fcmp cc t d a b → Rounds s i d 1 [A, B] .rne (fun c x => compare cc c (fv f x 0) (fv f x 1))) ∧
    (∀ cc, i = .fcmpi cc d a k → Rounds s i d 1 [(a, .flt .f32)] .rne
      (fun c x => compare cc c (fv .f32 x 0) (fmtDecode .f32 (k ++ 0#12).toNat))) ∧
    (∀ ex, longForm i = .frnd t r ex d a → Rounds s i d 1 [A] r (fun c x => fvIntegral c f ex (el x 0))) ∧
    (longForm i = .fclass t d a → Gives1 s i d 1 A (fun x => 2 ^ (match fmtDecode f x with
      | .inf n => if n then 0 else 7
      | .nan sig => if sig then 8 else 9
      | .fin n m _ => if m = 0 then (if n then 3 else 4)
        else if m < 2 ^ fmtM f then (if n then 2 else 5) else (if n then 1 else 6))))

/-- R107, R110, R111, R113, R114: packed, f64 and complex arithmetic, conversion, decoding and random bits, long and short forms. -/
def Obligations.FloatPackedAndConverted : Prop :=
  ∀ (s : State) (i : Instr) (d : Dst) (a b c : Opnd) (bf : Bool) (r : Rnd), SetOk s → NoPoison s → plainDst d = true →
    plainSrc a.src = true → plainSrc b.src = true → plainSrc c.src = true →
    let f := pairFmt bf
    let A : Opnd × OTy := (a, .pair bf)
    let B : Opnd × OTy := (b, .pair bf)
    let C : Opnd × OTy := (c, .pair bf)
    (longForm i = .h2add bf r d a b → Rounds s i d 1 [A, B] r (fun c x =>
      twice f c [term (part f x 0 0), term (part f x 1 0)] [term (part f x 0 1), term (part f x 1 1)])) ∧
    (longForm i = .h2mul bf r d a b → Rounds s i d 1 [A, B] r (fun c x =>
      twice f c [fvMul (part f x 0 0) (part f x 1 0)] [fvMul (part f x 0 1) (part f x 1 1)])) ∧
    (longForm i = .h2fma bf d a b c → Rounds s i d 1 [A, B, C] .dyn (fun c x =>
      twice f c [fvMul (part f x 0 0) (part f x 1 0), term (part f x 2 0)] [fvMul (part f x 0 1) (part f x 1 1), term (part f x 2 1)])) ∧
    (longForm i = .fdot2 bf d a b c → Rounds s i d 1 [A, B, (c, .flt .f32)] .dyn (fun c x =>
      fused c .f32 [fvMul (part f x 0 0) (part f x 1 0), fvMul (part f x 0 1) (part f x 1 1), term (fv .f32 x 2)])) ∧
    (longForm i = .dadd r d a b → Rounds s i d 2 [(a, .flt .f64), (b, .flt .f64)] r (fun c x =>
      fused c .f64 [term (fv .f64 x 0), term (fv .f64 x 1)])) ∧
    (longForm i = .dmul r d a b → Rounds s i d 2 [(a, .flt .f64), (b, .flt .f64)] r (fun c x => fused c .f64 [fvMul (fv .f64 x 0) (fv .f64 x 1)])) ∧
    (∀ neg, longForm i = .dfma neg d a b c → Rounds s i d 2 [(a, .flt .f64), (b, .flt .f64), (c, .flt .f64)] .dyn (fun c x =>
      fused c .f64 [signed neg (fvMul (fv .f64 x 0) (fv .f64 x 1)), term (fv .f64 x 2)])) ∧
    (∀ t conj, i = .cmul t conj r d a b → Rounds s i d (if t = .f32 then 2 else 1) [(a, .cplx t), (b, .cplx t)] r (fun c x =>
      let g := ftyFmt t
      let p (j k : Nat) := fvMul (part g x 0 j) (part g x 1 k)
      if conj then twice g c [p 0 0, p 1 1] [p 1 0, signed true (p 0 1)] else twice g c [p 0 0, signed true (p 1 1)] [p 0 1, p 1 0])) ∧
    (∀ g sat, longForm i = .cvt .fromF32 g sat r d a → Rounds s i d (if fmtWidth g = 64 then 2 else 1) [(a, .flt .f32)] r (fun c x =>
      let q := rnd c g sat (fv .f32 x 0)
      (regCode g q.1, q.2))) ∧
    (∀ g sat, longForm i = .cvt .fromF64 g sat r d a → Rounds s i d (if fmtWidth g = 64 then 2 else 1) [(a, .flt .f64)] r (fun c x =>
      let q := rnd c g sat (fv .f64 x 0)
      (regCode g q.1, q.2))) ∧
    (∀ g sat, longForm i = .cvt .toF32 g sat r d a → Rounds s i d 1 [(a, otyOfFmt g)] r (fun c x => rnd c .f32 sat (fv g x 0))) ∧
    (∀ g sat, longForm i = .cvt .toF64 g sat r d a → Rounds s i d 2 [(a, otyOfFmt g)] r (fun c x => rnd c .f64 sat (fv g x 0))) ∧
    (∀ g j, i = .deq g j r d a b → Rounds s i d 1 [(a, .int 32), (b, .int 32)] r (fun c x =>
      let v := part g x 0 j.val
      let sc := el x 1 % 256
      if sc = 0xFF ∨ fvIsNan v = true then (0x7FC00000, c) else rnd c .f32 false (fvScale v ((sc : Int) - 127)))) ∧
    (∀ g, i = .rng g d a b → Gives2 s i d (if fmtWidth g = 64 then 2 else 1) (a, .int 64) (b, .int 64) (fun x y =>
      let h := kHash x (y % 2 ^ 48) (y / 2 ^ 48)
      if g = .z32 then h / 2 ^ 32 else if g = .f32 then roundNE .f32 (.fin false (h / 2 ^ 40) (-24)) else h))

/-- R112, R68: `quant` over a set: the scale of a lane's block comes from every lane of that block in the set, and the elements are
rounded, saturating, and packed; the scale is the high word. Its operand is no stream here. -/
def Obligations.Quantise : Prop :=
  ∀ (s : State) (f : Fmt) (blk : Blk) (tr : Bool) (r : Rnd) (d : Dst) (a : Opnd), SetOk s → NoPoison s → plainDst d = true →
    plainSrc a.src = true →
    let k := blkK blk
    let t : OTy := if k = 1 then .flt .f32 else .run k
    let elems (l : Nat) : List FVal := (List.range k).map (fun j => fmtDecode .f32 (opnd s t a l / 2 ^ (32 * j) % 2 ^ 32))
    let mates (l : Nat) : List Nat := s.cur.lanes.filter (fun m => blk != .b16 || m / 16 == l / 16)
    let scale (l : Nat) : Nat := blockScale f ((mates l).flatMap elems)
    let res (l : Nat) : Res :=
      if scale l = 0xFF then { val := 0xFF * 2 ^ 32 }
      else
        let p := quantLane f (scale l) (laneRnd (curLane s l) r) 0 (elems l)
        { val := p.1 + scale l * 2 ^ 32, flags := p.2.flags, cnt := some p.2.cnt }
    (∀ l ∈ s.cur.lanes, fpxDue (curLane s l) (res l).flags = false) →
    exec (.quant f blk tr r d a) s = .next (retired s [(a, t)] d 2 res)

/-- R108, R109: the transcendentals, long and short forms: the flags at issue (the model's choice, assumption 14), the result pending with h0 and
h1, lanes with a trap enabled frozen until it is written. -/
def Obligations.Transcendentals : Prop :=
  ∀ (s : State) (i : Instr) (d : Dst) (a : Opnd) (r : Rnd), SetOk s → NoPoison s → s.cur.lanes ≠ [] → plainDst d = true →
    plainSrc a.src = true →
    ∀ g : Trans, longForm i = (match g with
      | .rcp => .frcp r d a
      | .rsq => .frsq r d a
      | .sqrt => .fsqrt r d a
      | .exp2 => .fexp2 r d a
      | .log2 => .flog2 r d a) →
    let res (l : Nat) : Res := resOf (fvTrans (laneRnd (curLane s l) r) g (opnd s (.flt .f32) a l))
    (∀ l ∈ s.cur.lanes, fpxDue (curLane s l) (res l).flags = false) →
    exec i s = .next (deferred s [(a, .flt .f32)] res (oneWordWrites s d res) (trapping s))

/-- R115 to R118: `mmag`: every element of C gets one rounding of itself and all its products, elements of lanes outside the set
count as +0 and set XLANE; the results are pending, h0 and h1 stay, and the unit is busy for four cycles. -/
def Obligations.GroupMatrix : Prop :=
  ∀ (s : State) (f : Fmt) (mix : Bool) (r : Rnd) (d a b : Fin 128), SetOk s → NoPoison s → (f = .f16 ∨ f = .bf16 ∨ f = .e4m3 ∨ f = .e5m2) →
    let S := s.cur.lanes
    let g := grp s s.cur.uid
    let fb : Fmt := if mix then (if f = .e4m3 then .e5m2 else .e4m3) else f
    let w := fmtWidth f
    -- element k of row or column j of a fragment in registers from n: the lane, the register and the part that hold it
    let elem (fm : Fmt) (n j k : Nat) : FVal :=
      let l := if w = 16 then 16 * (k / 8) + j else 16 * (k / 16) + j
      let m := if w = 16 then k % 8 / 2 else k % 16 / 4
      let h := if w = 16 then k % 2 else k % 4
      if l ∈ S then fmtDecode fm ((getReg (laneAt g l) (n + m)).toNat / 2 ^ (w * h) % 2 ^ w) else .fin false 0 0
    let terms (l m : Nat) : List (FVal × Bool) :=
      term (fmtDecode .f32 (getReg (laneAt g l) (d.val + m)).toNat) ::
        (List.range (if w = 16 then 16 else 32)).map (fun k => fvMul (elem f a.val (8 * (l / 16) + m) k) (elem fb b.val (l % 16) k))
    let eight (l : Nat) : List W32 × RCtx := (List.range 8).foldl (fun p m =>
      let q := fused p.2 .f32 (terms l m)
      (p.1 ++ [BitVec.ofNat 32 q.1], q.2)) ([], laneRnd (laneAt g l) r)
    let result : Pending := { writes := S.flatMap (fun l => ((eight l).1.zipIdx).map (fun p => ⟨l, d.val + p.2, p.1⟩)), frozen := trapping s, since := S.map (fun l => issuedLane (curLane s l) (setFlags (curLane s l) (eight l).2.flags) l) }
    (∀ l ∈ S, fpxDue (curLane s l) (eight l).2.flags = false) → (fb = f ∨ w = 8) →
    exec (.mmag f mix r d a b) s = .next
      (modCore (modGrp (modCur { s with fresh := s.fresh + 1 } S (fun l ln =>
          advance { setXlane (setFlags ln (eight l).2.flags) (S.length != 32) with srcnt := BitVec.ofNat 64 (eight l).2.cnt } s.cur.len))
        s.cur.uid (fun g => { g with pend := tPut g.pend s.fresh result }))
        (coreOf s s.cur.uid) (fun c => { c with mmagAt := s.cycle + 4, mmagPipe := (slotOf g).getD 0 % 4 }))

/-- R42 to R47, R55, R56: what a source field other than a stream delivers to a lane. A register or a pair comes from the lane that the
pattern selects; where that lane is outside the set, the lane reads 0 and XLANE is due. A uniform source crosses no lane: a word or a
pair of the constant window, an immediate as each operand type reads it, exactly, the literal, the lane's number and the group's word. -/
def Obligations.OperandDelivery : Prop :=
  ∀ (s : State) (p : Pat) (l : Nat), l < 32 →
    let S := s.cur.lanes
    let at_ (x : Src) : Opnd := ⟨x, p⟩
    let sigma : Nat := match p with
      | .ident => l
      | .rot k => (l + k.val) % 32
      | .bc k => k.val
      | .bf k => l ^^^ k.val
    let read (x : Src) : Nat := opnd s (.int 32) (at_ x) l
    let wide (x : Src) : Nat := opnd s (.int 64) (at_ x) l
    let from_ (n : Nat) : Nat := if sigma ∈ S then (getReg (curLane s sigma) n).toNat else 0
    let crossed (t : OTy) (x : Src) (b : Bool) : Prop := crosses s [(at_ x, t)] l = b
    (∀ n : Fin 128, read (.v n) = from_ n.val ∧ crossed (.int 32) (.v n) (decide (sigma ∉ S))) ∧
    (∀ n : Fin 8, read (.o n) = from_ (128 + n.val) ∧ crossed (.int 32) (.o n) (decide (sigma ∉ S))) ∧
    (read .h0 = from_ 136 ∧ crossed (.int 32) .h0 (decide (sigma ∉ S))) ∧
    (read .h1 = from_ 137 ∧ crossed (.int 32) .h1 (decide (sigma ∉ S))) ∧
    (∀ n : Fin 128, n.val + 1 < 128 → wide (.v n) = from_ n.val + 2 ^ 32 * from_ (n.val + 1)) ∧
    (∀ n : Fin 8, n.val + 1 < 8 → wide (.o n) = from_ (128 + n.val) + 2 ^ 32 * from_ (129 + n.val)) ∧
    (wide .h0 = from_ 136 + 2 ^ 32 * from_ 137) ∧
    (let word (n : Nat) : Nat := (smGet 0 (grp s s.cur.uid).cbank n).toNat
     ∀ n : Fin 64, read (.c n) = word n.val ∧ wide (.c n) = word n.val + 2 ^ 32 * word (n.val + 1)) ∧
    (∀ (k : Fin 32) (t : OTy),
      let v : BitVec 5 := BitVec.ofNat 5 k.val
      let x (t : OTy) : Nat := opnd s t (at_ (.imm k)) l
      x (.int 64) = (v.signExtend 64).toNat ∧ x (.int 32) = (v.signExtend 32).toNat ∧
      x (.int 16) = (v.signExtend 16).toNat ∧ x (.int 8) = (v.signExtend 8).toNat ∧
      (∀ f, immFits f v.toInt = true → isExactly (fmtDecode f (x (.flt f))) v.toInt) ∧
      (∀ bf, isExactly (fmtDecode (pairFmt bf) (x (.pair bf) % 2 ^ 16)) v.toInt ∧
        isExactly (fmtDecode (pairFmt bf) (x (.pair bf) / 2 ^ 16)) v.toInt ∧ x (.pair bf) < 2 ^ 32) ∧
      (∀ c, isExactly (fmtDecode (ftyFmt c) (x (.cplx c))) v.toInt ∧ x (.cplx c) < 2 ^ fmtWidth (ftyFmt c)) ∧
      crossed t (.imm k) false) ∧
    (∀ (w : W32) (t : OTy),
      let x (t : OTy) : Nat := opnd s t (at_ (.lit w)) l
      x (.int 32) = w.toNat ∧ x (.int 64) = (w.signExtend 64).toNat ∧ x (.int 8) = w.toNat % 2 ^ 8 ∧ x (.int 16) = w.toNat % 2 ^ 16 ∧
      (∀ f, f ≠ .f64 → x (.flt f) = w.toNat % 2 ^ fmtWidth f) ∧
      x (.flt .f64) = (round .f64 .rne false 0 (fmtDecode .f32 w.toNat)).code ∧
      (∀ bf, x (.pair bf) = w.toNat) ∧ (∀ c, x (.cplx c) = w.toNat) ∧ crossed t (.lit w) false) ∧
    (read .lane = l ∧ wide .lane = l) ∧
    (∀ k, slotOf (grp s s.cur.uid) = some k → k < 32 → coreOf s s.cur.uid < 2 ^ 8 → (gangOf s s.cur.uid).groups.length ≤ 16 →
      (grp s s.cur.uid).gidx < 16 →
      let word : Nat := coreOf s s.cur.uid * 2 ^ 13 + k * 2 ^ 8 + ((gangOf s s.cur.uid).groups.length - 1) * 2 ^ 4 + (grp s s.cur.uid).gidx
      read .grp = word ∧ wide .grp = word) ∧
    (∀ t, (∀ n, crossed t (.c n) false) ∧ crossed t .lane false ∧ crossed t .grp false)

/-- R48, R49, R56, R66: what a result changes. In a lane of the set: the registers that the destination names, the last-result file, the
flags, XLANE, SRCNT and the place in the block; outside the set, and beside the groups and the model's counters, nothing. -/
def Obligations.ResultFrame : Prop :=
  ∀ (s : State) (os : List (Opnd × OTy)) (d : Dst) (n : Nat) (r : Nat → Res), SetOk s → (n = 1 ∨ n = 2) →
    (∀ k, d = .v k → k.val + n ≤ 128) → (∀ k, d = .o k → k.val + n ≤ 8) →
    let t := retired s os d n r
    let u := s.cur.uid
    { t with groups := s.groups, fresh := s.fresh, free := s.free } = s ∧
    (∀ v, v ≠ u → grp t v = grp s v) ∧ { grp t u with lanes := [] } = { grp s u with lanes := [] } ∧
    (∀ l, l ∉ s.cur.lanes → lane t u l = lane s u l) ∧
    (∀ l ∈ s.cur.lanes,
      let old := curLane s l
      let new := lane t u l
      let x := (r l).val
      (new.h0 = BitVec.ofNat 32 x ∧ new.h1 = if n = 2 then BitVec.ofNat 32 (x / 2 ^ 32) else old.h0) ∧
      (∀ k, k < 136 → getReg new k =
        match dstReg d with
        | some m => if k = m then BitVec.ofNat 32 x else if n = 2 ∧ k = m + 1 then BitVec.ofNat 32 (x / 2 ^ 32) else getReg old k
        | none => getReg old k) ∧
      new.fmode = old.fmode ||| BitVec.ofNat 32 ((r l).flags % 32 * 16) ||| (if crosses s os l || (r l).xlane then 0x4000#32 else 0#32) ∧
      new.srcnt = ((r l).cnt.map (BitVec.ofNat 64)).getD old.srcnt ∧
      new.at_ = advancePos old.at_ s.cur.len ∧
      { new with v := old.v, vpois := old.vpois, vmark := old.vmark, o := old.o, h0 := old.h0, h1 := old.h1, fmode := old.fmode, srcnt := old.srcnt,
                 at_ := old.at_ } = old)

/-- R292, R294, R295: taking a trap. The frame, readable by its thread, the depth, the mode, the vector and a fresh region record; the lane's
other state, the other lanes and the rest of the machine stay. At depth 4 the launch ends with DOUBLE_FAULT instead.
R66: where a flag that a float sum raises has its trap enabled, the lane takes FPX with the flags as TXVAL; the flags stay in FMODE, the
destination and the last-result file keep their values. -/
def Obligations.TrapEntry : Prop :=
  (∀ (s : State) (u l : Nat) (t : TrapInfo), (tGet? s.groups u).isSome = true → l < (grp s u).lanes.length → NoPendH s u →
      let p := (gangOf s u).privsz
      (TidyLane (lane s u l) → FrameLeft p (lane s u l) →
        Trapped p (takeCommits (lane s u l)) (lane (trapLane s u l t) u l) t.cause t.txval t.txpc t.restart t.rhdr ∧
        (∀ k, k ≠ l → lane (trapLane s u l t) u k = lane s u k) ∧ (∀ v, v ≠ u → grp (trapLane s u l t) v = grp s v) ∧
        { trapLane s u l t with groups := s.groups, fresh := s.fresh } = s) ∧
      ((lane s u l).depth = 4 → (tGet? s.launches (launchOf s u)).isSome = true → (tGet? s.gangs (grp s u).gang).isSome = true →
        let e := trapLane s u l t
        (launchAt e (launchOf s u)).state = .ended ∧ (launchAt e (launchOf s u)).statuses = (launchAt s (launchOf s u)).statuses ++ [.doubleFault] ∧
        tGet? e.groups u = none)) ∧
  (∀ (s : State) (i : Instr) (t : FTy) (r : Rnd) (d : Dst) (a b : Opnd), SetOk s → NoPoison s → Tidy s → MayTrap s → plainDst d = true →
      plainSrc a.src = true → plainSrc b.src = true → (longForm i = .fadd t r d a b ∨ longForm i = .fmul t r d a b) →
      let f := ftyFmt t
      let x (l : Nat) : FVal := fmtDecode f (opnd s (.flt f) a l)
      let y (l : Nat) : FVal := fmtDecode f (opnd s (.flt f) b l)
      let sum (l : Nat) : Nat × RCtx := fused (laneRnd (curLane s l) r) f (if longForm i = .fadd t r d a b then [term (x l), term (y l)] else [fvMul (x l) (y l)])
      (∀ l ∈ s.cur.lanes, fpxDue (curLane s l) (sum l).2.flags = true) → (∀ l ∈ s.cur.lanes, crosses s [(a, .flt f), (b, .flt f)] l = false) →
      ∃ e, exec i s = .next e ∧ ∀ l ∈ s.cur.lanes,
        let old := takeCommits (curLane s l)
        let new := lane e s.cur.uid l
        let noted : Lane := { old with fmode := old.fmode ||| BitVec.ofNat 32 ((sum l).2.flags % 32 * 16), srcnt := BitVec.ofNat 64 (sum l).2.cnt }
        Trapped (gangOf s s.cur.uid).privsz noted new .fpx (BitVec.ofNat 64 ((sum l).2.flags % 32)) s.cur.pc (curRec old).regpc (curRec old).reghdr)

/-- R93, R97 to R99: `nop` and the transfers of control in every lane of the set: the next block and the way in, or the next word. -/
def Obligations.Transfers : Prop :=
  ∀ (s : State), SetOk s → NoPoison s →
    let pc := s.cur.pc
    let next (ln : Lane) : Lane := { ln with at_ := advancePos ln.at_ s.cur.len }
    let goes (ln : Lane) (h : W64) (k : Entry) : Lane := { ln with at_ := .enter h k pc }
    let x (c : Creg) (l : Nat) : Nat := opnd s (.int 32) (op (cregSrc c)) l
    let xx (c : Creg) (l : Nat) : Nat := opnd s (.int 64) (op (cregSrc c)) l
    let enters (l : Nat) (h : W64) (k : Entry) : Prop := ∃ e, enterBlock s (vmidOf s (ctxOf s s.cur.uid)) (asidOf s (ctxOf s s.cur.uid)) (curLane s l).mode h k pc = .ok e
    -- header of the block of a lane, and its length in words
    ∀ (hdr : Nat → W64) (len : Nat → Nat), (∀ l ∈ s.cur.lanes, ∃ at_ left, (curLane s l).at_ = .word (hdr l) (len l) at_ left) →
    let target (l : Nat) (tgt : BitVec 20) : W64 := hdr l + 8 * tgt.signExtend 64
    let link (ln : Lane) (d : Dst) (l : Nat) : Lane := match dstReg d with
      | some n => setRegs ln n 2 (hdr l + BitVec.ofNat 64 (8 * len l)).toNat
      | none => ln
    (∀ i, longForm i = .nop → exec i s = .next (modCur s s.cur.lanes (fun _ => next))) ∧
    (∀ tgt, exec (.bra tgt) s = .next (lanesDo s (fun l ln => goes ln (target l tgt) .branch))) ∧
    (∀ ck c tgt, ∃ b : Nat → Bool, exec (.brc ck c tgt) s = .next (lanesDo s (fun l ln => if b (x c l) then goes ln (target l tgt) .branch else next ln)) ∧
      ∀ v, v < 2 ^ 32 → (b v = true ↔ match ck with
        | .nz => v ≠ 0
        | .z => v = 0
        | .neg => 2 ^ 31 ≤ v)) ∧
    (∀ c, exec (.ret c) s = .next (lanesDo s (fun l ln => goes ln (BitVec.ofNat 64 (xx c l)) .ret))) ∧
    (∀ tgt d, plainDst d = true → (∀ l ∈ s.cur.lanes, enters l (target l tgt) .call) →
      exec (.call tgt d) s = .next (lanesDo s (fun l ln => goes (link ln d l) (target l tgt) .call))) ∧
    (∀ tgt d, (∀ l ∈ s.cur.lanes, ¬enters l (target l tgt) .call) →
      exec (.call tgt d) s = .next (lanesDo s (fun l ln => goes ln (target l tgt) .call))) ∧
    (∀ c d, plainDst d = true → (∀ l ∈ s.cur.lanes, enters l (BitVec.ofNat 64 (xx c l)) .indirect) →
      exec (.jmpi c d) s = .next (lanesDo s (fun l ln => goes (link ln d l) (BitVec.ofNat 64 (xx c l)) .indirect))) ∧
    (∀ c d, (∀ l ∈ s.cur.lanes, ¬enters l (BitVec.ofNat 64 (xx c l)) .indirect) →
      exec (.jmpi c d) s = .next (lanesDo s (fun l ln => goes ln (BitVec.ofNat 64 (xx c l)) .indirect))) ∧
    (∀ c tgt stride count, exec (.brx c tgt stride count) s = .next (lanesDo s (fun l ln =>
      if x c l < count.toNat then goes ln (target l tgt + BitVec.ofNat 64 (8 * stride.toNat * x c l)) .indirect else next ln)))

/-- R100, R101, R144 to R146: `exit`, `yield`, `sleep`, `wait` and `drain`, where no engine fault is latched: the thread ends, goes on, or
waits for what the instruction names. A duration of 0 is a `yield`; a threshold of 15 does not wait. A lane with a latched engine fault takes it at `wait` and `drain`, with the record's
cause and address. -/
def Obligations.ExitAndWaits : Prop :=
  (∀ (s : State), SetOk s → NoPoison s → (grp s s.cur.uid).engFault = none →
      let u := s.cur.uid
      let g := grp s u
      let next (ln : Lane) : Lane := { ln with at_ := advancePos ln.at_ s.cur.len }
      let waits (ln : Lane) (w : Wait) : Lane := { ln with st := .wait w, ilen := s.cur.len }
      let sleeps (i : Instr) (n : Nat → Nat) : Prop := exec i s = .next (modGrp (lanesDo s (fun l ln =>
        if n l = 0 then next ln else waits ln (.sleep (s.gtick.toNat + n l)))) u (fun g => { g with yielded := g.yielded || s.cur.lanes.any (fun l => n l == 0) }))
      ((∀ l ∈ s.cur.lanes, (curLane s l).mode = .u) → exec .exit s = .next (lanesDo s (fun _ ln => { ln with st := .exited }))) ∧
      ((∃ l, l ∈ s.cur.lanes) → exec .yield s = .next (modGrp (lanesDo s (fun _ => next)) u (fun g => { g with yielded := true }))) ∧
      (∀ k, sleeps (.sleep (.ticks k)) (fun _ => k.val)) ∧
      (∀ c, sleeps (.sleep (.reg c)) (opnd s (.int 32) (op (cregSrc c)))) ∧
      (∀ ld st cp tl : Fin 16, exec (.wait ld st cp tl) s = .next (lanesDo s (fun _ ln =>
        if (ld.val = 15 ∨ g.ld ≤ ld.val) ∧ (st.val = 15 ∨ g.st ≤ st.val) ∧ (cp.val = 15 ∨ g.cp ≤ cp.val) ∧ (tl.val = 15 ∨ g.tl ≤ tl.val) then next ln
        else waits ln (.count ld.val st.val cp.val tl.val)))) ∧
      (∀ p, exec (.drain p) s = .next (lanesDo s (fun _ ln => if drainCmds s p = [] then next ln else waits ln (.drain (drainCmds s p)))))) ∧
  (∀ (s : State) (l : Nat) (i : Instr) (f : EngFault), SetOk s → Tidy s → MayTrap s → s.cur.lanes = [l] → (curLane s l).engTaken = false →
      (grp s s.cur.uid).engFault = some f → ((∃ a b d e, i = .wait a b d e) ∨ (∃ p, i = .drain p)) →
      ∃ t, exec i s = .next t ∧
        (let old := takeCommits { curLane s l with engTaken := true }
         Trapped (gangOf s s.cur.uid).privsz old (lane t s.cur.uid l) f.cause f.at_ s.cur.pc (curRec old).regpc (curRec old).reghdr) ∧
        -- the record clears once every thread that has not exited has taken it
        ((grp t s.cur.uid).engFault = none ↔
          ∀ k, k < (grp s s.cur.uid).lanes.length → k ≠ l → (lane s s.cur.uid k).st ≠ .exited → (lane s s.cur.uid k).engTaken = true))

/-- R147 to R149: the barrier instructions on a barrier with an EXPECT above what has arrived: `bar.arr` counts one arrival a lane, in
rising order, and gives each lane the phase before its own; `bar.wait` goes on where the phase has passed the token and the lane's earlier loads and
acquires are performed, and waits where not; `bar.sync` arrives and then waits; `bar.init` sets EXPECT and clears the count. That they wait for the lane's loads and acquires is the model's
choice (assumption 25). -/
def Obligations.Barriers : Prop :=
  ∀ (s : State) (b : BarId) (bar : Bar), SetOk s → NoPoison s → Tidy s → NoPendH s s.cur.uid → (grp s s.cur.uid).engFault = none →
    (∃ l, l ∈ s.cur.lanes) → barGet s (barKey s s.cur.uid b) = some bar → bar.arrived.toNat < bar.expect.toNat → bar.faulted = [] →
    let u := s.cur.uid
    let S := s.cur.lanes
    let key := barKey s u b
    -- the barrier after n arrivals
    let after (n : Nat) : Bar := { bar with phase := bar.phase + BitVec.ofNat 32 ((bar.arrived.toNat + n) / bar.expect.toNat),
                                            arrived := BitVec.ofNat 32 ((bar.arrived.toNat + n) % bar.expect.toNat) }
    let next (ln : Lane) : Pos := advancePos ln.at_ s.cur.len
    (∀ c, ∃ t, exec (.barArr c b) s = .next t ∧ barGet t key = some (after S.length) ∧ ∀ k (h : k < S.length),
      let old := curLane s S[k]
      let new := lane t u S[k]
      new.at_ = next old ∧ (∀ n, (c = .v n → getReg new n.val = (after k).phase)) ∧ (∀ n, (c = .o n → getReg new (128 + n.val) = (after k).phase)) ∧
      curRec new = committed old s.cur.len ∧ new.h0 = old.h0 ∧ new.h1 = old.h1) ∧
    (∀ c, ∃ t, exec (.barWait c b) s = .next t ∧ barGet t key = some bar ∧ ∀ l ∈ S,
      let k : W32 := BitVec.ofNat 32 (opnd s (.int 32) (op (cregSrc c)) l)
      let new := lane t u l
      if 0 < (bar.phase - k).toInt ∧ acqReady s u l = true then new.at_ = next (curLane s l) ∧ new.st = .run
      else new.at_ = (curLane s l).at_ ∧ new.st = .wait (.bar key bar.phase.toNat k false)) ∧
    ((∀ l ∈ S, (curLane s l).syncp = false) → ∃ t, exec (.barSync b) s = .next t ∧ barGet t key = some (after S.length) ∧ ∀ k (h : k < S.length),
      let old := curLane s S[k]
      let new := lane t u S[k]
      if (after (k + 1)).phase = (after k).phase ∨ acqReady s u S[k] = false then
        new.st = .wait (.bar key (after k).phase.toNat (after k).phase true) ∧ new.syncp = true ∧ new.synctok = (after k).phase ∧ new.at_ = old.at_ ∧
          (curRec new).regpc = s.cur.pc
      else new.st = .run ∧ new.syncp = false ∧ new.at_ = next old) ∧
    (∀ c, opnd s (.int 32) (op (cregSrc c)) (leader s) ≠ 0 → ∃ t, exec (.barInit c b) s = .next t ∧
      barGet t key = some { bar with expect := BitVec.ofNat 32 (opnd s (.int 32) (op (cregSrc c)) (leader s)), arrived := 0 } ∧
      ∀ l ∈ S, (lane t u l).at_ = next (curLane s l) ∧ curRec (lane t u l) = committed (curLane s l) s.cur.len)

/-- R162: `syscall`, `hcall` and `brk` commit and trap, restarting at the following word with the operand as TXVAL; `hcall` goes to H. A `brk` that
debug ports claim halts the group instead, with TXPC and TXVAL the same, and the lane goes on at its restart point after RESUME (R362). -/
def Obligations.SystemCalls : Prop :=
  ∀ (s : State) (n : BitVec 16), SetOk s → Tidy s → MayTrap s →
    let u := s.cur.uid
    let calls (i : Instr) (c : Cause) : Prop := ∃ t, exec i s = .next t ∧ ∀ l ∈ s.cur.lanes,
      let old := curLane s l
      let w := nextWord old.at_ s.cur.len
      Trapped (gangOf s u).privsz { passCommits old with recs := setNth old.recs old.depth (committed old s.cur.len) } (lane t u l) c (BitVec.ofNat 64 n.toNat)
        s.cur.pc w.1 w.2
    ((∀ l ∈ s.cur.lanes, (curLane s l).mode ≠ .h) → calls (.syscall n) .syscall) ∧
    ((∀ l ∈ s.cur.lanes, (curLane s l).mode ≠ .u) → calls (.hcall n) .hcall) ∧
    (breakPorts s (ctxOf s u) = [] → calls (.brk n) .brk) ∧
    (breakPorts s (ctxOf s u) ≠ [] → (∃ l, l ∈ s.cur.lanes) → ∃ t, exec (.brk n) s = .next t ∧
      (∀ k, k ∈ (grp t u).halted ↔ k ∈ (grp s u).halted ∨ k ∈ breakPorts s (ctxOf s u)) ∧
      ∀ l ∈ s.cur.lanes, (lane t u l).at_ = advancePos (curLane s l).at_ s.cur.len ∧ curRec (lane t u l) = committed (curLane s l) s.cur.len ∧
        (lane t u l).broke = some (s.cur.pc, n.zeroExtend 64))

/-- R163, R297, R299: `tret`. A lane with RETIRE ends; any other pops its newest frame, and goes to TXPC where REDIR is set, else to the restart
point with what the restored level's record holds. -/
def Obligations.TrapReturn : Prop :=
  ∀ (s : State), SetOk s → Tidy s → NoPendH s s.cur.uid → (grp s s.cur.uid).engFault = none →
    (∀ l ∈ s.cur.lanes, (curLane s l).mode ≠ .u) →
    let u := s.cur.uid
    let p := (gangOf s u).privsz
    let vm := vmidOf s (ctxOf s u)
    let as_ := asidOf s (ctxOf s u)
    let frame (ln : Lane) : Nat := if ln.depth = 4 then p - 64 else p - 64 - 64 * ln.depth
    let f (ln : Lane) (o n : Nat) : Nat := leNat (privBytes ln (frame ln + o) n)
    let pmode (ln : Lane) : Mode := match f ln 21 1 % 4 with
      | 1 => .s
      | 2 => .h
      | _ => .u
    let redir (ln : Lane) : Prop := f ln 22 1 % 2 = 1
    -- FMODE as a write of a value leaves it: reserved bits stay, RM takes only 001 to 110 (R64)
    let written (old x : W32) : W32 :=
      let rm := if x.extractLsb' 0 3 = 0#3 ∨ x.extractLsb' 0 3 = 7#3 then old.extractLsb' 0 3 else x.extractLsb' 0 3
      old.extractLsb' 15 17 ++ x.extractLsb' 4 11 ++ old.extractLsb' 3 1 ++ rm
    (∀ l ∈ s.cur.lanes, (curLane s l).retire = false →
      let ln := curLane s l
      ln.depth ≠ 0 ∧ poisoned ln.privPois (frame ln) 64 = false ∧ modeCode (pmode ln) ≤ modeCode ln.mode ∧
        (redir ln → ∃ e, enterBlock s vm as_ (pmode ln) (BitVec.ofNat 64 (f ln 8 8)) .indirect s.cur.pc = .ok e)) →
    ∃ t, exec .tret s = .next t ∧ ∀ l ∈ s.cur.lanes,
      let old := curLane s l
      let new := lane t u l
      let rec_ := nth {} old.recs new.depth
      new.retire = false ∧
      (old.retire = true → new.st = .exited ∧ new.depth = 0 ∧ new.mode = .u) ∧
      (old.retire = false →
        new.depth = (if old.depth = 4 then min 3 (p / 64 - 1) else old.depth - 1) ∧ new.mode = pmode old ∧
        new.fmode = written old.fmode (BitVec.ofNat 32 (f old 32 4)) ∧ new.synctok = BitVec.ofNat 32 (f old 36 4) ∧ (new.syncp = true ↔ f old 22 1 / 2 % 2 = 1) ∧
        (f old 22 1 / 4 % 4 = 0 → new.rclass = .proof) ∧ (f old 22 1 / 4 % 4 = 1 → new.rclass = .check) ∧ (f old 22 1 / 4 % 4 = 2 → new.rclass = .draft) ∧
        (redir old → new.at_ = .enter (BitVec.ofNat 64 (f old 8 8)) .indirect s.cur.pc ∧ new.q = old.q ∧ new.srcnt = old.srcnt ∧
          new.h0 = BitVec.ofNat 32 (f old 24 4) ∧ new.h1 = BitVec.ofNat 32 (f old 28 4)) ∧
        (¬redir old → new.at_ = restartPos s vm as_ new.mode (BitVec.ofNat 64 (f old 0 8)) (BitVec.ofNat 64 (f old 48 8)) ∧
          new.h0 = rec_.h0 ∧ new.h1 = rec_.h1 ∧ new.srcnt = rec_.srcnt ∧ ∀ k, k < 8 → (nth {} new.q k).pos = nth 0 rec_.pos k))

/-- R164, R165, R291: reading and writing the CSRs. The old value goes to the destination; the instruction commits; what a write changes is its
register alone, and a read-only register keeps its value. -/
def Obligations.ControlRegisters : Prop :=
  ∀ (s : State) (n : Csr) (o : CsrOp) (d : Dst) (a : Src), SetOk s → NoPoison s → Tidy s → NoPendH s s.cur.uid → plainDst d = true →
    plainSrc a = true → (∀ l ∈ s.cur.lanes, minMode (csrC n) ≤ modeCode (curLane s l).mode) →
    let u := s.cur.uid
    let p := (gangOf s u).privsz
    let frame (ln : Lane) : Nat := if ln.depth = 4 then p - 64 else p - 64 - 64 * ln.depth
    let view (ln : Lane) (o n : Nat) : Nat := if ln.depth = 0 then 0 else leNat (privBytes ln (frame ln + o) n)
    let mode (ln : Lane) : BitVec 2 := match ln.mode with
      | .u => 0 | .s => 1 | .h => 2
    let cls (ln : Lane) : BitVec 2 := match ln.rclass with
      | .proof => 0 | .check => 1 | .draft => 2
    let val (ln : Lane) : Nat := match n with
      | .fmode => ln.fmode.toNat
      | .srseed => ln.srseed.toNat
      | .srcnt => ln.srcnt.toNat
      | .regpc => (curRec ln).regpc.toNat
      | .regcnt => (curRec ln).regcnt.toNat
      | .mstat => (BitVec.ofBool ln.retire ++ cls ln ++ BitVec.ofBool ln.syncp ++ BitVec.ofNat 3 ln.depth ++ mode ln).toNat
      | .txpc => (ln.broke.map (fun b => b.1.toNat)).getD (view ln 8 8)
      | .tscratch => ln.tscratch.toNat
      | .tvec => ln.tvec.toNat
      | .tcause => view ln 20 1
      | .txval => (ln.broke.map (fun b => b.2.toNat)).getD (view ln 40 8)
      | .hvec => ln.hvec.toNat
    let words : Nat := match n with
      | .fmode | .regcnt | .mstat | .tcause => 1
      | _ => 2
    let given (ln : Lane) : Lane := match dstReg d with
      | some k => setRegs ln k words (val ln)
      | none => ln
    exec (.csrr d n) s = .next (lanesDo s (fun _ ln => { given ln with at_ := advancePos ln.at_ s.cur.len })) ∧
    ∃ t, exec (.csrw o d n a) s = .next t ∧ ∀ l ∈ s.cur.lanes,
      let old := curLane s l
      let new := lane t u l
      let x := opnd s (.int (32 * words)) (op a) l
      let y : W64 := match o with
        | .write => BitVec.ofNat 64 x
        | .set => BitVec.ofNat 64 (val old) ||| BitVec.ofNat 64 x
        | .clr => BitVec.ofNat 64 (val old) &&& ~~~BitVec.ofNat 64 x
      new.at_ = advancePos old.at_ s.cur.len ∧ (∀ k, dstReg d = some k → getRegs new k words = val old) ∧
      curRec new = { committed old s.cur.len with h0 := new.h0, h1 := new.h1, srcnt := new.srcnt } ∧
      new.mode = old.mode ∧ new.depth = old.depth ∧ new.rclass = old.rclass ∧ new.syncp = old.syncp ∧
      new.fmode = (if n = .fmode then
        let rm := if y.extractLsb' 0 3 = 0#3 ∨ y.extractLsb' 0 3 = 7#3 then old.fmode.extractLsb' 0 3 else y.extractLsb' 0 3
        old.fmode.extractLsb' 15 17 ++ y.extractLsb' 4 11 ++ old.fmode.extractLsb' 3 1 ++ rm else old.fmode) ∧
      new.srseed = (if n = .srseed then y else old.srseed) ∧ new.srcnt = (if n = .srcnt then y else old.srcnt) ∧
      new.retire = (if n = .mstat then y.getLsbD 8 else old.retire) ∧ new.tscratch = (if n = .tscratch then y else old.tscratch) ∧
      new.tvec = (if n = .tvec then y else old.tvec) ∧ new.hvec = (if n = .hvec then y else old.hvec) ∧
      (n ≠ .txpc ∨ old.depth = 0 → new.fifo = old.fifo) ∧
      (n = .txpc → old.depth ≠ 0 → leNat (privBytes new (frame old + 8) 8) = y.toNat ∧ privByte new (frame old + 22) = privByte old (frame old + 22) ||| 1#8)

/-- R166, R167: the special registers. An element below the count is read for every lane; one beyond it is ACCESS with the element as TXVAL;
SVSCR is the one that a write changes. -/
def Obligations.SpecialRegisters : Prop :=
  ∀ (s : State) (r : Sreg) (d : Dst) (a b : Src), SetOk s → NoPoison s → Tidy s → (∃ l, l ∈ s.cur.lanes) → plainDst d = true → plainSrc a = true →
    plainSrc b = true → (∀ l ∈ s.cur.lanes, minMode (sregC r) ≤ modeCode (curLane s l).mode) →
    let u := s.cur.uid
    let L := launchAt s (launchOf s u)
    let core := coreAt s (coreOf s u)
    let i := opnd s (.int 32) (op a) (leader s)
    let j := opnd s (.int 32) (op b) (leader s)
    let count : Nat := match r with
      | .accept => 4 | .sgfault => 2 | .svscr => 16 | .coremap => 6 | _ => 1
    let wide : Bool := match r with
      | .launchid | .sgfault => true
      | _ => false
    let fault := (tGet? (dieAt s (coreOf s u / 48)).sgfault (ctxOf s u)).getD (0, 0)
    let val : Nat := match r with
      | .launchid => L.launchid.toNat
      | .cblen => (grp s u).cblen
      | .galtime => if fld L.img 52 4 = 0 then 2048 else fld L.img 52 4
      | .kclass => (match fld L.img 43 1 with
        | 1 => 1 | 2 => 2 | _ => 0)
      | .accept => (nth 0 s.accept i).toNat
      | .coreclk => s.coreclk.toNat
      | .privsz => (gangOf s u).privsz
      | .sgfault => if i = 0 then fault.1.toNat else fault.2.toNat
      | .svscr => (nth 0 core.svscr i).toNat
      | .asid => (ctxAt s (ctxOf s u)).asid
      | .coremap => (s.coremap.extractLsb' (32 * i) 32).toNat
      | .vmid => (ctxAt s (ctxOf s u)).vmid
    let given (ln : Lane) : Lane := match dstReg d with
      | some k => setRegs ln k (if wide then 2 else 1) val
      | none => ln
    let passed (s : State) : State := modCur s s.cur.lanes (fun _ ln => { ln with at_ := advancePos ln.at_ s.cur.len })
    (i < count → exec (.sread d r a) s = .next (modCur s s.cur.lanes (fun _ ln => { given ln with at_ := advancePos ln.at_ s.cur.len }))) ∧
    (j < count → r ≠ .svscr → exec (.swrite r a b) s = .next (passed s)) ∧
    (j < 16 → r = .svscr → ∃ t, exec (.swrite r a b) s = .next t ∧
      coreAt t (coreOf s u) = { core with svscr := setNth core.svscr j (BitVec.ofNat 32 i) } ∧ t.groups = (passed s).groups) ∧
    (MayTrap s → count ≤ i → TrapsAll s (.sread d r a) .access (fun _ => BitVec.ofNat 64 i)) ∧
    (MayTrap s → count ≤ j → TrapsAll s (.swrite r a b) .access (fun _ => BitVec.ofNat 64 j))

/-- R161, R162, R163, R165, R166, R171, R173, R174, R100: an instruction outside the modes that may run it, and a register below its lowest mode, take PRIV
with the operand as TXVAL and change nothing else. -/
def Obligations.PrivilegeTraps : Prop :=
  ∀ (s : State), SetOk s → Tidy s → MayTrap s → (∃ l, l ∈ s.cur.lanes) →
    let all (m : Mode) : Prop := ∀ l ∈ s.cur.lanes, (curLane s l).mode = m
    let priv (i : Instr) (n : Nat) : Prop := TrapsAll s i .priv (fun _ => BitVec.ofNat 64 n)
    (all .h → ∀ n, priv (.syscall n) n.toNat) ∧
    (all .u → (∀ n, priv (.hcall n) n.toNat) ∧ priv .tret 0 ∧ (∀ d a b, priv (.ebudSet d a b) 1) ∧ (∀ a b, priv (.lmapSet a b) 1 ∧ priv (.lmapClr a b) 0)) ∧
    ((all .s ∨ all .h) → priv .exit 0) ∧
    (all .u → (∀ n ∈ [Csr.mstat, .txpc, .tscratch, .tvec, .tcause, .txval, .hvec],
      ∀ d o a, priv (.csrr d n) (csrC n) ∧ priv (.csrw o d n a) (csrC n)) ∧
      ∀ r ∈ [Sreg.svscr, .asid, .coremap, .vmid], ∀ d a b, priv (.sread d r a) (sregC r) ∧ priv (.swrite r a b) (sregC r)) ∧
    (all .s → (∀ d o a, priv (.csrr d .hvec) (csrC .hvec) ∧ priv (.csrw o d .hvec a) (csrC .hvec)) ∧
      ∀ d a b, priv (.sread d .vmid a) (sregC .vmid) ∧ priv (.swrite .vmid a b) (sregC .vmid)) ∧
    (all .u → ∀ c d, (∀ l ∈ s.cur.lanes, classRank (curLane s l).rclass < classRank c ∧
        classRank (imgKclass (launchAt s (launchOf s s.cur.uid))) < classRank c) → priv (.rclassSet c d) (rclassC c))

/-- R168, R169, R172 to R174: `tick`, `ebud`, `rclass`, `trace` and `halt`. -/
def Obligations.BudgetClassTimeTrace : Prop :=
  ∀ (s : State), SetOk s → NoPoison s → Tidy s → NoPendH s s.cur.uid → (∃ l, l ∈ s.cur.lanes) → (tGet? s.launches (launchOf s s.cur.uid)).isSome = true →
    let u := s.cur.uid
    let k := launchOf s u
    let next (ln : Lane) : Pos := advancePos ln.at_ s.cur.len
    let given (d : Dst) (n x : Nat) (ln : Lane) : Lane := { (match dstReg d with
      | some k => setRegs ln k n x
      | none => ln) with at_ := next ln }
    let budget : Nat := ((launchAt s k).detBudget ++ (launchAt s k).corrBudget).toNat
    let code (c : RClass) : Nat := match c with
      | .proof => 0 | .check => 1 | .draft => 2
    (∀ d, exec (.tick d) s = .next (modCur s s.cur.lanes (fun _ => given d 2 s.gtick.toNat))) ∧
    (∀ d, exec (.ebudGet d) s = .next (modCur s s.cur.lanes (fun _ => given d 2 budget))) ∧
    (∀ d, ∃ t, exec (.rclassGet d) s = .next t ∧ ∀ l ∈ s.cur.lanes, (∀ n, dstReg d = some n → (getReg (lane t u l) n).toNat = code (curLane s l).rclass) ∧
        (lane t u l).at_ = next (curLane s l) ∧ (lane t u l).rclass = (curLane s l).rclass) ∧
    (∀ d a b, plainSrc a = true → plainSrc b = true → (∀ l ∈ s.cur.lanes, (curLane s l).mode ≠ .u) → ∃ t, exec (.ebudSet d a b) s = .next t ∧
      (launchAt t k).corrBudget = BitVec.ofNat 32 (opnd s (.int 32) (op a) (leader s)) ∧
      (launchAt t k).detBudget = BitVec.ofNat 32 (opnd s (.int 32) (op b) (leader s)) ∧
      ∀ l ∈ s.cur.lanes, (∀ n, dstReg d = some n → getRegs (lane t u l) n 2 = budget) ∧ (lane t u l).at_ = next (curLane s l)) ∧
    (∀ c d, (∀ l ∈ s.cur.lanes, (curLane s l).mode ≠ .u ∨ classRank c ≤ classRank (curLane s l).rclass ∨
        classRank c ≤ classRank (imgKclass (launchAt s k))) →
      ∃ t, exec (.rclassSet c d) s = .next t ∧ ∀ l ∈ s.cur.lanes, (lane t u l).rclass = c ∧ (lane t u l).at_ = next (curLane s l) ∧
        (∀ n, dstReg d = some n → (getReg (lane t u l) n).toNat = code (curLane s l).rclass)) ∧
    (∀ (tag : BitVec 16) (a : Src) (j : Nat), plainSrc a = true →
      let c := ctxOf s u
      let port := portAt s c j
      let x := opnd s (.int 64) (op a) (leader s)
      let mask := (s.cur.lanes.map (fun l => 2 ^ l)).sum
      j < 4 → (ctxAt s c).ports.length = 4 → (∀ i, i < 4 → i ≠ j → (portAt s c i).session = false ∨ (portAt s c i).prights.toNat / 8 % 2 = 0) →
      port.session = true → port.prights.toNat / 8 % 2 = 1 → port.lost = 0 → port.trtail - port.trhead < port.trsize →
      ∃ t, exec (.trace tag a) s = .next t ∧ (portAt t c j).trtail = port.trtail + 1 ∧
        rdBytes t (mkey 4 (port.trbase.toNat + 32 * (port.trtail.toNat % port.trsize.toNat))) 32 =
          leBytes 8 s.gtick.toNat ++ [1#8, BitVec.ofNat 8 ((slotOf (grp s u)).getD 0)] ++ leBytes 2 (coreOf s u) ++ leBytes 4 mask ++ leBytes 2 tag.toNat ++
            List.replicate 6 0#8 ++ leBytes 8 x ∧
        ∀ l ∈ s.cur.lanes, (lane t u l).at_ = next (curLane s l)) ∧
    (∀ n : BitVec 16, ∃ t, exec (.halt n) s = .next t ∧ (launchAt t k).halted = true ∧
      ((launchAt s k).halted = false → (launchAt t k).statuses = (launchAt s k).statuses ++ [.halted] ∧ (launchAt t k).code = BitVec.ofNat 32 n.toNat) ∧
      (∀ v, (tGet? s.groups v).isSome = true → (tGet? s.gangs (grp s v).gang).isSome = true → launchOf s v = k → (grp t v).stopped = true) ∧
      (∀ j x, (j, x) ∈ t.tasks → x.launch ≠ k) ∧ ∀ l ∈ s.cur.lanes, (lane t u l).at_ = next (curLane s l))

/-- R170, R171: `icinv` and `lmap` wait for their completion; an `icinv` of no lines is done at once, and one of more than 2^30 is ACCESS. `lmap` counts
on ST, and a change outside one code page of 4 KiB is ALIGN or ACCESS. -/
def Obligations.CodeMaintenance : Prop :=
  ∀ (s : State) (a b : Src), SetOk s → NoPoison s → Tidy s → plainSrc a = true → plainSrc b = true → (∃ l, l ∈ s.cur.lanes) →
    let u := s.cur.uid
    let c := ctxOf s u
    let x := opnd s (.int 64) (op a) (leader s)
    let n := opnd s (.int 32) (op b) (leader s)
    let va : W64 := BitVec.ofNat 64 x
    let waits (t : State) (w : Wait) : Prop := ∀ l ∈ s.cur.lanes, (lane t u l).st = .wait w ∧ (lane t u l).at_ = (curLane s l).at_
    let high : Prop := ∀ l ∈ s.cur.lanes, (curLane s l).mode ≠ .u
    let lmap (v : Bool) : Instr := if v then .lmapSet a b else .lmapClr a b
    (n = 0 → exec (.icinv a b) s = .next (modCur s s.cur.lanes (fun _ ln => { ln with at_ := advancePos ln.at_ s.cur.len }))) ∧
    (n ≠ 0 → n ≤ 2 ^ 30 → ∃ t, exec (.icinv a b) s = .next t ∧ waits t (.icinv s.fresh) ∧ tGet? t.icinvs s.fresh = some ⟨c, u, s.cur.lanes, va, n⟩) ∧
    (MayTrap s → 2 ^ 30 < n → TrapsAll s (.icinv a b) .access (fun _ => BitVec.ofNat 64 n)) ∧
    (high → MayTrap s → ∀ v,
      (x % 8 ≠ 0 → TrapsAll s (lmap v) .align (fun _ => va)) ∧
      (x % 8 = 0 → (n = 0 ∨ 512 < n ∨ 4096 < x % 4096 + 8 * n) → TrapsAll s (lmap v) .access (fun _ => va))) ∧
    (high → ∀ v, x % 8 = 0 → 1 ≤ n → n ≤ 512 → x % 4096 + 8 * n ≤ 4096 →
      (∃ p o pa, reach s (vmidOf s c) (asidOf s c) va .fetch (curLane s (leader s)).mode = .page p o pa ∧ p.kind = .code) →
      ∃ t, exec (lmap v) s = .next t ∧ waits t (.lmap s.fresh) ∧ (grp t u).st = (grp s u).st + 1 ∧
        ∃ m, tGet? t.lmaps s.fresh = some m ∧ m.uid = u ∧ m.lanes = s.cur.lanes ∧ m.val = v)

/-- R121 to R124, R126, R217: `ld` of 1 to 16 bytes from ordinary or code pages. Every piece that a rule of R217 lets be read at once is pending with
its bytes, little-endian; any other is sent to its owner. A 16-byte load is two pieces. -/
def Obligations.LoadIssue : Prop :=
  ∀ (s : State) (sz : Size) (ord : Ord) (d : Dst) (a : Fin 128) (ofs : BitVec 8) (b : Opnd) (pg : Nat → PageAttr) (ow pa : Nat → Nat),
    SetOk s → NoPoison s → (∃ l, l ∈ s.cur.lanes) → s.errors = [] → plainDst d = true → plainSrc b.src = true →
    let u := s.cur.uid
    let os : List (Opnd × OTy) := [(op (.v a), .int 64), (b, .int 32)]
    let va (n l : Nat) : W64 := eaOf n (opnd s (.int 64) (op (.v a)) l) (opnd s (.int 32) b l) ofs
    let fine (n l : Nat) : Prop := Admits s l (va n l) n .read (pg l) (ow l) (pa l) ∧ ((pg l).kind = .ordinary ∨ (pg l).kind = .code) ∧ ClassOk s l (pg l) ∧
      Clean s (pg l) (ow l) (pa l) n
    let sent (t : State) (l o n : Nat) (v : W64) (dest : Target) : Prop := ∃ id r, tGet? t.links id = some (.read r (dieOf (coreOf s u))) ∧ r.kind = .bytes false ∧
      r.uid = u ∧ r.lane = l ∧ r.acc = s.fresh ∧ r.owner = ow l ∧ r.pa = pa l + o ∧ r.va = v ∧ r.size = n ∧ r.sem = ord.sem ∧ r.scope = ord.scope ∧ r.dest = dest ∧ r.peer = none
    (∀ n cnt, (sz, n, cnt) ∈ [(Size.b, 1, 1), (Size.h, 2, 1), (Size.w, 4, 1), (Size.d, 8, 2)] → (∀ l ∈ s.cur.lanes, fine n l) →
      ∃ t, exec (.ld sz ord d a ofs b) s = .next t ∧ (grp t u).ld = (grp s u).ld + 1 ∧ t.mem = s.mem ∧ ∀ l ∈ s.cur.lanes,
        Passed s t l (crosses s os l) ∧ (lane t u l).fifo = (curLane s l).fifo ∧
        match loadAt s u l ord.sem ord.scope none (ow l) (pa l) (va n l) n with
        | .now bs => Pends s t l d cnt (leNat bs)
        | _ => sent t l 0 n (va n l) (dstTarget d cnt)) ∧
    (sz = .q → (∀ l ∈ s.cur.lanes, fine 16 l ∧ Clean s (pg l) (ow l) (pa l + 8) 8) →
      ∃ t, exec (.ld sz ord d a ofs b) s = .next t ∧ (grp t u).ld = (grp s u).ld + 1 ∧ t.mem = s.mem ∧ ∀ l ∈ s.cur.lanes, Passed s t l (crosses s os l) ∧
        ∀ h, h = 0 ∨ h = 1 → match loadAt s u l ord.sem ord.scope none (ow l) (pa l + 8 * h) (va 16 l + BitVec.ofNat 64 (8 * h)) 8 with
          | .now bs => ∃ id p, tGet? (grp t u).pend id = some p ∧ p.acc = some s.fresh ∧
              p.writes = ((loadWrites l d 4 (leNat bs * 2 ^ (64 * h))).drop (2 * h)).take 2
          | _ => sent t l (8 * h) 8 (va 16 l + BitVec.ofNat 64 (8 * h)) (match dstReg d with
              | some _ => { dstTarget d 2 with n := (dstTarget d 2).n + 2 * h }
              | none => {}))

/-- R217: where a load of ordinary bytes reads. Rule 1: the newest of its own entries for these bytes, where that covers them. Rule 2: below the point of
the owner, the newest store of the core's view for them, where that covers them. A load that the newest overlaps only in part is held, which R217 does not say: it
is the model's choice (assumption 17). Rule 3: the owner's memory from the owner's die; a copy that the die holds, if it is
newer than the thread's last acquire at pkg or pod, else the load is sent. Rule 4: such an acquire of another die's memory is sent. -/
def Obligations.LoadRules : Prop :=
  ∀ (s : State) (u l : Nat) (sem : Sem) (sc : Scope) (o pa : Nat) (va : W64) (n : Nat),
    let die := dieOf (coreOf s u)
    let near : Prop := sem = .plain ∨ sc = .core
    let far : Prop := (sem = .acqrel ∨ sem = .sc) ∧ (sc = .pkg ∨ sc = .pod)
    let reads (x : LoadAt) : Prop := loadAt s u l sem sc none o pa va n = x
    let others : List FEntry := (coreAt s (coreOf s u)).view.filter (fun e => !(e.uid == u && e.lane == l) && isStore e && e.peer.isNone && e.owner == o &&
      runsHit (pieces e.pa (max 1 e.size) e.tail) pa n && (e.sem == .plain || e.scope == .core))
    (∀ es e bs, ownEntries s u l none o pa va n = es ++ [e] → e.act = .bytes bs → e.pa ≤ pa → pa + n ≤ e.pa + bs.length → reads (.now ((bs.drop (pa - e.pa)).take n))) ∧
    (∀ es e, ownEntries s u l none o pa va n = es ++ [e] → entryCovers e pa n .bytes = none → reads .wait) ∧
    (ownEntries s u l none o pa va n = [] → serviceOut s u l none o pa va n = true → reads .wait) ∧
    (ownEntries s u l none o pa va n = [] → serviceOut s u l none o pa va n = false → bufferRead s (launchAt s (launchOf s u)) o pa none va n = none →
      (o = 4 → reads .send) ∧
      (∀ es e bs, o ≠ 4 → near → others = es ++ [e] → e.act = .bytes bs → e.pa ≤ pa → pa + n ≤ e.pa + bs.length → reads (.now ((bs.drop (pa - e.pa)).take n))) ∧
      (∀ es e, o ≠ 4 → near → others = es ++ [e] → entryCovers e pa n .bytes = none → reads .wait) ∧
      (o ≠ 4 → (¬near ∨ others = []) →
        (o = die → reads (.now (rdBytes s (mkey o pa) n))) ∧
        (o ≠ die → far → reads .send) ∧
        (o ≠ die → ¬far → ∀ bs : List Byte, bs.length = n → (∀ k, k < n → ∃ st, tGet? (dieAt s die).remote (mkey o pa + k) = some (bs.getD k 0, st) ∧
          ((lane s u l).acqStep < st ∨ (lane s u l).acqStep = 0)) → reads (.now bs)) ∧
        (o ≠ die → (∃ k, k < n ∧ (tGet? (dieAt s die).remote (mkey o pa + k) = none ∨ ∃ x st, tGet? (dieAt s die).remote (mkey o pa + k) = some (x, st) ∧
          st ≤ (lane s u l).acqStep ∧ (lane s u l).acqStep ≠ 0)) → reads .send)))

/-- R121 to R123, R126, R216: `st` of 1 to 16 bytes to ordinary or code pages: one entry of the low bytes of the register at the tail of the thread's
FIFO, two for 16 bytes. The thread reads its own store back at once (R217 rule 1); memory changes only when the entry is performed. -/
def Obligations.StoreIssue : Prop :=
  ∀ (s : State) (sz : Size) (ord : Ord) (x : Src) (a : Fin 128) (ofs : BitVec 8) (b : Opnd) (pg : Nat → PageAttr) (ow pa : Nat → Nat),
    SetOk s → NoPoison s → (∃ l, l ∈ s.cur.lanes) → plainSrc x = true → plainSrc b.src = true →
    let u := s.cur.uid
    let os : List (Opnd × OTy) := [(op x, sizeOTy sz), (op (.v a), .int 64), (b, .int 32)]
    let va (n l : Nat) : W64 := eaOf n (opnd s (.int 64) (op (.v a)) l) (opnd s (.int 32) b l) ofs
    let X (l : Nat) : Nat := opnd s (sizeOTy sz) (op x) l
    let fine (n l : Nat) : Prop := Admits s l (va n l) n .write (pg l) (ow l) (pa l) ∧ ((pg l).kind = .ordinary ∨ (pg l).kind = .code)
    let e (l o n v : Nat) (at_ : W64) : FEntry := entryFor s l (.bytes (leBytes n v)) (pg l) (ow l) (pa l + o) at_ n ord.sem ord.scope {} false
    (∀ n, (sz, n) ∈ [(Size.b, 1), (Size.h, 2), (Size.w, 4), (Size.d, 8)] → (∀ l ∈ s.cur.lanes, fine n l) →
      StoresAll s (.st sz ord x a ofs b) os (fun l => [e l 0 n (X l) (va n l)]) ∧
      ∀ t, exec (.st sz ord x a ofs b) s = .next t → ∀ l ∈ s.cur.lanes, loadAt t u l .plain .core none (ow l) (pa l) (va n l) n = .now (leBytes n (X l))) ∧
    (sz = .q → (∀ l ∈ s.cur.lanes, fine 16 l) →
      StoresAll s (.st sz ord x a ofs b) os (fun l => [e l 0 8 (X l) (va 16 l), e l 8 8 (X l / 2 ^ 64) (va 16 l + 8)]) ∧
      ∀ t, exec (.st sz ord x a ofs b) s = .next t → ∀ l ∈ s.cur.lanes,
        loadAt t u l .plain .core none (ow l) (pa l) (va 16 l) 8 = .now (leBytes 8 (X l)) ∧
        loadAt t u l .plain .core none (ow l) (pa l + 8) (va 16 l + 8) 8 = .now (leBytes 8 (X l / 2 ^ 64)))

/-- R122, R123, R128, R129: where element i of an array at A lies on a page that is not plated and has no block scales: w * i bits on, at the byte that holds its
first bit, its bytes beyond the page lying on the next; a negative i, and a page without a region, are ACCESS. What `ld.e` and `st.e` do with an element so found, where no trap of FMODE is enabled: an integer element is extended and an
f64 element moved as it is; any other float is delivered as f32, a NaN as the canonical one; a store rounds to the format and replaces its bits alone. -/
def Obligations.ElementAccess : Prop :=
  (∀ (s : State) (l A : Nat) (i : Int) (acc : AccKind) (f : Fmt) (r : RegionEnt) (pg : PageAttr) (o pa : Nat),
      let at_ (va : W64) : Reach := reach s (vmidOf s (ctxOf s s.cur.uid)) (asidOf s (ctxOf s s.cur.uid)) va acc (curLane s l).mode
      let a : W64 := BitVec.ofNat 64 A
      let w := fmtWidth f
      let va : W64 := BitVec.ofNat 64 (A + w * i.toNat / 8)
      let n := (w * i.toNat % 8 + w + 7) / 8
      ptrHere s a = true → ptrReserved a = false → (∃ o p, at_ a = .page pg o p) →
      (pg.region = none → findElem s l A i acc = .halt (.trap .access a)) ∧
      (pg.region = some r → fmtOf r.elemfmt r.p8d = some f →
        (i < 0 → ∃ x, findElem s l A i acc = .halt (.trap .access x)) ∧
        (∀ p1 p2 o2 pa2, 0 ≤ i → pg.kind = .ordinary → r.block = 0 → at_ va = .page p1 o pa → at_ (va + BitVec.ofNat 64 (n - 1)) = .page p2 o2 pa2 →
          (∀ p ∈ [p1, p2], p.region = some r ∧ p.kind = .ordinary ∧ p.sto = false ∧ (acc = .read → ClassOk s l p)) →
          watchPorts s (ctxOf s s.cur.uid) va n true true = [] →
          -- pa2 is where the last byte lies
          findElem s l A i acc = .go { reach := .page p1 o pa, va := va, ofs := w * i.toNat % 8, fmt := f,
                                       tail := if pa2 = pa + (n - 1) then none else some (pa2 - (pa % 4096 + (n - 1) - 4096), p2.rclass) }))) ∧
  (∀ (s : State) (ord : Ord) (a : Fin 128) (ofs : BitVec 8) (b : Opnd) (f : Fmt) (e : Nat → ElemAt) (pg : Nat → PageAttr) (ow pa : Nat → Nat),
      SetOk s → NoPoison s → (∃ l, l ∈ s.cur.lanes) → s.errors = [] → plainSrc b.src = true → (∀ l ∈ s.cur.lanes, enables (curLane s l).fmode = 0) →
      let u := s.cur.uid
      let w := fmtWidth f
      let found (acc : AccKind) (l : Nat) : Prop :=
        findElem s l (opnd s (.int 64) (op (.v a)) l) ((opnd s (.int 32) b l : Int) + ofs.toInt) acc = .go (e l) ∧ (e l).reach = .page (pg l) (ow l) (pa l) ∧
        (e l).fmt = f ∧ (e l).plate = none ∧ (e l).scale = none ∧ (e l).block = false
      let n (l : Nat) : Nat := ((e l).ofs + w + 7) / 8
      let cnt : Nat := if w = 64 then 2 else 1
      -- the runs that it lies in: place, EA, length
      let runs (l : Nat) : List (Nat × W64 × Nat × Part) := match (e l).tail with
        | none => [(pa l, (e l).va, n l, .elem (e l).ofs w)]
        | some t => [(pa l, (e l).va, 4096 - pa l % 4096, .bytes), (t.1, (e l).va + BitVec.ofNat 64 (4096 - pa l % 4096), n l - (4096 - pa l % 4096), .bytes)]
      -- each in the class of its page
      let class_ (l j : Nat) : RClass := if j = 0 then (pg l).rclass else ((e l).tail.map (fun t => t.2)).getD (pg l).rclass
      let clean (l : Nat) : Prop := ∀ j r, (runs l)[j]? = some r → poisoned s.poison (mkey (ow l) r.1) r.2.2.1 = false ∧ classMixed s (class_ l j) (ow l) r.1 r.2.2.1 = false
      (∀ (d : Dst) (bs : Nat → List (List Byte)), plainDst d = true → (∀ k, dstReg d = some k → cnt = 2 → k % 2 = 0) →
        (∀ l ∈ s.cur.lanes, found .read l ∧ clean l ∧
          (runs l).map (fun r => loadAt s u l ord.sem ord.scope none (ow l) r.1 r.2.1 r.2.2.1 r.2.2.2) = (bs l).map LoadAt.now) →
        let code (l : Nat) : BitVec w := BitVec.ofNat w (leNat (bs l).flatten / 2 ^ (e l).ofs)
        let val (l : Nat) : Nat :=
          if f = .f64 then (code l).toNat
          else if fmtIsInt f then (if fmtUnsigned f then (code l).toNat else ((code l).signExtend (32 * cnt)).toNat)
          else (rnd ⟨.rne, 0, 0, 0⟩ .f32 false (fmtDecode f (code l).toNat)).1
        ∃ t, exec (.ld .e ord d a ofs b) s = .next t ∧ (grp t u).ld = (grp s u).ld + 1 ∧ t.mem = s.mem ∧
          ∀ l ∈ s.cur.lanes, Pends s t l d cnt (val l) ∧ (lane t u l).at_ = advancePos (curLane s l).at_ s.cur.len ∧ (lane t u l).fifo = (curLane s l).fifo) ∧
      (∀ (x : Src), plainSrc x = true → (∀ k, (x = .v k → cnt = 2 → k.val % 2 = 0)) → (∀ k, (x = .o k → cnt = 2 → k.val % 2 = 0)) →
        (∀ k, (x = .c k → cnt = 2 → k.val % 2 = 0)) → (x = .h1 → cnt = 1) → (∀ l ∈ s.cur.lanes, found .write l) →
        let X (l : Nat) : Nat := opnd s (if f = .f64 then .flt .f64 else if fmtIsInt f then .int (32 * cnt) else .flt .f32) (op x) l
        let v (l : Nat) : FVal := if fmtIsInt f then fvalOfInt (if fmtUnsigned f then (X l : Int) else (BitVec.ofNat (32 * cnt) (X l)).toInt) else fmtDecode .f32 (X l)
        let c (l : Nat) : RCtx := laneRnd (curLane s l) .dyn
        let q (l : Nat) : Nat × RCtx := if f = .f64 then (X l, c l) else rnd (c l) f false (v l)
        ∃ t, exec (.st .e ord x a ofs b) s = .next t ∧ (grp t u).st = (grp s u).st + 1 ∧ t.mem = s.mem ∧
          ∀ l ∈ s.cur.lanes, (lane t u l).at_ = advancePos (curLane s l).at_ s.cur.len ∧ (lane t u l).srcnt = BitVec.ofNat 64 (q l).2.cnt ∧
            Enters s t l [{ entryFor s l (.bits (e l).ofs w (q l).1) (pg l) (ow l) (pa l) (e l).va (n l) ord.sem ord.scope {} false with tail := (e l).tail }]))

/-- R130, R131, R133, R134, R205, R225: loads of scratch, private, accumulator and tag words. A thread whose FIFO holds no entry reads the arrays; the bounds are
those of the gang's allotments and, for the private slice, of the mode. -/
def Obligations.LocalLoads : Prop :=
  ∀ (s : State) (sz : Size) (d : Dst) (a : Fin 128) (ofs : BitVec 8) (b : Opnd), SetOk s → NoPoison s → (∃ l, l ∈ s.cur.lanes) → plainDst d = true →
    plainSrc b.src = true → s.errors = [] → (∀ l ∈ s.cur.lanes, (curLane s l).fifo = []) →
    let u := s.cur.uid
    let g := gangOf s u
    let os : List (Opnd × OTy) := [(op (.v a), .int 32), (b, .int 32)]
    let A (l : Nat) : Nat := opnd s (.int 32) (op (.v a)) l
    let B (l : Nat) : Nat := opnd s (.int 32) b l
    let ea (n l : Nat) : Nat := eaNear n (A l) (B l) ofs
    let col (cnt l : Nat) : Int := (B l : Int) + ofs.toInt * cnt
    let word (l : Nat) : Nat := A l * 256 + ((B l : Int) + ofs.toInt * (sizeRegs sz : Int)).toNat
    (∀ n cnt sem, (sz, n, cnt) ∈ [(Size.b, 1, 1), (Size.h, 2, 1), (Size.w, 4, 1), (Size.d, 8, 2), (Size.q, 16, 4)] →
      ((∀ l ∈ s.cur.lanes, ea n l % n = 0 ∧ ea n l < 2 ^ 21 ∧ ea n l / 4096 < g.tiles ∧ poisoned g.scratchPois (ea n l) n = false ∧
          ∀ k, k < n → flyingByte s (grp s u).gang (ea n l + k) = none) →
        LoadsAll s (.lds sz sem d a ofs b) os d cnt (fun l => leNat (arrBytes g.scratch (ea n l) n))) ∧
      ((∀ l ∈ s.cur.lanes, ea n l % n = 0 ∧ poisoned (curLane s l).privPois (ea n l) n = false ∧
          (match (curLane s l).mode with
          | .u => 256 < g.privsz ∧ ea n l + n ≤ g.privsz - 256
          | .s => 64 ≤ g.privsz ∧ ea n l + n ≤ g.privsz - 64
          | .h => ea n l < g.privsz)) →
        LoadsAll s (.ldp sz d a ofs b) os d cnt (fun l => leNat (arrBytes (curLane s l).priv (ea n l) n)))) ∧
    (∀ cnt, (sz, cnt) ∈ [(Size.w, 1), (Size.d, 2), (Size.q, 4)] →
      (∀ l ∈ s.cur.lanes, 0 ≤ col cnt l ∧ col cnt l % cnt = 0 ∧ col cnt l + cnt ≤ 256 ∧ A l < g.accrows ∧
        ∀ k, k < cnt → word l + k ∉ g.accPois ∧ flyingWord s (grp s u).gang (word l + k) = none) →
      LoadsAll s (.ldacc sz d a ofs b) os d cnt (fun l => ((List.range cnt).map (fun k => (smGet (0 : W32) g.acc (word l + k)).toNat * 2 ^ (32 * k))).sum)) ∧
    ((∀ l ∈ s.cur.lanes, B l < 2 ^ 21 ∧ B l / 4096 < g.tiles) → LoadsAll s (.ldt d b) [(b, .int 32)] d 1 (fun l => (smGet 0 g.tags (B l / 4096)).toNat))

/-- R130, R134, R225: stores to scratch, to the private slice and to a tile's tag enter the thread's FIFO, where the thread reads them back at once. -/
def Obligations.LocalStores : Prop :=
  ∀ (s : State) (sz : Size) (x : Src) (a : Fin 128) (ofs : BitVec 8) (b : Opnd), SetOk s → NoPoison s → (∃ l, l ∈ s.cur.lanes) → plainSrc x = true →
    plainSrc b.src = true →
    let u := s.cur.uid
    let g := gangOf s u
    let os : List (Opnd × OTy) := [(op x, sizeOTy sz), (op (.v a), .int 32), (b, .int 32)]
    let X (l : Nat) : Nat := opnd s (sizeOTy sz) (op x) l
    let B (l : Nat) : Nat := opnd s (.int 32) b l
    let ea (n l : Nat) : Nat := eaNear n (opnd s (.int 32) (op (.v a)) l) (B l) ofs
    let W (l : Nat) : BitVec 32 := BitVec.ofNat 32 (opnd s (.int 32) (op x) l)
    (∀ n sem, (sz, n) ∈ [(Size.b, 1), (Size.h, 2), (Size.w, 4), (Size.d, 8), (Size.q, 16)] →
      ((∀ l ∈ s.cur.lanes, ea n l % n = 0 ∧ ea n l < 2 ^ 21 ∧ ea n l / 4096 < g.tiles) →
        StoresAll s (.sts sz sem x a ofs b) os (fun l => [localFor s l (.scratch (leBytes n (X l))) (ea n l) (ea n l) n sem]) ∧
        ∀ t, exec (.sts sz sem x a ofs b) s = .next t → ∀ l ∈ s.cur.lanes, scratchBytes t u l (ea n l) n = leBytes n (X l)) ∧
      ((∀ l ∈ s.cur.lanes, ea n l % n = 0 ∧
          (match (curLane s l).mode with
          | .u => 256 < g.privsz ∧ ea n l + n ≤ g.privsz - 256
          | .s => 64 ≤ g.privsz ∧ ea n l + n ≤ g.privsz - 64
          | .h => ea n l < g.privsz)) →
        StoresAll s (.stp sz x a ofs b) os (fun l => [localFor s l (.priv (leBytes n (X l))) (ea n l) (ea n l) n .plain]) ∧
        ∀ t, exec (.stp sz x a ofs b) s = .next t → ∀ l ∈ s.cur.lanes, privBytes (lane t u l) (ea n l) n = leBytes n (X l))) ∧
    ((∀ l ∈ s.cur.lanes, B l < 2 ^ 21 ∧ B l / 4096 < g.tiles ∧ (W l).extractLsb' 17 15 = 0 ∧ ((W l).extractLsb' 13 3).toNat < 5 ∧ ((W l).extractLsb' 10 3).toNat < 5) →
      StoresAll s (.ttag x b) [(op x, .int 32), (b, .int 32)] (fun l => [localFor s l (.tag (W l)) (B l / 4096) (B l / 4096) 1 .plain]) ∧
      ∀ t, exec (.ttag x b) s = .next t → ∀ l ∈ s.cur.lanes, tagRead (lane t u l).fifo (gangOf t u).tags (B l / 4096) = W l)

/-- R132, R135: `qdef` and `qget` set and read the parts of a stream; `pf` has no effect that a program sees; `cwb` makes an entry for the line (the model's
choice, assumption 23), counted on ST; `cinv` drops the issuing die's copies of the line. -/
def Obligations.StreamsAndLines : Prop :=
  ∀ (s : State) (q k : Fin 8) (a : Fin 128) (ofs : BitVec 8) (b : Opnd) (d : Dst) (pg : Nat → PageAttr) (ow pa : Nat → Nat), SetOk s → NoPoison s →
    (∃ l, l ∈ s.cur.lanes) → plainSrc b.src = true →
    let u := s.cur.uid
    let os : List (Opnd × OTy) := [(op (.v a), .int 64), (b, .int 32)]
    let P (l : Nat) : W64 := BitVec.ofNat 64 (opnd s (.int 64) (op (.v a)) l)
    let part (x : Stream) (p : W64) : Stream := match k with
      | 0 => { x with base := p, pos := 0 }
      | 6 => { x with esize := p.extractLsb' 0 2, sign := p.getLsbD 2 }
      | 7 => { x with pos := p }
      | _ => { x with dims := setNth x.dims (k.val - 1) ⟨p.extractLsb' 0 32, p.extractLsb' 32 16⟩ }
    let read (x : Stream) : W64 := match k with
      | 0 => x.base
      | 6 => (BitVec.ofBool x.sign ++ x.esize).setWidth 64
      | 7 => x.pos
      | _ => ((nth {} x.dims (k.val - 1)).ext ++ (nth {} x.dims (k.val - 1)).stride).setWidth 64
    let va (l : Nat) : W64 := eaOf 1 (opnd s (.int 64) (op (.v a)) l) (opnd s (.int 32) b l) ofs
    let fine (l : Nat) : Prop := reach s (vmidOf s (ctxOf s u)) (asidOf s (ctxOf s u)) (va l) .read (curLane s l).mode = .page (pg l) (ow l) (pa l) ∧ (pg l).kind = .ordinary
    let die := dieOf (coreOf s u)
    let inLine (key : Nat) : Prop := ∃ l ∈ s.cur.lanes, key / 64 = mkey (ow l) (pa l) / 64
    exec (.qdef q a k) s = .next (lanesDo s (fun l ln => { ln with q := modNth ln.q q.val (fun x => part x (P l)), at_ := advancePos ln.at_ s.cur.len })) ∧
    (plainDst d = true → exec (.qget d q k) s = .next (modCur s s.cur.lanes (fun _ ln => { (match dstReg d with
      | some n => setRegs ln n (if k = 6 then 1 else 2) (read (nth {} ln.q q.val)).toNat
      | none => ln) with at_ := advancePos ln.at_ s.cur.len }))) ∧
    (∃ t, exec (.pf a ofs b) s = .next t ∧ { t with groups := s.groups, fresh := s.fresh } = s ∧
      ∀ l ∈ s.cur.lanes, Passed s t l (crosses s os l) ∧ (lane t u l).fifo = (curLane s l).fifo) ∧
    ((∀ l ∈ s.cur.lanes, fine l) →
      StoresAll s (.cwb a ofs b) os (fun l =>
        [entryFor s l .mark (pg l) (ow l) (pa l / 64 * 64) (BitVec.ofNat 64 ((va l).toNat / 64 * 64)) 64 .plain .core {} false]) ∧
      ∃ t, exec (.cinv a ofs b) s = .next t ∧ t.mem = s.mem ∧ (∀ l ∈ s.cur.lanes, Passed s t l (crosses s os l) ∧ (lane t u l).fifo = (curLane s l).fifo) ∧
        ∀ key, (inLine key → tGet? (dieAt t die).remote key = none) ∧
          (¬inLine key → tGet? (dieAt t die).remote key = tGet? (dieAt s die).remote key))

/-- R50 to R52: an element of a source stream, here for `mov`. Lane l reads the element POS + l, dimension 0 fastest, extended as SIGN says; beyond the total it reads 0;
POS advances by 32. A float operand needs its own element size, else ILLEGAL with TXVAL 2. -/
def Obligations.StreamRead : Prop :=
  ∀ (s : State) (k : Fin 8) (t : ITy) (d : Dst) (pg : Nat → PageAttr) (ow pa : Nat → Nat) (bs : Nat → List Byte), SetOk s → NoPoison s → plainDst d = true →
    s.errors = [] → (∃ l, l ∈ s.cur.lanes) →
    let u := s.cur.uid
    let q (l : Nat) : Stream := nth {} (curLane s l).q k.val
    let n (l : Nat) : Nat := (q l).pos.toNat + l
    let E (l j : Nat) : Nat := (nth {} (q l).dims j).ext.toNat
    let total (l : Nat) : Nat := E l 0 * E l 1 * E l 2 * E l 3 * E l 4
    let c (l j : Nat) : Nat := match j with
      | 0 => n l % E l 0
      | 1 => n l / E l 0 % E l 1
      | 2 => n l / (E l 0 * E l 1) % E l 2
      | 3 => n l / (E l 0 * E l 1 * E l 2) % E l 3
      | _ => n l / (E l 0 * E l 1 * E l 2 * E l 3)
    let va (l : Nat) : W64 := (q l).base + BitVec.ofInt 64 (((List.range 5).map (fun j => (c l j : Int) * (nth {} (q l).dims j).stride.toInt)).sum)
    let size (l : Nat) : Nat := 2 ^ (q l).esize.toNat
    let value (l : Nat) : BitVec (ityW t) := if total l ≤ n l then 0 else
      let x := BitVec.ofNat (8 * size l) (leNat (bs l))
      if (q l).sign then x.signExtend (ityW t) else x.setWidth (ityW t)
    (∀ l ∈ s.cur.lanes, (q l).dims.length = 5 ∧ (curLane s l).q.length = 8 ∧ (curLane s l).qgot = [] ∧ (n l < total l →
      (va l).toNat % size l = 0 ∧ reach s (vmidOf s (ctxOf s u)) (asidOf s (ctxOf s u)) (va l) .read (curLane s l).mode = .page (pg l) (ow l) (pa l) ∧
      (pg l).kind = .ordinary ∧ ClassOk s l (pg l) ∧ Clean s (pg l) (ow l) (pa l) (size l) ∧
      loadAt s u l .plain .core none (ow l) (pa l) (va l) (size l) = .now (bs l))) →
    (∃ e, exec (.mov t d ⟨.q k, .ident⟩) s = .next e ∧ e.mem = s.mem ∧ ∀ l ∈ s.cur.lanes,
      (nth {} (lane e u l).q k.val).pos = (q l).pos + 32 ∧ (∀ m, dstReg d = some m → m + ityRegs t ≤ 136 → getRegs (lane e u l) m (ityRegs t) = (value l).toNat)) ∧
    (∀ (r : Rnd) (b : Opnd), plainSrc b.src = true → Tidy s → MayTrap s → (∀ l ∈ s.cur.lanes, crosses s [(b, .flt .f32)] l = false ∧ (q l).esize ≠ 2#2) →
      TrapsAll s (.fadd .f32 r d ⟨.q k, .ident⟩ b) .illegal (fun _ => 2))

/-- R51, R52, R125: a stream as the destination, here of `mov`. Lane l stores the low bytes of its result at the element POS + l and stores nothing beyond the total; POS
advances by 32 and the last-result file shifts; the commit is made when the store is performed, and at once where there is nothing to store. The record that it will
leave is taken at issue, beside the one before it (the model's choice, assumption 19); zero bytes above a 32-bit result are assumption 18. -/
def Obligations.StreamWrite : Prop :=
  ∀ (s : State) (k : Fin 8) (t : ITy) (a : Opnd) (pg : Nat → PageAttr) (own pa : Nat → Nat), SetOk s → NoPoison s → Tidy s → NoPendH s s.cur.uid →
    plainSrc a.src = true →
    let u := s.cur.uid
    let q (l : Nat) : Stream := nth {} (curLane s l).q k.val
    let at_ (l : Nat) : Option W64 := streamAt (q l) l
    let size (l : Nat) : Nat := 2 ^ (q l).esize.toNat
    let X (l : Nat) : Nat := opnd s (ow t) a l
    (∀ l ∈ s.cur.lanes, ∀ va, at_ l = some va →
      va.toNat % size l = 0 ∧ reach s (vmidOf s (ctxOf s u)) (asidOf s (ctxOf s u)) va .write (curLane s l).mode = .page (pg l) (own l) (pa l) ∧ (pg l).kind = .ordinary) →
    (∃ l ∈ s.cur.lanes, (at_ l).isSome = true) →
    ∃ e, exec (.mov t (.q k) a) s = .next e ∧ (grp e u).st = (grp s u).st + 1 ∧ e.mem = s.mem ∧ ∀ l ∈ s.cur.lanes,
      let old := curLane s l
      let new := lane e u l
      new.at_ = advancePos old.at_ s.cur.len ∧ (nth {} new.q k.val).pos = (q l).pos + 32 ∧
      (ityRegs t = 1 → new.h1 = old.h0 ∧ new.h0 = BitVec.ofNat 32 (X l)) ∧ (ityRegs t = 2 → new.h1 ++ new.h0 = BitVec.ofNat 64 (X l)) ∧
      let after : Region := { committed old s.cur.len with pos := new.q.map (fun q => q.pos), h0 := new.h0, h1 := new.h1 }
      (at_ l = none → new.fifo = old.fifo ∧ curRec new = after ∧ new.commits = (passCommits old).commits) ∧
      (∀ va, at_ l = some va → curRec new = curRec old ∧
        new.commits = old.commits ++ [{ acc := s.fresh, depth := old.depth, region := after, before := curRec (takeCommits old) }] ∧
        Enters s e l [{ entryFor s l (.bytes (leBytes (size l) (X l))) (pg l) (own l) (pa l) va (size l) .plain .core {} true with
          undo := some ⟨old.depth, [(k.val, (q l).pos)], some (old.h0, old.h1)⟩ }])

/-- R121 to R125, R136: an atomic on an ordinary page enters the FIFO with its operand, and `acas` with the value of its destination as the comparand; it counts on LD
where it returns the old value and on ST where it does not. The lane goes on at once, and the record of its commit is taken at issue, to be made when the
atomic is performed (the model's choice, assumption 19); an `acas` without a destination compares with a free value (assumption 8). -/
def Obligations.AtomicIssue : Prop :=
  ∀ (s : State) (wide : Bool) (ord : Ord) (d : Dst) (a : Fin 128) (ofs : BitVec 8) (b : Opnd) (pg : Nat → PageAttr) (ow pa : Nat → Nat), SetOk s → NoPoison s →
    Tidy s → NoPendH s s.cur.uid → (∃ l, l ∈ s.cur.lanes) → plainDst d = true → plainSrc b.src = true →
    let u := s.cur.uid
    let L := launchAt s (launchOf s u)
    let atom (i : Instr) (o : AtomOp) (w : Nat) (ty : OTy) (cmp : Nat → Nat → Prop) : Prop :=
      let va (l : Nat) : W64 := eaOf w (opnd s (.int 64) (op (.v a)) l) 0 ofs
      (∀ l ∈ s.cur.lanes, Admits s l (va l) w .readWrite (pg l) (ow l) (pa l) ∧ (pg l).kind = .ordinary ∧ ClassOk s l (pg l) ∧
        (ow l = 4 → isReplay L = false)) →
      ∃ t, exec i s = .next t ∧ t.mem = s.mem ∧ (d = .none → (grp t u).st = (grp s u).st + 1 ∧ (grp t u).ld = (grp s u).ld) ∧
        (d ≠ .none → (grp t u).ld = (grp s u).ld + 1 ∧ (grp t u).st = (grp s u).st) ∧
        ∀ l ∈ s.cur.lanes, (lane t u l).at_ = advancePos (curLane s l).at_ s.cur.len ∧ (lane t u l).recs = (curLane s l).recs ∧
          (lane t u l).commits = (curLane s l).commits ++ [{ acc := s.fresh, depth := (curLane s l).depth, region := committed (curLane s l) s.cur.len,
                                                             before := curRec (takeCommits (curLane s l)) }] ∧
          ∃ c, cmp l c ∧ Enters s t l [entryFor s l (.atom o w (opnd s ty b l) c) (pg l) (ow l) (pa l) (va l) w ord.sem ord.scope (dstTarget d (w / 4)) true]
    let any (_ _ : Nat) : Prop := True
    let w : Nat := if wide then 8 else 4
    let int : OTy := .int (8 * w)
    atom (.aadd wide ord d a ofs b) .add w int any ∧ atom (.amin wide ord d a ofs b) .min w int any ∧ atom (.amax wide ord d a ofs b) .max w int any ∧
    atom (.aand wide ord d a ofs b) .and w int any ∧ atom (.aor wide ord d a ofs b) .or w int any ∧ atom (.axor wide ord d a ofs b) .xor w int any ∧
    atom (.axchg wide ord d a ofs b) .xchg w int any ∧ atom (.ainc ord d a ofs b) .inc 4 (.int 32) any ∧
    atom (.acas wide ord d a ofs b) .cas w int (fun l c => ∀ e, dstAsSrc d = some e → c = opnd s int (op e) l) ∧
    atom (.afadd wide ord d a ofs b) .fadd w (.flt (if wide then .f64 else .f32)) any ∧ atom (.afmin ord d a ofs b) .fmin 4 (.flt .f32) any ∧
    atom (.afmax ord d a ofs b) .fmax 4 (.flt .f32) any ∧ atom (.afadd2 ord d a ofs b) .fadd2 4 (.pair true) any

/-- R125, R136, R224: what an atomic does when it is performed at its owner: the new value in its bytes and no other byte changed, the old value in its destination,
and the commit of its lane: the record is taken, unless a later one was, and the commits issued before it are past with it (the model's choice, assumption 19). -/
def Obligations.AtomicStep : Prop :=
  ∀ (s : State) (e : FEntry) (o : AtomOp) (n x cmp : Nat), NoSnap s → s.errors = [] → e.act = .atom o (n / 8) x cmp → n = 32 ∨ n = 64 → x < 2 ^ n → cmp < 2 ^ n →
    dataBad s e.cls e.owner e.pa (n / 8) = false → classMixed s e.cls e.owner e.pa (n / 8) = false →
    let k := mkey e.owner e.pa
    let old : BitVec n := BitVec.ofNat n (rdNat s k (n / 8))
    let X : BitVec n := BitVec.ofNat n x
    let t := performEntry s e
    let rounds (f : Fmt) (a b : Nat) : Nat := (rnd ⟨.rne, 0, 0, 0⟩ f false (fvSum false [term (fmtDecode f a), term (fmtDecode f b)])).1
    let puts (y : Nat) : Prop := leNat (rdBytes t k (n / 8)) = y
    (∀ j, j < k ∨ k + n / 8 ≤ j → rdByte t j = rdByte s j) ∧
    ((tGet? s.groups e.uid).isSome = true → e.lane < (grp s e.uid).lanes.length → e.dest.cnt = n / 32 → targetReg e.dest + n / 32 ≤ 136 →
      getRegs (lane t e.uid e.lane) (targetReg e.dest) e.dest.cnt = old.toNat) ∧
    (∀ cs c rest, e.commits = true → (tGet? s.groups e.uid).isSome = true → e.lane < (grp s e.uid).lanes.length → (lane s e.uid e.lane).commits = cs ++ c :: rest →
      c.acc = e.acc → (∀ y ∈ cs ++ rest, y.acc ≠ e.acc) → c.depth < (lane s e.uid e.lane).recs.length →
      let old := lane s e.uid e.lane
      let new := lane t e.uid e.lane
      (c.taken = false → nth {} new.recs c.depth = c.region ∧ new.commits = cs.map (fun y => { y with taken := true }) ++ rest) ∧
      (c.taken = true → new.recs = old.recs ∧ new.commits = cs ++ rest)) ∧
    (o = .add → puts (old + X).toNat) ∧ (o = .min → puts (if old.toInt ≤ X.toInt then old else X).toNat) ∧ (o = .max → puts (if X.toInt ≤ old.toInt then old else X).toNat) ∧
    (o = .and → puts (old &&& X).toNat) ∧ (o = .or → puts (old ||| X).toNat) ∧ (o = .xor → puts (old ^^^ X).toNat) ∧ (o = .xchg → puts x) ∧
    (o = .inc → puts (if X ≤ old then 0 else old + 1).toNat) ∧ (o = .cas → puts (if old.toNat = cmp then X else old).toNat) ∧
    (o = .fadd → n = 32 → puts (rounds .f32 old.toNat x % 2 ^ n)) ∧ (o = .fadd → n = 64 → puts (rounds .f64 old.toNat x % 2 ^ n)) ∧
    (o = .fmin → n = 32 → puts (fvMinMax ⟨.rne, 0, 0, 0⟩ .f32 false false old.toNat x).1) ∧
    (o = .fmax → n = 32 → puts (fvMinMax ⟨.rne, 0, 0, 0⟩ .f32 true false old.toNat x).1) ∧
    (o = .fadd2 → n = 32 → puts ((rounds .bf16 (old.toNat % 2 ^ 16) (x % 2 ^ 16) + 2 ^ 16 * rounds .bf16 (old.toNat / 2 ^ 16) (x / 2 ^ 16)) % 2 ^ n))

/-- R138, R229 to R237: `eld`, `ld`, `enew`, `est` and `erel` on cells of the issuing die. An `eld` of an edition that exists and is not reclaimed has its bytes; of one that
does not exist it parks; of a reclaimed one it is EDITION_GONE. `ld` reads the newest; `enew` its number. `est` carries the commit of its lane, with its record
taken at issue; `enew` and `erel` need no alignment (the model's choices, assumptions 19 and 27). -/
def Obligations.EditionIssue : Prop :=
  ∀ (s : State) (sz : Size) (n cnt : Nat) (ord : Ord) (d : Dst) (a : Fin 128) (ofs : BitVec 8) (b : Opnd) (pg : Nat → PageAttr) (pa : Nat → Nat) (r : Nat → RegionEnt)
    (D : Nat → EdDesc) (i : Nat → Nat), SetOk s → NoPoison s → s.errors = [] → (∃ l, l ∈ s.cur.lanes) → plainDst d = true → plainSrc b.src = true →
    (sz, n, cnt) ∈ [(Size.b, 1, 1), (Size.h, 2, 1), (Size.w, 4, 1), (Size.d, 8, 2)] →
    let u := s.cur.uid
    let die := dieOf (coreOf s u)
    let os : List (Opnd × OTy) := [(op (.v a), .int 64), (b, .int 32)]
    let base (l : Nat) : Nat := opnd s (.int 64) (op (.v a)) l
    let E (l : Nat) : Nat := opnd s (.int 32) b l
    let cell (va : W64) (m : Nat) (acc : AccKind) (l : Nat) : Prop := Admits s l va m acc (pg l) die (pa l) ∧ (pg l).kind = .editioned ∧ (pg l).region = some (r l) ∧
      edDesc s (mkey die (r l).desc) = .ok (D l) ∧ edIndex (D l) va = some (i l) ∧ poisoned s.poison (edCell (D l) die (i l)) 16 = false
    let meta_ (l : Nat) : Nat := mkey die ((D l).meta_ + 16 * i l)
    let slot (l e : Nat) : Nat := mkey die ((D l).store + 8 * (i l * (D l).depth + e % (D l).depth))
    let N (l : Nat) : Nat := rdNat s (meta_ l) 4
    let gone (l : Nat) : Prop := E l ≠ N l ∧ (N l ≥ E l + (D l).depth ∨ (rdNat s (meta_ l + 8) 1 % 2 = 1 ∧ E l ≤ rdNat s (meta_ l + 4) 4))
    let vaD (l : Nat) : W64 := eaOf n (base l) 0 ofs
    let va1 (l : Nat) : W64 := eaOf 1 (base l) 0 ofs
    let vaI (l : Nat) : W64 := eaOf n (base l) (E l) ofs
    let bytes (l e : Nat) (va : W64) : Nat := leNat (rdBytes s (slot l e + va.toNat % 8) n)
    let sound (l e : Nat) (va : W64) : Prop := poisoned s.poison (slot l e + va.toNat % 8) n = false
    (∀ l ∈ s.cur.lanes, (curLane s l).eldAcc = none) → (dieAt s die).waits.length + 32 ≤ 8192 →
    ((∀ l ∈ s.cur.lanes, cell (vaD l) n .read l ∧ ClassOk s l (pg l) ∧ E l ≤ N l ∧ ¬gone l ∧ sound l (E l) (vaD l)) →
      LoadsAll s (.eld sz ord d a ofs b) os d cnt (fun l => bytes l (E l) (vaD l))) ∧
    ((∀ l ∈ s.cur.lanes, cell (vaD l) n .read l ∧ ClassOk s l (pg l) ∧ N l < E l) → s.cur.lanes.length ≤ 32 →
      ∃ t, exec (.eld sz ord d a ofs b) s = .next t ∧ (grp t u).ld = (grp s u).ld + 1 ∧ ∀ l ∈ s.cur.lanes, Waits s t l (.eld (meta_ l) (E l) s.fresh) ∧
        ∃ w ∈ (dieAt t die).waits, w.cell = meta_ l ∧ w.ed = E l ∧ w.uid = u ∧ l ∈ w.lanes) ∧
    (∀ l, s.cur.lanes = [l] → Tidy s → MayTrap s → crosses s os l = false → cell (vaD l) n .read l → ClassOk s l (pg l) → E l ≤ N l → gone l →
      ∃ t, exec (.eld sz ord d a ofs b) s = .next t ∧ (grp t u).ld = (grp s u).ld ∧
        Trapped (gangOf s u).privsz (takeCommits (curLane s l)) (lane t u l) .editionGone (vaD l) s.cur.pc (curRec (takeCommits (curLane s l))).regpc
          (curRec (takeCommits (curLane s l))).reghdr) ∧
    ((∀ l ∈ s.cur.lanes, cell (vaI l) n .read l ∧ ClassOk s l (pg l) ∧ (vaI l).toNat % 8 + n ≤ 8 ∧ sound l (N l) (vaI l)) →
      LoadsAll s (.ld sz ord d a ofs b) os d cnt (fun l => bytes l (N l) (vaI l))) ∧
    ((∀ l ∈ s.cur.lanes, cell (va1 l) 1 .read l) → LoadsAll s (.enew ord d a ofs) [(op (.v a), .int 64)] d 1 (fun l => N l)) ∧
    ((∀ l ∈ s.cur.lanes, cell (vaD l) n .write l) → Tidy s → NoPendH s u →
      ∃ t, exec (.est sz ord d a ofs b) s = .next t ∧ (grp t u).st = (grp s u).st + 1 ∧ t.mem = s.mem ∧ ∀ l ∈ s.cur.lanes,
        (lane t u l).at_ = advancePos (curLane s l).at_ s.cur.len ∧ (lane t u l).recs = (curLane s l).recs ∧
        (lane t u l).commits = (curLane s l).commits ++ [{ acc := s.fresh, depth := (curLane s l).depth, region := committed (curLane s l) s.cur.len,
                                                           before := curRec (takeCommits (curLane s l)) }] ∧
        Enters s t l [entryFor s l (.est (leBytes n (opnd s (sizeOTy sz) b l)) (mkey die (r l).desc)) (pg l) die (pa l) (vaD l) n ord.sem ord.scope (dstTarget d 1) true]) ∧
    ((∀ l ∈ s.cur.lanes, cell (va1 l) 1 .write l) →
      StoresAll s (.erel ord a ofs b) os (fun l =>
        [entryFor s l (.erel (BitVec.ofNat 32 (E l)) (mkey die (r l).desc)) (pg l) die (pa l) (va1 l) 8 ord.sem ord.scope {} false]))

/-- R138, R231, R232, R236: what an `est` and an `erel` do at the owner of their cell. The next edition has the accessed bytes and the newest's others; its number is returned, and
counted in NEWEST; at 2^32 - 1 memory stays and the thread takes EDITION_OVERFLOW with the address as TXVAL, its commit failed. A release mark only rises. -/
def Obligations.EditionStep : Prop :=
  ∀ (s : State) (e : FEntry) (D : EdDesc) (i desc : Nat), NoSnap s → s.errors = [] → edDesc s desc = .ok D → edIndex D e.va = some i →
    let meta_ := mkey e.owner (D.meta_ + 16 * i)
    let slot (n : Nat) : Nat := mkey e.owner (D.store + 8 * (i * D.depth + n % D.depth))
    let N := rdNat s meta_ 4
    poisoned s.poison meta_ 16 = false → poisoned s.poison (slot N) 8 = false →
    let t := performEntry s e
    (∀ bs, e.act = .est bs desc → e.va.toNat % 8 + bs.length ≤ 8 → N < 2 ^ 32 - 1 → overlaps (slot (N + 1)) 8 meta_ 16 = false →
      rdNat t meta_ 4 = N + 1 ∧
      (∀ j, j < 8 → rdByte t (slot (N + 1) + j) = if e.va.toNat % 8 ≤ j ∧ j < e.va.toNat % 8 + bs.length then bs.getD (j - e.va.toNat % 8) 0 else rdByte s (slot N + j)) ∧
      (∀ j, (j < meta_ ∨ meta_ + 4 ≤ j) → (j < slot (N + 1) ∨ slot (N + 1) + 8 ≤ j) → rdByte t j = rdByte s j) ∧
      ((tGet? s.groups e.uid).isSome = true → e.lane < (grp s e.uid).lanes.length → e.dest.cnt = 1 → targetReg e.dest < 136 →
        (getReg (lane t e.uid e.lane) (targetReg e.dest)).toNat = N + 1)) ∧
    (∀ bs, e.act = .est bs desc → N = 2 ^ 32 - 1 → t.mem = s.mem ∧ ((lane s e.uid e.lane).st ≠ .exited → (tGet? s.groups e.uid).isSome = true → e.lane < (grp s e.uid).lanes.length →
      TidyLane (lane s e.uid e.lane) → NoPendH s e.uid → FrameLeft (gangOf s e.uid).privsz (lane s e.uid e.lane) →
      TrappedLate (gangOf s e.uid).privsz e (lane s e.uid e.lane) (lane t e.uid e.lane) .editionOverflow)) ∧
    (∀ m, e.act = .erel m desc →
      let set := rdNat s (meta_ + 8) 1 % 2 = 1
      rdNat t (meta_ + 4) 4 = (if set then max (rdNat s (meta_ + 4) 4) m.toNat else m.toNat) ∧ rdNat t (meta_ + 8) 1 % 2 = 1 ∧
      ∀ j, (j < meta_ + 4 ∨ meta_ + 9 ≤ j) → rdByte t j = rdByte s j)

/-- R139, R242 to R248: the plate instructions on regions of the issuing die: `precast` and `pset` enter the FIFO, `psync` waits for the refits under way or requested, and
`pquery` returns the errata count and the cast count. A plated load takes the erratum of its index, else the plate's value. Where the entries of a list lie, and that
the plate unit holds its length, are the model's choices (assumption 27). -/
def Obligations.PlateIssue : Prop :=
  ∀ (s : State) (d : Dst) (x : Src) (a : Fin 128) (ofs : BitVec 8) (b : Opnd) (pg : Nat → PageAttr) (pa : Nat → Nat) (r : Nat → RegionEnt) (D : Nat → PlDesc),
    SetOk s → NoPoison s → s.errors = [] → (∃ l, l ∈ s.cur.lanes) → plainDst d = true → plainSrc x = true → plainSrc b.src = true →
    let u := s.cur.uid
    let die := dieOf (coreOf s u)
    let va (l : Nat) : W64 := eaOf 1 (opnd s (.int 64) (op (.v a)) l) 0 ofs
    let key (l : Nat) : Nat := mkey die (r l).desc
    let os : List (Opnd × OTy) := [(op (.v a), .int 64)]
    let plate (acc : AccKind) (l : Nat) : Prop := reach s (vmidOf s (ctxOf s u)) (asidOf s (ctxOf s u)) (va l) acc (curLane s l).mode = .page (pg l) die (pa l) ∧
      (pg l).kind = .plated ∧ (pg l).region = some (r l) ∧ plDesc s (key l) = .ok (D l)
    -- the length of a list, and the key of its entry j
    let length (k : Nat) (side : Bool) : Nat := if side then (plateAt s k).len1 else (plateAt s k).len0
    let entry (k : Nat) (P : PlDesc) (j : Nat) : Nat := k / 2 ^ 52 * 2 ^ 52 + (if P.side then P.err1 else P.err0) % 2 ^ 52 + 8 * j
    ((∀ l ∈ s.cur.lanes, plate .write l) →
      StoresAll s (.precast a ofs) os (fun l => [entryFor s l (.precast (key l)) (pg l) die (pa l) (va l) 1 .plain .core {} false])) ∧
    ((∀ l ∈ s.cur.lanes, plate .write l ∧ (D l).mlp = true ∧ opnd s (.int 32) b l < 3328) →
      StoresAll s (.pset x a ofs b) [(op x, .int 32), (op (.v a), .int 64), (b, .int 32)] (fun l =>
        [entryFor s l (.pset (opnd s (.int 32) b l) (BitVec.ofNat 32 (opnd s (.int 32) (op x) l)) (key l)) (pg l) die (pa l) (va l) 1 .plain .core {} false])) ∧
    ((∀ l ∈ s.cur.lanes, plate .read l) →
      ∃ t, exec (.psync a ofs) s = .next t ∧ ∀ l ∈ s.cur.lanes, ∃ id q, Waits s t l (.psync id) ∧ tGet? t.links id = some (.read q die) ∧ q.uid = u ∧ q.lane = l ∧ q.waits = true ∧
        q.kind = .psync (key l) ((plateAt s (key l)).served + (if (plateAt s (key l)).refit = .idle then 0 else 1) + (if (plateAt s (key l)).pend then 1 else 0))) ∧
    ((∀ l ∈ s.cur.lanes, plate .read l) →
      LoadsAll s (.pquery d a ofs) os d 2 (fun l => length (key l) (D l).side + 2 ^ 32 * (D l).castcnt)) ∧
    (∀ k i P, plDesc s k = .ok P → i < P.length →
      (∀ j, j < length k P.side → rdNat s (entry k P j) 3 = i → (∀ m, m < j → rdNat s (entry k P m) 3 ≠ i) → poisoned s.poison (entry k P j) 8 = false →
        plLoad s k i = .val (rdNat s (entry k P j + 4) 4)) ∧
      ((∀ j, j < length k P.side → rdNat s (entry k P j) 3 ≠ i) → poisoned s.poison (mkey (k / 2 ^ 52) P.params) (plBlockSize P) = false → plLoad s k i = .val (evalPlate P (rdBytes s (mkey (k / 2 ^ 52) P.params) (plBlockSize P)) i)))

/-- R140, R219, R221: `fence.rlx` passes at once and any other fence waits, one that acquires alone too (the model's choice, assumption 25); `acqr` on an ordinary page promotes its line in every core that its scope covers, and counts on LD. -/
def Obligations.FencesAndPromotes : Prop :=
  ∀ (s : State) (k : FenceKind) (sc : Scope) (a : Fin 128) (ofs : BitVec 8) (pg : Nat → PageAttr) (ow pa : Nat → Nat), SetOk s → NoPoison s → (∃ l, l ∈ s.cur.lanes) →
    let u := s.cur.uid
    let c := coreOf s u
    let va (l : Nat) : W64 := eaOf 1 (opnd s (.int 64) (op (.v a)) l) 0 ofs
    exec (.fence .rlx sc) s = .next (modCur s s.cur.lanes (fun _ ln => { ln with at_ := advancePos ln.at_ s.cur.len })) ∧
    (k ≠ .rlx → exec (.fence k sc) s = .next (modCur s s.cur.lanes (fun _ ln => { ln with st := .wait (.fence k sc), ilen := s.cur.len }))) ∧
    ((∀ l ∈ s.cur.lanes, reach s (vmidOf s (ctxOf s u)) (asidOf s (ctxOf s u)) (va l) .read (curLane s l).mode = .page (pg l) (ow l) (pa l) ∧ (pg l).kind = .ordinary) →
      ∃ t, exec (.acqr sc a ofs) s = .next t ∧ (grp t u).ld = (grp s u).ld + 1 ∧ t.mem = s.mem ∧ ∀ l ∈ s.cur.lanes,
        Passed s t l false ∧ ∃ id p, tGet? t.promotes id = some p ∧ p.uid = u ∧ p.lane = l ∧ p.acc = s.fresh ∧ p.scope = sc ∧ p.owner = ow l ∧ p.line = pa l / 64 * 64 ∧
          ∀ j, j ∈ p.cores ↔ j < 192 ∧ s.coremap.getLsbD j = true ∧ (match sc with
            | .core => j = c
            | .quad => j / 4 = c / 4
            | .die => j / 48 = c / 48
            | _ => True))

/-- R121, R123, R130, R131, R301: an access that is not aligned takes ALIGN with its address as TXVAL and touches nothing; a pointer with a reserved bit takes ACCESS; where a
lane's page is not there the group is saved instead, and no lane has an effect. -/
def Obligations.AccessFaults : Prop :=
  ∀ (s : State) (sz : Size) (n : Nat) (ord : Ord) (sem : Sem) (d : Dst) (x : Src) (a : Fin 128) (ofs : BitVec 8) (b : Opnd), SetOk s → NoPoison s → Tidy s → MayTrap s →
    (∃ l, l ∈ s.cur.lanes) → plainDst d = true → plainSrc x = true → plainSrc b.src = true → (sz, n) ∈ [(Size.h, 2), (Size.w, 4), (Size.d, 8), (Size.q, 16)] →
    (∀ l ∈ s.cur.lanes, crosses s [(b, .int 32)] l = false) →
    let u := s.cur.uid
    let B (l : Nat) : Nat := opnd s (.int 32) b l
    let va (l : Nat) : W64 := eaOf n (opnd s (.int 64) (op (.v a)) l) (B l) ofs
    let ea (l : Nat) : W64 := BitVec.ofNat 64 (eaNear n (opnd s (.int 32) (op (.v a)) l) (B l) ofs)
    let both (c : Cause) : Prop := TrapsAll s (.ld sz ord d a ofs b) c va ∧ TrapsAll s (.st sz ord x a ofs b) c va
    ((∀ l ∈ s.cur.lanes, (va l).toNat % n ≠ 0) → both .align) ∧
    ((∀ l ∈ s.cur.lanes, (va l).toNat % n = 0 ∧ ptrReserved (va l) = true) → both .access) ∧
    ((∀ l ∈ s.cur.lanes, (ea l).toNat % n ≠ 0) →
      TrapsAll s (.lds sz sem d a ofs b) .align ea ∧ TrapsAll s (.sts sz sem x a ofs b) .align ea ∧ TrapsAll s (.ldp sz d a ofs b) .align ea ∧
      TrapsAll s (.stp sz x a ofs b) .align ea) ∧
    ((∃ l ∈ s.cur.lanes, ∃ ab st lv, (va l).toNat % n = 0 ∧ reach s (vmidOf s (ctxOf s u)) (asidOf s (ctxOf s u)) (va l) .read (curLane s l).mode = .fault ab st lv) →
      (∃ k, (grp s u).place = .resident k) →
      ∃ t, exec (.ld sz ord d a ofs b) s = .next t ∧ (∃ k, (grp t u).place = .saving k .pageFault) ∧ (grp t u).lanes = (grp s u).lanes ∧ t.mem = s.mem ∧
        (grp t u).restart = s.cur.lanes ∧ (grp t u).pend = (grp s u).pend)

/-- R141 to R143, R152, R154, R155, R280: the Feeder, Press, stride-gather and collective commands. The leader's operands and record decide for the set; the command enters its
queue with its record, raises its counters, and every lane commits. A fence waits for the commands that its mask's queues hold, one of an empty mask for none.
R155, R279, R280: the bucket instructions. `bkset` arms a bucket with a total, once the bucket's waiting kick is appended where one waits (the model's choice,
assumption 29); `bkadd` counts in an armed one, up to
2^48 - 1, and where the total is reached the bucket disarms and its registered collective enters the die's queue, or waits for room in it behind those that wait. -/
def Obligations.EngineCommandsAndBuckets : Prop :=
  (∀ (s : State) (a b : Src) (r f : List Byte), SetOk s → NoPoison s → s.errors = [] → Tidy s → NoPendH s s.cur.uid → (∃ l, l ∈ s.cur.lanes) → plainSrc a = true → plainSrc b = true →
      let u := s.cur.uid
      let g := gangOf s u
      let c := coreOf s u
      let L := launchAt s (launchOf s u)
      let x := opnd s (.int 64) (op a) (leader s)
      let y := opnd s (.int 32) (op a) (leader s)
      let z := opnd s (.int 32) (op b) (leader s)
      let at_ := reach s (vmidOf s (ctxOf s u)) (asidOf s (ctxOf s u)) (BitVec.ofNat 64 x) .read (curLane s (leader s)).mode
      -- n bytes r lie at pointer x, on an ordinary page without errors
      -- which the lanes of the set read as a load of each does (R141); where one of them must send, at the owner
      let dev (n : Nat) : Prop := ∃ p o pa, at_ = .page p o pa ∧ p.kind = .ordinary ∧ Clean s p o pa n ∧
        let load (l : Nat) : LoadAt := loadAt s u l .plain .core none o pa (BitVec.ofNat 64 x) n
        (((∃ l ∈ s.cur.lanes, load l = .send) ∧ rdBytes s (mkey o pa) n = r) ∨ ((∀ l ∈ s.cur.lanes, load l ≠ .send) ∧ load (leader s) = .now r))
      -- the record m lies at scratch address e
      let sp (e : Nat) (m : List Byte) : Prop := e % 64 = 0 ∧ e < 2 ^ 21 ∧ e / 4096 < g.tiles ∧ poisoned g.scratchPois e 64 = false ∧ arrBytes g.scratch e 64 = m ∧
        ∀ k, k < 64 → flyingByte s (grp s u).gang (e + k) = none
      let by_ : Issuer := ⟨u, (grp s u).gang, c, launchOf s u, vmidOf s (ctxOf s u), asidOf s (ctxOf s u), (curLane s (leader s)).mode, leader s, (slotOf (grp s u)).getD 0⟩
      let commits (t : State) : Prop := ∀ l ∈ s.cur.lanes, (lane t u l).at_ = advancePos (curLane s l).at_ s.cur.len ∧ curRec (lane t u l) = committed (curLane s l) s.cur.len
      let queued (i : Instr) (q cp tl : Nat) (cmd : Cmd) : Prop := ∃ t, exec i s = .next t ∧ commits t ∧ tGet? t.cmds s.fresh = some cmd ∧
        nth [] (coreAt t c).queues q = nth [] (coreAt s c).queues q ++ [s.fresh] ∧ (grp t u).cp = (grp s u).cp + cp ∧ (grp t u).tl = (grp s u).tl + tl ∧ t.mem = s.mem
      let follows : Prop := fld r 2 1 / 4 % 2 = 1
      let copy (w : List Byte) (src : Nat) (fo : Bool) : Cmd := { kind := .copy r w, by_ := by_, srcAt := BitVec.ofNat 64 src, cp := true, tl := fo, cycle := s.cycle }
      let bars (bar : BarId) (arr : Bool) : Prop := arr = true → (barGet s (barKey s u bar)).isSome = true
      (coreAt s c).queues.length = 6 →
      (∀ q : Fin 4, (dev 64 ∧ x % 64 = 0 → (¬follows → queued (.fcopy q false a) q.val 1 0 (copy [] x false)) ∧
          (follows → sp (fld r 60 4) f → queued (.fcopy q false a) q.val 1 1 (copy f x true))) ∧
        (sp y r → (¬follows → queued (.fcopy q true a) q.val 1 0 (copy [] y false)) ∧ (follows → sp (fld r 60 4) f → queued (.fcopy q true a) q.val 1 1 (copy f y true)))) ∧
      (sp y r → queued (.pcmd a) 4 0 1 { kind := .compute r 0 0, by_ := by_, srcAt := BitVec.ofNat 64 y, tl := true, cycle := s.cycle }) ∧
      (∀ (n : Fin 2) (bar : BarId) (arr : Bool), y % 4096 = 0 → n.val < g.banks.length → y / 4096 + (if z / 2 ^ 10 % 8 = 0 then 16 else 17) ≤ g.tiles → bars bar arr →
        queued (.pbank n a b bar arr) 5 0 1
          { kind := .bank n.val y (BitVec.ofNat 32 z) bar arr, by_ := by_, srcAt := BitVec.ofNat 64 y, tl := true, cycle := s.cycle }) ∧
      (∀ (bar : BarId) (arr : Bool), 1 ≤ z → z ≤ 512 → y + z ≤ g.accrows → bars bar arr →
        queued (.pclr a b bar arr) 4 0 1 { kind := .clear y z bar arr, by_ := by_, srcAt := BitVec.ofNat 64 y, tl := true, cycle := s.cycle }) ∧
      (∀ q : Fin 6, ∃ t, exec (.qfence q 0) s = .next t ∧ commits t ∧ t.cmds = s.cmds ∧ t.cores = s.cores ∧ t.mem = s.mem) ∧
      (∀ (q : Fin 6) (mask : BitVec 6), mask ≠ 0 → ∃ w, queued (.qfence q mask) q.val 0 0 { kind := .fence w, by_ := by_, srcAt := 0, cycle := s.cycle } ∧
        ∀ k, k ∈ w ↔ ∃ j, j < 6 ∧ mask.getLsbD j = true ∧ k ∈ nth [] (coreAt s c).queues j) ∧
      (∀ e : Fin 64, e.val ∈ L.patterns → x % 4096 ≤ 4064 → dev 32 → ∃ t, exec (.sgset e a) s = .next t ∧ commits t ∧ (grp t u).cp = (grp s u).cp + 1 ∧
        tGet? t.cmds s.fresh = some { kind := .sgset e.val r, by_ := by_, srcAt := BitVec.ofNat 64 x, cp := true, cycle := s.cycle }) ∧
      (∀ k : BitVec 8, k.toNat ∈ L.buckets → x % 64 = 0 → dev 64 → ∃ t, exec (.coll k a) s = .next t ∧ commits t ∧
        smGet {} (dieAt t (c / 48)).buckets k.toNat = { smGet {} (dieAt s (c / 48)).buckets k.toNat with reg := some (r, by_, BitVec.ofNat 64 x) }) ∧
      (x % 64 = 0 → dev 64 → ∃ t, exec (.collNow a) s = .next t ∧ commits t ∧ (grp t u).cp = (grp s u).cp + 1 ∧ (dieAt t (c / 48)).collQ = (dieAt s (c / 48)).collQ ++ [s.fresh] ∧
        tGet? t.cmds s.fresh = some { kind := .coll r, by_ := by_, srcAt := BitVec.ofNat 64 x, cp := true, cycle := s.cycle })) ∧
  (∀ (s : State) (a : Src) (k : BitVec 8), SetOk s → NoPoison s → Tidy s → NoPendH s s.cur.uid → (∃ l, l ∈ s.cur.lanes) → plainSrc a = true →
      let u := s.cur.uid
      let die := coreOf s u / 48
      let L := launchAt s (launchOf s u)
      let B := smGet {} (dieAt s die).buckets k.toNat
      let x := opnd s (.int 64) (op a) (leader s)
      let c := min (2 ^ 48 - 1) (B.count.toNat + opnd s (.int 32) (op a) (leader s))
      let commits (t : State) : Prop := ∀ l ∈ s.cur.lanes, (lane t u l).at_ = advancePos (curLane s l).at_ s.cur.len ∧ curRec (lane t u l) = committed (curLane s l) s.cur.len
      let W := (dieAt s die).kicks
      let becomes (i : Instr) (C : Bucket) (q : List Nat) (w : List Kick) : Prop := ∃ t, exec i s = .next t ∧ commits t ∧
        smGet {} (dieAt t die).buckets k.toNat = C ∧ (dieAt t die).collQ = q ∧ (dieAt t die).kicks = w
      let Q := (dieAt s die).collQ
      let kicked : Bool := W.any (fun x => x.bucket == k.toNat)
      k.toNat ∈ L.buckets →
      (1 ≤ x → x < 2 ^ 48 → becomes (.bkset k a) { B with total := BitVec.ofNat 48 x, count := 0, armed := !kicked, rearm := kicked } Q W) ∧
      (B.armed = false → becomes (.bkadd k a) B Q W) ∧
      (B.armed = true → c < B.total.toNat → becomes (.bkadd k a) { B with count := BitVec.ofNat 48 c } Q W) ∧
      (B.armed = true → B.total.toNat ≤ c → B.reg = none → becomes (.bkadd k a) { B with count := BitVec.ofNat 48 c, armed := false } Q W) ∧
      (∀ r i at_, B.armed = true → B.total.toNat ≤ c → B.reg = some (r, i, at_) →
        (Q.length < 64 → W = [] → dieOf i.core = die → becomes (.bkadd k a) { B with count := BitVec.ofNat 48 c, armed := false } (Q ++ [s.fresh]) []) ∧
        (64 ≤ Q.length ∨ W ≠ [] → becomes (.bkadd k a) { B with count := BitVec.ofNat 48 c, armed := false } Q (W ++ [⟨k.toNat, r, i, at_⟩]))))

/-- R156 to R158, R277: tape, task, launch and slug instructions of a launch that buffers nothing. A counter of a task is a word of 32 bits (the model's choice,
assumption 47). -/
def Obligations.TapesTasksSlugs : Prop :=
  ∀ (s : State) (a b : Src) (r : List Byte), SetOk s → NoPoison s → s.errors = [] → Tidy s → NoPendH s s.cur.uid → (∃ l, l ∈ s.cur.lanes) →
    plainSrc a = true → plainSrc b = true →
    let u := s.cur.uid
    let k := launchOf s u
    let cx := ctxOf s u
    let X := ctxAt s cx
    isReplay (launchAt s k) = false →
    let x := opnd s (.int 64) (op a) (leader s)
    let at_ (acc : AccKind) (p : Nat) : Reach := reach s (vmidOf s cx) (asidOf s cx) (BitVec.ofNat 64 p) acc (curLane s (leader s)).mode
    let dev (p : Nat) (m : List Byte) : Prop := p % 64 = 0 ∧ ∃ g o pa, at_ .read p = .page g o pa ∧ g.kind = .ordinary ∧ Clean s g o pa 64 ∧
      let load (l : Nat) : LoadAt := loadAt s u l .plain .core none o pa (BitVec.ofNat 64 p) 64
      (((∃ l ∈ s.cur.lanes, load l = .send) ∧ rdBytes s (mkey o pa) 64 = m) ∨ ((∀ l ∈ s.cur.lanes, load l ≠ .send) ∧ load (leader s) = .now m))
    let commits (t : State) : Prop := ∀ l ∈ s.cur.lanes, (lane t u l).at_ = advancePos (curLane s l).at_ s.cur.len ∧ curRec (lane t u l) = committed (curLane s l) s.cur.len
    let tapes (i : Instr) (T : List TapeEnt) (us : List Unwind) : Prop := ∃ t, exec i s = .next t ∧ commits t ∧ ctxAt t cx = { X with tape := T, unwinds := X.unwinds ++ us }
    let room : Prop := X.tape.length < X.tapecap.toNat
    (dev x r → (fld r 22 1 = 1 ∨ fld r 22 1 = 2) → room → tapes (.tapePush a) (.entry r :: X.tape) []) ∧
    (room → tapes .tapeMark (.mark :: X.tape) []) ∧
    -- the records above the newest mark wait for the launch to complete, newest first, in the order of the unwinds of the context
    (∀ (rs : List (List Byte)) (T : List TapeEnt), X.tape = rs.map TapeEnt.entry ++ TapeEnt.mark :: T →
      tapes .tapeUnwind T (if rs = [] then [] else [⟨rs, k, (launchAt s k).prio, false⟩])) ∧
    (∀ p : Fin 8, dev x r → fld r 22 1 = 1 → X.rings.length = 8 → ∃ t, exec (.launch p a) s = .next t ∧ commits t ∧
      (nth {} (ctxAt t cx).rings p.val).dev = (nth {} X.rings p.val).dev ++ [r]) ∧
    (∀ n, opnd s (.int 32) (op b) (leader s) = n → 1 ≤ n → n ≤ 64 → ∀ R : Nat → List Byte, (∀ j, j < n → dev (x + 64 * j) (R j) ∧ fld (R j) 22 1 = 0 ∧ fld (R j) 32 8 = 0) →
      ∃ t, exec (.taskPost a b) s = .next t ∧ commits t ∧ ∀ j, j < n →
        tGet? t.tasks (s.fresh + j) = some { record := R j, launch := k, gang := (grp s u).gang, die := coreOf s u / 48, ready := true, gate := none, held := false }) ∧
    (∀ g o pa, opnd s (.int 32) (op b) (leader s) = 1 → dev x r → fld r 22 1 = 0 → fld r 32 8 ≠ 0 → at_ .read (fld r 32 8) = .page g o pa → o ≤ 4 → g.kind = .ordinary → Clean s g o pa 4 →
      ∃ t, exec (.taskPost a b) s = .next t ∧ tGet? t.tasks s.fresh = some
        { record := r, launch := k, gang := (grp s u).gang, die := coreOf s u / 48, ready := decide (rdNat s (mkey o pa) 4 = 0), gate := some (o, pa),
          held := decide (rdNat s (mkey o pa) 4 ≠ 0) }) ∧
    (∀ (p : W64) g o pa, (grp s u).start = .task p → p ≠ 0 → at_ .readWrite p.toNat = .page g o pa → o ≤ 4 → g.kind = .ordinary → Clean s g o pa 4 → NoSnap s →
      ∃ t, exec .taskDone s = .next t ∧ commits t ∧ rdNat t (mkey o pa) 4 = rdNat s (mkey o pa) 4 - 1 ∧
        (∀ j, j < mkey o pa ∨ mkey o pa + 4 ≤ j → rdByte t j = rdByte s j) ∧
        (rdNat s (mkey o pa) 4 = 1 → ∀ j w, tGet? s.tasks j = some w → w.gate = some (o, pa) → tGet? t.tasks j = some { w with ready := true })) ∧
    ((grp s u).start = .task 0 → ∃ t, exec .taskDone s = .next t ∧ commits t ∧ t.mem = s.mem ∧ t.tasks = s.tasks) ∧
    -- slugs, where every lane names one entry
    (∀ e : W64, (∀ l ∈ s.cur.lanes, BitVec.ofNat 64 (opnd s (.int 64) (op a) l) = e) →
      let core := coreOf s u
      let args : List Slug := s.cur.lanes.map (fun l => ⟨e, BitVec.ofNat 64 (opnd s (.int 64) (op b) l)⟩)
      let held := (coreAt s core).galleys.length
      s.cur.lanes.length ≤ 32 →
      (∀ id G, (coreAt s core).galleys.find? (fun g => g.2.entry == e && !g.2.locked && (launchAt s g.2.launch).ctx == cx) = some (id, G) →
        tGet? (coreAt s core).galleys id = some G → G.slugs.length + args.length ≤ 32 →
        ∃ t, exec (.spawn a b) s = .next t ∧ commits t ∧
          tGet? (coreAt t core).galleys id = some { G with slugs := G.slugs ++ args, locked := decide (32 ≤ G.slugs.length + args.length) }) ∧
      ((∀ g ∈ (coreAt s core).galleys, g.2.entry = e → g.2.locked = true ∨ (launchAt s g.2.launch).ctx ≠ cx) → held < 32 →
        (∀ g ∈ (coreAt s core).galleys, g.1 < s.fresh) →
        ∃ t id, exec (.spawn a b) s = .next t ∧ commits t ∧ tGet? (coreAt t core).galleys id = some
          { entry := e, launch := k, gang := (grp s u).gang, slugs := args,
            expires := s.gtick.toNat + (if fld (launchAt s k).img 52 4 = 0 then 2048 else fld (launchAt s k).img 52 4), locked := decide (32 ≤ args.length) }) ∧
      ((∀ g ∈ (coreAt s core).galleys, g.2.entry = e → g.2.locked = true ∨ (launchAt s g.2.launch).ctx ≠ cx) → 32 ≤ held →
        ∃ t, exec (.spawn a b) s = .next t ∧ ∀ l ∈ s.cur.lanes, Waits s t l (.spawn e (BitVec.ofNat 64 (opnd s (.int 64) (op b) l)))))

/-- R35, R39, R101, R109, R194: the steps of a core's fetch and scoreboard. A fill takes the word that a thread needs, or marks it where a page that it lies on is not present,
not executable or poisoned; a prefetched line gives the word where it holds all of it; a pipe grants, once in a cycle, the refill that comes first after the last one granted (both the
model's choices, assumption 26); a prefetched line is kept or dropped; a pending result is written; a sleeping thread goes on when its time has come. -/
def Obligations.CoreSteps : Prop :=
  ∀ (s : State) (core : Nat), s.errors = [] →
    let does (i : Instr) (P : State → Prop) : Prop := ∃ t, exec i s = .next t ∧ t.mem = s.mem ∧ P t
    (∀ va u l, wanting s core (BitVec.ofNat 64 va) = some (u, l) →
      let pc := BitVec.ofNat 64 va
      let line := lineBytes (coreAt s core) pc
      let m := (lane s u l).mode
      let c := ctxOf s u
      let marks (w : IWord) : Prop := does (.fill core va) (fun t => wordAt (coreAt t core) pc = some w)
      let code (a : W64) : Reach := codeReach (reach s (vmidOf s c) (asidOf s c) a .fetch m)
      -- the mark of a page that starts k bytes on, where it is not read
      let missing (k : Nat) (r : Reach) : Prop := match r with
        | .fault ab st lv => marks { va := pc, bytes := [], st := .faulted, miss := k, where_ := lv + (if st = 2 then 4 else 0) + (if ab then 8 else 0) }
        | .access => marks { va := pc, bytes := [], st := .access, miss := k, mode := m }
        | .poison => marks { va := pc, bytes := [], st := .poisoned, miss := k }
        | _ => True
      match code pc with
      | .page g o pa =>
        let holds (bs : List Byte) : Prop := does (.fill core va) (fun t => t.groups = s.groups ∧
          ((∃ i, decodeExact bs = .ok i) → wordAt (coreAt t core) pc = some { va := pc, bytes := bs, st := .valid }) ∧
          ((∃ r, decodeExact bs = .reject r) → wordAt (coreAt t core) pc = some { va := pc, bytes := bs, st := .illegal }))
        let n := lenOf (rdByte s (mkey o pa))
        -- what is left of the page
        let k := 4096 - pc.toNat % 4096
        (∀ b ls, line 1 = some [b] → line (lenOf b) = some ls → holds ls) ∧
        ((line 1 = none ∨ ∃ b, line 1 = some [b] ∧ line (lenOf b) = none) →
          (n ≤ k → classMixed s g.rclass o pa n = false →
            if poisoned s.poison (mkey o pa) n then marks { va := pc, bytes := [], st := .poisoned } else holds (rdBytes s (mkey o pa) n)) ∧
          (k < n → classMixed s g.rclass o pa k = false → match code (pc + BitVec.ofNat 64 k) with
            | .page g2 o2 pa2 => classMixed s g2.rclass o2 pa2 (n - k) = false →
              if poisoned s.poison (mkey o pa) k then marks { va := pc, bytes := [], st := .poisoned }
              else if poisoned s.poison (mkey o2 pa2) (n - k) then marks { va := pc, bytes := [], st := .poisoned, miss := k }
              else holds (rdBytes s (mkey o pa) k ++ rdBytes s (mkey o2 pa2) (n - k))
            | r => missing k r))
      | r => missing 0 r) ∧
    (∀ pipe, pipe < 4 → nth false (coreAt s core).refilled pipe = true → exec (.loopBufferRefill core pipe) s = .next s) ∧
    (∀ pipe, pipe < 4 → (coreAt s core).refill.length = 4 → (coreAt s core).refilled.length = 4 → nth false (coreAt s core).refilled pipe = false →
      refillsDue s core pipe ≠ [] →
      let after (k : Nat) : Nat := (k + 1024 - nth 0 (coreAt s core).refill pipe - 1) % 1024
      ∃ k pc, (k, pc) ∈ refillsDue s core pipe ∧ (∀ d ∈ refillsDue s core pipe, after k ≤ after d.1) ∧
        does (.loopBufferRefill core pipe) (fun t => nth 0 (coreAt t core).refill pipe = k ∧ t.groups = s.groups ∧
          nth false (coreAt t core).refilled pipe = true ∧ ∃ b, tGet? (coreAt t core).loopBuf k = some b ∧ b.words.getLast? = wordAt (coreAt s core) pc)) ∧
    (∀ va, BitVec.ofNat 64 va ∈ (coreAt s core).wanted →
      let a := BitVec.ofNat 64 va
      let c := (coreAt s core).ctx.getD 0
      let gone (t : State) : Prop := a ∉ (coreAt t core).wanted ∧ t.groups = s.groups
      let drops : Prop := does (.codePrefetch core va) (fun t => gone t ∧ (coreAt t core).lines = (coreAt s core).lines)
      match codeReach (reach s (vmidOf s c) (asidOf s c) a .fetch .s) with
      | .page g o pa =>
        classMixed s g.rclass o pa 64 = false →
        if poisoned s.poison (mkey o pa) 64 then drops
        else does (.codePrefetch core va) (fun t => gone t ∧ (coreAt t core).lines.getLast? = some (a, rdBytes s (mkey o pa) 64))
      | .peer _ => True
      | _ => drops) ∧
    (∀ uid id p, tGet? (grp s uid).pend id = some p → p.writes.Pairwise (fun a b => a.lane ≠ b.lane ∨ a.reg ≠ b.reg) →
      (∀ w ∈ p.writes, w.reg < 138 ∧ w.lane < (grp s uid).lanes.length) →
      does (.resultWriteback uid id) (fun t => tGet? (grp t uid).pend id = none ∧
        (∀ w ∈ p.writes, getReg (lane t uid w.lane) w.reg = w.val) ∧
        (∀ l n, n < 138 → (∀ w ∈ p.writes, w.lane ≠ l ∨ w.reg ≠ n) → getReg (lane t uid l) n = getReg (lane s uid l) n) ∧
        (∀ a k, p.acc = some a → tGet? (grp s uid).accs a = some ⟨.ld, k⟩ → (grp t uid).ld = if k ≤ 1 then (grp s uid).ld - 1 else (grp s uid).ld))) ∧
    (∀ uid l n, (lane s uid l).st = .wait (.sleep n) →
      (n ≤ s.gtick.toNat → does (.sleepEnd uid l) (fun t => (lane t uid l).st = .run ∧ (lane t uid l).v = (lane s uid l).v ∧
        (lane t uid l).at_ = advancePos (lane s uid l).at_ (lane s uid l).ilen)) ∧
      (s.gtick.toNat < n → exec (.sleepEnd uid l) s = .next s))

/-- R214, R216, R221, R222, R225: the moves of the ordering machine. Leave takes the oldest entry of a thread into the core view, or performs it on a local array; drain takes
the oldest entry of a thread in the view to the owner of its own die, or makes it the last transfer of the link queue with its copies; deliver performs it at the owner, and brings
another package's arrivals at pod barriers; refresh and drop change a die's copies of a cell with no undelivered store, refresh on plain pages alone; a promote takes a core off its list. That another package's
arrivals come with a deliver, and which pages refresh copies, are the model's choices (assumptions 28 and 17). -/
def Obligations.OrderMoves : Prop :=
  ∀ (s : State) (uid l : Nat),
    let does (i : Instr) (P : State → Prop) : Prop := ∃ t, exec i s = .next t ∧ P t
    let core := coreOf s uid
    let die := dieOf core
    (∀ e es, (lane s uid l).fifo = e :: es → e.uid = uid → e.lane = l → mayLeave s uid l = true →
      (isLocal e = false → does (.leave uid l) (fun t => (lane t uid l).fifo = es ∧ (coreAt t core).view = (coreAt s core).view ++ [e] ∧ t.mem = s.mem)) ∧
      (∀ bs, e.act = .priv bs → does (.leave uid l) (fun t => (lane t uid l).fifo = es ∧ arrBytes (lane t uid l).priv e.pa bs.length = bs ∧ t.cores = s.cores ∧ t.mem = s.mem)) ∧
      ((tGet? s.gangs (grp s uid).gang).isSome = true →
        (∀ bs, e.act = .scratch bs → does (.leave uid l) (fun t => (lane t uid l).fifo = es ∧ arrBytes (gangOf t uid).scratch e.pa bs.length = bs ∧ t.mem = s.mem)) ∧
        (∀ w, e.act = .tag w → does (.leave uid l) (fun t => (lane t uid l).fifo = es ∧ smGet 0 (gangOf t uid).tags e.pa = w ∧ t.mem = s.mem)))) ∧
    (∀ e es, inView s uid l = e :: es → mayDrain s uid l = true → s.netStopped = false → ∀ bs, e.act = .bytes bs → e.peer = none → e.tail = none →
      (e.owner = die → does (.drainMove uid l) (fun t => e ∉ (coreAt t core).view ∧ rdBytes t (mkey e.owner e.pa) bs.length = bs)) ∧
      (e.owner ≠ die → isReplay (launchAt s e.launch) = false → does (.drainMove uid l) (fun t => e ∉ (coreAt t core).view ∧ t.mem = s.mem ∧
        tGet? t.links s.fresh = some (.entry e die) ∧
        (e.owner < 4 → ∀ i, i < bs.length → (tGet? (dieAt t die).remote (mkey e.owner e.pa + i)).map (fun p => p.1) = bs[i]?)))) ∧
    (∀ id e d bs answer, tGet? s.links id = some (.entry e d) → mayDeliver s id = true → e.act = .bytes bs → e.peer = none →
      does (.deliver id { bytes := answer }) (fun t => tGet? t.links id = none ∧ rdBytes t (mkey e.owner e.pa) bs.length = bs)) ∧
    (∀ id r d x answer, tGet? s.links id = some (.read r d) → mayDeliver s id = true → r.kind = .bytes x → r.peer = none → r.waits = false → r.tail = none →
      r.lane < (grp s r.uid).lanes.length → targetReg r.dest + r.dest.cnt ≤ 138 →
      s.errors = [] → dataBad s r.cls r.owner r.pa r.size = false → classMixed s r.cls r.owner r.pa r.size = false →
      does (.deliver id { bytes := answer }) (fun t => tGet? t.links id = none ∧ t.mem = s.mem ∧
        getRegs (lane t r.uid r.lane) (targetReg r.dest) r.dest.cnt = leNat (rdBytes s (mkey r.owner r.pa) r.size) % 2 ^ (32 * r.dest.cnt))) ∧
    -- a cell of n bytes at key k, or a line
    (∀ d k n, n ∈ [1, 2, 4, 8, 16, 32, 64] → k % n = 0 → k / 2 ^ 52 < 4 → k / 2 ^ 52 ≠ d →
      let clear : Prop := ∀ j, k ≤ j → j < k + n → undelivered s d j = false
      let plain : Prop := ∀ j, k ≤ j → j < k + n → plainByte s j = true
      let same (t : State) : Prop := ∀ j, j < k ∨ k + n ≤ j → tGet? (dieAt t d).remote j = tGet? (dieAt s d).remote j
      (clear → plain → does (.refresh d ⟨k, n⟩) (fun t => t.mem = s.mem ∧ same t ∧ ∀ j, k ≤ j → j < k + n →
        (tGet? (dieAt t d).remote j).map (fun p => p.1) = some (rdByte s j))) ∧
      (clear → does (.drop d ⟨k, n⟩) (fun t => t.mem = s.mem ∧ same t ∧ ∀ j, k ≤ j → j < k + n → tGet? (dieAt t d).remote j = none)) ∧
      (¬clear → exec (.refresh d ⟨k, n⟩) s = .next s ∧ exec (.drop d ⟨k, n⟩) s = .next s) ∧
      (¬plain → exec (.refresh d ⟨k, n⟩) s = .next s)) ∧
    -- an arrival of another package at a pod barrier of a launch
    (∀ k b n B id answer, barGet s ⟨.pod, k, 0, b⟩ = some B → B.expect ≠ 0 → s.netStopped = false →
      does (.deliver id { bytes := answer, pod := some (k, b, n) }) (fun t => barGet t ⟨.pod, k, 0, b⟩ = some (arriveN none n B) ∧ t.mem = s.mem)) ∧
    (∀ c id p, tGet? s.promotes id = some p → c ∈ p.cores → s.netStopped = false →
      does (.promote c id) (fun t => (∀ e ∈ (coreAt t c).view, coreRelease p e = false) ∧
        ∀ q, tGet? t.promotes id = some q → q.cores = p.cores.filter (fun k => k != c)))

/-- R200, R234, R235, R248 to R252: wakes of parked threads and saved groups, and the steps of a refit: it starts with the first pending region of the die, reads a knot or
verifies an index at a time, and swaps; a region whose image is out of range, or whose list is full, is abandoned with its flag set. A store held too long ends in ERRATA_FULL.
The list that a refit makes is filled from its first entry, in the order of adding, and its length is the plate unit's (the model's choice, assumption 27). -/
def Obligations.WakesAndRefits : Prop :=
  ∀ (s : State) (n die : Nat),
    let does (i : Instr) (P : State → Prop) : Prop := ∃ t, exec i s = .next t ∧ P t
    (∀ d w, (dueWaits s)[n]? = some (d, w) → does (.wake n) (fun t => w ∉ (dieAt t d).waits ∧ t.mem = s.mem ∧
      (∀ l a, l ∈ w.lanes → (lane s w.uid l).st = .wait (.eld w.cell w.ed a) → (lane t w.uid l).st = .run ∧ (lane t w.uid l).at_ = (lane s w.uid l).at_) ∧
      ∀ u l, u ≠ w.uid ∨ l ∉ w.lanes → lane t u l = lane s u l)) ∧
    (∀ id r, (dueWaits s).length ≤ n → (dueRegs s)[n - (dueWaits s).length]? = some (id, r) →
      (r.launch = false → (tGet? s.groups r.who).isSome = true → ∀ y b, (grp s r.who).place = .saved y b →
        does (.wake n) (fun t => tGet? t.edRegs id = none ∧ (grp t r.who).place = .saved y true ∧ t.mem = s.mem)) ∧
      (r.launch = true → exec (.wake n) s = .next (
        let woken : State := { s with edRegs := tDel s.edRegs id }
        if (launchAt s r.who).state = .counting then countRead woken r.who else woken))) ∧
    (∀ id r, s.polls[n]? = some (id, r) →
      (∀ y b, r.launch = false → (tGet? s.groups r.who).isSome = true → (grp s r.who).place = .saved y b → r.ed ≤ edNewest s r.cell →
        does (.pollListRead n) (fun t => tGet? t.polls id = none ∧ (grp t r.who).place = .saved y true ∧ t.mem = s.mem)) ∧
      (r.cell < 2 ^ 64 → edNewest s r.cell < r.ed → exec (.pollListRead n) s = .next { s with mstep := s.mstep + 1 })) ∧
    (∀ k ks d, (dieAt s die).pending = k :: ks → tGet? s.caster die = none → plDesc s k = .ok d → k / 2 ^ 52 = die →
      (d.mlp = false → does (.refitStart die) (fun t => tGet? t.caster die = some k ∧ (dieAt t die).pending = ks ∧ (plateAt t k).refit = .fit [] ∧
        (plateAt t k).pend = false ∧ (plateAt t k).new = plParams s k d ∧ plCount (plateAt t k) (!d.side) = 0 ∧
        plCount (plateAt t k) d.side = plCount (plateAt s k) d.side ∧ t.mem = s.mem)) ∧
      (d.mlp = true →
        let img := rdBytes s (k / 2 ^ 52 * 2 ^ 52 + d.staged % 2 ^ 52) 13312
        (plImageOk img = true → does (.refitStart die) (fun t => tGet? t.caster die = some k ∧ (dieAt t die).pending = ks ∧ (plateAt t k).refit = .verify 0 ∧
          (plateAt t k).new = img ∧ plCount (plateAt t k) (!d.side) = 0 ∧ t.mem = s.mem)) ∧
        (plImageOk img = false → does (.refitStart die) (fun t => tGet? t.caster die = none ∧ (plateAt t k).refit = .idle ∧
          (plateAt t k).served = (plateAt s k).served + 1 ∧ bit (rdNat t (k + 15) 1) 2 = true)))) ∧
    (∀ k d, tGet? s.caster die = some k → plDesc s k = .ok d →
      (∀ vals, (plateAt s k).refit = .fit vals →
        let got := vals ++ [plTrue s k d (fld (plateAt s k).new (4 + 4 * vals.length) 4)]
        does (.knotRead die) (fun t => t.mem = s.mem ∧ t.caster = s.caster ∧
          (got.length < d.knots → (plateAt t k).refit = .fit got ∧ (plateAt t k).new = (plateAt s k).new) ∧
          (d.knots ≤ got.length → (plateAt t k).refit = .verify 0 ∧ (plateAt t k).new = plFit d (plateAt s k).new got))) ∧
      (∀ i, (plateAt s k).refit = .verify i →
        let old := plCount (plateAt s k) (!d.side)
        let at_ := k / 2 ^ 52 * 2 ^ 52 + (if d.side then d.err0 else d.err1) % 2 ^ 52 + 8 * old
        let next : Refit := if i + 1 < d.length then .verify (i + 1) else .done
        let close : Prop := (∃ j, j < old ∧ rdNat s (k / 2 ^ 52 * 2 ^ 52 + (if d.side then d.err0 else d.err1) % 2 ^ 52 + 8 * j) 3 = i) ∨ plNear d (evalPlate d (plateAt s k).new i) (plTrue s k d i) = true
        (close → does (.refitVerify die) (fun t => t.mem = s.mem ∧ (plateAt t k).refit = next ∧ plCount (plateAt t k) (!d.side) = old)) ∧
        (¬close → old < 65536 → i < 2 ^ 24 → does (.refitVerify die) (fun t => (plateAt t k).refit = next ∧ plCount (plateAt t k) (!d.side) = old + 1 ∧
          rdNat t at_ 4 = i ∧ rdNat t (at_ + 4) 4 = plTrue s k d i % 2 ^ 32 ∧ ∀ j, j < at_ ∨ at_ + 8 ≤ j → rdByte t j = rdByte s j)) ∧
        (¬close → 65536 ≤ old → k / 2 ^ 52 = die → does (.refitVerify die) (fun t => tGet? t.caster die = none ∧ (plateAt t k).refit = .idle ∧
          plCount (plateAt t k) (!d.side) = 0 ∧ bit (rdNat t (k + 15) 1) 2 = true))) ∧
      ((plateAt s k).refit = .done → k / 2 ^ 52 = die → die < 4 → k % 2 ^ 52 + 32 ≤ 2 ^ 52 →
        let at_ := die * 2 ^ 52 + d.params % 2 ^ 52
        d.params % 2 ^ 52 + (plateAt s k).new.length ≤ 2 ^ 52 → overlaps at_ (plateAt s k).new.length k 32 = false →
        ∃ p, exec (.refitSwap die) s = .next (retryHeld p k) ∧ rdBytes p at_ (plateAt s k).new.length = (plateAt s k).new ∧
          bit (rdNat p (k + 15) 1) 1 = !d.side ∧ bit (rdNat p (k + 15) 1) 2 = false ∧ rdNat p (k + 24) 4 = (d.castcnt + 1) % 2 ^ 32 ∧
          plCount (plateAt p k) d.side = 0 ∧ plCount (plateAt p k) (!d.side) = plCount (plateAt s k) (!d.side) ∧ (plateAt p k).held = (plateAt s k).held ∧
          (plateAt p k).refit = .idle ∧ (plateAt p k).served = (plateAt s k).served + 1 ∧ tGet? p.caster die = none)) ∧
    (∀ id k h d, s.plates.findSome? (fun p => (p.2.held.find? (fun h => h.e.id == id)).map (fun h => (p.1, h))) = some (k, h) → plDesc s k = .ok d →
      (s.gtick.toNat < h.since + d.timeout → exec (.errataTimeout id) s = .next s) ∧
      (h.since + d.timeout ≤ s.gtick.toNat →
        let old := lane s h.e.uid h.e.lane
        let p := (gangOf s h.e.uid).privsz
        does (.errataTimeout id) (fun t => t.mem = s.mem ∧ (∀ x ∈ (plateAt t k).held, x.e.id ≠ id) ∧
          (old.st ≠ .exited → (tGet? s.groups h.e.uid).isSome = true → h.e.lane < (grp s h.e.uid).lanes.length → NoPendH s h.e.uid → TidyLane old → FrameLeft p old →
            TrappedLate p h.e old (lane t h.e.uid h.e.lane) .errataFull))))

/-- R144, R152, R153, R256, R259 to R266, R275, R276: the Press's events. A compute command whose waits have ended starts with the words that R264 and R265 give, or faults: ACCESS for
a range, LAYOUT_MISMATCH for a bank, tag or header; it completes by writing them, with a colophon where it has STAMP. `pclr` clears its rows. A bank load fills its bank, and the bank is
READY when it completes. -/
def Obligations.PressEvents : Prop :=
  ∀ (s : State) (core id : Nat) (c : Cmd), cmdHeld s c = false → s.errors = [] →
    let does (i : Instr) (P : State → Prop) : Prop := ∃ t, exec i s = .next t ∧ P t
    let g := gangAt s c.by_.gang
    -- the gang's arrays as the command reads them: a byte stored since its issue is the old or the new one (R207)
    let e := engGang s c
    let here : Prop := (tGet? s.gangs c.by_.gang).isSome = true
    let accOf (t : State) (w : Nat) : W32 := smGet 0 (gangAt t c.by_.gang).acc w
    let bankOf (t : State) (n : Nat) : Bank := nth {} (gangAt t c.by_.gang).banks n
    (headCmd s core 4 = some (id, c) →
      (∀ r cpin landed, c.kind = .compute r cpin landed →
        let faults (x : Cause) : Prop := does (.pressCommandStart core) (fun t => Completed s t id c (some x) (pcArrival r))
        (c.state = .queued → c.ready = false → exec (.pressCommandStart core) s = .next s) ∧
        (c.state = .queued → c.ready = true →
          (wbarBad s c r = true ∨ pressRanges s c r = false → faults .access) ∧
          (wbarBad s c r = false → pressRanges s c r = true →
            (pressLayout s c r = false → faults .layoutMismatch) ∧
            ∀ f, pressLayout s c r = true → fmtOf (tagFmt (pcTaga r)) (tagP8d (pcTaga r)) = some f →
              (pressHeads e r f = false → faults .layoutMismatch) ∧
              (pressHeads e r f = true → pressBad e r f = false → does (.pressCommandStart core) (fun t =>
                (cmdAt t id).state = .running ∧ (cmdAt t id).t1 = s.gtick.toNat ∧ (cmdAt t id).kind = c.kind ∧
                (cmdAt t id).stage = (List.range (pcM r)).flatMap (pressRow e (bankOf s (pcBank r)) r f (pressCap r f)) ∧
                (gangAt t c.by_.gang).acc = g.acc)))) ∧
        -- a running command commits the row of its first staged word
        (∀ w rest, c.state = .running → c.stage = w :: rest → c.stage.Pairwise (fun a b => a.1 ≠ b.1) → does (.pressCommandStart core) (fun t =>
          (cmdAt t id).stage = c.stage.filter (fun x => x.1 / 256 != w.1 / 256) ∧ (cmdAt t id).rows = c.rows + 1 ∧ (cmdAt t id).state = .running ∧
          (here → ∀ x, accOf t x = if x / 256 = w.1 / 256 then ((c.stage.find? (fun p => p.1 == x)).map (fun p => p.2)).getD (accOf s x) else accOf s x))) ∧
        (c.state = .running → c.stage = [] → exec (.pressCommandStart core) s = .next s) ∧
        (c.state = .running → ArrivalOk s c (pcArrival r) → c.stage.Pairwise (fun a b => a.1 ≠ b.1) → does (.pressCommandComplete core) (fun t =>
          Completed s t id c c.fault (pcArrival r) ∧
          (here → ∀ w, accOf t w = ((c.stage.find? (fun p => p.1 == w)).map (fun p => p.2)).getD (accOf s w)) ∧
          (pcStamp r = false → (coreAt t core).colophons = (coreAt s core).colophons) ∧
          (pcStamp r = true → (coreAt s core).colophons.length < 16 → (coreAt t core).colophons = (coreAt s core).colophons ++
            [{ row0 := pcRow0 r, m := pcM r, gang := c.by_.gang, colo := pcColo r, vmid := c.by_.vmid, asid := c.by_.asid, cpin := cpin, landed := landed,
               opready := c.t0, cstart := c.t1, cend := s.gtick.toNat, stall := c.stall, opc := pcOpc r, bank := pcBank r, slot := c.by_.slot, launch := c.by_.launch,
               mode := c.by_.mode }])))) ∧
      (∀ row0 n bar arr, c.kind = .clear row0 n bar arr → ArrivalOk s c (arrOf bar arr) → does (.pclrRun core) (fun t =>
        Completed s t id c c.fault (arrOf bar arr) ∧ (here → ∀ w, accOf t w = if row0 * 256 ≤ w ∧ w < (row0 + n) * 256 then 0 else accOf s w)))) ∧
    (headCmd s core 5 = some (id, c) → ∀ n a tag bar arr, c.kind = .bank n a tag bar arr → n < g.banks.length → here →
      (c.state = .queued → bankBusy s id c = true → exec (.bankLoad core) s = .next s) ∧
      (c.state = .queued → bankBusy s id c = false →
        (bankLayout g a tag.toNat = false → does (.bankLoad core) (fun t => Completed s t id c (some .layoutMismatch) (arrOf bar arr) ∧ bankOf t n = {})) ∧
        (∀ f, bankLayout g a tag.toNat = true → fmtOf (tagFmt tag.toNat) (tagP8d tag.toNat) = some f → bankBad g a tag.toNat f = false →
          does (.bankLoad core) (fun t => (cmdAt t id).state = .running ∧ bankOf t n = bankContents e a tag.toNat f ∧ ∀ k, k ≠ n → bankOf t k = bankOf s k))) ∧
      (c.state = .running → ArrivalOk s c (arrOf bar arr) → does (.bankLoadComplete core) (fun t =>
        Completed s t id c c.fault (arrOf bar arr) ∧ bankOf t n = { bankOf s n with state := .ready })))

/-- R144, R154, R206, R222, R257, R267 to R273, R280: the Feeder's events, and the completions of `qfence` and `sgset`. A copy that passes its checks starts its walk; one unit's move takes the
bytes of its source to its destination; a tile whose last byte has landed is VALID; a follow-on enters the compute queue; the copy completes with its bucket and its arrival. A kick that is
appended arms its bucket where a `bkset` came meanwhile (the model's choice, assumption 29); at what pace a copy moves is assumption 30. -/
def Obligations.FeederEvents : Prop :=
  ∀ (s : State) (core q id n : Nat) (c : Cmd), cmdHeld s c = false → id < s.fresh → s.errors = [] →
    let does (i : Instr) (P : State → Prop) : Prop := ∃ t, exec i s = .next t ∧ P t
    let die := dieOf c.by_.core
    (headCmd s core q = some (id, c) →
      (∀ d fo, c.kind = .copy d fo →
        (c.state = .queued →
          let pat := if fdSg d then copyPat s c d else []
          let toTile : Prop := fdDst d = 1 ∧ fdUnits d ≠ 0
          let faults (x : Cause) : Prop := does (.feederCopyStart core ⟨q, n⟩) (fun t => Completed s t id c (some x) (fdArrival d))
          let t0 := modCmd s id (fun c => { c with t0 := s.gtick.toNat, pat := pat, state := .running,
                                                   tagw := if fdDst d = 1 ∧ fdUnits d ≠ 0 then (if fdTagsrc d then tagOpen else fdTag d % 2 ^ 16) else 0 })
          (copyFields s c d = false → faults .access) ∧
          (copyFields s c d = true → ∀ i, i < fdUnits d → walkSrc d pat i % 2 ^ fdUnit d ≠ 0 → faults .align) ∧
          (copyFields s c d = true → (∀ i, i < fdUnits d → walkSrc d pat i % 2 ^ fdUnit d = 0) →
            (copySpaces s c d pat = false → faults .access) ∧
            (copySpaces s c d pat = true →
              (∀ x, toTile → fdTagsrc d = false → tagFault s c d (fdTag d % 2 ^ 16) = some x → faults x) ∧
              ((toTile → fdTagsrc d = false → tagFault s c d (fdTag d % 2 ^ 16) = none) → exec (.feederCopyStart core ⟨q, n⟩) s = .next (copyGo t0 id n))))) ∧
        (c.state = .running → exec (.feederCopyStart core ⟨q, n⟩) s = .next (copyGo s id n)) ∧
        (c.state = .running → ∀ tile, tileDue c d tile = true → (tGet? s.gangs c.by_.gang).isSome = true → does (.tileLanded core q tile) (fun t =>
          smGet 0 (gangAt t c.by_.gang).tags tile = BitVec.ofNat 32 (c.tagw % 2 ^ 16 + 2 ^ 16) ∧ tile ∈ (cmdAt t id).landedTiles ∧
          (gangAt t c.by_.gang).scratch =
            ((tileBytes s c d tile).filter (fun p => !c.early.contains p.1)).foldl (fun m p => smSet 0 m p.1 p.2) (gangAt s c.by_.gang).scratch)) ∧
        (c.state = .landed → fdFollow d = true → c.followed = false →
          let full : Prop := 64 ≤ (nth [] (coreAt s c.by_.core).queues 4).length
          (full → exec (.followOnAppend core q) s = .next s) ∧
          (¬full → 4 < (coreAt s c.by_.core).queues.length → does (.followOnAppend core q) (fun t =>
            nth [] (coreAt t c.by_.core).queues 4 = nth [] (coreAt s c.by_.core).queues 4 ++ [s.fresh] ∧ (cmdAt t id).followed = true ∧ (cmdAt t id).tl = false ∧
            tGet? t.cmds s.fresh = some { kind := .compute fo c.t0 c.t2, by_ := c.by_, srcAt := BitVec.ofNat 64 (fdFollowAt d), tl := true, cycle := s.cycle }))) ∧
        (c.state = .landed → (fdFollow d = true → c.followed = true) → ArrivalOk s c (fdArrival d) → does (.feederCopyComplete core q) (fun t =>
          Completed s t id c c.fault (fdArrival d) ∧
          (fdBkt d = true → fdBucket d ∈ (launchAt s c.by_.launch).buckets → bucketAt t die (fdBucket d) = bucketAt (bucketAdd s die (fdBucket d) c.written) die (fdBucket d)))))) ∧
    -- a fence waits for its own commands alone: the first of a queue that has none left completes, wherever it stands
    ((coreAt s core).fenced = false →
      let queue := nth [] (coreAt s core).queues q
      let done (j : Nat) : Prop := ∃ ids, (cmdAt s j).kind = .fence ids ∧ ∀ k ∈ ids, tGet? s.cmds k = none
      ((∀ j ∈ queue, ¬done j) → exec (.qfenceComplete core q) s = .next s) ∧
      (∀ pre post, queue = pre ++ id :: post → queue.Nodup → (∀ j ∈ pre, ¬done j) → done id → does (.qfenceComplete core q) (fun t =>
        tGet? t.cmds id = none ∧ nth [] (coreAt t core).queues q = pre ++ post ∧ t.mem = s.mem ∧ t.groups = s.groups))) ∧
    (tGet? s.cmds id = some c →
      (∀ d fo i bs, c.kind = .copy d fo → unitRead s c d (walkSrc d c.pat i) = .ok bs → (fdTagsrc d = true → fdDst d ≠ 1) →
        let da := walkDst d (i * 2 ^ fdUnit d)
        let cls (sp a : Nat) (acc : AccKind) : Nat := classCode (sideClass s c sp a acc)
        (cls (fdSrc d) (walkSrc d c.pat i) .read ≤ cls (fdDst d) da .write ∨ fdXclass d = true) →
        -- into device memory: the write leaves the command, whose pages the walk pins; it reaches its owner in a step of its own
        (∀ walk a o pa, fdDst d = 0 → da % 4096 + bs.length ≤ 4096 → engReach s c.by_ (BitVec.ofNat 64 da) .write = .page a o pa → a.kind = .ordinary →
          let met := unitMet s c d (walkSrc d c.pat i)
          let pinned := if walk = true ∧ fdSrc d = 0 then walkPin met id false (BitVec.ofNat 64 (walkSrc d c.pat i)) else met
          engReach (outFill pinned c.by_ (BitVec.ofNat 64 da)) c.by_ (BitVec.ofNat 64 da) .write = .page a o pa →
          ∃ t, copyUnit s id walk i = .moved t ∧ t.mem = s.mem ∧ (cmdAt t id).out = c.out ++ [⟨BitVec.ofNat 64 da, o, pa, a.rclass, none, bs⟩]) ∧
        (∀ walk, fdDst d = 1 → ∃ t, copyUnit s id walk i = .moved t ∧ ∀ j, j < bs.length → smGet none (cmdAt t id).buf (i * 2 ^ fdUnit d + j) = bs[j]?) ∧
        (∀ walk, fdDst d = 2 → c.by_.lane < (grp s c.by_.uid).lanes.length →
          ∃ t, copyUnit s id walk i = .moved t ∧ arrBytes (lane t c.by_.uid c.by_.lane).priv da bs.length = bs)) ∧
      (∀ w : OutWrite, NoSnap s → w.peer = none → (w.owner = 4 → engBuffers s c.by_ = false) →
        let t := cmdPut s id w
        let k := mkey w.owner w.pa
        rdBytes t k w.bs.length = w.bs ∧ ∀ j, j < k ∨ k + w.bs.length ≤ j → rdByte t j = rdByte s j) ∧
      (∀ d fo x t, c.kind = .copy d fo → c.state = .running → c.tagw ≠ tagOpen → c.fix.Nodup → segNext c d = some x → n ≤ 1 →
        (unitElem s id x.first = none → copyUnit s id false x.first = .moved t →
          let past := unitPast t id x.first
          exec (.fixupReplay ⟨id, n⟩) s = .next (copyLand (modCmd (if x.count ≤ 1 then unpinAll past c.by_.vmid c.by_.asid [x] else past) id (fun y =>
            { y with fix := (if x.count ≤ 1 then y.fix.erase x else y.fix.map (fun z => if z = x then { x with first := x.first + 1, count := x.count - 1 } else z)) })) id)) ∧
        -- an element of a plated page is read in a step of its own
        (unitElem s id x.first = some t → exec (.fixupReplay ⟨id, n⟩) s = .next (copyLand t id))) ∧
      (∀ d fo x ab st lv, c.kind = .copy d fo → c.state = .running → segNext c d = none → segUnposted s c = some x →
        engReach s c.by_ x.va (if x.dst then .write else .read) = .fault ab st lv →
        let earlier : Option Segment := c.fix.find? (fun y => inSeg s y x.va.toNat && !y.present && y.tag != 0)
        let tagged (k : Nat) (t : State) : Prop := (cmdAt t id).fix = c.fix.map (fun y => if y = x then { y with tag := k } else y)
        (earlier = none → does (.fixupReplay ⟨id, n⟩) (fun t =>
          (tGet? t.faults s.fresh).map (fun f => (f.r.va, f.r.tag, f.cmd)) = some (x.va, s.fresh, some id) ∧ tagged s.fresh t)) ∧
        -- an earlier request of the command for the page is shared
        (∀ y, earlier = some y → does (.fixupReplay ⟨id, n⟩) (fun t => t.faults = s.faults ∧ tagged y.tag t))) ∧
      (∀ e p, c.kind = .sgset e p → does (.sgsetComplete id) (fun t => Completed s t id c c.fault none ∧ ∀ d, d < 4 → smGet [] (dieAt t d).pats e = p))) ∧
    (∀ d k, (dieAt s d).kicks = [] → exec (.kickAppend d k) s = .next s) ∧
    (∀ d k x rest, (dieAt s d).kicks = x :: rest → x.bucket ≠ k ∨ 64 ≤ (dieAt s d).collQ.length → exec (.kickAppend d k) s = .next s) ∧
    (∀ d k x rest, (dieAt s d).kicks = x :: rest → x.bucket = k → d = dieOf x.by_.core → (dieAt s d).collQ.length < 64 → does (.kickAppend d k) (fun t =>
      (dieAt t d).collQ = (dieAt s d).collQ ++ [s.fresh] ∧ (dieAt t d).kicks = rest ∧
      bucketAt t d k = { bucketAt s d k with armed := (bucketAt s d k).armed || (bucketAt s d k).rearm, rearm := false } ∧
      tGet? t.cmds s.fresh = some { kind := .coll x.record, by_ := x.by_, srcAt := x.src, cycle := s.cycle }))

/-- R144, R254, R280 to R282: the collectives. An entry comes to the meeting of its CID; one that holds a reserved value or does not agree faults every member; a member on another package comes with its input.
A meeting that is complete, with every page there, runs: it reads its inputs element by element, then each member's destination receives what its operation gives, elements added in rank order;
the heads of the dies' queues complete. -/
def Obligations.CollectiveEvents : Prop :=
  ∀ (s : State), s.errors = [] →
    let does (i : Instr) (P : State → Prop) : Prop := ∃ t, exec i s = .next t ∧ P t
    (∀ die id, (dieAt s die).collQ.find? (fun j => (cmdAt s j).state == .queued) = some id → cmdHeld s (cmdAt s id) = false → (tGet? s.cmds id).isSome = true →
      let c := cmdAt s id
      let r := coRec c
      let ctx := issuerCtx s c.by_
      let good : Bool := coSelf s c r
      let comes (P : State → Prop) : Prop := does (.collectiveRendezvous ⟨die, none⟩) P
      -- the entry alone faults
      let faults (P : State → Prop) : Prop := comes (fun t => Completed s t id c (some .access) (coArrival r) ∧ P t)
      let joins (k : Nat) (m : Meet) : Prop := comes (fun t => (cmdAt t id).state = .running ∧ t.mem = s.mem ∧ tGet? t.meets k = some m)
      (meetOf s ctx (coCid r) = none →
        let m : Meet := { ctx := ctx, cid := coCid r, nmem := coNmem r, members := [], come := 1 }
        (coHead r = false → faults (fun t => tGet? t.meets s.fresh = some { m with broken := true })) ∧
        (coHead r = true → good = false → faults (fun t => t.meets = s.meets)) ∧
        (coHead r = true → good = true → joins s.fresh { m with members := [(coRank r, id)] })) ∧
      (∀ k m, meetOf s ctx (coCid r) = some (k, m) →
        let fits : Bool := (meetRecs s m).all (fun p => coAgree p.2 r)
        let new : Bool := (meetRecs s m).all (fun p => p.1 != coRank r)
        -- how many members come to a meeting whose members differ
        let total : Nat := if coHead r then max m.nmem (coNmem r) else m.nmem
        (m.broken = true → faults (fun t => (total ≤ m.come + 1 → tGet? t.meets k = none) ∧
          (m.come + 1 < total → tGet? t.meets k = some { m with nmem := total, come := m.come + 1 }))) ∧
        (m.broken = false → fits = true → good = false → faults (fun t => t.meets = s.meets)) ∧
        (m.broken = false → fits = true → good = true → new = true → joins k { m with members := m.members ++ [(coRank r, id)], come := m.come + 1 }) ∧
        (m.broken = false → (fits = false ∨ (good = true ∧ new = false)) → comes (fun t =>
          tGet? t.cmds id = none ∧ (∀ p ∈ m.members, tGet? t.cmds p.2 = none) ∧ t.mem = s.mem ∧
          (m.come + 1 < total → ∃ b, tGet? t.meets k = some b ∧ b.broken = true ∧ b.members = [] ∧ b.peers = [] ∧ b.come = m.come + 1 ∧ b.nmem = total) ∧
          (total ≤ m.come + 1 → tGet? t.meets k = none))))) ∧
    (∀ die ctx r xs,
      let event : Instr := .collectiveRendezvous ⟨die, some (ctx, r, xs)⟩
      let comes (P : State → Prop) : Prop := does event (fun t => t.mem = s.mem ∧ t.cmds = s.cmds ∧ P t)
      (s.netStopped = true → exec event s = .next s) ∧
      (s.netStopped = false → meetOf s ctx (coCid r) = none →
        let m : Meet := { ctx := ctx, cid := coCid r, nmem := coNmem r, members := [], come := 1 }
        (coHead r = false → comes (fun t => tGet? t.meets s.fresh = some { m with broken := true })) ∧
        (coHead r = true → coNmem r ≤ coRank r → comes (fun t => t.meets = s.meets)) ∧
        (coHead r = true → coRank r < coNmem r → comes (fun t => tGet? t.meets s.fresh = some { m with peers := [(coRank r, r, xs)] }))) ∧
      (∀ k m, s.netStopped = false → meetOf s ctx (coCid r) = some (k, m) → m.broken = false → (meetRecs s m).all (fun p => coAgree p.2 r) = true →
        (coNmem r ≤ coRank r → comes (fun t => t.meets = s.meets)) ∧
        (coRank r < coNmem r → (meetRecs s m).all (fun p => p.1 != coRank r) = true →
          comes (fun t => tGet? t.meets k = some { m with peers := m.peers ++ [(coRank r, r, xs)], come := m.come + 1 })))) ∧
    (∀ k n m, tGet? s.meets k = some m →
      (meetReady s m = false → exec (.collectiveStart ⟨k, n⟩) s = .next s) ∧
      (meetReady s m = true → (∀ p ∈ m.members, coTrouble s (cmdAt s p.2) = none) →
        (∀ id rank a, coNext s m = some (id, rank, a) → exec (.collectiveStart ⟨k, 0⟩) s = .next s ∧
          let c := cmdAt s id
          let w := coWidth (coRec c)
          -- an element of a plated page is read in a step of its own
          (∀ t, coPlate s id a w = some t → exec (.collectiveStart ⟨k, 1⟩) s = .next t) ∧
          (∀ bs, coPlate s id a w = none → coElem s c.by_ c.plGot a w = .ok bs →
            let m1 : Meet := { m with got := tPut m.got rank ((tGet? m.got rank).getD [] ++ [leNat bs]) }
            let s1 := coReadMany k 1 s
            tGet? s1.meets k = some m1 ∧ s1.mem = s.mem ∧ s1.dies = s.dies ∧
              (∀ j, { cmdAt s1 j with pins := (cmdAt s j).pins, plGot := (cmdAt s j).plGot } = cmdAt s j) ∧
              (coNext s1 m1 ≠ none → exec (.collectiveStart ⟨k, 1⟩) s = .next s1))) ∧
        (coNext s m = none →
          -- the results that are not written yet
          let left := (coWords s m).filter (fun x => !m.put.contains (x.1, x.2.1))
          does (.collectiveStart ⟨k, n⟩) (fun t => t.mem = (coPutMany k n left (coContain s m)).mem ∧
            (n < left.length → ∃ ps : List (Nat × Nat), ps.length = n ∧ (∀ p ∈ ps, ∃ x ∈ left, p = (x.1, x.2.1)) ∧ tGet? t.meets k = some { m with put := m.put ++ ps }) ∧
            (left.length ≤ n → tGet? t.meets k = none ∧ ∀ p ∈ m.members, (tGet? s.cmds p.2).isSome = true → (cmdAt t p.2).state = .landed ∧ (cmdAt t p.2).fix = []))))) ∧
    -- the writes come one by one, in an order that nothing fixes
    (∀ k n ws, ws ≠ [] → ∃ x ∈ ws,
      let t := coWrite { s with free := s.free + 1 } x.1 x.2.2.1 x.2.2.2.1 x.2.2.2.2
      coPutMany k (n + 1) ws s = coPutMany k n (ws.erase x) { t with meets := tMod t.meets k (fun m => { m with put := m.put ++ [(x.1, x.2.1)] }) }) ∧
    (∀ id a w x p o pa, a % 4096 + w ≤ 4096 → engReach s (cmdAt s id).by_ (BitVec.ofNat 64 a) .write = .page p o pa → (o = 4 → engBuffers s (cmdAt s id).by_ = false) →
      rdBytes (coWrite s id a w x) (mkey o pa) w = leBytes w x) ∧
    (∀ m,
      let inputs := (List.range m.nmem).map (fun r => ((tGet? m.peers r).map (fun p => p.2)).getD ((tGet? m.got r).getD []))
      coWords s m = m.members.flatMap (fun p =>
        let r := coRec (cmdAt s p.2)
        (coResult (coOp r) m.nmem (coCount r) p.1 ((coFmt r).getD .f32) inputs).zipIdx.map (fun x => (p.2, x.2, coDst r + x.2 * coWidth r, coWidth r, x.1)))) ∧
    (∀ nmem count r (f : Fmt) (xs : List (List Nat)),
      let sum (i : Nat) : Nat := coSum f (xs.map (fun x => nth 0 x i))
      coResult 0 nmem count r f xs = (List.range count).map sum ∧
      coResult 1 nmem count r f xs = (List.range (count / nmem)).map (fun i => sum (r * (count / nmem) + i)) ∧
      coResult 2 nmem count r f xs = xs.flatMap id ∧ (∀ x ys, xs = x :: ys → coResult 3 nmem count r f xs = x)) ∧
    (∀ id c r, tGet? s.cmds id = some c → c.kind = .coll r → c.state = .landed → cmdHeld s c = false →
      ((dieAt s (dieOf c.by_.core)).collQ.head? ≠ some id → exec (.collectiveComplete id) s = .next s) ∧
      ((dieAt s (dieOf c.by_.core)).collQ.head? = some id → ArrivalOk s c (coArrival r) →
        does (.collectiveComplete id) (fun t => Completed s t id c c.fault (coArrival r) ∧ id ∉ (dieAt t (dieOf c.by_.core)).collQ)))

/-- R157, R158, R195 to R199, R223, R330, R331, R347: work starts and ends on a core. A galley is locked when its time has come and becomes a group of its slugs; a ready task becomes a group of
32 equal threads; a launch's next gang starts with its coordinates and arguments; a gang whose groups are over leaves. -/
def Obligations.WorkStarts : Prop :=
  ∀ (s : State) (core k : Nat), s.errors = [] →
    let does (i : Instr) (P : State → Prop) : Prop := ∃ t, exec i s = .next t ∧ P t
    -- group u of t is new, of 32 threads, in a slot of the core that was free, for launch k, with its barriers
    let group (t : State) (u k : Nat) : Prop := (∃ n, n ∈ freeSlots s core ∧ (grp t u).place = .resident n) ∧ (gangOf t u).core = core ∧ (gangOf t u).launch = k ∧
      (grp t u).lanes.length = 32 ∧ (gangOf t u).privsz = imgPrivate (launchAt s k) ∧ (gangOf t u).bars.length = imgBars (launchAt s k) .core
    let starts (ln : Lane) (k : Nat) (entry : W64) (vs : List Nat) : Prop := ln.at_ = .enter entry .start entry ∧ ln.st = .run ∧ ln.mode = .u ∧ ln.depth = 0 ∧
      ln.rclass = imgKclass (launchAt s k) ∧ ln.tvec = imgTvec (launchAt s k) ∧ curRec ln = { regpc := entry, reghdr := entry } ∧ ∀ n, smGet 0 ln.v n = BitVec.ofNat 32 (vs.getD n 0)
    let both (x : Nat) : List Nat := [x % 2 ^ 32, x / 2 ^ 32 % 2 ^ 32]
    (∀ g x, tGet? (coreAt s core).galleys g = some x →
      does (.galleyTimeout core g) (fun t => tGet? (coreAt t core).galleys g = some (if x.expires ≤ s.gtick.toNat then { x with locked := true } else x) ∧ t.mem = s.mem) ∧
      ((coreAt s core).fenced = true → exec (.galleyStart core g) s = .next (moveGalley s core g)) ∧
      (galleyDue s core g = false → (coreAt s core).fenced = false → exec (.galleyStart core g) s = .next s) ∧
      (galleyDue s core g = true → (coreAt s core).fenced = false → noClaims s core false false = true → startAbsent s x.launch 0 = none → does (.galleyStart core g) (fun t =>
        tGet? (coreAt t core).galleys g = none ∧ group t (s.fresh + 1) x.launch ∧ t.mem = s.mem ∧ ∀ l, l < 32 → match x.slugs[l]? with
          | some w => starts (lane t (s.fresh + 1) l) x.launch w.entry (both w.arg.toNat)
          | none => (lane t (s.fresh + 1) l).st = .exited))) ∧
    (noClaims s core true false = true → (∃ p ∈ s.tasks, taskDue s p.2 core = true) → (∀ p ∈ s.tasks, startAbsent s p.2.launch 0 = none) → ∃ id w, (id, w) ∈ s.tasks ∧ taskDue s w core = true ∧
      does (.taskStart (dieOf core) core) (fun t => tGet? t.tasks id = none ∧ group t (s.fresh + 1) w.launch ∧ t.mem = s.mem ∧
        ∀ l, l < 32 → starts (lane t (s.fresh + 1) l) w.launch (BitVec.ofNat 64 (fld w.record 0 8))
          (both (fld w.record 8 8) ++ [fld w.record 16 2 + fld w.record 18 2 * 2 ^ 16, fld w.record 20 2]))) ∧
    ((launchAt s k).state = .running →
      let L := launchAt s k
      (gangDue s k core = false → exec (.gangPlace k core) s = .next s) ∧
      (gangDue s k core = true → noClaims s core true true = true → topPrio s k core = true → startAbsent s k (imgTiles L) = none →
        -- COHABIT: on the cores where nothing comes before them, where all of them have room there at once
        (recFlag L 1 = true →
          let cs := gangCores s k
          let r := (Config.freeWord s.free).toNat % cs.length
          (∀ c, c ∈ cs ↔ c < 192 ∧ coreOpen s c L.ctx = true ∧ noClaims s c true true = true ∧ topPrio s k c = true) ∧
          (sumOf (fun c => roomOn s c (gangNeed L)) cs < gridSize L → exec (.gangPlace k core) s = .next s) ∧
          (gridSize L ≤ sumOf (fun c => roomOn s c (gangNeed L)) cs →
            exec (.gangPlace k core) s = .next ((cs.drop r ++ cs.take r).foldl (fun t c => fillCore k c 32 t) { s with free := s.free + 1 }))) ∧
        (recFlag L 1 = false → L.placed.Pairwise (fun a b => a < b) → (∀ i ∈ L.placed, i < gridSize L) → ∃ i, i ∉ L.placed ∧ i < gridSize L ∧
          does (.gangPlace k core) (fun t => (∀ j, j ∈ (launchAt t k).placed ↔ j = i ∨ j ∈ L.placed) ∧ t.mem = s.mem ∧ (gangAt t s.fresh).index = i ∧
            (gangAt t s.fresh).tiles = imgTiles L ∧ (gangAt t s.fresh).accrows = imgRows L ∧ (gangAt t s.fresh).groups.length = imgGroups L ∧
            ∀ j, j < imgGroups L → group t (s.fresh + 1 + j) k ∧ (grp t (s.fresh + 1 + j)).gidx = j ∧
              ∀ l, l < 32 → starts (lane t (s.fresh + 1 + j) l) k (BitVec.ofNat 64 (fld L.record 0 8))
                (both (fld L.record 8 8) ++ [i % L.gx + i / L.gx % L.gy * 2 ^ 16, i / (L.gx * L.gy)]))))) ∧
    -- a page of constants or tile tags that is not there is asked for first (R331)
    (∀ va st lv, (launchAt s k).state = .running → gangDue s k core = true → noClaims s core true true = true → topPrio s k core = true →
      startAbsent s k (imgTiles (launchAt s k)) = some (va, st, lv) → exec (.gangPlace k core) s = .next (foreAsk s (foreman s (launchAt s k).ctx k) k va true st lv 0)) ∧
    (∀ gang g, tGet? s.gangs gang = some g →
      ((∃ u ∈ g.groups, groupOver s u = false) ∨ gangCmds s gang = true → exec (.gangEnd gang) s = .next s) ∧
      ((∀ u ∈ g.groups, groupOver s u = true) → gangCmds s gang = false → does (.gangEnd gang) (fun t => tGet? t.gangs gang = none ∧ (∀ u ∈ g.groups, tGet? t.groups u = none) ∧
        ∀ u ∈ g.groups, (grp s u).engFault.isSome = true → (tGet? s.launches (launchOf s u)).isSome = true → .engineFault ∈ (launchAt t (launchOf s u)).statuses)))

/-- R273, R299, R301 to R303, R318 to R320, R347: groups are saved and restored, and pages come and go. A save that has drained takes a frame of its pool, frees its slot, and posts one record for
each page that is not there; a restore puts the group back with its restart points; the Foreman brings an absent page in from its backing bytes, or denies it; a page that is evicted has its entry
cleared and its translations invalidated. -/
def Obligations.SavesAndPages : Prop :=
  ∀ (s : State) (uid slot : Nat),
    let does (i : Instr) (P : State → Prop) : Prop := ∃ t, exec i s = .next t ∧ P t
    let g := grp s uid
    let c := ctxOf s uid
    (∀ n why, g.place = .saving n why →
      let fs := saveFaults s uid
      (saveDrained s uid = false ∨ faultQueueCap < s.faults.length + fs.length ∨ takeFrame s c = none → exec (.saveComplete uid) s = .next s) ∧
      (∀ f, saveDrained s uid = true → s.faults.length + fs.length ≤ faultQueueCap → takeFrame s c = some f → does (.saveComplete uid) (fun t =>
        (∃ due, (grp t uid).place = .saved why due) ∧ (grp t uid).frame = some f ∧ (grp t uid).lastSlot = n ∧ (grp t uid).lanes = g.lanes ∧
        f ∉ (ctxAt s c).frames ∧ (ctxAt t c).frames = (ctxAt s c).frames ++ [f] ∧ t.mem = s.mem ∧
        -- one record for each page, as the lanes met it
        ∀ x ∈ fs, ∃ tag r, tGet? t.faults tag = some r ∧ r.r.va = x.va ∧ r.page = pageSpan s (vmidOf s c) (asidOf s c) x.va ∧ r.r.acc = x.acc ∧ r.r.where_ = x.where_ ∧
          r.r.core = coreOf s uid ∧ r.r.slot = n ∧ r.r.tag = tag ∧ r.uid = some uid ∧ tag ∈ (grp t uid).waitFor))) ∧
    (restoreOk s uid = true → slot ∈ freeSlots s (coreOf s uid) → (tGet? s.groups uid).isSome = true → (∀ l, (lane s uid l).depth ≠ 4) → does (.groupRestore uid slot) (fun t =>
      (grp t uid).place = .resident slot ∧ (grp t uid).frame = none ∧ (grp t uid).waitFor = [] ∧ t.mem = s.mem ∧
      (∀ l, l < g.lanes.length → l < 32 →
        let old : Lane := { lane s uid l with readyAt := max (lane s uid l).readyAt (s.cycle + 1) }
        let new := lane t uid l
        -- what it has issued is past (R125)
        let now := takeCommits old
        let r := curRec now
        (∀ f, g.faults.find? (fun f => f.lane == l && f.denied) = some f → NoPendH s uid → TidyLane old → FrameLeft (gangOf s uid).privsz old →
          (f.vector = false → Trapped (gangOf s uid).privsz now new .access f.va f.pc r.regpc r.reghdr) ∧
          (f.vector = true → Trapped (gangOf s uid).privsz now new .access f.va f.pc f.va f.va)) ∧
        (g.faults.find? (fun f => f.lane == l && f.denied) = none → NoPendH s uid → l ∉ g.restart → new = old) ∧
        (g.faults.find? (fun f => f.lane == l && f.denied) = none → NoPendH s uid → l ∈ g.restart → new.st = .run ∧ new.h0 = r.h0 ∧ new.h1 = r.h1 ∧ new.srcnt = r.srcnt ∧
          new.at_ = restartPos s (vmidOf s c) (asidOf s c) old.mode r.regpc r.reghdr ∧ new.v = old.v ∧ new.commits = now.commits)))) ∧
    (∀ core, moveOk s g.gang core = true → slot / 32 = core → (gangAt s g.gang).groups.Nodup → (∀ u ∈ (gangAt s g.gang).groups, (tGet? s.groups u).isSome = true) →
      does (.groupRestore uid slot) (fun t => (gangAt t g.gang).core = core ∧ (gangAt t g.gang).moved = false ∧
        ∀ u ∈ (gangAt s g.gang).groups, (grp s u).ended = false → ∃ n, n ∈ freeSlots s core ∧ (grp t u).place = .resident n)) ∧
    (∀ k tag f frame u, (faultsAt s true)[k]? = some (tag, f) → tGet? s.faults tag = some f → f.uid = some u → f.cmd = none → f.launch = none → (tGet? s.groups u).isSome = true →
      let o := ptrOwner f.r.va
      let walk := walkAll s o f.r.vmid f.r.asid (ptrOfs f.r.va) (accOf f.r.acc) .h
      let served (t : State) : Prop := tGet? t.faults tag = none ∧ (grp t u).waitFor = (grp s u).waitFor.filter (fun x => x != tag)
      (evicting s f.r = true → exec (.faultResolve k frame) s = .next s) ∧
      (evicting s f.r = false → (∃ st lv, walk = .fault false st lv) → does (.faultResolve k frame) (fun t => served t ∧ t.mem = s.mem ∧
        ∀ x ∈ (grp t u).faults, inPage s f.page x.va.toNat = true → x.denied = true)) ∧
      (evicting s f.r = false → (∃ st lv, walk = .fault true st lv) → ∀ p, pageEntry s o f.r.vmid f.r.asid (ptrOfs f.r.va) = some p → p.valid = false →
        let root := ((rootsOf s o f.r.vmid f.r.asid).getD (0, 0)).2
        let key := p.key
        let e := rdNat s key 8
        let n := entSize p.lvl e
        let back := entFrame (rdNat s ((entKeys key p.lvl e).headD key) 8)
        -- what the Foreman takes: the frame, or under stage 2 what it maps the page to
        let fs := pageFrames s o root frame n p
        let fits : Prop := frame % n = 0 ∧ frame < 2 ^ 52 ∧ sumOf (fun x => x.2) fs = n ∧ framesFree s o fs p.cls = true
        (¬fits → exec (.faultResolve k frame) s = .next s) ∧
        (fits → (root = 0 ∨ p.second = true) → o < 4 → key % 8 = 0 → does (.faultResolve k frame) (fun t => served t ∧ (grp t u).faults = (grp s u).faults ∧
          (∀ i, i < n → rdByte t (mkey o (frame + i)) = rdByte s (mkey 4 (back + i))) ∧
          (∀ i, i < n → smGet .proof t.frameClass (mkey o (frame + i) / 4096) = p.cls) ∧ t.taken = s.taken ++ [(mkey o frame, n, p.cls)] ∧
          (overlaps key 8 (mkey o frame) n = false → entKeys key p.lvl e = [key] → bit (rdNat t key 8) 0 = true ∧ entFrame (rdNat t key 8) = frame ∧ bits (rdNat t key 8) 11 1 = bits e 11 1)))) ∧
      (evicting s f.r = false → (∃ a pa, walk = .ok a pa) → does (.faultResolve k frame) (fun t => served t ∧ t.mem = s.mem ∧ (grp t u).faults = (grp s u).faults))) ∧
    (∀ k tag f u present, (faultsAt s false)[k]? = some (tag, f) → tGet? s.faults tag = some f → f.uid = some u → f.cmd = none → f.launch = none → (tGet? s.groups u).isSome = true →
      does (.faultOutcome k present) (fun t => tGet? t.faults tag = none ∧ (grp t u).waitFor = (grp s u).waitFor.filter (fun x => x != tag) ∧ t.mem = s.mem ∧
        (present = true → (f.r.asid, f.r.vmid, f.r.va.toNat / 4096) ∈ t.peerPages ∧ (grp t u).faults = (grp s u).faults) ∧
        (present = false → ∀ x ∈ (grp t u).faults, inPage s f.page x.va.toNat = true → x.denied = true))) ∧
    (∀ owner ctx va p, owner < 4 → s.trblks.length = 5 → pageEntry s owner (vmidOf s ctx) (asidOf s ctx) va = some p → p.valid = true →
      let e := rdNat s p.key 8
      let n := p.size
      let page := va % 2 ^ 52 / n * n
      let pinned : Prop := ∃ t ∈ (tGet? s.tlbs owner).getD [], t.vmid = vmidOf s ctx ∧ t.asid = asidOf s ctx ∧ overlaps t.vpage t.attr.size page n = true ∧ t.inflight ≠ 0
      (pinned ∨ tinvGo (nth {} s.trblks owner).tinvc = true → exec (.pageEvict owner ctx va) s = .next s) ∧
      (¬pinned → tinvGo (nth {} s.trblks owner).tinvc = false → does (.pageEvict owner ctx va) (fun t =>
        (∀ x ∈ entKeys p.key p.lvl e, bit (rdNat t x 8) 0 = false) ∧ (nth {} t.trblks owner).tinva = BitVec.ofNat 64 page ∧ tinvGo (nth {} t.trblks owner).tinvc = true ∧
        tinvScope (nth {} t.trblks owner).tinvc = 0 ∧ ∃ v, tGet? t.evicts s.fresh = some v ∧ v.owner = owner ∧ v.vpage = page ∧ v.size = n)))

/-- R167, R304 to R306, R326, R328, R329, R332: the Foreman's events. A quantum that has expired begins a pre-emption; a deadline ends the work on its cores; a core is loaded for a context; a tail is
written; a launch is dequeued with the next number; a launch that is done writes its completion record, in order. -/
def Obligations.ForemanEvents : Prop :=
  ∀ (s : State) (ctx core id : Nat),
    let does (i : Instr) (P : State → Prop) : Prop := ∃ t, exec i s = .next t ∧ P t
    let ring (t : State) (p : Nat) : Ring := nth {} (ctxAt t ctx).rings p
    (othersQueued s ctx = false → exec (.quantumExpiry ctx) s = .next s) ∧
    (othersQueued s ctx = true → does (.quantumExpiry ctx) (fun t => t.mem = s.mem ∧ t.groups = s.groups ∧ ∀ k,
      let c := coreAt s k
      coreAt t k = if c.ctx = some ctx ∧ c.preempt = none ∧ (ctxAt s ctx).quantum ≠ 0 ∧ c.quantumAt + (ctxAt s ctx).quantum.toNat ≤ s.gtick.toNat
        then { c with preempt := some s.gtick.toNat } else c)) ∧
    (deadlineCores s ctx = [] → exec (.deadlineExpiry ctx) s = .next s) ∧
    (deadlineCores s ctx ≠ [] → does (.deadlineExpiry ctx) (fun t => ∀ p ∈ s.gangs, p.2.core ∈ deadlineCores s ctx → tGet? t.gangs p.1 = none ∧
      ((tGet? s.launches p.2.launch).isSome = true → (launchAt t p.2.launch).state = .ended ∧ .deadlineReset ∈ (launchAt t p.2.launch).statuses))) ∧
    (reloadOk s core ctx = false → exec (.unitReload core ctx) s = .next s) ∧
    (reloadOk s core ctx = true → does (.unitReload core ctx) (fun t =>
      let c := coreAt s core
      let d := coreAt t core
      d.ctx = some ctx ∧ d.icache = [] ∧ d.lines = [] ∧ d.wanted = [] ∧ d.loopBuf = [] ∧ d.leftover = [] ∧ d.colophons = [] ∧ d.preempt = none ∧ d.quantumAt = s.gtick.toNat ∧
      -- the galleys of the incoming context that waited are back, those of the outgoing one wait
      d.galleys = keptFor s core ctx ∧ (∀ g ∈ d.galleys, (launchAt s g.2.launch).ctx = ctx) ∧
      d.galKept = (c.galleys ++ c.galKept).filter (fun g => !d.galleys.any (fun b => b.1 == g.1)) ∧
      (c.ctx ≠ some ctx → d.svscr = (tGet? c.svSaved ctx).getD (List.replicate 16 0)) ∧ (c.ctx = some ctx → d.svscr = c.svscr) ∧ (∀ o, c.ctx = some o → o ≠ ctx → tGet? d.svSaved o = some c.svscr) ∧
      ((∀ k ∈ s.cores, k.2.ctx = some ctx → dieOf k.1 ≠ dieOf core) → tGet? (dieAt t (dieOf core)).sgfault ctx = none) ∧ t.mem = s.mem ∧ t.groups = s.groups)) ∧
    (∀ (p : Nat) (x : W32), p < (ctxAt s ctx).rings.length → does (.qtailWrite ctx p x) (fun t => t.mem = s.mem ∧
      ring t p = (if (x - (ring s p).head).toNat ≤ (ring s p).size.toNat then { ring s p with tail := x } else ring s p) ∧ ∀ k, k ≠ p → ring t k = ring s k)) ∧
    (s.pkg ≠ .ready ∨ ctxEnabled (ctxAt s ctx) = false ∨ nextRing s ctx = none → exec (.launchDequeue ctx) s = .next s) ∧
    (s.pkg = .ready → ctxEnabled (ctxAt s ctx) = true →
      let new (t : State) (p : Nat) (dev : Bool) (r : List Byte) : Prop := (launchAt t s.fresh).record = r ∧ (launchAt t s.fresh).launchid = s.nextLaunchId ∧
        (launchAt t s.fresh).ctx = ctx ∧ (launchAt t s.fresh).prio = p ∧ (launchAt t s.fresh).devRing = dev ∧ t.nextLaunchId = s.nextLaunchId + 1 ∧ (∀ k, k ≠ s.fresh → launchAt t k = launchAt s k)
      (∀ p, nextRing s ctx = some (p, true) → does (.launchDequeue ctx) (fun t => new t p true ((ring s p).dev.headD []) ∧ (ring t p).dev = (ring s p).dev.drop 1 ∧ (ring t p).lastDev = true)) ∧
      (∀ p r, nextRing s ctx = some (p, false) → foreAbsent s (foreman s ctx 0) (ringAt (ring s p)) 64 = none → ringHead s ctx p = .ok r →
        does (.launchDequeue ctx) (fun t => new t p false r ∧ (ring t p).head = (ring s p).head + 1 ∧ (ring t p).lastDev = false)) ∧
      (∀ p, nextRing s ctx = some (p, false) → (foreAbsent s (foreman s ctx 0) (ringAt (ring s p)) 64).isSome = true → does (.launchDequeue ctx) (fun t =>
        t.launches = s.launches ∧ t.ctxs = s.ctxs ∧ (s.faults.length < faultQueueCap → ∃ f ∈ t.faults, f.2.launch = some 0)))) ∧
    (∀ l, tGet? s.launches id = some l →
      let c := ctxAt s l.ctx
      let q := if id ∈ c.completed then c.completed else c.completed ++ [id]
      (launchDone s id = false → exec (.launchComplete id) s = .next s) ∧
      -- it completes now, or completed before and waits for its turn or for room
      let quiet : Prop := id ∈ c.completed ∨ (l.buffer = [] ∧ c.unwinds = [])
      let when_ : Nat := if id ∈ c.completed then l.doneAt else s.gtick.toNat
      let carries : Prop := reportStatus l = .engineFault ∨ reportStatus l = .badRecord
      (launchDone s id = true → q.head? ≠ some id ∨ cmplRoom c = false → does (.launchComplete id) (fun t => (ctxAt t l.ctx).completed = q ∧ (id ∈ c.completed → t = s) ∧
        (quiet → id ∉ c.completed → (launchAt t id).state = .ended ∧ (launchAt t id).doneAt = s.gtick.toNat ∧ (launchAt t id).buckets = [] ∧ (launchAt t id).patterns = [] ∧ t.mem = s.mem))) ∧
      (launchDone s id = true → q.head? = some id → cmplRoom c = true → quiet → id < s.fresh →
        let k := mkey 4 (c.cmplbase.toNat + 32 * (c.cmpltail.toNat % c.cmplsize.toNat))
        does (.launchComplete id) (fun t => rdNat t k 8 = l.launchid.toNat ∧ rdNat t (k + 8) 8 = when_ % 2 ^ 64 ∧ rdByte t (k + 16) = BitVec.ofNat 8 (statusCode (reportStatus l)) ∧
          rdNat t (k + 17) 1 = (l.prio + if l.devRing then 128 else 0) % 256 ∧ (carries → rdNat t (k + 18) 2 = l.cause % 2 ^ 16) ∧ (¬carries → rdNat t (k + 18) 2 = 0) ∧
          rdNat t (k + 20) 4 = l.code.toNat ∧ (reportStatus l = .engineFault → rdNat t (k + 24) 8 = l.frec.toNat) ∧ (reportStatus l ≠ .engineFault → rdNat t (k + 24) 8 = 0) ∧
          (∀ j, j < k ∨ k + 32 ≤ j → rdByte t j = rdByte s j) ∧ (ctxAt t l.ctx).cmpltail = c.cmpltail + 1 ∧
          (ctxAt t l.ctx).completed = q.drop 1 ∧ tGet? t.launches id = none)))

/-- R13, R23, R322, R323, R333 to R335, R366: the host link. Bring-up goes from state to state, and fails with its code; a context is enabled and disabled; power, clock and GTICK change; the host stores
into its own memory. Package reset leaves the host's memory and nothing else, the dies' memory being 0 then (the model's choice, assumption 4); what the Foreman writes into an entry that no rule
gives, and that a rewrite of CTXCTL changes the register alone, are assumption 45.
R317, R322, R323, R328, R334, R344, R358: the registers that have no behaviour of their own. ACCEPT and FWADDR in LINKUP; in READY the context blocks, writable but for CMPLHEAD while the context is
disabled only, the package number while none is enabled, and the translation and reliability blocks. Elsewhere nothing changes. -/
def Obligations.HostEvents : Prop :=
  (∀ (s : State) (ctx : Nat) (x : W32),
      let does (i : Instr) (P : State → Prop) : Prop := ∃ t, exec i s = .next t ∧ P t
      does .packageReset (fun t => { t with mem := [], agenda := [], choices := 0, free := 0 } = State.reset ∧ ∀ k, rdByte t k = if 4 * 2 ^ 52 ≤ k then rdByte s k else 0) ∧
      exec .linkTrained s = .next (if s.pkg = .reset then { s with pkg := .linkup } else s) ∧
      exec .firmwareLoad s = .next (if s.pkg = .linkup then { s with pkg := .firmware, fwcmd := 1 } else s) ∧
      (∀ f : Fin 3, exec (.firmwareVerified f) s = .next (if s.pkg = .firmware then (if f = 0 then { s with pkg := .meminit } else { s with pkg := .failed, failCode := f.val }) else s)) ∧
      (∀ (cores : BitVec 192) (answer : Bool),
        (s.pkg ≠ .meminit → exec (.memoryInitDone cores answer) s = .next s) ∧
        (s.pkg = .meminit → answer = false → exec (.memoryInitDone cores answer) s = .next { s with pkg := .failed, failCode := 3 }) ∧
        (s.pkg = .meminit → answer = true → cores = 0 → exec (.memoryInitDone cores answer) s = .next { s with pkg := .failed, failCode := 4 }) ∧
        (s.pkg = .meminit → answer = true → cores ≠ 0 → does (.memoryInitDone cores answer) (fun t => t.pkg = .ready ∧ t.coremap = cores ∧
          (∀ k, rdByte t k = if 4 * 2 ^ 52 ≤ k then rdByte s k else 0) ∧ (∀ k, k < 4 * 2 ^ 52 → byteClassOf t k = .proof) ∧ ∀ p ∈ t.poison, 4 * 2 ^ 52 ≤ p.1))) ∧
      (s.pkg ≠ .ready ∨ 1024 ≤ ctx ∨ bit x.toNat 31 = false → exec (.contextEnable ctx x) s = .next s) ∧
      (s.pkg = .ready → ctx < 1024 → bit x.toNat 31 = true →
        (ctxEnabled (ctxAt s ctx) = true → exec (.contextEnable ctx x) s = .next (modCtx s ctx (fun c => { c with ctxctl := x &&& 0x8000FFFF#32 }))) ∧
        (ctxEnabled (ctxAt s ctx) = false → (∀ o, o < 5 → (nth {} s.trblks o).ctxbase.toNat % 2 ^ 16 = 0) →
          -- the context is loaded: its ASID and VMID, and its entry at every owner and the Cudin port (R310)
          let asid := x.toNat % 2 ^ 10
          let vmid := x.toNat / 2 ^ 10 % 2 ^ 6
          let entry (o : Nat) : Nat := mkey o ((nth {} s.trblks o).ctxbase.toNat + 32 * (vmid * 1024 + asid))
          does (.contextEnable ctx x) (fun t => ctxAt t ctx = { ctxAt s ctx with ctxctl := x &&& 0x8000FFFF#32, asid := asid, vmid := vmid } ∧ t.groups = s.groups ∧
            -- aligned roots, at most 4,096 regions, reserved bits 0; the rest nothing fixes
            (∀ o, o < 5 → rdNat t (entry o) 8 % 2 ^ 16 < 2 ∧ rdNat t (entry o) 8 < 2 ^ 52 ∧ rdNat t (entry o + 8) 8 % 2 ^ 16 = 0 ∧ rdNat t (entry o + 8) 8 < 2 ^ 52 ∧
              rdNat t (entry o + 16) 8 < 2 ^ 52 ∧ rdNat t (entry o + 24) 2 ≤ 4096 ∧ rdNat t (entry o + 26) 6 = 0) ∧ ∀ j, (∀ o, o < 5 → j < entry o ∨ entry o + 32 ≤ j) → rdByte t j = rdByte s j))) ∧
      (ctxEnabled (ctxAt s ctx) = false ∨ bit x.toNat 31 = true → exec (.contextDisable ⟨ctx, x⟩) s = .next s) ∧
      (ctxEnabled (ctxAt s ctx) = true → bit x.toNat 31 = false → does (.contextDisable ⟨ctx, x⟩) (fun t => (ctxAt t ctx).ctxctl = x &&& 0xFFFF#32 ∧ t.groups = s.groups ∧
        (∀ k, k < 4 → (portAt t ctx k).session = false) ∧
        ∀ k, (coreAt s k).ctx = some ctx → (coreAt s k).preempt = none → coreAt t k = { coreAt s k with preempt := some s.gtick.toNat })) ∧
      exec (.powerLimitWrite x) s = .next (if s.pkg = .ready then { s with pwrlim := if x.toNat < 600 then 600 else if 2200 < x.toNat then 2200 else x } else s) ∧
      (∀ mhz, exec (.clockChange mhz) s = .next (if mhz % 100 = 0 ∧ 100 ≤ mhz ∧ mhz ≤ 3600 then
        { s with coreclk := BitVec.ofNat 32 mhz, clkchg := s.clkchg + 1 } else s)) ∧
      -- a tick is counted once it has passed, and the samples of the one that ends are made
      (let due : Prop := s.stopped = false ∧ stopDue s = false ∧ tickUnits ≤ s.phase ∧ samplesBy s sampleOwed = []
       (due → does .gtickAdvance (fun t => t.gtick = s.gtick + 1 ∧ t.phase = s.phase - tickUnits ∧
          { t with gtick := s.gtick, phase := s.phase, pwrnow := s.pwrnow, free := s.free } = s ∧
          (t.gtick.toNat % 1200000 ≠ 0 → t.pwrnow = s.pwrnow) ∧ (t.gtick.toNat % 1200000 = 0 → t.pwrnow.toNat ≤ s.pwrlim.toNat))) ∧
        (¬due → exec .gtickAdvance s = .next s)) ∧
      (∀ addr, exec (.hostMemoryAccess addr .read) s = .next s) ∧
      (∀ addr (bs : List Byte), addr + bs.length ≤ 2 ^ 52 →
        let lands (acc : HostAccess) : Prop := does (.hostMemoryAccess addr acc) (fun t => rdBytes t (mkey 4 addr) bs.length = bs ∧ { t with mem := s.mem } = s ∧
          ∀ j, j < mkey 4 addr ∨ mkey 4 addr + bs.length ≤ j → rdByte t j = rdByte s j)
        (addr % 8 + bs.length ≤ 8 → lands (.store bs)) ∧ ((bs.length = 4 ∨ bs.length = 8) → addr % bs.length = 0 → lands (.atomic bs)))) ∧
  (∀ (s : State) (ofs : Nat) (x : W64),
      let w : W32 := x.setWidth 32
      let gives (t : State) : Prop := exec (.registerWrite ofs x) s = .next t
      (s.pkg ≠ .linkup → s.pkg ≠ .ready → gives s) ∧
      (s.pkg = .linkup → (∀ k, k < 4 → ofs = 0x10 + 4 * k → gives { s with accept := setNth s.accept k (w &&& nth 0 s.feat k) }) ∧ (ofs = 0x28 → gives { s with fwaddr := x }) ∧
        (ofs = 0x30 → gives (if w = 1 then s else { s with fwcmd := w })) ∧ (ofs < 0x10 ∨ 0x30 < ofs → gives s)) ∧
      (s.pkg = .ready →
        (ofs = 0x50 → w.toNat % 512 < 384 → (∀ c ∈ s.ctxs, ctxEnabled c.2 = false) → gives { s with pkgnum := w &&& 0x1FF#32 }) ∧
        (ofs = 0x50 → 384 ≤ w.toNat % 512 ∨ (∃ c ∈ s.ctxs, ctxEnabled c.2 = true) → gives s) ∧
        (∀ n, n < 1024 →
          let at_ (r : Nat) : Prop := ofs = 0x10000 + 0x1000 * n + r
          let sets (r : Nat) (f : Ctx → Ctx) : Prop := at_ r → (ctxEnabled (ctxAt s n) = true → gives s) ∧ (ctxEnabled (ctxAt s n) = false → gives (modCtx s n f))
          (bit w.toNat 31 = true → at_ 0 → gives s) ∧
          (bit w.toNat 31 = false → at_ 0 → ∃ t, gives t ∧ (ctxAt t n).ctxctl = w &&& 0xFFFF#32 ∧ (ctxEnabled (ctxAt s n) = false → t = modCtx s n (fun c => { c with ctxctl := w &&& 0xFFFF#32 }))) ∧
          sets 0x08 (fun c => { c with quantum := x }) ∧ sets 0x10 (fun c => { c with deadline := x }) ∧ sets 0x18 (fun c => { c with tapecap := w }) ∧
          sets 0x20 (fun c => { c with savebase := x }) ∧ sets 0x28 (fun c => { c with savecnt := w }) ∧ sets 0x30 (fun c => { c with hvec := x }) ∧
          sets 0x38 (fun c => { c with cmplbase := x }) ∧ sets 0x40 (fun c => { c with cmplsize := w }) ∧
          (at_ 0x48 → gives (modCtx s n (fun c => { c with cmplhead := w }))) ∧
          (∀ p, p < 8 → sets (0x100 + 32 * p) (fun c => { c with rings := modNth c.rings p (fun q => { q with base := x }) }) ∧
            sets (0x108 + 32 * p) (fun c => { c with rings := modNth c.rings p (fun q => { q with size := w }) })) ∧
          (∀ r, r < 0x1000 → 0x200 ≤ r → at_ r → gives s)) ∧
        (∀ n k, n < 1024 → k < 4 →
          let p := portAt s n k
          let at_ (r : Nat) : Prop := ofs = 0x800000 + 0x1000 * n + 0x400 * k + r
          let sets (r : Nat) (ok : Prop) (f : Port → Port) : Prop := at_ r → (ok → gives (modPort s n k f)) ∧ (¬ok → gives s)
          let free : Prop := True
          let halts : Prop := bit p.prights.toNat 0 = true
          let samples : Prop := bit p.prights.toNat 4 = true
          sets 0x10 free (fun p => { p with dsel := x &&& 0xFFFFFFFF#64 }) ∧ sets 0x18 free (fun p => { p with ddata := x }) ∧ sets 0x20 free (fun p => { p with dlaunch := x }) ∧
          sets 0x28 halts (fun p => { p with dctl := w &&& 3#32 }) ∧ sets 0x30 halts (fun p => { p with waddr0 := x }) ∧ sets 0x38 halts (fun p => { p with waddr1 := x }) ∧
          sets 0x40 halts (fun p => { p with wcfg := w &&& 0x7F7F#32 }) ∧ sets 0x50 (p.session = false) (fun p => { p with trbase := x }) ∧
          sets 0x58 (p.session = false) (fun p => { p with trsize := w }) ∧ sets 0x60 free (fun p => { p with trhead := w }) ∧
          sets 0x68 samples (fun p => { p with speriod := clampPeriod w }) ∧ sets 0x6C samples (fun p => { p with score := w })) ∧
        (0x410000 ≤ s.trblk.toNat → s.trblk.toNat + 0x1000 ≤ 0x800000 →
          let at_ (r : Nat) : Prop := ofs = s.trblk.toNat + r
          (∀ o, o < 5 → (at_ (0x100 * o) → gives { s with trblks := modNth s.trblks o (fun b => { b with ctxbase := x &&& 0xFFFFFFFFFFFF0000#64 }) }) ∧
            (at_ (0x100 * o + 8) → gives { s with trblks := modNth s.trblks o (fun b => { b with tinva := x }) })) ∧
          (at_ 0x810 → gives { s with elbase := x }) ∧ (at_ 0x818 → gives { s with elsize := w }) ∧ (at_ 0x820 → gives { s with elhead := w })))) ∧
  -- reads: PKGSTATE, and offsets that no table lists
  (∀ s : State, 0x410000 ≤ s.trblk.toNat → s.trblk.toNat + 0x1000 ≤ 0x800000 →
      let code : Nat := match s.pkg with
        | .reset => 0 | .linkup => 1 | .firmware => 2 | .meminit => 3 | .ready => 4 | .failed => 7
      hostRead s 0x20 = BitVec.ofNat 64 (code + s.failCode % 256 * 256) ∧ hostRead s 0x38 = s.pwrnow.setWidth 64 ∧ hostRead s 0x3C = s.coreclk.setWidth 64 ∧
      (∀ ofs, 0x54 ≤ ofs → ofs < 0x2000 → hostRead s ofs = 0) ∧
      ∀ n, n < 1024 → hostRead s (0x10000 + 0x1000 * n) = (ctxAt s n).ctxctl.setWidth 64 ∧ hostRead s (0x10044 + 0x1000 * n) = (ctxAt s n).cmpltail.setWidth 64 ∧
        ∀ r, 0x200 ≤ r → r < 0x1000 → hostRead s (0x10000 + 0x1000 * n + r) = 0)

/-- R170, R171, R317, R320: invalidations and their ends. A write of TINVC with GO while it reads 1 does nothing; otherwise GO, the scope, ASID and VMID stand until nothing in the scope is on its way,
and then no held translation of the scope is left, and the frames of a page that is evicted are in its backing page. `icinv` and `lmap` end. -/
def Obligations.Invalidations : Prop :=
  ∀ (s : State) (owner asid vmid id : Nat), owner < 5 → s.trblks.length = 5 →
    let does (i : Instr) (P : State → Prop) : Prop := ∃ t, exec i s = .next t ∧ P t
    let blk (t : State) : TrBlk := nth {} t.trblks owner
    let held (t : State) (o : Nat) : List TlbEnt := (tGet? t.tlbs o).getD []
    let starts (i : Instr) (scope a v : Nat) : Prop :=
      (tinvGo (blk s).tinvc = true ∨ s.pkg ≠ .ready → exec i s = .next s) ∧
      (tinvGo (blk s).tinvc = false → s.pkg = .ready → does i (fun t => tinvGo (blk t).tinvc = true ∧ tinvScope (blk t).tinvc = scope ∧ tinvAsid (blk t).tinvc = a % 1024 ∧ tinvVmid (blk t).tinvc = v % 64 ∧
        (blk t).tinva = (blk s).tinva ∧ (blk t).ctxbase = (blk s).ctxbase ∧ (blk t).span = tinvSpan s owner (v % 64) (a % 1024) (ptrOfs (blk s).tinva) ∧
        (blk t).span.1 ≤ ptrOfs (blk s).tinva ∧ ptrOfs (blk s).tinva < (blk t).span.1 + (blk t).span.2 ∧ t.mem = s.mem ∧
        (∀ o, o ≠ owner → nth {} t.trblks o = nth {} s.trblks o) ∧ t.tlbs = s.tlbs))
    starts (.invalidatePage owner asid vmid) 0 asid vmid ∧ starts (.invalidateAsid owner asid vmid) 1 asid vmid ∧ starts (.invalidateVmid owner vmid) 2 0 vmid ∧
    starts (.invalidateAll owner) 3 0 0 ∧
    (invalDone s owner = false → exec (.invalidationComplete owner) s = .next s) ∧
    (invalDone s owner = true → does (.invalidationComplete owner) (fun t => tinvGo (blk t).tinvc = false ∧ (∀ e ∈ held t owner, inScope (blk s) e = false) ∧ (∀ e ∈ held s owner, inScope (blk s) e = false → e ∈ held t owner) ∧
      t.groups = s.groups ∧ (∀ p ∈ t.evicts, p.2.owner ≠ owner) ∧ ∀ k v, s.evicts.filter (fun p => p.2.owner == owner) = [(k, v)] → owner < 4 → v.back % 4096 = 0 → v.frames.length ≤ 2 ^ 18 →
        (∀ x ∈ t.taken, ∀ f ∈ v.frames, overlaps x.1 x.2.1 (mkey owner f) 4096 = false) ∧ ∀ i f j, v.frames[i]? = some f → f % 4096 = 0 → j < 4096 → rdByte t (mkey 4 (v.back + 4096 * i + j)) = rdByte s (mkey owner f + j))) ∧
    (∀ x, tGet? s.icinvs id = some x →
      (icinvShort s x = true → exec (.icinvComplete id) s = .next s) ∧
      (icinvShort s x = false → does (.icinvComplete id) (fun t => tGet? t.icinvs id = none ∧ t.mem = s.mem ∧
        (∀ k, (coreAt s k).ctx = some x.ctx → ∀ w ∈ (coreAt t k).icache, w ∈ (coreAt s k).icache ∧
          overlaps (ptrPlace s w.va) (if w.bytes.isEmpty then longest else w.bytes.length) (ptrPlace s x.lo) x.n = false) ∧
        ∀ l, l ∈ x.lanes → (lane s x.uid l).st = .wait (.icinv id) → (lane t x.uid l).st = .run ∧ (lane t x.uid l).at_ = advancePos (lane s x.uid l).at_ (lane s x.uid l).ilen))) ∧
    (∀ x, tGet? s.lmaps id = some x → x.owner < 4 → (∀ b ∈ x.bits, b.2 < 8) → does (.lmapComplete id) (fun t => tGet? t.lmaps id = none ∧
      (∀ b ∈ x.bits, bit (rdByte t (mkey x.owner b.1)).toNat b.2 = x.val) ∧
      (∀ k n, k < 4 * 2 ^ 52 → n < 8 → (∀ b ∈ x.bits, mkey x.owner b.1 ≠ k ∨ b.2 ≠ n) → bit (rdByte t k).toNat n = bit (rdByte s k).toNat n) ∧
      ∀ l, l ∈ x.lanes → (lane s x.uid l).st = .wait (.lmap id) → (lane t x.uid l).st = .run ∧ (lane t x.uid l).at_ = advancePos (lane s x.uid l).at_ (lane s x.uid l).ilen))

/-- R204, R337, R338, R340 to R344, R346 to R349, R353: errors and what the device does about them. An error in storage is noted, poisons its sector or word, or flips bits, by its class and kind; a
pipe that erred runs its set again from the restart points; a core that is lasting-faulty is fenced with its gangs saved; the network stops and resumes; a launch is replayed from its snapshots. -/
def Obligations.ReliabilityEvents : Prop :=
  ∀ (s : State) (flips : BitVec 288) (core : Nat),
    let does (i : Instr) (P : State → Prop) : Prop := ∃ t, exec i s = .next t ∧ P t
    let err (p : ErrPlace) (k : ErrKind) (P : State → Prop) : Prop := does (.storageError p k flips) P
    let stamped (t : State) (kind unit : Nat) : Prop := 1 ≤ s.fwt.toNat → (windowOf t kind unit).getLast? = some s.gtick.toNat
    let devSame (t : State) : Prop := ∀ k, k < 4 * 2 ^ 52 → rdByte t k = rdByte s k
    let noted (t : State) (p : ErrPlace) (k : ErrKind) : Prop := ({ place := p, kind := k } : ErrMark) ∈ t.errors
    let flipped (t : State) (a n : Nat) : Prop := ∀ i, i < n → rdByte t (a + i) = rdByte s (a + i) ^^^ BitVec.ofNat 8 (flips.toNat / 2 ^ (8 * i))
    (∀ a n k, a < 4 * 2 ^ 52 →
      let cls := byteClassOf s a
      -- a sector of a page that lies there, outside the tables
      let strikes : Prop := onGrid s cls a n = true ∧ ∀ i, i < n → inTables s (a + i) = false
      (¬strikes → exec (.storageError (.hbm a n) k flips) s = .next s) ∧
      (strikes →
        (k = .detected → cls ≠ .draft → err (.hbm a n) k (fun t => (a, n) ∈ t.poison ∧ noted t (.hbm a n) k ∧ t.mem = s.mem)) ∧
        (k = .corrected → cls = .proof → err (.hbm a n) k (fun t => t.poison = s.poison ∧ noted t (.hbm a n) k ∧ t.mem = s.mem)) ∧
        (k = .corrected → cls = .check → exec (.storageError (.hbm a n) k flips) s = .next s) ∧
        (k = .miscorrected ∨ cls = .draft → err (.hbm a n) k (fun t => t.poison = s.poison ∧ flipped t a n)))) ∧
    -- a word of a table carries SECDED in any page
    (∀ a k, inTables s a = false → exec (.storageError (.table a) k flips) s = .next s) ∧
    (∀ a, a < 4 * 2 ^ 52 → a % 4 = 0 → inTables s a = true → err (.table a) .detected (fun t => (a, 4) ∈ t.poison ∧ noted t (.table a) .detected ∧ t.mem = s.mem) ∧
      err (.table a) .corrected (fun t => t.poison = s.poison ∧ noted t (.table a) .corrected ∧ t.mem = s.mem) ∧ err (.table a) .miscorrected (fun t => t.poison = s.poison ∧ flipped t a 4)) ∧
    (∀ u l n, l < (grp s u).lanes.length → l < 32 → n < 128 →
      err (.reg u l n) .corrected (fun t => n ∈ (lane t u l).vmark ∧ (lane t u l).v = (lane s u l).v ∧ (lane t u l).vpois = (lane s u l).vpois) ∧
      err (.reg u l n) .miscorrected (fun t => n ∈ (lane t u l).vmark ∧ getReg (lane t u l) n = getReg (lane s u l) n ^^^ flips.setWidth 32) ∧
      err (.reg u l n) .detected (fun t => n ∈ (lane t u l).vpois ∧ n ∈ (lane t u l).vmark ∧ (lane t u l).v = (lane s u l).v ∧ t.mem = s.mem)) ∧
    (∀ k g, tGet? s.gangs k = some g →
      (∀ a, a < 4096 * g.tiles → g.kclass ≠ .draft → err (.scratch k a) .detected (fun t => poisoned (gangAt t k).scratchPois a 1 = true ∧ (gangAt t k).scratch = g.scratch ∧
        noted t (.scratch k (a / 4096 * 4096 + (sectorOf g.kclass 4096 (a % 4096)).1)) .detected)) ∧
      (∀ w, w < 256 * g.accrows → err (.acc k w) .detected (fun t => w ∈ (gangAt t k).accPois ∧ noted t (.acc k w) .detected) ∧
        err (.acc k w) .corrected (fun t => (gangAt t k).acc = g.acc ∧ (gangAt t k).accPois = g.accPois ∧ noted t (.acc k w) .corrected) ∧
        err (.acc k w) .miscorrected (fun t => smGet 0 (gangAt t k).acc w = smGet 0 g.acc w ^^^ flips.setWidth 32)) ∧
      (∀ n c, n < g.banks.length → c < 65536 → err (.bank k n c) .detected (fun t => c / 4 * 4 ∈ (nth {} (gangAt t k).banks n).pois ∧ noted t (.bank k n (c / 4 * 4)) .detected))) ∧
    (∀ u l a, l < (grp s u).lanes.length → l < 32 → a < (gangOf s u).privsz → (gangOf s u).kclass ≠ .draft →
      err (.priv u l a) .detected (fun t => poisoned (lane t u l).privPois a 1 = true ∧ (lane t u l).priv = (lane s u l).priv ∧
        noted t (.priv u l (sectorOf (gangOf s u).kclass (gangOf s u).privsz a).1) .detected)) ∧
    (∀ stack, does (.scrub stack) (fun t => (∀ e, e ∈ t.errors ↔ e ∈ s.errors ∧ onStack s stack e = false) ∧ devSame t ∧ t.groups = s.groups ∧
      ((∃ e ∈ s.errors, onStack s stack e = true) → stamped t 3 stack))) ∧
    -- a pipe strikes the set that it issues now, or a scoreboarded result before it is written
    (∀ slot u,
      let again (t : State) (l : Nat) : Prop :=
        let old := lane s u l
        let r := curRec (takeCommits old)
        (lane t u l).st = .run ∧ (lane t u l).at_ = restartPos s (vmidOf s (ctxOf s u)) (asidOf s (ctxOf s u)) old.mode r.regpc r.reghdr ∧
          (lane t u l).h0 = r.h0 ∧ (lane t u l).h1 = r.h1 ∧ (lane t u l).srcnt = r.srcnt
      groupAt s core slot = some u →
      ((∀ t0 x, pipeTurn s core (slot % 4) ≠ some (t0, some (u, x))) → exec (.pipeError core ⟨slot, 0⟩) s = .next s) ∧
      (∀ t0 x, pipeTurn s core (slot % 4) = some (t0, some (u, x)) → slot % 4 < (coreAt s core).issued.length → does (.pipeError core ⟨slot, 0⟩) (fun t =>
        nth false (coreAt t core).issued (slot % 4) = true ∧ devSame t ∧ stamped t 0 core ∧ ∀ l ∈ x.lanes, l < (grp s u).lanes.length → again t l)) ∧
      (∀ id p, id ≠ 0 → tGet? (grp s u).pend id = some p → p.since ≠ [] → p.since.all (sameRegion s u id) = true → does (.pipeError core ⟨slot, id⟩) (fun t =>
        tGet? (grp t u).pend id = none ∧ devSame t ∧ stamped t 0 core ∧ ∀ x ∈ p.since, x.lane < (grp s u).lanes.length → (lane t u x.lane).st = .run ∧
          (p.stores = [] → again t x.lane)))) ∧
    (∀ c, pressRuns s core 5 = none → pressRuns s core 4 = some c → exec (.enginePipeError 1 core) s = .next (relEvent s 3 1 core 0xFF 0 (some c.2.by_.launch))) ∧
    (∀ b, pressRuns s core 5 = some b → pressRuns s core 4 = none → exec (.enginePipeError 1 core) s = .next (bankAgain (relEvent s 3 1 core 0xFF 0 (some b.2.by_.launch)) b.1 b.2)) ∧
    (∀ b c, pressRuns s core 5 = some b → pressRuns s core 4 = some c →
      let w : State := { s with free := s.free + 1 }
      exec (.enginePipeError 1 core) s = .next (bankAgain (relEvent w 3 1 core 0xFF 0 (some b.2.by_.launch)) b.1 b.2) ∨
      exec (.enginePipeError 1 core) s = .next (relEvent w 3 1 core 0xFF 0 (some c.2.by_.launch))) ∧
    -- a plate unit's event is charged to a launch for which it works
    (∀ unit, unit < 8 → ∃ k, (plateWork s unit = [] → k = none) ∧ (plateWork s unit ≠ [] → k ∈ plateWork s unit) ∧
      exec (.enginePipeError 3 unit) s = .next (relEvent { s with free := s.free + 1 } 3 3 unit 0xFF 0 k)) ∧
    (∀ unit, 8 ≤ unit → exec (.enginePipeError 3 unit) s = .next s) ∧
    (∀ kind unit, kind ≠ 1 → kind ≠ 3 → exec (.enginePipeError kind unit) s = .next s) ∧
    (∀ x : W64, exec (.faultWindowWrite true x) s = .next { s with fwt := BitVec.ofNat 32 (max 1 (min 16 (x.toNat % 2 ^ 32))), windows := [] } ∧
      exec (.faultWindowWrite false x) s = .next { s with fwwin := BitVec.ofNat 64 (max 1 (min (2 ^ 48) x.toNat)), windows := [] }) ∧
    -- steps 1 and 2 of a fencing, then step 3 once the gangs are saved
    ((coreAt s core).fenced = false → coreFaulty s core = false ∨ corePresent s core = false → exec (.coreFence core) s = .next s) ∧
    ((coreAt s core).fenced = true → s.coremap.getLsbD core = false ∨ fenceSaved s core = false → exec (.coreFence core) s = .next s) ∧
    ((coreAt s core).fenced = true → s.coremap.getLsbD core = true → fenceSaved s core = true → ∃ m, exec (.coreFence core) s = .next (logEvent m 4 0 core 0xFF 0 0) ∧
      devSame m ∧ ∀ k, m.coremap.getLsbD k = (s.coremap.getLsbD k && k != core)) ∧
    (coreFaulty s core = true → corePresent s core = true → does (.coreFence core) (fun t => t.coremap = s.coremap ∧ (coreAt t core).fenced = true ∧ devSame t ∧
      (∀ k g, tGet? s.gangs k = some g → g.core = core → (gangAt t k).moved = true ∧
        ∀ u n, (grp s u).gang = k → (tGet? s.groups u).isSome = true → (grp s u).place = .resident n → (grp s u).ended = false → (grp t u).place = .saving n .fencing))) ∧
    (∀ die router cut, die < 4 → router < 64 → die * 64 + router ∉ s.deadRouters → exec (.routerDown die router cut) s = .next { s with
      deadRouters := s.deadRouters ++ [die * 64 + router], netStopped := true, reroutes := s.reroutes ++ [(5, 4, die * 64 + router, cut)] }) ∧
    (∀ kind unit, (kind = 5 ∧ unit < 6) ∨ (kind = 6 ∧ unit < 16) → kind * 1024 + unit ∉ s.deadLinks → exec (.linkDown kind unit) s = .next { s with
      deadLinks := s.deadLinks ++ [kind * 1024 + unit], netStopped := true, reroutes := s.reroutes ++ [(6, kind, unit, [])] }) ∧
    does .networkResume (fun t => t.netStopped = false ∧ t.reroutes = [] ∧ devSame t ∧ ∀ r ∈ s.reroutes, ∀ c ∈ r.2.2.2, corePresent t c = false) ∧
    (∀ id l, tGet? s.launches id = some l →
      (l.replayDue = false → exec (.replay id) s = .next s) ∧
      (l.replayDue = true → does (.replay id) (fun t => (∀ p ∈ s.gangs, p.2.launch = id → tGet? t.gangs p.1 = none) ∧ (launchAt t id).state = .running ∧ (launchAt t id).placed = [] ∧
        (launchAt t id).launchid = l.launchid ∧ (launchAt t id).replays = l.replays + 1 ∧ (launchAt t id).replayDue = false ∧ (launchAt t id).snapArmed = true ∧ (launchAt t id).snaps = [] ∧
        (launchAt t id).corrBudget = l.corrBudget ∧ (launchAt t id).detBudget = l.detBudget ∧
        -- that an error was not containable stays known
        (launchAt t id).statuses = l.statuses.filter (fun x => x = .uncontained) ∧
        (l.snaps.Pairwise (fun a b => overlaps a.key a.size b.key b.size = false) → ∀ p ∈ l.snaps, (∀ q ∈ l.snaps, q.key + q.size ≤ 4 * 2 ^ 52 ∧ Memory.wf q.bytes = true ∧
            ∀ c ∈ q.bytes, q.key ≤ c.1 ∧ c.1 < q.key + q.size) →
          ∀ k, p.key ≤ k → k < p.key + p.size → rdByte t k = smGet 0 p.bytes k))))

/-- R356 to R368: the debug ports. A command runs under its right, or ends DENIED; HALT and RESUME act on the launches that DLAUNCH selects; READREG and WRITEREG act on the register that DSEL names;
sessions open and close; a right that goes takes with it what it held; the earliest tick asked for stops the package; samples go into the open session. -/
def Obligations.DebugEvents : Prop :=
  ∀ (s : State) (port : Nat) (x : W64), port < 4096 → s.pkg = .ready → (ctxAt s (port / 4)).ports.length = 4 →
    let n := port / 4
    let k := port % 4
    let does (i : Instr) (P : State → Prop) : Prop := ∃ t, exec i s = .next t ∧ P t
    let p := portAt s n k
    let now (t : State) : Port := portAt t n k
    let right (b : Nat) : Prop := bit p.prights.toNat b = true
    let keeps (b : Nat) : Prop := right b ∧ bit p.drights.toNat b = true
    let ends (t : State) (op stat : Nat) : Prop := (now t).dcmd = BitVec.ofNat 32 op ∧ (now t).dstat = BitVec.ofNat 32 stat
    let denied (i : Instr) (op : Nat) : Prop := exec i s = .next (modPort s n k (fun p => { p with dcmd := BitVec.ofNat 32 op, dstat := 2 }))
    let chosen (l : Nat) : Prop := ∃ L, (l, L) ∈ s.launches ∧ L.ctx = n ∧ (p.dlaunch = 0 ∨ p.dlaunch = L.launchid)
    let ln (t : State) (u : Nat) : Lane := lane t u (selLane p.dsel.toNat)
    let lost (b : Nat) : Prop := right b ∧ bit p.drights.toNat b = false
    let tick : Nat := if x.toNat ≤ s.gtick.toNat then (s.gtick + 1).toNat else x.toNat
    (¬right 0 → denied (.debugHalt port) 1 ∧ denied (.debugResume port) 2) ∧ (¬right 1 → denied (.readreg port) 3) ∧ (¬right 2 → denied (.writereg port) 4) ∧
    (¬right 3 → denied (.tropen port) 5 ∧ denied (.trclose port) 6) ∧
    (keeps 0 → does (.debugHalt port) (fun t => ends t 1 0 ∧ ∀ u, (tGet? s.groups u).isSome = true → chosen (launchOf s u) →
        k ∈ (grp t u).halted ∧ (grp t u).pend = []) ∧
      does (.debugResume port) (fun t => ends t 2 0 ∧ ∀ u, (tGet? s.groups u).isSome = true →
        (chosen (launchOf s u) → (grp t u).halted = (grp s u).halted.filter (fun m => m != k) ∧ ((grp t u).halted = [] → ∀ y ∈ (grp t u).lanes, y.broke = none)) ∧ (¬chosen (launchOf s u) → grp t u = grp s u))) ∧
    (keeps 1 →
      (selGroup s n p.dsel.toNat = none → does (.readreg port) (fun t => ends t 3 3 ∧ (now t).ddata = p.ddata)) ∧
      (∀ u, selGroup s n p.dsel.toNat = some u →
        (selReg p.dsel.toNat = .bad → does (.readreg port) (fun t => ends t 3 4 ∧ (now t).ddata = p.ddata)) ∧
        (∀ r, selReg p.dsel.toNat = .word r → r ∉ (ln s u).vpois → does (.readreg port) (fun t => ends t 3 0 ∧ (now t).ddata = (getReg (ln s u) r).setWidth 64 ∧ t.groups = s.groups)) ∧
        (∀ r, selReg p.dsel.toNat = .word r → r ∈ (ln s u).vpois → does (.readreg port) (fun t => ends t 3 5 ∧ (now t).ddata = 0)) ∧
        (∀ c, selReg p.dsel.toNat = .csr c → does (.readreg port) (fun t => ends t 3 0 ∧ (now t).ddata = BitVec.ofNat 64 (csrRead (gangOf s u).privsz (ln s u) c))))) ∧
    (keeps 2 →
      (selGroup s n p.dsel.toNat = none → does (.writereg port) (fun t => ends t 4 3 ∧ t.groups = s.groups)) ∧
      (∀ u, selGroup s n p.dsel.toNat = some u →
        (selReg p.dsel.toNat = .bad → does (.writereg port) (fun t => ends t 4 4 ∧ t.groups = s.groups)) ∧
        (∀ r, selReg p.dsel.toNat = .word r → selLane p.dsel.toNat < (grp s u).lanes.length → does (.writereg port) (fun t => ends t 4 0 ∧ ln t u = setReg (ln s u) r (p.ddata.setWidth 32))) ∧
        (∀ c, selReg p.dsel.toNat = .csr c → csrWritable (ln s u) c p.ddata.toNat = false → does (.writereg port) (fun t => ends t 4 4 ∧ t.groups = s.groups)) ∧
        (∀ c, selReg p.dsel.toNat = .csr c → csrWritable (ln s u) c p.ddata.toNat = true → selLane p.dsel.toNat < (grp s u).lanes.length → does (.writereg port) (fun t => ends t 4 0 ∧
          ln t u = csrWrite (gangOf s u).privsz u (selLane p.dsel.toNat) s.fresh (ln s u) c p.ddata.toNat)))) ∧
    (keeps 3 → does (.tropen port) (fun t => ends t 5 0 ∧ (now t).session = true ∧ (now t).trtail = p.trhead ∧ (now t).lost = 0) ∧
      does (.trclose port) (fun t => ends t 6 0 ∧ (now t).session = false)) ∧
    (∀ op, op < 16 → op = 0 ∨ 6 < op → exec (.badcmd port op) s = .next (modPort s n k (fun p => { p with dcmd := BitVec.ofNat 32 op, dstat := 6 }))) ∧
    exec (.rightsWrite port x) s = .next (modPort s n k (fun p => { p with drights := x &&& 0x3F#64 })) ∧
    (does (.rightsTakeEffect port) (fun t => (now t).prights = p.drights ∧ (now t).drights = p.drights ∧ (lost 3 → (now t).session = false) ∧ (¬lost 3 → (now t).session = p.session) ∧
        (lost 0 → (now t).dctl = 0 ∧ (now t).wcfg = 0 ∧ ∀ u L, (launchOf s u, L) ∈ s.launches → L.ctx = n → (tGet? s.groups u).isSome = true →
          (grp t u).halted = (grp s u).halted.filter (fun m => m != k)) ∧
        (¬lost 0 → (now t).dctl = p.dctl ∧ (now t).wcfg = p.wcfg ∧ t.groups = s.groups) ∧ (lost 4 → (now t).speriod = 0) ∧ (¬lost 4 → (now t).speriod = p.speriod))) ∧
    (¬right 5 → exec (.stopatWrite port x) s = .next s) ∧
    (right 5 → does (.stopatWrite port x) (fun t => (now t).stopat = x ∧ t.groups = s.groups ∧ ∃ y, t.stopAt = some y ∧ y.toNat = (match s.stopAt with
        | some u => min u.toNat tick
        | none => tick))) ∧
    ((∀ y, s.stopAt = some y → s.gtick.toNat < y.toNat) → exec .packageStop s = .next s) ∧
    (∀ y, s.stopAt = some y → y.toNat ≤ s.gtick.toNat → does .packageStop (fun t => t.stopped = true ∧ t.groups = s.groups ∧ ∀ c ∈ s.ctxs, ∀ j, j < 4 → (portAt t c.1 j).session = false)) ∧
    (∀ u, (sampleDue s port u = false → exec (.sample port u) s = .next s) ∧
      (sampleDue s port u = true → does (.sample port u) (fun t => t.groups = s.groups ∧ u ∈ (now t).sampled ∧ (now t).sampleTick = s.gtick.toNat + 1 ∧
        (p.session = true → p.lost = 0 → 0 < ringRoom p →
          rdBytes t (mkey 4 (p.trbase.toNat + 32 * (p.trtail.toNat % max 1 p.trsize.toNat))) 32 = sampleRecord s u ∧ (now t).trtail = p.trtail + 1) ∧
        (p.session = true → ringRoom p = 0 → (now t).trdrop = p.trdrop + 1 ∧ (now t).lost = p.lost + 1 ∧ t.mem = s.mem) ∧ (p.session = false → t.mem = s.mem))))

/-- R13, R167, R317, R322, R323, R334, R344, R356, R367: what package reset leaves, as the register tables give it; the reset state's memory is in its canonical form. -/
def Obligations.ResetState : Prop :=
  let s := State.reset
  Memory.wf s.mem = true ∧ s.stopped = false ∧ s.stopAt = none ∧ s.netStopped = false ∧
  -- the clock and the package block
  s.gtick = 0 ∧ s.coreclk = 3600 ∧ s.clkchg = 0 ∧ s.accept = [0, 0, 0, 0] ∧ s.pkg = .reset ∧ s.failCode = 0 ∧ s.fwaddr = 0 ∧ s.fwcmd = 0 ∧ s.pwrlim = 2200 ∧
  s.pwrnow = 0 ∧ s.pkgnum = 0 ∧
  -- the reliability block and the translation blocks
  s.fwwin = 0x40000000 ∧ s.fwt = 3 ∧ s.elbase = 0 ∧ s.elsize = 0 ∧ s.eltail = 0 ∧ s.elhead = 0 ∧ s.eldrop = 0 ∧
  (∀ o, o < 5 → let b := nth {} s.trblks o; b.ctxbase = 0 ∧ b.tinva = 0 ∧ b.tinvc = 0) ∧
  -- every context block, its rings and its debug ports
  (∀ n,
    let c := ctxAt s n
    c.ctxctl = 0 ∧ c.quantum = 0 ∧ c.deadline = 0 ∧ c.tapecap = 0 ∧ c.savebase = 0 ∧ c.savecnt = 0 ∧ c.hvec = 0 ∧ c.cmplbase = 0 ∧ c.cmplsize = 0 ∧ c.cmpltail = 0 ∧
    c.cmplhead = 0 ∧ c.tape = [] ∧ ctxEnabled c = false ∧
    (∀ p, p < 8 → let r := nth {} c.rings p; r.base = 0 ∧ r.size = 0 ∧ r.head = 0 ∧ r.tail = 0 ∧ r.dev = []) ∧
    ∀ k, k < 4 → let p := portAt s n k
      p.drights = 0 ∧ p.prights = 0 ∧ p.dcmd = 0 ∧ p.dstat = 0 ∧ p.dsel = 0 ∧ p.ddata = 0 ∧ p.dlaunch = 0 ∧ p.dctl = 0 ∧ p.waddr0 = 0 ∧ p.waddr1 = 0 ∧ p.wcfg = 0 ∧
      p.stopat = 0 ∧ p.trbase = 0 ∧ p.trsize = 0 ∧ p.trtail = 0 ∧ p.trhead = 0 ∧ p.trdrop = 0 ∧ p.speriod = 0 ∧ p.score = 0xFFFF ∧ p.session = false) ∧
  -- no work is on the device, and nothing is in error
  s.groups = [] ∧ s.gangs = [] ∧ s.cmds = [] ∧ s.tasks = [] ∧ s.launches = [] ∧ s.links = [] ∧ s.poison = [] ∧ s.errors = []

/-- R24, R33, R75 to R85: words of every group, written out from the encoding tables, and the instructions they stand for; a word with a reserved field is refused. -/
def Obligations.DecodeSamples : Prop :=
  let v (n : Fin 128) : Opnd := ⟨.v n, .ident⟩
  let short (w : Nat) : Decoded := decodeExact (beBytes 4 w)
  let long (w : Nat) : Decoded := decodeExact (beBytes 8 w)
  short 0x040A0B82 = .ok (.iaddShort (.v 5) (.v 5) (.imm 1)) ∧
  short 0x380E0406 = .ok (.icmpLtZ32Short (.v 7) (.v 2) (.v 3)) ∧
  long 0x8681C08001800102 = .ok (.icmp .lt .z32 (.v 7) (v 2) (v 3)) ∧
  long 0x938080401FE00040 = .ok (.fmai .dyn (.v 2) (v 1) 0x3FC00) ∧
  long 0x91C1010000001800 = .ok (.shli .i32 (.v 4) (v 4) 3) ∧
  long 0x8C01808000000D04 = .ok (.cvt .fromF32 .e4m3 true .dyn (.v 6) (v 2)) ∧
  long 0x8C42008000000F00 = .ok (.quant .e2m3 .b16 false .dyn (.v 8) (v 2)) ∧
  long 0x8E84000002000A00 = .ok (.mmag .bf16 false .dyn 16 0 4) ∧
  long 0x9800C10060004052 = .ok (.ld .w ⟨.acqrel, .die⟩ (.v 3) 4 2 ⟨.imm 0, .ident⟩) ∧
  long 0xA00140806080400A = .ok (.aadd false ⟨.rlx, .die⟩ (.v 5) 2 0 ⟨.imm 1, .ident⟩) ∧
  long 0xA54000000000001B = .ok (.fence .sc .pkg) ∧
  long 0xB800000000000005 = .ok (.syscall 5) ∧
  long 0xB840000000000012 = .ok (.hcall 0x12) ∧
  long 0xB880000000000000 = .ok .tret ∧
  long 0xB8C2300000000201 = .ok (.sread (.v 8) .cblen (.imm 0)) ∧
  long 0xBA41000000000000 = .ok (.tick (.v 4)) ∧
  decodeExact (beBytes 8 0xF9BFFC8000001410 ++ beBytes 4 0x100) = .ok (.csrw .set .none .mstat (.lit 0x100)) ∧
  short 0x7E000000 = .reject .reserved ∧ long 0xA54000000000001D = .reject .reserved ∧ decodeExact [0x80] = .reject .truncated

/-- R12, R36, R189: a step runs the decoded instruction. Where the next move is the issue of a pipe, and the set that it takes has its word, valid and with every feature that it
needs, the step is exec of the instruction at that state, then the reconvergence point of a transfer, then what follows every step. Where it lacks stream elements that must be
sent for, it sends for them first (R52). A step of the device on the agenda is exec of it in the same way. -/
def Obligations.StepRunsDecoded : Prop :=
  ∀ (s : State) (rest : List Move), s.stopped = false → stopDue s = false →
    let s0 : State := { s with agenda := rest }
    (∀ (core pipe u : Nat) (x : ISet) (g : Group) (w : IWord) (i : Instr), s.agenda = .issue core pipe :: rest →
      nth false (coreAt s core).issued pipe = false → pipeReady s0 core pipe = true → pipeGroup s0 core pipe = some u → passedOver s0 core pipe = [] →
      chooseSet (grp s0 u) (pipeSets s0 core pipe u) = some (x, g) →
      let g1 : Group := { g with lastIssue := s.cycle + 1 }
      let s1 := modGrp (modCore s0 core (fun c => { c with issued := setNth c.issued pipe true })) u (fun _ => g1)
      let s2 := modCore s1 core (fun c => { c with rr := setNth c.rr pipe (slotNum s1 u) })
      setWord s2 u x = some w → w.st = .valid → decodeExact w.bytes = .ok i → lacks s i = none →
      let s3 := { s2 with cur := ⟨u, x.lanes, x.pc, w.bytes.length⟩ }
      let ends (t : State) : State := afterStep (recordPoint t u x i (setHeader s2 u x))
      -- the stream elements that it lacks; those that have come are used up
      let sends := streamSends s3 u x.lanes (srcs (longForm i)) (readsT (longForm i)) s3.fresh
      let s4 := if x.lanes.any (fun l => !(lane s3 u l).qgot.isEmpty) then modLanes s3 u x.lanes (fun _ ln => { ln with flight := none }) else s3
      (sends = [] → step s = (match exec i (meetMarks s4 u x.lanes (longForm i)) with
        | .next t => .next (ends (dropGot t u x.lanes))
        | .fault f => .fault f
        | .refused r => .refused r)) ∧
      (sends ≠ [] → step s = .next (ends (sendStreams { s3 with fresh := s3.fresh + 1 } sends s3.fresh)))) ∧
    (∀ i, s.agenda = .event i :: rest → isEvent i = true → step s = (match exec i s0 with
      | .next t => .next (afterStep t)
      | .fault f => .fault f
      | .refused r => .refused r))

/-- R24, R33, R34, R74 to R86: decoding and encoding agree. Every well-formed instruction word has one encoding, and the decoder reads it back, whatever follows it in the stream;
whatever the decoder accepts is well-formed and is the encoding of what it reads. -/
def Obligations.DecodeEncodeAgree : Prop :=
  (∀ i : Instr, i.WellFormed → isEvent i = false → ∃ bs, encode i = some bs ∧ decodeExact bs = .ok i ∧ ∀ rest, decode (bs ++ rest) = (.ok i, bs.length)) ∧
  (∀ (bs : List Byte) (i : Instr), decodeExact bs = .ok i → encode i = some bs ∧ i.WellFormed ∧ isEvent i = false)

/-- The invariant of memory: every step keeps its canonical form, so that memories that read the same everywhere are the same data. -/
def Obligations.MemoryStaysCanonical : Prop :=
  ∀ (s t : State), Memory.wf s.mem = true → step s = .next t → Memory.wf t.mem = true ∧
    ∀ m : List Host.Cell, Memory.wf m = true → (∀ k, smGet memDefault m k = rdByte t k) → m = t.mem
end

