-- ==== Sys2Proof/Laws/Containers.lean ====
section
/-! SUPPORT. Lemmas of the sparse maps, the tables and the lists of State: read after write, and that sets keep the canonical form. -/

namespace Sys2Proof.Machine

/-! ### Lists -/

@[simp] theorem nth_nil {α : Type} (d : α) (i : Nat) : nth d [] i = d := by cases i <;> rfl
@[simp] theorem nth_zero {α : Type} (d x : α) (t : List α) : nth d (x :: t) 0 = x := rfl
@[simp] theorem nth_succ {α : Type} (d x : α) (t : List α) (i : Nat) : nth d (x :: t) (i + 1) = nth d t i := rfl
@[simp] theorem modNth_nil {α : Type} (i : Nat) (f : α → α) : modNth [] i f = [] := by cases i <;> rfl

theorem nth_eq_getD {α : Type} (d : α) (l : List α) (i : Nat) : nth d l i = l.getD i d := by
  induction l generalizing i with
  | nil => simp
  | cons x t ih => cases i <;> simp [ih]

@[simp] theorem length_modNth {α : Type} (l : List α) (i : Nat) (f : α → α) : (modNth l i f).length = l.length := by
  induction l generalizing i with
  | nil => simp
  | cons x t ih => cases i <;> simp [modNth, ih]

@[simp] theorem length_setNth {α : Type} (l : List α) (i : Nat) (v : α) : (setNth l i v).length = l.length := length_modNth ..

theorem nth_modNth {α : Type} (d : α) (l : List α) (i j : Nat) (f : α → α) :
    nth d (modNth l i f) j = if i = j ∧ i < l.length then f (nth d l j) else nth d l j := by
  induction l generalizing i j with
  | nil => simp
  | cons x t ih =>
    cases i with
    | zero => cases j <;> simp [modNth]
    | succ i => cases j with
      | zero => simp [modNth]
      | succ j => simp [modNth, ih]

theorem nth_setNth {α : Type} (d : α) (l : List α) (i j : Nat) (v : α) :
    nth d (setNth l i v) j = if i = j ∧ i < l.length then v else nth d l j := nth_modNth ..

/-- Lists of one length that read alike are equal. -/
theorem ext_nth {α : Type} (d : α) {l m : List α} (h : l.length = m.length) (e : ∀ i < l.length, nth d l i = nth d m i) : l = m := by
  induction l generalizing m with
  | nil => cases m <;> simp_all
  | cons x t ih =>
    cases m with
    | nil => simp at h
    | cons y u =>
      have h0 : x = y := e 0 (by simp)
      have ht : t = u := ih (by simpa using h) (fun i hi => e (i + 1) (by simpa using hi))
      rw [h0, ht]

/-! ### Tables -/

theorem tGet?_tMod {α : Type} (t : Table α) (k j : Nat) (f : α → α) :
    tGet? (tMod t k f) j = if k = j then (tGet? t j).map f else tGet? t j := by
  induction t with
  | nil => simp [tMod, tGet?]
  | cons p r ih =>
    obtain ⟨i, x⟩ := p
    by_cases hk : i = k
    · subst hk
      by_cases hj : i = j <;> simp [tMod, tGet?, hj]
    · by_cases hj : i = j
      · subst hj
        simp [tMod, tGet?, hk, Ne.symm hk]
      · simp [tMod, tGet?, hk, hj, ih]

@[simp] theorem tGet?_tMod_self {α : Type} (t : Table α) (k : Nat) (f : α → α) : tGet? (tMod t k f) k = (tGet? t k).map f := by
  simp [tGet?_tMod]

theorem tGet?_tMod_ne {α : Type} (t : Table α) {k j : Nat} (f : α → α) (h : k ≠ j) : tGet? (tMod t k f) j = tGet? t j := by
  simp [tGet?_tMod, h]

theorem tGet?_tPut {α : Type} (t : Table α) (k j : Nat) (v : α) : tGet? (tPut t k v) j = if k = j then some v else tGet? t j := by
  induction t with
  | nil => simp [tPut, tGet?]
  | cons p r ih =>
    obtain ⟨i, x⟩ := p
    by_cases hk : i = k
    · subst hk
      by_cases hj : i = j <;> simp [tPut, tGet?, hj]
    · by_cases hj : i = j
      · subst hj
        simp [tPut, tGet?, hk, Ne.symm hk]
      · simp [tPut, tGet?, hk, hj, ih]

@[simp] theorem tGet?_tPut_self {α : Type} (t : Table α) (k : Nat) (v : α) : tGet? (tPut t k v) k = some v := by simp [tGet?_tPut]

theorem tGet?_tPut_ne {α : Type} (t : Table α) {k j : Nat} (v : α) (h : k ≠ j) : tGet? (tPut t k v) j = tGet? t j := by
  simp [tGet?_tPut, h]

theorem tGet?_tDel {α : Type} (t : Table α) (k j : Nat) : tGet? (tDel t k) j = if k = j then none else tGet? t j := by
  induction t with
  | nil => simp [tDel, tGet?]
  | cons p r ih =>
    obtain ⟨i, x⟩ := p
    by_cases hk : i = k
    · subst hk
      by_cases hj : i = j <;> simp_all [tDel, tGet?]
    · by_cases hj : i = j
      · subst hj
        simp [tDel, tGet?, hk, Ne.symm hk]
      · simp [tDel, tGet?, hk, hj, ih]

@[simp] theorem tGet?_tDel_self {α : Type} (t : Table α) (k : Nat) : tGet? (tDel t k) k = none := by simp [tGet?_tDel]

/-- Two changes of one record are one change. -/
theorem tMod_tMod {α : Type} (t : Table α) (k : Nat) (f g : α → α) : tMod (tMod t k f) k g = tMod t k (fun x => g (f x)) := by
  induction t with
  | nil => rfl
  | cons p r ih =>
    obtain ⟨i, x⟩ := p
    by_cases h : i = k <;> simp [tMod, h, ih]

@[simp] theorem tMod_id {α : Type} (t : Table α) (k : Nat) : tMod t k (fun x => x) = t := by
  induction t with
  | nil => rfl
  | cons p r ih =>
    obtain ⟨i, x⟩ := p
    by_cases h : i = k <;> simp [tMod, h, ih]

/-- Changes that agree on the record that is there are the same. -/
theorem tMod_congr {α : Type} {t : Table α} {k : Nat} {f g : α → α} (h : ∀ x, tGet? t k = some x → f x = g x) : tMod t k f = tMod t k g := by
  induction t with
  | nil => rfl
  | cons p r ih =>
    obtain ⟨i, x⟩ := p
    by_cases hi : i = k
    · simp [tMod, hi, h x (by simp [tGet?, hi])]
    · simp [tMod, hi]
      exact ih (fun y hy => h y (by simpa [tGet?, hi] using hy))

/-! ### Sparse maps -/

theorem smGet_smErase {α : Type} (d : α) (m : SMap α) (k j : Nat) : smGet d (smErase k m) j = if k = j then d else smGet d m j := by
  induction m with
  | nil => simp [smErase, smGet]
  | cons p r ih =>
    obtain ⟨i, x⟩ := p
    by_cases hk : i = k
    · subst hk
      by_cases hj : i = j <;> simp_all [smErase, smGet]
    · by_cases hj : i = j
      · subst hj
        simp [smErase, smGet, hk, Ne.symm hk]
      · simp [smErase, smGet, hk, hj, ih]

theorem smGet_smInsert_ne {α : Type} (d : α) (m : SMap α) {k j : Nat} (v : α) (h : k ≠ j) : smGet d (smInsert k v m) j = smGet d m j := by
  induction m with
  | nil => simp [smInsert, smGet, h]
  | cons p r ih =>
    obtain ⟨i, x⟩ := p
    by_cases hk : k < i
    · simp [smInsert, smGet, hk, h]
    · by_cases hj : i = j
      · subst hj
        simp [smInsert, smGet, hk]
      · simp [smInsert, smGet, hk, hj, ih]

theorem smGet_smInsert_self {α : Type} (d : α) (m : SMap α) (k : Nat) (v : α) (h : ∀ p ∈ m, p.1 ≠ k) : smGet d (smInsert k v m) k = v := by
  induction m with
  | nil => simp [smInsert, smGet]
  | cons p r ih =>
    obtain ⟨i, x⟩ := p
    have hi : i ≠ k := h (i, x) (by simp)
    by_cases hk : k < i
    · simp [smInsert, smGet, hk]
    · simpa [smInsert, smGet, hk, hi] using ih (fun p hp => h p (by simp [hp]))

theorem mem_smErase_ne {α : Type} (k : Nat) (m : SMap α) : ∀ p ∈ smErase k m, p.1 ≠ k := by
  induction m with
  | nil => simp [smErase]
  | cons p r ih =>
    obtain ⟨i, x⟩ := p
    by_cases hk : i = k
    · simpa [smErase, hk] using ih
    · intro q hq
      rcases (by simpa [smErase, hk] using hq : q = (i, x) ∨ q ∈ smErase k r) with rfl | hq
      · exact hk
      · exact ih q hq

/-- Read after write of a sparse map. -/
theorem smGet_smSet {α : Type} [DecidableEq α] (d : α) (m : SMap α) (k j : Nat) (v : α) :
    smGet d (smSet d m k v) j = if k = j then v else smGet d m j := by
  unfold smSet
  by_cases hv : v = d
  · subst hv
    simp [smGet_smErase]
  · by_cases hj : k = j
    · subst hj
      simp [hv, smGet_smInsert_self d (smErase k m) k v (mem_smErase_ne k m)]
    · simp [hv, hj, smGet_smInsert_ne d (smErase k m) v hj, smGet_smErase]

@[simp] theorem smGet_smSet_self {α : Type} [DecidableEq α] (d : α) (m : SMap α) (k : Nat) (v : α) : smGet d (smSet d m k v) k = v := by
  simp [smGet_smSet]

theorem smGet_smSet_ne {α : Type} [DecidableEq α] (d : α) (m : SMap α) {k j : Nat} (v : α) (h : k ≠ j) :
    smGet d (smSet d m k v) j = smGet d m j := by
  simp [smGet_smSet, h]

/-- The canonical form says that the tail has it and that the head lies before it. -/
theorem smWf_cons {α : Type} [DecidableEq α] (d : α) (i : Nat) (v : α) (t : SMap α) :
    smWf d ((i, v) :: t) = true ↔ v ≠ d ∧ (∀ p ∈ t, i < p.1) ∧ smWf d t = true := by
  induction t generalizing i v with
  | nil => simp [smWf]
  | cons q r ih =>
    obtain ⟨j, w⟩ := q
    constructor
    · intro h
      have h' : (v ≠ d ∧ i < j) ∧ smWf d ((j, w) :: r) = true := by simpa [smWf, and_assoc] using h
      refine ⟨h'.1.1, ?_, h'.2⟩
      intro p hp
      rcases List.mem_cons.1 hp with rfl | hp
      · exact h'.1.2
      · exact Nat.lt_trans h'.1.2 (((ih j w).1 h'.2).2.1 p hp)
    · rintro ⟨h1, h2, h3⟩
      have : i < j := h2 (j, w) (by simp)
      simp [smWf, h1, this, h3]

theorem mem_smErase {α : Type} {k : Nat} {m : SMap α} {p : Nat × α} (h : p ∈ smErase k m) : p ∈ m := by
  induction m with
  | nil => simp [smErase] at h
  | cons q r ih =>
    obtain ⟨i, x⟩ := q
    by_cases hk : i = k
    · simp [smErase, hk] at h
      exact List.mem_cons_of_mem _ (ih h)
    · rcases (by simpa [smErase, hk] using h : p = (i, x) ∨ p ∈ smErase k r) with rfl | h
      · simp
      · exact List.mem_cons_of_mem _ (ih h)

theorem smErase_wf {α : Type} [DecidableEq α] (d : α) (k : Nat) (m : SMap α) (h : smWf d m = true) : smWf d (smErase k m) = true := by
  induction m with
  | nil => simp [smErase, smWf]
  | cons q r ih =>
    obtain ⟨i, x⟩ := q
    obtain ⟨h1, h2, h3⟩ := (smWf_cons d i x r).1 h
    by_cases hk : i = k
    · simpa [smErase, hk] using ih h3
    · simp only [smErase, hk, if_false]
      exact (smWf_cons d i x _).2 ⟨h1, fun p hp => h2 p (mem_smErase hp), ih h3⟩

theorem mem_smInsert {α : Type} {k : Nat} {v : α} {m : SMap α} {p : Nat × α} (h : p ∈ smInsert k v m) : p = (k, v) ∨ p ∈ m := by
  induction m with
  | nil => simpa [smInsert] using h
  | cons q r ih =>
    obtain ⟨i, x⟩ := q
    by_cases hk : k < i
    · simpa [smInsert, hk] using h
    · rcases (by simpa [smInsert, hk] using h : p = (i, x) ∨ p ∈ smInsert k v r) with rfl | h
      · simp
      · rcases ih h with h | h <;> simp [h]

theorem smInsert_wf {α : Type} [DecidableEq α] (d : α) (k : Nat) (v : α) (m : SMap α) (hv : v ≠ d) (hn : ∀ p ∈ m, p.1 ≠ k)
    (h : smWf d m = true) : smWf d (smInsert k v m) = true := by
  induction m with
  | nil => simp [smInsert, smWf, hv]
  | cons q r ih =>
    obtain ⟨i, x⟩ := q
    obtain ⟨h1, h2, h3⟩ := (smWf_cons d i x r).1 h
    by_cases hk : k < i
    · simp only [smInsert, hk, if_true]
      refine (smWf_cons d k v _).2 ⟨hv, ?_, h⟩
      intro p hp
      rcases List.mem_cons.1 hp with rfl | hp
      · exact hk
      · exact Nat.lt_trans hk (h2 p hp)
    · simp only [smInsert, hk, if_false]
      refine (smWf_cons d i x _).2 ⟨h1, ?_, ih (fun p hp => hn p (by simp [hp])) h3⟩
      intro p hp
      rcases mem_smInsert hp with rfl | hp
      · have : i ≠ k := hn (i, x) (by simp)
        show i < k
        omega
      · exact h2 p hp

/-- A set keeps the canonical form. -/
theorem smSet_wf {α : Type} [DecidableEq α] (d : α) (m : SMap α) (k : Nat) (v : α) (h : smWf d m = true) : smWf d (smSet d m k v) = true := by
  unfold smSet
  by_cases hv : v = d
  · simpa [hv] using smErase_wf d k m h
  · simpa [hv] using smInsert_wf d k v _ hv (mem_smErase_ne k m) (smErase_wf d k m h)

/-! ### Memory -/

/-- Every memory operation goes through `wrMem`, which keeps the canonical form. -/
theorem wrMem_wf (m : List Host.Cell) (k : Nat) (bs : List Byte) (h : Memory.wf m = true) : Memory.wf (wrMem m k bs) = true := by
  induction bs generalizing m k with
  | nil => exact h
  | cons b bs ih => exact ih _ _ (smSet_wf memDefault m k b h)

theorem wrBytes_wf (s : State) (k : Nat) (bs : List Byte) (h : Memory.wf s.mem = true) : Memory.wf (wrBytes s k bs).mem = true :=
  wrMem_wf s.mem k bs h

theorem smGet_wrMem (m : List Host.Cell) (k : Nat) (bs : List Byte) (j : Nat) :
    smGet memDefault (wrMem m k bs) j = if k ≤ j ∧ j < k + bs.length then nth 0 bs (j - k) else smGet memDefault m j := by
  induction bs generalizing m k with
  | nil =>
    have h : ¬(k ≤ j ∧ j < k + ([] : List Byte).length) := by simp only [List.length_nil]; omega
    rw [if_neg h]
    rfl
  | cons b bs ih =>
    simp only [wrMem, ih, smGet_smSet, List.length_cons]
    by_cases h1 : k + 1 ≤ j ∧ j < k + 1 + bs.length
    · have h2 : k ≤ j ∧ j < k + (bs.length + 1) := by omega
      have h3 : j - k = (j - (k + 1)) + 1 := by omega
      simp [h1, h2, h3]
    · by_cases h2 : k = j
      · subst h2
        have h3 : ¬(k + 1 ≤ k) := by omega
        simp [h3]
      · have h3 : ¬(k ≤ j ∧ j < k + (bs.length + 1)) := by omega
        rw [if_neg h1, if_neg h2, if_neg h3]

/-- A byte after a write: one of those written, or the byte before. -/
theorem rdByte_wrBytes (s : State) (k : Nat) (bs : List Byte) (j : Nat) :
    rdByte (wrBytes s k bs) j = if k ≤ j ∧ j < k + bs.length then nth 0 bs (j - k) else rdByte s j := smGet_wrMem s.mem k bs j

/-- A write leaves every other byte alone. -/
theorem rdByte_wrBytes_other (s : State) (k : Nat) (bs : List Byte) (j : Nat) (h : j < k ∨ k + bs.length ≤ j) :
    rdByte (wrBytes s k bs) j = rdByte s j := by
  rw [rdByte_wrBytes, if_neg (by omega)]

theorem rdBytes_eq_map (s : State) (k n : Nat) : rdBytes s k n = (List.range n).map (fun i => rdByte s (k + i)) := by
  induction n generalizing k with
  | zero => rfl
  | succ n ih =>
    rw [List.range_succ_eq_map]
    simp only [rdBytes, ih, List.map_cons, List.map_map, Nat.add_zero]
    congr 1
    refine List.map_congr_left (fun i _ => ?_)
    show rdByte s (k + 1 + i) = rdByte s (k + (i + 1))
    rw [show k + 1 + i = k + (i + 1) by omega]

/-- A read of the bytes just written gives them back. -/
theorem rdBytes_wrBytes (s : State) (k : Nat) (bs : List Byte) : rdBytes (wrBytes s k bs) k bs.length = bs := by
  rw [rdBytes_eq_map]
  refine ext_nth 0 (by simp) (fun i hi => ?_)
  have hi' : i < bs.length := by simpa using hi
  have h : ∀ (f : Nat → Byte) (n j : Nat), j < n → nth 0 ((List.range n).map f) j = f j := by
    intro f n j hj
    rw [nth_eq_getD]
    simp [hj]
  rw [h _ _ _ hi', rdByte_wrBytes, if_pos (by omega), Nat.add_sub_cancel_left]

/-- Registers: read after write of one word. -/
theorem getReg_setReg (ln : Lane) (n m : Nat) (x : W32) (hn : n < 138) (hm : m < 138) :
    getReg (setReg ln n x) m = if n = m then x else getReg ln m := by
  unfold getReg setReg
  by_cases h1 : n < 128
  · by_cases h2 : m < 128
    · simp [h1, h2, smGet_smSet]
    · have : n ≠ m := by omega
      simp [h1, h2, this]
  · by_cases h3 : n < 136
    · by_cases h2 : m < 128
      · have : n ≠ m := by omega
        simp [h1, h2, h3, this]
      · by_cases h4 : m < 136
        · have h : (n - 128 = m - 128) ↔ n = m := by omega
          simp [h1, h2, h3, h4, smGet_smSet, h]
        · have : n ≠ m := by omega
          simp [h1, h2, h3, h4, this]
    · have hn' : n = 136 ∨ n = 137 := by omega
      rcases hn' with rfl | rfl
      · by_cases h2 : m < 128
        · have : 136 ≠ m := by omega
          simp [h2, this]
        · by_cases h4 : m < 136
          · have : 136 ≠ m := by omega
            simp [h2, h4, this]
          · have hm' : m = 136 ∨ m = 137 := by omega
            rcases hm' with rfl | rfl <;> simp
      · by_cases h2 : m < 128
        · have : 137 ≠ m := by omega
          simp [h2, this]
        · by_cases h4 : m < 136
          · have : 137 ≠ m := by omega
            simp [h2, h4, this]
          · have hm' : m = 136 ∨ m = 137 := by omega
            rcases hm' with rfl | rfl <;> simp

end Sys2Proof.Machine
end

