-- ==== Sys2Proof/Laws/State.lean ====
section
/-! SUPPORT. One lemma per field of State and update of it, and what the records of the tables read as after an update of one. -/

namespace Sys2Proof.Machine

/-! ### modGrp changes `groups` alone -/

@[simp] theorem modGrp_gtick (s : State) (u : Nat) (f : Group → Group) : (modGrp s u f).gtick = s.gtick := rfl
@[simp] theorem modGrp_phase (s : State) (u : Nat) (f : Group → Group) : (modGrp s u f).phase = s.phase := rfl
@[simp] theorem modGrp_cycle (s : State) (u : Nat) (f : Group → Group) : (modGrp s u f).cycle = s.cycle := rfl
@[simp] theorem modGrp_coreclk (s : State) (u : Nat) (f : Group → Group) : (modGrp s u f).coreclk = s.coreclk := rfl
@[simp] theorem modGrp_clkchg (s : State) (u : Nat) (f : Group → Group) : (modGrp s u f).clkchg = s.clkchg := rfl
@[simp] theorem modGrp_stopAt (s : State) (u : Nat) (f : Group → Group) : (modGrp s u f).stopAt = s.stopAt := rfl
@[simp] theorem modGrp_stopped (s : State) (u : Nat) (f : Group → Group) : (modGrp s u f).stopped = s.stopped := rfl
@[simp] theorem modGrp_feat (s : State) (u : Nat) (f : Group → Group) : (modGrp s u f).feat = s.feat := rfl
@[simp] theorem modGrp_accept (s : State) (u : Nat) (f : Group → Group) : (modGrp s u f).accept = s.accept := rfl
@[simp] theorem modGrp_pkg (s : State) (u : Nat) (f : Group → Group) : (modGrp s u f).pkg = s.pkg := rfl
@[simp] theorem modGrp_failCode (s : State) (u : Nat) (f : Group → Group) : (modGrp s u f).failCode = s.failCode := rfl
@[simp] theorem modGrp_fwaddr (s : State) (u : Nat) (f : Group → Group) : (modGrp s u f).fwaddr = s.fwaddr := rfl
@[simp] theorem modGrp_fwcmd (s : State) (u : Nat) (f : Group → Group) : (modGrp s u f).fwcmd = s.fwcmd := rfl
@[simp] theorem modGrp_pwrlim (s : State) (u : Nat) (f : Group → Group) : (modGrp s u f).pwrlim = s.pwrlim := rfl
@[simp] theorem modGrp_pwrnow (s : State) (u : Nat) (f : Group → Group) : (modGrp s u f).pwrnow = s.pwrnow := rfl
@[simp] theorem modGrp_trblk (s : State) (u : Nat) (f : Group → Group) : (modGrp s u f).trblk = s.trblk := rfl
@[simp] theorem modGrp_pkgnum (s : State) (u : Nat) (f : Group → Group) : (modGrp s u f).pkgnum = s.pkgnum := rfl
@[simp] theorem modGrp_coremap (s : State) (u : Nat) (f : Group → Group) : (modGrp s u f).coremap = s.coremap := rfl
@[simp] theorem modGrp_mem (s : State) (u : Nat) (f : Group → Group) : (modGrp s u f).mem = s.mem := rfl
@[simp] theorem modGrp_poison (s : State) (u : Nat) (f : Group → Group) : (modGrp s u f).poison = s.poison := rfl
@[simp] theorem modGrp_frameClass (s : State) (u : Nat) (f : Group → Group) : (modGrp s u f).frameClass = s.frameClass := rfl
@[simp] theorem modGrp_byteClass (s : State) (u : Nat) (f : Group → Group) : (modGrp s u f).byteClass = s.byteClass := rfl
@[simp] theorem modGrp_errors (s : State) (u : Nat) (f : Group → Group) : (modGrp s u f).errors = s.errors := rfl
@[simp] theorem modGrp_cores (s : State) (u : Nat) (f : Group → Group) : (modGrp s u f).cores = s.cores := rfl
@[simp] theorem modGrp_dies (s : State) (u : Nat) (f : Group → Group) : (modGrp s u f).dies = s.dies := rfl
@[simp] theorem modGrp_gangs (s : State) (u : Nat) (f : Group → Group) : (modGrp s u f).gangs = s.gangs := rfl
@[simp] theorem modGrp_cmds (s : State) (u : Nat) (f : Group → Group) : (modGrp s u f).cmds = s.cmds := rfl
@[simp] theorem modGrp_tasks (s : State) (u : Nat) (f : Group → Group) : (modGrp s u f).tasks = s.tasks := rfl
@[simp] theorem modGrp_launches (s : State) (u : Nat) (f : Group → Group) : (modGrp s u f).launches = s.launches := rfl
@[simp] theorem modGrp_nextLaunchId (s : State) (u : Nat) (f : Group → Group) : (modGrp s u f).nextLaunchId = s.nextLaunchId := rfl
@[simp] theorem modGrp_ctxs (s : State) (u : Nat) (f : Group → Group) : (modGrp s u f).ctxs = s.ctxs := rfl
@[simp] theorem modGrp_fresh (s : State) (u : Nat) (f : Group → Group) : (modGrp s u f).fresh = s.fresh := rfl
@[simp] theorem modGrp_mstep (s : State) (u : Nat) (f : Group → Group) : (modGrp s u f).mstep = s.mstep := rfl
@[simp] theorem modGrp_links (s : State) (u : Nat) (f : Group → Group) : (modGrp s u f).links = s.links := rfl
@[simp] theorem modGrp_promotes (s : State) (u : Nat) (f : Group → Group) : (modGrp s u f).promotes = s.promotes := rfl
@[simp] theorem modGrp_plates (s : State) (u : Nat) (f : Group → Group) : (modGrp s u f).plates = s.plates := rfl
@[simp] theorem modGrp_edRegs (s : State) (u : Nat) (f : Group → Group) : (modGrp s u f).edRegs = s.edRegs := rfl
@[simp] theorem modGrp_polls (s : State) (u : Nat) (f : Group → Group) : (modGrp s u f).polls = s.polls := rfl
@[simp] theorem modGrp_caster (s : State) (u : Nat) (f : Group → Group) : (modGrp s u f).caster = s.caster := rfl
@[simp] theorem modGrp_trblks (s : State) (u : Nat) (f : Group → Group) : (modGrp s u f).trblks = s.trblks := rfl
@[simp] theorem modGrp_tlbs (s : State) (u : Nat) (f : Group → Group) : (modGrp s u f).tlbs = s.tlbs := rfl
@[simp] theorem modGrp_faults (s : State) (u : Nat) (f : Group → Group) : (modGrp s u f).faults = s.faults := rfl
@[simp] theorem modGrp_evicts (s : State) (u : Nat) (f : Group → Group) : (modGrp s u f).evicts = s.evicts := rfl
@[simp] theorem modGrp_taken (s : State) (u : Nat) (f : Group → Group) : (modGrp s u f).taken = s.taken := rfl
@[simp] theorem modGrp_peerPages (s : State) (u : Nat) (f : Group → Group) : (modGrp s u f).peerPages = s.peerPages := rfl
@[simp] theorem modGrp_icinvs (s : State) (u : Nat) (f : Group → Group) : (modGrp s u f).icinvs = s.icinvs := rfl
@[simp] theorem modGrp_lmaps (s : State) (u : Nat) (f : Group → Group) : (modGrp s u f).lmaps = s.lmaps := rfl
@[simp] theorem modGrp_meets (s : State) (u : Nat) (f : Group → Group) : (modGrp s u f).meets = s.meets := rfl
@[simp] theorem modGrp_fwwin (s : State) (u : Nat) (f : Group → Group) : (modGrp s u f).fwwin = s.fwwin := rfl
@[simp] theorem modGrp_fwt (s : State) (u : Nat) (f : Group → Group) : (modGrp s u f).fwt = s.fwt := rfl
@[simp] theorem modGrp_elbase (s : State) (u : Nat) (f : Group → Group) : (modGrp s u f).elbase = s.elbase := rfl
@[simp] theorem modGrp_elsize (s : State) (u : Nat) (f : Group → Group) : (modGrp s u f).elsize = s.elsize := rfl
@[simp] theorem modGrp_eltail (s : State) (u : Nat) (f : Group → Group) : (modGrp s u f).eltail = s.eltail := rfl
@[simp] theorem modGrp_elhead (s : State) (u : Nat) (f : Group → Group) : (modGrp s u f).elhead = s.elhead := rfl
@[simp] theorem modGrp_eldrop (s : State) (u : Nat) (f : Group → Group) : (modGrp s u f).eldrop = s.eldrop := rfl
@[simp] theorem modGrp_windows (s : State) (u : Nat) (f : Group → Group) : (modGrp s u f).windows = s.windows := rfl
@[simp] theorem modGrp_lasting (s : State) (u : Nat) (f : Group → Group) : (modGrp s u f).lasting = s.lasting := rfl
@[simp] theorem modGrp_deadRouters (s : State) (u : Nat) (f : Group → Group) : (modGrp s u f).deadRouters = s.deadRouters := rfl
@[simp] theorem modGrp_deadLinks (s : State) (u : Nat) (f : Group → Group) : (modGrp s u f).deadLinks = s.deadLinks := rfl
@[simp] theorem modGrp_netStopped (s : State) (u : Nat) (f : Group → Group) : (modGrp s u f).netStopped = s.netStopped := rfl
@[simp] theorem modGrp_reroutes (s : State) (u : Nat) (f : Group → Group) : (modGrp s u f).reroutes = s.reroutes := rfl
@[simp] theorem modGrp_agenda (s : State) (u : Nat) (f : Group → Group) : (modGrp s u f).agenda = s.agenda := rfl
@[simp] theorem modGrp_epoch (s : State) (u : Nat) (f : Group → Group) : (modGrp s u f).epoch = s.epoch := rfl
@[simp] theorem modGrp_choices (s : State) (u : Nat) (f : Group → Group) : (modGrp s u f).choices = s.choices := rfl
@[simp] theorem modGrp_free (s : State) (u : Nat) (f : Group → Group) : (modGrp s u f).free = s.free := rfl
@[simp] theorem modGrp_cur (s : State) (u : Nat) (f : Group → Group) : (modGrp s u f).cur = s.cur := rfl

/-! ### modGang changes `gangs` alone -/

@[simp] theorem modGang_gtick (s : State) (k : Nat) (f : Gang → Gang) : (modGang s k f).gtick = s.gtick := rfl
@[simp] theorem modGang_phase (s : State) (k : Nat) (f : Gang → Gang) : (modGang s k f).phase = s.phase := rfl
@[simp] theorem modGang_cycle (s : State) (k : Nat) (f : Gang → Gang) : (modGang s k f).cycle = s.cycle := rfl
@[simp] theorem modGang_coreclk (s : State) (k : Nat) (f : Gang → Gang) : (modGang s k f).coreclk = s.coreclk := rfl
@[simp] theorem modGang_clkchg (s : State) (k : Nat) (f : Gang → Gang) : (modGang s k f).clkchg = s.clkchg := rfl
@[simp] theorem modGang_stopAt (s : State) (k : Nat) (f : Gang → Gang) : (modGang s k f).stopAt = s.stopAt := rfl
@[simp] theorem modGang_stopped (s : State) (k : Nat) (f : Gang → Gang) : (modGang s k f).stopped = s.stopped := rfl
@[simp] theorem modGang_feat (s : State) (k : Nat) (f : Gang → Gang) : (modGang s k f).feat = s.feat := rfl
@[simp] theorem modGang_accept (s : State) (k : Nat) (f : Gang → Gang) : (modGang s k f).accept = s.accept := rfl
@[simp] theorem modGang_pkg (s : State) (k : Nat) (f : Gang → Gang) : (modGang s k f).pkg = s.pkg := rfl
@[simp] theorem modGang_failCode (s : State) (k : Nat) (f : Gang → Gang) : (modGang s k f).failCode = s.failCode := rfl
@[simp] theorem modGang_fwaddr (s : State) (k : Nat) (f : Gang → Gang) : (modGang s k f).fwaddr = s.fwaddr := rfl
@[simp] theorem modGang_fwcmd (s : State) (k : Nat) (f : Gang → Gang) : (modGang s k f).fwcmd = s.fwcmd := rfl
@[simp] theorem modGang_pwrlim (s : State) (k : Nat) (f : Gang → Gang) : (modGang s k f).pwrlim = s.pwrlim := rfl
@[simp] theorem modGang_pwrnow (s : State) (k : Nat) (f : Gang → Gang) : (modGang s k f).pwrnow = s.pwrnow := rfl
@[simp] theorem modGang_trblk (s : State) (k : Nat) (f : Gang → Gang) : (modGang s k f).trblk = s.trblk := rfl
@[simp] theorem modGang_pkgnum (s : State) (k : Nat) (f : Gang → Gang) : (modGang s k f).pkgnum = s.pkgnum := rfl
@[simp] theorem modGang_coremap (s : State) (k : Nat) (f : Gang → Gang) : (modGang s k f).coremap = s.coremap := rfl
@[simp] theorem modGang_mem (s : State) (k : Nat) (f : Gang → Gang) : (modGang s k f).mem = s.mem := rfl
@[simp] theorem modGang_poison (s : State) (k : Nat) (f : Gang → Gang) : (modGang s k f).poison = s.poison := rfl
@[simp] theorem modGang_frameClass (s : State) (k : Nat) (f : Gang → Gang) : (modGang s k f).frameClass = s.frameClass := rfl
@[simp] theorem modGang_byteClass (s : State) (k : Nat) (f : Gang → Gang) : (modGang s k f).byteClass = s.byteClass := rfl
@[simp] theorem modGang_errors (s : State) (k : Nat) (f : Gang → Gang) : (modGang s k f).errors = s.errors := rfl
@[simp] theorem modGang_cores (s : State) (k : Nat) (f : Gang → Gang) : (modGang s k f).cores = s.cores := rfl
@[simp] theorem modGang_dies (s : State) (k : Nat) (f : Gang → Gang) : (modGang s k f).dies = s.dies := rfl
@[simp] theorem modGang_groups (s : State) (k : Nat) (f : Gang → Gang) : (modGang s k f).groups = s.groups := rfl
@[simp] theorem modGang_cmds (s : State) (k : Nat) (f : Gang → Gang) : (modGang s k f).cmds = s.cmds := rfl
@[simp] theorem modGang_tasks (s : State) (k : Nat) (f : Gang → Gang) : (modGang s k f).tasks = s.tasks := rfl
@[simp] theorem modGang_launches (s : State) (k : Nat) (f : Gang → Gang) : (modGang s k f).launches = s.launches := rfl
@[simp] theorem modGang_nextLaunchId (s : State) (k : Nat) (f : Gang → Gang) : (modGang s k f).nextLaunchId = s.nextLaunchId := rfl
@[simp] theorem modGang_ctxs (s : State) (k : Nat) (f : Gang → Gang) : (modGang s k f).ctxs = s.ctxs := rfl
@[simp] theorem modGang_fresh (s : State) (k : Nat) (f : Gang → Gang) : (modGang s k f).fresh = s.fresh := rfl
@[simp] theorem modGang_mstep (s : State) (k : Nat) (f : Gang → Gang) : (modGang s k f).mstep = s.mstep := rfl
@[simp] theorem modGang_links (s : State) (k : Nat) (f : Gang → Gang) : (modGang s k f).links = s.links := rfl
@[simp] theorem modGang_promotes (s : State) (k : Nat) (f : Gang → Gang) : (modGang s k f).promotes = s.promotes := rfl
@[simp] theorem modGang_plates (s : State) (k : Nat) (f : Gang → Gang) : (modGang s k f).plates = s.plates := rfl
@[simp] theorem modGang_edRegs (s : State) (k : Nat) (f : Gang → Gang) : (modGang s k f).edRegs = s.edRegs := rfl
@[simp] theorem modGang_polls (s : State) (k : Nat) (f : Gang → Gang) : (modGang s k f).polls = s.polls := rfl
@[simp] theorem modGang_caster (s : State) (k : Nat) (f : Gang → Gang) : (modGang s k f).caster = s.caster := rfl
@[simp] theorem modGang_trblks (s : State) (k : Nat) (f : Gang → Gang) : (modGang s k f).trblks = s.trblks := rfl
@[simp] theorem modGang_tlbs (s : State) (k : Nat) (f : Gang → Gang) : (modGang s k f).tlbs = s.tlbs := rfl
@[simp] theorem modGang_faults (s : State) (k : Nat) (f : Gang → Gang) : (modGang s k f).faults = s.faults := rfl
@[simp] theorem modGang_evicts (s : State) (k : Nat) (f : Gang → Gang) : (modGang s k f).evicts = s.evicts := rfl
@[simp] theorem modGang_taken (s : State) (k : Nat) (f : Gang → Gang) : (modGang s k f).taken = s.taken := rfl
@[simp] theorem modGang_peerPages (s : State) (k : Nat) (f : Gang → Gang) : (modGang s k f).peerPages = s.peerPages := rfl
@[simp] theorem modGang_icinvs (s : State) (k : Nat) (f : Gang → Gang) : (modGang s k f).icinvs = s.icinvs := rfl
@[simp] theorem modGang_lmaps (s : State) (k : Nat) (f : Gang → Gang) : (modGang s k f).lmaps = s.lmaps := rfl
@[simp] theorem modGang_meets (s : State) (k : Nat) (f : Gang → Gang) : (modGang s k f).meets = s.meets := rfl
@[simp] theorem modGang_fwwin (s : State) (k : Nat) (f : Gang → Gang) : (modGang s k f).fwwin = s.fwwin := rfl
@[simp] theorem modGang_fwt (s : State) (k : Nat) (f : Gang → Gang) : (modGang s k f).fwt = s.fwt := rfl
@[simp] theorem modGang_elbase (s : State) (k : Nat) (f : Gang → Gang) : (modGang s k f).elbase = s.elbase := rfl
@[simp] theorem modGang_elsize (s : State) (k : Nat) (f : Gang → Gang) : (modGang s k f).elsize = s.elsize := rfl
@[simp] theorem modGang_eltail (s : State) (k : Nat) (f : Gang → Gang) : (modGang s k f).eltail = s.eltail := rfl
@[simp] theorem modGang_elhead (s : State) (k : Nat) (f : Gang → Gang) : (modGang s k f).elhead = s.elhead := rfl
@[simp] theorem modGang_eldrop (s : State) (k : Nat) (f : Gang → Gang) : (modGang s k f).eldrop = s.eldrop := rfl
@[simp] theorem modGang_windows (s : State) (k : Nat) (f : Gang → Gang) : (modGang s k f).windows = s.windows := rfl
@[simp] theorem modGang_lasting (s : State) (k : Nat) (f : Gang → Gang) : (modGang s k f).lasting = s.lasting := rfl
@[simp] theorem modGang_deadRouters (s : State) (k : Nat) (f : Gang → Gang) : (modGang s k f).deadRouters = s.deadRouters := rfl
@[simp] theorem modGang_deadLinks (s : State) (k : Nat) (f : Gang → Gang) : (modGang s k f).deadLinks = s.deadLinks := rfl
@[simp] theorem modGang_netStopped (s : State) (k : Nat) (f : Gang → Gang) : (modGang s k f).netStopped = s.netStopped := rfl
@[simp] theorem modGang_reroutes (s : State) (k : Nat) (f : Gang → Gang) : (modGang s k f).reroutes = s.reroutes := rfl
@[simp] theorem modGang_agenda (s : State) (k : Nat) (f : Gang → Gang) : (modGang s k f).agenda = s.agenda := rfl
@[simp] theorem modGang_epoch (s : State) (k : Nat) (f : Gang → Gang) : (modGang s k f).epoch = s.epoch := rfl
@[simp] theorem modGang_choices (s : State) (k : Nat) (f : Gang → Gang) : (modGang s k f).choices = s.choices := rfl
@[simp] theorem modGang_free (s : State) (k : Nat) (f : Gang → Gang) : (modGang s k f).free = s.free := rfl
@[simp] theorem modGang_cur (s : State) (k : Nat) (f : Gang → Gang) : (modGang s k f).cur = s.cur := rfl

/-! ### modLaunch changes `launches` alone -/

@[simp] theorem modLaunch_gtick (s : State) (k : Nat) (f : Launch → Launch) : (modLaunch s k f).gtick = s.gtick := rfl
@[simp] theorem modLaunch_phase (s : State) (k : Nat) (f : Launch → Launch) : (modLaunch s k f).phase = s.phase := rfl
@[simp] theorem modLaunch_cycle (s : State) (k : Nat) (f : Launch → Launch) : (modLaunch s k f).cycle = s.cycle := rfl
@[simp] theorem modLaunch_coreclk (s : State) (k : Nat) (f : Launch → Launch) : (modLaunch s k f).coreclk = s.coreclk := rfl
@[simp] theorem modLaunch_clkchg (s : State) (k : Nat) (f : Launch → Launch) : (modLaunch s k f).clkchg = s.clkchg := rfl
@[simp] theorem modLaunch_stopAt (s : State) (k : Nat) (f : Launch → Launch) : (modLaunch s k f).stopAt = s.stopAt := rfl
@[simp] theorem modLaunch_stopped (s : State) (k : Nat) (f : Launch → Launch) : (modLaunch s k f).stopped = s.stopped := rfl
@[simp] theorem modLaunch_feat (s : State) (k : Nat) (f : Launch → Launch) : (modLaunch s k f).feat = s.feat := rfl
@[simp] theorem modLaunch_accept (s : State) (k : Nat) (f : Launch → Launch) : (modLaunch s k f).accept = s.accept := rfl
@[simp] theorem modLaunch_pkg (s : State) (k : Nat) (f : Launch → Launch) : (modLaunch s k f).pkg = s.pkg := rfl
@[simp] theorem modLaunch_failCode (s : State) (k : Nat) (f : Launch → Launch) : (modLaunch s k f).failCode = s.failCode := rfl
@[simp] theorem modLaunch_fwaddr (s : State) (k : Nat) (f : Launch → Launch) : (modLaunch s k f).fwaddr = s.fwaddr := rfl
@[simp] theorem modLaunch_fwcmd (s : State) (k : Nat) (f : Launch → Launch) : (modLaunch s k f).fwcmd = s.fwcmd := rfl
@[simp] theorem modLaunch_pwrlim (s : State) (k : Nat) (f : Launch → Launch) : (modLaunch s k f).pwrlim = s.pwrlim := rfl
@[simp] theorem modLaunch_pwrnow (s : State) (k : Nat) (f : Launch → Launch) : (modLaunch s k f).pwrnow = s.pwrnow := rfl
@[simp] theorem modLaunch_trblk (s : State) (k : Nat) (f : Launch → Launch) : (modLaunch s k f).trblk = s.trblk := rfl
@[simp] theorem modLaunch_pkgnum (s : State) (k : Nat) (f : Launch → Launch) : (modLaunch s k f).pkgnum = s.pkgnum := rfl
@[simp] theorem modLaunch_coremap (s : State) (k : Nat) (f : Launch → Launch) : (modLaunch s k f).coremap = s.coremap := rfl
@[simp] theorem modLaunch_mem (s : State) (k : Nat) (f : Launch → Launch) : (modLaunch s k f).mem = s.mem := rfl
@[simp] theorem modLaunch_poison (s : State) (k : Nat) (f : Launch → Launch) : (modLaunch s k f).poison = s.poison := rfl
@[simp] theorem modLaunch_frameClass (s : State) (k : Nat) (f : Launch → Launch) : (modLaunch s k f).frameClass = s.frameClass := rfl
@[simp] theorem modLaunch_byteClass (s : State) (k : Nat) (f : Launch → Launch) : (modLaunch s k f).byteClass = s.byteClass := rfl
@[simp] theorem modLaunch_errors (s : State) (k : Nat) (f : Launch → Launch) : (modLaunch s k f).errors = s.errors := rfl
@[simp] theorem modLaunch_cores (s : State) (k : Nat) (f : Launch → Launch) : (modLaunch s k f).cores = s.cores := rfl
@[simp] theorem modLaunch_dies (s : State) (k : Nat) (f : Launch → Launch) : (modLaunch s k f).dies = s.dies := rfl
@[simp] theorem modLaunch_groups (s : State) (k : Nat) (f : Launch → Launch) : (modLaunch s k f).groups = s.groups := rfl
@[simp] theorem modLaunch_gangs (s : State) (k : Nat) (f : Launch → Launch) : (modLaunch s k f).gangs = s.gangs := rfl
@[simp] theorem modLaunch_cmds (s : State) (k : Nat) (f : Launch → Launch) : (modLaunch s k f).cmds = s.cmds := rfl
@[simp] theorem modLaunch_tasks (s : State) (k : Nat) (f : Launch → Launch) : (modLaunch s k f).tasks = s.tasks := rfl
@[simp] theorem modLaunch_nextLaunchId (s : State) (k : Nat) (f : Launch → Launch) : (modLaunch s k f).nextLaunchId = s.nextLaunchId := rfl
@[simp] theorem modLaunch_ctxs (s : State) (k : Nat) (f : Launch → Launch) : (modLaunch s k f).ctxs = s.ctxs := rfl
@[simp] theorem modLaunch_fresh (s : State) (k : Nat) (f : Launch → Launch) : (modLaunch s k f).fresh = s.fresh := rfl
@[simp] theorem modLaunch_mstep (s : State) (k : Nat) (f : Launch → Launch) : (modLaunch s k f).mstep = s.mstep := rfl
@[simp] theorem modLaunch_links (s : State) (k : Nat) (f : Launch → Launch) : (modLaunch s k f).links = s.links := rfl
@[simp] theorem modLaunch_promotes (s : State) (k : Nat) (f : Launch → Launch) : (modLaunch s k f).promotes = s.promotes := rfl
@[simp] theorem modLaunch_plates (s : State) (k : Nat) (f : Launch → Launch) : (modLaunch s k f).plates = s.plates := rfl
@[simp] theorem modLaunch_edRegs (s : State) (k : Nat) (f : Launch → Launch) : (modLaunch s k f).edRegs = s.edRegs := rfl
@[simp] theorem modLaunch_polls (s : State) (k : Nat) (f : Launch → Launch) : (modLaunch s k f).polls = s.polls := rfl
@[simp] theorem modLaunch_caster (s : State) (k : Nat) (f : Launch → Launch) : (modLaunch s k f).caster = s.caster := rfl
@[simp] theorem modLaunch_trblks (s : State) (k : Nat) (f : Launch → Launch) : (modLaunch s k f).trblks = s.trblks := rfl
@[simp] theorem modLaunch_tlbs (s : State) (k : Nat) (f : Launch → Launch) : (modLaunch s k f).tlbs = s.tlbs := rfl
@[simp] theorem modLaunch_faults (s : State) (k : Nat) (f : Launch → Launch) : (modLaunch s k f).faults = s.faults := rfl
@[simp] theorem modLaunch_evicts (s : State) (k : Nat) (f : Launch → Launch) : (modLaunch s k f).evicts = s.evicts := rfl
@[simp] theorem modLaunch_taken (s : State) (k : Nat) (f : Launch → Launch) : (modLaunch s k f).taken = s.taken := rfl
@[simp] theorem modLaunch_peerPages (s : State) (k : Nat) (f : Launch → Launch) : (modLaunch s k f).peerPages = s.peerPages := rfl
@[simp] theorem modLaunch_icinvs (s : State) (k : Nat) (f : Launch → Launch) : (modLaunch s k f).icinvs = s.icinvs := rfl
@[simp] theorem modLaunch_lmaps (s : State) (k : Nat) (f : Launch → Launch) : (modLaunch s k f).lmaps = s.lmaps := rfl
@[simp] theorem modLaunch_meets (s : State) (k : Nat) (f : Launch → Launch) : (modLaunch s k f).meets = s.meets := rfl
@[simp] theorem modLaunch_fwwin (s : State) (k : Nat) (f : Launch → Launch) : (modLaunch s k f).fwwin = s.fwwin := rfl
@[simp] theorem modLaunch_fwt (s : State) (k : Nat) (f : Launch → Launch) : (modLaunch s k f).fwt = s.fwt := rfl
@[simp] theorem modLaunch_elbase (s : State) (k : Nat) (f : Launch → Launch) : (modLaunch s k f).elbase = s.elbase := rfl
@[simp] theorem modLaunch_elsize (s : State) (k : Nat) (f : Launch → Launch) : (modLaunch s k f).elsize = s.elsize := rfl
@[simp] theorem modLaunch_eltail (s : State) (k : Nat) (f : Launch → Launch) : (modLaunch s k f).eltail = s.eltail := rfl
@[simp] theorem modLaunch_elhead (s : State) (k : Nat) (f : Launch → Launch) : (modLaunch s k f).elhead = s.elhead := rfl
@[simp] theorem modLaunch_eldrop (s : State) (k : Nat) (f : Launch → Launch) : (modLaunch s k f).eldrop = s.eldrop := rfl
@[simp] theorem modLaunch_windows (s : State) (k : Nat) (f : Launch → Launch) : (modLaunch s k f).windows = s.windows := rfl
@[simp] theorem modLaunch_lasting (s : State) (k : Nat) (f : Launch → Launch) : (modLaunch s k f).lasting = s.lasting := rfl
@[simp] theorem modLaunch_deadRouters (s : State) (k : Nat) (f : Launch → Launch) : (modLaunch s k f).deadRouters = s.deadRouters := rfl
@[simp] theorem modLaunch_deadLinks (s : State) (k : Nat) (f : Launch → Launch) : (modLaunch s k f).deadLinks = s.deadLinks := rfl
@[simp] theorem modLaunch_netStopped (s : State) (k : Nat) (f : Launch → Launch) : (modLaunch s k f).netStopped = s.netStopped := rfl
@[simp] theorem modLaunch_reroutes (s : State) (k : Nat) (f : Launch → Launch) : (modLaunch s k f).reroutes = s.reroutes := rfl
@[simp] theorem modLaunch_agenda (s : State) (k : Nat) (f : Launch → Launch) : (modLaunch s k f).agenda = s.agenda := rfl
@[simp] theorem modLaunch_epoch (s : State) (k : Nat) (f : Launch → Launch) : (modLaunch s k f).epoch = s.epoch := rfl
@[simp] theorem modLaunch_choices (s : State) (k : Nat) (f : Launch → Launch) : (modLaunch s k f).choices = s.choices := rfl
@[simp] theorem modLaunch_free (s : State) (k : Nat) (f : Launch → Launch) : (modLaunch s k f).free = s.free := rfl
@[simp] theorem modLaunch_cur (s : State) (k : Nat) (f : Launch → Launch) : (modLaunch s k f).cur = s.cur := rfl

/-! ### modCmd changes `cmds` alone -/

@[simp] theorem modCmd_gtick (s : State) (k : Nat) (f : Cmd → Cmd) : (modCmd s k f).gtick = s.gtick := rfl
@[simp] theorem modCmd_phase (s : State) (k : Nat) (f : Cmd → Cmd) : (modCmd s k f).phase = s.phase := rfl
@[simp] theorem modCmd_cycle (s : State) (k : Nat) (f : Cmd → Cmd) : (modCmd s k f).cycle = s.cycle := rfl
@[simp] theorem modCmd_coreclk (s : State) (k : Nat) (f : Cmd → Cmd) : (modCmd s k f).coreclk = s.coreclk := rfl
@[simp] theorem modCmd_clkchg (s : State) (k : Nat) (f : Cmd → Cmd) : (modCmd s k f).clkchg = s.clkchg := rfl
@[simp] theorem modCmd_stopAt (s : State) (k : Nat) (f : Cmd → Cmd) : (modCmd s k f).stopAt = s.stopAt := rfl
@[simp] theorem modCmd_stopped (s : State) (k : Nat) (f : Cmd → Cmd) : (modCmd s k f).stopped = s.stopped := rfl
@[simp] theorem modCmd_feat (s : State) (k : Nat) (f : Cmd → Cmd) : (modCmd s k f).feat = s.feat := rfl
@[simp] theorem modCmd_accept (s : State) (k : Nat) (f : Cmd → Cmd) : (modCmd s k f).accept = s.accept := rfl
@[simp] theorem modCmd_pkg (s : State) (k : Nat) (f : Cmd → Cmd) : (modCmd s k f).pkg = s.pkg := rfl
@[simp] theorem modCmd_failCode (s : State) (k : Nat) (f : Cmd → Cmd) : (modCmd s k f).failCode = s.failCode := rfl
@[simp] theorem modCmd_fwaddr (s : State) (k : Nat) (f : Cmd → Cmd) : (modCmd s k f).fwaddr = s.fwaddr := rfl
@[simp] theorem modCmd_fwcmd (s : State) (k : Nat) (f : Cmd → Cmd) : (modCmd s k f).fwcmd = s.fwcmd := rfl
@[simp] theorem modCmd_pwrlim (s : State) (k : Nat) (f : Cmd → Cmd) : (modCmd s k f).pwrlim = s.pwrlim := rfl
@[simp] theorem modCmd_pwrnow (s : State) (k : Nat) (f : Cmd → Cmd) : (modCmd s k f).pwrnow = s.pwrnow := rfl
@[simp] theorem modCmd_trblk (s : State) (k : Nat) (f : Cmd → Cmd) : (modCmd s k f).trblk = s.trblk := rfl
@[simp] theorem modCmd_pkgnum (s : State) (k : Nat) (f : Cmd → Cmd) : (modCmd s k f).pkgnum = s.pkgnum := rfl
@[simp] theorem modCmd_coremap (s : State) (k : Nat) (f : Cmd → Cmd) : (modCmd s k f).coremap = s.coremap := rfl
@[simp] theorem modCmd_mem (s : State) (k : Nat) (f : Cmd → Cmd) : (modCmd s k f).mem = s.mem := rfl
@[simp] theorem modCmd_poison (s : State) (k : Nat) (f : Cmd → Cmd) : (modCmd s k f).poison = s.poison := rfl
@[simp] theorem modCmd_frameClass (s : State) (k : Nat) (f : Cmd → Cmd) : (modCmd s k f).frameClass = s.frameClass := rfl
@[simp] theorem modCmd_byteClass (s : State) (k : Nat) (f : Cmd → Cmd) : (modCmd s k f).byteClass = s.byteClass := rfl
@[simp] theorem modCmd_errors (s : State) (k : Nat) (f : Cmd → Cmd) : (modCmd s k f).errors = s.errors := rfl
@[simp] theorem modCmd_cores (s : State) (k : Nat) (f : Cmd → Cmd) : (modCmd s k f).cores = s.cores := rfl
@[simp] theorem modCmd_dies (s : State) (k : Nat) (f : Cmd → Cmd) : (modCmd s k f).dies = s.dies := rfl
@[simp] theorem modCmd_groups (s : State) (k : Nat) (f : Cmd → Cmd) : (modCmd s k f).groups = s.groups := rfl
@[simp] theorem modCmd_gangs (s : State) (k : Nat) (f : Cmd → Cmd) : (modCmd s k f).gangs = s.gangs := rfl
@[simp] theorem modCmd_tasks (s : State) (k : Nat) (f : Cmd → Cmd) : (modCmd s k f).tasks = s.tasks := rfl
@[simp] theorem modCmd_launches (s : State) (k : Nat) (f : Cmd → Cmd) : (modCmd s k f).launches = s.launches := rfl
@[simp] theorem modCmd_nextLaunchId (s : State) (k : Nat) (f : Cmd → Cmd) : (modCmd s k f).nextLaunchId = s.nextLaunchId := rfl
@[simp] theorem modCmd_ctxs (s : State) (k : Nat) (f : Cmd → Cmd) : (modCmd s k f).ctxs = s.ctxs := rfl
@[simp] theorem modCmd_fresh (s : State) (k : Nat) (f : Cmd → Cmd) : (modCmd s k f).fresh = s.fresh := rfl
@[simp] theorem modCmd_mstep (s : State) (k : Nat) (f : Cmd → Cmd) : (modCmd s k f).mstep = s.mstep := rfl
@[simp] theorem modCmd_links (s : State) (k : Nat) (f : Cmd → Cmd) : (modCmd s k f).links = s.links := rfl
@[simp] theorem modCmd_promotes (s : State) (k : Nat) (f : Cmd → Cmd) : (modCmd s k f).promotes = s.promotes := rfl
@[simp] theorem modCmd_plates (s : State) (k : Nat) (f : Cmd → Cmd) : (modCmd s k f).plates = s.plates := rfl
@[simp] theorem modCmd_edRegs (s : State) (k : Nat) (f : Cmd → Cmd) : (modCmd s k f).edRegs = s.edRegs := rfl
@[simp] theorem modCmd_polls (s : State) (k : Nat) (f : Cmd → Cmd) : (modCmd s k f).polls = s.polls := rfl
@[simp] theorem modCmd_caster (s : State) (k : Nat) (f : Cmd → Cmd) : (modCmd s k f).caster = s.caster := rfl
@[simp] theorem modCmd_trblks (s : State) (k : Nat) (f : Cmd → Cmd) : (modCmd s k f).trblks = s.trblks := rfl
@[simp] theorem modCmd_tlbs (s : State) (k : Nat) (f : Cmd → Cmd) : (modCmd s k f).tlbs = s.tlbs := rfl
@[simp] theorem modCmd_faults (s : State) (k : Nat) (f : Cmd → Cmd) : (modCmd s k f).faults = s.faults := rfl
@[simp] theorem modCmd_evicts (s : State) (k : Nat) (f : Cmd → Cmd) : (modCmd s k f).evicts = s.evicts := rfl
@[simp] theorem modCmd_taken (s : State) (k : Nat) (f : Cmd → Cmd) : (modCmd s k f).taken = s.taken := rfl
@[simp] theorem modCmd_peerPages (s : State) (k : Nat) (f : Cmd → Cmd) : (modCmd s k f).peerPages = s.peerPages := rfl
@[simp] theorem modCmd_icinvs (s : State) (k : Nat) (f : Cmd → Cmd) : (modCmd s k f).icinvs = s.icinvs := rfl
@[simp] theorem modCmd_lmaps (s : State) (k : Nat) (f : Cmd → Cmd) : (modCmd s k f).lmaps = s.lmaps := rfl
@[simp] theorem modCmd_meets (s : State) (k : Nat) (f : Cmd → Cmd) : (modCmd s k f).meets = s.meets := rfl
@[simp] theorem modCmd_fwwin (s : State) (k : Nat) (f : Cmd → Cmd) : (modCmd s k f).fwwin = s.fwwin := rfl
@[simp] theorem modCmd_fwt (s : State) (k : Nat) (f : Cmd → Cmd) : (modCmd s k f).fwt = s.fwt := rfl
@[simp] theorem modCmd_elbase (s : State) (k : Nat) (f : Cmd → Cmd) : (modCmd s k f).elbase = s.elbase := rfl
@[simp] theorem modCmd_elsize (s : State) (k : Nat) (f : Cmd → Cmd) : (modCmd s k f).elsize = s.elsize := rfl
@[simp] theorem modCmd_eltail (s : State) (k : Nat) (f : Cmd → Cmd) : (modCmd s k f).eltail = s.eltail := rfl
@[simp] theorem modCmd_elhead (s : State) (k : Nat) (f : Cmd → Cmd) : (modCmd s k f).elhead = s.elhead := rfl
@[simp] theorem modCmd_eldrop (s : State) (k : Nat) (f : Cmd → Cmd) : (modCmd s k f).eldrop = s.eldrop := rfl
@[simp] theorem modCmd_windows (s : State) (k : Nat) (f : Cmd → Cmd) : (modCmd s k f).windows = s.windows := rfl
@[simp] theorem modCmd_lasting (s : State) (k : Nat) (f : Cmd → Cmd) : (modCmd s k f).lasting = s.lasting := rfl
@[simp] theorem modCmd_deadRouters (s : State) (k : Nat) (f : Cmd → Cmd) : (modCmd s k f).deadRouters = s.deadRouters := rfl
@[simp] theorem modCmd_deadLinks (s : State) (k : Nat) (f : Cmd → Cmd) : (modCmd s k f).deadLinks = s.deadLinks := rfl
@[simp] theorem modCmd_netStopped (s : State) (k : Nat) (f : Cmd → Cmd) : (modCmd s k f).netStopped = s.netStopped := rfl
@[simp] theorem modCmd_reroutes (s : State) (k : Nat) (f : Cmd → Cmd) : (modCmd s k f).reroutes = s.reroutes := rfl
@[simp] theorem modCmd_agenda (s : State) (k : Nat) (f : Cmd → Cmd) : (modCmd s k f).agenda = s.agenda := rfl
@[simp] theorem modCmd_epoch (s : State) (k : Nat) (f : Cmd → Cmd) : (modCmd s k f).epoch = s.epoch := rfl
@[simp] theorem modCmd_choices (s : State) (k : Nat) (f : Cmd → Cmd) : (modCmd s k f).choices = s.choices := rfl
@[simp] theorem modCmd_free (s : State) (k : Nat) (f : Cmd → Cmd) : (modCmd s k f).free = s.free := rfl
@[simp] theorem modCmd_cur (s : State) (k : Nat) (f : Cmd → Cmd) : (modCmd s k f).cur = s.cur := rfl

/-! ### modCore changes `cores` alone -/

@[simp] theorem modCore_gtick (s : State) (k : Nat) (f : Core → Core) : (modCore s k f).gtick = s.gtick := rfl
@[simp] theorem modCore_phase (s : State) (k : Nat) (f : Core → Core) : (modCore s k f).phase = s.phase := rfl
@[simp] theorem modCore_cycle (s : State) (k : Nat) (f : Core → Core) : (modCore s k f).cycle = s.cycle := rfl
@[simp] theorem modCore_coreclk (s : State) (k : Nat) (f : Core → Core) : (modCore s k f).coreclk = s.coreclk := rfl
@[simp] theorem modCore_clkchg (s : State) (k : Nat) (f : Core → Core) : (modCore s k f).clkchg = s.clkchg := rfl
@[simp] theorem modCore_stopAt (s : State) (k : Nat) (f : Core → Core) : (modCore s k f).stopAt = s.stopAt := rfl
@[simp] theorem modCore_stopped (s : State) (k : Nat) (f : Core → Core) : (modCore s k f).stopped = s.stopped := rfl
@[simp] theorem modCore_feat (s : State) (k : Nat) (f : Core → Core) : (modCore s k f).feat = s.feat := rfl
@[simp] theorem modCore_accept (s : State) (k : Nat) (f : Core → Core) : (modCore s k f).accept = s.accept := rfl
@[simp] theorem modCore_pkg (s : State) (k : Nat) (f : Core → Core) : (modCore s k f).pkg = s.pkg := rfl
@[simp] theorem modCore_failCode (s : State) (k : Nat) (f : Core → Core) : (modCore s k f).failCode = s.failCode := rfl
@[simp] theorem modCore_fwaddr (s : State) (k : Nat) (f : Core → Core) : (modCore s k f).fwaddr = s.fwaddr := rfl
@[simp] theorem modCore_fwcmd (s : State) (k : Nat) (f : Core → Core) : (modCore s k f).fwcmd = s.fwcmd := rfl
@[simp] theorem modCore_pwrlim (s : State) (k : Nat) (f : Core → Core) : (modCore s k f).pwrlim = s.pwrlim := rfl
@[simp] theorem modCore_pwrnow (s : State) (k : Nat) (f : Core → Core) : (modCore s k f).pwrnow = s.pwrnow := rfl
@[simp] theorem modCore_trblk (s : State) (k : Nat) (f : Core → Core) : (modCore s k f).trblk = s.trblk := rfl
@[simp] theorem modCore_pkgnum (s : State) (k : Nat) (f : Core → Core) : (modCore s k f).pkgnum = s.pkgnum := rfl
@[simp] theorem modCore_coremap (s : State) (k : Nat) (f : Core → Core) : (modCore s k f).coremap = s.coremap := rfl
@[simp] theorem modCore_mem (s : State) (k : Nat) (f : Core → Core) : (modCore s k f).mem = s.mem := rfl
@[simp] theorem modCore_poison (s : State) (k : Nat) (f : Core → Core) : (modCore s k f).poison = s.poison := rfl
@[simp] theorem modCore_frameClass (s : State) (k : Nat) (f : Core → Core) : (modCore s k f).frameClass = s.frameClass := rfl
@[simp] theorem modCore_byteClass (s : State) (k : Nat) (f : Core → Core) : (modCore s k f).byteClass = s.byteClass := rfl
@[simp] theorem modCore_errors (s : State) (k : Nat) (f : Core → Core) : (modCore s k f).errors = s.errors := rfl
@[simp] theorem modCore_dies (s : State) (k : Nat) (f : Core → Core) : (modCore s k f).dies = s.dies := rfl
@[simp] theorem modCore_groups (s : State) (k : Nat) (f : Core → Core) : (modCore s k f).groups = s.groups := rfl
@[simp] theorem modCore_gangs (s : State) (k : Nat) (f : Core → Core) : (modCore s k f).gangs = s.gangs := rfl
@[simp] theorem modCore_cmds (s : State) (k : Nat) (f : Core → Core) : (modCore s k f).cmds = s.cmds := rfl
@[simp] theorem modCore_tasks (s : State) (k : Nat) (f : Core → Core) : (modCore s k f).tasks = s.tasks := rfl
@[simp] theorem modCore_launches (s : State) (k : Nat) (f : Core → Core) : (modCore s k f).launches = s.launches := rfl
@[simp] theorem modCore_nextLaunchId (s : State) (k : Nat) (f : Core → Core) : (modCore s k f).nextLaunchId = s.nextLaunchId := rfl
@[simp] theorem modCore_ctxs (s : State) (k : Nat) (f : Core → Core) : (modCore s k f).ctxs = s.ctxs := rfl
@[simp] theorem modCore_fresh (s : State) (k : Nat) (f : Core → Core) : (modCore s k f).fresh = s.fresh := rfl
@[simp] theorem modCore_mstep (s : State) (k : Nat) (f : Core → Core) : (modCore s k f).mstep = s.mstep := rfl
@[simp] theorem modCore_links (s : State) (k : Nat) (f : Core → Core) : (modCore s k f).links = s.links := rfl
@[simp] theorem modCore_promotes (s : State) (k : Nat) (f : Core → Core) : (modCore s k f).promotes = s.promotes := rfl
@[simp] theorem modCore_plates (s : State) (k : Nat) (f : Core → Core) : (modCore s k f).plates = s.plates := rfl
@[simp] theorem modCore_edRegs (s : State) (k : Nat) (f : Core → Core) : (modCore s k f).edRegs = s.edRegs := rfl
@[simp] theorem modCore_polls (s : State) (k : Nat) (f : Core → Core) : (modCore s k f).polls = s.polls := rfl
@[simp] theorem modCore_caster (s : State) (k : Nat) (f : Core → Core) : (modCore s k f).caster = s.caster := rfl
@[simp] theorem modCore_trblks (s : State) (k : Nat) (f : Core → Core) : (modCore s k f).trblks = s.trblks := rfl
@[simp] theorem modCore_tlbs (s : State) (k : Nat) (f : Core → Core) : (modCore s k f).tlbs = s.tlbs := rfl
@[simp] theorem modCore_faults (s : State) (k : Nat) (f : Core → Core) : (modCore s k f).faults = s.faults := rfl
@[simp] theorem modCore_evicts (s : State) (k : Nat) (f : Core → Core) : (modCore s k f).evicts = s.evicts := rfl
@[simp] theorem modCore_taken (s : State) (k : Nat) (f : Core → Core) : (modCore s k f).taken = s.taken := rfl
@[simp] theorem modCore_peerPages (s : State) (k : Nat) (f : Core → Core) : (modCore s k f).peerPages = s.peerPages := rfl
@[simp] theorem modCore_icinvs (s : State) (k : Nat) (f : Core → Core) : (modCore s k f).icinvs = s.icinvs := rfl
@[simp] theorem modCore_lmaps (s : State) (k : Nat) (f : Core → Core) : (modCore s k f).lmaps = s.lmaps := rfl
@[simp] theorem modCore_meets (s : State) (k : Nat) (f : Core → Core) : (modCore s k f).meets = s.meets := rfl
@[simp] theorem modCore_fwwin (s : State) (k : Nat) (f : Core → Core) : (modCore s k f).fwwin = s.fwwin := rfl
@[simp] theorem modCore_fwt (s : State) (k : Nat) (f : Core → Core) : (modCore s k f).fwt = s.fwt := rfl
@[simp] theorem modCore_elbase (s : State) (k : Nat) (f : Core → Core) : (modCore s k f).elbase = s.elbase := rfl
@[simp] theorem modCore_elsize (s : State) (k : Nat) (f : Core → Core) : (modCore s k f).elsize = s.elsize := rfl
@[simp] theorem modCore_eltail (s : State) (k : Nat) (f : Core → Core) : (modCore s k f).eltail = s.eltail := rfl
@[simp] theorem modCore_elhead (s : State) (k : Nat) (f : Core → Core) : (modCore s k f).elhead = s.elhead := rfl
@[simp] theorem modCore_eldrop (s : State) (k : Nat) (f : Core → Core) : (modCore s k f).eldrop = s.eldrop := rfl
@[simp] theorem modCore_windows (s : State) (k : Nat) (f : Core → Core) : (modCore s k f).windows = s.windows := rfl
@[simp] theorem modCore_lasting (s : State) (k : Nat) (f : Core → Core) : (modCore s k f).lasting = s.lasting := rfl
@[simp] theorem modCore_deadRouters (s : State) (k : Nat) (f : Core → Core) : (modCore s k f).deadRouters = s.deadRouters := rfl
@[simp] theorem modCore_deadLinks (s : State) (k : Nat) (f : Core → Core) : (modCore s k f).deadLinks = s.deadLinks := rfl
@[simp] theorem modCore_netStopped (s : State) (k : Nat) (f : Core → Core) : (modCore s k f).netStopped = s.netStopped := rfl
@[simp] theorem modCore_reroutes (s : State) (k : Nat) (f : Core → Core) : (modCore s k f).reroutes = s.reroutes := rfl
@[simp] theorem modCore_agenda (s : State) (k : Nat) (f : Core → Core) : (modCore s k f).agenda = s.agenda := rfl
@[simp] theorem modCore_epoch (s : State) (k : Nat) (f : Core → Core) : (modCore s k f).epoch = s.epoch := rfl
@[simp] theorem modCore_choices (s : State) (k : Nat) (f : Core → Core) : (modCore s k f).choices = s.choices := rfl
@[simp] theorem modCore_free (s : State) (k : Nat) (f : Core → Core) : (modCore s k f).free = s.free := rfl
@[simp] theorem modCore_cur (s : State) (k : Nat) (f : Core → Core) : (modCore s k f).cur = s.cur := rfl

/-! ### modDie changes `dies` alone -/

@[simp] theorem modDie_gtick (s : State) (k : Nat) (f : Die → Die) : (modDie s k f).gtick = s.gtick := rfl
@[simp] theorem modDie_phase (s : State) (k : Nat) (f : Die → Die) : (modDie s k f).phase = s.phase := rfl
@[simp] theorem modDie_cycle (s : State) (k : Nat) (f : Die → Die) : (modDie s k f).cycle = s.cycle := rfl
@[simp] theorem modDie_coreclk (s : State) (k : Nat) (f : Die → Die) : (modDie s k f).coreclk = s.coreclk := rfl
@[simp] theorem modDie_clkchg (s : State) (k : Nat) (f : Die → Die) : (modDie s k f).clkchg = s.clkchg := rfl
@[simp] theorem modDie_stopAt (s : State) (k : Nat) (f : Die → Die) : (modDie s k f).stopAt = s.stopAt := rfl
@[simp] theorem modDie_stopped (s : State) (k : Nat) (f : Die → Die) : (modDie s k f).stopped = s.stopped := rfl
@[simp] theorem modDie_feat (s : State) (k : Nat) (f : Die → Die) : (modDie s k f).feat = s.feat := rfl
@[simp] theorem modDie_accept (s : State) (k : Nat) (f : Die → Die) : (modDie s k f).accept = s.accept := rfl
@[simp] theorem modDie_pkg (s : State) (k : Nat) (f : Die → Die) : (modDie s k f).pkg = s.pkg := rfl
@[simp] theorem modDie_failCode (s : State) (k : Nat) (f : Die → Die) : (modDie s k f).failCode = s.failCode := rfl
@[simp] theorem modDie_fwaddr (s : State) (k : Nat) (f : Die → Die) : (modDie s k f).fwaddr = s.fwaddr := rfl
@[simp] theorem modDie_fwcmd (s : State) (k : Nat) (f : Die → Die) : (modDie s k f).fwcmd = s.fwcmd := rfl
@[simp] theorem modDie_pwrlim (s : State) (k : Nat) (f : Die → Die) : (modDie s k f).pwrlim = s.pwrlim := rfl
@[simp] theorem modDie_pwrnow (s : State) (k : Nat) (f : Die → Die) : (modDie s k f).pwrnow = s.pwrnow := rfl
@[simp] theorem modDie_trblk (s : State) (k : Nat) (f : Die → Die) : (modDie s k f).trblk = s.trblk := rfl
@[simp] theorem modDie_pkgnum (s : State) (k : Nat) (f : Die → Die) : (modDie s k f).pkgnum = s.pkgnum := rfl
@[simp] theorem modDie_coremap (s : State) (k : Nat) (f : Die → Die) : (modDie s k f).coremap = s.coremap := rfl
@[simp] theorem modDie_mem (s : State) (k : Nat) (f : Die → Die) : (modDie s k f).mem = s.mem := rfl
@[simp] theorem modDie_poison (s : State) (k : Nat) (f : Die → Die) : (modDie s k f).poison = s.poison := rfl
@[simp] theorem modDie_frameClass (s : State) (k : Nat) (f : Die → Die) : (modDie s k f).frameClass = s.frameClass := rfl
@[simp] theorem modDie_byteClass (s : State) (k : Nat) (f : Die → Die) : (modDie s k f).byteClass = s.byteClass := rfl
@[simp] theorem modDie_errors (s : State) (k : Nat) (f : Die → Die) : (modDie s k f).errors = s.errors := rfl
@[simp] theorem modDie_cores (s : State) (k : Nat) (f : Die → Die) : (modDie s k f).cores = s.cores := rfl
@[simp] theorem modDie_groups (s : State) (k : Nat) (f : Die → Die) : (modDie s k f).groups = s.groups := rfl
@[simp] theorem modDie_gangs (s : State) (k : Nat) (f : Die → Die) : (modDie s k f).gangs = s.gangs := rfl
@[simp] theorem modDie_cmds (s : State) (k : Nat) (f : Die → Die) : (modDie s k f).cmds = s.cmds := rfl
@[simp] theorem modDie_tasks (s : State) (k : Nat) (f : Die → Die) : (modDie s k f).tasks = s.tasks := rfl
@[simp] theorem modDie_launches (s : State) (k : Nat) (f : Die → Die) : (modDie s k f).launches = s.launches := rfl
@[simp] theorem modDie_nextLaunchId (s : State) (k : Nat) (f : Die → Die) : (modDie s k f).nextLaunchId = s.nextLaunchId := rfl
@[simp] theorem modDie_ctxs (s : State) (k : Nat) (f : Die → Die) : (modDie s k f).ctxs = s.ctxs := rfl
@[simp] theorem modDie_fresh (s : State) (k : Nat) (f : Die → Die) : (modDie s k f).fresh = s.fresh := rfl
@[simp] theorem modDie_mstep (s : State) (k : Nat) (f : Die → Die) : (modDie s k f).mstep = s.mstep := rfl
@[simp] theorem modDie_links (s : State) (k : Nat) (f : Die → Die) : (modDie s k f).links = s.links := rfl
@[simp] theorem modDie_promotes (s : State) (k : Nat) (f : Die → Die) : (modDie s k f).promotes = s.promotes := rfl
@[simp] theorem modDie_plates (s : State) (k : Nat) (f : Die → Die) : (modDie s k f).plates = s.plates := rfl
@[simp] theorem modDie_edRegs (s : State) (k : Nat) (f : Die → Die) : (modDie s k f).edRegs = s.edRegs := rfl
@[simp] theorem modDie_polls (s : State) (k : Nat) (f : Die → Die) : (modDie s k f).polls = s.polls := rfl
@[simp] theorem modDie_caster (s : State) (k : Nat) (f : Die → Die) : (modDie s k f).caster = s.caster := rfl
@[simp] theorem modDie_trblks (s : State) (k : Nat) (f : Die → Die) : (modDie s k f).trblks = s.trblks := rfl
@[simp] theorem modDie_tlbs (s : State) (k : Nat) (f : Die → Die) : (modDie s k f).tlbs = s.tlbs := rfl
@[simp] theorem modDie_faults (s : State) (k : Nat) (f : Die → Die) : (modDie s k f).faults = s.faults := rfl
@[simp] theorem modDie_evicts (s : State) (k : Nat) (f : Die → Die) : (modDie s k f).evicts = s.evicts := rfl
@[simp] theorem modDie_taken (s : State) (k : Nat) (f : Die → Die) : (modDie s k f).taken = s.taken := rfl
@[simp] theorem modDie_peerPages (s : State) (k : Nat) (f : Die → Die) : (modDie s k f).peerPages = s.peerPages := rfl
@[simp] theorem modDie_icinvs (s : State) (k : Nat) (f : Die → Die) : (modDie s k f).icinvs = s.icinvs := rfl
@[simp] theorem modDie_lmaps (s : State) (k : Nat) (f : Die → Die) : (modDie s k f).lmaps = s.lmaps := rfl
@[simp] theorem modDie_meets (s : State) (k : Nat) (f : Die → Die) : (modDie s k f).meets = s.meets := rfl
@[simp] theorem modDie_fwwin (s : State) (k : Nat) (f : Die → Die) : (modDie s k f).fwwin = s.fwwin := rfl
@[simp] theorem modDie_fwt (s : State) (k : Nat) (f : Die → Die) : (modDie s k f).fwt = s.fwt := rfl
@[simp] theorem modDie_elbase (s : State) (k : Nat) (f : Die → Die) : (modDie s k f).elbase = s.elbase := rfl
@[simp] theorem modDie_elsize (s : State) (k : Nat) (f : Die → Die) : (modDie s k f).elsize = s.elsize := rfl
@[simp] theorem modDie_eltail (s : State) (k : Nat) (f : Die → Die) : (modDie s k f).eltail = s.eltail := rfl
@[simp] theorem modDie_elhead (s : State) (k : Nat) (f : Die → Die) : (modDie s k f).elhead = s.elhead := rfl
@[simp] theorem modDie_eldrop (s : State) (k : Nat) (f : Die → Die) : (modDie s k f).eldrop = s.eldrop := rfl
@[simp] theorem modDie_windows (s : State) (k : Nat) (f : Die → Die) : (modDie s k f).windows = s.windows := rfl
@[simp] theorem modDie_lasting (s : State) (k : Nat) (f : Die → Die) : (modDie s k f).lasting = s.lasting := rfl
@[simp] theorem modDie_deadRouters (s : State) (k : Nat) (f : Die → Die) : (modDie s k f).deadRouters = s.deadRouters := rfl
@[simp] theorem modDie_deadLinks (s : State) (k : Nat) (f : Die → Die) : (modDie s k f).deadLinks = s.deadLinks := rfl
@[simp] theorem modDie_netStopped (s : State) (k : Nat) (f : Die → Die) : (modDie s k f).netStopped = s.netStopped := rfl
@[simp] theorem modDie_reroutes (s : State) (k : Nat) (f : Die → Die) : (modDie s k f).reroutes = s.reroutes := rfl
@[simp] theorem modDie_agenda (s : State) (k : Nat) (f : Die → Die) : (modDie s k f).agenda = s.agenda := rfl
@[simp] theorem modDie_epoch (s : State) (k : Nat) (f : Die → Die) : (modDie s k f).epoch = s.epoch := rfl
@[simp] theorem modDie_choices (s : State) (k : Nat) (f : Die → Die) : (modDie s k f).choices = s.choices := rfl
@[simp] theorem modDie_free (s : State) (k : Nat) (f : Die → Die) : (modDie s k f).free = s.free := rfl
@[simp] theorem modDie_cur (s : State) (k : Nat) (f : Die → Die) : (modDie s k f).cur = s.cur := rfl

/-! ### modCtx changes `ctxs` alone -/

@[simp] theorem modCtx_gtick (s : State) (k : Nat) (f : Ctx → Ctx) : (modCtx s k f).gtick = s.gtick := rfl
@[simp] theorem modCtx_phase (s : State) (k : Nat) (f : Ctx → Ctx) : (modCtx s k f).phase = s.phase := rfl
@[simp] theorem modCtx_cycle (s : State) (k : Nat) (f : Ctx → Ctx) : (modCtx s k f).cycle = s.cycle := rfl
@[simp] theorem modCtx_coreclk (s : State) (k : Nat) (f : Ctx → Ctx) : (modCtx s k f).coreclk = s.coreclk := rfl
@[simp] theorem modCtx_clkchg (s : State) (k : Nat) (f : Ctx → Ctx) : (modCtx s k f).clkchg = s.clkchg := rfl
@[simp] theorem modCtx_stopAt (s : State) (k : Nat) (f : Ctx → Ctx) : (modCtx s k f).stopAt = s.stopAt := rfl
@[simp] theorem modCtx_stopped (s : State) (k : Nat) (f : Ctx → Ctx) : (modCtx s k f).stopped = s.stopped := rfl
@[simp] theorem modCtx_feat (s : State) (k : Nat) (f : Ctx → Ctx) : (modCtx s k f).feat = s.feat := rfl
@[simp] theorem modCtx_accept (s : State) (k : Nat) (f : Ctx → Ctx) : (modCtx s k f).accept = s.accept := rfl
@[simp] theorem modCtx_pkg (s : State) (k : Nat) (f : Ctx → Ctx) : (modCtx s k f).pkg = s.pkg := rfl
@[simp] theorem modCtx_failCode (s : State) (k : Nat) (f : Ctx → Ctx) : (modCtx s k f).failCode = s.failCode := rfl
@[simp] theorem modCtx_fwaddr (s : State) (k : Nat) (f : Ctx → Ctx) : (modCtx s k f).fwaddr = s.fwaddr := rfl
@[simp] theorem modCtx_fwcmd (s : State) (k : Nat) (f : Ctx → Ctx) : (modCtx s k f).fwcmd = s.fwcmd := rfl
@[simp] theorem modCtx_pwrlim (s : State) (k : Nat) (f : Ctx → Ctx) : (modCtx s k f).pwrlim = s.pwrlim := rfl
@[simp] theorem modCtx_pwrnow (s : State) (k : Nat) (f : Ctx → Ctx) : (modCtx s k f).pwrnow = s.pwrnow := rfl
@[simp] theorem modCtx_trblk (s : State) (k : Nat) (f : Ctx → Ctx) : (modCtx s k f).trblk = s.trblk := rfl
@[simp] theorem modCtx_pkgnum (s : State) (k : Nat) (f : Ctx → Ctx) : (modCtx s k f).pkgnum = s.pkgnum := rfl
@[simp] theorem modCtx_coremap (s : State) (k : Nat) (f : Ctx → Ctx) : (modCtx s k f).coremap = s.coremap := rfl
@[simp] theorem modCtx_mem (s : State) (k : Nat) (f : Ctx → Ctx) : (modCtx s k f).mem = s.mem := rfl
@[simp] theorem modCtx_poison (s : State) (k : Nat) (f : Ctx → Ctx) : (modCtx s k f).poison = s.poison := rfl
@[simp] theorem modCtx_frameClass (s : State) (k : Nat) (f : Ctx → Ctx) : (modCtx s k f).frameClass = s.frameClass := rfl
@[simp] theorem modCtx_byteClass (s : State) (k : Nat) (f : Ctx → Ctx) : (modCtx s k f).byteClass = s.byteClass := rfl
@[simp] theorem modCtx_errors (s : State) (k : Nat) (f : Ctx → Ctx) : (modCtx s k f).errors = s.errors := rfl
@[simp] theorem modCtx_cores (s : State) (k : Nat) (f : Ctx → Ctx) : (modCtx s k f).cores = s.cores := rfl
@[simp] theorem modCtx_dies (s : State) (k : Nat) (f : Ctx → Ctx) : (modCtx s k f).dies = s.dies := rfl
@[simp] theorem modCtx_groups (s : State) (k : Nat) (f : Ctx → Ctx) : (modCtx s k f).groups = s.groups := rfl
@[simp] theorem modCtx_gangs (s : State) (k : Nat) (f : Ctx → Ctx) : (modCtx s k f).gangs = s.gangs := rfl
@[simp] theorem modCtx_cmds (s : State) (k : Nat) (f : Ctx → Ctx) : (modCtx s k f).cmds = s.cmds := rfl
@[simp] theorem modCtx_tasks (s : State) (k : Nat) (f : Ctx → Ctx) : (modCtx s k f).tasks = s.tasks := rfl
@[simp] theorem modCtx_launches (s : State) (k : Nat) (f : Ctx → Ctx) : (modCtx s k f).launches = s.launches := rfl
@[simp] theorem modCtx_nextLaunchId (s : State) (k : Nat) (f : Ctx → Ctx) : (modCtx s k f).nextLaunchId = s.nextLaunchId := rfl
@[simp] theorem modCtx_fresh (s : State) (k : Nat) (f : Ctx → Ctx) : (modCtx s k f).fresh = s.fresh := rfl
@[simp] theorem modCtx_mstep (s : State) (k : Nat) (f : Ctx → Ctx) : (modCtx s k f).mstep = s.mstep := rfl
@[simp] theorem modCtx_links (s : State) (k : Nat) (f : Ctx → Ctx) : (modCtx s k f).links = s.links := rfl
@[simp] theorem modCtx_promotes (s : State) (k : Nat) (f : Ctx → Ctx) : (modCtx s k f).promotes = s.promotes := rfl
@[simp] theorem modCtx_plates (s : State) (k : Nat) (f : Ctx → Ctx) : (modCtx s k f).plates = s.plates := rfl
@[simp] theorem modCtx_edRegs (s : State) (k : Nat) (f : Ctx → Ctx) : (modCtx s k f).edRegs = s.edRegs := rfl
@[simp] theorem modCtx_polls (s : State) (k : Nat) (f : Ctx → Ctx) : (modCtx s k f).polls = s.polls := rfl
@[simp] theorem modCtx_caster (s : State) (k : Nat) (f : Ctx → Ctx) : (modCtx s k f).caster = s.caster := rfl
@[simp] theorem modCtx_trblks (s : State) (k : Nat) (f : Ctx → Ctx) : (modCtx s k f).trblks = s.trblks := rfl
@[simp] theorem modCtx_tlbs (s : State) (k : Nat) (f : Ctx → Ctx) : (modCtx s k f).tlbs = s.tlbs := rfl
@[simp] theorem modCtx_faults (s : State) (k : Nat) (f : Ctx → Ctx) : (modCtx s k f).faults = s.faults := rfl
@[simp] theorem modCtx_evicts (s : State) (k : Nat) (f : Ctx → Ctx) : (modCtx s k f).evicts = s.evicts := rfl
@[simp] theorem modCtx_taken (s : State) (k : Nat) (f : Ctx → Ctx) : (modCtx s k f).taken = s.taken := rfl
@[simp] theorem modCtx_peerPages (s : State) (k : Nat) (f : Ctx → Ctx) : (modCtx s k f).peerPages = s.peerPages := rfl
@[simp] theorem modCtx_icinvs (s : State) (k : Nat) (f : Ctx → Ctx) : (modCtx s k f).icinvs = s.icinvs := rfl
@[simp] theorem modCtx_lmaps (s : State) (k : Nat) (f : Ctx → Ctx) : (modCtx s k f).lmaps = s.lmaps := rfl
@[simp] theorem modCtx_meets (s : State) (k : Nat) (f : Ctx → Ctx) : (modCtx s k f).meets = s.meets := rfl
@[simp] theorem modCtx_fwwin (s : State) (k : Nat) (f : Ctx → Ctx) : (modCtx s k f).fwwin = s.fwwin := rfl
@[simp] theorem modCtx_fwt (s : State) (k : Nat) (f : Ctx → Ctx) : (modCtx s k f).fwt = s.fwt := rfl
@[simp] theorem modCtx_elbase (s : State) (k : Nat) (f : Ctx → Ctx) : (modCtx s k f).elbase = s.elbase := rfl
@[simp] theorem modCtx_elsize (s : State) (k : Nat) (f : Ctx → Ctx) : (modCtx s k f).elsize = s.elsize := rfl
@[simp] theorem modCtx_eltail (s : State) (k : Nat) (f : Ctx → Ctx) : (modCtx s k f).eltail = s.eltail := rfl
@[simp] theorem modCtx_elhead (s : State) (k : Nat) (f : Ctx → Ctx) : (modCtx s k f).elhead = s.elhead := rfl
@[simp] theorem modCtx_eldrop (s : State) (k : Nat) (f : Ctx → Ctx) : (modCtx s k f).eldrop = s.eldrop := rfl
@[simp] theorem modCtx_windows (s : State) (k : Nat) (f : Ctx → Ctx) : (modCtx s k f).windows = s.windows := rfl
@[simp] theorem modCtx_lasting (s : State) (k : Nat) (f : Ctx → Ctx) : (modCtx s k f).lasting = s.lasting := rfl
@[simp] theorem modCtx_deadRouters (s : State) (k : Nat) (f : Ctx → Ctx) : (modCtx s k f).deadRouters = s.deadRouters := rfl
@[simp] theorem modCtx_deadLinks (s : State) (k : Nat) (f : Ctx → Ctx) : (modCtx s k f).deadLinks = s.deadLinks := rfl
@[simp] theorem modCtx_netStopped (s : State) (k : Nat) (f : Ctx → Ctx) : (modCtx s k f).netStopped = s.netStopped := rfl
@[simp] theorem modCtx_reroutes (s : State) (k : Nat) (f : Ctx → Ctx) : (modCtx s k f).reroutes = s.reroutes := rfl
@[simp] theorem modCtx_agenda (s : State) (k : Nat) (f : Ctx → Ctx) : (modCtx s k f).agenda = s.agenda := rfl
@[simp] theorem modCtx_epoch (s : State) (k : Nat) (f : Ctx → Ctx) : (modCtx s k f).epoch = s.epoch := rfl
@[simp] theorem modCtx_choices (s : State) (k : Nat) (f : Ctx → Ctx) : (modCtx s k f).choices = s.choices := rfl
@[simp] theorem modCtx_free (s : State) (k : Nat) (f : Ctx → Ctx) : (modCtx s k f).free = s.free := rfl
@[simp] theorem modCtx_cur (s : State) (k : Nat) (f : Ctx → Ctx) : (modCtx s k f).cur = s.cur := rfl

/-! ### modPlate changes `plates` alone -/

@[simp] theorem modPlate_gtick (s : State) (k : Nat) (f : Plate → Plate) : (modPlate s k f).gtick = s.gtick := rfl
@[simp] theorem modPlate_phase (s : State) (k : Nat) (f : Plate → Plate) : (modPlate s k f).phase = s.phase := rfl
@[simp] theorem modPlate_cycle (s : State) (k : Nat) (f : Plate → Plate) : (modPlate s k f).cycle = s.cycle := rfl
@[simp] theorem modPlate_coreclk (s : State) (k : Nat) (f : Plate → Plate) : (modPlate s k f).coreclk = s.coreclk := rfl
@[simp] theorem modPlate_clkchg (s : State) (k : Nat) (f : Plate → Plate) : (modPlate s k f).clkchg = s.clkchg := rfl
@[simp] theorem modPlate_stopAt (s : State) (k : Nat) (f : Plate → Plate) : (modPlate s k f).stopAt = s.stopAt := rfl
@[simp] theorem modPlate_stopped (s : State) (k : Nat) (f : Plate → Plate) : (modPlate s k f).stopped = s.stopped := rfl
@[simp] theorem modPlate_feat (s : State) (k : Nat) (f : Plate → Plate) : (modPlate s k f).feat = s.feat := rfl
@[simp] theorem modPlate_accept (s : State) (k : Nat) (f : Plate → Plate) : (modPlate s k f).accept = s.accept := rfl
@[simp] theorem modPlate_pkg (s : State) (k : Nat) (f : Plate → Plate) : (modPlate s k f).pkg = s.pkg := rfl
@[simp] theorem modPlate_failCode (s : State) (k : Nat) (f : Plate → Plate) : (modPlate s k f).failCode = s.failCode := rfl
@[simp] theorem modPlate_fwaddr (s : State) (k : Nat) (f : Plate → Plate) : (modPlate s k f).fwaddr = s.fwaddr := rfl
@[simp] theorem modPlate_fwcmd (s : State) (k : Nat) (f : Plate → Plate) : (modPlate s k f).fwcmd = s.fwcmd := rfl
@[simp] theorem modPlate_pwrlim (s : State) (k : Nat) (f : Plate → Plate) : (modPlate s k f).pwrlim = s.pwrlim := rfl
@[simp] theorem modPlate_pwrnow (s : State) (k : Nat) (f : Plate → Plate) : (modPlate s k f).pwrnow = s.pwrnow := rfl
@[simp] theorem modPlate_trblk (s : State) (k : Nat) (f : Plate → Plate) : (modPlate s k f).trblk = s.trblk := rfl
@[simp] theorem modPlate_pkgnum (s : State) (k : Nat) (f : Plate → Plate) : (modPlate s k f).pkgnum = s.pkgnum := rfl
@[simp] theorem modPlate_coremap (s : State) (k : Nat) (f : Plate → Plate) : (modPlate s k f).coremap = s.coremap := rfl
@[simp] theorem modPlate_mem (s : State) (k : Nat) (f : Plate → Plate) : (modPlate s k f).mem = s.mem := rfl
@[simp] theorem modPlate_poison (s : State) (k : Nat) (f : Plate → Plate) : (modPlate s k f).poison = s.poison := rfl
@[simp] theorem modPlate_frameClass (s : State) (k : Nat) (f : Plate → Plate) : (modPlate s k f).frameClass = s.frameClass := rfl
@[simp] theorem modPlate_byteClass (s : State) (k : Nat) (f : Plate → Plate) : (modPlate s k f).byteClass = s.byteClass := rfl
@[simp] theorem modPlate_errors (s : State) (k : Nat) (f : Plate → Plate) : (modPlate s k f).errors = s.errors := rfl
@[simp] theorem modPlate_cores (s : State) (k : Nat) (f : Plate → Plate) : (modPlate s k f).cores = s.cores := rfl
@[simp] theorem modPlate_dies (s : State) (k : Nat) (f : Plate → Plate) : (modPlate s k f).dies = s.dies := rfl
@[simp] theorem modPlate_groups (s : State) (k : Nat) (f : Plate → Plate) : (modPlate s k f).groups = s.groups := rfl
@[simp] theorem modPlate_gangs (s : State) (k : Nat) (f : Plate → Plate) : (modPlate s k f).gangs = s.gangs := rfl
@[simp] theorem modPlate_cmds (s : State) (k : Nat) (f : Plate → Plate) : (modPlate s k f).cmds = s.cmds := rfl
@[simp] theorem modPlate_tasks (s : State) (k : Nat) (f : Plate → Plate) : (modPlate s k f).tasks = s.tasks := rfl
@[simp] theorem modPlate_launches (s : State) (k : Nat) (f : Plate → Plate) : (modPlate s k f).launches = s.launches := rfl
@[simp] theorem modPlate_nextLaunchId (s : State) (k : Nat) (f : Plate → Plate) : (modPlate s k f).nextLaunchId = s.nextLaunchId := rfl
@[simp] theorem modPlate_ctxs (s : State) (k : Nat) (f : Plate → Plate) : (modPlate s k f).ctxs = s.ctxs := rfl
@[simp] theorem modPlate_fresh (s : State) (k : Nat) (f : Plate → Plate) : (modPlate s k f).fresh = s.fresh := rfl
@[simp] theorem modPlate_mstep (s : State) (k : Nat) (f : Plate → Plate) : (modPlate s k f).mstep = s.mstep := rfl
@[simp] theorem modPlate_links (s : State) (k : Nat) (f : Plate → Plate) : (modPlate s k f).links = s.links := rfl
@[simp] theorem modPlate_promotes (s : State) (k : Nat) (f : Plate → Plate) : (modPlate s k f).promotes = s.promotes := rfl
@[simp] theorem modPlate_edRegs (s : State) (k : Nat) (f : Plate → Plate) : (modPlate s k f).edRegs = s.edRegs := rfl
@[simp] theorem modPlate_polls (s : State) (k : Nat) (f : Plate → Plate) : (modPlate s k f).polls = s.polls := rfl
@[simp] theorem modPlate_caster (s : State) (k : Nat) (f : Plate → Plate) : (modPlate s k f).caster = s.caster := rfl
@[simp] theorem modPlate_trblks (s : State) (k : Nat) (f : Plate → Plate) : (modPlate s k f).trblks = s.trblks := rfl
@[simp] theorem modPlate_tlbs (s : State) (k : Nat) (f : Plate → Plate) : (modPlate s k f).tlbs = s.tlbs := rfl
@[simp] theorem modPlate_faults (s : State) (k : Nat) (f : Plate → Plate) : (modPlate s k f).faults = s.faults := rfl
@[simp] theorem modPlate_evicts (s : State) (k : Nat) (f : Plate → Plate) : (modPlate s k f).evicts = s.evicts := rfl
@[simp] theorem modPlate_taken (s : State) (k : Nat) (f : Plate → Plate) : (modPlate s k f).taken = s.taken := rfl
@[simp] theorem modPlate_peerPages (s : State) (k : Nat) (f : Plate → Plate) : (modPlate s k f).peerPages = s.peerPages := rfl
@[simp] theorem modPlate_icinvs (s : State) (k : Nat) (f : Plate → Plate) : (modPlate s k f).icinvs = s.icinvs := rfl
@[simp] theorem modPlate_lmaps (s : State) (k : Nat) (f : Plate → Plate) : (modPlate s k f).lmaps = s.lmaps := rfl
@[simp] theorem modPlate_meets (s : State) (k : Nat) (f : Plate → Plate) : (modPlate s k f).meets = s.meets := rfl
@[simp] theorem modPlate_fwwin (s : State) (k : Nat) (f : Plate → Plate) : (modPlate s k f).fwwin = s.fwwin := rfl
@[simp] theorem modPlate_fwt (s : State) (k : Nat) (f : Plate → Plate) : (modPlate s k f).fwt = s.fwt := rfl
@[simp] theorem modPlate_elbase (s : State) (k : Nat) (f : Plate → Plate) : (modPlate s k f).elbase = s.elbase := rfl
@[simp] theorem modPlate_elsize (s : State) (k : Nat) (f : Plate → Plate) : (modPlate s k f).elsize = s.elsize := rfl
@[simp] theorem modPlate_eltail (s : State) (k : Nat) (f : Plate → Plate) : (modPlate s k f).eltail = s.eltail := rfl
@[simp] theorem modPlate_elhead (s : State) (k : Nat) (f : Plate → Plate) : (modPlate s k f).elhead = s.elhead := rfl
@[simp] theorem modPlate_eldrop (s : State) (k : Nat) (f : Plate → Plate) : (modPlate s k f).eldrop = s.eldrop := rfl
@[simp] theorem modPlate_windows (s : State) (k : Nat) (f : Plate → Plate) : (modPlate s k f).windows = s.windows := rfl
@[simp] theorem modPlate_lasting (s : State) (k : Nat) (f : Plate → Plate) : (modPlate s k f).lasting = s.lasting := rfl
@[simp] theorem modPlate_deadRouters (s : State) (k : Nat) (f : Plate → Plate) : (modPlate s k f).deadRouters = s.deadRouters := rfl
@[simp] theorem modPlate_deadLinks (s : State) (k : Nat) (f : Plate → Plate) : (modPlate s k f).deadLinks = s.deadLinks := rfl
@[simp] theorem modPlate_netStopped (s : State) (k : Nat) (f : Plate → Plate) : (modPlate s k f).netStopped = s.netStopped := rfl
@[simp] theorem modPlate_reroutes (s : State) (k : Nat) (f : Plate → Plate) : (modPlate s k f).reroutes = s.reroutes := rfl
@[simp] theorem modPlate_agenda (s : State) (k : Nat) (f : Plate → Plate) : (modPlate s k f).agenda = s.agenda := rfl
@[simp] theorem modPlate_epoch (s : State) (k : Nat) (f : Plate → Plate) : (modPlate s k f).epoch = s.epoch := rfl
@[simp] theorem modPlate_choices (s : State) (k : Nat) (f : Plate → Plate) : (modPlate s k f).choices = s.choices := rfl
@[simp] theorem modPlate_free (s : State) (k : Nat) (f : Plate → Plate) : (modPlate s k f).free = s.free := rfl
@[simp] theorem modPlate_cur (s : State) (k : Nat) (f : Plate → Plate) : (modPlate s k f).cur = s.cur := rfl

/-! ### wrBytes changes `mem` alone -/

@[simp] theorem wrBytes_gtick (s : State) (k : Nat) (bs : List Byte) : (wrBytes s k bs).gtick = s.gtick := rfl
@[simp] theorem wrBytes_phase (s : State) (k : Nat) (bs : List Byte) : (wrBytes s k bs).phase = s.phase := rfl
@[simp] theorem wrBytes_cycle (s : State) (k : Nat) (bs : List Byte) : (wrBytes s k bs).cycle = s.cycle := rfl
@[simp] theorem wrBytes_coreclk (s : State) (k : Nat) (bs : List Byte) : (wrBytes s k bs).coreclk = s.coreclk := rfl
@[simp] theorem wrBytes_clkchg (s : State) (k : Nat) (bs : List Byte) : (wrBytes s k bs).clkchg = s.clkchg := rfl
@[simp] theorem wrBytes_stopAt (s : State) (k : Nat) (bs : List Byte) : (wrBytes s k bs).stopAt = s.stopAt := rfl
@[simp] theorem wrBytes_stopped (s : State) (k : Nat) (bs : List Byte) : (wrBytes s k bs).stopped = s.stopped := rfl
@[simp] theorem wrBytes_feat (s : State) (k : Nat) (bs : List Byte) : (wrBytes s k bs).feat = s.feat := rfl
@[simp] theorem wrBytes_accept (s : State) (k : Nat) (bs : List Byte) : (wrBytes s k bs).accept = s.accept := rfl
@[simp] theorem wrBytes_pkg (s : State) (k : Nat) (bs : List Byte) : (wrBytes s k bs).pkg = s.pkg := rfl
@[simp] theorem wrBytes_failCode (s : State) (k : Nat) (bs : List Byte) : (wrBytes s k bs).failCode = s.failCode := rfl
@[simp] theorem wrBytes_fwaddr (s : State) (k : Nat) (bs : List Byte) : (wrBytes s k bs).fwaddr = s.fwaddr := rfl
@[simp] theorem wrBytes_fwcmd (s : State) (k : Nat) (bs : List Byte) : (wrBytes s k bs).fwcmd = s.fwcmd := rfl
@[simp] theorem wrBytes_pwrlim (s : State) (k : Nat) (bs : List Byte) : (wrBytes s k bs).pwrlim = s.pwrlim := rfl
@[simp] theorem wrBytes_pwrnow (s : State) (k : Nat) (bs : List Byte) : (wrBytes s k bs).pwrnow = s.pwrnow := rfl
@[simp] theorem wrBytes_trblk (s : State) (k : Nat) (bs : List Byte) : (wrBytes s k bs).trblk = s.trblk := rfl
@[simp] theorem wrBytes_pkgnum (s : State) (k : Nat) (bs : List Byte) : (wrBytes s k bs).pkgnum = s.pkgnum := rfl
@[simp] theorem wrBytes_coremap (s : State) (k : Nat) (bs : List Byte) : (wrBytes s k bs).coremap = s.coremap := rfl
@[simp] theorem wrBytes_poison (s : State) (k : Nat) (bs : List Byte) : (wrBytes s k bs).poison = s.poison := rfl
@[simp] theorem wrBytes_frameClass (s : State) (k : Nat) (bs : List Byte) : (wrBytes s k bs).frameClass = s.frameClass := rfl
@[simp] theorem wrBytes_byteClass (s : State) (k : Nat) (bs : List Byte) : (wrBytes s k bs).byteClass = s.byteClass := rfl
@[simp] theorem wrBytes_errors (s : State) (k : Nat) (bs : List Byte) : (wrBytes s k bs).errors = s.errors := rfl
@[simp] theorem wrBytes_cores (s : State) (k : Nat) (bs : List Byte) : (wrBytes s k bs).cores = s.cores := rfl
@[simp] theorem wrBytes_dies (s : State) (k : Nat) (bs : List Byte) : (wrBytes s k bs).dies = s.dies := rfl
@[simp] theorem wrBytes_groups (s : State) (k : Nat) (bs : List Byte) : (wrBytes s k bs).groups = s.groups := rfl
@[simp] theorem wrBytes_gangs (s : State) (k : Nat) (bs : List Byte) : (wrBytes s k bs).gangs = s.gangs := rfl
@[simp] theorem wrBytes_cmds (s : State) (k : Nat) (bs : List Byte) : (wrBytes s k bs).cmds = s.cmds := rfl
@[simp] theorem wrBytes_tasks (s : State) (k : Nat) (bs : List Byte) : (wrBytes s k bs).tasks = s.tasks := rfl
@[simp] theorem wrBytes_launches (s : State) (k : Nat) (bs : List Byte) : (wrBytes s k bs).launches = s.launches := rfl
@[simp] theorem wrBytes_nextLaunchId (s : State) (k : Nat) (bs : List Byte) : (wrBytes s k bs).nextLaunchId = s.nextLaunchId := rfl
@[simp] theorem wrBytes_ctxs (s : State) (k : Nat) (bs : List Byte) : (wrBytes s k bs).ctxs = s.ctxs := rfl
@[simp] theorem wrBytes_fresh (s : State) (k : Nat) (bs : List Byte) : (wrBytes s k bs).fresh = s.fresh := rfl
@[simp] theorem wrBytes_mstep (s : State) (k : Nat) (bs : List Byte) : (wrBytes s k bs).mstep = s.mstep := rfl
@[simp] theorem wrBytes_links (s : State) (k : Nat) (bs : List Byte) : (wrBytes s k bs).links = s.links := rfl
@[simp] theorem wrBytes_promotes (s : State) (k : Nat) (bs : List Byte) : (wrBytes s k bs).promotes = s.promotes := rfl
@[simp] theorem wrBytes_plates (s : State) (k : Nat) (bs : List Byte) : (wrBytes s k bs).plates = s.plates := rfl
@[simp] theorem wrBytes_edRegs (s : State) (k : Nat) (bs : List Byte) : (wrBytes s k bs).edRegs = s.edRegs := rfl
@[simp] theorem wrBytes_polls (s : State) (k : Nat) (bs : List Byte) : (wrBytes s k bs).polls = s.polls := rfl
@[simp] theorem wrBytes_caster (s : State) (k : Nat) (bs : List Byte) : (wrBytes s k bs).caster = s.caster := rfl
@[simp] theorem wrBytes_trblks (s : State) (k : Nat) (bs : List Byte) : (wrBytes s k bs).trblks = s.trblks := rfl
@[simp] theorem wrBytes_tlbs (s : State) (k : Nat) (bs : List Byte) : (wrBytes s k bs).tlbs = s.tlbs := rfl
@[simp] theorem wrBytes_faults (s : State) (k : Nat) (bs : List Byte) : (wrBytes s k bs).faults = s.faults := rfl
@[simp] theorem wrBytes_evicts (s : State) (k : Nat) (bs : List Byte) : (wrBytes s k bs).evicts = s.evicts := rfl
@[simp] theorem wrBytes_taken (s : State) (k : Nat) (bs : List Byte) : (wrBytes s k bs).taken = s.taken := rfl
@[simp] theorem wrBytes_peerPages (s : State) (k : Nat) (bs : List Byte) : (wrBytes s k bs).peerPages = s.peerPages := rfl
@[simp] theorem wrBytes_icinvs (s : State) (k : Nat) (bs : List Byte) : (wrBytes s k bs).icinvs = s.icinvs := rfl
@[simp] theorem wrBytes_lmaps (s : State) (k : Nat) (bs : List Byte) : (wrBytes s k bs).lmaps = s.lmaps := rfl
@[simp] theorem wrBytes_meets (s : State) (k : Nat) (bs : List Byte) : (wrBytes s k bs).meets = s.meets := rfl
@[simp] theorem wrBytes_fwwin (s : State) (k : Nat) (bs : List Byte) : (wrBytes s k bs).fwwin = s.fwwin := rfl
@[simp] theorem wrBytes_fwt (s : State) (k : Nat) (bs : List Byte) : (wrBytes s k bs).fwt = s.fwt := rfl
@[simp] theorem wrBytes_elbase (s : State) (k : Nat) (bs : List Byte) : (wrBytes s k bs).elbase = s.elbase := rfl
@[simp] theorem wrBytes_elsize (s : State) (k : Nat) (bs : List Byte) : (wrBytes s k bs).elsize = s.elsize := rfl
@[simp] theorem wrBytes_eltail (s : State) (k : Nat) (bs : List Byte) : (wrBytes s k bs).eltail = s.eltail := rfl
@[simp] theorem wrBytes_elhead (s : State) (k : Nat) (bs : List Byte) : (wrBytes s k bs).elhead = s.elhead := rfl
@[simp] theorem wrBytes_eldrop (s : State) (k : Nat) (bs : List Byte) : (wrBytes s k bs).eldrop = s.eldrop := rfl
@[simp] theorem wrBytes_windows (s : State) (k : Nat) (bs : List Byte) : (wrBytes s k bs).windows = s.windows := rfl
@[simp] theorem wrBytes_lasting (s : State) (k : Nat) (bs : List Byte) : (wrBytes s k bs).lasting = s.lasting := rfl
@[simp] theorem wrBytes_deadRouters (s : State) (k : Nat) (bs : List Byte) : (wrBytes s k bs).deadRouters = s.deadRouters := rfl
@[simp] theorem wrBytes_deadLinks (s : State) (k : Nat) (bs : List Byte) : (wrBytes s k bs).deadLinks = s.deadLinks := rfl
@[simp] theorem wrBytes_netStopped (s : State) (k : Nat) (bs : List Byte) : (wrBytes s k bs).netStopped = s.netStopped := rfl
@[simp] theorem wrBytes_reroutes (s : State) (k : Nat) (bs : List Byte) : (wrBytes s k bs).reroutes = s.reroutes := rfl
@[simp] theorem wrBytes_agenda (s : State) (k : Nat) (bs : List Byte) : (wrBytes s k bs).agenda = s.agenda := rfl
@[simp] theorem wrBytes_epoch (s : State) (k : Nat) (bs : List Byte) : (wrBytes s k bs).epoch = s.epoch := rfl
@[simp] theorem wrBytes_choices (s : State) (k : Nat) (bs : List Byte) : (wrBytes s k bs).choices = s.choices := rfl
@[simp] theorem wrBytes_free (s : State) (k : Nat) (bs : List Byte) : (wrBytes s k bs).free = s.free := rfl
@[simp] theorem wrBytes_cur (s : State) (k : Nat) (bs : List Byte) : (wrBytes s k bs).cur = s.cur := rfl

/-! ### modLane changes `groups` alone -/

@[simp] theorem modLane_gtick (s : State) (u l : Nat) (f : Lane → Lane) : (modLane s u l f).gtick = s.gtick := rfl
@[simp] theorem modLane_phase (s : State) (u l : Nat) (f : Lane → Lane) : (modLane s u l f).phase = s.phase := rfl
@[simp] theorem modLane_cycle (s : State) (u l : Nat) (f : Lane → Lane) : (modLane s u l f).cycle = s.cycle := rfl
@[simp] theorem modLane_coreclk (s : State) (u l : Nat) (f : Lane → Lane) : (modLane s u l f).coreclk = s.coreclk := rfl
@[simp] theorem modLane_clkchg (s : State) (u l : Nat) (f : Lane → Lane) : (modLane s u l f).clkchg = s.clkchg := rfl
@[simp] theorem modLane_stopAt (s : State) (u l : Nat) (f : Lane → Lane) : (modLane s u l f).stopAt = s.stopAt := rfl
@[simp] theorem modLane_stopped (s : State) (u l : Nat) (f : Lane → Lane) : (modLane s u l f).stopped = s.stopped := rfl
@[simp] theorem modLane_feat (s : State) (u l : Nat) (f : Lane → Lane) : (modLane s u l f).feat = s.feat := rfl
@[simp] theorem modLane_accept (s : State) (u l : Nat) (f : Lane → Lane) : (modLane s u l f).accept = s.accept := rfl
@[simp] theorem modLane_pkg (s : State) (u l : Nat) (f : Lane → Lane) : (modLane s u l f).pkg = s.pkg := rfl
@[simp] theorem modLane_failCode (s : State) (u l : Nat) (f : Lane → Lane) : (modLane s u l f).failCode = s.failCode := rfl
@[simp] theorem modLane_fwaddr (s : State) (u l : Nat) (f : Lane → Lane) : (modLane s u l f).fwaddr = s.fwaddr := rfl
@[simp] theorem modLane_fwcmd (s : State) (u l : Nat) (f : Lane → Lane) : (modLane s u l f).fwcmd = s.fwcmd := rfl
@[simp] theorem modLane_pwrlim (s : State) (u l : Nat) (f : Lane → Lane) : (modLane s u l f).pwrlim = s.pwrlim := rfl
@[simp] theorem modLane_pwrnow (s : State) (u l : Nat) (f : Lane → Lane) : (modLane s u l f).pwrnow = s.pwrnow := rfl
@[simp] theorem modLane_trblk (s : State) (u l : Nat) (f : Lane → Lane) : (modLane s u l f).trblk = s.trblk := rfl
@[simp] theorem modLane_pkgnum (s : State) (u l : Nat) (f : Lane → Lane) : (modLane s u l f).pkgnum = s.pkgnum := rfl
@[simp] theorem modLane_coremap (s : State) (u l : Nat) (f : Lane → Lane) : (modLane s u l f).coremap = s.coremap := rfl
@[simp] theorem modLane_mem (s : State) (u l : Nat) (f : Lane → Lane) : (modLane s u l f).mem = s.mem := rfl
@[simp] theorem modLane_poison (s : State) (u l : Nat) (f : Lane → Lane) : (modLane s u l f).poison = s.poison := rfl
@[simp] theorem modLane_frameClass (s : State) (u l : Nat) (f : Lane → Lane) : (modLane s u l f).frameClass = s.frameClass := rfl
@[simp] theorem modLane_byteClass (s : State) (u l : Nat) (f : Lane → Lane) : (modLane s u l f).byteClass = s.byteClass := rfl
@[simp] theorem modLane_errors (s : State) (u l : Nat) (f : Lane → Lane) : (modLane s u l f).errors = s.errors := rfl
@[simp] theorem modLane_cores (s : State) (u l : Nat) (f : Lane → Lane) : (modLane s u l f).cores = s.cores := rfl
@[simp] theorem modLane_dies (s : State) (u l : Nat) (f : Lane → Lane) : (modLane s u l f).dies = s.dies := rfl
@[simp] theorem modLane_gangs (s : State) (u l : Nat) (f : Lane → Lane) : (modLane s u l f).gangs = s.gangs := rfl
@[simp] theorem modLane_cmds (s : State) (u l : Nat) (f : Lane → Lane) : (modLane s u l f).cmds = s.cmds := rfl
@[simp] theorem modLane_tasks (s : State) (u l : Nat) (f : Lane → Lane) : (modLane s u l f).tasks = s.tasks := rfl
@[simp] theorem modLane_launches (s : State) (u l : Nat) (f : Lane → Lane) : (modLane s u l f).launches = s.launches := rfl
@[simp] theorem modLane_nextLaunchId (s : State) (u l : Nat) (f : Lane → Lane) : (modLane s u l f).nextLaunchId = s.nextLaunchId := rfl
@[simp] theorem modLane_ctxs (s : State) (u l : Nat) (f : Lane → Lane) : (modLane s u l f).ctxs = s.ctxs := rfl
@[simp] theorem modLane_fresh (s : State) (u l : Nat) (f : Lane → Lane) : (modLane s u l f).fresh = s.fresh := rfl
@[simp] theorem modLane_mstep (s : State) (u l : Nat) (f : Lane → Lane) : (modLane s u l f).mstep = s.mstep := rfl
@[simp] theorem modLane_links (s : State) (u l : Nat) (f : Lane → Lane) : (modLane s u l f).links = s.links := rfl
@[simp] theorem modLane_promotes (s : State) (u l : Nat) (f : Lane → Lane) : (modLane s u l f).promotes = s.promotes := rfl
@[simp] theorem modLane_plates (s : State) (u l : Nat) (f : Lane → Lane) : (modLane s u l f).plates = s.plates := rfl
@[simp] theorem modLane_edRegs (s : State) (u l : Nat) (f : Lane → Lane) : (modLane s u l f).edRegs = s.edRegs := rfl
@[simp] theorem modLane_polls (s : State) (u l : Nat) (f : Lane → Lane) : (modLane s u l f).polls = s.polls := rfl
@[simp] theorem modLane_caster (s : State) (u l : Nat) (f : Lane → Lane) : (modLane s u l f).caster = s.caster := rfl
@[simp] theorem modLane_trblks (s : State) (u l : Nat) (f : Lane → Lane) : (modLane s u l f).trblks = s.trblks := rfl
@[simp] theorem modLane_tlbs (s : State) (u l : Nat) (f : Lane → Lane) : (modLane s u l f).tlbs = s.tlbs := rfl
@[simp] theorem modLane_faults (s : State) (u l : Nat) (f : Lane → Lane) : (modLane s u l f).faults = s.faults := rfl
@[simp] theorem modLane_evicts (s : State) (u l : Nat) (f : Lane → Lane) : (modLane s u l f).evicts = s.evicts := rfl
@[simp] theorem modLane_taken (s : State) (u l : Nat) (f : Lane → Lane) : (modLane s u l f).taken = s.taken := rfl
@[simp] theorem modLane_peerPages (s : State) (u l : Nat) (f : Lane → Lane) : (modLane s u l f).peerPages = s.peerPages := rfl
@[simp] theorem modLane_icinvs (s : State) (u l : Nat) (f : Lane → Lane) : (modLane s u l f).icinvs = s.icinvs := rfl
@[simp] theorem modLane_lmaps (s : State) (u l : Nat) (f : Lane → Lane) : (modLane s u l f).lmaps = s.lmaps := rfl
@[simp] theorem modLane_meets (s : State) (u l : Nat) (f : Lane → Lane) : (modLane s u l f).meets = s.meets := rfl
@[simp] theorem modLane_fwwin (s : State) (u l : Nat) (f : Lane → Lane) : (modLane s u l f).fwwin = s.fwwin := rfl
@[simp] theorem modLane_fwt (s : State) (u l : Nat) (f : Lane → Lane) : (modLane s u l f).fwt = s.fwt := rfl
@[simp] theorem modLane_elbase (s : State) (u l : Nat) (f : Lane → Lane) : (modLane s u l f).elbase = s.elbase := rfl
@[simp] theorem modLane_elsize (s : State) (u l : Nat) (f : Lane → Lane) : (modLane s u l f).elsize = s.elsize := rfl
@[simp] theorem modLane_eltail (s : State) (u l : Nat) (f : Lane → Lane) : (modLane s u l f).eltail = s.eltail := rfl
@[simp] theorem modLane_elhead (s : State) (u l : Nat) (f : Lane → Lane) : (modLane s u l f).elhead = s.elhead := rfl
@[simp] theorem modLane_eldrop (s : State) (u l : Nat) (f : Lane → Lane) : (modLane s u l f).eldrop = s.eldrop := rfl
@[simp] theorem modLane_windows (s : State) (u l : Nat) (f : Lane → Lane) : (modLane s u l f).windows = s.windows := rfl
@[simp] theorem modLane_lasting (s : State) (u l : Nat) (f : Lane → Lane) : (modLane s u l f).lasting = s.lasting := rfl
@[simp] theorem modLane_deadRouters (s : State) (u l : Nat) (f : Lane → Lane) : (modLane s u l f).deadRouters = s.deadRouters := rfl
@[simp] theorem modLane_deadLinks (s : State) (u l : Nat) (f : Lane → Lane) : (modLane s u l f).deadLinks = s.deadLinks := rfl
@[simp] theorem modLane_netStopped (s : State) (u l : Nat) (f : Lane → Lane) : (modLane s u l f).netStopped = s.netStopped := rfl
@[simp] theorem modLane_reroutes (s : State) (u l : Nat) (f : Lane → Lane) : (modLane s u l f).reroutes = s.reroutes := rfl
@[simp] theorem modLane_agenda (s : State) (u l : Nat) (f : Lane → Lane) : (modLane s u l f).agenda = s.agenda := rfl
@[simp] theorem modLane_epoch (s : State) (u l : Nat) (f : Lane → Lane) : (modLane s u l f).epoch = s.epoch := rfl
@[simp] theorem modLane_choices (s : State) (u l : Nat) (f : Lane → Lane) : (modLane s u l f).choices = s.choices := rfl
@[simp] theorem modLane_free (s : State) (u l : Nat) (f : Lane → Lane) : (modLane s u l f).free = s.free := rfl
@[simp] theorem modLane_cur (s : State) (u l : Nat) (f : Lane → Lane) : (modLane s u l f).cur = s.cur := rfl

/-! ### modLanes changes `groups` alone -/

@[simp] theorem modLanes_gtick (s : State) (u : Nat) (ls : List Nat) (f : Nat → Lane → Lane) : (modLanes s u ls f).gtick = s.gtick := rfl
@[simp] theorem modLanes_phase (s : State) (u : Nat) (ls : List Nat) (f : Nat → Lane → Lane) : (modLanes s u ls f).phase = s.phase := rfl
@[simp] theorem modLanes_cycle (s : State) (u : Nat) (ls : List Nat) (f : Nat → Lane → Lane) : (modLanes s u ls f).cycle = s.cycle := rfl
@[simp] theorem modLanes_coreclk (s : State) (u : Nat) (ls : List Nat) (f : Nat → Lane → Lane) : (modLanes s u ls f).coreclk = s.coreclk := rfl
@[simp] theorem modLanes_clkchg (s : State) (u : Nat) (ls : List Nat) (f : Nat → Lane → Lane) : (modLanes s u ls f).clkchg = s.clkchg := rfl
@[simp] theorem modLanes_stopAt (s : State) (u : Nat) (ls : List Nat) (f : Nat → Lane → Lane) : (modLanes s u ls f).stopAt = s.stopAt := rfl
@[simp] theorem modLanes_stopped (s : State) (u : Nat) (ls : List Nat) (f : Nat → Lane → Lane) : (modLanes s u ls f).stopped = s.stopped := rfl
@[simp] theorem modLanes_feat (s : State) (u : Nat) (ls : List Nat) (f : Nat → Lane → Lane) : (modLanes s u ls f).feat = s.feat := rfl
@[simp] theorem modLanes_accept (s : State) (u : Nat) (ls : List Nat) (f : Nat → Lane → Lane) : (modLanes s u ls f).accept = s.accept := rfl
@[simp] theorem modLanes_pkg (s : State) (u : Nat) (ls : List Nat) (f : Nat → Lane → Lane) : (modLanes s u ls f).pkg = s.pkg := rfl
@[simp] theorem modLanes_failCode (s : State) (u : Nat) (ls : List Nat) (f : Nat → Lane → Lane) : (modLanes s u ls f).failCode = s.failCode := rfl
@[simp] theorem modLanes_fwaddr (s : State) (u : Nat) (ls : List Nat) (f : Nat → Lane → Lane) : (modLanes s u ls f).fwaddr = s.fwaddr := rfl
@[simp] theorem modLanes_fwcmd (s : State) (u : Nat) (ls : List Nat) (f : Nat → Lane → Lane) : (modLanes s u ls f).fwcmd = s.fwcmd := rfl
@[simp] theorem modLanes_pwrlim (s : State) (u : Nat) (ls : List Nat) (f : Nat → Lane → Lane) : (modLanes s u ls f).pwrlim = s.pwrlim := rfl
@[simp] theorem modLanes_pwrnow (s : State) (u : Nat) (ls : List Nat) (f : Nat → Lane → Lane) : (modLanes s u ls f).pwrnow = s.pwrnow := rfl
@[simp] theorem modLanes_trblk (s : State) (u : Nat) (ls : List Nat) (f : Nat → Lane → Lane) : (modLanes s u ls f).trblk = s.trblk := rfl
@[simp] theorem modLanes_pkgnum (s : State) (u : Nat) (ls : List Nat) (f : Nat → Lane → Lane) : (modLanes s u ls f).pkgnum = s.pkgnum := rfl
@[simp] theorem modLanes_coremap (s : State) (u : Nat) (ls : List Nat) (f : Nat → Lane → Lane) : (modLanes s u ls f).coremap = s.coremap := rfl
@[simp] theorem modLanes_mem (s : State) (u : Nat) (ls : List Nat) (f : Nat → Lane → Lane) : (modLanes s u ls f).mem = s.mem := rfl
@[simp] theorem modLanes_poison (s : State) (u : Nat) (ls : List Nat) (f : Nat → Lane → Lane) : (modLanes s u ls f).poison = s.poison := rfl
@[simp] theorem modLanes_frameClass (s : State) (u : Nat) (ls : List Nat) (f : Nat → Lane → Lane) : (modLanes s u ls f).frameClass = s.frameClass := rfl
@[simp] theorem modLanes_byteClass (s : State) (u : Nat) (ls : List Nat) (f : Nat → Lane → Lane) : (modLanes s u ls f).byteClass = s.byteClass := rfl
@[simp] theorem modLanes_errors (s : State) (u : Nat) (ls : List Nat) (f : Nat → Lane → Lane) : (modLanes s u ls f).errors = s.errors := rfl
@[simp] theorem modLanes_cores (s : State) (u : Nat) (ls : List Nat) (f : Nat → Lane → Lane) : (modLanes s u ls f).cores = s.cores := rfl
@[simp] theorem modLanes_dies (s : State) (u : Nat) (ls : List Nat) (f : Nat → Lane → Lane) : (modLanes s u ls f).dies = s.dies := rfl
@[simp] theorem modLanes_gangs (s : State) (u : Nat) (ls : List Nat) (f : Nat → Lane → Lane) : (modLanes s u ls f).gangs = s.gangs := rfl
@[simp] theorem modLanes_cmds (s : State) (u : Nat) (ls : List Nat) (f : Nat → Lane → Lane) : (modLanes s u ls f).cmds = s.cmds := rfl
@[simp] theorem modLanes_tasks (s : State) (u : Nat) (ls : List Nat) (f : Nat → Lane → Lane) : (modLanes s u ls f).tasks = s.tasks := rfl
@[simp] theorem modLanes_launches (s : State) (u : Nat) (ls : List Nat) (f : Nat → Lane → Lane) : (modLanes s u ls f).launches = s.launches := rfl
@[simp] theorem modLanes_nextLaunchId (s : State) (u : Nat) (ls : List Nat) (f : Nat → Lane → Lane) : (modLanes s u ls f).nextLaunchId = s.nextLaunchId := rfl
@[simp] theorem modLanes_ctxs (s : State) (u : Nat) (ls : List Nat) (f : Nat → Lane → Lane) : (modLanes s u ls f).ctxs = s.ctxs := rfl
@[simp] theorem modLanes_fresh (s : State) (u : Nat) (ls : List Nat) (f : Nat → Lane → Lane) : (modLanes s u ls f).fresh = s.fresh := rfl
@[simp] theorem modLanes_mstep (s : State) (u : Nat) (ls : List Nat) (f : Nat → Lane → Lane) : (modLanes s u ls f).mstep = s.mstep := rfl
@[simp] theorem modLanes_links (s : State) (u : Nat) (ls : List Nat) (f : Nat → Lane → Lane) : (modLanes s u ls f).links = s.links := rfl
@[simp] theorem modLanes_promotes (s : State) (u : Nat) (ls : List Nat) (f : Nat → Lane → Lane) : (modLanes s u ls f).promotes = s.promotes := rfl
@[simp] theorem modLanes_plates (s : State) (u : Nat) (ls : List Nat) (f : Nat → Lane → Lane) : (modLanes s u ls f).plates = s.plates := rfl
@[simp] theorem modLanes_edRegs (s : State) (u : Nat) (ls : List Nat) (f : Nat → Lane → Lane) : (modLanes s u ls f).edRegs = s.edRegs := rfl
@[simp] theorem modLanes_polls (s : State) (u : Nat) (ls : List Nat) (f : Nat → Lane → Lane) : (modLanes s u ls f).polls = s.polls := rfl
@[simp] theorem modLanes_caster (s : State) (u : Nat) (ls : List Nat) (f : Nat → Lane → Lane) : (modLanes s u ls f).caster = s.caster := rfl
@[simp] theorem modLanes_trblks (s : State) (u : Nat) (ls : List Nat) (f : Nat → Lane → Lane) : (modLanes s u ls f).trblks = s.trblks := rfl
@[simp] theorem modLanes_tlbs (s : State) (u : Nat) (ls : List Nat) (f : Nat → Lane → Lane) : (modLanes s u ls f).tlbs = s.tlbs := rfl
@[simp] theorem modLanes_faults (s : State) (u : Nat) (ls : List Nat) (f : Nat → Lane → Lane) : (modLanes s u ls f).faults = s.faults := rfl
@[simp] theorem modLanes_evicts (s : State) (u : Nat) (ls : List Nat) (f : Nat → Lane → Lane) : (modLanes s u ls f).evicts = s.evicts := rfl
@[simp] theorem modLanes_taken (s : State) (u : Nat) (ls : List Nat) (f : Nat → Lane → Lane) : (modLanes s u ls f).taken = s.taken := rfl
@[simp] theorem modLanes_peerPages (s : State) (u : Nat) (ls : List Nat) (f : Nat → Lane → Lane) : (modLanes s u ls f).peerPages = s.peerPages := rfl
@[simp] theorem modLanes_icinvs (s : State) (u : Nat) (ls : List Nat) (f : Nat → Lane → Lane) : (modLanes s u ls f).icinvs = s.icinvs := rfl
@[simp] theorem modLanes_lmaps (s : State) (u : Nat) (ls : List Nat) (f : Nat → Lane → Lane) : (modLanes s u ls f).lmaps = s.lmaps := rfl
@[simp] theorem modLanes_meets (s : State) (u : Nat) (ls : List Nat) (f : Nat → Lane → Lane) : (modLanes s u ls f).meets = s.meets := rfl
@[simp] theorem modLanes_fwwin (s : State) (u : Nat) (ls : List Nat) (f : Nat → Lane → Lane) : (modLanes s u ls f).fwwin = s.fwwin := rfl
@[simp] theorem modLanes_fwt (s : State) (u : Nat) (ls : List Nat) (f : Nat → Lane → Lane) : (modLanes s u ls f).fwt = s.fwt := rfl
@[simp] theorem modLanes_elbase (s : State) (u : Nat) (ls : List Nat) (f : Nat → Lane → Lane) : (modLanes s u ls f).elbase = s.elbase := rfl
@[simp] theorem modLanes_elsize (s : State) (u : Nat) (ls : List Nat) (f : Nat → Lane → Lane) : (modLanes s u ls f).elsize = s.elsize := rfl
@[simp] theorem modLanes_eltail (s : State) (u : Nat) (ls : List Nat) (f : Nat → Lane → Lane) : (modLanes s u ls f).eltail = s.eltail := rfl
@[simp] theorem modLanes_elhead (s : State) (u : Nat) (ls : List Nat) (f : Nat → Lane → Lane) : (modLanes s u ls f).elhead = s.elhead := rfl
@[simp] theorem modLanes_eldrop (s : State) (u : Nat) (ls : List Nat) (f : Nat → Lane → Lane) : (modLanes s u ls f).eldrop = s.eldrop := rfl
@[simp] theorem modLanes_windows (s : State) (u : Nat) (ls : List Nat) (f : Nat → Lane → Lane) : (modLanes s u ls f).windows = s.windows := rfl
@[simp] theorem modLanes_lasting (s : State) (u : Nat) (ls : List Nat) (f : Nat → Lane → Lane) : (modLanes s u ls f).lasting = s.lasting := rfl
@[simp] theorem modLanes_deadRouters (s : State) (u : Nat) (ls : List Nat) (f : Nat → Lane → Lane) : (modLanes s u ls f).deadRouters = s.deadRouters := rfl
@[simp] theorem modLanes_deadLinks (s : State) (u : Nat) (ls : List Nat) (f : Nat → Lane → Lane) : (modLanes s u ls f).deadLinks = s.deadLinks := rfl
@[simp] theorem modLanes_netStopped (s : State) (u : Nat) (ls : List Nat) (f : Nat → Lane → Lane) : (modLanes s u ls f).netStopped = s.netStopped := rfl
@[simp] theorem modLanes_reroutes (s : State) (u : Nat) (ls : List Nat) (f : Nat → Lane → Lane) : (modLanes s u ls f).reroutes = s.reroutes := rfl
@[simp] theorem modLanes_agenda (s : State) (u : Nat) (ls : List Nat) (f : Nat → Lane → Lane) : (modLanes s u ls f).agenda = s.agenda := rfl
@[simp] theorem modLanes_epoch (s : State) (u : Nat) (ls : List Nat) (f : Nat → Lane → Lane) : (modLanes s u ls f).epoch = s.epoch := rfl
@[simp] theorem modLanes_choices (s : State) (u : Nat) (ls : List Nat) (f : Nat → Lane → Lane) : (modLanes s u ls f).choices = s.choices := rfl
@[simp] theorem modLanes_free (s : State) (u : Nat) (ls : List Nat) (f : Nat → Lane → Lane) : (modLanes s u ls f).free = s.free := rfl
@[simp] theorem modLanes_cur (s : State) (u : Nat) (ls : List Nat) (f : Nat → Lane → Lane) : (modLanes s u ls f).cur = s.cur := rfl

/-! ### modCur changes `groups` alone -/

@[simp] theorem modCur_gtick (s : State) (ls : List Nat) (f : Nat → Lane → Lane) : (modCur s ls f).gtick = s.gtick := rfl
@[simp] theorem modCur_phase (s : State) (ls : List Nat) (f : Nat → Lane → Lane) : (modCur s ls f).phase = s.phase := rfl
@[simp] theorem modCur_cycle (s : State) (ls : List Nat) (f : Nat → Lane → Lane) : (modCur s ls f).cycle = s.cycle := rfl
@[simp] theorem modCur_coreclk (s : State) (ls : List Nat) (f : Nat → Lane → Lane) : (modCur s ls f).coreclk = s.coreclk := rfl
@[simp] theorem modCur_clkchg (s : State) (ls : List Nat) (f : Nat → Lane → Lane) : (modCur s ls f).clkchg = s.clkchg := rfl
@[simp] theorem modCur_stopAt (s : State) (ls : List Nat) (f : Nat → Lane → Lane) : (modCur s ls f).stopAt = s.stopAt := rfl
@[simp] theorem modCur_stopped (s : State) (ls : List Nat) (f : Nat → Lane → Lane) : (modCur s ls f).stopped = s.stopped := rfl
@[simp] theorem modCur_feat (s : State) (ls : List Nat) (f : Nat → Lane → Lane) : (modCur s ls f).feat = s.feat := rfl
@[simp] theorem modCur_accept (s : State) (ls : List Nat) (f : Nat → Lane → Lane) : (modCur s ls f).accept = s.accept := rfl
@[simp] theorem modCur_pkg (s : State) (ls : List Nat) (f : Nat → Lane → Lane) : (modCur s ls f).pkg = s.pkg := rfl
@[simp] theorem modCur_failCode (s : State) (ls : List Nat) (f : Nat → Lane → Lane) : (modCur s ls f).failCode = s.failCode := rfl
@[simp] theorem modCur_fwaddr (s : State) (ls : List Nat) (f : Nat → Lane → Lane) : (modCur s ls f).fwaddr = s.fwaddr := rfl
@[simp] theorem modCur_fwcmd (s : State) (ls : List Nat) (f : Nat → Lane → Lane) : (modCur s ls f).fwcmd = s.fwcmd := rfl
@[simp] theorem modCur_pwrlim (s : State) (ls : List Nat) (f : Nat → Lane → Lane) : (modCur s ls f).pwrlim = s.pwrlim := rfl
@[simp] theorem modCur_pwrnow (s : State) (ls : List Nat) (f : Nat → Lane → Lane) : (modCur s ls f).pwrnow = s.pwrnow := rfl
@[simp] theorem modCur_trblk (s : State) (ls : List Nat) (f : Nat → Lane → Lane) : (modCur s ls f).trblk = s.trblk := rfl
@[simp] theorem modCur_pkgnum (s : State) (ls : List Nat) (f : Nat → Lane → Lane) : (modCur s ls f).pkgnum = s.pkgnum := rfl
@[simp] theorem modCur_coremap (s : State) (ls : List Nat) (f : Nat → Lane → Lane) : (modCur s ls f).coremap = s.coremap := rfl
@[simp] theorem modCur_mem (s : State) (ls : List Nat) (f : Nat → Lane → Lane) : (modCur s ls f).mem = s.mem := rfl
@[simp] theorem modCur_poison (s : State) (ls : List Nat) (f : Nat → Lane → Lane) : (modCur s ls f).poison = s.poison := rfl
@[simp] theorem modCur_frameClass (s : State) (ls : List Nat) (f : Nat → Lane → Lane) : (modCur s ls f).frameClass = s.frameClass := rfl
@[simp] theorem modCur_byteClass (s : State) (ls : List Nat) (f : Nat → Lane → Lane) : (modCur s ls f).byteClass = s.byteClass := rfl
@[simp] theorem modCur_errors (s : State) (ls : List Nat) (f : Nat → Lane → Lane) : (modCur s ls f).errors = s.errors := rfl
@[simp] theorem modCur_cores (s : State) (ls : List Nat) (f : Nat → Lane → Lane) : (modCur s ls f).cores = s.cores := rfl
@[simp] theorem modCur_dies (s : State) (ls : List Nat) (f : Nat → Lane → Lane) : (modCur s ls f).dies = s.dies := rfl
@[simp] theorem modCur_gangs (s : State) (ls : List Nat) (f : Nat → Lane → Lane) : (modCur s ls f).gangs = s.gangs := rfl
@[simp] theorem modCur_cmds (s : State) (ls : List Nat) (f : Nat → Lane → Lane) : (modCur s ls f).cmds = s.cmds := rfl
@[simp] theorem modCur_tasks (s : State) (ls : List Nat) (f : Nat → Lane → Lane) : (modCur s ls f).tasks = s.tasks := rfl
@[simp] theorem modCur_launches (s : State) (ls : List Nat) (f : Nat → Lane → Lane) : (modCur s ls f).launches = s.launches := rfl
@[simp] theorem modCur_nextLaunchId (s : State) (ls : List Nat) (f : Nat → Lane → Lane) : (modCur s ls f).nextLaunchId = s.nextLaunchId := rfl
@[simp] theorem modCur_ctxs (s : State) (ls : List Nat) (f : Nat → Lane → Lane) : (modCur s ls f).ctxs = s.ctxs := rfl
@[simp] theorem modCur_fresh (s : State) (ls : List Nat) (f : Nat → Lane → Lane) : (modCur s ls f).fresh = s.fresh := rfl
@[simp] theorem modCur_mstep (s : State) (ls : List Nat) (f : Nat → Lane → Lane) : (modCur s ls f).mstep = s.mstep := rfl
@[simp] theorem modCur_links (s : State) (ls : List Nat) (f : Nat → Lane → Lane) : (modCur s ls f).links = s.links := rfl
@[simp] theorem modCur_promotes (s : State) (ls : List Nat) (f : Nat → Lane → Lane) : (modCur s ls f).promotes = s.promotes := rfl
@[simp] theorem modCur_plates (s : State) (ls : List Nat) (f : Nat → Lane → Lane) : (modCur s ls f).plates = s.plates := rfl
@[simp] theorem modCur_edRegs (s : State) (ls : List Nat) (f : Nat → Lane → Lane) : (modCur s ls f).edRegs = s.edRegs := rfl
@[simp] theorem modCur_polls (s : State) (ls : List Nat) (f : Nat → Lane → Lane) : (modCur s ls f).polls = s.polls := rfl
@[simp] theorem modCur_caster (s : State) (ls : List Nat) (f : Nat → Lane → Lane) : (modCur s ls f).caster = s.caster := rfl
@[simp] theorem modCur_trblks (s : State) (ls : List Nat) (f : Nat → Lane → Lane) : (modCur s ls f).trblks = s.trblks := rfl
@[simp] theorem modCur_tlbs (s : State) (ls : List Nat) (f : Nat → Lane → Lane) : (modCur s ls f).tlbs = s.tlbs := rfl
@[simp] theorem modCur_faults (s : State) (ls : List Nat) (f : Nat → Lane → Lane) : (modCur s ls f).faults = s.faults := rfl
@[simp] theorem modCur_evicts (s : State) (ls : List Nat) (f : Nat → Lane → Lane) : (modCur s ls f).evicts = s.evicts := rfl
@[simp] theorem modCur_taken (s : State) (ls : List Nat) (f : Nat → Lane → Lane) : (modCur s ls f).taken = s.taken := rfl
@[simp] theorem modCur_peerPages (s : State) (ls : List Nat) (f : Nat → Lane → Lane) : (modCur s ls f).peerPages = s.peerPages := rfl
@[simp] theorem modCur_icinvs (s : State) (ls : List Nat) (f : Nat → Lane → Lane) : (modCur s ls f).icinvs = s.icinvs := rfl
@[simp] theorem modCur_lmaps (s : State) (ls : List Nat) (f : Nat → Lane → Lane) : (modCur s ls f).lmaps = s.lmaps := rfl
@[simp] theorem modCur_meets (s : State) (ls : List Nat) (f : Nat → Lane → Lane) : (modCur s ls f).meets = s.meets := rfl
@[simp] theorem modCur_fwwin (s : State) (ls : List Nat) (f : Nat → Lane → Lane) : (modCur s ls f).fwwin = s.fwwin := rfl
@[simp] theorem modCur_fwt (s : State) (ls : List Nat) (f : Nat → Lane → Lane) : (modCur s ls f).fwt = s.fwt := rfl
@[simp] theorem modCur_elbase (s : State) (ls : List Nat) (f : Nat → Lane → Lane) : (modCur s ls f).elbase = s.elbase := rfl
@[simp] theorem modCur_elsize (s : State) (ls : List Nat) (f : Nat → Lane → Lane) : (modCur s ls f).elsize = s.elsize := rfl
@[simp] theorem modCur_eltail (s : State) (ls : List Nat) (f : Nat → Lane → Lane) : (modCur s ls f).eltail = s.eltail := rfl
@[simp] theorem modCur_elhead (s : State) (ls : List Nat) (f : Nat → Lane → Lane) : (modCur s ls f).elhead = s.elhead := rfl
@[simp] theorem modCur_eldrop (s : State) (ls : List Nat) (f : Nat → Lane → Lane) : (modCur s ls f).eldrop = s.eldrop := rfl
@[simp] theorem modCur_windows (s : State) (ls : List Nat) (f : Nat → Lane → Lane) : (modCur s ls f).windows = s.windows := rfl
@[simp] theorem modCur_lasting (s : State) (ls : List Nat) (f : Nat → Lane → Lane) : (modCur s ls f).lasting = s.lasting := rfl
@[simp] theorem modCur_deadRouters (s : State) (ls : List Nat) (f : Nat → Lane → Lane) : (modCur s ls f).deadRouters = s.deadRouters := rfl
@[simp] theorem modCur_deadLinks (s : State) (ls : List Nat) (f : Nat → Lane → Lane) : (modCur s ls f).deadLinks = s.deadLinks := rfl
@[simp] theorem modCur_netStopped (s : State) (ls : List Nat) (f : Nat → Lane → Lane) : (modCur s ls f).netStopped = s.netStopped := rfl
@[simp] theorem modCur_reroutes (s : State) (ls : List Nat) (f : Nat → Lane → Lane) : (modCur s ls f).reroutes = s.reroutes := rfl
@[simp] theorem modCur_agenda (s : State) (ls : List Nat) (f : Nat → Lane → Lane) : (modCur s ls f).agenda = s.agenda := rfl
@[simp] theorem modCur_epoch (s : State) (ls : List Nat) (f : Nat → Lane → Lane) : (modCur s ls f).epoch = s.epoch := rfl
@[simp] theorem modCur_choices (s : State) (ls : List Nat) (f : Nat → Lane → Lane) : (modCur s ls f).choices = s.choices := rfl
@[simp] theorem modCur_free (s : State) (ls : List Nat) (f : Nat → Lane → Lane) : (modCur s ls f).free = s.free := rfl
@[simp] theorem modCur_cur (s : State) (ls : List Nat) (f : Nat → Lane → Lane) : (modCur s ls f).cur = s.cur := rfl

/-! ### Records after an update -/

theorem grp_modGrp (s : State) (u v : Nat) (f : Group → Group) (h : (tGet? s.groups u).isSome = true) :
    grp (modGrp s u f) v = if u = v then f (grp s v) else grp s v := by
  by_cases hv : u = v
  · subst hv
    obtain ⟨x, hx⟩ := Option.isSome_iff_exists.1 h
    simp [grp, modGrp, hx]
  · simp [grp, modGrp, tGet?_tMod_ne _ f hv, hv]

theorem gangAt_modGang (s : State) (u v : Nat) (f : Gang → Gang) (h : (tGet? s.gangs u).isSome = true) :
    gangAt (modGang s u f) v = if u = v then f (gangAt s v) else gangAt s v := by
  by_cases hv : u = v
  · subst hv
    obtain ⟨x, hx⟩ := Option.isSome_iff_exists.1 h
    simp [gangAt, modGang, hx]
  · simp [gangAt, modGang, tGet?_tMod_ne _ f hv, hv]

theorem launchAt_modLaunch (s : State) (u v : Nat) (f : Launch → Launch) (h : (tGet? s.launches u).isSome = true) :
    launchAt (modLaunch s u f) v = if u = v then f (launchAt s v) else launchAt s v := by
  by_cases hv : u = v
  · subst hv
    obtain ⟨x, hx⟩ := Option.isSome_iff_exists.1 h
    simp [launchAt, modLaunch, hx]
  · simp [launchAt, modLaunch, tGet?_tMod_ne _ f hv, hv]

theorem cmdAt_modCmd (s : State) (u v : Nat) (f : Cmd → Cmd) (h : (tGet? s.cmds u).isSome = true) :
    cmdAt (modCmd s u f) v = if u = v then f (cmdAt s v) else cmdAt s v := by
  by_cases hv : u = v
  · subst hv
    obtain ⟨x, hx⟩ := Option.isSome_iff_exists.1 h
    simp [cmdAt, modCmd, hx]
  · simp [cmdAt, modCmd, tGet?_tMod_ne _ f hv, hv]

theorem coreAt_modCore (s : State) (c k : Nat) (f : Core → Core) :
    coreAt (modCore s c f) k = if c = k then f (coreAt s k) else coreAt s k := by
  by_cases h : c = k
  · subst h
    simp [coreAt, modCore]
  · simp [coreAt, modCore, smGet_smSet_ne _ _ _ h, h]

theorem dieAt_modDie (s : State) (c k : Nat) (f : Die → Die) : dieAt (modDie s c f) k = if c = k then f (dieAt s k) else dieAt s k := by
  by_cases h : c = k
  · subst h
    simp [dieAt, modDie]
  · simp [dieAt, modDie, smGet_smSet_ne _ _ _ h, h]

theorem ctxAt_modCtx (s : State) (c k : Nat) (f : Ctx → Ctx) : ctxAt (modCtx s c f) k = if c = k then f (ctxAt s k) else ctxAt s k := by
  by_cases h : c = k
  · subst h
    simp [ctxAt, modCtx]
  · simp [ctxAt, modCtx, smGet_smSet_ne _ _ _ h, h]

theorem plateAt_modPlate (s : State) (c k : Nat) (f : Plate → Plate) :
    plateAt (modPlate s c f) k = if c = k then f (plateAt s k) else plateAt s k := by
  by_cases h : c = k
  · subst h
    simp [plateAt, modPlate]
  · simp [plateAt, modPlate, smGet_smSet_ne _ _ _ h, h]

/-- An update of one record leaves the tables' other readers alone. -/
@[simp] theorem gangAt_modGrp (s : State) (u k : Nat) (f : Group → Group) : gangAt (modGrp s u f) k = gangAt s k := rfl
@[simp] theorem launchAt_modGrp (s : State) (u k : Nat) (f : Group → Group) : launchAt (modGrp s u f) k = launchAt s k := rfl
@[simp] theorem coreAt_modGrp (s : State) (u k : Nat) (f : Group → Group) : coreAt (modGrp s u f) k = coreAt s k := rfl
@[simp] theorem dieAt_modGrp (s : State) (u k : Nat) (f : Group → Group) : dieAt (modGrp s u f) k = dieAt s k := rfl
@[simp] theorem ctxAt_modGrp (s : State) (u k : Nat) (f : Group → Group) : ctxAt (modGrp s u f) k = ctxAt s k := rfl
@[simp] theorem rdByte_modGrp (s : State) (u k : Nat) (f : Group → Group) : rdByte (modGrp s u f) k = rdByte s k := rfl
@[simp] theorem grp_modCore (s : State) (u k : Nat) (f : Core → Core) : grp (modCore s k f) u = grp s u := rfl
@[simp] theorem grp_modDie (s : State) (u k : Nat) (f : Die → Die) : grp (modDie s k f) u = grp s u := rfl
@[simp] theorem grp_modCtx (s : State) (u k : Nat) (f : Ctx → Ctx) : grp (modCtx s k f) u = grp s u := rfl
@[simp] theorem grp_modGang (s : State) (u k : Nat) (f : Gang → Gang) : grp (modGang s k f) u = grp s u := rfl
@[simp] theorem grp_modLaunch (s : State) (u k : Nat) (f : Launch → Launch) : grp (modLaunch s k f) u = grp s u := rfl
@[simp] theorem grp_wrBytes (s : State) (u k : Nat) (bs : List Byte) : grp (wrBytes s k bs) u = grp s u := rfl

/-! ### Lanes -/

theorem laneAt_modLaneG (g : Group) (l k : Nat) (f : Lane → Lane) :
    laneAt (modLaneG g l f) k = if l = k ∧ l < g.lanes.length then f (laneAt g k) else laneAt g k := nth_modNth ..

@[simp] theorem length_modLaneG (g : Group) (l : Nat) (f : Lane → Lane) : (modLaneG g l f).lanes.length = g.lanes.length := length_modNth ..

/-- A lane after a change of one lane. -/
theorem lane_modLane (s : State) (u l k : Nat) (f : Lane → Lane) (h : (tGet? s.groups u).isSome = true) (hl : l < (grp s u).lanes.length) :
    lane (modLane s u l f) u k = if l = k then f (lane s u k) else lane s u k := by
  unfold lane modLane
  rw [grp_modGrp s u u _ h, if_pos rfl, laneAt_modLaneG]
  by_cases hk : l = k <;> simp [hk]
  intro h'
  subst hk
  omega

/-- The lanes of other groups stay. -/
theorem lane_modLane_other (s : State) (u v l k : Nat) (f : Lane → Lane) (h : u ≠ v) : lane (modLane s u l f) v k = lane s v k := by
  simp [lane, modLane, grp, modGrp, tGet?_tMod_ne _ _ h]

end Sys2Proof.Machine
end

