-- ==== Sys2Proof/Laws/Lanes.lean ====
section
/-! SUPPORT. Changes of the lanes of an issue set, and what the runner of the computing instructions does (R42 to R56, R66, R123). -/

namespace Sys2Proof.Machine

/-! ### Changes of many lanes -/

theorem modGrp_modGrp (s : State) (u : Nat) (f g : Group → Group) : modGrp (modGrp s u f) u g = modGrp s u (fun x => g (f x)) := by
  simp [modGrp, tMod_tMod]

theorem modGrp_congr {s : State} {u : Nat} {f g : Group → Group} (h : ∀ x, f x = g x) : modGrp s u f = modGrp s u g := by
  rw [show f = g from funext h]

@[simp] theorem modGrp_id (s : State) (u : Nat) : modGrp s u (fun g => g) = s := by simp [modGrp]

/-- A lane after changes of the lanes of a list without repeats. -/
theorem laneAt_foldl_modLaneG (ls : List Nat) (f : Nat → Lane → Lane) (g : Group) (k : Nat) (hn : ls.Nodup) :
    laneAt (ls.foldl (fun g l => modLaneG g l (f l)) g) k = if k ∈ ls ∧ k < g.lanes.length then f k (laneAt g k) else laneAt g k := by
  induction ls generalizing g with
  | nil => simp
  | cons l t ih =>
    obtain ⟨h1, h2⟩ := List.nodup_cons.1 hn
    rw [List.foldl_cons, ih _ h2, length_modLaneG, laneAt_modLaneG]
    by_cases hk : l = k
    · subst hk
      simp [h1]
    · simp [hk, Ne.symm hk]

theorem lanes_foldl_modLaneG (ls : List Nat) (f : Nat → Lane → Lane) (g : Group) :
    (ls.foldl (fun g l => modLaneG g l (f l)) g).lanes.length = g.lanes.length ∧
      { ls.foldl (fun g l => modLaneG g l (f l)) g with lanes := [] } = { g with lanes := [] } := by
  induction ls generalizing g with
  | nil => simp
  | cons l t ih =>
    rw [List.foldl_cons]
    exact ⟨(ih _).1.trans (length_modLaneG ..), (ih _).2⟩

/-- Groups with the same lanes and the same rest are equal. -/
theorem group_ext {g h : Group} (hr : { g with lanes := [] } = { h with lanes := [] }) (hl : g.lanes.length = h.lanes.length)
    (e : ∀ k < g.lanes.length, laneAt g k = laneAt h k) : g = h := by
  have : g.lanes = h.lanes := ext_nth ({} : Lane) hl e
  cases g
  cases h
  simp_all

/-- Two rounds of changes of the same lanes are one round. -/
theorem modLanes_modLanes (s : State) (u : Nat) (ls : List Nat) (f g : Nat → Lane → Lane) (hn : ls.Nodup) :
    modLanes (modLanes s u ls f) u ls g = modLanes s u ls (fun l ln => g l (f l ln)) := by
  unfold modLanes
  rw [modGrp_modGrp]
  refine modGrp_congr (fun x => ?_)
  have a := lanes_foldl_modLaneG ls f x
  have b := lanes_foldl_modLaneG ls g (ls.foldl (fun g l => modLaneG g l (f l)) x)
  have c := lanes_foldl_modLaneG ls (fun l ln => g l (f l ln)) x
  refine group_ext (b.2.trans (a.2.trans c.2.symm)) (b.1.trans (a.1.trans c.1.symm)) (fun k hk => ?_)
  rw [laneAt_foldl_modLaneG ls g _ k hn, laneAt_foldl_modLaneG ls f _ k hn, laneAt_foldl_modLaneG ls _ _ k hn, a.1]
  by_cases h : k ∈ ls ∧ k < x.lanes.length <;> simp [h]

/-- Lanes changed one after the other are lanes changed in a round. -/
theorem foldl_modLane (s : State) (u : Nat) (ls : List Nat) (f : Nat → Lane → Lane) :
    ls.foldl (fun s l => modLane s u l (f l)) s = modLanes s u ls f := by
  induction ls generalizing s with
  | nil => simp [modLanes]
  | cons l t ih =>
    rw [List.foldl_cons, ih]
    simp only [modLanes, modLane, modGrp_modGrp]
    exact modGrp_congr (fun x => rfl)

theorem modLanes_congr {s : State} {u : Nat} {ls : List Nat} {f g : Nat → Lane → Lane} (h : ∀ l ∈ ls, ∀ ln, f l ln = g l ln) :
    modLanes s u ls f = modLanes s u ls g := by
  refine modGrp_congr (fun x => ?_)
  induction ls generalizing x with
  | nil => rfl
  | cons l t ih =>
    rw [List.foldl_cons, List.foldl_cons, show f l = g l from funext (h l (by simp))]
    exact ih (fun k hk => h k (by simp [hk])) _

/-- A lane of the set after a round of changes. -/
theorem lane_modLanes (s : State) (u : Nat) (ls : List Nat) (f : Nat → Lane → Lane) (k : Nat) (hg : (tGet? s.groups u).isSome = true)
    (hn : ls.Nodup) (hk : k < (grp s u).lanes.length) :
    lane (modLanes s u ls f) u k = if k ∈ ls then f k (lane s u k) else lane s u k := by
  unfold lane modLanes
  rw [grp_modGrp s u u _ hg, if_pos rfl, laneAt_foldl_modLaneG ls f _ k hn]
  simp [hk]

/-! ### Lanes that end -/

theorem pageFaults_none {hs : List (Nat × Option Halt)} (h : ∀ p ∈ hs, p.2 = none) (pc : W64) : pageFaults hs pc = [] := by
  induction hs with
  | nil => rfl
  | cons p t ih =>
    have h1 : p.2 = none := h p (by simp)
    have h2 := ih (fun q hq => h q (by simp [hq]))
    unfold pageFaults at *
    simp [h1, h2]

/-- Where no lane ends, nothing is settled. -/
theorem haltLanes_none {s : State} {hs : List (Nat × Option Halt)} (h : ∀ p ∈ hs, p.2 = none) : haltLanes s hs = (s, true) := by
  unfold haltLanes
  simp only [pageFaults_none h, Prod.mk.injEq, and_true]
  generalize s.cur.pc = pc
  induction hs generalizing s with
  | nil => rfl
  | cons p t ih =>
    rw [List.foldl_cons, h p (by simp)]
    exact ih (fun q hq => h q (by simp [hq]))

/-! ### The runner of the computing instructions -/

/-- Where no operand is a stream and no word of the set is poisoned, reading a source ends no lane. -/
theorem readSrc_plain {s : State} (hp : NoPoison s) (t : OTy) (o : Opnd) (l : Nat) (tr : Bool) (ho : plainSrc o.src = true) :
    (readSrc s s.cur.uid s.cur.lanes t o l tr).halt = none := by
  have hr : ∀ n cnt, (readCross (grp s s.cur.uid) s.cur.lanes (patLane o.pat l) n cnt).halt = none := by
    intro n cnt
    unfold readCross
    split
    · next h =>
      have := hp _ (List.contains_iff_mem.1 h)
      simp only [curLane, lane] at this
      simp [readRegs, this]
    · rfl
  unfold readSrc
  cases h : o.src <;> simp_all [plainSrc]

theorem readLane_plain {s : State} (hp : NoPoison s) (os : List (Opnd × OTy)) (tr : Bool) (l : Nat) (ho : plainOps os = true) :
    (readLane s s.cur.uid s.cur.lanes os tr l).halt = none := by
  simp only [readLane, List.findSome?_eq_none_iff, List.mem_map]
  rintro x ⟨p, h1, rfl⟩
  exact readSrc_plain hp _ _ _ _ (List.all_eq_true.1 ho p h1)

theorem srcStreams_plain {os : List (Opnd × OTy)} (ho : plainOps os = true) : srcStreams os = [] := by
  unfold srcStreams
  rw [List.filterMap_eq_nil_iff.2]
  · rfl
  · intro p h
    have := List.all_eq_true.1 ho p h
    cases h : p.1.src <;> simp_all [plainSrc]

theorem modNth_id {α : Type} (l : List α) (i : Nat) : modNth l i (fun x => x) = l := by
  induction l generalizing i with
  | nil => simp
  | cons x t ih => cases i <;> simp [modNth, ih]

/-- Steps that change one lane of the current group each, over the lanes of a list. -/
theorem foldl_cur {α : Type} (xs : List α) (k : α → Nat) (f : α → Lane → Lane) (g : State → α → State) (u : Nat) (len : Nat)
    (hg : ∀ (s : State) x, s.cur.uid = u → s.cur.len = len → g s x = modLane s u (k x) (f x)) (s : State) (hu : s.cur.uid = u)
    (hl : s.cur.len = len) : xs.foldl g s = xs.foldl (fun s x => modLane s u (k x) (f x)) s := by
  induction xs generalizing s with
  | nil => rfl
  | cons x t ih =>
    rw [List.foldl_cons, List.foldl_cons, hg s x hu hl]
    exact ih _ hu hl

/-- Changes of one lane each, over any list, in rounds of one list of lanes. -/
theorem foldl_modLane_map {α : Type} (s : State) (u : Nat) (xs : List α) (k : α → Nat) (f : α → Lane → Lane) :
    xs.foldl (fun s x => modLane s u (k x) (f x)) s =
      modGrp s u (fun g => xs.foldl (fun g x => modLaneG g (k x) (f x)) g) := by
  induction xs generalizing s with
  | nil => simp
  | cons x t ih =>
    rw [List.foldl_cons, ih]
    simp only [modLane, modGrp_modGrp]
    exact modGrp_congr (fun x => rfl)

/-- A lane that meets no obstacle ends with its result. -/
theorem laneEnd_plain {s : State} {d : Dst} {ks : List Nat} {w : Option Nat} {f : LaneIn → Res} {a : LaneIn} (hd : plainDst d = true)
    (ha : a.halt = none) (hf : (f a).halt = none) (hx : fpxDue (lane s s.cur.uid a.lane) (f a).flags = false) :
    laneEnd s d ks w f a = ⟨a.lane, f a, none⟩ := by
  cases d <;> simp_all [laneEnd, plainDst]

theorem finishStreams_nil (s : State) (l : Nat) (tr : Bool) : finishStreams s l [] tr = s := by
  simp only [finishStreams, List.foldl_nil, advanceQs, modLane, modLaneG]
  exact (modGrp_congr (g := fun g => g) (fun g => by rw [modNth_id])).trans (modGrp_id ..)

theorem completeLane_plain (s : State) (d : Dst) (n acc : Nat) (tr : Bool) (w : Option Nat) (e : LaneEnd) (hd : plainDst d = true) :
    completeLane s d n acc [] tr w e = modLane s s.cur.uid e.lane (fun ln => advance (writeResult ln d n e.res.val) s.cur.len) := by
  cases d <;> simp_all [completeLane, finishStreams_nil, plainDst]

/-- A lane with flags, XLANE and SRCNT noted. -/
def laneNoted (r : Res) (x : Bool) (ln : Lane) : Lane :=
  let ln := setXlane (setFlags ln r.flags) (x || r.xlane)
  match r.cnt with
  | some n => { ln with srcnt := BitVec.ofNat 64 n }
  | none => ln

/-- The runner over a set that meets no obstacle. -/
theorem runWith_plain {s : State} {os : List (Opnd × OTy)} {d : Dst} {n : Nat} {w : Option Nat} {tr : Bool} {f : List LaneIn → LaneIn → Res}
    (hs : SetOk s) (hp : NoPoison s) (ho : plainOps os = true) (hd : plainDst d = true)
    (hf : ∀ l ∈ s.cur.lanes, (f (readAll s s.cur.uid s.cur.lanes os tr) (readLane s s.cur.uid s.cur.lanes os tr l)).halt = none)
    (hx : ∀ l ∈ s.cur.lanes, fpxDue (lane s s.cur.uid l) (f (readAll s s.cur.uid s.cur.lanes os tr) (readLane s s.cur.uid s.cur.lanes os tr l)).flags = false) :
    runWith s os d n w tr f =
      modCur { s with fresh := s.fresh + 1, free := s.free + 64 } s.cur.lanes
        (fun l => laneAfter (f (readAll s s.cur.uid s.cur.lanes os tr) (readLane s s.cur.uid s.cur.lanes os tr l))
          (readLane s s.cur.uid s.cur.lanes os tr l).xlane d n s.cur.len) := by
  have he : (readAll s s.cur.uid s.cur.lanes os tr).map (laneEnd s d [] w (f (readAll s s.cur.uid s.cur.lanes os tr))) =
      s.cur.lanes.map (fun l => (⟨l, f (readAll s s.cur.uid s.cur.lanes os tr) (readLane s s.cur.uid s.cur.lanes os tr l), none⟩ : LaneEnd)) := by
    conv => lhs; rw [readAll, List.map_map]
    refine List.map_congr_left (fun l h => ?_)
    exact laneEnd_plain hd (readLane_plain hp os tr l ho) (hf l h) (hx l h)
  have hn : ∀ p ∈ (s.cur.lanes.map (fun l => (⟨l, f (readAll s s.cur.uid s.cur.lanes os tr) (readLane s s.cur.uid s.cur.lanes os tr l), none⟩ :
      LaneEnd))).map (fun e => (e.lane, e.halt)), p.2 = none := by
    simp
  unfold runWith
  simp only [srcStreams_plain ho, he, pageFaults_none hn, haltLanes_none hn]
  have hz : ∀ (g : Nat → LaneEnd), (readAll s s.cur.uid s.cur.lanes os tr).zip (s.cur.lanes.map g) =
      s.cur.lanes.map (fun l => (readLane s s.cur.uid s.cur.lanes os tr l, g l)) := by
    intro g
    rw [readAll, List.zip_map']
  have hk : ∀ (g : Nat → Res), (s.cur.lanes.map (fun l => (⟨l, g l, none⟩ : LaneEnd))).filter (fun e => e.halt.isNone) =
      s.cur.lanes.map (fun l => (⟨l, g l, none⟩ : LaneEnd)) := by
    intro g
    rw [List.filter_eq_self]
    simp
  rw [hz, hk]
  simp only [List.foldl_map, takeFresh, List.isEmpty_nil, Bool.not_true, Bool.false_eq_true, if_false]
  split
  · simp [plainDst] at hd
  · obtain ⟨s', hs'⟩ : ∃ s' : State, s' = { s with fresh := s.fresh + 1, free := s.free + 64 } := ⟨_, rfl⟩
    have hu : s'.cur.uid = s.cur.uid := by rw [hs']
    have hl : s'.cur.len = s.cur.len := by rw [hs']
    rw [← hs', foldl_cur s.cur.lanes (fun l => l) (fun l => laneNoted (f (readAll s s.cur.uid s.cur.lanes os tr)
      (readLane s s.cur.uid s.cur.lanes os tr l)) (readLane s s.cur.uid s.cur.lanes os tr l).xlane) _ s.cur.uid s.cur.len
      (fun t x h1 h2 => by rw [noteLane, h1]; rfl) s' hu hl, foldl_modLane,
      foldl_cur s.cur.lanes (fun l => l) (fun l ln => advance (writeResult ln d n
      (f (readAll s s.cur.uid s.cur.lanes os tr) (readLane s s.cur.uid s.cur.lanes os tr l)).val) s.cur.len) _ s.cur.uid s.cur.len
      (fun t x h1 h2 => by rw [completeLane_plain _ _ _ _ _ _ _ hd, h1, h2]) _ (by exact hu) (by exact hl), foldl_modLane, modLanes_modLanes _ _ _ _ _ hs.nodup,
      modCur, hu]
    rfl

/-- The runner of a lane-local computation over a set that meets no obstacle. -/
theorem runCompute_plain {s : State} {i : Instr} {d : Dst} {n : Nat} {f : LaneIn → Res} (hs : SetOk s) (hp : NoPoison s)
    (hd : dest i = some (d, n)) (ho : plainOps (srcs i) = true) (hd2 : plainDst d = true)
    (hf : ∀ l ∈ s.cur.lanes, (f (readLane s s.cur.uid s.cur.lanes (srcs i) false l)).halt = none)
    (hx : ∀ l ∈ s.cur.lanes, fpxDue (curLane s l) (f (readLane s s.cur.uid s.cur.lanes (srcs i) false l)).flags = false) :
    runCompute s i f = retired s (srcs i) d n (fun l => f (readLane s s.cur.uid s.cur.lanes (srcs i) false l)) := by
  unfold runCompute
  simp only [hd, Option.getD_some]
  rw [runWith_plain (f := fun _ a => f a) (tr := false) hs hp ho hd2 hf hx]
  unfold retired modCur
  refine modLanes_congr (fun l hl ln => ?_)
  simp [readLane, crosses, List.any_map, Function.comp_def]

/-- An integer computation over a set that meets no obstacle: it raises no flag. -/
theorem runInt_plain {s : State} {i : Instr} {d : Dst} {n : Nat} {f : LaneIn → Nat} (hs : SetOk s) (hp : NoPoison s)
    (hd : dest i = some (d, n)) (ho : plainOps (srcs i) = true) (hd2 : plainDst d = true) :
    runInt s i f = .next (retired s (srcs i) d n (fun l => { val := f (readLane s s.cur.uid s.cur.lanes (srcs i) false l) })) := by
  unfold runInt
  rw [runCompute_plain hs hp hd ho hd2 (by intros; rfl) (by intros; simp [val, fpxDue])]
  rfl

/-- A short form does what its long form does (R85). -/
theorem exec_longForm (i : Instr) (s : State) : exec (longForm i) s = exec i s := by
  cases i <;> first | rfl | (rename_i d a b; cases d <;> rfl)

end Sys2Proof.Machine
end

