-- ==== Sys2Proof/Laws/Compute.lean ====
section
/-! SUPPORT. What the computing instructions answer over a set that meets no obstacle, and their integer results as bit vectors. -/

namespace Sys2Proof.Machine

/-! ### Numbers and bit vectors -/

theorem wrap_eq_ofInt (w : Nat) (z : Int) : wrap w z = (BitVec.ofInt w z).toNat := by
  simp [wrap, BitVec.toNat_ofInt]

theorem sext_eq_toInt (w x : Nat) (h : 0 < w) : sext w x = (BitVec.ofNat w x).toInt := by
  unfold sext
  rw [BitVec.toInt_eq_toNat_cond]
  simp only [BitVec.toNat_ofNat]
  have : 2 ^ w = 2 * 2 ^ (w - 1) := by rw [← pow_succ']; congr; omega
  split <;> split <;> omega

theorem intVal_eq_asInt (t : ITy) (x : Nat) : intVal t x = asInt t x := by
  cases t <;> simp [intVal, asInt, itySigned, ityW, sext_eq_toInt]

theorem narrow_eq_asBits (t : ITy) (sat : Bool) (z : Int) : narrow t sat z = asBits t sat z := by
  unfold narrow asBits
  cases sat
  · simp [wrap_eq_ofInt]
  · simp only [if_true, satVal, wrap_eq_ofInt]
    congr 2
    cases t <;> simp only [leastOf, greatestOf, itySigned, ityW] <;> simp <;> split <;> (try split) <;> omega

theorem wrap_lt (w : Nat) (z : Int) : wrap w z < 2 ^ w := by
  rw [wrap_eq_ofInt]
  exact BitVec.isLt _

/-- An integer operand of w bits is below 2^w. -/
theorem opnd_lt (s : State) (w : Nat) (o : Opnd) (l : Nat) (h : plainSrc o.src = true) : opnd s (.int w) o l < 2 ^ w := by
  unfold opnd readSrc
  cases ho : o.src <;> simp_all [plainSrc, cutTo, Nat.mod_lt, immCode, wrap_lt]
  unfold litCode
  split
  · next h => cases h; exact wrap_lt 64 _
  · next h => cases h; exact Nat.mod_lt _ (Nat.two_pow_pos _)
  all_goals simp_all

/-! ### One, two and three operands -/

/-- What a lane reads of operands none of which is a stream. -/
theorem readLane_opnd {s : State} (hp : NoPoison s) (os : List (Opnd × OTy)) (l : Nat) (tr : Bool) (ho : plainOps os = true) :
    readLane s s.cur.uid s.cur.lanes os tr l = ⟨l, os.map (fun p => opnd s p.2 p.1 l), none, crosses s os l⟩ := by
  have h0 := readLane_plain hp os tr l ho
  have h1 : ∀ p ∈ os, readSrc s s.cur.uid s.cur.lanes p.2 p.1 l tr = readSrc s s.cur.uid s.cur.lanes p.2 p.1 l := by
    intro p h
    have := List.all_eq_true.1 ho p h
    unfold readSrc
    cases h2 : p.1.src <;> simp_all [plainSrc]
  unfold readLane at h0 ⊢
  simp only at h0 ⊢
  rw [h0, List.map_congr_left h1]
  simp [opnd, crosses, List.any_map, Function.comp_def]

theorem gives1_of_runInt {s : State} {i j : Instr} {d : Dst} {n : Nat} {f : LaneIn → Nat} {a : Opnd × OTy} {g : Nat → Nat} (hs : SetOk s)
    (hp : NoPoison s) (hj : longForm i = j) (he : exec j s = runInt s j f) (hd : dest j = some (d, n)) (hsrc : srcs j = [a])
    (ha : plainSrc a.1.src = true) (hd2 : plainDst d = true)
    (hf : ∀ l ∈ s.cur.lanes, f ⟨l, [opnd s a.2 a.1 l], none, crosses s [a] l⟩ = g (opnd s a.2 a.1 l)) : Gives1 s i d n a g := by
  have ho : plainOps [a] = true := by simp [plainOps, ha]
  unfold Gives1
  rw [← exec_longForm, hj, he, runInt_plain hs hp hd (by rw [hsrc, ho]) hd2, hsrc]
  congr 1
  unfold retired modCur
  refine modLanes_congr (fun l hl ln => ?_)
  simp only [readLane_opnd hp [a] l false ho]
  rw [← hf l hl]
  rfl

theorem gives2_of_runInt {s : State} {i j : Instr} {d : Dst} {n : Nat} {f : LaneIn → Nat} {a b : Opnd × OTy} {g : Nat → Nat → Nat}
    (hs : SetOk s) (hp : NoPoison s) (hj : longForm i = j) (he : exec j s = runInt s j f) (hd : dest j = some (d, n))
    (hsrc : srcs j = [a, b]) (ha : plainSrc a.1.src = true) (hb : plainSrc b.1.src = true) (hd2 : plainDst d = true)
    (hf : ∀ l ∈ s.cur.lanes, f ⟨l, [opnd s a.2 a.1 l, opnd s b.2 b.1 l], none, crosses s [a, b] l⟩ =
      g (opnd s a.2 a.1 l) (opnd s b.2 b.1 l)) : Gives2 s i d n a b g := by
  have ho : plainOps [a, b] = true := by simp [plainOps, ha, hb]
  unfold Gives2
  rw [← exec_longForm, hj, he, runInt_plain hs hp hd (by rw [hsrc, ho]) hd2, hsrc]
  congr 1
  unfold retired modCur
  refine modLanes_congr (fun l hl ln => ?_)
  simp only [readLane_opnd hp [a, b] l false ho]
  rw [← hf l hl]
  rfl

theorem gives3_of_runInt {s : State} {i j : Instr} {d : Dst} {n : Nat} {f : LaneIn → Nat} {a b c : Opnd × OTy} {g : Nat → Nat → Nat → Nat}
    (hs : SetOk s) (hp : NoPoison s) (hj : longForm i = j) (he : exec j s = runInt s j f) (hd : dest j = some (d, n))
    (hsrc : srcs j = [a, b, c]) (ha : plainSrc a.1.src = true) (hb : plainSrc b.1.src = true) (hc : plainSrc c.1.src = true)
    (hd2 : plainDst d = true)
    (hf : ∀ l ∈ s.cur.lanes, f ⟨l, [opnd s a.2 a.1 l, opnd s b.2 b.1 l, opnd s c.2 c.1 l], none, crosses s [a, b, c] l⟩ =
      g (opnd s a.2 a.1 l) (opnd s b.2 b.1 l) (opnd s c.2 c.1 l)) : Gives3 s i d n a b c g := by
  have ho : plainOps [a, b, c] = true := by simp [plainOps, ha, hb, hc]
  unfold Gives3
  rw [← exec_longForm, hj, he, runInt_plain hs hp hd (by rw [hsrc, ho]) hd2, hsrc]
  congr 1
  unfold retired modCur
  refine modLanes_congr (fun l hl ln => ?_)
  simp only [readLane_opnd hp [a, b, c] l false ho]
  rw [← hf l hl]
  rfl

end Sys2Proof.Machine
end

