-- ==== Sys2Proof/Laws/Errors.lean ====
section
/-! SUPPORT. What a read of bytes does where no error mark is pending and every byte is of its page's class: nothing but deliver them. -/

namespace Sys2Proof.Machine

/-- With no error mark there is nothing to count (R338). -/
theorem takeMarks_nil {s : State} (h : s.errors = []) (hit : ErrMark → Bool) (count : State → ErrMark → State) : takeMarks s hit count = s := by
  simp [takeMarks, h]

theorem meetHbm_nil {s : State} (h : s.errors = []) (key n : Nat) (k : Option Nat) : meetHbm s key n k = s := takeMarks_nil h _ _

theorem meetArr_nil {s : State} (h : s.errors = []) (p : ErrPlace) (n : Nat) : meetArr s p n = s := takeMarks_nil h _ _

/-- A write covers no mark where there is none. -/
theorem coverArr_nil {s : State} (h : s.errors = []) (p : ErrPlace) (wr : Nat → Bool) : coverArr s p wr = s := by
  rw [coverArr, h, List.filter_nil, ← h]

/-- A read that meets neither a mark nor bytes of another class counts nothing (R338, R339). -/
theorem dataMet_clean {s : State} {cls : RClass} {o pa n : Nat} (h : s.errors = []) (hc : classMixed s cls o pa n = false) (k : Nat) :
    dataMet s k cls o pa n = s := by
  simp [dataMet, meetHbm_nil h, hc]

/-- It delivers what memory holds. -/
theorem dataBytes_clean {s : State} {cls : RClass} {o pa n : Nat} (hc : classMixed s cls o pa n = false) :
    dataBytes s cls o pa n = rdBytes s (mkey o pa) n := by
  simp [dataBytes, hc]

/-- It consumes no detected error exactly where no byte is poisoned. -/
theorem dataBad_clean {s : State} {cls : RClass} {o pa n : Nat} (hc : classMixed s cls o pa n = false) :
    dataBad s cls o pa n = poisoned s.poison (mkey o pa) n := by
  simp [dataBad, hc]

/-- Bytes written in the class of their frame, with no byte on record in another, are of that class throughout (R339). -/
theorem classMixed_same {s : State} {cls : RClass} {o pa n : Nat} (hb : s.byteClass = []) (h0 : smGet .proof s.frameClass (mkey o pa / 4096) = cls)
    (h1 : smGet .proof s.frameClass ((mkey o pa + n - 1) / 4096) = cls) : classMixed s cls o pa n = false := by
  simp [classMixed, hb, h0, h1]

end Sys2Proof.Machine
end

