-- ==== Sys2Proof/Tests/Slice0.lean ====
section
/-! SUPPORT. Tests: words of the encoding tables, single steps on small states with results taken from the spec, ill-formed terms that the
checks refuse, and for every statement a state and operands that meet its hypotheses. -/

namespace Sys2Proof.Tests

-- the tests one after another: each evaluates in the kernel, which waits for what stands before it
set_option Elab.async false

open Sys2Proof Sys2Proof.Machine

/-! ### Small states -/

/-- A thread in U mode before the word at 0x10008 of the block at 0x10000. -/
def aLane : Lane :=
  { at_ := .word 0x10000#64 3 0x10008#64 2, st := .run, tvec := 0x10000#64, hvec := 0x10000#64
    recs := [{ regpc := 0x10008#64, reghdr := 0x10000#64, regcnt := 1 }, {}, {}, {}, {}] }

/-- A page of 4 KiB at its own address, for every mode; an engine uses it, so its translation is the held one (R316). -/
def aPage (at_ : Nat) (k : PKind) (r : Option RegionEnt) : TlbEnt :=
  { vmid := 0, asid := 0, vpage := at_, inflight := 1
    attr := { frame := at_, size := 4096, kind := k, rclass := .proof, sto := false, ua := true, rd := true, wr := k != .code, ex := k == .code, region := r } }

/-- Regions, their bases with this package named as the machine holds it (R308): the code page with its landing map, an f32 array, editioned cells, plates. -/
def codeRegion : RegionEnt := ⟨0xFF80000000010000#64, 0, 0, 0, 0, 0x18000⟩
def arrayRegion : RegionEnt := ⟨0xFF80000000020000#64, 8, 0, 0, 0, 0⟩
def cellRegion : RegionEnt := ⟨0xFF80000000021000#64, 7, 0, 0, 0, 0x19000⟩
def plateRegion : RegionEnt := ⟨0xFF80000000022000#64, 8, 0, 0, 0, 0x1A000⟩

/-- Every page that the small states hold: code at 0x10000, ordinary at 0x20000, editioned at 0x21000, plated at 0x22000. -/
def pages : List TlbEnt :=
  [aPage 0x10000 .code (some codeRegion), aPage 0x20000 .ordinary (some arrayRegion), aPage 0x21000 .editioned (some cellRegion),
   aPage 0x22000 .plated (some plateRegion)]

/-- The block at 0x10000: header, `tick v4`, a short `nop`, padding; and its bit of the landing map. -/
def blockBytes : List Byte := beBytes 8 placedHeader ++ beBytes 8 0xBA41000000000000 ++ beBytes 4 0x01FE0000 ++ List.replicate 4 0

/-- A package that is READY with launch 3 (context 0), gang 2 on core 0, and group 1 in slot 0, its threads made by f; the issue set is ls. -/
def machine (ls : List Nat) (f : Nat → Lane → Lane) : State :=
  let s : State := { State.reset with
    feat := [0x7F, 0, 0, 0], accept := [0x7F, 0, 0, 0], trblk := 0x500000, pkg := .ready, coremap := 1, fresh := 100
    ctxs := [(0, { ctxctl := 0x80000000#32, tapecap := 8 })]
    cores := [(0, { ctx := some 0 })]
    launches := [(3, { ctx := 0, record := placedRecord, img := placedImage, prio := 0, devRing := false, launchid := 1, state := .running,
                       gx := 1, gy := 1, gz := 1, placed := [0], buckets := [5], patterns := [7] })]
    gangs := [(2, { core := 0, launch := 3, groups := [1], privsz := 1024, tiles := 16, accrows := 16, banks := [{}, {}],
                    bars := List.replicate 16 { expect := 32 } })]
    groups := [(1, { gang := 2, place := .resident 0, lanes := (List.range 32).map (fun l => f l aLane), cblen := 4, cbank := [(1, 77#32)] })]
    tlbs := [(0, pages), (1, [aPage 0x20000 .ordinary none])]
    cur := ⟨1, ls, 0x10008#64, 8⟩ }
  wrBytes (wrBytes s (mkey 0 0x10000) blockBytes) (mkey 0 0x18000) [1#8]

/-- v0 is 1 in lane 0 and 2 in lane 1, v1 is -16 and v2 a half; v4:v5 points to ordinary bytes, v6:v7 to cells, v8:v9 to a plate, v10:v11 is misaligned, v12:v13 has a
reserved bit, v14:v15 points to no page, v16:v17 to the block,
v18 is past every count, v20:v21 is one element further on than v4:v5, v22:v23 points
to ordinary bytes of die 1. -/
def words (l : Nat) (ln : Lane) : Lane :=
  { ln with
    v := [(0, BitVec.ofNat 32 (l + 1)), (1, 0xFFFFFFF0#32), (2, 0x3F000000#32), (4, 0x20000#32), (6, 0x21000#32), (8, 0x22000#32), (10, 0x20001#32),
          (12, 0x20000#32), (13, 0x00500000#32), (14, 0x30000#32), (16, 0x10000#32), (18, 0x30000#32), (20, 0x20008#32), (22, 0x20000#32), (23, 0x00100000#32)] }

/-- Lanes 0 and 1 of 32, as `words` says. -/
def two : State := machine [0, 1] words

/-- An instruction that exec answers with a next state, and what holds of it. -/
def after (i : Instr) (s : State) (p : State → Bool) : Bool :=
  match exec i s with
  | .next t => p t
  | _ => false

/-- Register n of lane l after an instruction. -/
def gives (i : Instr) (s : State) (l n : Nat) : Option Nat :=
  match exec i s with
  | .next t => some (getReg (lane t s.cur.uid l) n).toNat
  | _ => none

/-- Register v n as an operand. -/
def vr (n : Fin 128) : Opnd := ⟨.v n, .ident⟩

/-- What a basic state of the tests has: a set that stands, nothing poisoned, tidy lanes, room for a trap, and a lane. -/
def Basic (s : State) : Prop := SetOk s ∧ NoPoison s ∧ Tidy s ∧ MayTrap s ∧ (∃ l, l ∈ s.cur.lanes)

/-- The same, as a test. -/
def basicB (s : State) : Bool :=
  let u := s.cur.uid
  let p := (gangOf s u).privsz
  (tGet? s.groups u).isSome && decide s.cur.lanes.Nodup && !s.cur.lanes.isEmpty &&
    (grp s u).pend.all (fun p => p.2.writes.all (fun w => decide (w.reg < 136))) &&
    s.cur.lanes.all (fun l =>
      let ln := curLane s l
      decide (l < (grp s u).lanes.length) && decide (ln.vpois = []) && decide (ln.recs.length = 5) && decide (ln.depth ≤ 4) && decide (ln.q.length = 8) &&
        ln.recs.all (fun r => decide (r.pos.length = 8)) && decide (64 ≤ p) && decide (ln.depth ≤ min 3 (p / 64 - 1)))

theorem basic_of (s : State) (h : basicB s = true) : Basic s := by
  simp only [basicB, Bool.and_eq_true, decide_eq_true_eq, List.all_eq_true, Bool.not_eq_true', List.isEmpty_eq_false_iff] at h
  obtain ⟨⟨⟨⟨h1, h2⟩, h3⟩, h4⟩, h5⟩ := h
  exact ⟨⟨h1, h2, fun l hl => (h5 l hl).1.1.1.1.1.1.1⟩, fun l hl => (h5 l hl).1.1.1.1.1.1.2,
    fun l hl => ⟨(h5 l hl).1.1.1.1.1.2, (h5 l hl).1.1.1.1.2, (h5 l hl).1.1.1.2, (h5 l hl).1.1.2⟩,
    ⟨fun p hp w hw => h4 p hp w hw, fun l hl => ⟨(h5 l hl).1.2, (h5 l hl).2⟩⟩, List.exists_mem_of_ne_nil _ h3⟩

theorem two_basic : Basic two := basic_of _ (by decide +kernel)

/-! ### Hypotheses of the statements that compute: a state, plain operands, and long and short forms of every clause -/

/-- No trap of R64 is enabled in lanes of `two`: the hypothesis of `Rounds` holds for any flags. -/
theorem two_quiet (l : Nat) (h : l ∈ two.cur.lanes) (fl : Nat) : fpxDue (curLane two l) fl = false := by
  have e : ∀ l ∈ two.cur.lanes, enables (curLane two l).fmode = 0 := by decide +kernel
  simp [fpxDue, e l h]

theorem witness_IntegerArithmetic : Basic two ∧ plainDst (.v 9) = true ∧ plainSrc (vr 0).src = true ∧ plainSrc (.imm 31) = true ∧ plainSrc (.lit 0x80000000#32) = true ∧
    longForm (.movShort (.v 9) (.v 0)) = .mov .i32 (.v 9) (vr 0) ∧ longForm (.iadd .z64 true (.v 8) (vr 0) (vr 2)) = .iadd .z64 true (.v 8) (vr 0) (vr 2) ∧
    longForm (.isubShort (.v 9) (.v 0) (.v 1)) = .isub .i32 false (.v 9) (vr 0) (vr 1) ∧ longForm (.imulShort (.v 9) (.v 0) (.v 1)) = .imul .i32 false (.v 9) (vr 0) (vr 1) ∧
    longForm (.imulhShort (.v 9) (.v 0) (.v 1)) = .imulh false (.v 9) (vr 0) (vr 1) ∧ longForm (.iaddw true (.v 8) (vr 0) (vr 1)) = .iaddw true (.v 8) (vr 0) (vr 1) ∧
    longForm (.imulw true (.v 8) (vr 0) (vr 1)) = .imulw true (.v 8) (vr 0) (vr 1) ∧ longForm (.imadShort (.v 9) (.v 0) (.v 1)) = .imad (.v 9) (vr 0) (vr 1) (vr 9) ∧
    longForm (.iminZ32Short (.v 9) (.v 0) (.v 1)) = .imin .z32 (.v 9) (vr 0) (vr 1) ∧ longForm (.imaxShort (.v 9) (.v 0) (.v 1)) = .imax .i32 (.v 9) (vr 0) (vr 1) ∧
    longForm (.iabsShort (.v 9) (.v 1)) = .iabs false false (.v 9) (vr 1) ∧ longForm (.iabs true true (.v 8) (vr 0)) = .iabs true true (.v 8) (vr 0) :=
  ⟨two_basic, by decide⟩

theorem witness_IntegerLogic : Basic two ∧ plainDst (.v 8) = true ∧ plainSrc (vr 0).src = true ∧ plainSrc (.lit 0xFFFFFFFF#32) = true ∧
    longForm (.andShort (.v 9) (.v 0) (.v 1)) = .and .i32 (.v 9) (vr 0) (vr 1) ∧ longForm (.or .i64 (.v 8) (vr 0) (vr 2)) = .or .i64 (.v 8) (vr 0) (vr 2) ∧
    longForm (.xorShort (.v 9) (.v 0) (.v 1)) = .xor .i32 (.v 9) (vr 0) (vr 1) ∧ longForm (.andnShort (.v 9) (.v 0) (.v 1)) = .andn .i32 (.v 9) (vr 0) (vr 1) ∧
    longForm (.shlShort (.v 9) (.v 0) (.imm 31)) = .shl .i32 (.v 9) (vr 0) (op (.imm 31)) ∧
    longForm (.shr .i64 (.v 8) (vr 0) (op (.lit 64#32))) = .shr .i64 (.v 8) (vr 0) (op (.lit 64#32)) ∧
    longForm (.sarShort (.v 9) (.v 0) (.v 1)) = .sar .i32 (.v 9) (vr 0) (vr 1) ∧ longForm (.rotShort (.v 9) (.v 0) (.v 1)) = .rot .i32 (.v 9) (vr 0) (vr 1) ∧
    longForm (.popcShort (.v 9) (.v 0)) = .popc .i32 (.v 9) (vr 0) ∧ longForm (.clz .i64 (.v 9) (vr 0)) = .clz .i64 (.v 9) (vr 0) ∧
    longForm (.ctzShort (.v 9) (.v 0)) = .ctz .i32 (.v 9) (vr 0) ∧ longForm (.brevShort (.v 9) (.v 0)) = .brev .i32 (.v 9) (vr 0) :=
  ⟨two_basic, by decide⟩

theorem witness_IntegerFields : Basic two ∧ plainDst (.v 9) = true ∧ plainSrc (vr 0).src = true ∧ plainSrc (.c 63) = true ∧
    longForm (.icmpLtZ32Short (.v 9) (.v 0) (.v 1)) = .icmp .lt .z32 (.v 9) (vr 0) (vr 1) ∧ longForm (.lea true 4 (.v 8) (vr 0) (vr 2)) = .lea true 4 (.v 8) (vr 0) (vr 2) ∧
    longForm (.bfx true (.v 9) (vr 0) (vr 1) (vr 2)) = .bfx true (.v 9) (vr 0) (vr 1) (vr 2) ∧ longForm (.bfi (.v 9) (vr 0) (vr 1) (vr 2)) = .bfi (.v 9) (vr 0) (vr 1) (vr 2) ∧
    longForm (.selShort (.v 9) (.v 0) (.v 1)) = .sel (.v 9) (vr 0) (vr 1) (vr 9) ∧ longForm (.prmt (.v 9) (vr 0) (vr 1) (vr 2)) = .prmt (.v 9) (vr 0) (vr 1) (vr 2) :=
  ⟨two_basic, by decide⟩

theorem witness_AcrossTheSet : Basic two ∧ plainDst .none = true ∧ plainSrc (vr 0).src = true ∧
    longForm (.permShort (.v 9) (.v 0) (.imm 1)) = .perm false (.v 9) (vr 0) (op (.imm 1)) ∧ longForm (.perm true (.v 8) (vr 0) (vr 2)) = .perm true (.v 8) (vr 0) (vr 2) :=
  ⟨two_basic, by decide⟩

/-- The constant-bank element of a lane of `two` is v0 - 1, so 0 and 1; the bank holds 4. -/
theorem witness_ImmediatesAndConstants : Basic two ∧ two.cur.lanes ≠ [] ∧ plainDst (.v 9) = true ∧ plainSrc (vr 0).src = true ∧
    (∀ l ∈ two.cur.lanes, (BitVec.ofNat 32 (opnd two (.int 32) (vr 0) l) + (0xFFFFF#20).signExtend 32).toNat < (grp two two.cur.uid).cblen) ∧
    (∀ l ∈ two.cur.lanes, (BitVec.ofNat 32 (opnd two (.int 32) (vr 0) l) + (1#20).signExtend 32).toNat < (grp two two.cur.uid).cblen) :=
  ⟨two_basic, by decide +kernel⟩

theorem witness_FloatSums : Basic two ∧ plainDst (.v 9) = true ∧ plainSrc (vr 2).src = true ∧ dstAsSrc (.v 9) = some (.v 9) ∧
    longForm (.faddShort (.v 9) (.v 2) (.v 2)) = .fadd .f32 .dyn (.v 9) (vr 2) (vr 2) ∧ longForm (.fsub .bf16 .rtz (.v 9) (vr 2) (vr 2)) = .fsub .bf16 .rtz (.v 9) (vr 2) (vr 2) ∧
    longForm (.fmulShort (.v 9) (.v 2) (.v 2)) = .fmul .f32 .dyn (.v 9) (vr 2) (vr 2) ∧ longForm (.fmacShort (.v 9) (.v 2) (.v 2)) = .fmac .f32 .dyn (.v 9) (vr 2) (vr 2) ∧
    longForm (.fmaShort (.v 9) (.v 2) (.v 2)) = .fma false (.v 9) (vr 2) (vr 2) (vr 9) ∧ longForm (.fscaleShort (.v 9) (.v 2) (.v 0)) = .fscale .f32 .dyn (.v 9) (vr 2) (vr 0) ∧
    (∀ l ∈ two.cur.lanes, ∀ fl, fpxDue (curLane two l) fl = false) :=
  ⟨two_basic, by decide, by decide, by decide, by decide, by decide, by decide, by decide, by decide, by decide, fun l h fl => two_quiet l h fl⟩

theorem witness_FloatOrderAndClass : Basic two ∧ plainDst (.v 9) = true ∧ plainSrc (vr 2).src = true ∧
    longForm (.fminShort (.v 9) (.v 2) (.v 2)) = .fmin .f32 false (.v 9) (vr 2) (vr 2) ∧ longForm (.fmax .f16 true (.v 9) (vr 2) (vr 2)) = .fmax .f16 true (.v 9) (vr 2) (vr 2) ∧
    longForm (.fcmpLeShort (.v 9) (.v 2) (.v 2)) = .fcmp .le .f32 (.v 9) (vr 2) (vr 2) ∧ longForm (.frndShort (.v 9) (.v 2)) = .frnd .f32 .dyn false (.v 9) (vr 2) ∧
    longForm (.fclassShort (.v 9) (.v 2)) = .fclass .f32 (.v 9) (vr 2) ∧ (∀ l ∈ two.cur.lanes, ∀ fl, fpxDue (curLane two l) fl = false) :=
  ⟨two_basic, by decide, by decide, by decide, by decide, by decide, by decide, by decide, fun l h fl => two_quiet l h fl⟩

theorem witness_FloatPackedAndConverted : Basic two ∧ plainDst (.v 8) = true ∧ plainSrc (vr 2).src = true ∧
    longForm (.h2addBf16Short (.v 9) (.v 2) (.v 2)) = .h2add true .dyn (.v 9) (vr 2) (vr 2) ∧ longForm (.h2mulF16Short (.v 9) (.v 2) (.v 2)) = .h2mul false .dyn (.v 9) (vr 2) (vr 2) ∧
    longForm (.h2fmaF16Short (.v 9) (.v 2) (.v 2)) = .h2fma false (.v 9) (vr 2) (vr 2) (vr 9) ∧ longForm (.fdot2Bf16Short (.v 9) (.v 2) (.v 2)) = .fdot2 true (.v 9) (vr 2) (vr 2) (vr 9) ∧
    longForm (.daddShort (.v 8) (.v 2) (.v 2)) = .dadd .dyn (.v 8) (vr 2) (vr 2) ∧ longForm (.dmulShort (.v 8) (.v 2) (.v 2)) = .dmul .dyn (.v 8) (vr 2) (vr 2) ∧
    longForm (.dfmaShort (.v 8) (.v 2) (.v 2)) = .dfma false (.v 8) (vr 2) (vr 2) (vr 8) ∧
    longForm (.cvtI32F32Short (.v 9) (.v 2)) = .cvt .toF32 .i32 false .dyn (.v 9) (vr 2) ∧ longForm (.cvtF32I32Short (.v 9) (.v 2)) = .cvt .fromF32 .i32 false .rtz (.v 9) (vr 2) ∧
    longForm (.cvt .fromF64 .f64 false .rne (.v 8) (vr 2)) = .cvt .fromF64 .f64 false .rne (.v 8) (vr 2) ∧ longForm (.cvt .toF64 .z64 false .rne (.v 8) (vr 2)) = .cvt .toF64 .z64 false .rne (.v 8) (vr 2) ∧
    longForm (.deq .e2m1 3 .dyn (.v 9) (vr 2) (vr 0)) = .deq .e2m1 3 .dyn (.v 9) (vr 2) (vr 0) ∧ (∀ l ∈ two.cur.lanes, ∀ fl, fpxDue (curLane two l) fl = false) :=
  ⟨two_basic, by decide, by decide, by decide, by decide, by decide, by decide, by decide, by decide, by decide, by decide, by decide, by decide, by decide, by decide,
    fun l h fl => two_quiet l h fl⟩

theorem witness_Quantise : Basic two ∧ plainDst (.v 8) = true ∧ plainSrc (vr 2).src = true ∧ (∀ l ∈ two.cur.lanes, ∀ fl, fpxDue (curLane two l) fl = false) :=
  ⟨two_basic, by decide, by decide, fun l h fl => two_quiet l h fl⟩

theorem witness_Transcendentals : Basic two ∧ two.cur.lanes ≠ [] ∧ plainDst (.v 9) = true ∧ plainSrc (vr 2).src = true ∧
    longForm (.frcpShort (.v 9) (.v 2)) = .frcp .dyn (.v 9) (vr 2) ∧ longForm (.frsqShort (.v 9) (.v 2)) = .frsq .dyn (.v 9) (vr 2) ∧
    longForm (.fsqrt .rup (.v 9) (vr 2)) = .fsqrt .rup (.v 9) (vr 2) ∧ longForm (.fexp2Short (.v 9) (.v 2)) = .fexp2 .dyn (.v 9) (vr 2) ∧
    longForm (.flog2Short (.v 9) (.v 2)) = .flog2 .dyn (.v 9) (vr 2) ∧ (∀ l ∈ two.cur.lanes, ∀ fl, fpxDue (curLane two l) fl = false) :=
  ⟨two_basic, by decide, by decide, by decide, by decide, by decide, by decide, by decide, by decide, fun l h fl => two_quiet l h fl⟩

/-- Two lanes of 32, so that elements of the others count as +0; the formats of one and of two widths, mixed where they are of eight bits. -/
theorem witness_GroupMatrix : Basic two ∧ (∀ l ∈ two.cur.lanes, ∀ fl, fpxDue (curLane two l) fl = false) ∧ fmtWidth .f16 = 16 ∧ fmtWidth .e5m2 = 8 :=
  ⟨two_basic, fun l h fl => two_quiet l h fl, by decide⟩

theorem witness_ResultFrame : Basic two ∧ (∀ k, (Dst.v 126) = .v k → k.val + 2 ≤ 128) ∧ (∀ k, (Dst.o 7) = .o k → k.val + 1 ≤ 8) :=
  ⟨two_basic, by intro k h; cases h; decide, by intro k h; cases h; decide⟩

/-! ### Hypotheses of the statements about control, traps and the system -/

/-- `two` with its threads in a mode. -/
def inMode (m : Mode) : State := machine [0, 1] (fun l ln => { words l ln with mode := m })

/-- `two` with its group changed. -/
def twoGrp (f : Group → Group) : State := modGrp two 1 f

/-- Lane 0 only. -/
def one : State := machine [0] words

/-- `inMode .s` after lanes 0 and 1 have taken a `syscall` trap from U. -/
def trapped : State := [0, 1].foldl (fun s l => trapLane s 1 l ⟨.syscall, 5, 0x10008#64, 0x10010#64, 0x10000#64⟩) two

/-- A lane may enter a block. -/
def entersB (s : State) (l : Nat) (h : W64) (k : Entry) : Bool :=
  match enterBlock s (vmidOf s (ctxOf s s.cur.uid)) (asidOf s (ctxOf s s.cur.uid)) (curLane s l).mode h k s.cur.pc with
  | .ok _ => true
  | _ => false

/-- The kind of the page that is reached. -/
def kindAt : Reach → Option PKind
  | .page a _ _ => some a.kind
  | _ => none

/-- Lane 31, the last pairs, immediates that formats hold, and a group in a slot. -/
theorem witness_OperandDelivery : (31 : Nat) < 32 ∧ (126 : Fin 128).val + 1 < 128 ∧ (6 : Fin 8).val + 1 < 8 ∧ Fmt.f32 ≠ .f64 ∧
    [(Fmt.f32, (-16 : Int)), (.f64, 15), (.f16, -16), (.bf16, 15), (.e4m3, 15), (.e2m1, 6), (.b8 false false 3, -8)].all (fun p => immFits p.1 p.2) = true ∧
    slotOf (grp two two.cur.uid) = some 0 ∧ coreOf two two.cur.uid < 2 ^ 8 ∧ (gangOf two two.cur.uid).groups.length ≤ 16 ∧ (grp two two.cur.uid).gidx < 16 := by
  and_intros <;> decide +kernel

/-- Depths 0 and 3 of a slice of 1,024 bytes (the last one has no frame left), depth 4, and sums that raise FNX with its trap enabled. -/
theorem witness_TrapEntry : Basic two ∧ (tGet? two.groups 1).isSome = true ∧ 31 < (grp two 1).lanes.length ∧
    Basic (machine [0] (fun l ln => { words l ln with depth := 3 })) ∧
    (lane (machine [0] (fun l ln => { words l ln with depth := 4 })) 1 0).depth = 4 ∧ (tGet? two.launches (launchOf two 1)).isSome = true ∧
    (tGet? two.gangs (grp two 1).gang).isSome = true ∧
    (let s := machine [0, 1] (fun l ln => { words l ln with fmode := 0x3E01#32 })
     Basic s ∧ plainDst (.v 9) = true ∧ plainSrc (vr 2).src = true ∧
      (∀ l ∈ s.cur.lanes, fpxDue (curLane s l) (fused (laneRnd (curLane s l) .rne) .f32
        [term (fmtDecode .f32 (opnd s (.flt .f32) (vr 2) l)), term (fmtDecode .f32 (opnd s (.flt .f32) (vr 0) l))]).2.flags = true) ∧
      (∀ l ∈ s.cur.lanes, crosses s [(vr 2, .flt .f32), (vr 0, .flt .f32)] l = false)) :=
  ⟨two_basic, by decide +kernel, by decide +kernel, basic_of _ (by decide +kernel), by decide +kernel, by decide +kernel, by decide +kernel,
    basic_of _ (by decide +kernel), by decide +kernel⟩

/-- Every lane stands in the block at 0x10000; a `call` of that block enters, one of 0x10010 does not, and so for `jmpi`. -/
theorem witness_Transfers : Basic two ∧ (∀ l ∈ two.cur.lanes, (curLane two l).at_ = .word 0x10000#64 3 0x10008#64 2) ∧ plainDst (.v 8) = true ∧
    (∀ l ∈ two.cur.lanes, entersB two l (0x10000#64 + 8 * (0#20).signExtend 64) .call = true) ∧
    (∀ l ∈ two.cur.lanes, entersB two l (0x10000#64 + 8 * (2#20).signExtend 64) .call = false) ∧
    (∀ l ∈ two.cur.lanes, entersB two l (BitVec.ofNat 64 (opnd two (.int 64) (op (cregSrc (.v 16))) l)) .indirect = true) ∧
    (∀ l ∈ two.cur.lanes, entersB two l (BitVec.ofNat 64 (opnd two (.int 64) (op (cregSrc (.v 4))) l)) .indirect = false) :=
  ⟨two_basic, by decide +kernel⟩

theorem witness_ExitAndWaits : Basic two ∧ (grp two 1).engFault = none ∧ (∀ l ∈ two.cur.lanes, (curLane two l).mode = .u) ∧
    (let s := modGrp one 1 (fun g => { g with engFault := some ⟨.access, 0x40#64, 0⟩ })
     Basic s ∧ s.cur.lanes = [0] ∧ (curLane s 0).engTaken = false ∧ (grp s 1).engFault = some ⟨.access, 0x40#64, 0⟩) :=
  ⟨two_basic, by decide +kernel, by decide +kernel, basic_of _ (by decide +kernel), by decide +kernel⟩

/-- A barrier with nothing arrived, and one where the next arrival of 32 ends the phase. -/
theorem witness_Barriers : Basic two ∧ (grp two 1).engFault = none ∧ barGet two (barKey two 1 ⟨.core, 15⟩) = some { expect := 32 } ∧
    (∀ l ∈ two.cur.lanes, (curLane two l).syncp = false) ∧ opnd two (.int 32) (op (cregSrc (.v 0))) (leader two) ≠ 0 ∧
    (let s := barPut two (barKey two 1 ⟨.core, 0⟩) { expect := 32, arrived := 31, phase := 0x7FFFFFFF }
     Basic s ∧ barGet s (barKey s 1 ⟨.core, 0⟩) = some { expect := 32, arrived := 31, phase := 0x7FFFFFFF }) :=
  ⟨two_basic, by decide +kernel, by decide +kernel, by decide +kernel, by decide +kernel, basic_of _ (by decide +kernel), by decide +kernel⟩

theorem witness_SystemCalls : Basic two ∧ (∀ l ∈ two.cur.lanes, (curLane two l).mode ≠ .h) ∧ breakPorts two (ctxOf two 1) = [] ∧
    Basic (inMode .s) ∧ (∀ l ∈ (inMode .s).cur.lanes, (curLane (inMode .s) l).mode ≠ .u) ∧
    (let s := modPort two 0 3 (fun p => { p with dctl := 1 })
     Basic s ∧ breakPorts s (ctxOf s 1) ≠ []) :=
  ⟨two_basic, by decide +kernel, by decide +kernel, basic_of _ (by decide +kernel), by decide +kernel, basic_of _ (by decide +kernel), by decide +kernel⟩

/-- The frame of `trapped` lies in the slice at 896, and its lanes came from U without REDIR; `csrw` of TXPC sets REDIR, with a block that may be entered; and lanes with
RETIRE. -/
theorem witness_TrapReturn : Basic trapped ∧ (grp trapped 1).engFault = none ∧ (∀ l ∈ trapped.cur.lanes,
      let ln := curLane trapped l
      ln.mode = .s ∧ ln.retire = false ∧ ln.depth = 1 ∧ poisoned ln.privPois 896 64 = false ∧ leNat (privBytes ln (896 + 21) 1) = 0 ∧ leNat (privBytes ln (896 + 22) 1) % 2 = 0) ∧
    after (.csrw .write .none .txpc (.v 16)) trapped (fun s => basicB s && decide ((grp s 1).engFault = none ∧ (∀ l ∈ s.cur.lanes,
        let ln := curLane s l
        ln.mode = .s ∧ ln.retire = false ∧ leNat (privBytes ln (896 + 21) 1) = 0 ∧ leNat (privBytes ln (896 + 22) 1) % 2 = 1 ∧
          leNat (privBytes ln (896 + 8) 8) = 0x10000 ∧ entersB s l 0x10000#64 .indirect = true))) = true ∧
    (let s := machine [0, 1] (fun l ln => { words l ln with mode := .s, retire := true })
     Basic s ∧ ∀ l ∈ s.cur.lanes, (curLane s l).mode ≠ .u ∧ (curLane s l).retire = true) :=
  ⟨basic_of _ (by decide +kernel), by decide +kernel, by decide +kernel, by decide +kernel, basic_of _ (by decide +kernel), by decide +kernel⟩

/-- H reaches every register; depth 0 and a frame. -/
theorem witness_ControlRegisters : Basic (inMode .h) ∧ plainDst .none = true ∧ plainSrc (.lit 0x100#32) = true ∧
    (∀ n ∈ [Csr.fmode, .srseed, .srcnt, .regpc, .regcnt, .mstat, .txpc, .tscratch, .tvec, .tcause, .txval, .hvec],
      ∀ l ∈ (inMode .h).cur.lanes, minMode (csrC n) ≤ modeCode (curLane (inMode .h) l).mode ∧ (curLane (inMode .h) l).depth = 0) ∧
    Basic trapped ∧ (∀ l ∈ trapped.cur.lanes, minMode (csrC .txpc) ≤ modeCode (curLane trapped l).mode ∧ (curLane trapped l).depth ≠ 0) :=
  ⟨basic_of _ (by decide +kernel), by decide +kernel, by decide +kernel, by decide +kernel, basic_of _ (by decide +kernel), by decide +kernel⟩

/-- Elements 0, the last of SVSCR, and the first beyond it. -/
theorem witness_SpecialRegisters : Basic (inMode .h) ∧ (∃ l, l ∈ (inMode .h).cur.lanes) ∧ plainDst (.v 8) = true ∧
    (∀ r ∈ [Sreg.launchid, .cblen, .galtime, .kclass, .accept, .coreclk, .privsz, .sgfault, .svscr, .asid, .coremap, .vmid],
      ∀ l ∈ (inMode .h).cur.lanes, minMode (sregC r) ≤ modeCode (curLane (inMode .h) l).mode) ∧
    opnd (inMode .h) (.int 32) (op (.imm 0)) (leader (inMode .h)) < 1 ∧ opnd (inMode .h) (.int 32) (op (.imm 15)) (leader (inMode .h)) = 15 ∧
    16 ≤ opnd (inMode .h) (.int 32) (op (.lit 16#32)) (leader (inMode .h)) :=
  ⟨basic_of _ (by decide +kernel), ⟨0, by decide +kernel⟩, by decide +kernel⟩

theorem witness_PrivilegeTraps : (Basic two ∧ ∀ l ∈ two.cur.lanes, (curLane two l).mode = .u) ∧
    (Basic (inMode .s) ∧ ∀ l ∈ (inMode .s).cur.lanes, (curLane (inMode .s) l).mode = .s) ∧
    (Basic (inMode .h) ∧ ∀ l ∈ (inMode .h).cur.lanes, (curLane (inMode .h) l).mode = .h) ∧
    -- lanes and a kernel image at `draft`, which may not raise their class to `check`
    (let s := modLaunch (machine [0, 1] (fun l ln => { words l ln with rclass := .draft })) 3 (fun k => { k with img := List.replicate 43 0 ++ [2] ++ List.replicate 84 0 })
     Basic s ∧ ∀ l ∈ s.cur.lanes, (curLane s l).mode = .u ∧ classRank (curLane s l).rclass < classRank .check ∧
        classRank (imgKclass (launchAt s (launchOf s s.cur.uid))) < classRank .check) :=
  ⟨⟨two_basic, by decide +kernel⟩, ⟨basic_of _ (by decide +kernel), by decide +kernel⟩, ⟨basic_of _ (by decide +kernel), by decide +kernel⟩,
    basic_of _ (by decide +kernel), by decide +kernel⟩

/-- The port 2 has a session with the right 3 and one record of room. -/
theorem witness_BudgetClassTimeTrace : Basic (inMode .s) ∧ (tGet? (inMode .s).launches (launchOf (inMode .s) 1)).isSome = true ∧
    (∀ l ∈ (inMode .s).cur.lanes, (curLane (inMode .s) l).mode ≠ .u) ∧
    (let s := modPort (inMode .s) 0 2 (fun p => { p with session := true, prights := 8, trsize := 4, trtail := 7, trhead := 4 })
     let port := portAt s (ctxOf s 1) 2
     Basic s ∧ (tGet? s.launches (launchOf s 1)).isSome = true ∧ plainSrc (.v 4) = true ∧ (ctxAt s (ctxOf s 1)).ports.length = 4 ∧
      (∀ i, i < 4 → i ≠ 2 → (portAt s (ctxOf s 1) i).session = false) ∧ port.session = true ∧ port.prights.toNat / 8 % 2 = 1 ∧ port.lost = 0 ∧
      port.trtail - port.trhead < port.trsize ∧ (launchAt s (launchOf s 1)).halted = false) :=
  ⟨basic_of _ (by decide +kernel), by decide +kernel, by decide +kernel, basic_of _ (by decide +kernel), by decide +kernel⟩

/-- Ranges of no line, of one, of 2^30 and one more; slots at the end of a code page, one word too many, and an address between slots. -/
theorem witness_CodeMaintenance : Basic (inMode .s) ∧ (∀ l ∈ (inMode .s).cur.lanes, (curLane (inMode .s) l).mode ≠ .u) ∧ plainSrc (.v 16) = true ∧
    (let n (x : Src) : Nat := opnd (inMode .s) (.int 32) (op x) (leader (inMode .s))
     let x (a : Src) : Nat := opnd (inMode .s) (.int 64) (op a) (leader (inMode .s))
     n (.imm 0) = 0 ∧ n (.lit 0x40000000#32) = 2 ^ 30 ∧ 2 ^ 30 < n (.lit 0x40000001#32) ∧ x (.v 10) % 8 ≠ 0 ∧
      (x (.v 16) % 8 = 0 ∧ 1 ≤ n (.lit 512#32) ∧ n (.lit 512#32) ≤ 512 ∧ x (.v 16) % 4096 + 8 * n (.lit 512#32) ≤ 4096) ∧
      (x (.v 20) % 8 = 0 ∧ 4096 < x (.v 20) % 4096 + 8 * n (.lit 512#32))) ∧
    kindAt (reach (inMode .s) 0 0 0x10000#64 .fetch .s) = some .code :=
  ⟨basic_of _ (by decide +kernel), by decide +kernel⟩

/-! ### Hypotheses of the statements about memory -/

/-- Descriptors of the cells (8 of depth 2, cell 0 at edition 3, cell 1 at the last one) and of the plates (16 of f32, one knot, or MLP where mlp). -/
def stored (mlp : Bool) (s : State) : State :=
  let s := wrBytes s (mkey 0 0x19000) (leBytes 8 0x21000 ++ leBytes 4 8 ++ [2, 0, 1, 0] ++ leBytes 8 0x1C000 ++ leBytes 8 0x1B000)
  let s := wrBytes s (mkey 0 0x1B000) (leBytes 4 3 ++ List.replicate 12 0 ++ leBytes 4 (2 ^ 32 - 1))
  wrBytes s (mkey 0 0x1A000)
    (leBytes 8 0x22000 ++ leBytes 4 16 ++ (if mlp then [2, 8, 0, 1] else [1, 8, 1, 1]) ++ leBytes 4 0 ++ leBytes 4 100 ++ leBytes 4 7 ++ leBytes 4 0 ++ leBytes 8 0x1D000 ++
      leBytes 8 0x1E000 ++ leBytes 8 0x23000 ++ leBytes 8 0x2B0000)

/-- `two` with those descriptors. -/
def rich : State := stored false two

/-- The state after an instruction that is answered with a next state. -/
def next (i : Instr) (s : State) : State :=
  match exec i s with
  | .next t => t
  | _ => s

/-- The tests' pages. -/
def ordinary : PageAttr := (aPage 0x20000 .ordinary (some arrayRegion)).attr
def cells : PageAttr := (aPage 0x21000 .editioned (some cellRegion)).attr
def plates : PageAttr := (aPage 0x22000 .plated (some plateRegion)).attr

/-- Lane l may access n bytes at va on page a of die 0: aligned, permitted, unwatched, of its class, free of errors. -/
def fineB (s : State) (l : Nat) (va : W64) (n : Nat) (acc : AccKind) (a : PageAttr) : Bool :=
  decide (va.toNat % n = 0) && decide (reach s (vmidOf s (ctxOf s s.cur.uid)) (asidOf s (ctxOf s s.cur.uid)) va acc (curLane s l).mode = .page a 0 va.toNat) &&
    decide (watchPorts s (ctxOf s s.cur.uid) va n true true = []) && decide (classRank (curLane s l).rclass ≤ classRank a.rclass) &&
    !poisoned s.poison (mkey 0 va.toNat) n && !classMixed s a.rclass 0 va.toNat n

theorem fine_of (s : State) (l : Nat) (va : W64) (n : Nat) (acc : AccKind) (a : PageAttr) (h : fineB s l va n acc a = true) :
    Admits s l va n acc a 0 va.toNat ∧ ClassOk s l a ∧ Clean s a 0 va.toNat n := by
  simp only [fineB, Bool.and_eq_true, decide_eq_true_eq, Bool.not_eq_true'] at h
  obtain ⟨⟨⟨⟨⟨h1, h2⟩, h3⟩, h4⟩, h5⟩, h6⟩ := h
  exact ⟨⟨h1, h2, h3⟩, h4, h5, h6⟩

/-- What lane l reads from a pair. -/
def pairOf (s : State) (n : Fin 128) (l : Nat) : Nat := opnd s (.int 64) (op (.v n)) l

/-- The first and the last element of the page, of every size; the last index is the literal 4096 / n - 1. -/
theorem witness_LoadIssue : Basic two ∧ two.errors = [] ∧ plainDst (.v 22) = true ∧ plainSrc (.lit 511#32) = true ∧
    (∀ l ∈ two.cur.lanes, ∀ n ∈ [1, 2, 4, 8, 16], fineB two l (eaOf n (pairOf two 4 l) (opnd two (.int 32) (op (.imm 0)) l) 0) n .read ordinary = true ∧
      fineB two l (eaOf n (pairOf two 4 l) (opnd two (.int 32) (op (.lit (BitVec.ofNat 32 (4096 / n - 1)))) l) 0) n .read ordinary = true) ∧
    (∀ l ∈ two.cur.lanes, fineB two l (eaOf 16 (pairOf two 4 l) 0 0 + 8) 8 .read ordinary = true) ∧ ordinary.kind = .ordinary :=
  ⟨two_basic, by decide +kernel⟩

/-- One store of lane 0 in its FIFO, in its core's view, and no store of its own; loads that it covers and that it overlaps in part; a copy of the die; an atomic of its own on
its way. -/
theorem witness_LoadRules :
    (let t := next (.st .w ⟨.plain, .core⟩ (.v 0) 4 0 (op (.imm 0))) one
     let v := next (.leave 1 0) t
     let others (n : Nat) : List FEntry := (coreAt v (coreOf v 1)).view.filter (fun e => !(e.uid == 1 && e.lane == 1) && isStore e && e.peer.isNone && e.owner == 0 &&
       runsHit (pieces e.pa (max 1 e.size) e.tail) 0x20000 n && (e.sem == .plain || e.scope == .core))
     let atomic : FEntry := entryFor one 0 (.atom .add 4 1 0) ordinary 1 0x20000 0x20000#64 4 .acqrel .pkg {} false
     let sent : State := { one with links := [(7, .entry atomic 0)] }
     let copied : State := modDie one 0 (fun d => { d with remote := (List.range 4).map (fun k => (mkey 1 0x20000 + k, (9#8, 5))) })
     (ownEntries t 1 0 none 0 0x20000 0x20000#64 4).map (fun e => (e.act, e.pa)) = [(.bytes [1, 0, 0, 0], 0x20000)] ∧
      (ownEntries t 1 0 none 0 0x20000 0x20000#64 8).map (fun e => (e.act, e.pa)) = [(.bytes [1, 0, 0, 0], 0x20000)] ∧
      ownEntries t 1 0 none 0 0x20004 0x20004#64 4 = [] ∧ serviceOut t 1 0 none 0 0x20004 0x20004#64 4 = false ∧
      ownEntries sent 1 0 none 1 0x20000 0x20000#64 4 = [] ∧ serviceOut sent 1 0 none 1 0x20000 0x20000#64 4 = true ∧
      -- lane 1 reads lane 0's entry of the view
      ownEntries v 1 1 none 0 0x20000 0x20000#64 4 = [] ∧ serviceOut v 1 1 none 0 0x20000 0x20000#64 4 = false ∧
      bufferRead v (launchAt v (launchOf v 1)) 0 0x20000 none 0x20000#64 4 = none ∧
      (others 4).map (fun e => (e.act, e.pa)) = [(.bytes [1, 0, 0, 0], 0x20000)] ∧
      -- eight bytes, of which the store has four
      (∀ e ∈ ownEntries t 1 0 none 0 0x20000 0x20000#64 8 ++ others 8, entryCovers e 0x20000 8 .bytes = none) ∧ (others 8).length = 1 ∧
      ownEntries v 1 1 none 0 0x20000 0x20000#64 8 = [] ∧ serviceOut v 1 1 none 0 0x20000 0x20000#64 8 = false ∧
      bufferRead v (launchAt v (launchOf v 1)) 0 0x20000 none 0x20000#64 8 = none ∧
      -- copies of every byte, and of none
      ownEntries copied 1 0 none 1 0x20000 0x20000#64 4 = [] ∧ serviceOut copied 1 0 none 1 0x20000 0x20000#64 4 = false ∧
      bufferRead copied (launchAt copied (launchOf copied 1)) 1 0x20000 none 0x20000#64 4 = none ∧ (coreAt copied (coreOf copied 1)).view = [] ∧
      (∀ k, k < 4 → tGet? (dieAt copied (dieOf (coreOf copied 1))).remote (mkey 1 0x20000 + k) = some (([9, 9, 9, 9] : List Byte).getD k 0, 5)) ∧
      (lane copied 1 0).acqStep = 0 ∧ tGet? (dieAt one (dieOf (coreOf one 1))).remote (mkey 1 0x20000) = none) := by decide +kernel

theorem witness_StoreIssue : Basic two ∧ plainSrc (.v 0) = true ∧ plainSrc (.lit 511#32) = true ∧
    (∀ l ∈ two.cur.lanes, ∀ n ∈ [1, 2, 4, 8, 16], fineB two l (eaOf n (pairOf two 4 l) 0 0) n .write ordinary = true ∧
      fineB two l (eaOf n (pairOf two 4 l) (opnd two (.int 32) (op (.lit (BitVec.ofNat 32 (4096 / n - 1)))) l) 0) n .write ordinary = true) ∧ ordinary.kind = .ordinary :=
  ⟨two_basic, by decide +kernel⟩

/-- Where an element is found. -/
def foundB (s : State) (l : Nat) (a : Nat) (i : Int) (acc : AccKind) (e : ElemAt) : Bool :=
  match findElem s l a i acc with
  | .go x => decide (x = e)
  | _ => false

/-- Elements 0 and 1,023 of the f32 array; a negative index; a page without a region; and the value that lane 1 has stored read back at once. -/
theorem witness_ElementAccess :
    (let r (va : W64) (acc : AccKind) : Reach := reach two 0 0 va acc .u
     ptrHere two 0x20000#64 = true ∧ ptrReserved 0x20000#64 = false ∧ r 0x20000#64 .read = .page ordinary 0 0x20000 ∧ ordinary.region = some arrayRegion ∧
      fmtOf arrayRegion.elemfmt arrayRegion.p8d = some .f32 ∧ ordinary.sto = false ∧ arrayRegion.block = 0 ∧ r 0x20FFC#64 .read = .page ordinary 0 0x20FFC ∧
      r 0x20FFF#64 .read = .page ordinary 0 0x20FFF ∧ watchPorts two (ctxOf two 1) 0x20FFC#64 4 true true = [] ∧
      fineB two 1 0x20FFC#64 4 .read ordinary = true ∧
      reach { two with tlbs := [(0, [aPage 0x20000 .ordinary none])] } 0 0 0x20000#64 .read .u = .page { ordinary with region := none } 0 0x20000) ∧
    Basic two ∧ two.errors = [] ∧ (∀ l ∈ two.cur.lanes, enables (curLane two l).fmode = 0) ∧
    (∀ l ∈ two.cur.lanes, ∀ acc ∈ [AccKind.read, .write], foundB two l (pairOf two 4 l) ((opnd two (.int 32) (op (.imm 0)) l : Int) + (2#8).toInt) acc
      { reach := .page ordinary 0 0x20008, va := 0x20008#64, ofs := 0, fmt := .f32 } = true) ∧
    (∀ l ∈ two.cur.lanes, loadAt two 1 l .plain .core none 0 0x20008 0x20008#64 4 = .now [0, 0, 0, 0]) ∧
    (∀ k, dstReg (.v 23) = some k → (1 : Nat) = 2 → k % 2 = 0) ∧ plainSrc (.v 2) = true :=
  ⟨by decide +kernel, two_basic, by decide +kernel, by decide +kernel, by decide +kernel, by decide +kernel, by decide, by decide⟩

/-- An array of e2m3 from 0x20000 on, over a page there and one whose frame is 0x28000: element 5,461 has two bits in the first and four in the second. -/
def twoPages : State :=
  let r : RegionEnt := { arrayRegion with elemfmt := 15 }
  let first : TlbEnt := aPage 0x20000 .ordinary (some r)
  let second : TlbEnt := { aPage 0x21000 .ordinary (some r) with attr := { (aPage 0x28000 .ordinary (some r)).attr with rclass := .check } }
  { machine [0, 1] (fun l ln => { words l ln with rclass := .check }) with tlbs := [(0, [first, second])], frameClass := [(mkey 0 0x28000 / 4096, .check)] }

/-- The same for that element: where it is found, what it reads, and its index. -/
theorem witness_ElementAccess_pages :
    (let r : RegionEnt := { arrayRegion with elemfmt := 15 }
     let p1 : PageAttr := (aPage 0x20000 .ordinary (some r)).attr
     let p2 : PageAttr := { (aPage 0x28000 .ordinary (some r)).attr with rclass := .check }
     let s : State := twoPages
     let e : ElemAt := { reach := .page p1 0 0x20FFF, va := 0x20FFF#64, ofs := 6, fmt := .e2m3, tail := some (0x28000, .check) }
     fmtWidth .e2m3 = 6 ∧ fmtOf r.elemfmt r.p8d = some .e2m3 ∧ r.block = 0 ∧ reach s 0 0 0x20FFF#64 .read .u = .page p1 0 0x20FFF ∧ reach s 0 0 0x21000#64 .read .u = .page p2 0 0x28000 ∧
      (∀ p ∈ [p1, p2], p.region = some r ∧ p.kind = .ordinary ∧ p.sto = false ∧ classRank (lane s 1 0).rclass ≤ classRank p.rclass) ∧ watchPorts s (ctxOf s 1) 0x20FFF#64 2 true true = [] ∧
      foundB s 0 0x20000 5461 .read e = true ∧ foundB s 0 0x20000 5461 .write e = true ∧ opnd s (.int 64) (op (.v 4)) 0 = 0x20000 ∧
      poisoned s.poison (mkey 0 0x20FFF) 1 = false ∧ classMixed s .proof 0 0x20FFF 1 = false ∧ poisoned s.poison (mkey 0 0x28000) 1 = false ∧ classMixed s .check 0 0x28000 1 = false ∧
      loadAt s 1 0 .plain .core none 0 0x20FFF 0x20FFF#64 1 = .now [0] ∧ loadAt s 1 0 .plain .core none 0 0x28000 0x21000#64 1 = .now [0]) := by and_intros <;> decide +kernel

/-- Addresses 0 and the last of the 16 tiles; offsets 0 and the last that each mode reaches; the first and the last word of the 16 rows; tags of the first and the last
tile. -/
theorem witness_LocalLoads : Basic two ∧ plainDst (.v 24) = true ∧ plainSrc (.lit 0xFFF0#32) = true ∧ (∀ l ∈ two.cur.lanes, (curLane two l).fifo = []) ∧
    (let g := gangOf two 1
     (∀ l ∈ two.cur.lanes, ∀ e ∈ [eaNear 16 0 (opnd two (.int 32) (op (.imm 0)) l) 0, eaNear 16 0 (opnd two (.int 32) (op (.lit 4095#32)) l) 0],
       e % 16 = 0 ∧ e < 2 ^ 21 ∧ e / 4096 < g.tiles ∧ poisoned g.scratchPois e 16 = false ∧ ∀ k, k < 16 → flyingByte two (grp two 1).gang (e + k) = none) ∧
     (∀ l ∈ two.cur.lanes, poisoned (curLane two l).privPois 752 16 = false ∧ (curLane two l).mode = .u ∧ 256 < g.privsz ∧ eaNear 16 0 47 0 = 752 ∧ 752 + 16 ≤ g.privsz - 256) ∧
     (∀ l ∈ (inMode .s).cur.lanes, (curLane (inMode .s) l).mode = .s ∧ eaNear 16 0 59 0 + 16 ≤ (gangOf (inMode .s) 1).privsz - 64) ∧
     (∀ l ∈ (inMode .h).cur.lanes, (curLane (inMode .h) l).mode = .h ∧ eaNear 16 0 63 0 < (gangOf (inMode .h) 1).privsz) ∧
     (∀ l ∈ two.cur.lanes, ∀ cnt ∈ [(1 : Nat), 2, 4], opnd two (.int 32) (op (.v 0)) l < g.accrows ∧ (15 : Nat) < g.accrows ∧
       (256 - cnt) % cnt = 0 ∧ ∀ k, k < cnt → 15 * 256 + 256 - cnt + k ∉ g.accPois ∧
         flyingWord two (grp two 1).gang (15 * 256 + 256 - cnt + k) = none) ∧
     (0 : Nat) / 4096 < g.tiles ∧ 65535 < 2 ^ 21 ∧ 65535 / 4096 < g.tiles) :=
  ⟨two_basic, by decide +kernel⟩

theorem witness_LocalStores : Basic two ∧ plainSrc (.v 0) = true ∧ plainSrc (.lit 4095#32) = true ∧
    (let g := gangOf two 1
     (∀ l ∈ two.cur.lanes, eaNear 16 0 (opnd two (.int 32) (op (.lit 4095#32)) l) 0 % 16 = 0 ∧ eaNear 16 0 (opnd two (.int 32) (op (.lit 4095#32)) l) 0 / 4096 < g.tiles) ∧
     (∀ l ∈ two.cur.lanes, (curLane two l).mode = .u ∧ eaNear 16 0 47 0 + 16 ≤ g.privsz - 256) ∧
     (∀ l ∈ (inMode .s).cur.lanes, (curLane (inMode .s) l).mode = .s ∧ eaNear 16 0 59 0 + 16 ≤ (gangOf (inMode .s) 1).privsz - 64) ∧
     (∀ l ∈ (inMode .h).cur.lanes, (curLane (inMode .h) l).mode = .h ∧ eaNear 16 0 63 0 < (gangOf (inMode .h) 1).privsz) ∧
     (let w : BitVec 32 := BitVec.ofNat 32 (opnd two (.int 32) (op (.lit 0x1123F#32)) 0)
      w.extractLsb' 17 15 = 0 ∧ (w.extractLsb' 13 3).toNat < 5 ∧ (w.extractLsb' 10 3).toNat = 4)) :=
  ⟨two_basic, by decide +kernel⟩

theorem witness_StreamsAndLines : Basic two ∧ plainSrc (.imm 0) = true ∧ plainDst (.v 22) = true ∧
    (∀ l ∈ two.cur.lanes, reach two (vmidOf two (ctxOf two 1)) (asidOf two (ctxOf two 1)) (eaOf 1 (pairOf two 4 l) (opnd two (.int 32) (op (.imm 0)) l) 0x7F#8) .read
      (curLane two l).mode = .page ordinary 0 0x2007F) ∧ ordinary.kind = .ordinary :=
  ⟨two_basic, by decide +kernel⟩

/-- Threads whose stream 3 walks 2 elements of 2 bytes from the array's begin; with pos 1, lane 1 is beyond the total. -/
def streaming (pos : W64) : State := machine [0, 1] (fun l ln =>
  { words l ln with q := setNth ln.q 3 { base := 0x20000#64, dims := [⟨2#32, 2#16⟩, ⟨0, 1#16⟩, ⟨0, 1#16⟩, ⟨0, 1#16⟩, ⟨0, 1#16⟩], esize := 1#2, pos := pos } })

/-- What the stream statements ask of the threads, where these are the addresses that the lanes walk to. -/
def walks (s : State) (vas : List (Option W64)) (acc : AccKind) : Bool :=
  basicB s && decide (s.errors = []) && decide (s.cur.lanes.map (fun l => streamAt (nth {} (curLane s l).q 3) l) = vas) &&
    s.cur.lanes.all (fun l => decide ((nth {} (curLane s l).q 3).dims.length = 5) && decide ((curLane s l).q.length = 8) && decide ((nth {} (curLane s l).q 3).esize ≠ 2#2) &&
      !crosses s [(vr 2, .flt .f32)] l &&
      (nth none vas l).toList.all (fun va => fineB s l va 2 acc ordinary && decide (loadAt s 1 l .plain .core none 0 va.toNat va 2 = .now [0, 0])))

theorem witness_StreamRead : walks (streaming 0) [some 0x20000#64, some 0x20002#64] .read = true ∧ walks (streaming 1) [some 0x20002#64, none] .read = true ∧
    plainDst (.v 22) = true := by decide +kernel

theorem witness_StreamWrite : walks (streaming 0) [some 0x20000#64, some 0x20002#64] .write = true ∧ walks (streaming 1) [some 0x20002#64, none] .write = true ∧
    plainSrc (vr 0).src = true := by decide +kernel

theorem witness_AtomicIssue : Basic two ∧ plainDst .none = true ∧ plainDst (.v 22) = true ∧ plainSrc (vr 0).src = true ∧ dstAsSrc (.v 22) = some (.v 22) ∧
    (∀ l ∈ two.cur.lanes, ∀ w ∈ [4, 8], fineB two l (eaOf w (pairOf two 4 l) 0 0x7F#8) w .readWrite ordinary = true) ∧ ordinary.kind = .ordinary ∧
    isReplay (launchAt two (launchOf two 1)) = false :=
  ⟨two_basic, by decide +kernel⟩

/-- No launch of the tests takes snapshots. -/
theorem rich_noSnap : NoSnap rich := by unfold NoSnap; decide +kernel

theorem witness_AtomicStep : NoSnap rich ∧ rich.errors = [] ∧ (∀ n ∈ [4, 8], ∀ pa ∈ [0x20000, 0x20FF8], dataBad rich .proof 0 pa n = false ∧ classMixed rich .proof 0 pa n = false) ∧
    (let e : FEntry := entryFor rich 1 (.atom .cas 8 (2 ^ 64 - 1) 0) ordinary 0 0x20000 0x20000#64 8 .acqrel .pkg { n := 22, cnt := 2 } false
     e.act = .atom .cas (64 / 8) (2 ^ 64 - 1) 0 ∧ 2 ^ 64 - 1 < 2 ^ 64 ∧ e.cls = .proof ∧ (tGet? rich.groups e.uid).isSome = true ∧
      e.lane < (grp rich e.uid).lanes.length ∧ e.dest.cnt = 64 / 32 ∧ targetReg e.dest + 64 / 32 ≤ 136) ∧
    (let e : FEntry := entryFor rich 1 (.atom .fadd2 4 0xFFFFFFFF 0) ordinary 0 0x20FFC 0x20FFC#64 4 .plain .core {} false
     e.act = .atom .fadd2 (32 / 8) 0xFFFFFFFF 0 ∧ 0xFFFFFFFF < 2 ^ 32) ∧
    -- an entry that commits, behind an older commit of its lane
    (let e : FEntry := entryFor rich 1 (.atom .add 4 1 0) ordinary 0 0x20000 0x20000#64 4 .plain .core {} true
     let before : Commit := { acc := 7, depth := 0, region := {} }
     let s (c : Commit) : State := modLane rich 1 1 (fun ln => { ln with commits := [before, c] })
     ∀ c ∈ [({ acc := e.acc, depth := 0, region := { regpc := 0x10010#64 } } : Commit), { acc := e.acc, depth := 0, region := {}, taken := true }],
      e.commits = true ∧ (lane (s c) e.uid e.lane).commits = [before] ++ c :: [] ∧ (∀ y ∈ [before] ++ [], y.acc ≠ e.acc) ∧ c.depth < (lane (s c) e.uid e.lane).recs.length ∧
        (tGet? (s c).groups e.uid).isSome = true ∧ e.lane < (grp (s c) e.uid).lanes.length) :=
  ⟨rich_noSnap, by decide +kernel, by decide +kernel, by decide +kernel, by decide +kernel, by decide +kernel⟩

/-- The descriptor of the cells. -/
def cellDesc : EdDesc := ⟨0xFF80000000021000, 8, 2, .proof, 0x1C000, 0x1B000⟩

/-- Editions 2 and 3 of cell 0 (depth 2) are there, 1 is gone, 4 does not exist; one lane names them all. -/
theorem witness_EditionIssue : Basic rich ∧ rich.errors = [] ∧ plainDst (.v 22) = true ∧ plainSrc (.imm 2) = true ∧ (∀ l ∈ rich.cur.lanes, (curLane rich l).eldAcc = none) ∧
    (dieAt rich (dieOf (coreOf rich 1))).waits.length + 32 ≤ 8192 ∧ rich.cur.lanes.length ≤ 32 ∧
    cells.kind = .editioned ∧ cells.region = some cellRegion ∧ edDesc rich (mkey 0 cellRegion.desc) = .ok cellDesc ∧
    [0x21000#64, 0x21007#64, 0x2103F#64].map (edIndex cellDesc) = [some 0, some 0, some 7] ∧
    (∀ l ∈ rich.cur.lanes, ∀ acc ∈ [AccKind.read, .write], ∀ n ∈ [1, 2, 4, 8], fineB rich l (eaOf n (pairOf rich 6 l) 0 0) n acc cells = true) ∧
    poisoned rich.poison (edCell cellDesc 0 0) 16 = false ∧ poisoned rich.poison (mkey 0 0x1C000) 16 = false ∧ rdNat rich (mkey 0 0x1B000) 4 = 3 ∧
    (∀ l ∈ rich.cur.lanes, opnd rich (.int 32) (op (.imm 2)) l = 2 ∧ opnd rich (.int 32) (op (.imm 4)) l = 4) ∧
    (let s := stored false one
     basicB s = true ∧ s.cur.lanes = [0] ∧ crosses s [(vr 6, .int 64), (op (.imm 1), .int 32)] 0 = false ∧ opnd s (.int 32) (op (.imm 1)) 0 = 1 ∧ 1 ≠ rdNat s (mkey 0 0x1B000) 4 ∧
      rdNat s (mkey 0 0x1B000) 4 ≥ 1 + cellDesc.depth ∧ fineB s 0 0x21000#64 8 .read cells = true) ∧
    -- an index and an offset that name cell 0 from its base, for `ld`
    (∀ l ∈ rich.cur.lanes, eaOf 4 (pairOf rich 6 l) (opnd rich (.int 32) (op (.imm 1)) l) 0 = 0x21004#64 ∧ (0x21004 : Nat) % 8 + 4 ≤ 8 ∧
      fineB rich l 0x21004#64 4 .read cells = true) :=
  ⟨basic_of _ (by decide +kernel), by and_intros <;> decide +kernel⟩

theorem witness_EditionStep : NoSnap rich ∧ rich.errors = [] ∧ edDesc rich (mkey 0 0x19000) = .ok cellDesc ∧
    [0x21004#64, 0x2100C#64].map (edIndex cellDesc) = [some 0, some 1] ∧ (∀ i ∈ [0, 1], poisoned rich.poison (mkey 0 (0x1B000 + 16 * i)) 16 = false ∧
      poisoned rich.poison (mkey 0 (0x1C000 + 8 * (i * 2 + rdNat rich (mkey 0 (0x1B000 + 16 * i)) 4 % 2))) 8 = false) ∧
    (let e : FEntry := entryFor rich 1 (.est [1, 2, 3, 4] (mkey 0 0x19000)) cells 0 0x21004 0x21004#64 4 .plain .core { n := 22, cnt := 1 } true
     e.va.toNat % 8 + 4 ≤ 8 ∧ rdNat rich (mkey 0 0x1B000) 4 < 2 ^ 32 - 1 ∧ overlaps (mkey 0 0x1C000) 8 (mkey 0 0x1B000) 16 = false ∧
      e.lane < (grp rich e.uid).lanes.length ∧ e.dest.cnt = 1 ∧ targetReg e.dest < 136) ∧
    rdNat rich (mkey 0 0x1B010) 4 = 2 ^ 32 - 1 ∧ Basic rich ∧ 1 ∈ rich.cur.lanes ∧ (lane rich 1 1).st ≠ .exited :=
  ⟨rich_noSnap, by decide +kernel, by decide +kernel, by decide +kernel, by decide +kernel, by decide +kernel, by decide +kernel, basic_of _ (by decide +kernel), by decide +kernel,
    by decide +kernel⟩

/-- The plate unit's descriptors, with and without MLP; the last staged word; the first and the last index, with an erratum and without. -/
theorem witness_PlateIssue : Basic rich ∧ plainDst (.v 22) = true ∧ plainSrc (.v 0) = true ∧ plainSrc (.lit 3327#32) = true ∧
    plates.kind = .plated ∧ plates.region = some plateRegion ∧
    (∀ l ∈ rich.cur.lanes, ∀ acc ∈ [AccKind.read, .write], reach rich (vmidOf rich (ctxOf rich 1)) (asidOf rich (ctxOf rich 1)) (eaOf 1 (pairOf rich 8 l) 0 0) acc
      (curLane rich l).mode = .page plates 0 0x22000) ∧
    (match plDesc rich (mkey 0 0x1A000), plDesc (stored true two) (mkey 0 0x1A000) with
     | .ok d, .ok e => !d.mlp && e.mlp && decide (d.length = 16) && decide (d.castcnt = 7)
     | _, _ => false) = true ∧
    (∀ l ∈ rich.cur.lanes, opnd rich (.int 32) (op (.lit 3327#32)) l < 3328) ∧ poisoned rich.poison (mkey 0 0x1D000) 13312 = false ∧
    -- list 0 holds one erratum: code 9 for index 15
    (let s := modPlate (wrBytes rich (mkey 0 0x23000) (leBytes 4 15 ++ leBytes 4 9)) (mkey 0 0x1A000) (fun p => { p with len0 := 1 })
     (plateAt s (mkey 0 0x1A000)).len0 = 1 ∧ rdNat s (mkey 0 0x23000) 3 = 15 ∧ rdNat s (mkey 0 0x23004) 4 = 9 ∧ poisoned s.poison (mkey 0 0x23000) 8 = false) :=
  ⟨basic_of _ (by decide +kernel), by decide +kernel⟩

theorem witness_FencesAndPromotes : Basic two ∧ (FenceKind.sc ≠ .rlx) ∧
    (∀ l ∈ two.cur.lanes, reach two (vmidOf two (ctxOf two 1)) (asidOf two (ctxOf two 1)) (eaOf 1 (pairOf two 4 l) 0 0) .read (curLane two l).mode = .page ordinary 0 0x20000) :=
  ⟨two_basic, by decide +kernel⟩

/-- v10 is odd, v12:v13 has a reserved bit, v14:v15 lies on no page. -/
theorem witness_AccessFaults : Basic two ∧ plainDst (.v 24) = true ∧ plainSrc (.v 0) = true ∧ plainSrc (.imm 0) = true ∧
    (∀ l ∈ two.cur.lanes, crosses two [(op (.imm 0), .int 32)] l = false) ∧
    (∀ l ∈ two.cur.lanes, ∀ n ∈ [2, 4, 8, 16], (eaOf n (pairOf two 10 l) (opnd two (.int 32) (op (.imm 0)) l) 0).toNat % n ≠ 0 ∧
      (eaOf n (pairOf two 12 l) 0 0).toNat % n = 0 ∧ ptrReserved (eaOf n (pairOf two 12 l) 0 0) = true ∧
      eaNear n (opnd two (.int 32) (op (.v 10)) l) 0 0 % n ≠ 0) ∧
    (∃ l ∈ two.cur.lanes, reach two 0 0 (eaOf 16 (pairOf two 14 l) 0 0) .read (curLane two l).mode = .fault false 1 0) ∧ (grp two 1).place = .resident 0 :=
  ⟨two_basic, by decide +kernel⟩

/-! ### Hypotheses of the statements about engines, services and the events of cores -/

/-- n bytes r lie at a pointer, on an ordinary page without errors, for the leader; the loads of the lanes give them, or some lane's is sent. -/
def devB (s : State) (va : W64) (n : Nat) (r : List Byte) (sent : Bool := false) : Bool :=
  match reach s (vmidOf s (ctxOf s 1)) (asidOf s (ctxOf s 1)) va .read (curLane s (leader s)).mode with
  | .page p o pa =>
    let load (l : Nat) : LoadAt := loadAt s 1 l .plain .core none o pa va n
    decide (p.kind = .ordinary) && !poisoned s.poison (mkey o pa) n && !classMixed s p.rclass o pa n &&
      if sent then s.cur.lanes.any (fun l => load l == .send) && decide (rdBytes s (mkey o pa) n = r)
      else s.cur.lanes.all (fun l => load l != .send) && decide (load (leader s) = .now r)
  | _ => false

/-- A record of 64 bytes with some bytes set. -/
def record (bs : List (Nat × Byte)) : List Byte := (List.range 64).map (fun k => (tGet? bs k).getD 0)

/-- `two` with a record at 0x20000. -/
def holding (r : List Byte) : State := wrBytes two (mkey 0 0x20000) r

/-- Records in device memory and in scratch, with a follow-on and without; banks at the end of the tiles; rows at the end of the allotment; a pattern at the last place of a page
that holds it; buckets below, at and beyond their totals, registered and not, with room and without. -/
theorem witness_EngineCommandsAndBuckets : Basic two ∧ two.errors = [] ∧ plainSrc (.v 4) = true ∧ plainSrc (.imm 0) = true ∧ (coreAt two 0).queues.length = 6 ∧
    devB two 0x20000#64 64 (record []) = true ∧ devB two 0x0010000000020000#64 64 (record []) true = true ∧
    (let r := record [(2, 4), (60, 64)]
     basicB (holding r) = true ∧ (holding r).errors = [] ∧ devB (holding r) 0x20000#64 64 r = true ∧ fld r 2 1 / 4 % 2 = 1 ∧ fld r 60 4 = 64 ∧ arrBytes (gangOf (holding r) 1).scratch 64 64 = record []) ∧
    (let g := gangOf two 1
     65472 % 64 = 0 ∧ 65472 / 4096 < g.tiles ∧ poisoned g.scratchPois 65472 64 = false ∧ arrBytes g.scratch 65472 64 = record [] ∧
      (∀ k, k < 64 → flyingByte two (grp two 1).gang (65472 + k) = none ∧ flyingByte two (grp two 1).gang (64 + k) = none) ∧
      1 < g.banks.length ∧ 0 / 4096 + 16 ≤ g.tiles ∧ (barGet two (barKey two 1 ⟨.core, 0⟩)).isSome = true ∧
      opnd two (.int 32) (op (.lit 512#32)) (leader two) ≤ 512 ∧ opnd two (.int 32) (op (.imm 0)) (leader two) + 16 ≤ g.accrows) ∧
    (basicB (modGang two 2 (fun g => { g with tiles := 17 })) = true ∧ opnd two (.int 32) (op (.lit 0x400#32)) (leader two) / 2 ^ 10 % 8 ≠ 0 ∧
      0 / 4096 + 17 ≤ (gangOf (modGang two 2 (fun g => { g with tiles := 17 })) 1).tiles) ∧
    (7 : Nat) ∈ (launchAt two 3).patterns ∧ 0x20FE0 % 4096 ≤ 4064 ∧ devB two 0x20FE0#64 32 (List.replicate 32 0) = true ∧ (5 : Nat) ∈ (launchAt two (launchOf two 1)).buckets ∧
    (let s (armed : Bool) (total : Nat) (n : Nat) : State := modDie two 0 (fun d =>
       { d with buckets := [(5, { total := BitVec.ofNat 48 total, armed := armed, reg := if n = 0 then none else some (record [], ⟨1, 2, 0, 3, 0, 0, .u, 0, 0⟩, 0#64) })],
                collQ := List.replicate (n - 1) 0 })
     let kicked (s : State) : State := modDie s 0 (fun d => { d with kicks := [⟨5, record [], ⟨1, 2, 0, 3, 0, 0, .u, 0, 0⟩, 0#64⟩] })
     let c (s : State) : Nat := min (2 ^ 48 - 1) ((smGet {} (dieAt s 0).buckets 5).count.toNat + opnd s (.int 32) (op (.imm 1)) (leader s))
     basicB (s true 1 65) = true ∧ basicB (kicked (s true 1 1)) = true ∧ (dieAt (kicked (s true 1 1)) 0).kicks ≠ [] ∧ (dieAt (s true 1 64) 0).kicks = [] ∧ 1 ≤ opnd two (.int 64) (op (.imm 1)) (leader two) ∧ c (s true 2 0) < 2 ∧ 1 ≤ c (s true 1 0) ∧
      (dieAt (s true 1 64) 0).collQ.length < 64 ∧ 64 ≤ (dieAt (s true 1 65) 0).collQ.length) :=
  ⟨two_basic, by and_intros <;> decide +kernel⟩

/-- A record of each use at 0x20000, counts of 1 and 64, tapes with a mark and without, galleys that are open, absent, and too many. -/
theorem witness_TapesTasksSlugs : Basic two ∧ two.errors = [] ∧ isReplay (launchAt two (launchOf two 1)) = false ∧ plainSrc (.v 4) = true ∧ plainSrc (.imm 1) = true ∧
    (∀ k ∈ [(1 : Byte), 2], basicB (holding (record [(22, k)])) = true ∧ (holding (record [(22, k)])).errors = [] ∧ devB (holding (record [(22, k)])) 0x20000#64 64 (record [(22, k)]) = true) ∧
    (ctxAt two (ctxOf two 1)).tape.length < (ctxAt two (ctxOf two 1)).tapecap.toNat ∧ (ctxAt two (ctxOf two 1)).rings.length = 8 ∧
    (let s := modCtx two 0 (fun c => { c with tape := [.entry (record []), .entry (record [(0, 1)]), .mark, .entry (record [])] })
     basicB s = true ∧ (ctxAt s (ctxOf s 1)).tape = [record [], record [(0, 1)]].map TapeEnt.entry ++ TapeEnt.mark :: [.entry (record [])]) ∧
    (∀ j, j < 64 → devB two (BitVec.ofNat 64 (0x20000 + 64 * j)) 64 (record []) = true) ∧ fld (record []) 22 1 = 0 ∧ fld (record []) 32 8 = 0 ∧
    opnd two (.int 32) (op (.lit 64#32)) (leader two) = 64 ∧
    (let r := record [(33, 1), (34, 2)]
     basicB (holding r) = true ∧ devB (holding r) 0x20000#64 64 r = true ∧ fld r 32 8 = 0x20100 ∧ fineB (holding r) 0 0x20100#64 4 .read ordinary = true) ∧
    (let s := modGrp two 1 (fun g => { g with start := .task 0x20200#64 })
     basicB s = true ∧ (grp s 1).start = .task 0x20200#64 ∧ fineB s 0 0x20200#64 4 .readWrite ordinary = true ∧ s.launches.all (fun p => !p.2.snapArmed) = true) ∧
    (grp (modGrp two 1 (fun g => { g with start := .task 0 })) 1).start = .task 0 ∧
    (∀ l ∈ two.cur.lanes, BitVec.ofNat 64 (opnd two (.int 64) (op (.v 16)) l) = 0x10000#64) ∧
    (let g (locked : Bool) : Galley := { entry := 0x10000#64, launch := 3, gang := 2, slugs := List.replicate 30 ⟨0x10000#64, 0⟩, expires := 9, locked := locked }
     let s (gs : List (Nat × Galley)) : State := modCore two 0 (fun c => { c with galleys := gs })
     (coreAt (s [(9, g false)]) 0).galleys.find? (fun x => x.2.entry == 0x10000#64 && !x.2.locked && (launchAt two x.2.launch).ctx == ctxOf two 1) = some (9, g false) ∧
      tGet? (coreAt (s [(9, g false)]) 0).galleys 9 = some (g false) ∧ (g false).slugs.length + two.cur.lanes.length ≤ 32 ∧
      (let t := s [(9, g true)]
       basicB t = true ∧ (∀ x ∈ (coreAt t 0).galleys, x.2.entry = 0x10000#64 → x.2.locked = true ∨ (launchAt t x.2.launch).ctx ≠ 0) ∧ (∀ x ∈ (coreAt t 0).galleys, x.1 < t.fresh) ∧
        (coreAt t 0).galleys.length < 32) ∧
      (let t := s ((List.range 32).map (fun k => (k, g true)))
       basicB t = true ∧ 32 ≤ (coreAt t 0).galleys.length)) :=
  ⟨two_basic, by and_intros <;> decide +kernel⟩

/-- Pages where a word may be fetched, is not code, is absent; a line that holds the word and none; two lanes at two words, both cached, in a cycle with a grant and in one
without; pending results with an access and without; a thread that sleeps to tick 5. -/
theorem witness_CoreSteps :
    two.errors = [] ∧ (∀ n ∈ [1, 2, 3, 4, 5, 6, 7, 8, 64], classMixed two .proof 0 0x10008 n = false) ∧ classMixed two .proof 0 0x10000 64 = false ∧
    wanting two 0 0x10008#64 = some (1, 0) ∧ kindAt (codeReach (reach two 0 0 0x10008#64 .fetch .u)) = some .code ∧ lineBytes (coreAt two 0) 0x10008#64 1 = none ∧
    (let s := modCore two 0 (fun c => { c with lines := [(0x10000#64, rdBytes two (mkey 0 0x10000) 64)], wanted := [0x10000#64] })
     s.errors = [] ∧ lineBytes (coreAt s 0) 0x10008#64 1 = some [0xBA] ∧ (lineBytes (coreAt s 0) 0x10008#64 (lenOf 0xBA)).isSome = true ∧ 0x10000#64 ∈ (coreAt s 0).wanted ∧
      poisoned s.poison (mkey 0 0x10000) 64 = false) ∧
    (let far (a : W64) : State := machine [0] (fun l ln => { words l ln with at_ := .word 0x10000#64 3 a 2 })
     wanting (far 0x20000#64) 0 0x20000#64 = some (1, 0) ∧ codeReach (reach (far 0x20000#64) 0 0 0x20000#64 .fetch .u) = .access ∧
      wanting (far 0x30000#64) 0 0x30000#64 = some (1, 0) ∧ codeReach (reach (far 0x30000#64) 0 0 0x30000#64 .fetch .u) = .fault false 1 0) ∧
    (let s := modCore (machine [0] (fun l ln => { words l ln with at_ := .word 0x10000#64 3 (if l = 1 then 0x10010#64 else 0x10008#64) 2 })) 0
       (fun c => { c with icache := [{ va := 0x10008#64, bytes := [], st := .valid }, { va := 0x10010#64, bytes := [], st := .valid }] })
     s.errors = [] ∧ (coreAt s 0).refill.length = 4 ∧ (coreAt s 0).refilled.length = 4 ∧ nth false (coreAt s 0).refilled 0 = false ∧ refillsDue s 0 0 ≠ [] ∧
      nth false (coreAt (next (.loopBufferRefill 0 0) s) 0).refilled 0 = true) ∧
    (let s := next (.frcp .dyn (.v 9) (vr 2)) two
     let p := (tGet? (grp s 1).pend 100).getD { writes := [] }
     (tGet? (grp s 1).pend 100).isSome = true ∧ p.writes.length = 6 ∧ p.writes.Pairwise (fun a b => a.lane ≠ b.lane ∨ a.reg ≠ b.reg) ∧
      ∀ w ∈ p.writes, w.reg < 138 ∧ w.lane < (grp s 1).lanes.length) ∧
    (let s := next (.ld .w ⟨.plain, .core⟩ (.v 9) 4 0 (op (.imm 0))) two
     ((grp s 1).pend.map (fun p => (p.2.acc, p.2.writes.map (fun w => (w.lane, w.reg))))) = [(some 100, [(0, 9)]), (some 100, [(1, 9)])] ∧
      tGet? (grp s 1).accs 100 = some ⟨.ld, 2⟩) ∧
    (let s := next (.sleep (.ticks 5)) two
     (lane s 1 0).st = .wait (.sleep 5) ∧ s.gtick.toNat < 5 ∧ 5 ≤ ({ s with gtick := 5 } : State).gtick.toNat) := by and_intros <;> decide +kernel

/-- A long word at 0x10FFC, the last four bytes of its page and four of the next: that page is absent, denied, poisoned, there, and the word is poisoned in its first part. -/
theorem witness_CoreSteps_pages :
    (let base := wrBytes (machine [0] (fun l ln => { words l ln with at_ := .word 0x10000#64 3 0x10FFC#64 2 })) (mkey 0 0x10FFC) [0xBA]
     let s (ts : List TlbEnt) : State := { base with tlbs := [(0, pages ++ ts)] }
     let code (s : State) (a : W64) : Reach := codeReach (reach s 0 0 a .fetch .u)
     let there := s [aPage 0x11000 .code (some codeRegion)]
     base.errors = [] ∧ wanting base 0 0x10FFC#64 = some (1, 0) ∧ kindAt (code base 0x10FFC#64) = some .code ∧ lineBytes (coreAt base 0) 0x10FFC#64 1 = none ∧
      lenOf (rdByte base (mkey 0 0x10FFC)) = 8 ∧ 4096 - 0x10FFC % 4096 = 4 ∧ classMixed base .proof 0 0x10FFC 4 = false ∧
      code base 0x11000#64 = .fault false 1 0 ∧ code (s [aPage 0x11000 .ordinary none]) 0x11000#64 = .access ∧ kindAt (code there 0x11000#64) = some .code ∧
      classMixed there .proof 0 0x11000 4 = false ∧ poisoned there.poison (mkey 0 0x10FFC) 4 = false ∧ poisoned there.poison (mkey 0 0x11000) 4 = false ∧
      poisoned ({ there with poison := [(mkey 0 0x11000, 32)] } : State).poison (mkey 0 0x11000) 4 = true ∧
      poisoned ({ there with poison := [(mkey 0 0x10FE0, 32)] } : State).poison (mkey 0 0x10FFC) 4 = true) := by and_intros <;> decide +kernel

/-- Stores of lane 0 of every kind, on their way: in the FIFO, in the view, to die 0 and to die 1; a load that is sent; a copy of a cell and of a line, of a plain page and of
none; an arrival at a pod barrier; a promote. -/
theorem witness_OrderMoves :
    (one.errors = [] ∧ dataBad one .proof 1 0x20000 4 = false ∧ classMixed one .proof 1 0x20000 4 = false ∧ (∀ n ∈ [1, 64], mkey 1 0x20000 % n = 0) ∧
      mkey 1 0x20000 / 2 ^ 52 < 4 ∧ mkey 1 0x20000 / 2 ^ 52 ≠ 0 ∧
      (∀ j, j < 64 → undelivered one 0 (mkey 1 0x20000 + j) = false ∧ plainByte one (mkey 1 0x20000 + j) = true) ∧ plainByte one (mkey 1 0x19000) = false ∧
      (let s := barPut one ⟨.pod, 3, 0, 4⟩ { expect := 32, arrived := 31 }
       (barGet s ⟨.pod, 3, 0, 4⟩).map (fun b => b.expect) = some 32 ∧ s.netStopped = false)) ∧
    (let st (i : Instr) : State := next i one
     let plain := st (.st .w ⟨.plain, .core⟩ (.v 0) 4 0 (op (.imm 0)))
     let far := st (.st .w ⟨.plain, .core⟩ (.v 0) 22 0 (op (.imm 0)))
     let acts (s : State) : List (Act × Nat × Nat) := (lane s 1 0).fifo.map (fun e => (e.act, e.uid, e.lane))
     acts plain = [(.bytes [1, 0, 0, 0], 1, 0)] ∧ mayLeave plain 1 0 = true ∧
      acts (st (.stp .w (.v 0) 3 0 (op (.imm 0)))) = [(.priv [1, 0, 0, 0], 1, 0)] ∧ mayLeave (st (.stp .w (.v 0) 3 0 (op (.imm 0)))) 1 0 = true ∧
      acts (st (.sts .w .plain (.v 0) 3 0 (op (.imm 0)))) = [(.scratch [1, 0, 0, 0], 1, 0)] ∧ mayLeave (st (.sts .w .plain (.v 0) 3 0 (op (.imm 0)))) 1 0 = true ∧
      acts (st (.ttag (.v 0) (op (.imm 0)))) = [(.tag 1, 1, 0)] ∧ mayLeave (st (.ttag (.v 0) (op (.imm 0)))) 1 0 = true ∧ (tGet? one.gangs (grp one 1).gang).isSome = true ∧
      (let v := next (.leave 1 0) plain
       (inView v 1 0).map (fun e => (e.act, e.owner, e.peer)) = [(.bytes [1, 0, 0, 0], 0, none)] ∧ (inView v 1 0).all (fun e => e.tail.isNone) = true ∧ mayDrain v 1 0 = true ∧ v.netStopped = false) ∧
      (let v := next (.leave 1 0) far
       (inView v 1 0).map (fun e => (e.act, e.owner, e.peer)) = [(.bytes [1, 0, 0, 0], 1, none)] ∧ (inView v 1 0).all (fun e => e.tail.isNone) = true ∧ mayDrain v 1 0 = true ∧ isReplay (launchAt v 3) = false ∧
        (let t := next (.drainMove 1 0) v
         t.links.all (fun p => mayDeliver t p.1) = true ∧ t.links.length = 1)) ∧
      (let t := st (.ld .w ⟨.acqrel, .pkg⟩ (.v 9) 22 0 (op (.imm 0)))
       t.links.all (fun p => mayDeliver t p.1 && (match p.2 with
         | .read r _ => decide (r.kind = .bytes false) && decide (r.peer = none) && decide (r.waits = false ∧ r.tail = none) && decide (r.lane < (grp t r.uid).lanes.length) && decide (targetReg r.dest + r.dest.cnt ≤ 138)
         | _ => false)) = true ∧ t.links.length = 1) ∧
      undelivered (next (.drainMove 1 0) (next (.leave 1 0) far)) 0 (mkey 1 0x20000) = true ∧
      undelivered one 0 (mkey 1 0x20000) = false ∧ ((st (.acqr .die 4 0)).promotes.map (fun p => p.2.cores)) = [[0]] ∧ (st (.acqr .die 4 0)).netStopped = false) :=
  ⟨by decide +kernel, by decide +kernel⟩

/-! ### Hypotheses of the statements about the events of engines and services -/

/-- A command of group 1, gang 2, launch 3, core 0, in a state. -/
def cmd (k : CmdKind) (st : CmdState) : Cmd := { kind := k, by_ := ⟨1, 2, 0, 3, 0, 0, .u, 0, 0⟩, srcAt := 0x40#64, cp := true, tl := true, state := st }

/-- `two` with command 9 at the head of queue q. -/
def heads (q : Nat) (c : Cmd) : State := modCore { two with cmds := [(9, c)] } 0 (fun k => { k with queues := setNth k.queues q [9] })

/-- What an event of the head command asks for. -/
def headB (q : Nat) (c : Cmd) : Bool := !cmdHeld (heads q c) c && decide (headCmd (heads q c) 0 q = some (9, c)) && decide (9 < (heads q c).fresh) && decide ((heads q c).errors = [])

/-- The key of the plates' descriptor. -/
def plateKey : Nat := mkey 0 0x1A000

/-- `rich` with n knots and the plate unit's state of the region, under a refit of die 0. -/
def refitting (mlp : Bool) (n : Byte) (p : Plate) : State :=
  let s := stored mlp two
  { (wrBytes s (mkey 0 0x1A00E) [n]) with caster := [(0, plateKey)], plates := [(plateKey, p)] }

/-- Index 5 is listed with 1.0 in list 0, and list 1, that the refit fills, has n entries, the first for index 3. -/
def errata (n : Nat) (r : Refit) : State :=
  wrBytes (wrBytes (refitting false 2 { len0 := 1, len1 := n, refit := r, new := List.replicate 516 0 }) (mkey 0 0x23000) (leBytes 4 5 ++ leBytes 4 0x3F800000))
    (mkey 0 0x2B0000) (leBytes 4 3)

/-- Parked threads, registrations and polls that are due; regions pending with and without MLP, their images in range and out of it; a refit at each of its steps, with values
that are close and that are not; a store held up to its limit and beyond. -/
theorem witness_WakesAndRefits :
    (let w : WaitEnt := ⟨mkey 0 0x1B000, 3, 1, [0], true⟩
     let s := modLane (modDie rich 0 (fun d => { d with waits := [w] })) 1 0 (fun ln => { ln with st := .wait (.eld w.cell w.ed 100) })
     (dueWaits s)[0]? = some (0, w) ∧ (lane s 1 0).st = .wait (.eld (mkey 0 0x1B000) 3 100)) ∧
    (let away := modGrp rich 1 (fun g => { g with place := .saved .waitOverflow false })
     let r (l : Bool) : EdReg := { cell := mkey 0 0x1B000, ed := 3, who := if l then 3 else 1, launch := l, due := true }
     (dueWaits { away with edRegs := [(9, r false)] }).length ≤ 0 ∧ (dueRegs { away with edRegs := [(9, r false)] })[0]? = some (9, r false) ∧
      (dueRegs { rich with edRegs := [(9, r true)] })[0]? = some (9, r true) ∧ (grp away 1).place = .saved .waitOverflow false ∧
      ({ away with polls := [(9, r false)] } : State).polls[0]? = some (9, r false) ∧ 3 ≤ edNewest away (mkey 0 0x1B000) ∧ edNewest away (mkey 0 0x1B000) < 4) ∧
    (let s := modDie rich 0 (fun d => { d with pending := [plateKey] })
     let m := modDie (stored true two) 0 (fun d => { d with pending := [plateKey] })
     let good := wrBytes m (mkey 0 0x1E000) [1, 1, 64]
     (dieAt s 0).pending = [plateKey] ∧ tGet? s.caster 0 = none ∧ plateKey / 2 ^ 52 = 0 ∧
      (match plDesc s plateKey, plDesc m plateKey with
       | .ok d, .ok e => !d.mlp && e.mlp && decide (e.staged = 0x1E000)
       | _, _ => false) = true ∧
      plImageOk (rdBytes good (0x1E000 % 2 ^ 52) 13312) = true ∧ plImageOk (rdBytes m (0x1E000 % 2 ^ 52) 13312) = false) ∧
    (let s (r : Refit) : State := errata 1 r
     (∀ r ∈ [Refit.fit [], .fit [0], .verify 0, .verify 5, .done], tGet? (s r).caster 0 = some plateKey ∧ (plateAt (s r) plateKey).refit = r) ∧
      (match plDesc (s .done) plateKey with
       | .ok d =>
         let old := plCount (plateAt (s .done) plateKey) (!d.side)
         let list := plateKey / 2 ^ 52 * 2 ^ 52 + (if d.side then d.err0 else d.err1) % 2 ^ 52
         let near (i : Nat) : Bool := plNear d (evalPlate d (plateAt (s .done) plateKey).new i) (plTrue (s .done) plateKey d i)
         decide (d.knots = 2) && near 0 && !near 5 && decide (old = 1) && decide (rdNat (s .done) list 3 = 3) &&
           decide (d.params % 2 ^ 52 + 516 ≤ 2 ^ 52) && !overlaps (d.params % 2 ^ 52) 516 plateKey 32
       | _ => false) = true ∧ plateKey % 2 ^ 52 + 32 ≤ 2 ^ 52) ∧
    (let e : FEntry := entryFor rich 0 (.plate 0 5 plateKey) plates 0 0x22000 0x22000#64 4 .plain .core {} true
     let s (t : W64) : State := { rich with plates := [(plateKey, { held := [⟨e, 7⟩] })], gtick := t }
     (∀ t ∈ [106, 107], (s (BitVec.ofNat 64 t)).plates.findSome? (fun p => (p.2.held.find? (fun h => h.e.id == 0)).map (fun h => (p.1, h))) = some (plateKey, ⟨e, 7⟩)) ∧
      (match plDesc rich plateKey with
       | .ok d => decide ((s 106).gtick.toNat < 7 + d.timeout) && decide (7 + d.timeout ≤ (s 107).gtick.toNat)
       | _ => false) = true ∧ isAcqEntry e = false ∧ e.lane < (grp rich e.uid).lanes.length ∧ basicB rich = true ∧ (lane rich 1 0).st ≠ .exited) := by
  and_intros <;> decide +kernel

/-- The same for a list that is full: index 5 is listed nowhere in it. -/
theorem witness_WakesAndRefits_full :
    65536 ≤ plCount (plateAt (errata 65536 (.verify 5)) plateKey) true ∧ (∀ b ∈ (errata 65536 (.verify 5)).mem, b.1 ≤ mkey 0 0x2B0000) ∧
      (match plDesc (errata 65536 (.verify 5)) plateKey with
       | .ok d => !d.side && decide (d.err1 % 2 ^ 52 = 0x2B0000) && !plNear d (evalPlate d (plateAt (errata 65536 (.verify 5)) plateKey).new 5) (plTrue (errata 65536 (.verify 5)) plateKey d 5)
       | _ => false) = true := by
  and_intros <;> decide +kernel

/-- MAC of one row and 16 elements of e4m3 in tile 0 by bank 0; flags and tag as given. -/
def pressRecord (flags taga : Nat) : List Byte :=
  [0, 0, 8, 1, 1, BitVec.ofNat 8 flags, 0, 0] ++ leBytes 4 0 ++ leBytes 2 1 ++ leBytes 2 0 ++ leBytes 4 0 ++ leBytes 4 0 ++ leBytes 2 1 ++ leBytes 2 16 ++ leBytes 2 1 ++
    leBytes 2 0 ++ leBytes 4 0 ++ leBytes 4 0 ++ leBytes 8 0x20000 ++ leBytes 4 taga ++ List.replicate 12 0

/-- `heads` with the ring's tag and a bank that is READY. -/
def pressed (taga : Nat) (c : Cmd) : State :=
  modGang (heads 4 c) 2 (fun g => { g with tags := (List.range 16).map (fun t => (t, BitVec.ofNat 32 taga)), banks := [{ state := .ready, kb := 16, fmt := some .e4m3 }, {}] })

/-- Each wait, check and end of a compute command; a clear; a bank load that waits for a command of its bank, that faults and that runs. -/
theorem witness_PressEvents :
    (let c (r : List Byte) : Cmd := { cmd (.compute r 0 0) .queued with ready := true }
     let bad (s : State) (c : Cmd) (r : List Byte) : Bool × Bool × Bool := (wbarBad s c r, pressRanges s c r, pressLayout s c r)
     headB 4 (cmd (.compute (pressRecord 0 0x1000D) 0 0) .queued) = true ∧ headB 4 (c (record [])) = true ∧
      (bad (heads 4 (c (record []))) (c (record [])) (record [])).2.1 = false ∧
      -- WAITB with a barrier that no gang has
      wbarBad (heads 4 (c (record [(5, 4), (32, 40)]))) (c (record [(5, 4), (32, 40)])) (record [(5, 4), (32, 40)]) = true ∧
      bad (heads 4 (c (pressRecord 0 0x1000D))) (c (pressRecord 0 0x1000D)) (pressRecord 0 0x1000D) = (false, true, false) ∧
      bad (pressed 0x1000D (c (pressRecord 0 0x1000D))) (c (pressRecord 0 0x1000D)) (pressRecord 0 0x1000D) = (false, true, true) ∧
      fmtOf (tagFmt 0x1000D) (tagP8d 0x1000D) = some .e4m3 ∧ fmtOf (tagFmt 0x1800D) (tagP8d 0x1800D) = some .e4m3 ∧
      pressHeads (engGang (pressed 0x1000D (c (pressRecord 0 0x1000D))) (c (pressRecord 0 0x1000D))) (pressRecord 0 0x1000D) .e4m3 = true ∧
      pressBad (engGang (pressed 0x1000D (c (pressRecord 0 0x1000D))) (c (pressRecord 0 0x1000D))) (pressRecord 0 0x1000D) .e4m3 = false ∧
      bad (pressed 0x1800D (c (pressRecord 0 0x1800D))) (c (pressRecord 0 0x1800D)) (pressRecord 0 0x1800D) = (false, true, true) ∧
      (let s := modGang (pressed 0x1800D (c (pressRecord 0 0x1800D))) 2 (fun g => { g with scratch := (List.range 8192).map (fun k => (k, 0xFF#8)) })
       pressHeads (engGang s (c (pressRecord 0 0x1800D))) (pressRecord 0 0x1800D) .e4m3 = false)) ∧
    (let c : Cmd := { cmd (.compute (pressRecord 2 0x1000D) 0 0) .running with stage := [(0, 5#32), (1, 6#32)] }
     headB 4 c = true ∧ headB 4 { c with stage := [] } = true ∧ pcStamp (pressRecord 2 0x1000D) = true ∧ pcStamp (pressRecord 0 0x1000D) = false ∧ (coreAt (heads 4 c) 0).colophons.length < 16 ∧
      pcArrival (pressRecord 2 0x1000D) = none ∧ c.stage.Pairwise (fun a b => a.1 ≠ b.1) ∧ (tGet? (heads 4 c).gangs c.by_.gang).isSome = true) ∧
    headB 4 (cmd (.clear 15 1 ⟨.core, 0⟩ true) .queued) = true ∧ cmdBar two (cmd (.clear 15 1 ⟨.core, 0⟩ true) .queued).by_ (barId ⟨.core, 0⟩) = some (barKey two 1 ⟨.core, 0⟩) ∧
    (barGet two (barKey two 1 ⟨.core, 0⟩)).map (fun x => x.expect) = some 32 ∧
    (let b (st : CmdState) : Cmd := cmd (.bank 1 0 0x1200D#32 ⟨.core, 0⟩ false) st
     let tagged := modGang two 2 (fun g => { g with tags := (List.range 16).map (fun t => (t, 0x1200D#32)) })
     headB 5 (b .queued) = true ∧ headB 5 (b .running) = true ∧ 1 < (gangAt two 2).banks.length ∧ bankBusy (heads 5 (b .queued)) 9 (b .queued) = false ∧
      bankLayout (gangAt two 2) 0 0x1200D = false ∧ bankLayout (gangAt tagged 2) 0 0x1200D = true ∧ bankBad (gangAt tagged 2) 0 0x1200D .e4m3 = false ∧
      -- a compute command of bank 1 that was issued before
      (let s := modCore { (heads 5 (b .queued)) with cmds := [(9, b .queued), (8, cmd (.compute (record [(1, 1)]) 0 0) .queued)] } 0 (fun k => { k with queues := setNth k.queues 4 [8] })
       bankBusy s 9 (b .queued) = true)) := by decide +kernel

/-- A Feeder descriptor of n units of 2^unit bytes, dense. -/
def copyRecord (src dst unit flags sa da n tag : Nat) : List Byte :=
  [BitVec.ofNat 8 (src + 16 * dst), BitVec.ofNat 8 unit, BitVec.ofNat 8 flags, 0, 0, 0, 0, 5] ++ leBytes 8 sa ++ leBytes 8 da ++ leBytes 2 n ++ [1, 0, 1, 0, 1, 0, 1, 0, 0, 0] ++
    leBytes 4 (2 ^ unit) ++ List.replicate 16 0 ++ leBytes 4 tag ++ leBytes 4 64

/-- The checks of a copy at its start: fields, alignment of unit 0, spaces, and its tag's fault where a tile is written. -/
def copyChecks (d : List Byte) : Bool × Bool × Bool × Option Cause :=
  let c := cmd (.copy d []) .queued
  let s := heads 0 c
  (copyFields s c d, decide (walkSrc d [] 0 % 2 ^ fdUnit d = 0), copySpaces s c d [], if fdDst d = 1 ∧ fdUnits d ≠ 0 then tagFault s c d (fdTag d % 2 ^ 16) else none)

/-- Copies that each check turns away and that pass all of them; a tile that is complete; a follow-on with room and without; a bucket; fences; units for each destination; segments
present and not posted. -/
theorem witness_FeederEvents :
    headB 0 (cmd (.copy (copyRecord 4 0 3 0 0x20000 0x20100 1 0) []) .queued) = true ∧ (copyChecks (copyRecord 4 0 3 0 0x20000 0x20100 1 0)).1 = false ∧
    copyChecks (copyRecord 0 0 3 0 0x20001 0x20100 1 0) = (true, false, true, none) ∧ copyChecks (copyRecord 0 1 3 0 0x20000 0xFFFC 1 0x1000D) = (true, true, false, none) ∧
    copyChecks (copyRecord 0 1 3 0 0x20000 0xFFF8 1 0xA00D) = (true, true, true, some .access) ∧ copyChecks (copyRecord 0 1 3 0 0x20000 0xFFF8 1 0x1000D) = (true, true, true, none) ∧
    copyChecks (copyRecord 0 0 3 0 0x20000 0x20100 2 0) = (true, true, true, none) ∧
    (let d := copyRecord 0 1 3 0 0x20000 0 1 0xD
     let c : Cmd := { cmd (.copy d []) .running with tagw := 0xD, buf := (List.range 8).map (fun k => (k, some 7#8)) }
     headB 0 c = true ∧ tileDue c d 0 = true ∧ (tGet? (heads 0 c).gangs c.by_.gang).isSome = true) ∧
    (let c : Cmd := cmd (.copy (copyRecord 0 0 3 4 0x20000 0x20100 1 0) (record [])) .landed
     let full := modCore (heads 0 c) 0 (fun k => { k with queues := setNth k.queues 4 (List.replicate 64 8) })
     headB 0 c = true ∧ fdFollow (copyRecord 0 0 3 4 0x20000 0x20100 1 0) = true ∧ (nth [] (coreAt (heads 0 c) 0).queues 4).length < 64 ∧
      4 < (coreAt (heads 0 c) 0).queues.length ∧ 64 ≤ (nth [] (coreAt full 0).queues 4).length ∧ headCmd full 0 0 = some (9, c)) ∧
    (let d := copyRecord 0 0 3 16 0x20000 0x20100 1 0
     headB 0 (cmd (.copy d []) .landed) = true ∧ fdFollow d = false ∧ fdBkt d = true ∧ fdBucket d = 5 ∧ 5 ∈ (launchAt two 3).buckets ∧ fdArrival d = none) ∧
    (headB 3 (cmd (.fence [8]) .queued) = true ∧ tGet? (heads 3 (cmd (.fence [8]) .queued)).cmds 8 = none ∧ headB 3 (cmd (.fence [9]) .queued) = true ∧
      (tGet? (heads 3 (cmd (.fence [9]) .queued)).cmds 9).isSome = true) ∧
    -- a fence whose commands are done stands behind one that waits
    (let s : State := modCore { two with cmds := [(7, cmd (.fence [8]) .queued), (8, cmd (.fence []) .queued), (9, cmd (.fence [6]) .queued)] } 0 (fun k => { k with queues := setNth k.queues 3 [7, 9, 8] })
     nth [] (coreAt s 0).queues 3 = [7] ++ 9 :: [8] ∧ [7, 9, 8].Nodup ∧ (cmdAt s 7).kind = .fence [8] ∧ (tGet? s.cmds 8).isSome = true ∧ (cmdAt s 9).kind = .fence [6] ∧
      tGet? s.cmds 6 = none ∧ (coreAt s 0).fenced = false) ∧
    (∀ dst ∈ [0, 1, 2],
      let d := copyRecord 0 dst 3 0 0x20000 (if dst = 0 then 0x20100 else 0) 1 0x1000D
      let c := cmd (.copy d []) .running
      let s := heads 0 c
      (match unitRead s c d (walkSrc d c.pat 0) with
       | .ok bs => decide (bs.length = 8)
       | _ => false) = true ∧ fdTagsrc d = false ∧ classCode (sideClass s c 0 (walkSrc d c.pat 0) .read) ≤ classCode (sideClass s c dst (walkDst d 0) .write) ∧
      engReach s c.by_ 0x20100#64 .write = .page ordinary 0 0x20100 ∧ engBuffers s c.by_ = false ∧
      (let met := unitMet s c d (walkSrc d c.pat 0)
       ∀ p ∈ [met, walkPin met 9 false 0x20000#64], engReach (outFill p c.by_ 0x20100#64) c.by_ 0x20100#64 .write = .page ordinary 0 0x20100) ∧
      c.by_.lane < (grp s c.by_.uid).lanes.length) ∧
    (let d := copyRecord 0 0 3 0 0x30000 0x20100 1 0
     let c (x : Segment) : Cmd := { cmd (.copy d []) .running with fix := [x] }
     segNext (c ⟨false, 0x30000#64, 4096, 0, 1, 4, true, false⟩) d = some ⟨false, 0x30000#64, 4096, 0, 1, 4, true, false⟩ ∧ segNext (c ⟨false, 0x30000#64, 4096, 0, 1, 0, false, false⟩) d = none ∧
      (let e := copyRecord 0 0 3 0 0x20000 0x20100 2 0
       let x : Segment := ⟨false, 0x20000#64, 4096, 0, 2, 4, true, true⟩
       let c : Cmd := { cmd (.copy e []) .running with fix := [x] }
       let s := heads 0 c
       c.fix.Nodup ∧ segNext c e = some x ∧ c.tagw ≠ tagOpen ∧ unitElem s 9 x.first = none ∧ (match copyUnit s 9 false x.first with
         | .moved _ => true
         | _ => false) = true) ∧
      (let s := heads 0 (c ⟨false, 0x30000#64, 4096, 0, 1, 0, false, false⟩)
       segUnposted s (c ⟨false, 0x30000#64, 4096, 0, 1, 0, false, false⟩) = some ⟨false, 0x30000#64, 4096, 0, 1, 0, false, false⟩ ∧
        engReach s (c ⟨false, 0x30000#64, 4096, 0, 1, 0, false, false⟩).by_ 0x30000#64 .read = .fault false 1 0) ∧
      -- an earlier request of the command for the page, and none
      (let x : Segment := ⟨false, 0x30008#64, 4096, 1, 1, 0, false, false⟩
       let y : Segment := ⟨false, 0xFF80000000030000#64, 4096, 0, 1, 4, false, false⟩
       let find (fs : List Segment) : Option Segment := fs.find? (fun z => inSeg (heads 0 (c x)) z x.va.toNat && !z.present && z.tag != 0)
       segNext { c x with fix := [y, x] } d = none ∧ segUnposted (heads 0 (c x)) { c x with fix := [y, x] } = some x ∧ find [y, x] = some y ∧ find [x] = none) ∧
      -- an element of a plated page
      (let e := copyRecord 0 0 3 0 0x22000 0x20100 1 0
       let x : Segment := ⟨false, 0x22000#64, 4096, 0, 1, 4, true, true⟩
       let c : Cmd := { cmd (.copy e []) .running with fix := [x] }
       segNext c e = some x ∧ (unitElem (stored false (heads 0 c)) 9 0).isSome = true)) ∧
    two.launches.all (fun p => !p.2.snapArmed) = true ∧
    tGet? (heads 0 (cmd (.sgset 63 [1]) .queued)).cmds 9 = some (cmd (.sgset 63 [1]) .queued) ∧
    (let i : Issuer := ⟨1, 2, 0, 3, 0, 0, .u, 0, 0⟩
     let s : State := modDie two 0 (fun d => { d with kicks := [⟨5, record [], i, 0#64⟩, ⟨6, record [], i, 0#64⟩] })
     (dieAt two 0).kicks = [] ∧ (dieAt s 0).kicks = ⟨5, record [], i, 0#64⟩ :: [⟨6, record [], i, 0#64⟩] ∧ dieOf i.core = 0 ∧ (dieAt s 0).collQ.length < 64) := by and_intros <;> decide +kernel

/-- A collective record: operation, f32, two members, rank, one element. -/
def collRecord (rank : Nat) : List Byte := [0, 8, 1, 0, 2, 0, BitVec.ofNat 8 rank, 0] ++ leBytes 8 0x20000 ++ leBytes 8 0x20100 ++ leBytes 4 1 ++ List.replicate 36 0

/-- Entries that are well-formed and not, the first and the second of a meeting, meetings that are short and complete, heads and others of the die's queue. -/
theorem witness_CollectiveEvents :
    two.errors = [] ∧
    (let s (r : List Byte) (st : CmdState) (m : List (Nat × Meet)) : State :=
       modDie { two with cmds := [(9, cmd (.coll r) st), (8, cmd (.coll (collRecord 0)) .running)], meets := m } 0 (fun d => { d with collQ := [9] })
     let wait (r : List Byte) : Bool := decide ((dieAt (s r .queued []) 0).collQ.find? (fun j => (cmdAt (s r .queued []) j).state == .queued) = some 9) &&
       !cmdHeld (s r .queued []) (cmd (.coll r) .queued)
     let m : Meet := { ctx := 0, cid := 1, nmem := 2, members := [(0, 8)], come := 1 }
     let good (r : List Byte) : Bool := coSelf (s r .queued []) (cmd (.coll r) .queued) r
     wait (record []) = true ∧ wait (collRecord 1) = true ∧ coHead (record []) = false ∧ coHead (collRecord 1) = true ∧ good (collRecord 1) = true ∧
      -- rank 2 of two
      coHead (collRecord 2) = true ∧ good (collRecord 2) = false ∧ wait (collRecord 2) = true ∧ coNmem (collRecord 2) ≤ coRank (collRecord 2) ∧
      coRank (collRecord 1) < coNmem (collRecord 1) ∧ (s (collRecord 1) .queued []).netStopped = false ∧ meetOf (s (collRecord 1) .queued []) 0 (coCid (collRecord 1)) = none ∧
      (tGet? (s (collRecord 1) .queued []).cmds 9).isSome = true ∧ coCid (record []) ≠ coCid (collRecord 1) ∧ meetOf (s (collRecord 1) .queued []) 0 (coCid (record [])) = none ∧
      meetOf (s (collRecord 1) .queued [(7, m)]) 0 (coCid (collRecord 1)) = some (7, m) ∧ coAgree (coRec (cmd (.coll (collRecord 0)) .running)) (collRecord 1) = true ∧
      meetReady (s (collRecord 1) .running [(7, m)]) m = false ∧
      (let full : Meet := { m with members := [(0, 8), (1, 9)], come := 2 }
       tGet? (s (collRecord 1) .running [(7, full)]).meets 7 = some full ∧ meetReady (s (collRecord 1) .running [(7, full)]) full = true ∧
        (∀ p ∈ full.members, coTrouble (s (collRecord 1) .running [(7, full)]) (cmdAt (s (collRecord 1) .running [(7, full)]) p.2) = none) ∧
        -- no element is read yet; one of two; both
        (coNext (s (collRecord 1) .running [(7, full)]) full).isSome = true ∧
        (match coNext (s (collRecord 1) .running [(7, full)]) full with
         | some (id, rank, a) =>
           let t := s (collRecord 1) .running [(7, full)]
           decide (coElem t (cmdAt t id).by_ (cmdAt t id).plGot a (coWidth (coRec (cmdAt t id))) = .ok [0, 0, 0, 0]) && (coPlate t id a (coWidth (coRec (cmdAt t id)))).isNone &&
             (coNext (coReadMany 7 1 t) { full with got := tPut full.got rank ((tGet? full.got rank).getD [] ++ [0]) }).isSome
         | none => false) = true ∧
        (let read : Meet := { full with got := [(0, [1]), (1, [2])] }
         coNext (s (collRecord 1) .running [(7, read)]) read = none ∧ (coWords (s (collRecord 1) .running [(7, read)]) read).length = 2 ∧
          engReach (s (collRecord 1) .running [(7, read)]) (cmdAt (s (collRecord 1) .running [(7, read)]) 9).by_ 0x20100#64 .write = .page ordinary 0 0x20100)) ∧
      -- rank 0 reads its element from a plate
      (let full : Meet := { m with members := [(0, 8), (1, 9)], come := 2 }
       let r : List Byte := [0, 8, 1, 0, 2, 0, 0, 0] ++ leBytes 8 0x22000 ++ leBytes 8 0x20100 ++ leBytes 4 1 ++ List.replicate 36 0
       let t : State := stored false { s (collRecord 1) .running [(7, full)] with cmds := [(9, cmd (.coll (collRecord 1)) .running), (8, cmd (.coll r) .running)] }
       meetReady t full = true ∧ (∀ p ∈ full.members, coTrouble t (cmdAt t p.2) = none) ∧ (match coNext t full with
         | some (id, _, a) => decide (id = 8) && (coPlate t id a (coWidth (coRec (cmdAt t id)))).isSome
         | none => false) = true) ∧
      -- a member of another package, the first of its meeting and the second
      meetOf (s (record []) .queued [(7, m)]) 0 (coCid (collRecord 1)) = some (7, m) ∧ m.broken = false ∧
      (meetRecs (s (record []) .queued [(7, m)]) m).all (fun p => coAgree p.2 (collRecord 1) && p.1 != coRank (collRecord 1)) = true ∧
      (let twice : Meet := { m with members := [(1, 8)] }
       (meetRecs (s (record []) .queued [(7, twice)]) twice).all (fun p => p.1 != coRank (collRecord 1)) = false) ∧
      -- one that does not agree, with three members; a meeting that is broken, with one left to come and with two
      (let three : List Byte := [0, 8, 1, 0, 3, 0, 1, 0] ++ (collRecord 1).drop 8
       (meetRecs (s (record []) .queued [(7, m)]) m).all (fun p => coAgree p.2 three) = false ∧ coHead three = true ∧ coCid three = coCid (collRecord 1) ∧ max m.nmem (coNmem three) = 3 ∧
        m.come + 1 < 3 ∧ max m.nmem (coNmem (collRecord 1)) ≤ m.come + 1 ∧
        (let b : Meet := { m with members := [], broken := true }
         meetOf (s (collRecord 1) .queued [(7, b)]) 0 (coCid (collRecord 1)) = some (7, b))) ∧
      (dieAt (s (collRecord 1) .landed []) 0).collQ.head? = some 9 ∧ coArrival (collRecord 1) = none ∧
      (dieAt (modDie (s (collRecord 1) .landed []) 0 (fun d => { d with collQ := [8, 9] })) 0).collQ.head? ≠ some 9) := by and_intros <;> decide +kernel

/-- `two` with a gang that leaves room on its core. -/
def roomy : State := modGang two 2 (fun g => { g with tiles := 0, bars := [], banks := [] })

/-- Galleys, tasks and launches that may start and that may not; gangs that are over, that run, and that wait for a command. -/
theorem witness_WorkStarts :
    (let g (locked : Bool) : Galley := { entry := 0x10000#64, launch := 3, gang := 2, slugs := [⟨0x10000#64, 5⟩], expires := 9, locked := locked }
     let s (x : Galley) : State := modCore roomy 0 (fun c => { c with galleys := [(9, x)] })
     galleyDue (s (g false)) 0 9 = false ∧ galleyDue (s (g true)) 0 9 = true ∧ noClaims (s (g true)) 0 false false = true ∧ startAbsent (s (g true)) 3 0 = none ∧
      (coreAt (s (g true)) 0).fenced = false ∧ (coreAt (modCore (s (g true)) 0 (fun c => { c with fenced := true })) 0).fenced = true) ∧
    (let t : Task := { record := record [(2, 1)], launch := 3, gang := 2, die := 0, ready := true, gate := none }
     taskDue { roomy with tasks := [(9, t)] } t 0 = true ∧ noClaims { roomy with tasks := [(9, t)] } 0 true false = true ∧
      startAbsent { roomy with tasks := [(9, t)] } 3 0 = none) ∧
    (let s (gx : Nat) (cohabit : Bool) : State := modLaunch two 3 (fun l => { l with gx := gx, record := if cohabit then l.record.take 23 ++ [2] ++ l.record.drop 24 else l.record })
     (launchAt (s 1 false) 3).state = .running ∧ gangDue (s 1 false) 3 0 = false ∧ gangDue (s 2 false) 3 0 = false ∧
      (let room (t : State) : State := { t with gangs := roomy.gangs }
       gangDue (room (s 2 false)) 3 0 = true ∧ noClaims (room (s 2 false)) 0 true true = true ∧ topPrio (room (s 2 false)) 3 0 = true ∧
        startAbsent (room (s 2 false)) 3 (imgTiles (launchAt (room (s 2 false)) 3)) = none ∧ startAbsent (room (s 1 true)) 3 (imgTiles (launchAt (room (s 1 true)) 3)) = none ∧
        recFlag (launchAt (room (s 2 false)) 3) 1 = false ∧ (launchAt (room (s 2 false)) 3).placed = [0] ∧ 0 < gridSize (launchAt (room (s 2 false)) 3) ∧
        (launchAt (room (s 2 false)) 3).placed.Pairwise (fun a b => a < b) ∧ (∀ i ∈ (launchAt (room (s 2 false)) 3).placed, i < gridSize (launchAt (room (s 2 false)) 3)) ∧
        -- COHABIT, with room for every gang at once, and with a galley to start first on a core that is needed
        (let g : Galley := { entry := 0x10000#64, launch := 3, gang := 2, slugs := [⟨0x10000#64, 5⟩], expires := 9, locked := true }
         let t (gs : List (Nat × Galley)) : State := modLaunch { room (s 2 true) with coremap := 3, cores := [(0, { ctx := some 0 }), (1, { ctx := some 0, galleys := gs })] } 3
           (fun l => { l with placed := [] })
         let free (gs : List (Nat × Galley)) : Nat := sumOf (fun c => roomOn (t gs) c (gangNeed (launchAt (t gs) 3))) (gangCores (t gs) 3)
         ∀ gs ∈ [[], [(9, g)]], (t gs).errors = [] ∧ recFlag (launchAt (t gs) 3) 1 = true ∧ gangDue (t gs) 3 0 = true ∧ noClaims (t gs) 0 true true = true ∧ topPrio (t gs) 3 0 = true ∧
            startAbsent (t gs) 3 (imgTiles (launchAt (t gs) 3)) = none ∧ (gridSize (launchAt (t gs) 3) ≤ free gs ↔ gs = [])))) ∧
    roomy.errors = [] ∧
    (groupOver two 1 = false ∧ gangCmds (heads 0 (cmd (.sgset 1 []) .queued)) 2 = true ∧
      (let done := modGrp two 1 (fun g => { g with lanes := g.lanes.map (fun ln => { ln with st := .exited }) })
       tGet? done.gangs 2 = tGet? two.gangs 2 ∧ groupOver done 1 = true ∧ gangCmds done 2 = false)) := by and_intros <;> decide +kernel

/-! ### Hypotheses of the statements about saves, the Foreman, the host, errors and debug ports -/

/-- `two` with the page tables of its context: page 0x30000 absent with its bytes at 0x50000 of the host, 0x31000 present, 0x32000 unmapped; 17 save frames. -/
def tabled : State :=
  let s := wrBytes two (mkey 0 0x40000) (leBytes 8 0x41001)
  let s := wrBytes s (mkey 0 0x41000) (leBytes 8 0x42001)
  let s := wrBytes s (mkey 0 0x42000) (leBytes 8 0x43001)
  let s := wrBytes s (mkey 0 0x43000) (leBytes 8 0x44001)
  let s := wrBytes s (mkey 0 0x44180) (leBytes 8 0x5080E ++ leBytes 8 0x3180F)
  modCtx { s with trblks := setNth s.trblks 0 { ctxbase := 0x40000#64 } } 0 (fun c => { c with savecnt := 17 })

/-- A record of the fault queue for group 1. -/
def faultOf (va : W64) : OpenFault := { r := ⟨va, 0, 0, 0, 0, 0, 0, 0, 9⟩, absent := true, page := (va.toNat / 4096 * 4096, 4096), uid := some 1, cmd := none }

/-- A group that leaves with two faults on one page, with frames and without; restores with a denied fault, with a restart and with neither; a gang that moves to core 1; pages that are
absent, unmapped, present, of another package; evictions of a page that is pinned and that is not. -/
theorem witness_SavesAndPages :
    (let f (l : Nat) : LaneFault := { lane := l, va := 0x30000#64, pc := 0x10008#64, acc := 0 }
     let s := modGrp tabled 1 (fun g => { g with place := .saving 0 .pageFault, faults := [f 0, f 1] })
     (grp s 1).place = .saving 0 .pageFault ∧ saveDrained s 1 = true ∧ s.faults.length + (saveFaults s 1).length ≤ faultQueueCap ∧ saveFaults s 1 = [f 0] ∧
      takeFrame s (ctxOf s 1) = some 0 ∧ takeFrame (modCtx s 0 (fun c => { c with savecnt := 0 })) (ctxOf s 1) = none ∧
      reach s 0 0 0x30000#64 (accOf 0) (lane s 1 0).mode = .fault true 1 3) ∧
    (let f : LaneFault := { lane := 0, va := 0x32000#64, pc := 0x10008#64, acc := 0, denied := true }
     let s := modGrp tabled 1 (fun g => { g with place := .saved .pageFault true, faults := [f], restart := [1] })
     restoreOk s 1 = true ∧ 31 ∈ freeSlots s (coreOf s 1) ∧ (tGet? s.groups 1).isSome = true ∧ (grp s 1).lanes.all (fun ln => decide (ln.depth ≠ 4)) = true ∧
      (grp s 1).faults.find? (fun f => f.lane == 0 && f.denied) = some f ∧ (grp s 1).faults.find? (fun f => f.lane == 1 && f.denied) = none ∧ 1 ∈ (grp s 1).restart ∧
      2 ∉ (grp s 1).restart ∧ basicB s = true ∧
      -- on the way to a trap vector
      (let v : LaneFault := { f with vector := true }
       let s := modGrp tabled 1 (fun g => { g with place := .saved .pageFault true, faults := [v] })
       restoreOk s 1 = true ∧ (grp s 1).faults.find? (fun f => f.lane == 0 && f.denied) = some v ∧ basicB s = true)) ∧
    (let t := modGrp (modGang tabled 2 (fun g => { g with moved := true })) 1 (fun g => { g with place := .saved .fencing true })
     let s : State := { t with coremap := 2, cores := [(1, { ctx := some 0 })] }
     moveOk s (grp s 1).gang 1 = true ∧ (32 : Nat) / 32 = 1 ∧ (gangAt s 2).groups.Nodup ∧ (∀ u ∈ (gangAt s 2).groups, (tGet? s.groups u).isSome = true)) ∧
    (let s (va : W64) : State := { tabled with faults := [(9, faultOf va)], evicts := [] }
     let walk (va : Nat) : TrOut := walkAll (s (BitVec.ofNat 64 va)) 0 0 0 va .read .h
     (faultsAt (s 0x30000#64) true)[0]? = some (9, faultOf 0x30000#64) ∧ tGet? (s 0x30000#64).faults 9 = some (faultOf 0x30000#64) ∧
      evicting (s 0x30000#64) (faultOf 0x30000#64).r = false ∧ walk 0x32000 = .fault false 1 3 ∧ walk 0x30000 = .fault true 1 3 ∧
      (match walk 0x31000 with
       | .ok a pa => decide (pa = 0x31000) && a.wr
       | _ => false) = true ∧
      pageEntry (s 0x30000#64) 0 0 0 0x30000 = some ⟨mkey 0 0x44180, 3, false, 4096, .proof, false⟩ ∧
      framesFree (s 0x30000#64) 0 [(0x60000, 4096)] .proof = true ∧ framesFree (s 0x30000#64) 0 [(0x20000, 4096)] .proof = false ∧
      pageFrames (s 0x30000#64) 0 0 0x60000 4096 ⟨mkey 0 0x44180, 3, false, 4096, .proof, false⟩ = [(0x60000, 4096)] ∧ entKeys (mkey 0 0x44180) 3 0x5080E = [mkey 0 0x44180] ∧
      rdNat (s 0x30000#64) (mkey 0 0x44180) 8 = 0x5080E ∧ rootsOf (s 0x30000#64) 0 0 0 = some (0x41000, 0) ∧ entSize 3 0x5080E = 4096 ∧
      overlaps (mkey 0 0x44180) 8 (mkey 0 0x60000) 4096 = false ∧
      (faultsAt (s 0x80000000000000#64) false)[0]? = some (9, faultOf 0x80000000000000#64)) ∧
    (pageEntry tabled 0 (vmidOf tabled 0) (asidOf tabled 0) 0x31000 = some ⟨mkey 0 0x44188, 3, true, 4096, .proof, false⟩ ∧ tabled.trblks.length = 5 ∧
      tinvGo (nth {} tabled.trblks 0).tinvc = false ∧ leafSize 3 (rdNat tabled (mkey 0 0x44188) 8) = 4096 ∧
      pages.all (fun t => !overlaps t.vpage t.attr.size 0x31000 4096 || t.inflight == 0) = true) := by and_intros <;> decide +kernel

/-- Contexts that wait and that do not, deadlines met, cores that may be loaded, rings with an entry of the host, of the device and none, launches at each point of their end. -/
theorem witness_ForemanEvents :
    (othersQueued two 0 = false ∧
      (let other (q : Ring → Ring) : State := modCtx two 1 (fun c => { c with ctxctl := 0x80000000#32, rings := modNth c.rings 3 q })
       let dev := other (fun r => { r with dev := [record [(22, 1)]] })
       othersQueued dev 0 = true ∧ dev.pkg = .ready ∧ ctxEnabled (ctxAt dev 1) = true ∧ nextRing dev 1 = some (3, true) ∧ nextRing two 0 = none ∧
        reloadOk dev 1 1 = false ∧ reloadOk { dev with coremap := 3 } 1 1 = true ∧
        -- for the context that is pre-empted there, where no other is queued
        reloadOk { two with gangs := [], cores := [(0, { ctx := some 0, preempt := some 3 })] } 0 0 = true)) ∧
    (deadlineCores two 0 = [] ∧ deadlineCores (modCore two 0 (fun c => { c with preempt := some 0 })) 0 = [0]) ∧
    (let s (base : W64) : State := modCtx two 0 (fun c => { c with rings := modNth c.rings 7 (fun r => { r with base := base, size := 4, tail := 1 }) })
     nextRing (s 0x20000#64) 0 = some (7, false) ∧ foreAbsent (s 0x20000#64) (foreman two 0 0) (ringAt (nth {} (ctxAt (s 0x20000#64) 0).rings 7)) 64 = none ∧
      (match ringHead (s 0x20000#64) 0 7 with
       | .ok r => decide (r = record [])
       | _ => false) = true ∧
      nextRing (s 0x30000#64) 0 = some (7, false) ∧ (foreAbsent (s 0x30000#64) (foreman two 0 0) (ringAt (nth {} (ctxAt (s 0x30000#64) 0).rings 7)) 64).isSome = true) ∧
    (launchDone two 3 = false ∧
      (let done := modCtx { two with gangs := [], groups := [] } 0 (fun c => { c with cmplsize := 1 })
       let q := (ctxAt done 0).completed ++ [3]
       launchDone done 3 = true ∧ 3 ∉ (ctxAt done 0).completed ∧ q.head? = some 3 ∧ cmplRoom (ctxAt done 0) = true ∧ cmplRoom (ctxAt two 0) = false ∧
        (launchAt done 3).buffer = [] ∧ (ctxAt done 0).unwinds = [] ∧ 3 < done.fresh)) := by
  and_intros <;> decide +kernel

/-- The states of bring-up, contexts that are enabled and that are not, and addresses at the edges of the host's memory and of the register blocks. -/
theorem witness_HostEvents :
    State.reset.pkg = .reset ∧ two.pkg = .ready ∧ ({ two with pkg := .linkup } : State).pkg = .linkup ∧ ({ two with pkg := .meminit } : State).pkg = .meminit ∧
    (1 : BitVec 192) ≠ 0 ∧ bit (0x80000000#32).toNat 31 = true ∧ (∀ o, o < 5 → (nth {} two.trblks o).ctxbase.toNat % 2 ^ 16 = 0) ∧ ctxEnabled (ctxAt two 0) = true ∧ ctxEnabled (ctxAt two 1) = false ∧
    (coreAt two 0).ctx = some 0 ∧ (coreAt two 0).preempt = none ∧ two.stopped = false ∧
    (2 ^ 52 - 8) + 8 ≤ 2 ^ 52 ∧ (2 ^ 52 - 8) % 8 + 8 ≤ 8 ∧
    (383#32).toNat % 512 < 384 ∧ (∀ c ∈ (modCtx two 0 (fun c => { c with ctxctl := 0 })).ctxs, ctxEnabled c.2 = false) ∧
    bit (portAt (modPort two 0 3 (fun p => { p with prights := 0x11 })) 0 3).prights.toNat 0 = true ∧ bit (portAt two 0 3).prights.toNat 0 = false ∧
    0x410000 ≤ two.trblk.toNat ∧ two.trblk.toNat + 0x1000 ≤ 0x800000 ∧
    -- a tick that has passed, and one that has not
    (let s : State := { two with phase := tickUnits }
     s.stopped = false ∧ stopDue s = false ∧ tickUnits ≤ s.phase ∧ samplesBy s sampleOwed = [] ∧ ¬tickUnits ≤ two.phase) := by decide +kernel

/-- Invalidations that are free and that run, done and not; `icinv` with a store in its range and without; `lmap`. -/
theorem witness_Invalidations :
    two.trblks.length = 5 ∧ two.pkg = .ready ∧ tinvGo (nth {} two.trblks 4).tinvc = false ∧ invalDone two 0 = false ∧
    (let s : State := { two with trblks := setNth two.trblks 0 { tinvc := 0x80000003#32 }, tlbs := [(0, pages.map (fun t => { t with inflight := 0 }))], taken := [(mkey 0 0x31000, 4096, .proof)] }
     tinvGo (nth {} s.trblks 0).tinvc = true ∧ invalDone s 0 = true ∧
      (let v : Evict := ⟨0, 0, 0, 0x31000, 4096, [0x31000], 0x50000⟩
       ({ s with evicts := [(9, v)] } : State).evicts.filter (fun p => p.2.owner == 0) = [(9, v)] ∧ v.back % 4096 = 0 ∧ v.frames.length ≤ 2 ^ 18 ∧ v.frames[0]? = some 0x31000)) ∧
    (let s := next (.icinv (.v 16) (.imm 1)) two
     let t := next (.icinv (.v 4) (.imm 4)) (next (.st .w ⟨.plain, .core⟩ (.v 0) 4 0 (op (.imm 0))) two)
     tGet? s.icinvs 100 = some ⟨0, 1, [0, 1], 0x10000#64, 1⟩ ∧ icinvShort s ⟨0, 1, [0, 1], 0x10000#64, 1⟩ = false ∧ (lane s 1 0).st = .wait (.icinv 100) ∧
      t.icinvs.any (fun p => icinvShort t p.2) = true ∧ (coreAt s 0).ctx = some 0) ∧
    (let s := next (.lmapSet (.v 16) (.imm 2)) (inMode .s)
     (match tGet? s.lmaps 100 with
      | some m => decide (m.owner < 4) && m.bits.all (fun b => decide (b.2 < 8)) && decide (m.lanes = [0, 1])
      | none => false) = true ∧ (lane s 1 0).st = .wait (.lmap 100)) := by and_intros <;> decide +kernel

/-- Errors of each kind in each store, at the ends of their ranges; sets that a pipe issued; cores that are faulty; routers and links at the ends of their numbers; a launch whose
replay is due, with a snapshot. -/
theorem witness_ReliabilityEvents :
    ((4 * 2 ^ 52 - 32 : Nat) < 4 * 2 ^ 52 ∧ 32 ≤ sectorBytes (smGet .proof two.frameClass ((4 * 2 ^ 52 - 32) / 4096)) ∧
      (smGet .proof ({ two with frameClass := [(0, .check)] } : State).frameClass 0 = .check) ∧ (smGet .proof ({ two with frameClass := [(0, .draft)] } : State).frameClass 0 = .draft) ∧
      1 ≤ two.fwt.toNat ∧ (∀ i, i < 32 → inTables two (0x20000 + i) = false) ∧ inTables two 0x20000 = false ∧ inTables two 0 = true) ∧
    (31 < (grp two 1).lanes.length ∧ (gangAt two 2).kclass ≠ .draft ∧ 4096 * 16 - 1 < 4096 * (gangAt two 2).tiles ∧ 256 * 16 - 1 < 256 * (gangAt two 2).accrows ∧
      1 < (gangAt two 2).banks.length ∧ 1023 < (gangOf two 1).privsz) ∧
    (let s : State := { two with errors := [⟨.hbm 0x20000 32, .detected⟩] }
     (∃ e ∈ s.errors, onStack s (stackOf 0x20000) e = true)) ∧
    (onGrid two .proof 0x20000 32 = true ∧ onGrid two .proof 0x20FE0 32 = true ∧ onGrid two .proof 0x20001 32 = false ∧ onGrid two .check 0x20000 35 = true ∧
      onGrid two .draft 0x20000 36 = true) ∧
    (let s := formAll (modCore two 0 (fun c => { c with icache := [{ va := 0x10008#64, bytes := beBytes 8 0xBA41000000000000, st := .valid }] }))
     groupAt s 0 0 = some 1 ∧ readySets s 1 ≠ [] ∧ 0 % 4 < (coreAt s 0).issued.length ∧ (pipeTurn s 0 0).map (fun p => p.2) = some (some (1, ⟨0x10008#64, .u, List.range 32⟩)) ∧
      pipeTurn two 0 0 = none) ∧
    (let s := next (.frcp .dyn (.v 9) (vr 2)) two
     let p := (tGet? (grp s 1).pend 100).getD { writes := [] }
     groupAt s 0 0 = some 1 ∧ (tGet? (grp s 1).pend 100).isSome = true ∧ p.since.map (fun x => x.lane) = [0, 1] ∧ p.since.all (sameRegion s 1 100) = true ∧ p.stores = []) ∧
    (let c := cmd (.compute (record []) 0 0) .running
     let b := cmd (.bank 1 0 0x1200D#32 ⟨.core, 0⟩ false) .running
     let both := modCore { (heads 4 c) with cmds := [(9, c), (8, b)] } 0 (fun k => { k with queues := setNth k.queues 5 [8] })
     pressRuns (heads 4 c) 0 5 = none ∧ pressRuns (heads 4 c) 0 4 = some (9, c) ∧ pressRuns (heads 5 b) 0 5 = some (9, b) ∧ pressRuns (heads 5 b) 0 4 = none ∧
      pressRuns both 0 5 = some (8, b) ∧ pressRuns both 0 4 = some (9, c)) ∧
    (plateWork two 0 = [] ∧ plateWork (refitting false 1 {}) 1 = [none]) ∧
    -- a fencing begins, waits for its gang, and ends
    (let s (g : Group → Group) : State := { modGrp (modCore two 0 (fun c => { c with fenced := true })) 1 g with lasting := [(0, 0)] }
     (coreAt two 0).fenced = false ∧ (coreAt (s id) 0).fenced = true ∧ (s id).coremap.getLsbD 0 = true ∧ fenceSaved (s id) 0 = false ∧
      fenceSaved (s (fun g => { g with place := .saved .fencing true })) 0 = true) ∧
    (coreFaulty two 0 = false ∧ corePresent two 0 = true ∧ coreFaulty { two with lasting := [(0, 0)] } 0 = true ∧ (grp two 1).place = .resident 0 ∧ (grp two 1).ended = false) ∧
    (3 * 64 + 63 ∉ two.deadRouters ∧ 6 * 1024 + 15 ∉ two.deadLinks ∧ (launchAt two 3).replayDue = false) ∧
    (let p : Snap := ⟨0x20000, 4096, [(0x20000, 7#8), (0x20FFF, 8#8)], [], []⟩
     let s := modLaunch two 3 (fun l => { l with replayDue := true, snaps := [p] })
     (launchAt s 3).replayDue = true ∧ (launchAt s 3).snaps.Pairwise (fun a b => overlaps a.key a.size b.key b.size = false) ∧ p ∈ (launchAt s 3).snaps ∧ p.key + p.size ≤ 4 * 2 ^ 52 ∧
      Memory.wf p.bytes = true ∧ ∀ c ∈ p.bytes, p.key ≤ c.1 ∧ c.1 < p.key + p.size) := by and_intros <;> decide +kernel

/-- Ports 0 and 4,095 with every right and with none; a halted group, registers that are there, poisoned and not there; a stop that is due and one that is not; a sample. -/
theorem witness_DebugEvents :
    (4095 : Nat) < 4096 ∧ (ctxAt two (4095 / 4)).ports.length = 4 ∧
    (let s := modPort two 0 0 (fun p => { p with prights := 0x3F, drights := 0x3F })
     s.pkg = .ready ∧ (∀ b, b < 6 → bit (portAt s 0 0).prights.toNat b = true ∧ bit (portAt s 0 0).drights.toNat b = true) ∧
      (∀ b, b < 6 → bit (portAt two 0 0).prights.toNat b = false) ∧ (3, launchAt s 3) ∈ s.launches ∧ (launchAt s 3).ctx = 0 ∧ (portAt s 0 0).dlaunch = 0) ∧
    (let s (d : W64) : State := modGrp (modPort two 0 0 (fun p => { p with prights := 0x3F, drights := 0x3F, dsel := d })) 1 (fun g => { g with halted := [0] })
     selGroup two 0 0 = none ∧ selGroup (s 0) 0 0 = some 1 ∧ selReg 0 = .word 0 ∧ selReg (2 ^ 30 + 10 * 2 ^ 18) = .bad ∧ selReg (2 ^ 30 + 9 * 2 ^ 18) = .word 137 ∧
      0 ∉ (lane (s 0) 1 (selLane 0)).vpois ∧ selLane (31 * 2 ^ 13) < (grp (s 0) 1).lanes.length ∧
      selReg (2 ^ 31 + csrC .tscratch * 2 ^ 18) = .csr .tscratch ∧ csrWritable (lane (s 0) 1 0) .tscratch 5 = true ∧ selReg (2 ^ 31 + csrC .regpc * 2 ^ 18) = .csr .regpc ∧
      csrWritable (lane (s 0) 1 0) .regpc 5 = false ∧ 0 ∈ (lane (modLane (s 0) 1 0 (fun ln => { ln with vpois := [0] })) 1 0).vpois) ∧
    (let s : State := { two with stopAt := some 5, gtick := 5 }
     s.stopAt = some 5 ∧ (5#64).toNat ≤ s.gtick.toNat ∧ two.stopAt = none) ∧
    (sampleDue two 0 1 = false ∧
      (let s := modPort two 0 0 (fun p => { p with speriod := 64, session := true, trsize := 1 })
       sampleDue s 0 1 = true ∧ (portAt s 0 0).session = true ∧ (portAt s 0 0).lost = 0 ∧ 0 < ringRoom (portAt s 0 0) ∧
        ringRoom (portAt (modPort s 0 0 (fun p => { p with trsize := 0 })) 0 0) = 0)) := by and_intros <;> decide +kernel

/-! ### Steps and decoding -/

/-- The placed state for a `tick` before its issue. -/
def placed : State := State.withFetchWord { State.reset with feat := [0x7F, 0, 0, 0], trblk := 0x500000 } 64 0xBA41000000000000

/-- `two` before a `mov` of stream 3, whose elements lie in the memory of die 1; pipe 0 issues. -/
def sending : State :=
  let q : Stream := { base := 0x0010000000020000#64, dims := [⟨2#32, 2#16⟩, ⟨0, 1#16⟩, ⟨0, 1#16⟩, ⟨0, 1#16⟩, ⟨0, 1#16⟩], esize := 1#2 }
  let s := machine [0, 1] (fun l ln => { words l ln with q := setNth ln.q 3 q })
  { formAll (modCore s 0 (fun c => { c with icache := [{ va := 0x10008#64, bytes := (encode (.mov .i32 (.v 22) ⟨.q 3, .ident⟩)).getD [], st := .valid }] })) with
    agenda := [.issue 0 0] }

/-- What the statement asks of pipe 0 of core 0 for an instruction, and how many requests for stream elements it sends. -/
def pipeB (s : State) (i : Instr) (n : Nat) : Bool :=
  let s0 : State := { s with agenda := [] }
  decide (s.agenda = [.issue 0 0]) && !s.stopped && !stopDue s && !nth false (coreAt s 0).issued 0 && pipeReady s0 0 0 && (passedOver s0 0 0).isEmpty &&
    match pipeGroup s0 0 0 with
    | some u =>
      (match chooseSet (grp s0 u) (pipeSets s0 0 0 u) with
       | some (x, g) =>
         let g1 : Group := { g with lastIssue := s.cycle + 1 }
         let s1 := modGrp (modCore s0 0 (fun c => { c with issued := setNth c.issued 0 true })) u (fun _ => g1)
         let s2 := modCore s1 0 (fun c => { c with rr := setNth c.rr 0 (slotNum s1 u) })
         (match setWord s2 u x with
          | some w =>
            let s3 : State := { s2 with cur := ⟨u, x.lanes, x.pc, w.bytes.length⟩ }
            decide (w.st = .valid) && decide (decodeExact w.bytes = .ok i) && (lacks s i).isNone &&
              decide ((streamSends s3 u x.lanes (srcs (longForm i)) (readsT (longForm i)) s3.fresh).length = n)
          | none => false)
       | none => false)
    | none => false

/-- An instruction that sends for nothing, and one that sends for two elements. -/
theorem witness_StepRunsDecoded_sends : pipeB placed (.tick (.v 4)) 0 = true ∧ pipeB sending (.mov .i32 (.v 22) ⟨.q 3, .ident⟩) 2 = true := by and_intros <;> decide +kernel

/-- The next move of the placed state is the issue of pipe 0 of core 0; its one group has one set, whose word is valid and lacks no feature. An event on the agenda. -/
theorem witness_StepRunsDecoded : placed.stopped = false ∧ stopDue placed = false ∧ placed.agenda = [.issue 0 0] ∧
    (let s0 : State := { placed with agenda := [] }
     nth false (coreAt placed 0).issued 0 = false ∧ pipeReady s0 0 0 = true ∧ pipeGroup s0 0 0 = some 3 ∧ passedOver s0 0 0 = [] ∧
      (match chooseSet (grp s0 3) (pipeSets s0 0 0 3) with
       | some (x, _) => decide (x.lanes = List.range 32) && (match setWord s0 3 x with
         | some w => decide (w.st = .valid) && decide (decodeExact w.bytes = .ok (.tick (.v 4))) && decide (lacks s0 (.tick (.v 4)) = none)
         | none => false)
       | none => false) = true) ∧
    isEvent .gtickAdvance = true := by and_intros <;> decide +kernel

/-- The step runs it: GTICK, 0, is in v4 : v5 of lane 31, the thread is before the `nop`. -/
theorem test_step_runs_placed : (match step placed with
    | .next t => decide ((lane t 3 31).at_ = .word 0x10000#64 3 0x10010#64 1) && decide ((lane t 3 31).v = [])
    | _ => false) = true := by decide +kernel

theorem witness_DecodeEncodeAgree : legal (.iaddShort (.v 5) (.v 5) (.imm 1)) = true ∧ (Instr.iaddShort (.v 5) (.v 5) (.imm 1)).WellFormed ∧ isEvent (.iaddShort (.v 5) (.v 5) (.imm 1)) = false ∧
    decodeExact (beBytes 8 0xBA41000000000000) = .ok (.tick (.v 4)) :=
  ⟨by decide +kernel, (by decide +kernel : legal (.iaddShort (.v 5) (.v 5) (.imm 1)) = true), by decide +kernel, by decide +kernel⟩

theorem witness_MemoryStaysCanonical : Memory.wf placed.mem = true ∧ (match step placed with
    | .next _ => true
    | _ => false) = true := by decide +kernel

/-! ### Ill-formed terms, one for each check, and what is beside each of them -/

/-- Terms that the checks of R34, R42 to R48, R62, R74, R79, R112, R120 and R147 refuse, and after each the term beside it that they admit. -/
def illFormed : List (Instr × Instr) :=
  let o (s : Src) (p : Pat) : Opnd := ⟨s, p⟩
  let w : Ord := ⟨.plain, .core⟩
  [ -- a pair from an odd v, c or o register, or from h1; a run that is not aligned
    (.mov .i64 (.v 8) (vr 3), .mov .i64 (.v 8) (vr 2)), (.mov .i64 (.v 8) (o (.c 3) .ident), .mov .i64 (.v 8) (o (.c 2) .ident)),
    (.mov .i64 (.v 8) (o (.o 3) .ident), .mov .i64 (.v 8) (o (.o 2) .ident)), (.mov .i64 (.v 8) (o .h1 .ident), .mov .i64 (.v 8) (o .h0 .ident)),
    (.mmag .f16 false .dyn 8 2 4, .mmag .f16 false .dyn 8 0 4),
    -- an immediate that the operand's format does not hold; a lane number as a float
    (.cmul .f16 false .dyn (.v 8) (o .lane .ident) (vr 2), .cmul .f16 false .dyn (.v 8) (vr 4) (vr 2)),
    (.fadd .f32 .dyn (.v 8) (o .grp .ident) (vr 2), .fadd .f32 .dyn (.v 8) (o (.imm 3) .ident) (vr 2)),
    -- four registers from a constant; a pattern on a uniform source
    (.st .q w (.c 0) 4 0 (vr 2), .st .q w (.v 8) 4 0 (vr 2)), (.mov .i32 (.v 8) (o (.lit 5#32) (.rot 1)), .mov .i32 (.v 8) (o (.lit 5#32) .ident)),
    -- an odd destination pair; a stream as a destination of a load; `none` where a pair is required
    (.iaddw true (.v 9) (vr 2) (vr 3), .iaddw true (.v 8) (vr 2) (vr 3)), (.ld .w w (.q 1) 4 0 (vr 2), .ld .w w (.v 8) 4 0 (vr 2)), (.tick .none, .tick (.v 4)),
    -- a stream and a pattern as operands of engine and system instructions; a stream as the data of a store
    (.pcmd (.q 1), .pcmd (.v 1)), (.st .w w (.q 1) 4 0 (vr 2), .st .w w (.h1) 4 0 (vr 2)), (.est .w w (.v 8) 4 0 (o (.v 2) (.bc 1)), .est .w w (.v 8) 4 0 (vr 2)),
    -- forms: `perm`, `cvt`, `quant`, `deq`, `mmag`, `rng`, shifts by immediates
    (.perm false (.v 8) (o (.v 2) (.rot 1)) (vr 3), .perm false (.v 8) (vr 2) (o (.v 3) (.rot 1))),
    (.cvt .fromF32 .f32 false .dyn (.v 8) (vr 2), .cvt .fromF32 .f16 false .dyn (.v 8) (vr 2)),
    (.cvt .fromF32 .i32 true .dyn (.v 8) (vr 2), .cvt .fromF32 .i32 false .dyn (.v 8) (vr 2)),
    (.cvt .toF32 (.b8 false true 7) false .dyn (.v 8) (vr 2), .cvt .toF32 (.b8 true true 7) false .dyn (.v 8) (vr 2)),
    (.quant .f16 .b16 false .dyn (.v 8) (vr 2), .quant .e2m1 .b16 false .dyn (.v 8) (vr 2)), (.deq .e4m3 4 .dyn (.v 8) (vr 2) (vr 3), .deq .e4m3 3 .dyn (.v 8) (vr 2) (vr 3)),
    (.mmag .f16 true .dyn 16 0 4, .mmag .e4m3 true .dyn 16 0 4), (.mmag .f16 false .dyn 0 4 12, .mmag .f16 false .dyn 16 4 12),
    (.rng .i32 (.v 8) (vr 2) (vr 4), .rng .z32 (.v 8) (vr 2) (vr 4)), (.shli .i32 (.v 8) (vr 2) 32, .shli .i64 (.v 8) (vr 2) 63),
    -- orders and sizes; barriers; registers that may not be written; a `brx` of no entries
    (.ld .w ⟨.plain, .die⟩ (.v 8) 4 0 (vr 2), .ld .w ⟨.rlx, .die⟩ (.v 8) 4 0 (vr 2)), (.aadd false w (.v 8) 4 0 (vr 2), .aadd false ⟨.rlx, .core⟩ (.v 8) 4 0 (vr 2)),
    (.lds .e .plain (.v 8) 4 0 (vr 2), .lds .q .plain (.v 8) 4 0 (vr 2)), (.ldacc .b (.v 8) 4 0 (vr 2), .ldacc .w (.v 8) 4 0 (vr 2)),
    (.eld .q w (.v 8) 4 0 (vr 2), .eld .d w (.v 8) 4 0 (vr 2)), (.barSync ⟨.core, 16⟩, .barSync ⟨.core, 15⟩), (.barArr .h0 ⟨.core, 0⟩, .barArr (.v 8) ⟨.core, 0⟩),
    (.swrite .accept (.v 1) (.v 2), .swrite .svscr (.v 1) (.v 2)), (.csrw .write .none .regpc (.v 2), .csrw .write .none .tvec (.v 2)),
    (.brx (.v 1) 0 0 4, .brx (.v 1) 0 1 4),
    -- two literals that differ; a literal in a short form; a short form whose third source would be `none`
    (.iadd .i32 false (.v 8) (o (.lit 1#32) .ident) (o (.lit 2#32) .ident), .iadd .i32 false (.v 8) (o (.lit 1#32) .ident) (o (.lit 1#32) .ident)),
    (.iaddShort (.v 8) (.v 2) (.lit 5#32), .iaddShort (.v 8) (.v 2) (.imm 5)), (.imadShort .none (.v 2) (.v 3), .imadShort (.v 8) (.v 2) (.v 3)) ]

theorem ill_formed_is_refused : illFormed.all (fun p => !legal p.1 && legal p.2) = true := by decide +kernel

/-- Words that R33, R34 and R75 refuse: a reserved short opcode, a reserved long one, an odd pair, a reserved field, bytes that end early. -/
theorem reserved_words_are_refused : [beBytes 4 0x7E000000, beBytes 8 0xBFC0000000000000, beBytes 8 0xA54000000000001D, [0x80#8]].all
    (fun bs => match decodeExact bs with
      | .reject _ => true
      | .ok _ => false) = true := by decide +kernel

/-! ### Words of every row, written out from the encoding tables, not from the encoder -/

/-- Words of n bytes and the instructions that they stand for. -/
def readsAll (n : Nat) (rows : List (Nat × Instr)) : Bool := rows.all (fun p => decide (decodeExact (beBytes n p.1) = .ok p.2))

/-- R81, R88, R91, R92, laid out by R75: d = v4, a = v8, b = v12, c = v16 with patterns where a field has one. -/
theorem decode_integer : readsAll 8
    [(0x803FC00000000000, .nop),
     (0x8041021180000600, .mov .i64 (.v 4) ⟨.v 8, .rot 3⟩),
     (0x8081021186450101, .iadd .z32 true (.v 4) ⟨.v 8, .rot 3⟩ ⟨.v 12, .bc 5⟩),
     (0x80C1021186450101, .isub .z32 true (.v 4) ⟨.v 8, .rot 3⟩ ⟨.v 12, .bc 5⟩),
     (0x8101021186450101, .imul .z32 true (.v 4) ⟨.v 8, .rot 3⟩ ⟨.v 12, .bc 5⟩),
     (0x8141021186450100, .imulh true (.v 4) ⟨.v 8, .rot 3⟩ ⟨.v 12, .bc 5⟩),
     (0x81C1021186450100, .iaddw true (.v 4) ⟨.v 8, .rot 3⟩ ⟨.v 12, .bc 5⟩),
     (0x8201021186450100, .imulw true (.v 4) ⟨.v 8, .rot 3⟩ ⟨.v 12, .bc 5⟩),
     (0x8241021186450700, .imin .z64 (.v 4) ⟨.v 8, .rot 3⟩ ⟨.v 12, .bc 5⟩),
     (0x8281021186450700, .imax .z64 (.v 4) ⟨.v 8, .rot 3⟩ ⟨.v 12, .bc 5⟩),
     (0x8301021186450700, .and .z64 (.v 4) ⟨.v 8, .rot 3⟩ ⟨.v 12, .bc 5⟩),
     (0x8341021186450700, .or .z64 (.v 4) ⟨.v 8, .rot 3⟩ ⟨.v 12, .bc 5⟩),
     (0x8381021186450700, .xor .z64 (.v 4) ⟨.v 8, .rot 3⟩ ⟨.v 12, .bc 5⟩),
     (0x83C1021186450700, .andn .z64 (.v 4) ⟨.v 8, .rot 3⟩ ⟨.v 12, .bc 5⟩),
     (0x8401021186450700, .shl .z64 (.v 4) ⟨.v 8, .rot 3⟩ ⟨.v 12, .bc 5⟩),
     (0x8441021186450700, .shr .z64 (.v 4) ⟨.v 8, .rot 3⟩ ⟨.v 12, .bc 5⟩),
     (0x8481021186450700, .sar .z64 (.v 4) ⟨.v 8, .rot 3⟩ ⟨.v 12, .bc 5⟩),
     (0x84C1021186450700, .rot .z64 (.v 4) ⟨.v 8, .rot 3⟩ ⟨.v 12, .bc 5⟩),
     (0x82C1021180000601, .iabs true true (.v 4) ⟨.v 8, .rot 3⟩),
     (0x81810211864510C2, .imad (.v 4) ⟨.v 8, .rot 3⟩ ⟨.v 12, .bc 5⟩ ⟨.v 16, .bf 1⟩),
     (0x85010211864510C3, .bfx true (.v 4) ⟨.v 8, .rot 3⟩ ⟨.v 12, .bc 5⟩ ⟨.v 16, .bf 1⟩),
     (0x85410211864510C2, .bfi (.v 4) ⟨.v 8, .rot 3⟩ ⟨.v 12, .bc 5⟩ ⟨.v 16, .bf 1⟩),
     (0x86C10211864510C2, .sel (.v 4) ⟨.v 8, .rot 3⟩ ⟨.v 12, .bc 5⟩ ⟨.v 16, .bf 1⟩),
     (0x87410211864510C2, .prmt (.v 4) ⟨.v 8, .rot 3⟩ ⟨.v 12, .bc 5⟩ ⟨.v 16, .bf 1⟩),
     (0x8581021180000100, .popc .z32 (.v 4) ⟨.v 8, .rot 3⟩),
     (0x85C1021180000100, .clz .z32 (.v 4) ⟨.v 8, .rot 3⟩),
     (0x8601021180000100, .ctz .z32 (.v 4) ⟨.v 8, .rot 3⟩),
     (0x8641021180000100, .brev .z32 (.v 4) ⟨.v 8, .rot 3⟩),
     (0x8681021186450005, .icmp .ge .i32 (.v 4) ⟨.v 8, .rot 3⟩ ⟨.v 12, .bc 5⟩),
     (0x8701021186450107, .lea true 7 (.v 4) ⟨.v 8, .rot 3⟩ ⟨.v 12, .bc 5⟩),
     (0x8781021180000002, .vote .ballot (.v 4) ⟨.v 8, .rot 3⟩),
     (0x87C1020006450600, .perm true (.v 4) ⟨.v 8, .ident⟩ ⟨.v 12, .bc 5⟩)] = true := by decide +kernel

/-- R82, R104, R107, R108, R110 to R115, laid out by R75: d = v4, a = v8, b = v12, c = v16 with patterns where a field has one. -/
theorem decode_float : readsAll 8
    [(0x880102118645C900, .fadd .f16 .sr (.v 4) ⟨.v 8, .rot 3⟩ ⟨.v 12, .bc 5⟩),
     (0x884102118645C900, .fsub .f16 .sr (.v 4) ⟨.v 8, .rot 3⟩ ⟨.v 12, .bc 5⟩),
     (0x888102118645C900, .fmul .f16 .sr (.v 4) ⟨.v 8, .rot 3⟩ ⟨.v 12, .bc 5⟩),
     (0x890102118645C900, .fmac .f16 .sr (.v 4) ⟨.v 8, .rot 3⟩ ⟨.v 12, .bc 5⟩),
     (0x8BC102118645C900, .fscale .f16 .sr (.v 4) ⟨.v 8, .rot 3⟩ ⟨.v 12, .bc 5⟩),
     (0x88C10211864510C3, .fma true (.v 4) ⟨.v 8, .rot 3⟩ ⟨.v 12, .bc 5⟩ ⟨.v 16, .bf 1⟩),
     (0x8941021186450A01, .fmin .bf16 true (.v 4) ⟨.v 8, .rot 3⟩ ⟨.v 12, .bc 5⟩),
     (0x8981021186450A01, .fmax .bf16 true (.v 4) ⟨.v 8, .rot 3⟩ ⟨.v 12, .bc 5⟩),
     (0x89C1021186450806, .fcmp .un .f32 (.v 4) ⟨.v 8, .rot 3⟩ ⟨.v 12, .bc 5⟩),
     (0x8A0102118000A800, .frcp .rna (.v 4) ⟨.v 8, .rot 3⟩),
     (0x8A4102118000A800, .frsq .rna (.v 4) ⟨.v 8, .rot 3⟩),
     (0x8A8102118000A800, .fsqrt .rna (.v 4) ⟨.v 8, .rot 3⟩),
     (0x8AC102118000A800, .fexp2 .rna (.v 4) ⟨.v 8, .rot 3⟩),
     (0x8B0102118000A800, .flog2 .rna (.v 4) ⟨.v 8, .rot 3⟩),
     (0x8B41021180004801, .frnd .f32 .rtz true (.v 4) ⟨.v 8, .rot 3⟩),
     (0x8B81021180000A00, .fclass .bf16 (.v 4) ⟨.v 8, .rot 3⟩),
     (0x8C01021180006C5E, .cvt .fromF64 (.b8 false true 3) true .rup (.v 4) ⟨.v 8, .rot 3⟩),
     (0x8C41021180009203, .quant .mxint8 .b128 false .rdn (.v 4) ⟨.v 8, .rot 3⟩),
     (0x8C81021186453107, .deq .e2m1 7 .rne (.v 4) ⟨.v 8, .rot 3⟩ ⟨.v 12, .bc 5⟩),
     (0x8CC1021186452A00, .h2add true .rne (.v 4) ⟨.v 8, .rot 3⟩ ⟨.v 12, .bc 5⟩),
     (0x8D01021186452A00, .h2mul true .rne (.v 4) ⟨.v 8, .rot 3⟩ ⟨.v 12, .bc 5⟩),
     (0x8D410211864510C3, .h2fma true (.v 4) ⟨.v 8, .rot 3⟩ ⟨.v 12, .bc 5⟩ ⟨.v 16, .bf 1⟩),
     (0x8D810211864510C3, .fdot2 true (.v 4) ⟨.v 8, .rot 3⟩ ⟨.v 12, .bc 5⟩ ⟨.v 16, .bf 1⟩),
     (0x8E410211864510C3, .dfma true (.v 4) ⟨.v 8, .rot 3⟩ ⟨.v 12, .bc 5⟩ ⟨.v 16, .bf 1⟩),
     (0x8DC1021186454B00, .dadd .rtz (.v 4) ⟨.v 8, .rot 3⟩ ⟨.v 12, .bc 5⟩),
     (0x8E01021186454B00, .dmul .rtz (.v 4) ⟨.v 8, .rot 3⟩ ⟨.v 12, .bc 5⟩),
     (0x8E8204000A004E01, .mmag .e5m2 true .rtz 8 16 20),
     (0x8EC1021186450801, .cmul .f32 true .dyn (.v 4) ⟨.v 8, .rot 3⟩ ⟨.v 12, .bc 5⟩),
     (0x8F01021186450700, .rng .z64 (.v 4) ⟨.v 8, .rot 3⟩ ⟨.v 12, .bc 5⟩)] = true := by decide +kernel

/-- R83, R94, R119, laid out by R75: d = v4, a = v8, b = v12, c = v16 with patterns where a field has one. -/
theorem decode_immediate : readsAll 8
    [(0x9001000055E6F030, .movi .i64 (.v 4) 0xABCDE),
     (0x90410211D5E6F008, .movhi (.v 4) ⟨.v 8, .rot 3⟩ 0xABCDE),
     (0x90810211D5E6F001, .iaddi .i32 true (.v 4) ⟨.v 8, .rot 3⟩ 0xABCDE),
     (0x90C10211D5E6F001, .imuli .i32 true (.v 4) ⟨.v 8, .rot 3⟩ 0xABCDE),
     (0x91010211D5E6F038, .andi .z64 (.v 4) ⟨.v 8, .rot 3⟩ 0xABCDE),
     (0x91410211D5E6F038, .ori .z64 (.v 4) ⟨.v 8, .rot 3⟩ 0xABCDE),
     (0x91810211D5E6F038, .xori .z64 (.v 4) ⟨.v 8, .rot 3⟩ 0xABCDE),
     (0x91C102118001F830, .shli .i64 (.v 4) ⟨.v 8, .rot 3⟩ 63),
     (0x920102118001F830, .shri .i64 (.v 4) ⟨.v 8, .rot 3⟩ 63),
     (0x924102118001F830, .sari .i64 (.v 4) ⟨.v 8, .rot 3⟩ 63),
     (0x92810211D5E6F00B, .icmpi .le .z32 (.v 4) ⟨.v 8, .rot 3⟩ 0xABCDE),
     (0x92C1000055E6F040, .fmovi (.v 4) 0xABCDE),
     (0x93010211D5E6F340, .faddi .rup (.v 4) ⟨.v 8, .rot 3⟩ 0xABCDE),
     (0x93410211D5E6F340, .fmuli .rup (.v 4) ⟨.v 8, .rot 3⟩ 0xABCDE),
     (0x93810211D5E6F340, .fmai .rup (.v 4) ⟨.v 8, .rot 3⟩ 0xABCDE),
     (0x93C10211D5E6F046, .fcmpi .un (.v 4) ⟨.v 8, .rot 3⟩ 0xABCDE),
     (0x94010211D5E6F008, .ldc (.v 4) ⟨.v 8, .rot 3⟩ 0xABCDE),
     (0x94410211D5E6F035, .leai 5 (.v 4) ⟨.v 8, .rot 3⟩ 0xABCDE)] = true := by decide +kernel

/-- R84, R120 to R135, laid out by R75: d = v4, a = v8, b = v12, c = v16 with patterns where a field has one. -/
theorem decode_memory : readsAll 8
    [(0x980102000645B034, .ld .e ⟨.acqrel, .pod⟩ (.v 4) 8 0x81 ⟨.v 12, .bc 5⟩),
     (0x9841020006459039, .st .q ⟨.sc, .quad⟩ (.v 4) 8 0x81 ⟨.v 12, .bc 5⟩),
     (0x988101C006457028, .lds .d .rlx (.v 4) 7 0x81 ⟨.v 12, .bc 5⟩),
     (0x98C101C006453038, .sts .h .sc (.v 4) 7 0x81 ⟨.v 12, .bc 5⟩),
     (0x990101C006451020, .ldp .b (.v 4) 7 0x81 ⟨.v 12, .bc 5⟩),
     (0x994101C006455020, .stp .w (.v 4) 7 0x81 ⟨.v 12, .bc 5⟩),
     (0x998101C006459020, .ldacc .q (.v 4) 7 0x81 ⟨.v 12, .bc 5⟩),
     (0x99F94200000000C0, .qdef 5 8 6),
     (0x9A010000000005C0, .qget (.v 4) 5 6),
     (0x9A40020006451020, .pf 8 0x81 ⟨.v 12, .bc 5⟩),
     (0x9A80020006451020, .cwb 8 0x81 ⟨.v 12, .bc 5⟩),
     (0x9AC0020006451020, .cinv 8 0x81 ⟨.v 12, .bc 5⟩),
     (0x9B01000006450000, .ttag (.v 4) ⟨.v 12, .bc 5⟩),
     (0x9B41000006450000, .ldt (.v 4) ⟨.v 12, .bc 5⟩)] = true := by decide +kernel

/-- R84, R136 to R140, laid out by R75: d = v4, a = v8, b = v12, c = v16 with patterns where a field has one. -/
theorem decode_atomic : readsAll 8
    [(0xA001020006457033, .aadd true ⟨.acqrel, .pkg⟩ (.v 4) 8 0x81 ⟨.v 12, .bc 5⟩),
     (0xA041020006457033, .amin true ⟨.acqrel, .pkg⟩ (.v 4) 8 0x81 ⟨.v 12, .bc 5⟩),
     (0xA081020006457033, .amax true ⟨.acqrel, .pkg⟩ (.v 4) 8 0x81 ⟨.v 12, .bc 5⟩),
     (0xA0C1020006457033, .aand true ⟨.acqrel, .pkg⟩ (.v 4) 8 0x81 ⟨.v 12, .bc 5⟩),
     (0xA101020006457033, .aor true ⟨.acqrel, .pkg⟩ (.v 4) 8 0x81 ⟨.v 12, .bc 5⟩),
     (0xA141020006457033, .axor true ⟨.acqrel, .pkg⟩ (.v 4) 8 0x81 ⟨.v 12, .bc 5⟩),
     (0xA181020006457033, .axchg true ⟨.acqrel, .pkg⟩ (.v 4) 8 0x81 ⟨.v 12, .bc 5⟩),
     (0xA201020006457033, .acas true ⟨.acqrel, .pkg⟩ (.v 4) 8 0x81 ⟨.v 12, .bc 5⟩),
     (0xA241020006457033, .afadd true ⟨.acqrel, .pkg⟩ (.v 4) 8 0x81 ⟨.v 12, .bc 5⟩),
     (0xA1C102000645502A, .ainc ⟨.rlx, .die⟩ (.v 4) 8 0x81 ⟨.v 12, .bc 5⟩),
     (0xA28102000645502A, .afmin ⟨.rlx, .die⟩ (.v 4) 8 0x81 ⟨.v 12, .bc 5⟩),
     (0xA2C102000645502A, .afmax ⟨.rlx, .die⟩ (.v 4) 8 0x81 ⟨.v 12, .bc 5⟩),
     (0xA30102000645502A, .afadd2 ⟨.rlx, .die⟩ (.v 4) 8 0x81 ⟨.v 12, .bc 5⟩),
     (0xA341020006453030, .eld .h ⟨.acqrel, .core⟩ (.v 4) 8 0x81 ⟨.v 12, .bc 5⟩),
     (0xA38102000600703B, .est .d ⟨.sc, .pkg⟩ (.v 4) 8 0x81 ⟨.v 12, .ident⟩),
     (0xA3C0020006451031, .erel ⟨.acqrel, .quad⟩ 8 0x81 ⟨.v 12, .bc 5⟩),
     (0xA401020000001020, .enew ⟨.plain, .core⟩ (.v 4) 8 0x81),
     (0xA440020000001020, .precast 8 0x81),
     (0xA480020000001020, .psync 8 0x81),
     (0xA4C1020000001020, .pquery (.v 4) 8 0x81),
     (0xA501020006451020, .pset (.v 4) 8 0x81 ⟨.v 12, .bc 5⟩),
     (0xA540000000000054, .fence .rel .pod),
     (0xA580020000001033, .acqr .pkg 8 0x81)] = true := by decide +kernel

/-- R84, R97 to R101, R145 to R149, laid out by R75: d = v4, a = v8, b = v12, c = v16 with patterns where a field has one. -/
theorem decode_control : readsAll 8
    [(0xA8000ABCDE000000, .bra 0xABCDE),
     (0xA8425FFFFD000000, .brc .nz (.v 9) 0xFFFFD),
     (0xA8800ABCDEEA0000, .call 0xABCDE (.o 2)),
     (0xA8FC000000000000, .ret .h0),
     (0xA93B000000FF0000, .jmpi (.o 4) .none),
     (0xA97C4ABCDE000305, .brx .h1 0xABCDE 5 3),
     (0xA980000000000000, .exit),
     (0xA9C0000000000000, .yield),
     (0xAA000000000012F4, .wait 1 2 15 4),
     (0xAA40000000000003, .drain .acc),
     (0xAA81C00000004005, .barArr (.v 7) ⟨.die, 5⟩),
     (0xAAFC00000000200F, .barWait .h0 ⟨.quad, 15⟩),
     (0xAB00000000000003, .barSync ⟨.core, 3⟩),
     (0xAB4240000000803F, .barInit (.v 9) ⟨.pod, 63⟩),
     (0xAB80000000007FFF, .sleep (.ticks 32767)),
     (0xAB82400000008000, .sleep (.reg (.v 9)))] = true := by decide +kernel

/-- R84, R152 to R158, laid out by R75: d = v4, a = v8, b = v12, c = v16 with patterns where a field has one. -/
theorem decode_engine : readsAll 8
    [(0xB000C20000000001, .fcopy 3 true (.v 8)),
     (0xB040020000000000, .pcmd (.v 8)),
     (0xB08042000600701F, .pbank 1 (.v 8) (.v 12) ⟨.pkg, 31⟩ true),
     (0xB0C002000600000F, .pclr (.v 8) (.v 12) ⟨.core, 15⟩ false),
     (0xB10FC20000000000, .sgset 63 (.v 8)),
     (0xB172020000000000, .coll 200 (.v 8)),
     (0xB140020000000001, .collNow (.v 8)),
     (0xB1B2020000000000, .bkset 200 (.v 8)),
     (0xB1F2000006000000, .bkadd 200 (.v 12)),
     (0xB200020000000000, .tapePush (.v 8)),
     (0xB240000000000000, .tapeMark),
     (0xB280000000000000, .tapeUnwind),
     (0xB2C0020006000000, .taskPost (.v 8) (.v 12)),
     (0xB300000000000000, .taskDone),
     (0xB340020006000000, .spawn (.v 8) (.v 12)),
     (0xB38140000000002A, .qfence 5 0x2A),
     (0xB3C1C20000000000, .launch 7 (.v 8))] = true := by decide +kernel

/-- R84, R159 to R174, laid out by R75: d = v4, a = v8, b = v12, c = v16 with patterns where a field has one. -/
theorem decode_system : readsAll 8
    [(0xB80000000000ABCD, .syscall 0xABCD),
     (0xB84000000000ABCD, .hcall 0xABCD),
     (0xB880000000000000, .tret),
     (0xB8C1020000000207, .sread (.v 4) .sgfault (.v 8)),
     (0xB900020006000400, .swrite .svscr (.v 8) (.v 12)),
     (0xB941000000000611, .csrr (.v 4) .txval),
     (0xB981020000002413, .csrw .clr (.v 4) .tvec (.v 8)),
     (0xB9C000000000ABCD, .brk 0xABCD),
     (0xBA0000000000ABCD, .halt 0xABCD),
     (0xBA41000000000000, .tick (.v 4)),
     (0xBA8002000000ABCD, .trace 0xABCD (.v 8)),
     (0xBAC0020006000000, .icinv (.v 8) (.v 12)),
     (0xBB00020006000001, .lmapSet (.v 8) (.v 12)),
     (0xBB00020006000000, .lmapClr (.v 8) (.v 12)),
     (0xBB41000000000000, .ebudGet (.v 4)),
     (0xBB41020006000001, .ebudSet (.v 4) (.v 8) (.v 12)),
     (0xBB80800000000002, .rclassSet .draft (.v 2)),
     (0xBB80800000000004, .rclassGet (.v 2))] = true := by decide +kernel

/-- R33, R85: the short forms, d = v5, a = v6, b = v7. -/
theorem decode_short : readsAll 4
    [(0x01FE0000, .nopShort),
     (0x020B8A00, .movShort (.v 5) (.imm 5)),
     (0x040A0C0E, .iaddShort (.v 5) (.v 6) (.v 7)),
     (0x060A0C0E, .isubShort (.v 5) (.v 6) (.v 7)),
     (0x080A0C0E, .imulShort (.v 5) (.v 6) (.v 7)),
     (0x0A0A0C0E, .imulhShort (.v 5) (.v 6) (.v 7)),
     (0x0C0A0C0E, .imadShort (.v 5) (.v 6) (.v 7)),
     (0x0E0A0C0E, .iminShort (.v 5) (.v 6) (.v 7)),
     (0x100A0C0E, .imaxShort (.v 5) (.v 6) (.v 7)),
     (0x120A0C0E, .iminZ32Short (.v 5) (.v 6) (.v 7)),
     (0x140A0C0E, .imaxZ32Short (.v 5) (.v 6) (.v 7)),
     (0x160A0C00, .iabsShort (.v 5) (.v 6)),
     (0x180A0C0E, .andShort (.v 5) (.v 6) (.v 7)),
     (0x1A0A0C0E, .orShort (.v 5) (.v 6) (.v 7)),
     (0x1C0A0C0E, .xorShort (.v 5) (.v 6) (.v 7)),
     (0x1E0A0C0E, .andnShort (.v 5) (.v 6) (.v 7)),
     (0x200A0C0E, .shlShort (.v 5) (.v 6) (.v 7)),
     (0x220A0C0E, .shrShort (.v 5) (.v 6) (.v 7)),
     (0x240A0C0E, .sarShort (.v 5) (.v 6) (.v 7)),
     (0x260A0C0E, .rotShort (.v 5) (.v 6) (.v 7)),
     (0x280A0C00, .popcShort (.v 5) (.v 6)),
     (0x2A0A0C00, .clzShort (.v 5) (.v 6)),
     (0x2C0A0C00, .ctzShort (.v 5) (.v 6)),
     (0x2E0A0C00, .brevShort (.v 5) (.v 6)),
     (0x300A0C0E, .icmpEqShort (.v 5) (.v 6) (.v 7)),
     (0x320A0C0E, .icmpNeShort (.v 5) (.v 6) (.v 7)),
     (0x340A0C0E, .icmpLtShort (.v 5) (.v 6) (.v 7)),
     (0x360A0C0E, .icmpLeShort (.v 5) (.v 6) (.v 7)),
     (0x380A0C0E, .icmpLtZ32Short (.v 5) (.v 6) (.v 7)),
     (0x3A0A0C0E, .icmpLeZ32Short (.v 5) (.v 6) (.v 7)),
     (0x3C0A0C0E, .selShort (.v 5) (.v 6) (.v 7))] = true ∧ readsAll 4
    [(0x3E0A0C0E, .permShort (.v 5) (.v 6) (.v 7)),
     (0x400A0C0E, .faddShort (.v 5) (.v 6) (.v 7)),
     (0x420A0C0E, .fsubShort (.v 5) (.v 6) (.v 7)),
     (0x440A0C0E, .fmulShort (.v 5) (.v 6) (.v 7)),
     (0x460A0C0E, .fmaShort (.v 5) (.v 6) (.v 7)),
     (0x480A0C0E, .fmacShort (.v 5) (.v 6) (.v 7)),
     (0x4A0A0C0E, .fminShort (.v 5) (.v 6) (.v 7)),
     (0x4C0A0C0E, .fmaxShort (.v 5) (.v 6) (.v 7)),
     (0x4E0A0C0E, .fcmpEqShort (.v 5) (.v 6) (.v 7)),
     (0x500A0C0E, .fcmpLtShort (.v 5) (.v 6) (.v 7)),
     (0x520A0C0E, .fcmpLeShort (.v 5) (.v 6) (.v 7)),
     (0x540A0C00, .frcpShort (.v 5) (.v 6)),
     (0x560A0C00, .frsqShort (.v 5) (.v 6)),
     (0x580A0C00, .fsqrtShort (.v 5) (.v 6)),
     (0x5A0A0C00, .fexp2Short (.v 5) (.v 6)),
     (0x5C0A0C00, .flog2Short (.v 5) (.v 6)),
     (0x5E0A0C00, .frndShort (.v 5) (.v 6)),
     (0x600A0C00, .fclassShort (.v 5) (.v 6)),
     (0x620A0C0E, .fscaleShort (.v 5) (.v 6) (.v 7)),
     (0x640A0C00, .cvtI32F32Short (.v 5) (.v 6)),
     (0x660A0C00, .cvtF32I32Short (.v 5) (.v 6)),
     (0x680A0C0E, .h2addF16Short (.v 5) (.v 6) (.v 7)),
     (0x6A0A0C0E, .h2mulF16Short (.v 5) (.v 6) (.v 7)),
     (0x6C0A0C0E, .h2fmaF16Short (.v 5) (.v 6) (.v 7)),
     (0x6E0A0C0E, .h2addBf16Short (.v 5) (.v 6) (.v 7)),
     (0x700A0C0E, .h2mulBf16Short (.v 5) (.v 6) (.v 7)),
     (0x720A0C0E, .h2fmaBf16Short (.v 5) (.v 6) (.v 7)),
     (0x740A0C0E, .fdot2F16Short (.v 5) (.v 6) (.v 7)),
     (0x760A0C0E, .fdot2Bf16Short (.v 5) (.v 6) (.v 7)),
     (0x78080C10, .daddShort (.v 4) (.v 6) (.v 8)),
     (0x7A080C10, .dmulShort (.v 4) (.v 6) (.v 8)),
     (0x7C080C10, .dfmaShort (.v 4) (.v 6) (.v 8))] = true := by decide +kernel

/-! ### Single steps: results from the spec's examples, or worked out by hand from the rule that a comment names -/

/-- Lanes 0 and 1 of 32 with these registers. -/
def regs (vs : List (Nat × W32)) : State := machine [0, 1] (fun _ ln => { ln with v := vs })

/-- The result of an instruction whose destination is v20 (or v20:v21) in lane 0, with these registers. -/
def res (i : Instr) (vs : List (Nat × W32)) : Option Nat := gives i (regs vs) 0 20

/-- The words that an instruction leaves pending for lane 0. -/
def pends (i : Instr) (vs : List (Nat × W32)) : List (Nat × Nat) :=
  match exec i (regs vs) with
  | .next t => (grp t 1).pend.flatMap (fun p => (p.2.writes.filter (fun w => w.lane == 0)).map (fun w => (w.reg, w.val.toNat)))
  | _ => []

/-- Lane 0 after an instruction on `two`. -/
def lane0 (i : Instr) (s : State) (p : Lane → Bool) : Bool := after i s (fun t => p (lane t 1 0))

/-- R88: saturation, wrap-around, wide and high products, absolute values. -/
theorem test_integer_arithmetic :
    res (.isub .z32 true (.v 20) (vr 0) (vr 1)) [(0, 3#32), (1, 5#32)] = some 0 ∧ res (.iadd .i32 true (.v 20) (vr 0) (vr 1)) [(0, 0x7FFFFFFF#32), (1, 1#32)] = some 0x7FFFFFFF ∧
    res (.iadd .i32 false (.v 20) (vr 0) (vr 1)) [(0, 0x7FFFFFFF#32), (1, 1#32)] = some 0x80000000 ∧ res (.imulh false (.v 20) (vr 0) (vr 1)) [(0, 0xFFFFFFF0#32), (1, 2#32)] = some 0xFFFFFFFF ∧
    res (.imulh true (.v 20) (vr 0) (vr 1)) [(0, 0xFFFFFFF0#32), (1, 2#32)] = some 1 ∧ res (.imul .i32 true (.v 20) (vr 0) (vr 1)) [(0, 0x10000#32), (1, 0x8000#32)] = some 0x7FFFFFFF ∧
    gives (.imulw false (.v 20) (vr 0) (vr 1)) (regs [(0, 0xFFFFFFFF#32), (1, 2#32)]) 0 21 = some 0xFFFFFFFF ∧
    gives (.iaddw true (.v 20) (vr 0) (vr 1)) (regs [(0, 0xFFFFFFFF#32), (1, 2#32)]) 0 21 = some 1 ∧ res (.imad (.v 20) (vr 0) (vr 0) (vr 1)) [(0, 3#32), (1, 5#32)] = some 14 ∧
    res (.iabs false true (.v 20) (vr 0)) [(0, 0x80000000#32)] = some 0x7FFFFFFF ∧ res (.iabs false false (.v 20) (vr 0)) [(0, 0x80000000#32)] = some 0x80000000 ∧
    res (.imin .i32 (.v 20) (vr 0) (vr 1)) [(0, 0xFFFFFFF0#32), (1, 2#32)] = some 0xFFFFFFF0 ∧ res (.imax .z32 (.v 20) (vr 0) (vr 1)) [(0, 0xFFFFFFF0#32), (1, 2#32)] = some 0xFFFFFFF0 := by
  decide +kernel

/-- R89's example, and shifts of the whole width. -/
theorem test_shifts :
    res (.shl .i32 (.v 20) (vr 0) (op (.lit 33#32))) [(0, 0x80000001#32)] = some 0 ∧ res (.sar .i32 (.v 20) (vr 0) (op (.lit 40#32))) [(0, 0x80000001#32)] = some 0xFFFFFFFF ∧
    res (.rot .i32 (.v 20) (vr 0) (op (.lit 33#32))) [(0, 0x80000001#32)] = some 3 ∧ res (.shr .i32 (.v 20) (vr 0) (op (.imm 31))) [(0, 0x80000001#32)] = some 0 ∧
    res (.shri .i32 (.v 20) (vr 0) 31) [(0, 0x80000001#32)] = some 1 ∧ gives (.shli .i64 (.v 20) (vr 0) 33) (regs [(0, 1#32)]) 0 21 = some 2 := by decide +kernel

/-- R88, R92 and its examples: logic, counts, fields, selection, permutation. -/
theorem test_logic_and_fields :
    res (.andn .i32 (.v 20) (vr 0) (vr 1)) [(0, 0xFF#32), (1, 0x0F#32)] = some 0xF0 ∧ res (.popc .i32 (.v 20) (vr 0)) [(0, 0xFFFFFFF0#32)] = some 28 ∧
    res (.clz .i32 (.v 20) (vr 0)) [(0, 1#32)] = some 31 ∧ res (.ctz .i64 (.v 20) (vr 0)) [(1, 4#32)] = some 34 ∧ res (.clz .i32 (.v 20) (vr 0)) [] = some 32 ∧
    res (.brev .i32 (.v 20) (vr 0)) [(0, 1#32)] = some 0x80000000 ∧ res (.prmt (.v 20) (vr 0) (vr 1) (op (.lit 0x0123#32))) [(0, 0x44332211#32)] = some 0x11223344 ∧
    res (.prmt (.v 20) (vr 0) (vr 1) (op (.lit 0xC476#32))) [(0, 0#32), (1, 0x80332291#32)] = some 0xFF918033 ∧
    res (.bfx true (.v 20) (vr 0) (vr 1) (vr 2)) [(0, 0x0F00#32), (1, 8#32), (2, 4#32)] = some 0xFFFFFFFF ∧
    res (.bfx false (.v 20) (vr 0) (vr 1) (vr 2)) [(0, 0xF0000000#32), (1, 28#32), (2, 9#32)] = some 0xF ∧
    res (.bfi (.v 20) (vr 0) (vr 1) (vr 2)) [(0, 0xAB#32), (1, 0xFFFFFFFF#32), (2, 0x0808#32)] = some 0xFFFFABFF ∧
    res (.sel (.v 20) (vr 0) (vr 1) (vr 2)) [(0, 7#32), (1, 9#32)] = some 9 ∧ res (.icmp .lt .z32 (.v 20) (vr 0) (vr 1)) [(0, 1#32), (1, 0xFFFFFFF0#32)] = some 0xFFFFFFFF ∧
    res (.icmp .lt .i32 (.v 20) (vr 0) (vr 1)) [(0, 1#32), (1, 0xFFFFFFF0#32)] = some 0 ∧ res (.lea false 3 (.v 20) (vr 0) (vr 2)) [(0, 0x100#32), (2, 0xFFFFFFFF#32)] = some 0xF8 := by
  decide +kernel

/-- R91: votes and lanes of a set of two; lane 5 is outside it, and XLANE is set. -/
theorem test_across_the_set :
    gives (.vote .ballot (.v 20) (vr 0)) two 1 20 = some 3 ∧ gives (.vote .uni (.v 20) (vr 0)) two 0 20 = some 0 ∧ gives (.vote .all (.v 20) (vr 0)) two 0 20 = some 0xFFFFFFFF ∧
    gives (.perm false (.v 20) (vr 0) (op (.imm 1))) two 0 20 = some 2 ∧ gives (.perm false (.v 20) (vr 0) (op (.imm 5))) two 0 20 = some 0 ∧
    lane0 (.perm false (.v 20) (vr 0) (op (.imm 5))) two (fun ln => bit ln.fmode.toNat 14) = true := by decide +kernel

/-- R94, R95, and the example of spec/00: immediates, and word 1 of the constant bank, which holds 77. -/
theorem test_immediates : res (.movi .i32 (.v 20) 0xFFFFE) [] = some 0xFFFFFFFE ∧ res (.movhi (.v 20) (vr 0) 0xABCDE) [(0, 0xF001#32)] = some 0xABCDE001 ∧
    res (.iaddi .i32 false (.v 20) (vr 0) 0xFFFFF) [(0, 1#32)] = some 0 ∧ gives (.movi .i64 (.v 20) 0xFFFFE) (regs []) 0 21 = some 0xFFFFFFFF ∧
    pends (.ldc (.v 20) (vr 0) 0) [(0, 1#32)] = [(20, 77), (137, 0), (136, 77)] := by decide +kernel

/-- R104, R107: 0.5 + 0.5, fused products, orders, and the examples of `fscale`, `fclass`, with their flags. -/
theorem test_float : res (.fadd .f32 .rne (.v 20) (vr 0) (vr 0)) [(0, 0x3F000000#32)] = some 0x3F800000 ∧
    res (.fma true (.v 20) (vr 0) (vr 0) (vr 1)) [(0, 0x40000000#32), (1, 0x40800000#32)] = some 0 ∧ res (.fmul .f16 .rne (.v 20) (vr 0) (vr 0)) [(0, 0x4000#32)] = some 0x4400 ∧
    res (.fmin .f32 false (.v 20) (vr 0) (vr 1)) [(0, 0#32), (1, 0x80000000#32)] = some 0x80000000 ∧
    res (.fmax .f32 true (.v 20) (vr 0) (vr 1)) [(0, 0x7FC00001#32), (1, 0x3F800000#32)] = some 0x7FC00000 ∧
    res (.fcmp .un .f32 (.v 20) (vr 0) (vr 1)) [(0, 0x7FC00000#32)] = some 0xFFFFFFFF ∧ res (.fscale .f32 .rne (.v 20) (vr 0) (vr 1)) [(0, 0x3F800000#32), (1, 0xFFFFFF6B#32)] = some 1 ∧
    res (.fscale .f32 .rne (.v 20) (vr 0) (vr 1)) [(0, 0x3F800000#32), (1, 0xFFFFFF6A#32)] = some 0 ∧
    lane0 (.fscale .f32 .rne (.v 20) (vr 0) (vr 1)) (regs [(0, 0x3F800000#32), (1, 0xFFFFFF6A#32)]) (fun ln => ln.fmode == 0x181#32) = true ∧
    res (.fclass .bf16 (.v 20) (vr 0)) [(0, 1#32)] = some 0x20 ∧ res (.frnd .f32 .rup false (.v 20) (vr 0)) [(0, 0x3F000000#32)] = some 0x3F800000 ∧
    res (.fmac .f32 .rne (.v 20) (vr 0) (vr 0)) [(0, 0x40000000#32), (20, 0x3F800000#32)] = some 0x40A00000 ∧ res (.faddi .rne (.v 20) (vr 0) 0x3F800) [(0, 0x3F800000#32)] = some 0x40000000 ∧
    pends (.frcp .rne (.v 20) (vr 0)) [(0, 0x40000000#32)] = [(20, 0x3F000000), (137, 0), (136, 0x3F000000)] := by decide +kernel

/-- R107, R110, R111, R113: pairs, f64, complex products, decoding. -/
theorem test_float_packed : res (.h2add false .rne (.v 20) (vr 0) (vr 0)) [(0, 0x3C004000#32)] = some 0x40004400 ∧
    res (.fdot2 true (.v 20) (vr 0) (vr 0) (vr 1)) [(0, 0x3F803F80#32), (1, 0x3F800000#32)] = some 0x40400000 ∧
    gives (.dadd .rne (.v 20) (vr 0) (vr 0)) (regs [(1, 0x3FF00000#32)]) 0 21 = some 0x40000000 ∧
    -- (1 + 2i)(1 + 2i) = -3 + 4i
    res (.cmul .f16 false .rne (.v 20) (vr 0) (vr 0)) [(0, 0x40003C00#32)] = some 0x4400C200 ∧
    res (.cvt .fromF32 .e4m3 true .dyn (.v 20) (vr 0)) [(0, 0x43FA0000#32)] = some 0x7E ∧
    lane0 (.cvt .fromF32 .e4m3 true .dyn (.v 20) (vr 0)) (regs [(0, 0x43FA0000#32)]) (fun ln => ln.fmode == 0x141#32) = true ∧
    res (.cvt .fromF32 .i32 false .rtz (.v 20) (vr 0)) [(0, 0xC0200000#32)] = some 0xFFFFFFFE ∧ res (.deq .e2m1 1 .rne (.v 20) (vr 0) (vr 1)) [(0, 0x20#32), (1, 128#32)] = some 0x40000000 := by
  decide +kernel

/-- The table of conversions of 0.1, 500 and 3.3 (spec/04). -/
theorem test_conversion_table :
    [(Fmt.bf16, Rnd.rne, false, 0, 0x3DCCCCCD, 0x3DCD, fNX), (.bf16, .rtz, false, 0, 0x3DCCCCCD, 0x3DCC, fNX), (.e4m3, .rne, false, 0, 0x3DCCCCCD, 0x1D, fNX),
     (.b8 false false 3, .rne, false, 0, 0x3DCCCCCD, 0x25, fNX), (.e2m1, .rne, false, 0, 0x3DCCCCCD, 0, fNX + fUF), (.e2m1, .rup, false, 0, 0x3DCCCCCD, 1, fNX + fUF),
     (.e2m1, .sr, false, 0x33333340, 0x3DCCCCCD, 0, fNX + fUF), (.e4m3, .rne, false, 0, 0x43FA0000, 0x7F, fOF + fNX), (.e4m3, .rne, true, 0, 0x43FA0000, 0x7E, fOF + fNX),
     (.b8 false false 3, .rne, false, 0, 0x43FA0000, 0x80, fOF + fNX), (.b8 false true 3, .rne, false, 0, 0x43FA0000, 0x7F, fOF + fNX),
     (.b8 false false 3, .rne, false, 0, 0x40533333, 0x4D, fNX)].all
      (fun (f, m, sat, r, x, y, fl) => let q := Machine.round f m sat r (fmtDecode .f32 x); q.code == y && q.flags == fl) = true := by decide +kernel

/-- The block of spec/04 quantised to e2m3: scale 0x7C, codes 0x1E, 0x32, 0x03. -/
theorem test_quantise_block :
    blockScale .e2m3 ([0x3F666666, 0xBE99999A, 0x3D4CCCCD].map (fmtDecode .f32)) = 0x7C ∧
    (quantLane .e2m3 0x7C ⟨.rne, 0, 0, 0⟩ 0 ([0x3F666666, 0xBE99999A, 0x3D4CCCCD].map (fmtDecode .f32))).1 = 0x1E + 0x32 * 2 ^ 6 + 3 * 2 ^ 12 := by decide +kernel

/-- TOPK of spec/18: distances 3, 1, 1 and NaN. -/
theorem test_topk : (topSort [(0, 0x40400000), (1, 0x3F800000), (2, 0x3F800000), (3, 0x7FC00000)]).map (fun p => p.1) = [1, 2, 0, 3] := by decide +kernel

/-- R97 to R101: transfers. `brc.nz` goes three words back; a `call` links past the block; a `jmpi` between blocks is BAD_TARGET with its target. -/
theorem test_control :
    lane0 (.brc .nz (.v 0) 0xFFFFD) two (fun ln => ln.at_ == .enter 0xFFE8#64 .branch 0x10008#64) = true ∧
    lane0 (.brc .z (.v 0) 0xFFFFD) two (fun ln => ln.at_ == .word 0x10000#64 3 0x10010#64 1) = true ∧ gives (.call 0 (.v 20)) two 0 20 = some 0x10018 ∧
    lane0 .exit two (fun ln => ln.st == .exited) = true ∧ lane0 (.sleep (.ticks 5)) two (fun ln => ln.st == .wait (.sleep 5)) = true ∧
    lane0 (.wait 15 15 0 15) two (fun ln => ln.st == .run) = true ∧
    lane0 (.wait 15 15 0 15) (twoGrp (fun g => { g with cp := 1 })) (fun ln => ln.st == .wait (.count 15 15 0 15)) = true ∧
    (enterBlock two 0 0 .u 0x10010#64 .indirect 0x10008#64 = .trap .badTarget 0x10010#64 0x10008#64) := by decide +kernel

/-- R148, R149: arrivals return their phases; the last of 32 changes the phase; `bar.wait` waits for its token. -/
theorem test_barriers : gives (.barArr (.v 20) ⟨.core, 0⟩) two 1 20 = some 0 ∧
    (let s := barPut two (barKey two 1 ⟨.core, 0⟩) { expect := 32, arrived := 31, phase := 6 }
     gives (.barArr (.v 20) ⟨.core, 0⟩) s 0 20 = some 6 ∧ gives (.barArr (.v 20) ⟨.core, 0⟩) s 1 20 = some 7 ∧
      after (.barArr (.v 20) ⟨.core, 0⟩) s (fun t => barGet t (barKey two 1 ⟨.core, 0⟩) == some { expect := 32, arrived := 1, phase := 7 }) = true ∧
      lane0 (.barWait (.v 0) ⟨.core, 0⟩) s (fun ln => ln.st == .run) = true) := by decide +kernel

/-- R292 to R295, R299: a `syscall` from U goes to TVEC in S at depth 1, its frame at 896 holds the restart point and the cause 7; `tret` goes back to the next word. -/
theorem test_traps : lane0 (.syscall 5) two (fun ln => ln.mode == .s && ln.depth == 1 && ln.at_ == .enter 0x10000#64 .vector 0x10000#64 &&
      leNat (privBytes ln 896 8) == 0x10010 && leNat (privBytes ln 904 8) == 0x10008 && leNat (privBytes ln 916 1) == causeCode .syscall && leNat (privBytes ln 936 8) == 5) = true ∧
    lane0 .tret trapped (fun ln => ln.mode == .u && ln.depth == 0 && ln.at_ == .word 0x10000#64 3 0x10010#64 1) = true ∧
    lane0 .tret two (fun ln => ln.depth == 1 && leNat (privBytes ln 916 1) == causeCode .priv) = true ∧
    lane0 (.hcall 1) (inMode .s) (fun ln => ln.mode == .h) = true := by decide +kernel

/-- R164 to R169: registers of the system group. -/
theorem test_system : lane0 (.csrw .set .none .fmode (.lit 0x3E00#32)) two (fun ln => ln.fmode == 0x3E01#32) = true ∧
    lane0 (.csrw .write .none .fmode (.lit 7#32)) two (fun ln => ln.fmode == 1#32) = true ∧ gives (.csrr (.v 20) .mstat) (inMode .s) 0 20 = some 1 ∧
    gives (.sread (.v 20) .privsz (.imm 0)) two 0 20 = some 1024 ∧ gives (.sread (.v 20) .coreclk (.imm 0)) two 0 20 = some 3600 ∧
    gives (.tick (.v 20)) { two with gtick := 0x100000002#64 } 0 21 = some 1 ∧ gives (.ebudGet (.v 20)) two 0 20 = some 0xFFFFFFFF ∧
    gives (.rclassSet .check (.v 20)) two 0 20 = some 0 ∧ lane0 (.rclassSet .check .none) two (fun ln => ln.rclass == .check) = true ∧
    after (.swrite .svscr (.v 0) (.imm 15)) (inMode .s) (fun t => nth 0 (coreAt t 0).svscr 15 == 1) = true ∧
    after (.halt 9) two (fun t => (launchAt t 3).halted && (launchAt t 3).code == 9) = true := by decide +kernel

/-- R126, R216, R217: a store is in the FIFO, its thread reads it back, and only its drain changes memory, little-endian. -/
theorem test_store_and_load :
    (let t := next (.st .w ⟨.plain, .core⟩ (.v 1) 4 0 (op (.imm 0))) two
     let u := next (.drainMove 1 0) (next (.leave 1 0) t)
     rdBytes t (mkey 0 0x20000) 4 = [0, 0, 0, 0] ∧ rdBytes u (mkey 0 0x20000) 4 = [0xF0, 0xFF, 0xFF, 0xFF] ∧
      pends (.ld .w ⟨.plain, .core⟩ (.v 20) 4 0 (op (.imm 0))) [(4, 0x10000#32)] = [(20, 0x000203C5)] ∧
      after (.ld .h ⟨.plain, .core⟩ (.v 20) 4 0 (op (.imm 0))) t (fun x => (grp x 1).pend.any (fun p => p.2.writes == [⟨0, 20, 0xFFF0#32⟩])) = true) ∧
    -- a misaligned access is ALIGN with its address as TXVAL
    lane0 (.ld .w ⟨.plain, .core⟩ (.v 20) 10 0 (op (.imm 0))) two (fun ln => leNat (privBytes ln 916 1) == causeCode .align && leNat (privBytes ln 936 8) == 0x20001) = true := by
  decide +kernel

/-- R136, R224: atomics when they are performed. -/
theorem test_atomics :
    (let s := wrBytes rich (mkey 0 0x20000) (leBytes 8 0xFFFFFFFF00000005)
     let word (o : AtomOp) (w x c : Nat) : Nat := rdNat (performEntry s (entryFor s 0 (.atom o w x c) ordinary 0 0x20000 0x20000#64 w .rlx .die {} false)) (mkey 0 0x20000) w
     word .add 4 0xFFFFFFFF 0 = 4 ∧ word .min 4 0x80000000 0 = 0x80000000 ∧ word .max 4 0x80000000 0 = 5 ∧ word .inc 4 5 0 = 0 ∧ word .inc 4 6 0 = 6 ∧ word .cas 4 9 5 = 9 ∧
      word .cas 4 9 6 = 5 ∧ word .add 8 0x100000000 0 = 5 ∧ word .xchg 4 1 0 = 1 ∧ word .xor 4 1 0 = 4 ∧
      getReg (lane (performEntry s (entryFor s 0 (.atom .add 4 1 0) ordinary 0 0x20000 0x20000#64 4 .rlx .die { n := 20, cnt := 1 } false)) 1 0) 20 = 5) := by decide +kernel

/-- R229 to R236: cell 0 is at edition 3; `enew` gives 3, an `est` makes 4 with the other bytes of 3. -/
theorem test_editions :
    after (.enew ⟨.plain, .core⟩ (.v 20) 6 0) rich (fun t => (grp t 1).pend.any (fun p => p.2.writes == [⟨0, 20, 3#32⟩])) = true ∧
    (let s := wrBytes rich (mkey 0 0x1C008) [1, 2, 3, 4, 5, 6, 7, 8]
     let t := performEntry s (entryFor s 0 (.est [9, 9] (mkey 0 0x19000)) cells 0 0x21002 0x21002#64 2 .plain .core {} false)
     rdNat t (mkey 0 0x1B000) 4 = 4 ∧ rdBytes t (mkey 0 0x1C000) 8 = [1, 2, 9, 9, 5, 6, 7, 8]) := by decide +kernel

/-- R243 to R245: a plate with one knot: 1.0 + 0.5 * max(i - 4, 0). -/
theorem test_plates :
    (let s := wrBytes rich (mkey 0 0x1D000) (leBytes 4 0x3F800000 ++ leBytes 4 4 ++ List.replicate 252 0 ++ leBytes 4 0x3F000000)
     plLoad s plateKey 4 = .val 0x3F800000 ∧ plLoad s plateKey 6 = .val 0x40000000 ∧ 
      plLoad (modPlate (wrBytes s (mkey 0 0x23000) (leBytes 4 6 ++ leBytes 4 9)) plateKey (fun p => { p with len0 := 1 })) plateKey 6 = .val 9) := by
  decide +kernel

/-- R142, R152, R154: commands enter their queues with their counters. -/
theorem test_engines : after (.fcopy 1 false (.v 4)) two (fun t => nth [] (coreAt t 0).queues 1 == [100] && (grp t 1).cp == 1 && (grp t 1).tl == 0) = true ∧
    after (.pcmd (.imm 0)) two (fun t => nth [] (coreAt t 0).queues 4 == [100] && (grp t 1).tl == 1) = true ∧
    after (.pclr (.imm 0) (.lit 16#32) ⟨.core, 0⟩ false) two (fun t => nth [] (coreAt t 0).queues 4 == [100]) = true ∧
    after (.bkset 5 (.v 4)) two (fun t => (smGet {} (dieAt t 0).buckets 5).armed && (smGet {} (dieAt t 0).buckets 5).total == 0x20000) = true ∧
    after .tapeMark two (fun t => (ctxAt t 0).tape == [.mark]) = true := by decide +kernel

/-- The walk of spec/24: OWNER 2, VMID 3, ASID 17, offset 0x8040602238. -/
theorem test_translation_walk :
    (let put (s : State) (a x : Nat) : State := wrBytes s (mkey 2 a) (leBytes 8 x)
     let s := put (put (put (put (put two (0x100000 + 32 * 3089) 0x4000000001) 0x4000000008 0x0000004000010001) 0x4000010008 0x0000004000020001) 0x4000020018 0x0000004000030001)
       0x4000030010 0x000000123456780F
     let t : State := { s with trblks := setNth s.trblks 2 { ctxbase := 0x100000#64 } }
     match reach t 3 17 0xFFA0008040602238#64 .read .u with
     | .page a o pa => decide (o = 2) && decide (pa = 0x1234567238) && decide (a.size = 4096)
     | _ => false) = true := by decide +kernel

/-- Words that the chapters print: `wait`, `drain.acc`, `fcopy`, `tape`, `bkset`, `coll`, `brc`. -/
theorem test_printed_words : readsAll 8
    [(0xAA0000000000FF0F, .wait 15 15 0 15), (0xAA40000000000003, .drain .acc), (0xB000450000000000, .fcopy 1 false (.v 20)), (0xB240000000000000, .tapeMark),
     (0xB200028000000000, .tapePush (.v 10)), (0xB280000000000000, .tapeUnwind), (0xB181C30000000000, .bkset 7 (.v 12)), (0xB141C38000000000, .coll 7 (.v 14)),
     (0xA8425FFFFD000000, .brc .nz (.v 9) 0xFFFFD), (0x980405006100A000, .ld .e ⟨.plain, .core⟩ (.v 16) 20 0 (op (.imm 2)))] = true := by decide +kernel


end Sys2Proof.Tests
end

section
/-! What package reset leaves (R13, R167, R317, R322, R323, R334, R344, R356, R367): the records of the tables read as their defaults. -/

namespace Sys2Proof.Machine

/-- A list of defaults reads as the default everywhere. -/
theorem nth_replicate_default {α : Type} (d : α) (n i : Nat) : nth d (List.replicate n d) i = d := by
  rw [nth_eq_getD, List.getD_eq_getElem?_getD, List.getElem?_replicate]
  split <;> rfl

theorem ctxAt_reset (n : Nat) : ctxAt State.reset n = {} := rfl

/-- The rings of a context after reset (R323, R328). -/
theorem nth_rings_reset (n p : Nat) : nth {} (ctxAt State.reset n).rings p = {} := nth_replicate_default ({} : Ring) 8 p

/-- The debug ports after reset (R358). -/
theorem portAt_reset (n k : Nat) : portAt State.reset n k = {} := nth_replicate_default ({} : Port) 4 k

/-- The translation blocks after reset (R317). -/
theorem nth_trblks_reset (o : Nat) : nth {} State.reset.trblks o = {} := nth_replicate_default ({} : TrBlk) 5 o

/-- Settles O56: no record is listed after reset, so each reads as its default; what is left are the fields of the reset state. -/
theorem resetState : Obligations.ResetState := by
  unfold Obligations.ResetState
  simp only [nth_rings_reset, portAt_reset, nth_trblks_reset]
  simp only [ctxAt_reset]
  simp [State.reset, smWf, ctxEnabled, bit]

end Sys2Proof.Machine
end

section
/-! One step runs the decoded instruction (R12, R36, R189, R52): what each stage between `step` and `exec` answers for a set that has its word. -/

namespace Sys2Proof.Machine

/-- What is done to the next state of an outcome. -/
def onNext (f : State → State) : Out → Out
  | .next t => .next (f t)
  | .fault r => .fault r
  | .refused r => .refused r

theorem onNext_onNext (f g : State → State) (o : Out) : onNext g (onNext f o) = onNext (fun t => g (f t)) o := by
  cases o <;> rfl

theorem after_eq_onNext (o : Out) : after o = onNext afterStep o := by cases o <;> rfl

/-- While the clocks run and no STOP is due, a step makes the move at the agenda's head (R368). -/
theorem step_of_agenda {s : State} {m : Move} {rest : List Move} (hs : s.stopped = false) (hd : stopDue s = false) (ha : s.agenda = m :: rest) :
    step s = runMove m { s with agenda := rest } := by
  simp [step, hs, hd, ha]

/-- The state after a pipe's turn that takes group u, whose record becomes g (R12, R101). -/
def turnTaken (s : State) (core pipe u : Nat) (g : Group) : State :=
  let s1 := modGrp (modCore s core (fun c => { c with issued := setNth c.issued pipe true })) u (fun _ => { g with lastIssue := s.cycle + 1 })
  modCore s1 core (fun c => { c with rr := setNth c.rr pipe (slotNum s1 u) })

/-- A pipe with a ready set, none of whose groups a `yield` passes over, takes the set that its order and the group's choice give. -/
theorem pipeTurn_of_chosen {s : State} {core pipe u : Nat} {x : ISet} {g : Group} (hi : nth false (coreAt s core).issued pipe = false)
    (hr : pipeReady s core pipe = true) (hg : pipeGroup s core pipe = some u) (hp : passedOver s core pipe = [])
    (hc : chooseSet (grp s u) (pipeSets s core pipe u) = some (x, g)) :
    pipeTurn s core pipe = some (turnTaken s core pipe u g, some (u, x)) := by
  simp [pipeTurn, hi, hr, hg, hp, hc, turnTaken]

/-- A valid word whose features are accepted runs as its instruction (R36, R325). -/
theorem runWord_of_valid {s : State} {m : Mode} {w : IWord} {i : Instr} (hv : w.st = .valid) (hd : decodeExact w.bytes = .ok i)
    (hl : lacks s i = none) : runWord s m w = runInstr s i := by
  simp [runWord, hv, hd, hl]

theorem wordInstr_of_valid {w : IWord} {i : Instr} (hv : w.st = .valid) (hd : decodeExact w.bytes = .ok i) : wordInstr w = some i := by
  simp [wordInstr, hv, hd]

/-- The stream elements that a set has to send for before it runs an instruction (R52). -/
def dueSends (s : State) (i : Instr) : List ReadReq :=
  streamSends s s.cur.uid s.cur.lanes (srcs (longForm i)) (readsT (longForm i)) s.fresh

/-- The elements that came are no longer awaited. -/
def endFlight (s : State) (u : Nat) (ls : List Nat) : State :=
  if ls.any (fun l => !(lane s u l).qgot.isEmpty) then modLanes s u ls (fun _ ln => { ln with flight := none }) else s

/-- An instruction with every stream element at hand has its effect, and the elements that came are used up. -/
theorem runInstr_of_no_sends {s : State} {i : Instr} (h : dueSends s i = []) :
    runInstr s i = onNext (fun t => dropGot t s.cur.uid s.cur.lanes)
      (exec i (meetMarks (endFlight s s.cur.uid s.cur.lanes) s.cur.uid s.cur.lanes (longForm i))) := by
  unfold dueSends at h
  simp only [runInstr, takeFresh, h]
  change (match exec i (meetMarks (endFlight s s.cur.uid s.cur.lanes) s.cur.uid s.cur.lanes (longForm i)) with
    | .next t => Host.Outcome.next (dropGot t s.cur.uid s.cur.lanes)
    | r => r) = _
  cases exec i (meetMarks (endFlight s s.cur.uid s.cur.lanes) s.cur.uid s.cur.lanes (longForm i)) <;> rfl

/-- An instruction that lacks stream elements sends for them. -/
theorem runInstr_of_sends {s : State} {i : Instr} (h : dueSends s i ≠ []) :
    runInstr s i = .next (sendStreams { s with fresh := s.fresh + 1 } (dueSends s i) s.fresh) := by
  unfold dueSends at h ⊢
  simp only [runInstr, takeFresh]

/-- The current set of an issue. -/
def withCur (s : State) (u : Nat) (x : ISet) (w : IWord) : State := { s with cur := ⟨u, x.lanes, x.pc, w.bytes.length⟩ }

/-- A set that has its word, valid and accepted, runs the instruction and notes the reconvergence point of a transfer (R193). -/
theorem issueSet_of_valid {s : State} {u : Nat} {x : ISet} {w : IWord} {i : Instr} (hw : setWord s u x = some w) (hv : w.st = .valid)
    (hd : decodeExact w.bytes = .ok i) (hl : lacks s i = none) :
    issueSet s u x = onNext (fun t => recordPoint t u x i (setHeader s u x)) (runInstr (withCur s u x w) i) := by
  have hrun : runWord (withCur s u x w) x.mode w = runInstr (withCur s u x w) i := runWord_of_valid hv hd hl
  unfold withCur at hrun ⊢
  simp only [issueSet, hw, hrun, wordInstr_of_valid hv hd]
  cases runInstr { s with cur := ⟨u, x.lanes, x.pc, w.bytes.length⟩ } i <;> rfl

/-- A step whose move is the issue of a pipe, for a set that has its word. -/
theorem step_of_issue {s : State} {rest : List Move} {core pipe u : Nat} {x : ISet} {g : Group} {w : IWord} {i : Instr}
    (hs : s.stopped = false) (hdue : stopDue s = false) (ha : s.agenda = .issue core pipe :: rest)
    (hi : nth false (coreAt s core).issued pipe = false) (hr : pipeReady { s with agenda := rest } core pipe = true)
    (hg : pipeGroup { s with agenda := rest } core pipe = some u) (hp : passedOver { s with agenda := rest } core pipe = [])
    (hc : chooseSet (grp { s with agenda := rest } u) (pipeSets { s with agenda := rest } core pipe u) = some (x, g))
    (hw : setWord (turnTaken { s with agenda := rest } core pipe u g) u x = some w) (hv : w.st = .valid) (hd : decodeExact w.bytes = .ok i)
    (hl : lacks s i = none) :
    step s = onNext (fun t => afterStep (recordPoint t u x i (setHeader (turnTaken { s with agenda := rest } core pipe u g) u x)))
      (runInstr (withCur (turnTaken { s with agenda := rest } core pipe u g) u x w) i) := by
  have hturn : pipeTurn { s with agenda := rest } core pipe = some (turnTaken { s with agenda := rest } core pipe u g, some (u, x)) :=
    pipeTurn_of_chosen hi hr hg hp hc
  have hset := issueSet_of_valid (s := turnTaken { s with agenda := rest } core pipe u g) hw hv hd hl
  rw [step_of_agenda hs hdue ha, runMove, after_eq_onNext, issueStep, hturn]
  simp only [hset, onNext_onNext]

/-- A step whose move is an event of the agenda is its meaning, then what follows every step. -/
theorem step_of_event {s : State} {rest : List Move} {i : Instr} (hs : s.stopped = false) (hdue : stopDue s = false)
    (ha : s.agenda = .event i :: rest) (he : isEvent i = true) : step s = onNext afterStep (exec i { s with agenda := rest }) := by
  rw [step_of_agenda hs hdue ha, ← after_eq_onNext]
  simp [runMove, he]

/-- Settles O58: `step_of_issue` brings the step down to `runInstr`, whose two cases are those of the stream elements that are due. -/
theorem stepRunsDecoded : Obligations.StepRunsDecoded := by
  unfold Obligations.StepRunsDecoded
  intro s rest hs hdue s0
  constructor
  · intro core pipe u x g w i ha hi hr hp1 hp hc g1 s1 s2 hw hv hd hl s3 ends sends s4
    have hstep : step s = onNext ends (runInstr s3 i) := step_of_issue hs hdue ha hi hr hp1 hp hc hw hv hd hl
    constructor
    · intro hnone
      rw [hstep, runInstr_of_no_sends (s := s3) hnone, onNext_onNext]
      change onNext (fun t => ends (dropGot t u x.lanes)) (exec i (meetMarks s4 u x.lanes (longForm i))) = _
      cases exec i (meetMarks s4 u x.lanes (longForm i)) <;> rfl
    · intro hsome
      rw [hstep, runInstr_of_sends (s := s3) hsome]
      rfl
  · intro i ha he
    rw [step_of_event hs hdue ha he]
    cases exec i s0 <;> rfl

end Sys2Proof.Machine
end

section
/-! Lemmas of the operations that the host link makes: filters of memory and tables, ports and their rings, pre-emption. -/

namespace Sys2Proof.Machine

/-! ### Filters and maps by key -/

theorem smGet_filter_key {α : Type} (d : α) (m : SMap α) (p : Nat → Bool) (k : Nat) :
    smGet d (m.filter (fun c => p c.1)) k = if p k then smGet d m k else d := by
  induction m with
  | nil => simp [smGet]
  | cons c r ih =>
    obtain ⟨i, v⟩ := c
    by_cases hi : i = k
    · subst hi
      by_cases hp : p i <;> simp [smGet, hp, ih]
    · by_cases hp : p i <;> simp [smGet, hp, hi, ih]

theorem tGet?_filter_key {α : Type} (m : Table α) (p : Nat → Bool) (k : Nat) :
    tGet? (m.filter (fun c => p c.1)) k = if p k then tGet? m k else none := by
  induction m with
  | nil => simp [tGet?]
  | cons c r ih =>
    obtain ⟨i, v⟩ := c
    by_cases hi : i = k
    · subst hi
      by_cases hp : p i <;> simp [tGet?, hp, ih]
    · by_cases hp : p i <;> simp [tGet?, hp, hi, ih]

/-- A change of the entries that keeps their keys: what is listed under a key is changed. -/
theorem smGet_map_of_ne {α : Type} (d : α) (m : SMap α) (f : Nat × α → Nat × α) (hf : ∀ c, (f c).1 = c.1) (k : Nat)
    (h : smGet d m k ≠ d) : smGet d (m.map f) k = (f (k, smGet d m k)).2 := by
  induction m with
  | nil => simp [smGet] at h
  | cons c r ih =>
    obtain ⟨i, v⟩ := c
    have hkey : (f (i, v)).1 = i := hf (i, v)
    by_cases hi : i = k
    · subst hi
      simp [smGet, hkey]
    · simp only [smGet, hi, if_false] at h ⊢
      simpa [smGet, hkey, hi] using ih h

/-- Host memory alone: the dies' bytes read 0 (assumption 4). -/
theorem smGet_hostCells (m : List Host.Cell) (k : Nat) :
    smGet memDefault (hostCells m) k = if 4 * 2 ^ 52 ≤ k then smGet memDefault m k else 0 := by
  have h := smGet_filter_key memDefault m (fun i => decide (4 * 2 ^ 52 ≤ i)) k
  simpa [hostCells, memDefault] using h

theorem rdByte_hostCells (s : State) {t : State} (h : t.mem = hostCells s.mem) (k : Nat) :
    rdByte t k = if 4 * 2 ^ 52 ≤ k then rdByte s k else 0 := by
  rw [rdByte, h, smGet_hostCells, rdByte]

/-! ### Little-endian fields -/

theorem rdBytes_drop (s : State) (k m i : Nat) : (rdBytes s k m).drop i = rdBytes s (k + i) (m - i) := by
  induction i generalizing k m with
  | zero => rfl
  | succ i ih =>
    cases m with
    | zero => simp [rdBytes]
    | succ m => rw [rdBytes, List.drop_succ_cons, ih, Nat.add_right_comm, Nat.add_sub_add_right, Nat.add_assoc]

theorem rdBytes_take (s : State) (k m n : Nat) (h : n ≤ m) : (rdBytes s k m).take n = rdBytes s k n := by
  induction n generalizing k m with
  | zero => simp [rdBytes]
  | succ n ih =>
    obtain ⟨m, rfl⟩ : ∃ q, m = q + 1 := ⟨m - 1, by omega⟩
    rw [rdBytes, List.take_succ_cons, ih _ _ (by omega), rdBytes]

/-- A field of a record that lies in memory. -/
theorem rdNat_of_rdBytes {s : State} {k m : Nat} {bs : List Byte} (h : rdBytes s k m = bs) (i n : Nat) (hn : i + n ≤ m) :
    rdNat s (k + i) n = fld bs i n := by
  rw [fld, ← h, rdBytes_drop, rdBytes_take _ _ _ _ (by omega), rdNat]

theorem rdBytes_congr {s t : State} {k n : Nat} (h : ∀ j, k ≤ j → j < k + n → rdByte t j = rdByte s j) : rdBytes t k n = rdBytes s k n := by
  rw [rdBytes_eq_map, rdBytes_eq_map]
  exact List.map_congr_left (fun i hi => h (k + i) (by omega) (by have := List.mem_range.1 hi; omega))

theorem leNat_append (a b : List Byte) : leNat (a ++ b) = leNat a + 256 ^ a.length * leNat b := by
  induction a with
  | nil => simp [leNat]
  | cons x t ih =>
    rw [List.cons_append, leNat, leNat, ih, List.length_cons, pow_succ']
    ring

theorem leNat_lt (bs : List Byte) : leNat bs < 256 ^ bs.length := by
  induction bs with
  | nil => simp [leNat]
  | cons x t ih =>
    rw [leNat, List.length_cons, pow_succ']
    omega

/-! ### Ports and their rings (R358, R364, R366) -/

theorem portAt_modPort (s : State) (c k n j : Nat) (f : Port → Port) :
    portAt (modPort s c k f) n j = if c = n ∧ k = j ∧ k < (ctxAt s c).ports.length then f (portAt s n j) else portAt s n j := by
  unfold portAt modPort
  rw [ctxAt_modCtx]
  by_cases hc : c = n
  · subst hc
    simp [nth_modNth]
  · simp [hc]

/-- A change of a port that keeps its session keeps every port's. -/
theorem session_modPort (s : State) (c k n j : Nat) (f : Port → Port) (hf : ∀ p, (f p).session = p.session) :
    (portAt (modPort s c k f) n j).session = (portAt s n j).session := by
  rw [portAt_modPort]
  split
  · exact hf _
  · rfl

theorem session_putRecord (s : State) (c k : Nat) (r : List Byte) (n j : Nat) :
    (portAt (putRecord s c k r) n j).session = (portAt s n j).session :=
  session_modPort (wrBytes s _ r) c k n j (fun p => { p with trtail := p.trtail + 1 }) (fun _ => rfl)

theorem session_sendRecord (s : State) (c k : Nat) (r : List Byte) (n j : Nat) :
    (portAt (sendRecord s c k r) n j).session = (portAt s n j).session := by
  have hlost (t : State) (x : Nat) : (portAt (modPort t c k (fun p => { p with lost := x })) n j).session = (portAt t n j).session :=
    session_modPort t c k n j _ (fun _ => rfl)
  have hdrop (t : State) : (portAt (modPort t c k (fun p => { p with trdrop := p.trdrop + 1, lost := p.lost + 1 })) n j).session =
      (portAt t n j).session := session_modPort t c k n j _ (fun _ => rfl)
  unfold sendRecord
  split
  · dsimp only
    split <;> split
    · rw [session_putRecord, hlost, session_putRecord]
    · rw [hdrop, hlost, session_putRecord]
    · rw [session_putRecord]
    · rw [hdrop]
  · rfl

/-- t is s but for memory and the contexts' records: what a record in a trace ring may change. -/
def RingsOnly (s t : State) : Prop := { t with mem := s.mem, ctxs := s.ctxs } = s

theorem RingsOnly.refl (s : State) : RingsOnly s s := rfl

theorem RingsOnly.trans {s t u : State} (h1 : RingsOnly s t) (h2 : RingsOnly t u) : RingsOnly s u := by
  have h : ({ u with mem := s.mem, ctxs := s.ctxs } : State) = { t with mem := s.mem, ctxs := s.ctxs } :=
    congrArg (fun a : State => { a with mem := s.mem, ctxs := s.ctxs }) h2
  exact Eq.trans h h1

theorem RingsOnly.groups {s t : State} (h : RingsOnly s t) : t.groups = s.groups := (congrArg State.groups h :)
theorem RingsOnly.cores {s t : State} (h : RingsOnly s t) : t.cores = s.cores := (congrArg State.cores h :)
theorem RingsOnly.gtick {s t : State} (h : RingsOnly s t) : t.gtick = s.gtick := (congrArg State.gtick h :)

theorem ringsOnly_modPort (s : State) (c k : Nat) (f : Port → Port) : RingsOnly s (modPort s c k f) := rfl

theorem ringsOnly_putRecord (s : State) (c k : Nat) (r : List Byte) : RingsOnly s (putRecord s c k r) := rfl

theorem ringsOnly_sendRecord (s : State) (c k : Nat) (r : List Byte) : RingsOnly s (sendRecord s c k r) := by
  unfold sendRecord
  split
  · dsimp only
    split <;> split
    · exact ((ringsOnly_putRecord ..).trans (ringsOnly_modPort ..)).trans (ringsOnly_putRecord ..)
    · exact ((ringsOnly_putRecord ..).trans (ringsOnly_modPort ..)).trans (ringsOnly_modPort ..)
    · exact ringsOnly_putRecord ..
    · exact ringsOnly_modPort ..
  · exact .refl s

theorem ringsOnly_endSession (s : State) (c k : Nat) (r : List Byte) : RingsOnly s (endSession s c k r) := by
  unfold endSession
  split
  · exact (ringsOnly_sendRecord ..).trans (ringsOnly_modPort ..)
  · exact .refl s

/-- A port beyond the list reads as one without a session: a port with one is listed. -/
theorem lt_length_of_session {s : State} {c k : Nat} (h : (portAt s c k).session = true) : k < (ctxAt s c).ports.length := by
  by_contra hk
  have hnth : portAt s c k = {} := by
    rw [portAt, nth_eq_getD, List.getD_eq_default _ _ (by omega)]
  rw [hnth] at h
  exact Bool.noConfusion h

/-- The session that ends is closed, and no other opens. -/
theorem session_endSession (s : State) (c k : Nat) (r : List Byte) (j : Nat) :
    (portAt (endSession s c k r) c j).session = if k = j then false else (portAt s c j).session := by
  unfold endSession
  by_cases h : (portAt s c k).session = true
  · have hlen : k < (ctxAt (sendRecord s c k r) c).ports.length := lt_length_of_session ((session_sendRecord s c k r c k).trans h)
    rw [if_pos h, portAt_modPort]
    by_cases hj : k = j
    · simp [hj, hj ▸ hlen]
    · simp [hj, session_sendRecord]
  · rw [if_neg h]
    by_cases hj : k = j
    · subst hj
      simpa using h
    · simp [hj]

theorem truncateAll_foldl (s : State) (c cause : Nat) (ks : List Nat) :
    let t := ks.foldl (fun s k => endSession s c k (traceRecord s.gtick 5 0 0xFFFF 0 cause 0)) s
    RingsOnly s t ∧ ∀ j, (portAt t c j).session = if j ∈ ks then false else (portAt s c j).session := by
  induction ks generalizing s with
  | nil => exact ⟨.refl s, fun j => by simp⟩
  | cons k t ih =>
    obtain ⟨hrest, hsess⟩ := ih (endSession s c k (traceRecord s.gtick 5 0 0xFFFF 0 cause 0))
    refine ⟨(ringsOnly_endSession ..).trans hrest, fun j => ?_⟩
    rw [List.foldl_cons, hsess j, session_endSession]
    by_cases hj : k = j
    · simp [hj]
    · simp [Ne.symm hj, hj]

theorem ringsOnly_truncateAll (s : State) (c cause : Nat) : RingsOnly s (truncateAll s c cause) := (truncateAll_foldl s c cause _).1

theorem session_truncateAll (s : State) (c cause k : Nat) (hk : k < 4) : (portAt (truncateAll s c cause) c k).session = false := by
  rw [truncateAll, (truncateAll_foldl s c cause _).2 k, if_pos (List.mem_range.2 hk)]

/-! ### Pre-emption (R304) -/

@[simp] theorem ctxAt_preemptOn (s : State) (ctx n : Nat) (p : Core → Bool) : ctxAt (preemptOn s ctx p) n = ctxAt s n := rfl
@[simp] theorem portAt_preemptOn (s : State) (ctx n k : Nat) (p : Core → Bool) : portAt (preemptOn s ctx p) n k = portAt s n k := rfl
@[simp] theorem groups_preemptOn (s : State) (ctx : Nat) (p : Core → Bool) : (preemptOn s ctx p).groups = s.groups := rfl

/-- Pre-emption begins on a core that runs the context, is not being pre-empted and passes the test. -/
theorem coreAt_preemptOn {s : State} {ctx k : Nat} {p : Core → Bool} (hc : (coreAt s k).ctx = some ctx) (hp : (coreAt s k).preempt = none)
    (ht : p (coreAt s k) = true) : coreAt (preemptOn s ctx p) k = { coreAt s k with preempt := some s.gtick.toNat } := by
  have hne : smGet {} s.cores k ≠ ({} : Core) := by
    intro h
    rw [coreAt, h] at hc
    cases hc
  refine (smGet_map_of_ne {} s.cores _ (fun c => ?_) k hne).trans ?_
  · split <;> rfl
  · rw [if_pos ⟨hc, hp, ht⟩]
    rfl

end Sys2Proof.Machine
end

section
/-! The host link (R13, R322, R323, R333 to R335, R366): what each of its events answers. -/

namespace Sys2Proof.Machine

/-! ### Bring-up (R334) -/

/-- Package reset leaves the host's memory, and beside it only what the model counts by. -/
theorem packageReset_keeps_host (s : State) : ∃ t, exec .packageReset s = .next t ∧
    { t with mem := [], agenda := [], choices := 0, free := 0 } = State.reset ∧
      ∀ k, rdByte t k = if 4 * 2 ^ 52 ≤ k then rdByte s k else 0 :=
  ⟨{ State.reset with mem := hostCells s.mem, agenda := s.agenda, choices := s.choices, free := s.free }, rfl, rfl, rdByte_hostCells s rfl⟩

theorem fwcmdWrite_one (s : State) : fwcmdWrite s 1 = if s.pkg = .linkup then { s with pkg := .firmware, fwcmd := 1 } else s := by
  simp [fwcmdWrite]

/-- Another value of FWCMD starts nothing. -/
theorem fwcmdWrite_ne_one {s : State} {x : W32} (hp : s.pkg = .linkup) (hx : x ≠ 1) : fwcmdWrite s x = { s with fwcmd := x } := by
  rw [fwcmdWrite, if_pos hp, if_neg hx, ← hp]

theorem firmwareVerified_answer (s : State) (f : Fin 3) : exec (.firmwareVerified f) s =
    .next (if s.pkg = .firmware then (if f = 0 then { s with pkg := .meminit } else { s with pkg := .failed, failCode := f.val }) else s) := by
  change Host.Outcome.next (if s.pkg ≠ .firmware then s else if f.val = 0 then { s with pkg := .meminit } else failPkg s f.val) = _
  by_cases hp : s.pkg = .firmware
  · by_cases hf : f = 0
    · simp [hp, hf]
    · have hv : f.val ≠ 0 := fun h => hf (Fin.ext h)
      simp [hp, hf, hv, failPkg]
  · simp [hp]

/-- MEMORY_INIT_DONE comes to nothing but in MEMINIT, and fails where a stack does not answer or no core works (R334). -/
theorem memoryInitDone_ignored {s : State} {cores : BitVec 192} {answer : Bool} (hp : s.pkg ≠ .meminit) :
    exec (.memoryInitDone cores answer) s = .next s := congrArg Host.Outcome.next (if_pos hp)

theorem memoryInitDone_no_answer {s : State} {cores : BitVec 192} {answer : Bool} (hp : s.pkg = .meminit) (ha : answer = false) :
    exec (.memoryInitDone cores answer) s = .next { s with pkg := .failed, failCode := 3 } := by
  simp [exec, execMemoryInitDone, hp, ha, failPkg]

theorem memoryInitDone_no_core {s : State} {cores : BitVec 192} {answer : Bool} (hp : s.pkg = .meminit) (ha : answer = true) (hc : cores = 0) :
    exec (.memoryInitDone cores answer) s = .next { s with pkg := .failed, failCode := 4 } := by
  simp [exec, execMemoryInitDone, hp, ha, hc, failPkg]

/-- The dies' memory is 0 and of class PROOF once memory is initialised (R334, R339). -/
theorem memoryInitDone_ready {s : State} {cores : BitVec 192} {answer : Bool} (hp : s.pkg = .meminit) (ha : answer = true) (hc : cores ≠ 0) :
    ∃ t, exec (.memoryInitDone cores answer) s = .next t ∧ t.pkg = .ready ∧ t.coremap = cores ∧
      (∀ k, rdByte t k = if 4 * 2 ^ 52 ≤ k then rdByte s k else 0) ∧ (∀ k, k < 4 * 2 ^ 52 → byteClassOf t k = .proof) ∧
        ∀ p ∈ t.poison, 4 * 2 ^ 52 ≤ p.1 := by
  refine ⟨_, by simp only [exec, execMemoryInitDone, hp, ha, hc]; rfl, rfl, rfl, rdByte_hostCells s rfl, fun k hk => ?_, fun p h => ?_⟩
  · have hbyte := tGet?_filter_key s.byteClass (fun i => decide (4 * 2 ^ 52 ≤ i)) k
    have hframe := smGet_filter_key RClass.proof s.frameClass (fun i => decide (2 ^ 42 ≤ i)) (k / 4096)
    rw [if_neg (by simp; omega)] at hbyte hframe
    exact (congrArg₂ Option.getD hbyte hframe)
  · simpa using (List.mem_filter.1 h).2

/-! ### Contexts (R310, R323) -/

/-- CTXCTL written with ENABLE clear. -/
theorem ctxctlMask_clear (x : W32) : x &&& ctxctlMask &&& 0x7FFFFFFF#32 = x &&& 0xFFFF#32 := by
  rw [ctxctlMask, BitVec.and_assoc]
  rfl

/-- Where an owner's table has the entry of a context (R310). -/
def ctxEntryKey (s : State) (vmid asid o : Nat) : Nat := mkey o ((nth {} s.trblks o).ctxbase.toNat + 32 * (vmid * 1024 + asid))

/-- The Foreman writes a context's entry at one key. -/
def putCtxEntry (key : Nat → Nat) (s : State) (o : Nat) : State :=
  wrBytes { s with free := s.free + 26, poison := unpoison s.poison (key o) 32 } (key o) (ctxEntry s)

theorem putCtxEntries_eq_foldl (s : State) (vmid asid : Nat) :
    putCtxEntries s vmid asid = (List.range 5).foldl (putCtxEntry (ctxEntryKey s vmid asid)) s := by
  suffices h : ∀ (os : List Nat) (t : State), t.trblks = s.trblks →
      os.foldl (fun t o => putCtxEntry (ctxEntryKey t vmid asid) t o) t = os.foldl (putCtxEntry (ctxEntryKey s vmid asid)) t from
    h (List.range 5) s rfl
  intro os
  induction os with
  | nil => exact fun _ _ => rfl
  | cons o os ih =>
    intro t ht
    have hkey : ctxEntryKey t vmid asid = ctxEntryKey s vmid asid := by
      unfold ctxEntryKey
      rw [ht]
    rw [List.foldl_cons, List.foldl_cons, hkey]
    exact ih _ ht

/-- What R310 says of the fields of a context's entry: VALID and aligned roots, at most 4,096 regions, reserved bits 0. -/
structure EntryFields (bs : List Byte) : Prop where
  root : fld bs 0 8 % 2 ^ 16 < 2 ∧ fld bs 0 8 < 2 ^ 52
  stage2 : fld bs 8 8 % 2 ^ 16 = 0 ∧ fld bs 8 8 < 2 ^ 52
  regions : fld bs 16 8 < 2 ^ 52
  count : fld bs 24 2 ≤ 4096
  reserved : fld bs 26 6 = 0

theorem length_ctxEntry (s : State) : (ctxEntry s).length = 32 := by simp [ctxEntry, leBytes]

/-- A doubleword whose last two bytes are a half byte and 0 lies below 2^52. -/
theorem fld_lt_of_top {bs : List Byte} {i : Nat} {b : Byte} (h : (bs.drop i).take 8 = (bs.drop i).take 6 ++ [b &&& 0xF#8, 0#8]) :
    fld bs i 8 < 2 ^ 52 := by
  have hlen : ((bs.drop i).take 6).length ≤ 6 := by simp
  have hlow : leNat ((bs.drop i).take 6) < 256 ^ ((bs.drop i).take 6).length := leNat_lt _
  have htop : leNat [b &&& 0xF#8, 0#8] ≤ 15 := by
    have : b.toNat &&& 15 ≤ 15 := Nat.and_le_right
    simpa [leNat] using this
  have hpow : 256 ^ ((bs.drop i).take 6).length ≤ 256 ^ 6 := Nat.pow_le_pow_right (by omega) hlen
  calc fld bs i 8 = leNat ((bs.drop i).take 6) + 256 ^ ((bs.drop i).take 6).length * leNat [b &&& 0xF#8, 0#8] := by rw [fld, h, leNat_append]
    _ ≤ leNat ((bs.drop i).take 6) + 256 ^ 6 * 15 := by gcongr
    _ < 2 ^ 52 := by omega

theorem ctxEntry_fields (s : State) : EntryFields (ctxEntry s) where
  root := ⟨by simp [ctxEntry, fld, leNat]; omega, fld_lt_of_top (b := Config.freeByte (s.free + 6)) rfl⟩
  stage2 := ⟨by simp [ctxEntry, List.range_succ, fld, leNat]; omega, fld_lt_of_top (b := Config.freeByte (s.free + 14)) rfl⟩
  regions := fld_lt_of_top (b := Config.freeByte (s.free + 22)) rfl
  count := by simp [ctxEntry, List.range_succ, fld, leNat, leBytes]; omega
  reserved := by simp [ctxEntry, List.range_succ, fld, leNat, leBytes]

/-- The fields of an entry that lies in memory. -/
theorem rdNat_of_entryFields {t : State} {k : Nat} (h : EntryFields (rdBytes t k 32)) :
    rdNat t k 8 % 2 ^ 16 < 2 ∧ rdNat t k 8 < 2 ^ 52 ∧ rdNat t (k + 8) 8 % 2 ^ 16 = 0 ∧ rdNat t (k + 8) 8 < 2 ^ 52 ∧ rdNat t (k + 16) 8 < 2 ^ 52 ∧
      rdNat t (k + 24) 2 ≤ 4096 ∧ rdNat t (k + 26) 6 = 0 := by
  have hf (i n : Nat) (hn : i + n ≤ 32) : rdNat t (k + i) n = fld (rdBytes t k 32) i n := rdNat_of_rdBytes rfl i n hn
  have hf0 : rdNat t k 8 = fld (rdBytes t k 32) 0 8 := hf 0 8 (by omega)
  rw [hf0, hf 8 8 (by omega), hf 16 8 (by omega), hf 24 2 (by omega), hf 26 6 (by omega)]
  exact ⟨h.root.1, h.root.2, h.stage2.1, h.stage2.2, h.regions, h.count, h.reserved⟩

theorem rdByte_putCtxEntry_other {key : Nat → Nat} {s : State} {o j : Nat} (h : j < key o ∨ key o + 32 ≤ j) :
    rdByte (putCtxEntry key s o) j = rdByte s j :=
  rdByte_wrBytes_other _ _ _ _ (by rwa [length_ctxEntry])

theorem rdByte_putCtxEntries_other {key : Nat → Nat} {os : List Nat} {s : State} {j : Nat} (h : ∀ o ∈ os, j < key o ∨ key o + 32 ≤ j) :
    rdByte (os.foldl (putCtxEntry key) s) j = rdByte s j := by
  induction os generalizing s with
  | nil => rfl
  | cons o t ih =>
    rw [List.foldl_cons, ih (fun q hq => h q (by simp [hq])), rdByte_putCtxEntry_other (h o (by simp))]

/-- Entries that do not overlap stand where they were written. -/
theorem entryFields_putCtxEntries {key : Nat → Nat} {os : List Nat} {s : State} (hn : os.Nodup)
    (hk : ∀ o ∈ os, ∀ q ∈ os, o ≠ q → key o + 32 ≤ key q ∨ key q + 32 ≤ key o) {o : Nat} (ho : o ∈ os) :
    EntryFields (rdBytes (os.foldl (putCtxEntry key) s) (key o) 32) := by
  induction os generalizing s with
  | nil => simp at ho
  | cons q t ih =>
    obtain ⟨hq, ht⟩ := List.nodup_cons.1 hn
    rw [List.foldl_cons]
    rcases List.mem_cons.1 ho with rfl | ho
    · have hkeep : rdBytes (t.foldl (putCtxEntry key) (putCtxEntry key s o)) (key o) 32 = rdBytes (putCtxEntry key s o) (key o) 32 := by
        refine rdBytes_congr (fun j h1 h2 => rdByte_putCtxEntries_other (fun p hp => ?_))
        have := hk o (by simp) p (by simp [hp]) (fun h => hq (h ▸ hp))
        omega
      have hnew : rdBytes (putCtxEntry key s o) (key o) 32 = ctxEntry s := by
        rw [← length_ctxEntry s]
        exact rdBytes_wrBytes _ _ _
      rw [hkeep, hnew]
      exact ctxEntry_fields s
    · exact ih ht (fun a ha b hb => hk a (by simp [ha]) b (by simp [hb])) ho

/-- The entries of two owners lie apart. -/
theorem ctxEntryKey_apart {s : State} {vmid asid o q : Nat} (ho : (nth {} s.trblks o).ctxbase.toNat % 2 ^ 16 = 0)
    (hq : (nth {} s.trblks q).ctxbase.toNat % 2 ^ 16 = 0) (h : o ≠ q) :
    ctxEntryKey s vmid asid o + 32 ≤ ctxEntryKey s vmid asid q ∨ ctxEntryKey s vmid asid q + 32 ≤ ctxEntryKey s vmid asid o := by
  unfold ctxEntryKey mkey
  omega

/-- The entries are in memory: nothing else of a context or a group changes with them. -/
theorem putCtxEntries_rest (s : State) (vmid asid : Nat) :
    (putCtxEntries s vmid asid).groups = s.groups ∧ (putCtxEntries s vmid asid).ctxs = s.ctxs := by
  rw [putCtxEntries_eq_foldl]
  generalize ctxEntryKey s vmid asid = key
  induction List.range 5 generalizing s with
  | nil => exact ⟨rfl, rfl⟩
  | cons o os ih => exact ih (putCtxEntry key s o)

/-- CTXCTL without its reserved bits gives ASID and VMID as they were written (R323). -/
theorem asid_of_ctxctl (x : W32) : bits (x &&& ctxctlMask).toNat 9 0 = x.toNat % 2 ^ 10 := by
  have h : (x &&& ctxctlMask).toNat % 2 ^ 10 = x.toNat % 2 ^ 10 := by
    have : (x &&& ctxctlMask).setWidth 10 = x.setWidth 10 := by
      rw [BitVec.setWidth_and, show ctxctlMask.setWidth 10 = BitVec.allOnes 10 from rfl, BitVec.and_allOnes]
    simpa only [BitVec.toNat_setWidth] using congrArg BitVec.toNat this
  simpa [bits] using h

theorem vmid_of_ctxctl (x : W32) : bits (x &&& ctxctlMask).toNat 15 10 = x.toNat / 2 ^ 10 % 2 ^ 6 := by
  have h : (x &&& ctxctlMask).toNat / 2 ^ 10 % 2 ^ 6 = x.toNat / 2 ^ 10 % 2 ^ 6 := by
    have : (x &&& ctxctlMask).extractLsb' 10 6 = x.extractLsb' 10 6 := by
      rw [BitVec.extractLsb'_and, show ctxctlMask.extractLsb' 10 6 = BitVec.allOnes 6 from rfl, BitVec.and_allOnes]
    simpa [Nat.shiftRight_eq_div_pow] using congrArg BitVec.toNat this
  simpa [bits] using h

/-- A context written with ENABLE set, with its ASID and VMID as they are loaded, before its entries are put. -/
def ctxLoaded (s : State) (ctx : Nat) (x : W32) : State :=
  modCtx (modCtx (forgetCtx s ctx) ctx (fun c => { c with ctxctl := x &&& ctxctlMask })) ctx
    (fun c => { c with asid := x.toNat % 2 ^ 10, vmid := x.toNat / 2 ^ 10 % 2 ^ 6 })

theorem ctxAt_ctxLoaded (s : State) (ctx : Nat) (x : W32) : ctxAt (ctxLoaded s ctx x) ctx =
    { ctxAt s ctx with ctxctl := x &&& ctxctlMask, asid := x.toNat % 2 ^ 10, vmid := x.toNat / 2 ^ 10 % 2 ^ 6 } := by
  rw [ctxLoaded, ctxAt_modCtx, if_pos rfl, ctxAt_modCtx, if_pos rfl]
  rfl

theorem contextEnable_ignored {s : State} {ctx : Nat} {x : W32} (h : s.pkg ≠ .ready ∨ 1024 ≤ ctx ∨ bit x.toNat 31 = false) :
    exec (.contextEnable ctx x) s = .next s := congrArg Host.Outcome.next (if_pos h)

/-- A rewrite of CTXCTL changes the register alone (assumption 45). -/
theorem contextEnable_of_enabled {s : State} {ctx : Nat} {x : W32} (hp : s.pkg = .ready) (hn : ctx < 1024) (hx : bit x.toNat 31 = true)
    (he : ctxEnabled (ctxAt s ctx) = true) :
    exec (.contextEnable ctx x) s = .next (modCtx s ctx (fun c => { c with ctxctl := x &&& 0x8000FFFF#32 })) := by
  simp [exec, execContextEnable, hp, hx, he, Nat.not_le.2 hn, ctxctlMask]

theorem contextEnable_of_disabled {s : State} {ctx : Nat} {x : W32} (hp : s.pkg = .ready) (hn : ctx < 1024) (hx : bit x.toNat 31 = true)
    (hd : ctxEnabled (ctxAt s ctx) = false) :
    exec (.contextEnable ctx x) s = .next (putCtxEntries (ctxLoaded s ctx x) (x.toNat / 2 ^ 10 % 2 ^ 6) (x.toNat % 2 ^ 10)) := by
  have hset : (ctxAt (modCtx (forgetCtx s ctx) ctx (fun c => { c with ctxctl := x &&& ctxctlMask })) ctx).ctxctl = x &&& ctxctlMask := by
    rw [ctxAt_modCtx, if_pos rfl]
  have hcond : ¬(s.pkg ≠ .ready ∨ 1024 ≤ ctx ∨ bit x.toNat 31 = false) := by simp [hp, hx, hn]
  simp only [exec, execContextEnable, if_neg hcond, hd, loadCtx, hset, asid_of_ctxctl, vmid_of_ctxctl]
  rfl

/-- CONTEXT_ENABLE of a context that was disabled: it is loaded, with its entry at every owner (R310). -/
theorem contextEnable_loads {s : State} {ctx : Nat} {x : W32} (hp : s.pkg = .ready) (hn : ctx < 1024) (hx : bit x.toNat 31 = true)
    (hd : ctxEnabled (ctxAt s ctx) = false) (hb : ∀ o, o < 5 → (nth {} s.trblks o).ctxbase.toNat % 2 ^ 16 = 0) :
    let asid := x.toNat % 2 ^ 10
    let vmid := x.toNat / 2 ^ 10 % 2 ^ 6
    let entry := ctxEntryKey s vmid asid
    ∃ t, exec (.contextEnable ctx x) s = .next t ∧
      ctxAt t ctx = { ctxAt s ctx with ctxctl := x &&& 0x8000FFFF#32, asid := asid, vmid := vmid } ∧ t.groups = s.groups ∧
      (∀ o, o < 5 → EntryFields (rdBytes t (entry o) 32)) ∧
        ∀ j, (∀ o, o < 5 → j < entry o ∨ entry o + 32 ≤ j) → rdByte t j = rdByte s j := by
  intro asid vmid entry
  have hkey : ctxEntryKey (ctxLoaded s ctx x) vmid asid = entry := rfl
  obtain ⟨hgroups, hctxs⟩ := putCtxEntries_rest (ctxLoaded s ctx x) vmid asid
  refine ⟨_, contextEnable_of_disabled hp hn hx hd, ?_, hgroups, fun o ho => ?_, fun j hj => ?_⟩
  · rw [ctxAt, hctxs]
    exact ctxAt_ctxLoaded s ctx x
  · rw [putCtxEntries_eq_foldl, hkey]
    refine entryFields_putCtxEntries List.nodup_range (fun p hp q hq hne => ?_) (List.mem_range.2 ho)
    exact ctxEntryKey_apart (hb p (List.mem_range.1 hp)) (hb q (List.mem_range.1 hq)) hne
  · rw [putCtxEntries_eq_foldl, hkey, rdByte_putCtxEntries_other (fun o ho => hj o (List.mem_range.1 ho))]
    rfl

theorem ctxctl_ctxctlClear (s : State) (n : Nat) (x : W32) : (ctxAt (ctxctlClear s n x) n).ctxctl = x &&& 0xFFFF#32 := by
  unfold ctxctlClear
  dsimp only
  split
  · rw [ctxAt_preemptOn, ctxAt_modCtx, if_pos rfl, ctxctlMask_clear]
  · rw [ctxAt_modCtx, if_pos rfl, ctxctlMask_clear]

theorem ctxctlClear_of_disabled {s : State} {n : Nat} (h : ctxEnabled (ctxAt s n) = false) (x : W32) :
    ctxctlClear s n x = modCtx s n (fun c => { c with ctxctl := x &&& 0xFFFF#32 }) := by
  simp [ctxctlClear, h, ctxctlMask_clear]

theorem ctxctlClear_of_enabled {s : State} {n : Nat} (h : ctxEnabled (ctxAt s n) = true) (x : W32) :
    ctxctlClear s n x = preemptOn (modCtx (truncateAll s n 0x81) n (fun c => { c with ctxctl := x &&& 0xFFFF#32 })) n (fun _ => true) := by
  simp [ctxctlClear, h, ctxctlMask_clear]

theorem contextDisable_ignored {s : State} {ctx : Nat} {x : W32} (h : ctxEnabled (ctxAt s ctx) = false ∨ bit x.toNat 31 = true) :
    exec (.contextDisable ⟨ctx, x⟩) s = .next s := by
  have hc : (ctxEnabled (ctxAt s ctx) && !bit x.toNat 31) = false := by rcases h with h | h <;> simp [h]
  simp [exec, execContextDisable, hc]

/-- CONTEXT_DISABLE of an enabled context: its sessions end, and pre-emption begins on its cores. -/
theorem contextDisable_clears {s : State} {ctx : Nat} {x : W32} (he : ctxEnabled (ctxAt s ctx) = true) (hx : bit x.toNat 31 = false) :
    ∃ t, exec (.contextDisable ⟨ctx, x⟩) s = .next t ∧ (ctxAt t ctx).ctxctl = x &&& 0xFFFF#32 ∧ t.groups = s.groups ∧
      (∀ k, k < 4 → (portAt t ctx k).session = false) ∧
      ∀ k, (coreAt s k).ctx = some ctx → (coreAt s k).preempt = none → coreAt t k = { coreAt s k with preempt := some s.gtick.toNat } := by
  have hexec : exec (.contextDisable ⟨ctx, x⟩) s = .next (ctxctlClear s ctx x) := by simp [exec, execContextDisable, he, hx]
  refine ⟨_, hexec, ctxctl_ctxctlClear s ctx x, ?_⟩
  rw [ctxctlClear_of_enabled he]
  have hrest : RingsOnly s (truncateAll s ctx 0x81) := ringsOnly_truncateAll s ctx 0x81
  have hsess := session_truncateAll s ctx 0x81
  generalize truncateAll s ctx 0x81 = u at hrest hsess
  refine ⟨(groups_preemptOn ..).trans hrest.groups, fun k hk => ?_, fun k hc hp => ?_⟩
  · rw [portAt_preemptOn, portAt, ctxAt_modCtx, if_pos rfl]
    exact hsess k hk
  · have hcore (f : Ctx → Ctx) : coreAt (modCtx u ctx f) k = coreAt s k := by
      rw [coreAt, modCtx_cores, hrest.cores, coreAt]
    rw [coreAt_preemptOn (by rw [hcore, hc]) (by rw [hcore, hp]) rfl, hcore, modCtx_gtick, hrest.gtick]

/-! ### GTICK (R13, R322) -/

/-- A tick counted: GTICK and the phase move on, and PWRNOW is renewed at its period, within PWRLIM. -/
theorem tickOnce_frame (s : State) :
    let t := tickOnce s
    t.gtick = s.gtick + 1 ∧ t.phase = s.phase - tickUnits ∧ { t with gtick := s.gtick, phase := s.phase, pwrnow := s.pwrnow, free := s.free } = s ∧
      (t.gtick.toNat % 1200000 ≠ 0 → t.pwrnow = s.pwrnow) ∧ (t.gtick.toNat % 1200000 = 0 → t.pwrnow.toNat ≤ s.pwrlim.toNat) := by
  have hw (y : W64) : (BitVec.ofNat 32 (y.toNat % (s.pwrlim.toNat + 1))).toNat ≤ s.pwrlim.toNat := by
    have hlt : y.toNat % (s.pwrlim.toNat + 1) < s.pwrlim.toNat + 1 := Nat.mod_lt _ (Nat.succ_pos _)
    have hle : (BitVec.ofNat 32 (y.toNat % (s.pwrlim.toNat + 1))).toNat ≤ y.toNat % (s.pwrlim.toNat + 1) := by
      rw [BitVec.toNat_ofNat]
      exact Nat.mod_le _ _
    omega
  unfold tickOnce
  dsimp only
  split
  · next h => exact ⟨rfl, rfl, rfl, fun hn => absurd h hn, fun _ => hw _⟩
  · next h => exact ⟨rfl, rfl, rfl, fun _ => rfl, fun hz => absurd hz h⟩

theorem tickOwed_iff (s : State) : tickOwed s = true ↔ s.stopped = false ∧ stopDue s = false ∧ tickUnits ≤ s.phase := by
  simp [tickOwed]
  tauto

/-- GTICK_ADVANCE counts a tick that has passed in full, once the samples of the tick that ends are made, and else does nothing (assumption 2). -/
theorem gtickAdvance_answer (s : State) :
    let due : Prop := s.stopped = false ∧ stopDue s = false ∧ tickUnits ≤ s.phase ∧ samplesBy s sampleOwed = []
    (due → ∃ t, exec .gtickAdvance s = .next t ∧ t.gtick = s.gtick + 1 ∧ t.phase = s.phase - tickUnits ∧
      { t with gtick := s.gtick, phase := s.phase, pwrnow := s.pwrnow, free := s.free } = s ∧
      (t.gtick.toNat % 1200000 ≠ 0 → t.pwrnow = s.pwrnow) ∧ (t.gtick.toNat % 1200000 = 0 → t.pwrnow.toNat ≤ s.pwrlim.toNat)) ∧
    (¬due → exec .gtickAdvance s = .next s) := by
  intro due
  have hdue : due ↔ tickOwed s = true ∧ samplesBy s sampleOwed = [] := by
    rw [tickOwed_iff, and_assoc, and_assoc]
  exact ⟨fun h => ⟨_, congrArg Host.Outcome.next (if_pos (hdue.1 h)), tickOnce_frame s⟩,
    fun h => congrArg Host.Outcome.next (if_neg (mt hdue.2 h))⟩

/-! ### Host memory (R333) -/

/-- A write of the host lands at its bytes alone. -/
theorem hostMemory_lands {s : State} {acc : HostAccess} {addr : Nat} {bs : List Byte}
    (h : exec (.hostMemoryAccess addr acc) s = .next (wrBytes s (mkey 4 addr) bs)) :
    ∃ t, exec (.hostMemoryAccess addr acc) s = .next t ∧ rdBytes t (mkey 4 addr) bs.length = bs ∧ { t with mem := s.mem } = s ∧
      ∀ j, j < mkey 4 addr ∨ mkey 4 addr + bs.length ≤ j → rdByte t j = rdByte s j :=
  ⟨_, h, rdBytes_wrBytes .., rfl, fun j hj => rdByte_wrBytes_other _ _ _ j hj⟩

theorem hostStore_answer {s : State} {addr : Nat} {bs : List Byte} (h : addr % 8 + bs.length ≤ 8) (hb : addr + bs.length ≤ 2 ^ 52) :
    exec (.hostMemoryAccess addr (.store bs)) s = .next (wrBytes s (mkey 4 addr) bs) :=
  congrArg Host.Outcome.next (if_pos ⟨h, hb⟩)

theorem hostAtomic_answer {s : State} {addr : Nat} {bs : List Byte} (h : bs.length = 4 ∨ bs.length = 8) (ha : addr % bs.length = 0)
    (hb : addr + bs.length ≤ 2 ^ 52) : exec (.hostMemoryAccess addr (.atomic bs)) s = .next (wrBytes s (mkey 4 addr) bs) :=
  congrArg Host.Outcome.next (if_pos ⟨h, ha, hb⟩)

/-! ### Register writes (R317, R322, R323, R344, R358) -/

section
variable {s : State} {ofs n k r : Nat} {x : W64}

/-- A write in LINKUP: ACCEPT, FWADDR and FWCMD (R322, R334). -/
theorem registerWrite_accept (hp : s.pkg = .linkup) (hk : k < 4) (ho : ofs = 0x10 + 4 * k) :
    exec (.registerWrite ofs x) s = .next { s with accept := setNth s.accept k (x.setWidth 32 &&& nth 0 s.feat k) } := by
  have hc : 0x010 ≤ ofs ∧ ofs < 0x020 ∧ ofs % 4 = 0 := by omega
  have hi : (ofs - 0x010) / 4 = k := by omega
  simp only [exec, execRegisterWrite, hp, if_true, hc, hi]
  simp

theorem registerWrite_fwaddr (hp : s.pkg = .linkup) (ho : ofs = 0x28) : exec (.registerWrite ofs x) s = .next { s with fwaddr := x } := by
  subst ho
  simp [exec, execRegisterWrite, hp]

theorem registerWrite_fwcmd (hp : s.pkg = .linkup) (ho : ofs = 0x30) :
    exec (.registerWrite ofs x) s = .next (if x.setWidth 32 = 1#32 then s else { s with fwcmd := x.setWidth 32 }) := by
  subst ho
  by_cases hw : x.setWidth 32 = 1#32
  · simp [exec, execRegisterWrite, hp, hw]
  · simp [exec, execRegisterWrite, hp, hw, fwcmdWrite_ne_one hp hw]

theorem registerWrite_linkup_other (hp : s.pkg = .linkup) (ho : ofs < 0x10 ∨ 0x30 < ofs) : exec (.registerWrite ofs x) s = .next s := by
  have hc : ¬(0x010 ≤ ofs ∧ ofs < 0x020 ∧ ofs % 4 = 0) := by omega
  have h28 : ofs ≠ 0x028 := by omega
  have h30 : ofs ≠ 0x030 := by omega
  simp [exec, execRegisterWrite, hp, hc, h28, h30]

/-- A write of the package number in READY (R322). -/
theorem registerWrite_pkgnum (hp : s.pkg = .ready) : exec (.registerWrite 0x50 x) s =
    .next (if anyEnabled s = true ∨ 384 ≤ (x.setWidth 32).toNat % 512 then s else { s with pkgnum := x.setWidth 32 &&& 0x1FF#32 }) := by
  simp [exec, execRegisterWrite, hp, bits]

/-- A write to a context block in READY. -/
theorem registerWrite_ctx (hp : s.pkg = .ready) (hn : n < 1024) (hr : r < 0x1000) (ho : ofs = 0x10000 + 0x1000 * n + r) :
    exec (.registerWrite ofs x) s = .next (ctxWrite s n r x) := by
  have h50 : ofs ≠ 0x050 := by omega
  have hc : 0x10000 ≤ ofs ∧ ofs < 0x10000 + 0x1000 * 1024 := by omega
  have hi : (ofs - 0x10000) / 0x1000 = n := by omega
  have hj : (ofs - 0x10000) % 0x1000 = r := by omega
  have hl : s.pkg ≠ .linkup := by simp [hp]
  change Host.Outcome.next (ite _ _ _) = _
  rw [if_neg hl, if_neg (not_not.2 hp), if_neg h50, if_pos hc, hi, hj]

/-- A write to a port's block in READY. -/
theorem registerWrite_port (hp : s.pkg = .ready) (hn : n < 1024) (hk : k < 4) (hr : r < 0x400)
    (ho : ofs = 0x800000 + 0x1000 * n + 0x400 * k + r) : exec (.registerWrite ofs x) s = .next (portWrite s n k r x) := by
  have h50 : ofs ≠ 0x050 := by omega
  have hc : ¬(0x10000 ≤ ofs ∧ ofs < 0x10000 + 0x1000 * 1024) := by omega
  have hd : 0x800000 ≤ ofs ∧ ofs < 0x800000 + 0x1000 * 1024 := by omega
  have hi : (ofs - 0x800000) / 0x1000 = n := by omega
  have hj : (ofs - 0x800000) % 0x1000 / 0x400 = k := by omega
  have hm : (ofs - 0x800000) % 0x400 = r := by omega
  have hl : s.pkg ≠ .linkup := by simp [hp]
  change Host.Outcome.next (ite _ _ _) = _
  rw [if_neg hl, if_neg (not_not.2 hp), if_neg h50, if_neg hc, if_pos hd, hi, hj, hm]

/-- A write from TRBLK on in READY, where no other block lies over it. -/
theorem registerWrite_tr (hp : s.pkg = .ready) (hlo : 0x410000 ≤ s.trblk.toNat) (hhi : s.trblk.toNat + 0x1000 ≤ 0x800000) (hr : r < 0x1000)
    (ho : ofs = s.trblk.toNat + r) : exec (.registerWrite ofs x) s = .next (trWrite s r x) := by
  have h50 : ofs ≠ 0x050 := by omega
  have hc : ¬(0x10000 ≤ ofs ∧ ofs < 0x10000 + 0x1000 * 1024) := by omega
  have hd : ¬(0x800000 ≤ ofs ∧ ofs < 0x800000 + 0x1000 * 1024) := by omega
  have he : s.trblk.toNat ≤ ofs ∧ ofs < s.trblk.toNat + 0x1000 := by omega
  have hi : ofs - s.trblk.toNat = r := by omega
  have hl : s.pkg ≠ .linkup := by simp [hp]
  change Host.Outcome.next (ite _ _ _) = _
  rw [if_neg hl, if_neg (not_not.2 hp), if_neg h50, if_neg hc, if_neg hd, if_pos he, hi]

/-- A register of a context block that is written while the context is disabled only. -/
theorem registerWrite_ctx_disabled (hp : s.pkg = .ready) (hn : n < 1024) (hr : r < 0x1000) {f : Ctx → Ctx}
    (hw : ctxWrite s n r x = if ctxEnabled (ctxAt s n) then s else modCtx s n f) (ho : ofs = 0x10000 + 0x1000 * n + r) :
    (ctxEnabled (ctxAt s n) = true → exec (.registerWrite ofs x) s = .next s) ∧
      (ctxEnabled (ctxAt s n) = false → exec (.registerWrite ofs x) s = .next (modCtx s n f)) := by
  rw [registerWrite_ctx hp hn hr ho, hw]
  exact ⟨fun h => by rw [if_pos h], fun h => by rw [if_neg (by simp [h])]⟩

/-- A register of a port that is written under a condition. -/
theorem registerWrite_port_if (hp : s.pkg = .ready) (hn : n < 1024) (hk : k < 4) (hr : r < 0x400) {ok : Prop} {b : Bool} {f : Port → Port}
    (hb : ok ↔ b = true) (hw : portWrite s n k r x = if b then modPort s n k f else s)
    (ho : ofs = 0x800000 + 0x1000 * n + 0x400 * k + r) :
    (ok → exec (.registerWrite ofs x) s = .next (modPort s n k f)) ∧ (¬ok → exec (.registerWrite ofs x) s = .next s) := by
  rw [registerWrite_port hp hn hk hr ho, hw, hb]
  exact ⟨fun h => by rw [if_pos h], fun h => by rw [if_neg h]⟩

/-- CTXCTL written with ENABLE clear (R323). -/
theorem registerWrite_ctxctl (hp : s.pkg = .ready) (hn : n < 1024) (hx : bit (x.setWidth 32).toNat 31 = false)
    (ho : ofs = 0x10000 + 0x1000 * n + 0) : exec (.registerWrite ofs x) s = .next (ctxctlClear s n (x.setWidth 32)) := by
  rw [registerWrite_ctx hp hn (by omega) ho]
  exact congrArg Host.Outcome.next (if_neg (Bool.eq_false_iff.1 hx))

/-- The registers of a ring (R323). -/
theorem ctxWrite_ringBase {p : Nat} (hp : p < 8) : ctxWrite s n (0x100 + 32 * p) x = if ctxEnabled (ctxAt s n) then s else
    modCtx s n (fun c => { c with rings := modNth c.rings p (fun q => { q with base := x }) }) := by
  interval_cases p <;> rfl

theorem ctxWrite_ringSize {p : Nat} (hp : p < 8) : ctxWrite s n (0x108 + 32 * p) x = if ctxEnabled (ctxAt s n) then s else
    modCtx s n (fun c => { c with rings := modNth c.rings p (fun q => { q with size := x.setWidth 32 }) }) := by
  interval_cases p <;> rfl

/-- An unlisted register of a context block (R323). -/
theorem ctxWrite_unlisted (h : 0x200 ≤ r) : ctxWrite s n r x = s := by
  unfold ctxWrite
  dsimp only
  split
  any_goals omega
  rw [if_neg (by omega)]

end

/-! ### Register reads -/

/-- A read of a context block. -/
theorem hostRead_ctx {s : State} {ofs n r : Nat} (hn : n < 1024) (hr : r < 0x1000) (ho : ofs = 0x10000 + 0x1000 * n + r) :
    hostRead s ofs = ctxRead (ctxAt s n) r := by
  have h1 : ¬(ofs < 0x010 ∧ ofs % 4 = 0) := by omega
  have h2 : ¬(ofs < 0x020 ∧ ofs % 4 = 0) := by omega
  have h3 : ¬(0x2000 ≤ ofs ∧ ofs < 0xA000 ∧ ofs % 8 = 0) := by omega
  have h4 : 0x10000 ≤ ofs ∧ ofs < 0x10000 + 0x1000 * 1024 := by omega
  have hi : (ofs - 0x10000) / 0x1000 = n := by omega
  have hj : ofs % 0x1000 = r := by omega
  unfold hostRead
  rw [if_neg h1, if_neg h2, if_neg h3, if_pos h4, hi, hj]

/-- The code of the bring-up state in PKGSTATE (R334), and the other registers of the package block that are read here. -/
theorem hostRead_package {s : State} (h : 0x410000 ≤ s.trblk.toNat) :
    hostRead s 0x20 = BitVec.ofNat 64 (pkgCode s.pkg + s.failCode % 256 * 256) ∧ hostRead s 0x38 = s.pwrnow.setWidth 64 ∧
      hostRead s 0x3C = s.coreclk.setWidth 64 := by
  have h20 : ¬s.trblk.toNat ≤ 0x20 := by omega
  have h38 : ¬s.trblk.toNat ≤ 0x38 := by omega
  have h3C : ¬s.trblk.toNat ≤ 0x3C := by omega
  simp [hostRead, h20, h38, h3C]

/-- Offsets between the package block and the port rights read 0. -/
theorem hostRead_unlisted {s : State} {ofs : Nat} (h : 0x410000 ≤ s.trblk.toNat) (hlo : 0x54 ≤ ofs) (hhi : ofs < 0x2000) : hostRead s ofs = 0 := by
  unfold hostRead
  rw [if_neg (by omega), if_neg (by omega), if_neg (by omega), if_neg (by omega), if_neg (by omega), if_neg (by omega)]
  split
  any_goals omega
  rfl

theorem ctxRead_unlisted {c : Ctx} {r : Nat} (h : 0x200 ≤ r) : ctxRead c r = 0 := by
  unfold ctxRead
  split
  any_goals omega
  rw [if_neg (by omega)]

/-! ### The statement, part by part -/

/-- Settles O52: each event is settled by its lemma above; register writes go to their block, whose table gives the register. -/
theorem hostEvents : Obligations.HostEvents := by
  unfold Obligations.HostEvents
  refine ⟨fun s ctx x => ?_, fun s ofs x => ?_, fun s hlo hhi => ?_⟩
  · intro does
    refine ⟨packageReset_keeps_host s, rfl, congrArg Host.Outcome.next (fwcmdWrite_one s), firmwareVerified_answer s, fun cores answer =>
      ⟨memoryInitDone_ignored, memoryInitDone_no_answer, memoryInitDone_no_core, memoryInitDone_ready⟩, contextEnable_ignored, fun hp hn hx => ?_,
      contextDisable_ignored, contextDisable_clears, rfl, fun mhz => rfl, gtickAdvance_answer s, fun addr => rfl, fun addr bs hb => ?_⟩
    · refine ⟨contextEnable_of_enabled hp hn hx, fun hd hb => ?_⟩
      obtain ⟨t, ht, hctx, hgroups, hentry, hother⟩ := contextEnable_loads hp hn hx hd hb
      exact ⟨t, ht, hctx, hgroups, fun o ho => rdNat_of_entryFields (hentry o ho), hother⟩
    · exact ⟨fun h => hostMemory_lands (hostStore_answer h hb), fun h ha => hostMemory_lands (hostAtomic_answer h ha hb)⟩
  · intro w gives
    refine ⟨fun h1 h2 => ?_, fun hp => ?_, fun hp => ⟨fun ho hw hall => ?_, fun ho h => ?_, fun n hn => ?_, fun n k hn hk => ?_, fun hlo hhi => ?_⟩⟩
    · exact congrArg Host.Outcome.next ((if_neg h1).trans (if_pos h2))
    · exact ⟨fun k hk ho => registerWrite_accept hp hk ho, registerWrite_fwaddr hp, registerWrite_fwcmd hp,
        registerWrite_linkup_other hp⟩
    · subst ho
      refine (registerWrite_pkgnum hp).trans (congrArg Host.Outcome.next (if_neg (not_or.2 ⟨?_, Nat.not_le.2 hw⟩)))
      simpa [anyEnabled] using hall
    · subst ho
      refine (registerWrite_pkgnum hp).trans (congrArg Host.Outcome.next (if_pos (h.symm.imp_left (fun hc => ?_))))
      simpa [anyEnabled] using hc
    · intro at_ sets
      have hset {r : Nat} (hr : r < 0x1000) {f : Ctx → Ctx} (hw : ctxWrite s n r x = if ctxEnabled (ctxAt s n) then s else modCtx s n f) : sets r f :=
        registerWrite_ctx_disabled hp hn hr hw
      refine ⟨fun hx ho => ?_, fun hx ho => ?_, hset (by omega) rfl, hset (by omega) rfl, hset (by omega) rfl, hset (by omega) rfl, hset (by omega) rfl,
        hset (by omega) rfl, hset (by omega) rfl, hset (by omega) rfl, fun ho => ?_, fun p hpr => ⟨?_, ?_⟩, fun r hr hlo ho => ?_⟩
      · exact (registerWrite_ctx hp hn (by omega) ho).trans (congrArg Host.Outcome.next (if_pos hx))
      · exact ⟨_, registerWrite_ctxctl hp hn hx ho, ctxctl_ctxctlClear .., fun hd => ctxctlClear_of_disabled hd w⟩
      · exact registerWrite_ctx hp hn (by omega) ho
      · exact hset (by omega) (ctxWrite_ringBase hpr)
      · exact hset (by omega) (ctxWrite_ringSize hpr)
      · exact (registerWrite_ctx hp hn hr ho).trans (congrArg Host.Outcome.next (ctxWrite_unlisted hlo))
    · intro p at_ sets free halts samples
      have hset {r : Nat} (hr : r < 0x400) {ok : Prop} {b : Bool} {f : Port → Port} (hb : ok ↔ b = true)
          (hw : portWrite s n k r x = if b then modPort s n k f else s) : sets r ok f := registerWrite_port_if hp hn hk hr hb hw
      have hfree : free ↔ true = true := by simp [free]
      have hclosed : p.session = false ↔ (!p.session) = true := by simp
      exact ⟨hset (by omega) hfree rfl, hset (by omega) hfree rfl, hset (by omega) hfree rfl, hset (by omega) Iff.rfl rfl, hset (by omega) Iff.rfl rfl,
        hset (by omega) Iff.rfl rfl, hset (by omega) Iff.rfl rfl, hset (by omega) hclosed rfl, hset (by omega) hclosed rfl, hset (by omega) hfree rfl,
        hset (by omega) Iff.rfl rfl, hset (by omega) Iff.rfl rfl⟩
    · intro at_
      have htr {r : Nat} (hr : r < 0x1000) (ho : at_ r) : gives (trWrite s r x) := registerWrite_tr hp hlo hhi hr ho
      refine ⟨fun o ho => ?_, htr (by omega), htr (by omega), htr (by omega)⟩
      interval_cases o <;> exact ⟨htr (by omega), htr (by omega)⟩
  · intro code
    obtain ⟨hstate, hpower, hclock⟩ := hostRead_package hlo
    have hcode : pkgCode s.pkg = code := by cases h : s.pkg <;> simp [code, h, pkgCode]
    refine ⟨hcode ▸ hstate, hpower, hclock, fun ofs h1 h2 => hostRead_unlisted hlo h1 h2, fun n hn => ⟨?_, ?_, fun r h1 h2 => ?_⟩⟩
    · rw [hostRead_ctx hn (by omega) (Nat.add_zero _).symm]
      rfl
    · rw [hostRead_ctx (r := 0x44) hn (by omega) (by omega)]
      rfl
    · rw [hostRead_ctx hn h2 rfl, ctxRead_unlisted h1]

end Sys2Proof.Machine
end

section
/-! The codes of the encoding tables (R42, R48, R55, R61, R62, R75 to R79): every field's code lies in its field, and is read back as the value it stands for. -/

namespace Sys2Proof
open Machine

/-! ### Numbers and flags -/

@[simp] theorem finOf_val {n : Nat} (x : Fin n) : finOf n x.val = some x := by simp [finOf]

@[simp] theorem bvOf_toNat {w : Nat} (x : BitVec w) : bvOf w x.toNat = some x := by simp [bvOf, x.isLt]

@[simp] theorem finByte_lt {n : Nat} (h : n ≤ 256) (x : Fin n) : x.val < 256 := Nat.lt_of_lt_of_le x.isLt h
@[simp] theorem mask_lt (k : BitVec 6) : k.toNat < 65536 := Nat.lt_trans k.isLt (by decide)
@[simp] theorem byte_lt (k : BitVec 8) : k.toNat < 256 := k.isLt
@[simp] theorem half_lt (k : BitVec 16) : k.toNat < 65536 := k.isLt
@[simp] theorem imm20_lt (k : BitVec 20) : k.toNat < 1048576 := k.isLt

@[simp] theorem boolOf_b2n (b : Bool) : boolOf (b2n b) = some b := by cases b <;> rfl

@[simp] theorem b2n_le_one (b : Bool) : b2n b ≤ 1 := by cases b <;> decide

@[simp] theorem b2n_lt_eight (b : Bool) : b2n b < 8 := by cases b <;> decide

@[simp] theorem b2n_lt_half (b : Bool) : b2n b < 65536 := by cases b <;> decide

@[simp] theorem selOf_ite {off on : Nat} (h : on ≠ off) (b : Bool) : selOf off on (if b then on else off) = some b := by
  cases b <;> simp [selOf, h]

@[simp] theorem ite_code_lt {off on n : Nat} (hoff : off < n) (hon : on < n) (b : Bool) : (if b then on else off) < n := by
  cases b <;> assumption

/-! ### Operands and destinations -/

/-- The decoder reads this source back beside the literal word `lit`, if the word has one (R44). -/
def SrcReads (lit : Option W32) (s : Src) : Prop := ∀ w, s = .lit w → lit = some w

theorem srcC_lt (s : Src) : srcC s < 245 := by
  cases s <;> simp only [srcC] <;> omega

@[simp] theorem srcC_lt_byte (s : Src) : srcC s < 256 := Nat.lt_trans (srcC_lt s) (by decide)

@[simp] theorem srcOf_srcC {lit : Option W32} {s : Src} (h : SrcReads lit s) : srcOf lit (srcC s) = some s := by
  cases s with
  | v n => simp [srcC, srcOf]
  | c n =>
    have hn := n.isLt
    rw [srcC, srcOf, dif_neg (by omega), if_pos (by omega), Nat.add_sub_cancel_left, finOf_val]; rfl
  | imm n =>
    have hn := n.isLt
    rw [srcC, srcOf, dif_neg (by omega), if_neg (by omega), if_pos (by omega), Nat.add_sub_cancel_left, finOf_val]; rfl
  | q n =>
    have hn := n.isLt
    rw [srcC, srcOf, dif_neg (by omega), if_neg (by omega), if_neg (by omega), if_pos (by omega), Nat.add_sub_cancel_left, finOf_val]; rfl
  | o n =>
    have hn := n.isLt
    rw [srcC, srcOf, dif_neg (by omega), if_neg (by omega), if_neg (by omega), if_neg (by omega), if_pos (by omega), Nat.add_sub_cancel_left,
      finOf_val]; rfl
  | lit w => cases h w rfl; rfl
  | h0 | h1 | lane | grp => rfl

theorem patC_lt (p : Pat) : patC p < 128 := by
  cases p <;> simp only [patC] <;> omega

theorem patOf_patC (p : Pat) : patOf (patC p) = some p := by
  cases p with
  | ident => rfl
  | rot n =>
    have hn := n.isLt
    rw [patC, patOf, if_neg (by omega), if_neg (by omega), if_pos (by omega), Nat.add_sub_cancel_left, finOf_val]; rfl
  | bc n =>
    have hn := n.isLt
    rw [patC, patOf, if_neg (by omega), if_neg (by omega), if_neg (by omega), if_pos (by omega), Nat.add_sub_cancel_left, finOf_val]; rfl
  | bf n =>
    rw [patC, patOf, if_neg (by omega), if_neg (by omega), if_neg (by omega), if_neg (by omega), Nat.add_sub_cancel_left, finOf_val]; rfl

@[simp] theorem opC_lt (o : Opnd) : opC o < 32768 := by
  have hs := srcC_lt o.src
  have hp := patC_lt o.pat
  unfold opC
  omega

@[simp] theorem opOf_opC {lit : Option W32} {o : Opnd} (h : SrcReads lit o.src) : opOf lit (opC o) = some o := by
  have hp := patC_lt o.pat
  have hsrc : opC o / 128 = srcC o.src := by unfold opC; omega
  have hpat : opC o % 128 = patC o.pat := by unfold opC; omega
  rw [opOf, hsrc, hpat, srcOf_srcC h, patOf_patC]

@[simp] theorem srcFOf_srcC {lit : Option W32} {s : Src} (h : SrcReads lit s) : srcFOf lit (srcC s * 128) = some s := by
  rw [srcFOf, Nat.mul_div_cancel _ (by decide), srcOf_srcC h]

@[simp] theorem srcField_lt (s : Src) : srcC s * 128 < 32768 := by
  have hs := srcC_lt s
  omega

@[simp] theorem vOf_val (n : Fin 128) : vOf (n.val * 128) = some n := by
  rw [vOf, Nat.mul_div_cancel _ (by decide), finOf_val]

@[simp] theorem vField_lt (n : Fin 128) : n.val * 128 < 32768 := by omega

@[simp] theorem dstC_lt (d : Dst) : dstC d < 256 := by
  cases d <;> simp only [dstC] <;> omega

@[simp] theorem dstOf_dstC (d : Dst) : dstOf (dstC d) = some d := by
  cases d with
  | v n => simp [dstC, dstOf]
  | q n =>
    have hn := n.isLt
    rw [dstC, dstOf, dif_neg (by omega), if_pos (by omega), Nat.add_sub_cancel_left, finOf_val]; rfl
  | o n =>
    have hn := n.isLt
    rw [dstC, dstOf, dif_neg (by omega), if_neg (by omega), if_pos (by omega), Nat.add_sub_cancel_left, finOf_val]; rfl
  | none => rfl

@[simp] theorem cregC_lt (c : Creg) : cregC c < 256 := by
  cases c <;> simp only [cregC] <;> omega

@[simp] theorem cregOf_cregC (c : Creg) : cregOf (cregC c) = some c := by
  cases c with
  | v n => simp [cregC, cregOf]
  | o n =>
    have hn := n.isLt
    rw [cregC, cregOf, dif_neg (by omega), if_pos (by omega), Nat.add_sub_cancel_left, finOf_val]; rfl
  | h0 | h1 => rfl

/-! ### Types, formats and modifiers -/

@[simp] theorem ityC_lt (t : ITy) : ityC t < 32 := by cases t <;> decide
@[simp] theorem ityOf_ityC (t : ITy) : ityOf (ityC t) = some t := by cases t <;> rfl
@[simp] theorem ftyC_lt (t : FTy) : ftyC t < 32 := by cases t <;> decide
@[simp] theorem ftyOf_ftyC (t : FTy) : ftyOf (ftyC t) = some t := by cases t <;> rfl
@[simp] theorem rndC_lt (r : Rnd) : rndC r < 8 := by cases r <;> decide
@[simp] theorem rndOf_rndC (r : Rnd) : rndOf (rndC r) = some r := by cases r <;> rfl
@[simp] theorem ccC_lt (c : Cc) : ccC c < 8 := by cases c <;> decide
@[simp] theorem ccOf_ccC (c : Cc) : ccOf (ccC c) = some c := by cases c <;> rfl
@[simp] theorem fccC_lt (c : Fcc) : fccC c < 8 := by cases c <;> decide
@[simp] theorem fccOf_fccC (c : Fcc) : fccOf (fccC c) = some c := by cases c <;> rfl
@[simp] theorem voteC_lt (m : Vote) : voteC m < 8 := by cases m <;> decide
@[simp] theorem voteOf_voteC (m : Vote) : voteOf (voteC m) = some m := by cases m <;> rfl
@[simp] theorem sizeC_lt (z : Size) : sizeC z < 8 := by cases z <;> decide
@[simp] theorem sizeOf_sizeC (z : Size) : sizeOf (sizeC z) = some z := by cases z <;> rfl
theorem csrC_lt (n : Csr) : csrC n < 4096 := by cases n <;> decide
@[simp] theorem csrC_lt_half (n : Csr) : csrC n < 65536 := Nat.lt_trans (csrC_lt n) (by decide)
@[simp] theorem csrOf_csrC (n : Csr) : csrOf (csrC n) = some n := by cases n <;> rfl
@[simp] theorem sregC_lt (n : Sreg) : sregC n < 65536 := by cases n <;> decide
@[simp] theorem sregOf_sregC (n : Sreg) : sregOf (sregC n) = some n := by cases n <;> rfl
@[simp] theorem ckC_lt (c : Ck) : ckC c < 4 := by cases c <;> decide
@[simp] theorem ckOf_ckC (c : Ck) : ckOf (ckC c) = some c := by cases c <;> rfl
@[simp] theorem pathC_lt (p : Path) : pathC p < 65536 := by cases p <;> decide
@[simp] theorem pathOf_pathC (p : Path) : pathOf (pathC p) = some p := by cases p <;> rfl
@[simp] theorem rclassC_lt (c : RClass) : rclassC c < 65536 := by cases c <;> decide
@[simp] theorem rclassC_ne_get (c : RClass) : rclassC c ≠ 4 := by cases c <;> decide
@[simp] theorem rclassOf_rclassC (c : RClass) : rclassOf (rclassC c) = some c := by cases c <;> rfl
theorem dirC_lt (d : Dir) : dirC d < 4 := by cases d <;> decide
@[simp] theorem dirOf_dirC (d : Dir) : dirOf (dirC d) = some d := by cases d <;> rfl
theorem blkC_lt (b : Blk) : blkC b < 4 := by cases b <;> decide
@[simp] theorem blkOf_blkC (b : Blk) : blkOf (blkC b) = some b := by cases b <;> rfl
theorem semC_lt (m : Sem) : semC m < 4 := by cases m <;> decide
@[simp] theorem semOf_semC (m : Sem) : semOf (semC m) = some m := by cases m <;> rfl
theorem scopeC_lt (c : Scope) : scopeC c < 5 := by cases c <;> decide
@[simp] theorem scopeOf_scopeC (c : Scope) : scopeOf (scopeC c) = some c := by cases c <;> rfl
theorem csrOpC_lt (o : CsrOp) : csrOpC o < 3 := by cases o <;> decide
@[simp] theorem csrOpOf_csrOpC (o : CsrOp) : csrOpOf (csrOpC o) = some o := by cases o <;> rfl
@[simp] theorem fmtCode_lt (f : Fmt) : fmtCode f < 32 := by cases f <;> simp [fmtCode]

@[simp] theorem fmtP8d_lt (f : Fmt) : fmtP8d f < 32 := by
  cases f with
  | b8 u i p =>
    have hu := b2n_le_one u
    have hi := b2n_le_one i
    simp only [fmtP8d]
    omega
  | _ => exact Nat.zero_lt_succ _

/-- A format with TYPE b8 has the three parts of its P8D field read back (R62); each other format has P8D 0. -/
theorem fmtOf_fmtCode {f : Fmt} (h : okFmt f = true) : fmtOf (fmtCode f) (fmtP8d f) = some f := by
  cases f with
  | b8 u i p =>
    have hu := b2n_le_one u
    have hi := b2n_le_one i
    have hmod : (b2n u * 16 + b2n i * 8 + p.val) % 8 = p.val := by omega
    have h4 : bit (b2n u * 16 + b2n i * 8 + p.val) 4 = u := by
      have : (b2n u * 16 + b2n i * 8 + p.val) / 2 ^ 4 % 2 = b2n u := by omega
      rw [bit, this]
      cases u <;> rfl
    have h3 : bit (b2n u * 16 + b2n i * 8 + p.val) 3 = i := by
      have : (b2n u * 16 + b2n i * 8 + p.val) / 2 ^ 3 % 2 = b2n i := by omega
      rw [bit, this]
      cases i <;> rfl
    have hsigned : ¬(u = false ∧ p.val = 7) := by
      rintro ⟨rfl, hp⟩
      simp [okFmt, hp] at h
    simp only [fmtCode, fmtP8d, fmtOf, h4, h3, hmod, if_neg hsigned]
    rw [if_pos trivial, if_neg (by omega)]
  | _ => rfl

/-! ### Packed fields -/

@[simp] theorem cvtOps_lt (d : Dir) (b : Bool) : dirC d + 4 * b2n b < 8 := by
  have hd := dirC_lt d
  have hb := b2n_le_one b
  omega

@[simp] theorem dirC_mod_four (d : Dir) : dirC d % 4 = dirC d := Nat.mod_eq_of_lt (dirC_lt d)

@[simp] theorem cvtOps_sat (d : Dir) (b : Bool) : (dirC d + 4 * b2n b) / 4 = b2n b := by
  have hd := dirC_lt d
  omega

@[simp] theorem quantOps_lt (k : Blk) (b : Bool) : blkC k + 4 * b2n b < 8 := by
  have hk := blkC_lt k
  have hb := b2n_le_one b
  omega

@[simp] theorem blkC_mod_four (k : Blk) : blkC k % 4 = blkC k := Nat.mod_eq_of_lt (blkC_lt k)

@[simp] theorem quantOps_tr (k : Blk) (b : Bool) : (blkC k + 4 * b2n b) / 4 = b2n b := by
  have hk := blkC_lt k
  omega

@[simp] theorem scopeC_mod_eight (c : Scope) : scopeC c % 8 = scopeC c := Nat.mod_eq_of_lt (Nat.lt_trans (scopeC_lt c) (by decide))

@[simp] theorem semField_sem (m : Nat) (c : Scope) : (m * 8 + scopeC c) / 8 = m := by
  have hc := scopeC_lt c
  omega

@[simp] theorem ordC_lt (o : Ord) : ordC o < 32 := by
  have hm := semC_lt o.sem
  have hc := scopeC_lt o.scope
  unfold ordC
  omega

@[simp] theorem ordOf_ordC (o : Ord) : ordOf (ordC o) = some o := by simp [ordOf, ordC]

@[simp] theorem semField_lt (m : Sem) : semC m * 8 < 32 := by
  have hm := semC_lt m
  omega

@[simp] theorem semOf8_semC (m : Sem) : semOf8 (semC m * 8) = some m := by simp [semOf8]

@[simp] theorem fkField_lt (k : FenceKind) (c : Scope) : fkSem k * 8 + scopeC c < 32 := by
  have hc := scopeC_lt c
  have hk : fkSem k < 4 := by cases k <;> decide
  omega

@[simp] theorem fkOfs_lt (k : FenceKind) : fkOfs k < 256 := by cases k <;> decide

@[simp] theorem fkOf_codes (k : FenceKind) : fkOf (fkOfs k) (fkSem k) = some k := by cases k <;> rfl

@[simp] theorem acqrOrd_lt (c : Scope) : 16 + scopeC c < 32 := by
  have hc := scopeC_lt c
  omega

@[simp] theorem acqrOrd_scope (c : Scope) : (16 + scopeC c) % 8 = scopeC c := by
  have hc := scopeC_lt c
  omega

@[simp] theorem qgetOfs_lt (q f : Fin 8) : 8 * q.val + f.val < 256 := by omega
@[simp] theorem qgetOfs_q (q f : Fin 8) : (8 * q.val + f.val) / 8 = q.val := by omega
@[simp] theorem fin_mod_eight (f : Fin 8) : f.val % 8 = f.val := Nat.mod_eq_of_lt f.isLt

@[simp] theorem barC_lt (b : BarId) : barC b < 65536 := by
  have hc := scopeC_lt b.scope
  unfold barC
  omega

@[simp] theorem barOf_barC (b : BarId) : barOf (barC b) = some b := by
  have hc : (scopeC b.scope * 8192 + b.index.val) / 8192 = scopeC b.scope := by omega
  have hi : (scopeC b.scope * 8192 + b.index.val) % 8192 = b.index.val := by omega
  rw [barC, barOf, hc, hi, scopeOf_scopeC, finOf_val]

@[simp] theorem barArrive_lt (b : BarId) (arr : Bool) : barC b + 4096 * b2n arr < 65536 := by
  have hc := scopeC_lt b.scope
  have ha := b2n_le_one arr
  unfold barC
  omega

@[simp] theorem barArrive_bar (b : BarId) (arr : Bool) :
    (barC b + 4096 * b2n arr) / 8192 * 8192 + barC b % 4096 = barC b := by
  have ha := b2n_le_one arr
  unfold barC
  omega

@[simp] theorem barArrive_arr (b : BarId) (arr : Bool) : (barC b + 4096 * b2n arr) / 4096 % 2 = b2n arr := by
  have ha := b2n_le_one arr
  unfold barC
  omega

@[simp] theorem sleepCreg_lt (n : SleepArg) : sleepCreg n < 256 := by
  cases n <;> simp [sleepCreg]

@[simp] theorem sleepC_lt (n : SleepArg) : sleepC n < 65536 := by
  cases n <;> simp only [sleepC] <;> omega

@[simp] theorem sleepOf_sleepC (n : SleepArg) : sleepOf (sleepCreg n) (sleepC n) = some n := by
  cases n with
  | ticks k => simp [sleepOf, sleepC, Nat.ne_of_lt k.isLt]
  | reg c => simp [sleepOf, sleepC, sleepCreg]

@[simp] theorem csrwLow_lt (o : CsrOp) (n : Csr) : csrOpC o * 4096 + csrC n < 65536 := by
  have ho := csrOpC_lt o
  have hn := csrC_lt n
  omega

@[simp] theorem csrwLow_op (o : CsrOp) (n : Csr) : (csrOpC o * 4096 + csrC n) / 4096 = csrOpC o := by
  have hn := csrC_lt n
  omega

@[simp] theorem csrC_mod (n : Csr) : csrC n % 4096 = csrC n := Nat.mod_eq_of_lt (csrC_lt n)

@[simp] theorem qdefDst_lt (q : Fin 8) : 0xE0 + q.val < 256 := by omega

@[simp] theorem brxLow_lt (count stride : BitVec 8) : count.toNat * 256 + stride.toNat < 65536 := by omega
@[simp] theorem brxLow_count (count stride : BitVec 8) : (count.toNat * 256 + stride.toNat) / 256 = count.toNat := by omega
@[simp] theorem byte_mod (k : BitVec 8) : k.toNat % 256 = k.toNat := Nat.mod_eq_of_lt k.isLt

section
variable (ld st cp tl : Fin 16)

theorem waitLow_lt : ld.val * 4096 + st.val * 256 + cp.val * 16 + tl.val < 65536 := by omega
theorem waitLow_ld : (ld.val * 4096 + st.val * 256 + cp.val * 16 + tl.val) / 4096 = ld.val := by omega
theorem waitLow_st : (ld.val * 4096 + st.val * 256 + cp.val * 16 + tl.val) / 256 % 16 = st.val := by omega
theorem waitLow_cp : (ld.val * 4096 + st.val * 256 + cp.val * 16 + tl.val) / 16 % 16 = cp.val := by omega
theorem waitLow_tl : (ld.val * 4096 + st.val * 256 + cp.val * 16 + tl.val) % 16 = tl.val := by omega
end

end Sys2Proof
end

section
/-! The formats of a long word (R75 to R79): what each format's constructor gives its fields, that they are in range, and that the word keeps them. -/

namespace Sys2Proof
open Machine

/-- Every field of the word holds its number: the fields of R75 are 8, 8, 15, 15 and 16 bits wide. -/
structure Fields.InRange (f : Fields) : Prop where
  op : f.op < 256
  d : f.d < 256
  a : f.a < 32768
  b : f.b < 32768
  low : f.low < 65536

theorem Fields.InRange.word_lt {f : Fields} (h : f.InRange) : f.word < 2 ^ 62 := by
  obtain ⟨hop, hd, ha, hb, hlow⟩ := h
  unfold Fields.word
  omega

theorem Fields.InRange.fieldsOfWord_word {f : Fields} (h : f.InRange) : fieldsOfWord f.word = f := by
  obtain ⟨op, d, a, b, low⟩ := f
  obtain ⟨hop, hd, ha, hb, hlow⟩ := h
  simp only at hop hd ha hb hlow
  simp only [fieldsOfWord, Fields.word, Fields.mk.injEq]
  omega

/-! ### Format A2 -/

section
variable {op d a b rnd ty p8d ops : Nat}

@[simp] theorem fA2_op : (fA2 op d a b rnd ty p8d ops).op = op := rfl
@[simp] theorem fA2_d : (fA2 op d a b rnd ty p8d ops).d = d := rfl
@[simp] theorem fA2_a : (fA2 op d a b rnd ty p8d ops).a = a := rfl
@[simp] theorem fA2_b : (fA2 op d a b rnd ty p8d ops).b = b := rfl

@[simp] theorem fA2_rnd (ht : ty < 32) (hp : p8d < 32) (ho : ops < 8) : (fA2 op d a b rnd ty p8d ops).rnd = rnd := by
  simp only [Fields.rnd, fA2]
  omega

@[simp] theorem fA2_ty (ht : ty < 32) (hp : p8d < 32) (ho : ops < 8) : (fA2 op d a b rnd ty p8d ops).ty = ty := by
  simp only [Fields.ty, fA2]
  omega

@[simp] theorem fA2_p8d (hp : p8d < 32) (ho : ops < 8) : (fA2 op d a b rnd ty p8d ops).p8d = p8d := by
  simp only [Fields.p8d, fA2]
  omega

@[simp] theorem fA2_ops (ho : ops < 8) : (fA2 op d a b rnd ty p8d ops).ops = ops := by
  simp only [Fields.ops, fA2]
  omega

theorem fA2_inRange (hop : op < 256) (hd : d < 256) (ha : a < 32768) (hb : b < 32768) (hr : rnd < 8) (ht : ty < 32) (hp : p8d < 32)
    (ho : ops < 8) : (fA2 op d a b rnd ty p8d ops).InRange where
  op := hop
  d := hd
  a := ha
  b := hb
  low := by simp only [fA2]; omega
end

/-! ### Format A3 -/

section
variable {op d a b c s : Nat}

@[simp] theorem fA3_op : (fA3 op d a b c s).op = op := rfl
@[simp] theorem fA3_d : (fA3 op d a b c s).d = d := rfl
@[simp] theorem fA3_a : (fA3 op d a b c s).a = a := rfl
@[simp] theorem fA3_b : (fA3 op d a b c s).b = b := rfl

@[simp] theorem fA3_c (hs : s ≤ 1) : (fA3 op d a b c s).c = c := by
  simp only [Fields.c, fA3]
  omega

@[simp] theorem fA3_s (hs : s ≤ 1) : (fA3 op d a b c s).s = s := by
  simp only [Fields.s, fA3]
  omega

theorem fA3_inRange (hop : op < 256) (hd : d < 256) (ha : a < 32768) (hb : b < 32768) (hc : c < 32768) (hs : s ≤ 1) :
    (fA3 op d a b c s).InRange where
  op := hop
  d := hd
  a := ha
  b := hb
  low := by simp only [fA3]; omega
end

/-! ### Format I -/

section
variable {op d a imm rnd ty m3 : Nat}

@[simp] theorem fI_op : (fI op d a imm rnd ty m3).op = op := rfl
@[simp] theorem fI_d : (fI op d a imm rnd ty m3).d = d := rfl
@[simp] theorem fI_a : (fI op d a imm rnd ty m3).a = a := rfl

@[simp] theorem fI_imm (hr : rnd < 8) (ht : ty < 32) (hm : m3 < 8) : (fI op d a imm rnd ty m3).imm = imm := by
  simp only [Fields.imm, fI]
  omega

@[simp] theorem fI_irnd (hr : rnd < 8) (ht : ty < 32) (hm : m3 < 8) : (fI op d a imm rnd ty m3).irnd = rnd := by
  simp only [Fields.irnd, fI]
  omega

@[simp] theorem fI_ity (ht : ty < 32) (hm : m3 < 8) : (fI op d a imm rnd ty m3).ity = ty := by
  simp only [Fields.ity, fI]
  omega

@[simp] theorem fI_m3 (hm : m3 < 8) : (fI op d a imm rnd ty m3).m3 = m3 := by
  simp only [Fields.m3, fI]
  omega

theorem fI_inRange {k : BitVec 20} (hop : op < 256) (hd : d < 256) (ha : a < 32768) (hr : rnd < 8) (ht : ty < 32) (hm : m3 < 8) :
    (fI op d a k.toNat rnd ty m3).InRange where
  op := hop
  d := hd
  a := ha
  b := by have hk := k.isLt; simp only [fI]; omega
  low := by simp only [fI]; omega
end

/-! ### Format M -/

section
variable {op d a b sz ofs ord : Nat}

@[simp] theorem fM_op : (fM op d a b sz ofs ord).op = op := rfl
@[simp] theorem fM_d : (fM op d a b sz ofs ord).d = d := rfl
@[simp] theorem fM_a : (fM op d a b sz ofs ord).a = a := rfl
@[simp] theorem fM_b : (fM op d a b sz ofs ord).b = b := rfl

@[simp] theorem fM_sz (hofs : ofs < 256) (hord : ord < 32) : (fM op d a b sz ofs ord).sz = sz := by
  simp only [Fields.sz, fM]
  omega

@[simp] theorem fM_ofs (hofs : ofs < 256) (hord : ord < 32) : (fM op d a b sz ofs ord).ofs = ofs := by
  simp only [Fields.ofs, fM]
  omega

@[simp] theorem fM_ord (hord : ord < 32) : (fM op d a b sz ofs ord).ord = ord := by
  simp only [Fields.ord, fM]
  omega

theorem fM_inRange (hop : op < 256) (hd : d < 256) (ha : a < 32768) (hb : b < 32768) (hs : sz < 8) (hofs : ofs < 256) (hord : ord < 32) :
    (fM op d a b sz ofs ord).InRange where
  op := hop
  d := hd
  a := ha
  b := hb
  low := by simp only [fM]; omega
end

/-! ### Format B -/

section
variable {op creg ck tgt link opspec : Nat}

@[simp] theorem fB_op : (fB op creg ck tgt link opspec).op = op := rfl
@[simp] theorem fB_d : (fB op creg ck tgt link opspec).d = creg := rfl
@[simp] theorem fB_low : (fB op creg ck tgt link opspec).low = opspec := rfl

@[simp] theorem fB_ck (ht : tgt < 1048576) : (fB op creg ck tgt link opspec).ck = ck := by
  simp only [Fields.ck, fB]
  omega

@[simp] theorem fB_tgt (ht : tgt < 1048576) (hl : link < 256) : (fB op creg ck tgt link opspec).tgt = tgt := by
  simp only [Fields.tgt, fB]
  omega

@[simp] theorem fB_link (hl : link < 256) : (fB op creg ck tgt link opspec).link = link := by
  simp only [Fields.link, fB]
  omega

theorem fB_inRange (hop : op < 256) (hc : creg < 256) (hk : ck < 4) (ht : tgt < 1048576) (hl : link < 256) (ho : opspec < 65536) :
    (fB op creg ck tgt link opspec).InRange where
  op := hop
  d := hc
  a := by simp only [fB]; omega
  b := by simp only [fB]; omega
  low := ho
end

/-! ### Formats E and P -/

section
variable {op d a b low : Nat}

@[simp] theorem fE_op : (fE op d a b low).op = op := rfl
@[simp] theorem fE_d : (fE op d a b low).d = d := rfl
@[simp] theorem fE_a : (fE op d a b low).a = a := rfl
@[simp] theorem fE_b : (fE op d a b low).b = b := rfl
@[simp] theorem fE_low : (fE op d a b low).low = low := rfl

theorem fE_inRange (hop : op < 256) (hd : d < 256) (ha : a < 32768) (hb : b < 32768) (hl : low < 65536) : (fE op d a b low).InRange :=
  ⟨hop, hd, ha, hb, hl⟩
end

end Sys2Proof
end

section
/-! Reading the fields of a long word, format by format (R80 to R84): what `fieldsOf` writes, `readLong` reads back. -/

namespace Sys2Proof
open Machine

/-- The decoder reads every source of the instruction back beside the literal word `lit`. -/
def SrcsRead (lit : Option W32) (i : Instr) : Prop := ∀ p ∈ srcs i, SrcReads lit p.1.src

/-- The fields of an instruction word fit the word, format by format. -/
theorem fieldsOf_inRange {i : Instr} {f : Fields} (hf : fieldsOf i = some f) : f.InRange := by
  -- short forms and steps of the device have no fields
  cases i <;> cases hf
  -- format A3
  case imad | bfx | bfi | sel | prmt | fma | h2fma | fdot2 | dfma => simp [fA3_inRange]
  -- format I
  case movi | fmovi | movhi | iaddi | imuli | andi | ori | xori | shli | shri | sari | icmpi | faddi | fmuli | fmai | fcmpi | ldc | leai =>
    simp [fI_inRange]
  -- format M
  case ld | st | lds | sts | ldp | stp | ldacc | pf | cwb | cinv | ttag | ldt | qdef | qget | aadd | amin | amax | aand | aor | axor | axchg
      | ainc | acas | afadd | afmin | afmax | afadd2 | eld | est | erel | pset | enew | precast | psync | pquery | fence | acqr =>
    simp [fM_inRange]
  -- format B
  case bra | brc | call | ret | jmpi | brx | exit | yield | drain | barArr | barWait | barSync | barInit | sleep => simp [fB_inRange]
  -- formats E and P
  case wait => simp [fE_inRange, waitLow_lt]
  case tapeMark | tapeUnwind | taskDone | qfence | fcopy | pcmd | pbank | pclr | sgset | coll | collNow | bkset | bkadd | tapePush | taskPost
      | spawn | launch | syscall | hcall | tret | csrr | brk | halt | tick | ebudGet | rclassSet | rclassGet | sread | swrite | csrw | trace
      | icinv | lmapSet | lmapClr | ebudSet =>
    simp [fE_inRange]
  -- format A2
  all_goals simp [fA2_inRange]

/-! ### The groups of R80, each by its own reader -/

theorem readInteger_fieldsOf {lit : Option W32} {i : Instr} {f : Fields} (hf : fieldsOf i = some f) (hop : f.op / 32 = 0)
    (hsrc : SrcsRead lit i) : readInteger lit f = some i := by
  unfold SrcsRead at hsrc
  cases i <;> cases hf
  case nop => rfl
  case imad | bfx | bfi | sel | prmt =>
    simp [srcs] at hsrc
    simp [readInteger, hsrc]
  case mov | iadd | isub | imul | imulh | iaddw | imulw | imin | imax | iabs | and | or | xor | andn | shl | shr | sar | rot | popc | clz | ctz
      | brev | icmp | lea | vote | perm =>
    simp [srcs] at hsrc
    simp [readInteger, hsrc]
  -- the other groups
  all_goals simp at hop

theorem readFloat_fieldsOf {lit : Option W32} {i : Instr} {f : Fields} (hf : fieldsOf i = some f) (hop : f.op / 32 = 1) (hform : okForm i = true)
    (hsrc : SrcsRead lit i) : readFloat lit f = some i := by
  unfold SrcsRead at hsrc
  cases i <;> cases hf
  case cvt dir _ _ _ _ _ =>
    have hfmt := fmtOf_fmtCode (Bool.and_eq_true_iff.1 hform).1
    cases dir <;> simp [srcs] at hsrc <;> simp [readFloat, hsrc, hfmt]
  case quant | deq =>
    have hfmt := fmtOf_fmtCode (Bool.and_eq_true_iff.1 (Bool.and_eq_true_iff.1 hform).1).2
    simp [srcs] at hsrc
    simp [readFloat, hsrc, hfmt]
  case rng f _ _ _ =>
    have hfmt : okFmt f = true := by
      cases f with
      | b8 => cases hform
      | _ => rfl
    simp [srcs] at hsrc
    simp [readFloat, hsrc, fmtOf_fmtCode hfmt]
  case mmag f _ _ _ _ _ =>
    have hfmt : okFmt f = true := by
      cases f with
      | b8 => cases hform
      | _ => rfl
    simp [readFloat, fmtOf_fmtCode hfmt]
  case fma | h2fma | fdot2 | dfma =>
    simp [srcs] at hsrc
    simp [readFloat, hsrc]
  case fadd | fsub | fmul | fmac | fmin | fmax | fcmp | frcp | frsq | fsqrt | fexp2 | flog2 | frnd | fclass | fscale | h2add | h2mul | dadd | dmul
      | cmul =>
    simp [srcs] at hsrc
    simp [readFloat, hsrc]
  -- the other groups
  all_goals simp at hop

theorem readImmediate_fieldsOf {lit : Option W32} {i : Instr} {f : Fields} (hf : fieldsOf i = some f) (hop : f.op / 32 = 2)
    (hsrc : SrcsRead lit i) : readImmediate lit f = some i := by
  unfold SrcsRead at hsrc
  cases i <;> cases hf
  case movi | fmovi => simp [readImmediate]
  case movhi | iaddi | imuli | andi | ori | xori | shli | shri | sari | icmpi | faddi | fmuli | fmai | fcmpi | ldc | leai =>
    simp [srcs] at hsrc
    simp [readImmediate, hsrc]
  -- the other groups
  all_goals simp at hop

theorem readMemory_fieldsOf {lit : Option W32} {i : Instr} {f : Fields} (hf : fieldsOf i = some f) (hop : f.op / 32 = 3)
    (hsrc : SrcsRead lit i) : readMemory lit f = some i := by
  unfold SrcsRead at hsrc
  cases i <;> cases hf
  case qdef | qget => simp [readMemory]
  case ld | st | lds | sts | ldp | stp | ldacc | pf | cwb | cinv | ttag | ldt =>
    simp [srcs, vs, op] at hsrc
    simp [readMemory, hsrc]
  -- the other groups
  all_goals simp at hop

theorem readAtomic_fieldsOf {lit : Option W32} {i : Instr} {f : Fields} (hf : fieldsOf i = some f) (hop : f.op / 32 = 4)
    (hsrc : SrcsRead lit i) : readAtomic lit f = some i := by
  unfold SrcsRead at hsrc
  cases i <;> cases hf
  case enew | precast | psync | pquery | fence | acqr => simp [readAtomic]
  case aadd | amin | amax | aand | aor | axor | axchg | ainc | acas | afadd | afmin | afmax | afadd2 | eld | est | erel | pset =>
    simp [srcs, vs, op] at hsrc
    simp [readAtomic, hsrc]
  -- the other groups
  all_goals simp at hop

theorem readControl_fieldsOf {lit : Option W32} {i : Instr} {f : Fields} (hf : fieldsOf i = some f) (hop : f.op / 32 = 5)
    : readControl lit f = some i := by
  cases i <;> cases hf
  case wait => simp [readControl, waitLow_ld, waitLow_st, waitLow_cp, waitLow_tl]
  case bra | brc | call | ret | jmpi | brx | exit | yield | drain | barArr | barWait | barSync | barInit | sleep => simp [readControl]
  -- the other groups
  all_goals simp at hop

theorem readEngine_fieldsOf {lit : Option W32} {i : Instr} {f : Fields} (hf : fieldsOf i = some f) (hop : f.op / 32 = 6)
    (hsrc : SrcsRead lit i) : readEngine lit f = some i := by
  unfold SrcsRead at hsrc
  cases i <;> cases hf
  case tapeMark | tapeUnwind | taskDone | qfence => simp [readEngine]
  case fcopy | pcmd | pbank | pclr | sgset | coll | collNow | bkset | bkadd | tapePush | taskPost | spawn | launch =>
    simp [srcs, op] at hsrc
    simp [readEngine, hsrc]
  -- the other groups
  all_goals simp at hop

theorem readSystem_fieldsOf {lit : Option W32} {i : Instr} {f : Fields} (hf : fieldsOf i = some f) (hop : f.op / 32 = 7)
    (hsrc : SrcsRead lit i) : readSystem lit f = some i := by
  unfold SrcsRead at hsrc
  cases i <;> cases hf
  case syscall | hcall | tret | csrr | brk | halt | tick | ebudGet | rclassSet | rclassGet => simp [readSystem]
  case sread | swrite | csrw | trace | icinv | lmapSet | lmapClr | ebudSet =>
    simp [srcs, op] at hsrc
    simp [readSystem, hsrc]
  -- the other groups
  all_goals simp at hop

/-- What `fieldsOf` writes is read back: OP names the group (R80), and the group's lemma reads the other fields. -/
theorem readLong_fieldsOf {lit : Option W32} {i : Instr} {f : Fields} (hf : fieldsOf i = some f) (hform : okForm i = true)
    (hsrc : SrcsRead lit i) : readLong lit f = some i := by
  have hop : f.op / 32 < 8 := by
    have := (fieldsOf_inRange hf).op
    omega
  unfold readLong
  interval_cases hg : f.op / 32
  · exact readInteger_fieldsOf hf hg hsrc
  · exact readFloat_fieldsOf hf hg hform hsrc
  · exact readImmediate_fieldsOf hf hg hsrc
  · exact readMemory_fieldsOf hf hg hsrc
  · exact readAtomic_fieldsOf hf hg hsrc
  · exact readControl_fieldsOf hf hg
  · exact readEngine_fieldsOf hf hg hsrc
  · exact readSystem_fieldsOf hf hg hsrc

end Sys2Proof
end

section
/-! The words of the short forms (R33, R85), and the bytes of a word in the stream (R24). -/

namespace Sys2Proof
open Machine

/-! ### Short forms -/

theorem sWord_lt {sop d a b : Nat} (hs : sop < 64) (hd : d < 256) (ha : a < 256) (hb : b < 256) : sWord sop d a b < 2 ^ 31 := by
  unfold sWord
  omega

theorem sWord_sop {sop d a b : Nat} (hd : d < 256) (ha : a < 256) (hb : b < 256) : sWord sop d a b / 2 ^ 25 = sop := by
  unfold sWord
  omega

theorem sWord_d {sop d a b : Nat} (hd : d < 256) (ha : a < 256) (hb : b < 256) : sWord sop d a b / 2 ^ 17 % 256 = d := by
  unfold sWord
  omega

theorem sWord_a {sop d a b : Nat} (ha : a < 256) (hb : b < 256) : sWord sop d a b / 2 ^ 9 % 256 = a := by
  unfold sWord
  omega

theorem sWord_b {sop d a b : Nat} (hb : b < 256) : sWord sop d a b / 2 % 256 = b := by
  unfold sWord
  omega

/-- The word w has the fields of a short form in range, and they are read back as i. -/
def ShortReads (i : Instr) (w : Nat) : Prop :=
  ∃ sop d a b, w = sWord sop d a b ∧ sop < 64 ∧ d < 256 ∧ a < 256 ∧ b < 256 ∧ readShort sop d a b = some i

theorem ShortReads.word_lt {i : Instr} {w : Nat} (h : ShortReads i w) : w < 2 ^ 31 := by
  obtain ⟨sop, d, a, b, rfl, hs, hd, ha, hb, -⟩ := h
  exact sWord_lt hs hd ha hb

theorem ShortReads.read_fields {i : Instr} {w : Nat} (h : ShortReads i w) :
    readShort (w / 2 ^ 25) (w / 2 ^ 17 % 256) (w / 2 ^ 9 % 256) (w / 2 % 256) = some i := by
  obtain ⟨sop, d, a, b, rfl, hs, hd, ha, hb, hread⟩ := h
  rw [sWord_sop hd ha hb, sWord_d hd ha hb, sWord_a ha hb, sWord_b hb, hread]

/-- A short form with two sources, as `readShort` reads it. -/
theorem readTwo_codes (C : Dst → Src → Src → Instr) (d : Dst) {a b : Src} (ha : SrcReads none a) (hb : SrcReads none b) :
    (do return C (← dstOf (dstC d)) (← srcOf none (srcC a)) (← srcOf none (srcC b))) = some (C d a b) := by
  simp [ha, hb]

/-- A short form with one source. -/
theorem readOne_codes (C : Dst → Src → Instr) (d : Dst) {a : Src} (ha : SrcReads none a) :
    (do return C (← dstOf (dstC d)) (← srcOf none (srcC a))) = some (C d a) := by
  simp [ha]

theorem shortWord_reads {i j : Instr} {w : Nat} (hw : shortWord i = some w) (hj : expandShort i = some j) (hsrc : SrcsRead none j) :
    ShortReads i w := by
  cases i <;> cases hw
  case nopShort => exact ⟨_, _, _, _, rfl, by decide, by decide, by decide, by decide, rfl⟩
  case movShort | iabsShort | popcShort | clzShort | ctzShort | brevShort | frcpShort | frsqShort | fsqrtShort | fexp2Short | flog2Short
      | frndShort | fclassShort | cvtI32F32Short | cvtF32I32Short =>
    cases hj
    exact ⟨_, _, _, _, rfl, by decide, dstC_lt _, srcC_lt_byte _, by decide, readOne_codes _ _ (hsrc _ (.head _))⟩
  -- the forms whose third source is the destination
  case imadShort | selShort | fmaShort | h2fmaF16Short | h2fmaBf16Short | fdot2F16Short | fdot2Bf16Short | dfmaShort =>
    obtain ⟨c, -, rfl⟩ := Option.map_eq_some_iff.1 hj
    exact ⟨_, _, _, _, rfl, by decide, dstC_lt _, srcC_lt_byte _, srcC_lt_byte _,
      readTwo_codes _ _ (hsrc _ (.head _)) (hsrc _ (.tail _ (.head _)))⟩
  all_goals
    cases hj
    exact ⟨_, _, _, _, rfl, by decide, dstC_lt _, srcC_lt_byte _, srcC_lt_byte _,
      readTwo_codes _ _ (hsrc _ (.head _)) (hsrc _ (.tail _ (.head _)))⟩

/-! ### Big-endian bytes -/

theorem leNat_leBytes (n x : Nat) : leNat (leBytes n x) = x % 256 ^ n := by
  induction n generalizing x with
  | zero => simp [leBytes, leNat, Nat.mod_one]
  | succ n ih =>
    rw [leBytes, leNat, ih, BitVec.toNat_ofNat, pow_succ' 256 n, Nat.mod_mul]

@[simp] theorem length_leBytes (n x : Nat) : (leBytes n x).length = n := by
  induction n generalizing x with
  | zero => rfl
  | succ n ih => rw [leBytes, List.length_cons, ih]

@[simp] theorem length_beBytes (n x : Nat) : (beBytes n x).length = n := by rw [beBytes, List.length_reverse, length_leBytes]

theorem beNat_beBytes {n x : Nat} (h : x < 256 ^ n) : beNat (beBytes n x) = x := by
  rw [beNat, beBytes, List.reverse_reverse, leNat_leBytes, Nat.mod_eq_of_lt h]

/-- The first of the bytes is the most significant one. -/
theorem beBytes_succ (n x : Nat) : beBytes (n + 1) x = BitVec.ofNat 8 (x / 256 ^ n) :: beBytes n x := by
  induction n generalizing x with
  | zero => simp [beBytes, leBytes]
  | succ n ih =>
    have hsnoc (m y : Nat) : beBytes (m + 1) y = beBytes m (y / 256) ++ [BitVec.ofNat 8 y] := by simp [beBytes, leBytes]
    rw [hsnoc, ih, hsnoc n x, Nat.div_div_eq_div_mul, ← pow_succ', List.cons_append]

/-- The first byte of a word of n + 1 bytes gives the length of its instruction (R24). -/
theorem lenOf_first {n x : Nat} (h : x < 256 ^ (n + 1)) :
    lenOf (BitVec.ofNat 8 (x / 256 ^ n)) = if x / 256 ^ n < 128 then 4 else if x / 256 ^ n < 192 then 8 else 12 := by
  have hlt : x / 256 ^ n < 256 := Nat.div_lt_of_lt_mul (by rwa [← pow_succ])
  rw [lenOf, BitVec.toNat_ofNat, Nat.mod_eq_of_lt hlt]

end Sys2Proof
end

section
/-! Decoding and encoding agree (R24, R33, R34, R74): what `encode` writes is read back, and what is accepted is what `encode` writes. -/

namespace Sys2Proof
open Machine

/-! ### What the fill admits, by form -/

/-- The literal words that an instruction names are one word at most (R44). -/
def oneLit : List W32 → Bool
  | [] => true
  | w :: ws => ws.all (· == w)

theorem oneLit_cons {w : W32} {ws : List W32} (h : oneLit (w :: ws) = true) : ∀ x ∈ w :: ws, x = w := by
  intro x hx
  rcases List.mem_cons.1 hx with rfl | hx
  · rfl
  · simpa using List.all_eq_true.1 h x hx

/-- The sources that are read back are those whose literal is the word's. -/
theorem srcsRead_of_lits {lit : Option W32} {i : Instr} (h : ∀ w ∈ lits i, lit = some w) : SrcsRead lit i := by
  intro p hp w hw
  exact h w (List.mem_filterMap.2 ⟨p, hp, by rw [hw]⟩)

theorem okForm_of_legalLong {i : Instr} (h : legalLong i = true) : okForm i = true := by
  simp only [legalLong, Bool.and_eq_true] at h
  obtain ⟨⟨⟨hform, -⟩, -⟩, -⟩ := h
  exact hform

/-- A short form is admitted by its expansion, which names no literal (R33). -/
theorem expandShort_of_legal {i : Instr} {w : Nat} (hw : shortWord i = some w) (hl : legal i = true) :
    ∃ j, expandShort i = some j ∧ lits j = [] := by
  unfold legal at hl
  cases hj : expandShort i with
  | some j =>
    rw [hj] at hl
    exact ⟨j, rfl, List.isEmpty_iff.1 (Bool.and_eq_true_iff.1 hl).2⟩
  | none =>
    rw [hj] at hl
    cases i <;> cases hw <;> cases hl

/-- Every other instruction word has fields, and is admitted as a long form with one literal at most. -/
theorem fieldsOf_of_legal {i : Instr} (hw : shortWord i = none) (he : isEvent i = false) (hl : legal i = true) :
    (∃ f, fieldsOf i = some f) ∧ legalLong i = true ∧ oneLit (lits i) = true := by
  have hlong : (∃ f, fieldsOf i = some f) ∧ legal i = (legalLong i && oneLit (lits i)) := by
    cases i <;> cases hw <;> cases he <;> exact ⟨⟨_, rfl⟩, rfl⟩
  rw [hlong.2] at hl
  exact ⟨hlong.1, Bool.and_eq_true_iff.1 hl⟩

/-- A step of the device is no word of the code stream. -/
theorem encode_of_isEvent {i : Instr} (h : isEvent i = true) : encode i = none := by
  cases i <;> cases h <;> rfl

/-! ### Accepting a word -/

theorem accept_eq_ok {bs : List Byte} {o : Option Instr} {i : Instr} :
    accept bs o = .ok i ↔ o = some i ∧ encode i = some bs ∧ legal i = true := by
  cases o with
  | none => simp [accept]
  | some j =>
    by_cases he : encode j = some bs
    · by_cases hl : legal j = true
      · simp only [accept, he, hl, ne_eq, not_true_eq_false, if_false, if_true, Decoded.ok.injEq, Option.some.injEq]
        exact ⟨fun h => h ▸ ⟨rfl, he, hl⟩, fun h => h.1⟩
      · simp only [accept, he, hl, ne_eq, not_true_eq_false, if_false, reduceCtorEq, Option.some.injEq, false_iff]
        rintro ⟨rfl, -, h⟩
        exact hl h
    · simp only [accept, he, ne_eq, not_false_eq_true, if_true, reduceCtorEq, Option.some.injEq, false_iff]
      rintro ⟨rfl, h, -⟩
      exact he h

theorem decodeExact_eq_ok {bs : List Byte} {i : Instr} (h : decodeExact bs = .ok i) : encode i = some bs ∧ legal i = true := by
  unfold decodeExact at h
  split at h
  · exact (accept_eq_ok.1 h).2
  · exact (accept_eq_ok.1 h).2
  · exact (accept_eq_ok.1 h).2
  · cases h

/-! ### One word -/

/-- The bytes of i are those of one instruction by their first byte (R24), and the decoder reads i from them. -/
def Decodes (i : Instr) (bs : List Byte) : Prop := (∃ b t, bs = b :: t ∧ lenOf b = bs.length) ∧ decodeExact bs = .ok i

/-- What follows in the stream does not matter. -/
theorem Decodes.decode_append {i : Instr} {bs : List Byte} (h : Decodes i bs) (rest : List Byte) : decode (bs ++ rest) = (.ok i, bs.length) := by
  obtain ⟨⟨b, t, rfl, hlen⟩, hd⟩ := h
  have hlong : ¬((b :: (t ++ rest)).length < lenOf b) := by
    rw [hlen]
    simp
  rw [List.cons_append, decode, if_neg hlong, hlen, ← List.cons_append, List.take_left, hd]

theorem decodes_short {i : Instr} {w : Nat} (hw : shortWord i = some w) (hl : legal i = true) : Decodes i (beBytes 4 w) := by
  obtain ⟨j, hj, hlits⟩ := expandShort_of_legal hw hl
  have hread : ShortReads i w := shortWord_reads hw hj (srcsRead_of_lits (by simp [hlits]))
  have hlt := hread.word_lt
  have henc : encode i = some (beBytes 4 w) := by rw [encode, hw]
  refine ⟨⟨_, _, beBytes_succ 3 w, ?_⟩, ?_⟩
  · rw [lenOf_first (by omega), length_beBytes, if_pos (by omega)]
  · simp only [decodeExact, length_beBytes]
    rw [beNat_beBytes (by omega), hread.read_fields]
    exact accept_eq_ok.2 ⟨rfl, henc, hl⟩

theorem decodes_long {i : Instr} {f : Fields} (hw : shortWord i = none) (hf : fieldsOf i = some f) (hlits : lits i = []) (hform : okForm i = true)
    (hl : legal i = true) : Decodes i (beBytes 8 (2 * 2 ^ 62 + f.word)) := by
  have hlt := (fieldsOf_inRange hf).word_lt
  have henc : encode i = some (beBytes 8 (2 * 2 ^ 62 + f.word)) := by simp only [encode, hw, hf, hlits]
  refine ⟨⟨_, _, beBytes_succ 7 _, ?_⟩, ?_⟩
  · rw [lenOf_first (by omega), length_beBytes, if_neg (by omega), if_pos (by omega)]
  · have hword : (2 * 2 ^ 62 + f.word) % 2 ^ 62 = f.word := by omega
    simp only [decodeExact, length_beBytes]
    rw [beNat_beBytes (by omega), hword, (fieldsOf_inRange hf).fieldsOfWord_word, readLong_fieldsOf hf hform (srcsRead_of_lits (by simp [hlits]))]
    exact accept_eq_ok.2 ⟨rfl, henc, hl⟩

theorem decodes_lit {i : Instr} {f : Fields} {l : W32} {ls : List W32} (hw : shortWord i = none) (hf : fieldsOf i = some f)
    (hlits : lits i = l :: ls) (hone : oneLit (l :: ls) = true) (hform : okForm i = true) (hl : legal i = true) :
    Decodes i (beBytes 8 (3 * 2 ^ 62 + f.word) ++ beBytes 4 l.toNat) := by
  have hlt := (fieldsOf_inRange hf).word_lt
  have henc : encode i = some (beBytes 8 (3 * 2 ^ 62 + f.word) ++ beBytes 4 l.toNat) := by simp only [encode, hw, hf, hlits]
  have hsrc : SrcsRead (some l) i := srcsRead_of_lits (fun w hmem => by rw [oneLit_cons hone w (hlits ▸ hmem)])
  refine ⟨⟨_, beBytes 7 (3 * 2 ^ 62 + f.word) ++ beBytes 4 l.toNat, by rw [beBytes_succ 7, List.cons_append], ?_⟩, ?_⟩
  · rw [lenOf_first (by omega), List.length_append, length_beBytes, length_beBytes, if_neg (by omega), if_neg (by omega)]
  · have hword : (3 * 2 ^ 62 + f.word) % 2 ^ 62 = f.word := by omega
    have hlit : beNat (beBytes 4 l.toNat) = l.toNat := beNat_beBytes l.isLt
    simp only [decodeExact, List.length_append, length_beBytes]
    rw [List.take_left' (length_beBytes ..), List.drop_left' (length_beBytes ..), hlit, BitVec.ofNat_toNat, BitVec.setWidth_eq,
      beNat_beBytes (by omega), hword, (fieldsOf_inRange hf).fieldsOfWord_word, readLong_fieldsOf hf hform hsrc]
    exact accept_eq_ok.2 ⟨rfl, henc, hl⟩

theorem encode_decodes {i : Instr} (hl : legal i = true) (he : isEvent i = false) : ∃ bs, encode i = some bs ∧ Decodes i bs := by
  cases hw : shortWord i with
  | some w =>
    exact ⟨_, by rw [encode, hw], decodes_short hw hl⟩
  | none =>
    obtain ⟨⟨f, hf⟩, hlong, hone⟩ := fieldsOf_of_legal hw he hl
    have hform := okForm_of_legalLong hlong
    cases hlits : lits i with
    | nil => exact ⟨_, by simp only [encode, hw, hf, hlits], decodes_long hw hf hlits hform hl⟩
    | cons l ls => exact ⟨_, by simp only [encode, hw, hf, hlits], decodes_lit hw hf hlits (hlits ▸ hone) hform hl⟩

/-- Settles O59: `encode_decodes` for what the fill admits; what is accepted was compared with its encoding. -/
theorem decodeEncodeAgree : Obligations.DecodeEncodeAgree := by
  unfold Obligations.DecodeEncodeAgree
  refine ⟨fun i hwf he => ?_, fun bs i hd => ?_⟩
  · obtain ⟨bs, henc, hdec⟩ := encode_decodes hwf he
    exact ⟨bs, henc, hdec.2, hdec.decode_append⟩
  · obtain ⟨henc, hl⟩ := decodeExact_eq_ok hd
    refine ⟨henc, hl, Bool.eq_false_iff.2 fun he => ?_⟩
    rw [encode_of_isEvent he] at henc
    cases henc

end Sys2Proof
end

section
/-! Words written out from the encoding tables (R24, R33, R75 to R85), read by the decoder. -/

namespace Sys2Proof

/-- Settles O57: each word is a number, which the decoder reads in the kernel. -/
theorem decodeSamples : Obligations.DecodeSamples := by
  unfold Obligations.DecodeSamples
  and_intros <;> decide +kernel

end Sys2Proof
end

section
/-! Fills over a page boundary (R35, R338): the errors of the second page are counted even where the first page is denied. -/

namespace Sys2Proof.Machine

/-- A page of 4 KiB at its own address. An engine uses it, so its translation is the held one (R316). -/
def pinnedPage (at_ : Nat) (k : PKind) : TlbEnt :=
  { vmid := 0, asid := 0, vpage := at_, inflight := 1
    attr := { frame := at_, size := 4096, kind := k, rclass := .proof, sto := false, ua := true, rd := true, wr := k != .code, ex := true, region := none } }

/-- A lane whose next word begins in the last four bytes of an ordinary page, where no fetch is admitted. By its first byte the word has eight
bytes, and the four others lie on a code page, the first of them written in another class than the page's (R339). The error log has room. -/
def wordFromDeniedPage : State :=
  { State.reset with
    elsize := 1
    groups := [(1, { gang := 2, place := .resident 0, lanes := [{ at_ := .word 0x20000#64 512 0x20FFC#64 2, st := .run }] })]
    gangs := [(2, { core := 0, launch := 3, groups := [1], privsz := 64 })]
    tlbs := [(0, [pinnedPage 0x20000 .ordinary, pinnedPage 0x21000 .code])]
    byteClass := [(0x21000, .draft)]
    mem := [(0x20FFC, 0x80#8)] }

theorem wordFromDeniedPage_wanting : wanting wordFromDeniedPage 0 0x20FFC#64 = some (1, 0) := by decide +kernel

theorem wordFromDeniedPage_denied : codeReach (reach wordFromDeniedPage 0 0 0x20FFC#64 .fetch .u) = .access := by decide +kernel

/-- The fill counts the error of the code page, and the record of its event goes to the log in host memory (R345). -/
theorem wordFromDeniedPage_logs : ∀ t, exec (.fill 0 0x20FFC) wordFromDeniedPage = .next t → t.mem ≠ wordFromDeniedPage.mem := by
  have h : (match exec (.fill 0 0x20FFC) wordFromDeniedPage with
      | .next t => decide (t.mem ≠ wordFromDeniedPage.mem)
      | _ => false) = true := by decide +kernel
  intro t ht
  rw [ht] at h
  exact of_decide_eq_true h

/-- Refutes O43: for a word whose first page is denied the statement has the fill mark the word and leave memory alone, but the fill counts what it
meets on the word's second page all the same, and the event's record is written to memory. -/
theorem not_coreSteps : ¬ Obligations.CoreSteps := by
  unfold Obligations.CoreSteps
  intro h
  obtain ⟨hfill, -⟩ := h wordFromDeniedPage 0 rfl
  have hmark := hfill 0x20FFC 1 0 wordFromDeniedPage_wanting
  have hdenied : codeReach (reach wordFromDeniedPage (vmidOf wordFromDeniedPage (ctxOf wordFromDeniedPage 1))
      (asidOf wordFromDeniedPage (ctxOf wordFromDeniedPage 1)) (BitVec.ofNat 64 0x20FFC) .fetch (lane wordFromDeniedPage 1 0).mode) = .access :=
    wordFromDeniedPage_denied
  simp only [hdenied] at hmark
  obtain ⟨t, ht, hmem, -⟩ := hmark
  exact wordFromDeniedPage_logs t ht hmem

end Sys2Proof.Machine
end

section
/-! What a result changes (R48, R49, R56, R66): the registers and the last-result file of a lane, what is noted of it, and the set's lanes after it. -/

namespace Sys2Proof.Machine

/-! ### A result in one lane (R48, R49) -/

/-- Two lanes differ in no more than register words, and what is noted about their errors. -/
def RegsOnly (old new : Lane) : Prop :=
  { new with v := old.v, vpois := old.vpois, vmark := old.vmark, o := old.o, h0 := old.h0, h1 := old.h1 } = old

theorem RegsOnly.trans {a b c : Lane} (hab : RegsOnly a b) (hbc : RegsOnly b c) : RegsOnly a c := by
  unfold RegsOnly at *
  exact (congrArg (fun x : Lane => { x with v := a.v, vpois := a.vpois, vmark := a.vmark, o := a.o, h0 := a.h0, h1 := a.h1 }) hbc).trans hab

theorem RegsOnly.fmode {a b : Lane} (h : RegsOnly a b) : b.fmode = a.fmode := (congrArg Lane.fmode h :)
theorem RegsOnly.srcnt {a b : Lane} (h : RegsOnly a b) : b.srcnt = a.srcnt := (congrArg Lane.srcnt h :)
theorem RegsOnly.at_ {a b : Lane} (h : RegsOnly a b) : b.at_ = a.at_ := (congrArg Lane.at_ h :)

theorem regsOnly_setReg (ln : Lane) (n : Nat) (x : W32) : RegsOnly ln (setReg ln n x) := by
  unfold RegsOnly setReg
  split
  · rfl
  · split
    · rfl
    · split <;> rfl

theorem regsOnly_setRegs (ln : Lane) (n cnt x : Nat) : RegsOnly ln (setRegs ln n cnt x) := by
  induction cnt generalizing ln n x with
  | zero => exact rfl
  | succ cnt ih => exact (regsOnly_setReg ln n _).trans (ih _ _ _)

theorem regsOnly_shiftH (ln : Lane) (wide : Bool) (x : Nat) : RegsOnly ln (shiftH ln wide x) := by
  cases wide <;> exact rfl

theorem regsOnly_writeResult (ln : Lane) (d : Dst) (n x : Nat) : RegsOnly ln (writeResult ln d n x) := by
  unfold writeResult
  cases dstReg d with
  | none => exact regsOnly_shiftH ln _ x
  | some m => exact (regsOnly_setRegs ln m n x).trans (regsOnly_shiftH _ _ x)

/-- A destination register is none of the last-result file's. -/
theorem dstReg_add_le {d : Dst} {n m : Nat} (hv : ∀ k, d = .v k → k.val + n ≤ 128) (ho : ∀ k, d = .o k → k.val + n ≤ 8)
    (hm : dstReg d = some m) : m + n ≤ 136 := by
  cases d with
  | v k => have := hv k rfl; cases hm; omega
  | o k => have := ho k rfl; cases hm; omega
  | _ => cases hm

theorem h0_setReg {n : Nat} (ln : Lane) (x : W32) (hn : n < 136) : (setReg ln n x).h0 = ln.h0 := by
  unfold setReg
  split <;> rfl

theorem h0_setRegs {n cnt : Nat} (ln : Lane) (x : Nat) (hn : n + cnt ≤ 136) : (setRegs ln n cnt x).h0 = ln.h0 := by
  induction cnt generalizing ln n x with
  | zero => rfl
  | succ cnt ih => rw [setRegs, ih _ _ (by omega), h0_setReg _ _ (by omega)]

theorem getReg_shiftH {k : Nat} (ln : Lane) (wide : Bool) (x : Nat) (hk : k < 136) : getReg (shiftH ln wide x) k = getReg ln k := by
  cases wide <;> simp [shiftH, getReg, hk]

theorem writeResult_of_none {d : Dst} (hd : dstReg d = none) (ln : Lane) (n x : Nat) : writeResult ln d n x = shiftH ln (n == 2) x := by
  simp [writeResult, hd]

theorem writeResult_of_some {d : Dst} {m : Nat} (hd : dstReg d = some m) (ln : Lane) (n x : Nat) :
    writeResult ln d n x = shiftH (setRegs ln m n x) (n == 2) x := by
  simp [writeResult, hd]

/-- A result of one or two words is shifted into the last-result file (R49). -/
theorem hs_writeResult {d : Dst} {n : Nat} (ln : Lane) (x : Nat) (hn : n = 1 ∨ n = 2) (hd : ∀ m, dstReg d = some m → m + n ≤ 136) :
    (writeResult ln d n x).h0 = BitVec.ofNat 32 x ∧ (writeResult ln d n x).h1 = if n = 2 then BitVec.ofNat 32 (x / 2 ^ 32) else ln.h0 := by
  cases h : dstReg d with
  | none => rw [writeResult_of_none h]; rcases hn with rfl | rfl <;> simp [shiftH]
  | some m => rw [writeResult_of_some h]; rcases hn with rfl | rfl <;> simp [shiftH, h0_setRegs _ _ (hd m h)]

/-- The registers that a result of one or two words writes, and the others (R48). -/
theorem getReg_writeResult {d : Dst} {n k : Nat} (ln : Lane) (x : Nat) (hn : n = 1 ∨ n = 2) (hd : ∀ m, dstReg d = some m → m + n ≤ 136)
    (hk : k < 136) : getReg (writeResult ln d n x) k =
      match dstReg d with
      | some m => if k = m then BitVec.ofNat 32 x else if n = 2 ∧ k = m + 1 then BitVec.ofNat 32 (x / 2 ^ 32) else getReg ln k
      | none => getReg ln k := by
  cases h : dstReg d with
  | none => rw [writeResult_of_none h, getReg_shiftH _ _ _ hk]
  | some m =>
    have hm := hd m h
    rw [writeResult_of_some h, getReg_shiftH _ _ _ hk]
    rcases hn with rfl | rfl
    · simp [setRegs, getReg_setReg ln m k _ (by omega) (by omega), eq_comm]
    · simp only [setRegs, getReg_setReg _ (m + 1) k _ (by omega) (by omega), getReg_setReg ln m k _ (by omega) (by omega), true_and]
      by_cases h0 : k = m
      · simp [h0]
      · simp [h0, Ne.symm h0, eq_comm]

/-! ### The lane after a result (R56, R66) -/

theorem laneAfter_eq (r : Res) (x : Bool) (d : Dst) (n len : Nat) (ln : Lane) :
    laneAfter r x d n len ln = advance (writeResult (laneNoted r x ln) d n r.val) len := rfl

/-- Noting flags, XLANE and SRCNT changes FMODE and SRCNT alone. -/
theorem laneNoted_eq (r : Res) (x : Bool) (ln : Lane) : laneNoted r x ln =
    { ln with
      fmode := ln.fmode ||| BitVec.ofNat 32 (r.flags % 32 * 16) ||| (if x || r.xlane then 0x4000#32 else 0#32)
      srcnt := (r.cnt.map (BitVec.ofNat 64)).getD ln.srcnt } := by
  unfold laneNoted setXlane
  cases r.cnt <;> cases hx : x || r.xlane <;> simp [setFlags, orFmode, flagBits]

/-- A lane with a result differs from the lane before in its registers, flags, SRCNT and place alone. -/
theorem laneAfter_frame (r : Res) (x : Bool) (d : Dst) (n len : Nat) (ln : Lane) :
    { laneAfter r x d n len ln with
      v := ln.v, vpois := ln.vpois, vmark := ln.vmark, o := ln.o, h0 := ln.h0, h1 := ln.h1, fmode := ln.fmode, srcnt := ln.srcnt, at_ := ln.at_ } = ln := by
  have h := regsOnly_writeResult (laneNoted r x ln) d n r.val
  rw [laneNoted_eq] at h
  rw [laneAfter_eq, laneNoted_eq]
  exact congrArg (fun y : Lane => { y with fmode := ln.fmode, srcnt := ln.srcnt, at_ := ln.at_ }) h

theorem laneAfter_fmode (r : Res) (x : Bool) (d : Dst) (n len : Nat) (ln : Lane) : (laneAfter r x d n len ln).fmode =
    ln.fmode ||| BitVec.ofNat 32 (r.flags % 32 * 16) ||| (if x || r.xlane then 0x4000#32 else 0#32) := by
  have h := (regsOnly_writeResult (laneNoted r x ln) d n r.val).fmode
  rw [laneNoted_eq] at h
  rw [laneAfter_eq, laneNoted_eq]
  exact h

theorem laneAfter_srcnt (r : Res) (x : Bool) (d : Dst) (n len : Nat) (ln : Lane) : (laneAfter r x d n len ln).srcnt =
    (r.cnt.map (BitVec.ofNat 64)).getD ln.srcnt := by
  have h := (regsOnly_writeResult (laneNoted r x ln) d n r.val).srcnt
  rw [laneNoted_eq] at h
  rw [laneAfter_eq, laneNoted_eq]
  exact h

theorem laneAfter_at (r : Res) (x : Bool) (d : Dst) (n len : Nat) (ln : Lane) : (laneAfter r x d n len ln).at_ = advancePos ln.at_ len := by
  have h := (regsOnly_writeResult (laneNoted r x ln) d n r.val).at_
  rw [laneNoted_eq] at h
  rw [laneAfter_eq, laneNoted_eq, advance, h]

theorem laneAfter_hs {d : Dst} {n : Nat} (r : Res) (x : Bool) (len : Nat) (ln : Lane) (hn : n = 1 ∨ n = 2)
    (hd : ∀ m, dstReg d = some m → m + n ≤ 136) : (laneAfter r x d n len ln).h0 = BitVec.ofNat 32 r.val ∧
      (laneAfter r x d n len ln).h1 = if n = 2 then BitVec.ofNat 32 (r.val / 2 ^ 32) else ln.h0 := by
  rw [laneAfter_eq, laneNoted_eq]
  exact hs_writeResult _ r.val hn hd

theorem getReg_laneAfter {d : Dst} {n k : Nat} (r : Res) (x : Bool) (len : Nat) (ln : Lane) (hn : n = 1 ∨ n = 2)
    (hd : ∀ m, dstReg d = some m → m + n ≤ 136) (hk : k < 136) : getReg (laneAfter r x d n len ln) k =
      match dstReg d with
      | some m => if k = m then BitVec.ofNat 32 r.val else if n = 2 ∧ k = m + 1 then BitVec.ofNat 32 (r.val / 2 ^ 32) else getReg ln k
      | none => getReg ln k := by
  rw [laneAfter_eq, laneNoted_eq]
  exact getReg_writeResult _ r.val hn hd hk

/-! ### The state after a result -/

/-- Every lane after a round of changes of lanes that are there. -/
theorem lane_modLanes_of_bound {s : State} {u : Nat} {ls : List Nat} (f : Nat → Lane → Lane) (hg : (tGet? s.groups u).isSome = true)
    (hn : ls.Nodup) (hb : ∀ l ∈ ls, l < (grp s u).lanes.length) (k : Nat) :
    lane (modLanes s u ls f) u k = if k ∈ ls then f k (lane s u k) else lane s u k := by
  by_cases hk : k < (grp s u).lanes.length
  · exact lane_modLanes s u ls f k hg hn hk
  · have hk' : k ∉ ls := fun h => hk (hb k h)
    unfold lane modLanes
    rw [grp_modGrp s u u _ hg, if_pos rfl, laneAt_foldl_modLaneG ls f _ k hn]
    simp [hk']

theorem lane_retired {s : State} (hs : SetOk s) (os : List (Opnd × OTy)) (d : Dst) (n : Nat) (r : Nat → Res) (l : Nat) :
    lane (retired s os d n r) s.cur.uid l =
      if l ∈ s.cur.lanes then laneAfter (r l) (crosses s os l) d n s.cur.len (curLane s l) else curLane s l :=
  lane_modLanes_of_bound (s := { s with fresh := s.fresh + 1, free := s.free + 64 }) _ hs.here hs.nodup hs.bound l

/-- Settles O13: the set's lanes are each `laneAfter`, and the runner's round of changes touches nothing else. -/
theorem resultFrame : Obligations.ResultFrame := by
  unfold Obligations.ResultFrame
  intro s os d n r hs hn hv ho t u
  have hd : ∀ m, dstReg d = some m → m + n ≤ 136 := fun m => dstReg_add_le hv ho
  have hgrp : ∀ v, grp t v = if u = v then _ else grp s v :=
    fun v => grp_modGrp { s with fresh := s.fresh + 1, free := s.free + 64 } u v _ hs.here
  refine ⟨rfl, fun v hne => ?_, ?_, fun l hl => ?_, fun l hl => ?_⟩
  · rw [hgrp, if_neg (Ne.symm hne)]
  · rw [hgrp, if_pos rfl]
    exact (lanes_foldl_modLaneG ..).2
  · rw [lane_retired hs, if_neg hl, curLane]
  · intro old new x
    have hnew : new = laneAfter (r l) (crosses s os l) d n s.cur.len old := (lane_retired hs os d n r l).trans (if_pos hl)
    rw [hnew]
    exact ⟨laneAfter_hs _ _ _ _ hn hd, fun k hk => getReg_laneAfter _ _ _ _ hn hd hk, laneAfter_fmode .., laneAfter_srcnt .., laneAfter_at ..,
      laneAfter_frame ..⟩

end Sys2Proof.Machine
end

section
/-! What a source field delivers to a lane (R42 to R47, R55, R56): registers through a pattern, constants, immediates, literals, identities. -/

namespace Sys2Proof.Machine

/-! ### Registers through a pattern (R46, R47, R55, R56) -/

theorem getRegs_one (ln : Lane) (n : Nat) : getRegs ln n 1 = (getReg ln n).toNat := by simp [getRegs]

theorem getRegs_two (ln : Lane) (n : Nat) : getRegs ln n 2 = (getReg ln n).toNat + 2 ^ 32 * (getReg ln (n + 1)).toNat := by simp [getRegs]

/-- Two words with the low one first are below 2^64. -/
theorem two_words_lt (x y : W32) : x.toNat + 2 ^ 32 * y.toNat < 2 ^ 64 := by
  have hx := x.isLt
  have hy := y.isLt
  omega

theorem val_readCross (g : Group) (ls : List Nat) (src n cnt : Nat) :
    (readCross g ls src n cnt).val = if src ∈ ls then getRegs (laneAt g src) n cnt else 0 := by
  by_cases h : src ∈ ls <;> simp [readCross, readRegs, h]

theorem xlane_readCross (g : Group) (ls : List Nat) (src n cnt : Nat) : (readCross g ls src n cnt).xlane = decide (src ∉ ls) := by
  by_cases h : src ∈ ls <;> simp [readCross, readRegs, h]

/-- Word n of the lane that pattern p selects for lane l, 0 where that lane is outside the set (R55). -/
def fromLane (s : State) (p : Pat) (l n : Nat) : Nat :=
  if patLane p l ∈ s.cur.lanes then (getReg (curLane s (patLane p l)) n).toNat else 0

theorem cut_readCross_one (s : State) (p : Pat) (l n : Nat) :
    cutTo (.int 32) (readCross (grp s s.cur.uid) s.cur.lanes (patLane p l) n 1).val = fromLane s p l n := by
  rw [val_readCross, getRegs_one]
  unfold fromLane
  split
  · exact Nat.mod_eq_of_lt (getReg _ n).isLt
  · rfl

theorem cut_readCross_two (s : State) (p : Pat) (l n : Nat) :
    cutTo (.int 64) (readCross (grp s s.cur.uid) s.cur.lanes (patLane p l) n 2).val = fromLane s p l n + 2 ^ 32 * fromLane s p l (n + 1) := by
  rw [val_readCross, getRegs_two]
  unfold fromLane
  split
  · exact Nat.mod_eq_of_lt (two_words_lt _ _)
  · rfl

theorem crosses_singleton (s : State) (o : Opnd) (t : OTy) (l : Nat) :
    crosses s [(o, t)] l = (readSrc s s.cur.uid s.cur.lanes t o l).xlane := by simp [crosses]

/-- A pattern of 32 lanes selects one of them without a further wrap (R55). -/
theorem patLane_bf (k : Fin 32) {l : Nat} (hl : l < 32) : patLane (.bf k) l = l ^^^ k.val :=
  Nat.mod_eq_of_lt (Nat.xor_lt_two_pow (n := 5) hl k.isLt)

/-! ### The constant window, the lane's number and the group's word (R42, R45) -/

theorem opnd_c_word (s : State) (p : Pat) (n : Fin 64) (l : Nat) :
    opnd s (.int 32) ⟨.c n, p⟩ l = (smGet 0 (grp s s.cur.uid).cbank n.val).toNat :=
  Nat.mod_eq_of_lt (BitVec.isLt (smGet 0 (grp s s.cur.uid).cbank n.val))

theorem opnd_c_pair (s : State) (p : Pat) (n : Fin 64) (l : Nat) : opnd s (.int 64) ⟨.c n, p⟩ l =
    (smGet 0 (grp s s.cur.uid).cbank n.val).toNat + 2 ^ 32 * (smGet 0 (grp s s.cur.uid).cbank (n.val + 1)).toNat :=
  Nat.mod_eq_of_lt (two_words_lt _ _)

theorem opnd_lane (s : State) (p : Pat) {w l : Nat} (hl : l < 2 ^ w) : opnd s (.int w) ⟨.lane, p⟩ l = l := Nat.mod_eq_of_lt hl

/-- The group's word lays its four numbers out side by side (R45). -/
theorem grpWord_of_fields {s : State} {u k : Nat} (hk : slotOf (grp s u) = some k) (hn : (gangOf s u).groups.length ≤ 16)
    (hi : (grp s u).gidx < 16) :
    grpWord s u = coreOf s u * 2 ^ 13 + k * 2 ^ 8 + ((gangOf s u).groups.length - 1) * 2 ^ 4 + (grp s u).gidx := by
  simp only [grpWord, hk, Option.getD_some, Nat.mod_eq_of_lt hi, Nat.mod_eq_of_lt (show (gangOf s u).groups.length - 1 < 16 by omega)]

theorem opnd_grp {s : State} (p : Pat) {w l : Nat} (h : grpWord s s.cur.uid < 2 ^ w) : opnd s (.int w) ⟨.grp, p⟩ l = grpWord s s.cur.uid :=
  Nat.mod_eq_of_lt h

/-! ### Immediates (R43) -/

theorem opnd_imm (s : State) (t : OTy) (p : Pat) (k : Fin 32) (l : Nat) : opnd s t ⟨.imm k, p⟩ l = immCode t (immVal k) := rfl

theorem immVal_eq_toInt (k : Fin 32) : immVal k = (BitVec.ofNat 5 k.val).toInt := sext_eq_toInt 5 k.val (by decide)

theorem immCode_int (w : Nat) (k : Fin 32) : immCode (.int w) (immVal k) = ((BitVec.ofNat 5 k.val).signExtend w).toNat := by
  rw [immCode, wrap_eq_ofInt, immVal_eq_toInt, BitVec.signExtend]

/-- `isExactly` as a test. -/
def exactlyB (v : FVal) (k : Int) : Bool :=
  match v with
  | .fin n m e => n == decide (k < 0) && m * 2 ^ e.toNat == k.natAbs * 2 ^ (-e).toNat
  | _ => false

theorem isExactly_of_exactlyB {v : FVal} {k : Int} (h : exactlyB v k = true) : isExactly v k := by
  cases v with
  | fin n m e =>
    simp only [exactlyB, Bool.and_eq_true, beq_iff_eq] at h
    exact ⟨m, e, by rw [h.1], h.2⟩
  | _ => exact absurd h Bool.false_ne_true

/-- An immediate that a format holds is delivered exactly. -/
theorem fmtOfInt_exact {f : Fmt} {k : Fin 32} (h : immFits f (immVal k) = true) :
    isExactly (fmtDecode f (fmtOfInt f (immVal k))) (immVal k) := by
  refine isExactly_of_exactlyB ?_
  revert k
  cases f with
  | b8 u i p => revert u i p; decide +kernel
  | _ => decide +kernel

/-- Both formats of a pair and those of a complex number hold every immediate. -/
theorem immFits_pairFmt (bf : Bool) (k : Fin 32) : immFits (pairFmt bf) (immVal k) = true := by
  revert bf k
  decide +kernel

theorem immFits_ftyFmt (c : FTy) (k : Fin 32) : immFits (ftyFmt c) (immVal k) = true := by
  revert k
  cases c <;> decide +kernel

theorem fmtOfInt_pairFmt_lt (bf : Bool) (k : Fin 32) : fmtOfInt (pairFmt bf) (immVal k) < 2 ^ 16 := by
  revert bf k
  decide +kernel

theorem fmtOfInt_ftyFmt_lt (c : FTy) (k : Fin 32) : fmtOfInt (ftyFmt c) (immVal k) < 2 ^ fmtWidth (ftyFmt c) := by
  revert k
  cases c <;> decide +kernel

/-- A packed operand has the immediate in both halves. -/
theorem immCode_pair (bf : Bool) (k : Fin 32) :
    immCode (.pair bf) (immVal k) % 2 ^ 16 = fmtOfInt (pairFmt bf) (immVal k) ∧
      immCode (.pair bf) (immVal k) / 2 ^ 16 = fmtOfInt (pairFmt bf) (immVal k) ∧ immCode (.pair bf) (immVal k) < 2 ^ 32 := by
  have h := fmtOfInt_pairFmt_lt bf k
  simp only [immCode]
  omega

/-- What an immediate delivers to each operand type. -/
theorem immediate_delivered (k : Fin 32) :
    let v : BitVec 5 := BitVec.ofNat 5 k.val
    let x (t : OTy) : Nat := immCode t (immVal k)
    x (.int 64) = (v.signExtend 64).toNat ∧ x (.int 32) = (v.signExtend 32).toNat ∧ x (.int 16) = (v.signExtend 16).toNat ∧
      x (.int 8) = (v.signExtend 8).toNat ∧
      (∀ f, immFits f v.toInt = true → isExactly (fmtDecode f (x (.flt f))) v.toInt) ∧
      (∀ bf, isExactly (fmtDecode (pairFmt bf) (x (.pair bf) % 2 ^ 16)) v.toInt ∧
        isExactly (fmtDecode (pairFmt bf) (x (.pair bf) / 2 ^ 16)) v.toInt ∧ x (.pair bf) < 2 ^ 32) ∧
      (∀ c, isExactly (fmtDecode (ftyFmt c) (x (.cplx c))) v.toInt ∧ x (.cplx c) < 2 ^ fmtWidth (ftyFmt c)) := by
  intro v x
  rw [show v.toInt = immVal k from (immVal_eq_toInt k).symm]
  refine ⟨immCode_int 64 k, immCode_int 32 k, immCode_int 16 k, immCode_int 8 k, fun f => fmtOfInt_exact, fun bf => ?_, fun c => ?_⟩
  · obtain ⟨hlo, hhi, hlt⟩ := immCode_pair bf k
    have hex := fmtOfInt_exact (immFits_pairFmt bf k)
    exact ⟨by rw [hlo]; exact hex, by rw [hhi]; exact hex, hlt⟩
  · exact ⟨fmtOfInt_exact (immFits_ftyFmt c k), fmtOfInt_ftyFmt_lt c k⟩

/-! ### Literals (R44) -/

theorem opnd_lit (s : State) (t : OTy) (p : Pat) (w : W32) (l : Nat) : opnd s t ⟨.lit w, p⟩ l = litCode t w := rfl

theorem litCode_int64 (w : W32) : litCode (.int 64) w = (w.signExtend 64).toNat := by
  rw [litCode, wrap_eq_ofInt, sext_eq_toInt 32 _ (by decide), BitVec.ofNat_toNat, BitVec.setWidth_eq, BitVec.signExtend]

theorem litCode_flt {f : Fmt} (h : f ≠ .f64) (w : W32) : litCode (.flt f) w = w.toNat % 2 ^ fmtWidth f := by
  rw [litCode, if_neg h]

/-! ### The statement, source by source -/

/-- Settles O12: `sigma` is `patLane`; a register field is read by `readCross`, whose lanes and words the lemmas above name, and a uniform field
without a lane. -/
theorem operandDelivery : Obligations.OperandDelivery := by
  unfold Obligations.OperandDelivery
  intro s p l hl S at_ sigma read wide from_ crossed
  have hsigma : sigma = patLane p l := by
    cases p with
    | bf k => exact (patLane_bf k hl).symm
    | _ => rfl
  have hfrom : ∀ n, from_ n = fromLane s p l n := fun n => by simp only [from_, hsigma, fromLane, S]
  have hword : ∀ n cnt, (readCross (grp s s.cur.uid) s.cur.lanes (patLane p l) n cnt).xlane = decide (sigma ∉ S) :=
    fun n cnt => by rw [xlane_readCross, hsigma]
  have hcrossed : ∀ t x b, crossed t x b ↔ (readSrc s s.cur.uid s.cur.lanes t (at_ x) l).xlane = b :=
    fun t x b => by rw [← crosses_singleton]
  simp only [hfrom, hcrossed]
  refine ⟨fun n => ⟨cut_readCross_one s p l n.val, hword n.val 1⟩, fun n => ⟨cut_readCross_one s p l _, hword _ 1⟩,
    ⟨cut_readCross_one s p l 136, hword 136 1⟩, ⟨cut_readCross_one s p l 137, hword 137 1⟩,
    fun n _ => cut_readCross_two s p l n.val, fun n _ => ?_, cut_readCross_two s p l 136,
    fun n => ⟨opnd_c_word s p n l, opnd_c_pair s p n l⟩, fun k t => ?_, fun w t => ?_, ⟨?_, ?_⟩, fun k hk hk32 hc hn hi => ?_, fun t => ⟨fun n => rfl, rfl, rfl⟩⟩
  · rw [show 129 + n.val = 128 + n.val + 1 by omega]
    exact cut_readCross_two s p l (128 + n.val)
  · obtain ⟨h64, h32, h16, h8, hflt, hpair, hcplx⟩ := immediate_delivered k
    exact ⟨h64, h32, h16, h8, hflt, hpair, hcplx, rfl⟩
  · exact ⟨Nat.mod_eq_of_lt w.isLt, litCode_int64 w, rfl, rfl, fun f hf => litCode_flt hf w, rfl, fun _ => rfl, fun _ => rfl, rfl⟩
  · exact opnd_lane s p (Nat.lt_trans hl (by decide))
  · exact opnd_lane s p (Nat.lt_trans hl (by decide))
  · have hw := grpWord_of_fields hk hn hi
    have hlt : grpWord s s.cur.uid < 2 ^ 32 := by rw [hw]; omega
    exact ⟨(opnd_grp p hlt).trans hw, (opnd_grp p (Nat.lt_trans hlt (by decide))).trans hw⟩

end Sys2Proof.Machine
end

section
/-! Stream accesses and translation (R51, R52, R315, R338). The access that a lane makes holds its translation in the owner's TLB, and that has
effects which the two stream statements leave out: the walk for it meets the errors of the tables, and the entry that it replaces may hide another. -/

namespace Sys2Proof.Machine

/-! ### Two lanes whose elements lie on two pages -/

/-- The n-th page of 1 GiB, ordinary and mapped to itself, which every mode may read and write. -/
def gigaPage (n : Nat) : PageAttr :=
  { frame := n * 2 ^ 30, size := 2 ^ 30, kind := .ordinary, rclass := .proof, sto := false, ua := true, rd := true, wr := true, ex := false, region := none }

/-- The frame at 0x1000 as context entry, table of level 0 and table of level 1 at once: its first word points to itself, words 4 and 5 are the
leaves of `gigaPage 4` and `gigaPage 5` (R310, R311). -/
def selfMappedTable : List Host.Cell :=
  [(0x1000, 0x01#8), (0x1001, 0x10#8), (0x1020, 0x0F#8), (0x1021, 0x08#8), (0x1024, 0x01#8), (0x1028, 0x0F#8), (0x1029, 0x08#8), (0x102B, 0x40#8),
   (0x102C, 0x01#8)]

/-- A lane whose streams walk two bytes, one at the begin of `gigaPage 4` and one at that of `gigaPage 5`. -/
def strideLane : Lane :=
  { q := List.replicate 8 { base := 0xFF80000100000000#64, dims := ⟨0x40000000#32, 2#16⟩ :: List.replicate 4 ⟨0, 1#16⟩ },
    at_ := .word 0x20000#64 512 0x20008#64 2, st := .run, rclass := .draft }

/-- An issue set of n such lanes, on a package that translates by `selfMappedTable` and has room in its error log. -/
def striding (n : Nat) : State :=
  { State.reset with
    elsize := 1
    trblks := setNth State.reset.trblks 0 { ctxbase := 0x1000#64 }
    mem := selfMappedTable
    groups := [(1, { gang := 2, place := .resident 0, lanes := List.replicate n strideLane })]
    gangs := [(2, { core := 0, launch := 3, groups := [1], privsz := 64 })]
    cur := ⟨1, List.range n, 0x20008#64, 8⟩ }

/-! ### A store whose walk meets an error -/

/-- One lane, and a corrected error that the next walk for `gigaPage 4` meets in the leaf entry. -/
def markedLeaf : State := { striding 1 with errors := [⟨.table 0x1020, .corrected⟩] }

theorem markedLeaf_setOk : SetOk markedLeaf := ⟨by decide, by decide, by decide⟩

theorem markedLeaf_tidy : Tidy markedLeaf := by
  intro l hl
  obtain rfl : l = 0 := by simpa [markedLeaf, striding] using hl
  exact ⟨by decide, by decide, by decide, by decide⟩

/-- The lane's element is the first byte of `gigaPage 4`. -/
theorem markedLeaf_streamAt : streamAt (nth {} (curLane markedLeaf 0).q 0) 0 = some 0xFF80000100000000#64 := by decide +kernel

theorem markedLeaf_reach : reach markedLeaf 0 0 0xFF80000100000000#64 .write .u = .page (gigaPage 4) 0 (4 * 2 ^ 30) := by decide +kernel

/-- The store's walk counts the error, and the record of its event goes to the log in host memory (R338, R345). -/
theorem markedLeaf_logs : ∀ t, exec (.mov .i32 (.q 0) ⟨.imm 0, .ident⟩) markedLeaf = .next t → t.mem ≠ markedLeaf.mem := by
  have h : (match exec (.mov .i32 (.q 0) ⟨.imm 0, .ident⟩) markedLeaf with
      | .next t => decide (t.mem ≠ markedLeaf.mem)
      | _ => false) = true := by decide +kernel
  intro t ht
  rw [ht] at h
  exact of_decide_eq_true h

/-- Refutes O33: unlike the statement of a stream read it does not exclude pending errors, and where the walk for a store meets one in the tables,
its record is written to memory, which the statement has unchanged. -/
theorem not_streamWrite : ¬ Obligations.StreamWrite := by
  unfold Obligations.StreamWrite
  intro h
  have hat : ∀ l ∈ markedLeaf.cur.lanes, l = 0 := by simp [markedLeaf, striding]
  obtain ⟨t, ht, -, hmem, -⟩ := h markedLeaf 0 .i32 ⟨.imm 0, .ident⟩ (fun _ => gigaPage 4) (fun _ => 0) (fun _ => 4 * 2 ^ 30) markedLeaf_setOk
    (by unfold NoPoison; decide) markedLeaf_tidy (by unfold NoPendH; decide) rfl
    (fun l hl va hva => by
      obtain rfl := hat l hl
      obtain rfl : 0xFF80000100000000#64 = va := Option.some.inj (markedLeaf_streamAt.symm.trans hva)
      exact ⟨by decide, markedLeaf_reach, rfl⟩)
    ⟨0, by decide, by rw [Option.isSome_iff_exists]; exact ⟨_, markedLeaf_streamAt⟩⟩
  exact markedLeaf_logs t ht hmem

/-! ### A read whose translation replaces another -/

/-- The translation of `gigaPage 5`, as its walk gives it; nothing uses it. -/
def spareEntry : TlbEnt := ⟨0, 0, 5 * 2 ^ 30, gigaPage 5, 0⟩

/-- Another translation of the same page, with a class that its bytes were not written in; an engine uses it (R316). -/
def pinnedEntry : TlbEnt := ⟨0, 0, 5 * 2 ^ 30, { gigaPage 5 with rclass := .check }, 1⟩

/-- Two lanes, and a full TLB (R315): the one translation that may be replaced is the one that stands before the others. -/
def crowdedTlb : State := { striding 2 with tlbs := [(0, spareEntry :: List.replicate 16383 pinnedEntry)] }

theorem crowdedTlb_setOk : SetOk crowdedTlb := ⟨by decide, by decide, by decide⟩

/-- Lane 0 holds the translation of its page, for which that of lane 1 goes; lane 1 finds the pinned one, its byte counts as one of another class,
and the event's record goes to the log in host memory (R315, R339, R345). -/
theorem crowdedTlb_logs : ∀ t, exec (.mov .i32 .none ⟨.q 0, .ident⟩) crowdedTlb = .next t → t.mem ≠ crowdedTlb.mem := by
  have h : (match exec (.mov .i32 .none ⟨.q 0, .ident⟩) crowdedTlb with
      | .next t => decide (t.mem ≠ crowdedTlb.mem)
      | _ => false) = true := by decide +kernel
  intro t ht
  rw [ht] at h
  exact of_decide_eq_true h

/-- Refutes O32: the statement has every lane's page as the TLB stands before the instruction, but a lane's read may replace the translation of the
next lane's page. Where another translation of that page was held behind it, the next lane's read is counted by that one, and memory takes the record. -/
theorem not_streamRead : ¬ Obligations.StreamRead := by
  unfold Obligations.StreamRead
  intro h
  obtain ⟨⟨t, ht, hmem, -⟩, -⟩ := h crowdedTlb 0 .i32 .none (fun l => gigaPage (4 + l)) (fun _ => 0) (fun l => (4 + l) * 2 ^ 30) (fun _ => [0])
    crowdedTlb_setOk (by unfold NoPoison; decide) rfl rfl ⟨0, by decide⟩ (by unfold ClassOk Clean; decide +kernel)
  exact crowdedTlb_logs t ht hmem

end Sys2Proof.Machine
end

section
/-! Rounded results over a set that meets no obstacle (R65, R66): what the runner of the float instructions answers. -/

namespace Sys2Proof.Machine

/-! ### The runner -/

/-- Operand k of a lane is word k of what it read. -/
theorem LaneIn.x_eq_el (x : LaneIn) (k : Nat) : x.x k = el x.vals k := nth_eq_getD 0 x.vals k

/-- A rounded computation over a set that meets no obstacle, where f gives of a lane's operands what g gives of their values. -/
theorem rounds_of_runFlt {s : State} {i j : Instr} {o : Out} {d : Dst} {n : Nat} {os : List (Opnd × OTy)} {r : Rnd}
    {f : RCtx → LaneIn → Nat × RCtx} {g : RCtx → List Nat → Nat × RCtx}
    (hs : SetOk s) (hp : NoPoison s) (hj : longForm i = j) (he : exec j s = o) (hrun : o = runFlt s j r f) (hd : dest j = some (d, n))
    (hsrc : srcs j = os) (ho : plainOps os = true) (hd2 : plainDst d = true)
    (hf : ∀ c l x, f c ⟨l, os.map (fun p => opnd s p.2 p.1 l), none, x⟩ = g c (os.map (fun p => opnd s p.2 p.1 l))) :
    Rounds s i d n os r g := by
  unfold Rounds
  intro res hx
  have hres : ∀ l, resOf (f (ctxFor s r (readLane s s.cur.uid s.cur.lanes (srcs j) false l)) (readLane s s.cur.uid s.cur.lanes (srcs j) false l)) =
      res l := fun l => by
    rw [hsrc, readLane_opnd hp os l false ho, hf]
    rfl
  rw [← exec_longForm, hj, he, hrun, runFlt,
    runCompute_plain hs hp hd (hsrc ▸ ho) hd2 (fun _ _ => rfl) (fun l hl => by rw [hres]; exact hx l hl), hsrc]
  exact congrArg (fun q => Host.Outcome.next (retired s os d n q)) (funext fun l => (hsrc ▸ hres l :))

theorem plainOps_one {a : Opnd} {t : OTy} (ha : plainSrc a.src = true) : plainOps [(a, t)] = true := by simp [plainOps, ha]

theorem plainOps_two {a b : Opnd} {t u : OTy} (ha : plainSrc a.src = true) (hb : plainSrc b.src = true) : plainOps [(a, t), (b, u)] = true := by
  simp [plainOps, ha, hb]

theorem plainOps_three {a b c : Opnd} {t u v : OTy} (ha : plainSrc a.src = true) (hb : plainSrc b.src = true) (hc : plainSrc c.src = true) :
    plainOps [(a, t), (b, u), (c, v)] = true := by
  simp [plainOps, ha, hb, hc]

/-- A destination that is no stream is read back from no stream. -/
theorem plainSrc_dstAsSrc {d : Dst} {e : Src} (hd : plainDst d = true) (he : dstAsSrc d = some e) : plainSrc (op e).src = true := by
  cases d with
  | q n => exact absurd hd Bool.false_ne_true
  | none => cases he
  | _ => cases he; rfl

/-! ### Sums, products and fused products (R104, R107, R119) -/

theorem srcs_fmac {d : Dst} {e : Src} (he : dstAsSrc d = some e) (t : FTy) (r : Rnd) (a b : Opnd) :
    srcs (.fmac t r d a b) = [(a, .flt (ftyFmt t)), (b, .flt (ftyFmt t)), (op e, .flt (ftyFmt t))] :=
  congrArg (fun o : Option Src => [(a, OTy.flt (ftyFmt t)), (b, OTy.flt (ftyFmt t))] ++ (o.map (fun s => (op s, OTy.flt (ftyFmt t)))).toList) he

theorem srcs_fmai {d : Dst} {e : Src} (he : dstAsSrc d = some e) (r : Rnd) (a : Opnd) (k : BitVec 20) :
    srcs (.fmai r d a k) = [(a, .flt .f32), (op e, .flt .f32)] :=
  congrArg (fun o : Option Src => [(a, OTy.flt .f32)] ++ (o.map (fun s => (op s, OTy.flt .f32))).toList) he

/-- The float of an immediate has the field as its upper bits (R76). -/
theorem immF_eq_append (k : BitVec 20) : immF k = (k ++ 0#12).toNat := by
  rw [immF, BitVec.toNat_append, BitVec.toNat_ofNat, Nat.zero_mod, Nat.or_zero, Nat.shiftLeft_eq]

/-- Settles O6: each form runs the one rounding that the statement names; the values that it rounds are those of its operands. -/
theorem floatSums : Obligations.FloatSums := by
  unfold Obligations.FloatSums
  intro s i d a b c t r k hs hp hd ha hb hc f imm A B a32
  have himm : fmtDecode .f32 (immF k) = imm := congrArg (fmtDecode .f32) (immF_eq_append k)
  have hAB : plainOps [A, B] = true := plainOps_two ha hb
  refine ⟨fun h => ?_, fun h => ?_, fun h => ?_, fun e he h => ?_, fun neg h => ?_, fun h => ?_, fun h => ?_, fun h => ?_, fun h => ?_,
    fun e he h => ?_⟩
  · exact rounds_of_runFlt hs hp h (rfl : _ = doFadd t r d a b s) rfl rfl rfl hAB hd (fun _ _ _ => rfl)
  · exact rounds_of_runFlt hs hp h (rfl : _ = doFsub t r d a b s) rfl rfl rfl hAB hd (fun _ _ _ => rfl)
  · exact rounds_of_runFlt hs hp h (rfl : _ = doFmul t r d a b s) rfl rfl rfl hAB hd (fun _ _ _ => rfl)
  · exact rounds_of_runFlt hs hp h (rfl : _ = doFmac t r d a b s) rfl rfl (srcs_fmac he ..)
      (plainOps_three ha hb (plainSrc_dstAsSrc hd he)) hd (fun _ _ _ => rfl)
  · exact rounds_of_runFlt hs hp h (rfl : _ = doFma neg d a b c s) rfl rfl rfl (plainOps_three ha hb hc) hd (fun _ _ _ => rfl)
  · refine rounds_of_runFlt hs hp h (rfl : _ = doFscale t r d a b s) rfl rfl rfl (plainOps_two ha hb) hd (fun _ _ _ => ?_)
    rw [sext_eq_toInt 32 _ (by decide)]
    rfl
  · have hrun : exec (.fmovi d k) s = _ := runInt_plain (i := .fmovi d k) (f := fun _ => immF k) hs hp rfl rfl hd
    rw [h, hrun, immF_eq_append]
    rfl
  · refine rounds_of_runFlt hs hp (congrArg longForm h) (rfl : _ = execFaddi r d a k s) rfl rfl rfl (plainOps_one ha) hd (fun _ _ _ => ?_)
    rw [himm]
    rfl
  · refine rounds_of_runFlt hs hp (congrArg longForm h) (rfl : _ = execFmuli r d a k s) rfl rfl rfl (plainOps_one ha) hd (fun _ _ _ => ?_)
    rw [himm]
    rfl
  · refine rounds_of_runFlt hs hp (congrArg longForm h) (rfl : _ = execFmai r d a k s) rfl rfl (srcs_fmai he ..)
      (plainOps_two ha (plainSrc_dstAsSrc hd he)) hd (fun _ _ _ => ?_)
    rw [himm]
    rfl

end Sys2Proof.Machine
end

section
/-! Minimum, maximum, comparison, integral rounding and class (R104 to R106, R119). -/

namespace Sys2Proof.Machine

/-- A float operand has the bits of its format and no more. -/
theorem opnd_flt_lt (s : State) (t : FTy) (o : Opnd) (l : Nat) (h : plainSrc o.src = true) :
    opnd s (.flt (ftyFmt t)) o l < 2 ^ fmtWidth (ftyFmt t) := by
  have hpow : 0 < 2 ^ fmtWidth (ftyFmt t) := Nat.two_pow_pos _
  obtain ⟨x, p⟩ := o
  cases x with
  | q n => exact absurd h Bool.false_ne_true
  | imm k => exact fmtOfInt_ftyFmt_lt t k
  | lit w =>
    rw [opnd_lit, litCode_flt (by cases t <;> decide)]
    exact Nat.mod_lt _ hpow
  | _ => exact Nat.mod_lt _ hpow

/-! ### Class (R106) -/

/-- The values of a scalar float format: of exponent field 0 the significand has at most the trailing bits, else one more bit. -/
theorem fmtDecode_fty_fin {t : FTy} {x m : Nat} {n : Bool} {e : Int} (h : fmtDecode (ftyFmt t) x = .fin n m e) :
    (m < 2 ^ fmtM (ftyFmt t) ∧ e = 1 - (fmtBias (ftyFmt t) : Int) - (fmtM (ftyFmt t) : Int)) ∨
      (2 ^ fmtM (ftyFmt t) ≤ m ∧ 1 - (fmtBias (ftyFmt t) : Int) - (fmtM (ftyFmt t) : Int) ≤ e) := by
  have hpow : 0 < 2 ^ fmtM (ftyFmt t) := Nat.two_pow_pos _
  have hint : fmtIsInt (ftyFmt t) = false := by cases t <;> rfl
  have hmx : ftyFmt t ≠ .mxint8 := by cases t <;> decide
  have he8 : ftyFmt t ≠ .e8m0 := by cases t <;> decide
  simp only [fmtDecode, hint, hmx, he8, Bool.false_eq_true, if_false] at h
  generalize x % 2 ^ fmtWidth (ftyFmt t) = c at h
  generalize (if fmtUnsigned (ftyFmt t) = true then c else c % 2 ^ (fmtWidth (ftyFmt t) - 1)) = body at h
  split at h
  · cases h
  split at h
  · cases h
  split at h
  · cases h
  split at h
  · cases h
  split at h
  · obtain ⟨-, rfl, rfl⟩ := FVal.fin.inj h
    exact .inl ⟨Nat.mod_lt _ hpow, rfl⟩
  · next he =>
    generalize body / 2 ^ fmtM (ftyFmt t) = q at h he
    obtain ⟨-, rfl, rfl⟩ := FVal.fin.inj h
    exact .inr ⟨Nat.le_add_right .., by omega⟩

/-- A value lies below the least normal one exactly where its significand has no more than the trailing bits. -/
theorem dyLog2_lt_emin_iff {t : FTy} {x m : Nat} {n : Bool} {e : Int} (h : fmtDecode (ftyFmt t) x = .fin n m e) (hm : m ≠ 0) :
    dyLog2 m e < 1 - (fmtBias (ftyFmt t) : Int) ↔ m < 2 ^ fmtM (ftyFmt t) := by
  have hlog : Nat.log2 m < fmtM (ftyFmt t) ↔ m < 2 ^ fmtM (ftyFmt t) := Nat.log2_lt hm
  unfold dyLog2
  rcases fmtDecode_fty_fin h with ⟨hlt, rfl⟩ | ⟨hle, he⟩
  · have := hlog.2 hlt
    exact ⟨fun _ => hlt, fun _ => by omega⟩
  · have hge : ¬Nat.log2 m < fmtM (ftyFmt t) := fun h => absurd (hlog.1 h) (Nat.not_lt.2 hle)
    exact ⟨fun _ => by omega, fun h => absurd h (Nat.not_lt.2 hle)⟩

/-! ### Minimum and maximum (R104) -/

/-- An operand within its format is the answer as it is: the canonical NaN is another, and nothing is cut. -/
theorem fvMinMax_of_lt (c : RCtx) {f : Fmt} {a b : Nat} (ha : a < 2 ^ fmtWidth f) (hb : b < 2 ^ fmtWidth f) (greater nan : Bool) :
    fvMinMax c f greater nan a b =
      (if fvIsNan (fmtDecode f a) && fvIsNan (fmtDecode f b) then (fmtNan f).getD 0
       else if fvIsNan (fmtDecode f a) then (if nan then (fmtNan f).getD 0 else b)
       else if fvIsNan (fmtDecode f b) then (if nan then (fmtNan f).getD 0 else a)
       else if greater then (if fvBefore (fmtDecode f a) (fmtDecode f b) then b else a)
       else (if fvBefore (fmtDecode f b) (fmtDecode f a) then b else a),
       if fvIsSig (fmtDecode f a) || fvIsSig (fmtDecode f b) then raise c fNV else c) := by
  have hcut (p : Bool) : (if p then b else a) % 2 ^ fmtWidth f = if p then b else a := by
    cases p
    · exact Nat.mod_eq_of_lt ha
    · exact Nat.mod_eq_of_lt hb
  unfold fvMinMax
  cases hu : fvIsNan (fmtDecode f a) <;> cases hv : fvIsNan (fmtDecode f b)
  · cases greater <;> simp [hu, hv, hcut]
  · simp [hu, hv, Nat.mod_eq_of_lt ha]
  · simp [hu, hv, Nat.mod_eq_of_lt hb]
  · simp [hu, hv]

/-! ### Comparison (R105) -/

/-- Of two values that are ordered, the answer of an order counts; else none does. -/
theorem and_not_ordered : ∀ un lt : Bool, (!un && !lt) = (!un && !(!un && lt)) := by decide

theorem fvEq_ordered (u v : FVal) : (!(fvIsNan u || fvIsNan v) && fvEq u v) =
    (!(fvIsNan u || fvIsNan v) && !(!(fvIsNan u || fvIsNan v) && fvLt u v) && !(!(fvIsNan u || fvIsNan v) && fvLt v u)) := by
  unfold fvEq
  cases fvIsNan u <;> cases fvIsNan v <;> simp

theorem not_fvEq_or_unordered (u v : FVal) : (fvIsNan u || fvIsNan v || !fvEq u v) =
    (fvIsNan u || fvIsNan v || (!(fvIsNan u || fvIsNan v) && fvLt u v) || (!(fvIsNan u || fvIsNan v) && fvLt v u)) := by
  unfold fvEq
  cases fvIsNan u <;> cases fvIsNan v <;> simp

/-- Settles O7: the fclass bit turns on `dyLog2_lt_emin_iff`, the operand that `fmin` and `fmax` answer on its having the bits of its format. -/
theorem floatOrderAndClass : Obligations.FloatOrderAndClass := by
  unfold Obligations.FloatOrderAndClass
  intro s i d a b t r k hs hp hd ha hb f A B minMax compare
  have himm : fmtDecode .f32 (immF k) = fmtDecode .f32 (k ++ 0#12).toNat := congrArg (fmtDecode .f32) (immF_eq_append k)
  have hcmp : ∀ cc c u v, (maskOf (fvCmp cc u v).1, raise c (fvCmp cc u v).2) = compare cc c u v := by
    intro cc c u v
    have hout (m m' sig : Bool) (h : m = m') : (maskOf m, raise c (if sig then fNV else 0)) =
        (if m' then 0xFFFFFFFF else 0, if sig then raise c fNV else raise c 0) := by
      subst h
      cases sig <;> rfl
    cases cc with
    | eq => exact hout _ _ _ (fvEq_ordered u v)
    | ne => exact hout _ _ _ (not_fvEq_or_unordered u v)
    | le => exact hout _ _ _ (and_not_ordered _ _)
    | ge => exact hout _ _ _ (and_not_ordered _ _)
    | _ => exact hout _ _ _ rfl
  have hminMax : ∀ greater nan c l, fvMinMax c f greater nan (opnd s (.flt f) a l) (opnd s (.flt f) b l) =
      minMax greater nan c [opnd s (.flt f) a l, opnd s (.flt f) b l] :=
    fun greater nan c l => fvMinMax_of_lt c (opnd_flt_lt s t a l ha) (opnd_flt_lt s t b l hb) greater nan
  have hAB : plainOps [A, B] = true := plainOps_two ha hb
  refine ⟨fun nan h => ?_, fun nan h => ?_, fun cc h => ?_, fun cc h => ?_, fun ex h => ?_, fun h => ?_⟩
  · exact rounds_of_runFlt hs hp h (rfl : _ = doFmin t nan d a b s) rfl rfl rfl hAB hd (fun c l _ => hminMax false nan c l)
  · exact rounds_of_runFlt hs hp h (rfl : _ = doFmax t nan d a b s) rfl rfl rfl hAB hd (fun c l _ => hminMax true nan c l)
  · exact rounds_of_runFlt hs hp h (rfl : _ = doFcmp cc t d a b s) rfl rfl rfl hAB hd (fun c _ _ => hcmp cc c _ _)
  · refine rounds_of_runFlt hs hp (congrArg longForm h) (rfl : _ = execFcmpi cc d a k s) rfl rfl rfl (plainOps_one ha) hd (fun c _ _ => ?_)
    rw [← himm]
    exact hcmp cc c _ _
  · exact rounds_of_runFlt hs hp h (rfl : _ = doFrnd t r ex d a s) rfl rfl rfl (plainOps_one ha) hd (fun _ _ _ => rfl)
  · refine gives1_of_runInt hs hp h (f := fun x => fvClass f (x.x 0)) rfl rfl rfl ha hd (fun l _ => ?_)
    change fvClass f (opnd s (.flt f) a l) = _
    unfold fvClass
    cases hx : fmtDecode f (opnd s (.flt f) a l) with
    | nan sig => cases sig <;> rfl
    | inf n => cases n <;> rfl
    | fin n m e =>
      by_cases hm : m = 0
      · cases n <;> simp [hm]
      · have hsub : dyLog2 m e < 1 - (fmtBias f : Int) ↔ m < 2 ^ fmtM f := dyLog2_lt_emin_iff hx hm
        by_cases hlt : m < 2 ^ fmtM f
        · simp only [if_neg hm, if_pos hlt, if_pos (hsub.2 hlt)]
          cases n <;> rfl
        · simp only [if_neg hm, if_neg hlt, if_neg (mt hsub.1 hlt)]
          cases n <;> rfl

end Sys2Proof.Machine
end

section
/-! Packed, f64 and complex arithmetic, conversion, decoding and random bits (R107, R110, R111, R113, R114). -/

namespace Sys2Proof.Machine

/-! ### Two results in one register or pair (R110) -/

theorem fmtWidth_pairFmt (bf : Bool) : fmtWidth (pairFmt bf) = 16 := by cases bf <;> rfl

/-- A half of a packed operand is the part of its format's width. -/
theorem LaneIn.half_eq_part (x : LaneIn) (bf : Bool) (k h : Nat) : x.half bf k h = part (pairFmt bf) x.vals k h := by
  rw [LaneIn.half, part, fmtWidth_pairFmt, x.x_eq_el]

theorem twoHalves_eq_twice (c : RCtx) (bf : Bool) (ts : Nat → List (FVal × Bool)) : twoHalves c bf ts = twice (pairFmt bf) c (ts 0) (ts 1) := by
  unfold twoHalves twice
  rw [fmtWidth_pairFmt]

/-- Both parts of a complex operand (R110). -/
theorem part_zero (f : Fmt) (xs : List Nat) (k : Nat) : part f xs k 0 = fmtDecode f (el xs k % 2 ^ fmtWidth f) := by
  rw [part, Nat.mul_zero, Nat.pow_zero, Nat.div_one]

theorem part_one (f : Fmt) (xs : List Nat) (k : Nat) : part f xs k 1 = fmtDecode f (el xs k / 2 ^ fmtWidth f % 2 ^ fmtWidth f) := by
  rw [part, Nat.mul_one]

/-- The real part is rounded first; each part is one fused sum of two products. -/
theorem execCmul_eq_twice (t : FTy) (conj : Bool) (r : Rnd) (d : Dst) (a b : Opnd) (s : State) :
    execCmul t conj r d a b s = runFlt s (.cmul t conj r d a b) r (fun c x =>
      let p (j k : Nat) := fvMul (part (ftyFmt t) x.vals 0 j) (part (ftyFmt t) x.vals 1 k)
      if conj then twice (ftyFmt t) c [p 0 0, p 1 1] [p 1 0, signed true (p 0 1)]
      else twice (ftyFmt t) c [p 0 0, signed true (p 1 1)] [p 0 1, p 1 0]) := by
  unfold execCmul
  refine congrArg (runFlt s (.cmul t conj r d a b) r) (funext₂ fun c x => ?_)
  simp only [part_zero, part_one, LaneIn.x_eq_el]
  cases conj <;> rfl

/-! ### Conversion (R111) -/

section
variable (f : Fmt) (sat : Bool) (r : Rnd) (d : Dst) (a : Opnd) (s : State)

theorem doCvt_fromF32 : doCvt .fromF32 f sat r d a s = runFlt s (.cvt .fromF32 f sat r d a) r (fun c x =>
    (regCode f (rnd c f sat (x.fv .f32 0)).1, (rnd c f sat (x.fv .f32 0)).2)) := rfl

theorem doCvt_fromF64 : doCvt .fromF64 f sat r d a s = runFlt s (.cvt .fromF64 f sat r d a) r (fun c x =>
    (regCode f (rnd c f sat (x.fv .f64 0)).1, (rnd c f sat (x.fv .f64 0)).2)) := rfl

theorem doCvt_toF32 : doCvt .toF32 f sat r d a s = runFlt s (.cvt .toF32 f sat r d a) r (fun c x => rnd c .f32 sat (x.fv f 0)) := rfl

theorem doCvt_toF64 : doCvt .toF64 f sat r d a s = runFlt s (.cvt .toF64 f sat r d a) r (fun c x => rnd c .f64 sat (x.fv f 0)) := rfl

end

/-! ### Random bits (R114) -/

theorem exec_rng (f : Fmt) (d : Dst) (a b : Opnd) (s : State) :
    exec (.rng f d a b) s = runInt s (.rng f d a b) (fun x =>
      let h := kHash (x.x 0) (x.x 1 % 2 ^ 48) (x.x 1 / 2 ^ 48 % 2 ^ 16)
      if f = .z32 then h / 2 ^ 32 else if f = .f32 then roundNE .f32 (.fin false (h / 2 ^ 40) (-24)) else h) := by
  change execRng f d a b s = _
  unfold execRng
  refine congrArg (runInt s (.rng f d a b)) (funext fun x => ?_)
  cases f <;> simp only [reduceCtorEq, if_true, if_false]

/-- Settles O8: a packed or complex form rounds the low result first (`twoHalves_eq_twice`), and a conversion once. -/
theorem floatPackedAndConverted : Obligations.FloatPackedAndConverted := by
  unfold Obligations.FloatPackedAndConverted
  intro s i d a b c bf r hs hp hd ha hb hc f A B C
  have hAB : plainOps [A, B] = true := plainOps_two ha hb
  refine ⟨fun h => ?_, fun h => ?_, fun h => ?_, fun h => ?_, fun h => ?_, fun h => ?_, fun neg h => ?_, fun t conj h => ?_, fun g sat h => ?_,
    fun g sat h => ?_, fun g sat h => ?_, fun g sat h => ?_, fun g j h => ?_, fun g h => ?_⟩
  · refine rounds_of_runFlt hs hp h (rfl : _ = doH2add bf r d a b s) rfl rfl rfl hAB hd (fun _ _ _ => ?_)
    simp only [twoHalves_eq_twice, LaneIn.half_eq_part]
    rfl
  · refine rounds_of_runFlt hs hp h (rfl : _ = doH2mul bf r d a b s) rfl rfl rfl hAB hd (fun _ _ _ => ?_)
    simp only [twoHalves_eq_twice, LaneIn.half_eq_part]
    rfl
  · refine rounds_of_runFlt hs hp h (rfl : _ = doH2fma bf d a b c s) rfl rfl rfl (plainOps_three ha hb hc) hd (fun _ _ _ => ?_)
    simp only [twoHalves_eq_twice, LaneIn.half_eq_part]
    rfl
  · refine rounds_of_runFlt hs hp h (rfl : _ = doFdot2 bf d a b c s) rfl rfl rfl (plainOps_three ha hb hc) hd (fun _ _ _ => ?_)
    simp only [LaneIn.half_eq_part]
    rfl
  · exact rounds_of_runFlt hs hp h (rfl : _ = doDadd r d a b s) rfl rfl rfl (plainOps_two ha hb) hd (fun _ _ _ => rfl)
  · exact rounds_of_runFlt hs hp h (rfl : _ = doDmul r d a b s) rfl rfl rfl (plainOps_two ha hb) hd (fun _ _ _ => rfl)
  · exact rounds_of_runFlt hs hp h (rfl : _ = doDfma neg d a b c s) rfl rfl rfl (plainOps_three ha hb hc) hd (fun _ _ _ => rfl)
  · refine rounds_of_runFlt hs hp (congrArg longForm h) (rfl : _ = execCmul t conj r d a b s) (execCmul_eq_twice ..) rfl rfl (plainOps_two ha hb) hd
      (fun _ _ _ => ?_)
    cases conj <;> rfl
  · exact rounds_of_runFlt hs hp h rfl (doCvt_fromF32 g sat r d a s) rfl rfl (plainOps_one ha) hd (fun _ _ _ => rfl)
  · exact rounds_of_runFlt hs hp h rfl (doCvt_fromF64 g sat r d a s) rfl rfl (plainOps_one ha) hd (fun _ _ _ => rfl)
  · exact rounds_of_runFlt hs hp h rfl (doCvt_toF32 g sat r d a s) rfl rfl (plainOps_one ha) hd (fun _ _ _ => rfl)
  · exact rounds_of_runFlt hs hp h rfl (doCvt_toF64 g sat r d a s) rfl rfl (plainOps_one ha) hd (fun _ _ _ => rfl)
  · exact rounds_of_runFlt hs hp (congrArg longForm h) (rfl : _ = execDeq g j r d a b s) rfl rfl rfl (plainOps_two ha hb) hd (fun _ _ _ => rfl)
  · refine gives2_of_runInt hs hp (j := .rng g d a b) (congrArg longForm h) (exec_rng g d a b s) rfl rfl ha hb hd (fun l _ => ?_)
    have hy : opnd s (.int 64) b l / 2 ^ 48 % 2 ^ 16 = opnd s (.int 64) b l / 2 ^ 48 :=
      Nat.mod_eq_of_lt (Nat.div_lt_of_lt_mul (opnd_lt s 64 b l hb))
    simp only [LaneIn.x, nth_zero, nth_succ, hy]

end Sys2Proof.Machine
end

section
/-! `quant` over a set (R68, R112): the scale of a lane's block comes from the lanes of the set that hold the block. -/

namespace Sys2Proof.Machine

/-- What `quant` computes for a lane from the operands of every lane. -/
def quantRes (s : State) (f : Fmt) (blk : Blk) (r : Rnd) (ins : List LaneIn) (x : LaneIn) : Res :=
  let mine := ins.filter (fun i => i.halt.isNone && (blk != .b16 || i.lane / 16 == x.lane / 16))
  let scale := blockScale f ((mine.map (quantElems (blkK blk))).flatten)
  if scale = 0xFF then val (0xFF * 2 ^ 32)
  else
    let p := quantLane f scale (ctxFor s r x) 0 (quantElems (blkK blk) x)
    resOf (p.1 + scale * 2 ^ 32, p.2)

theorem exec_quant (f : Fmt) (blk : Blk) (tr : Bool) (r : Rnd) (d : Dst) (a : Opnd) (s : State) :
    exec (.quant f blk tr r d a) s =
      .next (runWith s [(a, if blkK blk = 1 then .flt .f32 else .run (blkK blk))] d 2 none tr (quantRes s f blk r)) := rfl

theorem quantRes_halt (s : State) (f : Fmt) (blk : Blk) (r : Rnd) (ins : List LaneIn) (x : LaneIn) : (quantRes s f blk r ins x).halt = none := by
  unfold quantRes
  dsimp only
  split <;> rfl

/-- The lanes that share a lane's block bring their elements, in the order of the set. -/
theorem flatten_quantElems (ls : List Nat) (g : Nat → LaneIn) (p : Nat → Bool) (k : Nat) (hg : ∀ l, (g l).lane = l ∧ (g l).halt = none) :
    (((ls.map g).filter (fun i => i.halt.isNone && p i.lane)).map (quantElems k)).flatten =
      (ls.filter p).flatMap (fun l => quantElems k (g l)) := by
  have hp : ((fun i : LaneIn => i.halt.isNone && p i.lane) ∘ g) = p := by
    funext l
    simp [hg l]
  rw [List.filter_map, hp, List.map_map, List.flatMap_def]
  rfl

/-- Settles O9: no lane meets an obstacle, so every lane of the set brings its elements. -/
theorem quantise : Obligations.Quantise := by
  unfold Obligations.Quantise
  intro s f blk tr r d a hs hp hd ha k t elems mates scale res hx
  have hread : ∀ l, readLane s s.cur.uid s.cur.lanes [(a, t)] tr l = ⟨l, [opnd s t a l], none, crosses s [(a, t)] l⟩ :=
    fun l => readLane_opnd hp [(a, t)] l tr (plainOps_one ha)
  have hres : ∀ l, quantRes s f blk r (readAll s s.cur.uid s.cur.lanes [(a, t)] tr) (readLane s s.cur.uid s.cur.lanes [(a, t)] tr l) = res l := by
    intro l
    have hscale := flatten_quantElems s.cur.lanes (readLane s s.cur.uid s.cur.lanes [(a, t)] tr) (fun m => blk != .b16 || m / 16 == l / 16) k
      (fun m => by rw [hread]; exact ⟨rfl, rfl⟩)
    simp only [hread] at hscale
    unfold quantRes readAll
    simp only [hread]
    rw [hscale]
    rfl
  rw [exec_quant, runWith_plain hs hp (plainOps_one ha) hd (fun l _ => quantRes_halt ..) (fun l hl => by rw [hres]; exact hx l hl)]
  refine congrArg Host.Outcome.next (modLanes_congr (fun l _ ln => ?_))
  rw [hres, hread]

end Sys2Proof.Machine
end

section
/-! Scoreboarded results over a set that meets no obstacle (R109), and the transcendentals (R108). -/

namespace Sys2Proof.Machine

/-! ### What a lane is noted to have (R56, R66) -/

/-- Flags and XLANE leave the trap enables alone. -/
theorem enables_laneNoted (r : Res) (x : Bool) (ln : Lane) : enables (laneNoted r x ln).fmode = enables ln.fmode := by
  have hfl : r.flags % 32 * 16 < 2 ^ 9 := by omega
  have hlo : (BitVec.ofNat 32 (r.flags % 32 * 16)).toNat / 2 ^ 9 = 0 := by
    rw [BitVec.toNat_ofNat, Nat.mod_eq_of_lt (by omega)]
    exact Nat.div_eq_of_lt hfl
  have hhi : (if x || r.xlane then 0x4000#32 else 0#32).toNat / 2 ^ 9 % 2 ^ 5 = 0 := by
    cases x || r.xlane <;> rfl
  rw [laneNoted_eq]
  simp only [enables, bits, BitVec.toNat_or]
  rw [← Nat.shiftRight_eq_div_pow, Nat.shiftRight_or_distrib, Nat.shiftRight_or_distrib, Nat.or_mod_two_pow, Nat.or_mod_two_pow]
  simp only [Nat.shiftRight_eq_div_pow]
  rw [hlo, hhi]
  simp

/-- A result without an XLANE of its own: what is noted of a lane is what crosses for it. -/
theorem notedLane_eq {r : Res} (h : r.xlane = false) (s : State) (os : List (Opnd × OTy)) (l : Nat) :
    notedLane s os r l = laneNoted r (crosses s os l) (curLane s l) := by
  cases hc : r.cnt <;> simp only [notedLane, laneNoted, h, hc, Bool.or_false]

/-- Changes that agree on the lanes that are there are the same. -/
theorem modLanes_congr_lane {s : State} {u : Nat} {ls : List Nat} {f g : Nat → Lane → Lane} (hn : ls.Nodup)
    (h : ∀ l ∈ ls, f l (lane s u l) = g l (lane s u l)) : modLanes s u ls f = modLanes s u ls g := by
  unfold modLanes modGrp
  congr 1
  refine tMod_congr (fun x hx => ?_)
  have hlane : ∀ k, laneAt x k = lane s u k := fun k => by rw [lane, grp, hx, Option.getD_some]
  have a := lanes_foldl_modLaneG ls f x
  have b := lanes_foldl_modLaneG ls g x
  refine group_ext (a.2.trans b.2.symm) (a.1.trans b.1.symm) (fun k _ => ?_)
  rw [laneAt_foldl_modLaneG ls f x k hn, laneAt_foldl_modLaneG ls g x k hn, hlane]
  by_cases hk : k ∈ ls ∧ k < x.lanes.length
  · rw [if_pos hk, if_pos hk, h k hk.1]
  · rw [if_neg hk, if_neg hk]

/-! ### The runner of scoreboarded results -/

/-- The lanes of a set with a result each, none of which ends. -/
def resultsOf (ls : List Nat) (res : Nat → Res) : List LaneEnd := ls.map (fun l => ⟨l, res l, none⟩)

/-- s with what each lane of the set is noted to have of its result, two numbers having been taken. -/
def notedSet (s : State) (os : List (Opnd × OTy)) (res : Nat → Res) : State :=
  modLanes { s with fresh := s.fresh + 2, free := s.free + 64 } s.cur.uid s.cur.lanes (fun l => laneNoted (res l) (crosses s os l))

theorem lane_notedSet {s : State} (hs : SetOk s) (os : List (Opnd × OTy)) {res : Nat → Res} {l : Nat} (hr : (res l).xlane = false)
    (hl : l ∈ s.cur.lanes) : lane (notedSet s os res) s.cur.uid l = notedLane s os (res l) l := by
  rw [notedLane_eq hr]
  exact (lane_modLanes_of_bound (s := { s with fresh := s.fresh + 2, free := s.free + 64 }) _ hs.here hs.nodup hs.bound l).trans (if_pos hl)

/-- Where no lane meets an obstacle, every lane of the set ends with its result. -/
theorem laneEnds_plain {s : State} {os : List (Opnd × OTy)} {d : Dst} {w : Option Nat} {tr : Bool} {f : LaneIn → Res} {res : Nat → Res}
    (hp : NoPoison s) (ho : plainOps os = true) (hd : plainDst d = true)
    (hres : ∀ l ∈ s.cur.lanes, f (readLane s s.cur.uid s.cur.lanes os tr l) = res l) (hhalt : ∀ l, (res l).halt = none)
    (hx : ∀ l ∈ s.cur.lanes, fpxDue (curLane s l) (res l).flags = false) :
    (readAll s s.cur.uid s.cur.lanes os tr).map (laneEnd s d [] w f) = resultsOf s.cur.lanes res := by
  rw [readAll, List.map_map]
  refine List.map_congr_left (fun l h => ?_)
  have hr := hres l h
  rw [Function.comp_apply, laneEnd_plain hd (readLane_plain hp os tr l ho) (by rw [hr]; exact hhalt l) (by rw [hr]; exact hx l h), hr]
  rfl

/-- The lanes of a set are noted in one round. -/
theorem foldl_noteLane (s t : State) (ls : List Nat) (os : List (Opnd × OTy)) (tr : Bool) (res : Nat → Res) :
    ((readAll s s.cur.uid ls os tr).zip (resultsOf ls res)).foldl (fun s p => noteLane s p.2 p.1.xlane) t =
      modLanes t t.cur.uid ls (fun l => laneNoted (res l) (readLane s s.cur.uid ls os tr l).xlane) := by
  rw [readAll, resultsOf, List.zip_map', List.foldl_map, ← foldl_modLane]
  exact foldl_cur ls (fun l => l) (fun l => laneNoted (res l) (readLane s s.cur.uid ls os tr l).xlane) _ t.cur.uid t.cur.len
    (fun t' l hu _ => by rw [noteLane, hu]; rfl) t rfl rfl

/-- They go on in one round. -/
theorem foldl_advanceCur (t : State) (ls : List Nat) (res : Nat → Res) :
    (resultsOf ls res).foldl (fun s e => advanceCur s e.lane) t = modLanes t t.cur.uid ls (fun _ ln => advance ln t.cur.len) := by
  rw [resultsOf, List.foldl_map, ← foldl_modLane]
  exact foldl_cur ls (fun l => l) (fun _ ln => advance ln t.cur.len) _ t.cur.uid t.cur.len
    (fun t' l hu hl => by rw [advanceCur, hu, hl]) t rfl rfl

theorem h0_notedLane (s : State) (os : List (Opnd × OTy)) {r : Res} (h : r.xlane = false) (l : Nat) :
    (notedLane s os r l).h0 = (curLane s l).h0 := by
  rw [notedLane_eq h, laneNoted_eq]

/-- One result word a lane: the writes of the destination and of the last-result file (R48, R49). -/
theorem flatten_deferWrites {s t : State} {os : List (Opnd × OTy)} {res : Nat → Res} (d : Dst) (hx : ∀ l, (res l).xlane = false)
    (ht : ∀ l ∈ s.cur.lanes, lane t s.cur.uid l = notedLane s os (res l) l) :
    ((resultsOf s.cur.lanes res).map (fun e => deferWrites (lane t s.cur.uid e.lane) e.lane d 1 e.res.val)).flatten = oneWordWrites s d res := by
  rw [resultsOf, List.map_map, ← List.flatMap_def]
  refine List.flatMap_congr (fun l hl => ?_)
  simp only [Function.comp_apply, ht l hl, deferWrites, h0_notedLane s os (hx l)]
  cases dstReg d <;> rfl

/-- Noting flags leaves the same lanes with a trap enabled. -/
theorem frozen_eq_trapping {s t : State} {os : List (Opnd × OTy)} {res : Nat → Res} (hx : ∀ l, (res l).xlane = false)
    (ht : ∀ l ∈ s.cur.lanes, lane t s.cur.uid l = notedLane s os (res l) l) :
    ((resultsOf s.cur.lanes res).filter (fun e => true && enables (lane t s.cur.uid e.lane).fmode != 0)).map (fun e => e.lane) = trapping s := by
  rw [resultsOf, List.filter_map, List.map_map, trapping]
  refine (List.map_id' _).trans (List.filter_congr (fun l hl => ?_))
  simp only [Function.comp_apply, ht l hl, notedLane_eq (hx l), enables_laneNoted, Bool.true_and]

/-- The runner of a scoreboarded one-word result over a set that meets no obstacle, lanes with a trap enabled frozen. -/
theorem runDeferred_frozen {s : State} {i : Instr} {d : Dst} {os : List (Opnd × OTy)} {f : List LaneIn → LaneIn → Res} {res : Nat → Res}
    (hs : SetOk s) (hp : NoPoison s) (hne : s.cur.lanes ≠ []) (hd : dest i = some (d, 1)) (hsrc : srcs i = os) (ho : plainOps os = true)
    (hd2 : plainDst d = true)
    (hres : ∀ l ∈ s.cur.lanes, f (readAll s s.cur.uid s.cur.lanes os) (readLane s s.cur.uid s.cur.lanes os false l) = res l)
    (hhalt : ∀ l, (res l).halt = none) (hxl : ∀ l, (res l).xlane = false)
    (hx : ∀ l ∈ s.cur.lanes, fpxDue (curLane s l) (res l).flags = false) :
    runDeferred s i true f = deferred s os res (oneWordWrites s d res) (trapping s) := by
  have hcross : ∀ l, (readLane s s.cur.uid s.cur.lanes os false l).xlane = crosses s os l :=
    fun l => by rw [readLane_opnd hp os l false ho]
  have hlane : ∀ l ∈ s.cur.lanes, lane (notedSet s os res) s.cur.uid l = notedLane s os (res l) l := fun l => lane_notedSet hs os (hxl l)
  have hends := laneEnds_plain (w := resWidth i) (tr := false) hp ho hd2 hres hhalt hx
  have hnone : ∀ p ∈ (resultsOf s.cur.lanes res).map (fun e => (e.lane, e.halt)), p.2 = none := by simp [resultsOf]
  have hok : (resultsOf s.cur.lanes res).filter (fun e => e.halt.isNone) = resultsOf s.cur.lanes res := by
    rw [List.filter_eq_self]
    simp [resultsOf]
  have hsome : (resultsOf s.cur.lanes res).isEmpty = false := by simpa [resultsOf] using hne
  have hstores : ∀ (w : Option Nat) (acc : Nat) (ok : List LaneEnd), deferStores s d [] w acc ok = [] := by
    cases d with
    | q n => exact absurd hd2 Bool.false_ne_true
    | _ => intros; rfl
  have hstay : ∀ (t : State) (acc : Nat) (es : List FEntry) (e : LaneEnd), deferLane t d 1 acc es e = t := by
    cases d with
    | q n => exact absurd hd2 Bool.false_ne_true
    | _ => intros; rfl
  unfold runDeferred
  simp only [hd, hsrc, Option.getD_some, srcStreams_plain ho, hends, pageFaults_none hnone, haltLanes_none hnone, hok, hstores, hstay,
    finishStreams_nil, takeFresh, List.isEmpty_nil, Bool.not_true, Bool.false_eq_true, if_false, hsome, foldl_noteLane,
    hcross, List.length_nil, beginAcc, if_true]
  rw [show modLanes _ s.cur.uid s.cur.lanes (fun l => laneNoted (res l) (crosses s os l)) = notedSet s os res from rfl,
    flatten_deferWrites d hxl hlane, frozen_eq_trapping hxl hlane, foldl_advanceCur]
  have hsince : (resultsOf s.cur.lanes res).map (fun e => issuedLane (lane s s.cur.uid e.lane) (lane (notedSet s os res) s.cur.uid e.lane) e.lane) =
      s.cur.lanes.map (fun l => issuedLane (curLane s l) (notedLane s os (res l) l) l) := by
    rw [resultsOf, List.map_map]
    exact List.map_congr_left (fun l hl => by rw [Function.comp_apply, hlane l hl]; rfl)
  have hgo : modLanes (notedSet s os res) s.cur.uid s.cur.lanes (fun _ ln => advance ln s.cur.len) =
      modCur { s with fresh := s.fresh + 2, free := s.free + 64 } s.cur.lanes (fun l _ => advance (notedLane s os (res l) l) s.cur.len) := by
    rw [notedSet, modLanes_modLanes _ _ _ _ _ hs.nodup]
    exact modLanes_congr_lane hs.nodup (fun l _ => by rw [notedLane_eq (hxl l)]; rfl)
  rw [hsince]
  exact congrArg (fun t => modGrp t s.cur.uid _) hgo

/-! ### The transcendentals (R108) -/

/-- The answer of a transcendental over a set that meets no obstacle: one rounding a lane, its flags noted at issue, its word pending. -/
theorem exec_of_doTrans {s : State} {i j : Instr} {r : Rnd} {g : Trans} {d : Dst} {a : Opnd} (hs : SetOk s) (hp : NoPoison s)
    (hne : s.cur.lanes ≠ []) (hd2 : plainDst d = true) (ha : plainSrc a.src = true) (hj : longForm i = j)
    (he : exec j s = doTrans s j r g) (hd : dest j = some (d, 1)) (hsrc : srcs j = [(a, .flt .f32)]) :
    let res (l : Nat) : Res := resOf (fvTrans (laneRnd (curLane s l) r) g (opnd s (.flt .f32) a l))
    (∀ l ∈ s.cur.lanes, fpxDue (curLane s l) (res l).flags = false) →
      exec i s = .next (deferred s [(a, .flt .f32)] res (oneWordWrites s d res) (trapping s)) := by
  intro res hx
  have hres : ∀ l ∈ s.cur.lanes, resOf (fvTrans (ctxFor s r (readLane s s.cur.uid s.cur.lanes [(a, .flt .f32)] false l)) g
      ((readLane s s.cur.uid s.cur.lanes [(a, .flt .f32)] false l).x 0)) = res l :=
    fun l _ => by rw [readLane_opnd hp _ l false (plainOps_one ha)]; rfl
  rw [← exec_longForm, hj, he, doTrans, runDeferred_frozen hs hp hne hd hsrc (plainOps_one ha) hd2 hres (fun _ => rfl) (fun _ => rfl) hx]

/-- Settles O10: the five functions run alike (`exec_of_doTrans`). -/
theorem transcendentals : Obligations.Transcendentals := by
  unfold Obligations.Transcendentals
  intro s i d a r hs hp hne hd ha g h
  cases g with
  | rcp => exact exec_of_doTrans hs hp hne hd ha h rfl rfl rfl
  | rsq => exact exec_of_doTrans hs hp hne hd ha h rfl rfl rfl
  | sqrt => exact exec_of_doTrans hs hp hne hd ha h rfl rfl rfl
  | exp2 => exact exec_of_doTrans hs hp hne hd ha h rfl rfl rfl
  | log2 => exact exec_of_doTrans hs hp hne hd ha h rfl rfl rfl

end Sys2Proof.Machine
end

section
/-! `mmag` on a set that is not the whole group (R109, R116, R341): XLANE is among the flags that a failed check of the result takes back, and the
statement leaves it out. -/

namespace Sys2Proof.Machine

/-- The flags that the pending results of group 1 may take back where their check fails (R341), lane by lane. -/
def raisedOf : Out → List W32
  | .next t => (grp t 1).pend.flatMap (fun p => p.2.since.map Issued.raised)
  | _ => []

theorem striding_one_setOk : SetOk (striding 1) := ⟨by decide, by decide, by decide⟩

/-- Where no trap is enabled, no flags are due one. -/
theorem fpxDue_of_enables {ln : Lane} (h : enables ln.fmode = 0) (fl : Nat) : fpxDue ln fl = false := by simp [fpxDue, h]

/-- One lane of 32: the elements of the others count as +0, XLANE is set, and it is among what was raised. -/
theorem mmag_raises_xlane : raisedOf (exec (.mmag .f16 false .rne 8 0 4) (striding 1)) = [0x4000#32] := by decide +kernel

/-- Refutes O11: for a set of one lane the model has XLANE among the flags that the instruction raised, as for every other scoreboarded result
(`notedLane`), and the statement has the exception flags alone, of which this product of zeros raises none. -/
theorem not_groupMatrix : ¬ Obligations.GroupMatrix := by
  unfold Obligations.GroupMatrix
  intro h
  have hquiet : ∀ l ∈ (striding 1).cur.lanes, enables (curLane (striding 1) l).fmode = 0 := by decide
  have hstep := h (striding 1) .f16 false .rne 8 0 4 striding_one_setOk (by unfold NoPoison; decide) (.inl rfl)
    (fun l hl => fpxDue_of_enables (hquiet l hl) _) (.inl rfl)
  have hraised := mmag_raises_xlane.symm.trans (congrArg raisedOf hstep)
  exact absurd hraised (by decide +kernel)

end Sys2Proof.Machine
end

section
/-! Statements about memory instructions that leave something out: one lane with a pointer, in states that refute them. -/

-- one declaration after another, so that the text as a whole is checked within its memory
set_option Elab.async false

namespace Sys2Proof.Machine

/-! ### A lane with a pointer -/

/-- A lane whose pair v0, v1 points to the first byte of `gigaPage 4`. -/
def pointerLane : Lane := { strideLane with v := [(1, 0xFF800001#32)] }

/-- A set of one lane, on a package that translates by these bytes. -/
def pointing (mem : List Host.Cell) (ln : Lane) (p : Place) : State :=
  { striding 1 with mem := mem, groups := [(1, { gang := 2, place := p, lanes := [ln] })] }

/-- The set has lane 0 alone. -/
theorem eq_zero_of_lane {l : Nat} (h : l ∈ (striding 1).cur.lanes) : l = 0 := by simpa [striding] using h

theorem pointing_setOk (mem : List Host.Cell) (ln : Lane) (p : Place) : SetOk (pointing mem ln p) where
  here := rfl
  nodup := (by decide : [0].Nodup)
  bound := by simp [pointing, striding, grp, tGet?]

/-- The pointer of the set's lane. -/
abbrev gigaPtr : W64 := 0xFF80000100000000#64

/-! ### Memory instructions whose walk meets an error (R315, R338)

A memory instruction holds the translation that it used; where the walk for that meets a pending error of the tables, the record of the event goes to
the log in host memory (R345). A statement that has memory unchanged needs that no error is pending. -/

/-- The lane, and a corrected error in the leaf entry of `gigaPage 4`. -/
def markedPointing : State := { pointing selfMappedTable pointerLane (.resident 0) with errors := [⟨.table 0x1020, .corrected⟩] }

theorem markedPointing_setOk : SetOk markedPointing := ⟨rfl, by decide, by decide⟩

theorem markedPointing_noPoison : NoPoison markedPointing := by unfold NoPoison; decide

theorem markedPointing_tidy : Tidy markedPointing := by
  intro l hl
  obtain rfl := eq_zero_of_lane hl
  exact ⟨by decide, by decide, by decide, by decide⟩

/-- An answer with another memory than the state had. -/
def memChanged (s : State) : Out → Bool
  | .next t => decide (t.mem ≠ s.mem)
  | _ => false

theorem mem_ne_of_memChanged {s t : State} {o : Out} (h : memChanged s o = true) (ht : o = .next t) : t.mem ≠ s.mem := by
  rw [ht] at h
  exact of_decide_eq_true h

theorem st_logs : memChanged markedPointing (exec (.st .b ⟨.plain, .core⟩ .h0 0 0 ⟨.imm 0, .ident⟩) markedPointing) = true := by decide

theorem cwb_logs : memChanged markedPointing (exec (.cwb 0 0 ⟨.imm 0, .ident⟩) markedPointing) = true := by decide

theorem aadd_logs : memChanged markedPointing (exec (.aadd false ⟨.plain, .core⟩ .none 0 0 ⟨.imm 0, .ident⟩) markedPointing) = true := by
  decide

theorem acqr_logs : memChanged markedPointing (exec (.acqr .core 0 0) markedPointing) = true := by decide

/-- Refutes O27: the walk for the store meets an error in the tables, and its record is written to memory, which the statement has unchanged. -/
theorem not_storeIssue : ¬ Obligations.StoreIssue := by
  unfold Obligations.StoreIssue
  intro h
  obtain ⟨hb, -⟩ := h markedPointing .b ⟨.plain, .core⟩ .h0 0 0 ⟨.imm 0, .ident⟩ (fun _ => gigaPage 4) (fun _ => 0) (fun _ => 4 * 2 ^ 30)
    markedPointing_setOk markedPointing_noPoison ⟨0, by decide⟩ rfl rfl
  obtain ⟨⟨t, ht, -, hmem, -⟩, -⟩ := hb 1 (by decide) (fun l hl => by
    obtain rfl := eq_zero_of_lane hl
    exact ⟨⟨by decide, by decide, by decide⟩, .inl rfl⟩)
  exact mem_ne_of_memChanged st_logs ht hmem

/-- Refutes O31: the walk for a `cwb` meets an error in the tables, and its record is written to memory, which the statement has unchanged. -/
theorem not_streamsAndLines : ¬ Obligations.StreamsAndLines := by
  unfold Obligations.StreamsAndLines
  intro h
  obtain ⟨-, -, -, hline⟩ := h markedPointing 0 0 0 0 ⟨.imm 0, .ident⟩ .none (fun _ => gigaPage 4) (fun _ => 0) (fun _ => 4 * 2 ^ 30)
    markedPointing_setOk markedPointing_noPoison ⟨0, by decide⟩ rfl
  obtain ⟨⟨t, ht, -, hmem, -⟩, -⟩ := hline (fun l hl => by
    obtain rfl := eq_zero_of_lane hl
    exact ⟨by decide, rfl⟩)
  exact mem_ne_of_memChanged cwb_logs ht hmem

/-- Refutes O34: the walk for an atomic meets an error in the tables, and its record is written to memory, which the statement has unchanged. -/
theorem not_atomicIssue : ¬ Obligations.AtomicIssue := by
  unfold Obligations.AtomicIssue
  intro h
  obtain ⟨hadd, -⟩ := h markedPointing false ⟨.plain, .core⟩ .none 0 0 ⟨.imm 0, .ident⟩ (fun _ => gigaPage 4) (fun _ => 0) (fun _ => 4 * 2 ^ 30)
    markedPointing_setOk markedPointing_noPoison markedPointing_tidy (by unfold NoPendH; decide) ⟨0, by decide⟩ rfl rfl
  obtain ⟨t, ht, hmem, -⟩ := hadd (fun l hl => by
    obtain rfl := eq_zero_of_lane hl
    exact ⟨⟨by decide, by decide, by decide⟩, rfl, by unfold ClassOk; decide, by decide⟩)
  exact mem_ne_of_memChanged aadd_logs ht hmem

/-- Refutes O39: the walk for an `acqr` meets an error in the tables, and its record is written to memory, which the statement has unchanged. -/
theorem not_fencesAndPromotes : ¬ Obligations.FencesAndPromotes := by
  unfold Obligations.FencesAndPromotes
  intro h
  obtain ⟨-, -, hacqr⟩ := h markedPointing .rlx .core 0 0 (fun _ => gigaPage 4) (fun _ => 0) (fun _ => 4 * 2 ^ 30)
    markedPointing_setOk markedPointing_noPoison ⟨0, by decide⟩
  obtain ⟨t, ht, -, hmem, -⟩ := hacqr (fun l hl => by
    obtain rfl := eq_zero_of_lane hl
    exact ⟨by decide, rfl⟩)
  exact mem_ne_of_memChanged acqr_logs ht hmem

/-! ### A load that replaces a transfer -/

theorem mem_of_tGet? {α : Type} {t : Table α} {k : Nat} {v : α} (h : tGet? t k = some v) : (k, v) ∈ t := by
  induction t with
  | nil => simp [tGet?] at h
  | cons p r ih =>
    obtain ⟨i, x⟩ := p
    by_cases hk : i = k
    · simp_all [tGet?]
    · exact List.mem_cons_of_mem _ (ih (by simpa [tGet?, hk] using h))

/-- An atomic of the lane on its way to 16 bytes of `gigaPage 4`. -/
def atomicOut : FEntry :=
  { id := 0, uid := 1, lane := 0, acc := 0, act := .atom .add 4 0 0, owner := 0, pa := 4 * 2 ^ 30, va := gigaPtr, size := 16, sem := .plain, scope := .core }

/-- The atomic stands in the link queues under the number that the next load is sent by. -/
def misnumbered : State := { pointing selfMappedTable pointerLane (.resident 0) with links := [(2, .entry atomicOut 0)] }

/-- The second half of the lane's 16 bytes is asked for. -/
def secondSent : Out → Bool
  | .next t => t.links.any (fun p => match p.2 with
    | .read r _ => r.pa == 4 * 2 ^ 30 + 8
    | .entry .. => false)
  | _ => false

/-- The first half of the load is sent and takes the atomic's place in the queue: nothing holds the second half, which is read at once. -/
theorem misnumbered_second : secondSent (exec (.ld .q ⟨.plain, .core⟩ .none 0 0 ⟨.imm 0, .ident⟩) misnumbered) = false := by decide

theorem read_pa_of_secondSent {t : State} {o : Out} (h : secondSent o = false) (ht : o = .next t) {id d : Nat} {r : ReadReq}
    (hr : tGet? t.links id = some (.read r d)) : r.pa ≠ 4 * 2 ^ 30 + 8 := by
  rw [ht] at h
  simpa using List.any_eq_false.1 h _ (mem_of_tGet? hr)

/-- Refutes O25: the statement does not ask that the numbers of the transfers under way are taken, and where the first half of a 16-byte load
replaces one of them that its second half waits for, the second half is read at once, not sent. -/
theorem not_loadIssue : ¬ Obligations.LoadIssue := by
  unfold Obligations.LoadIssue
  intro h
  obtain ⟨-, hq⟩ := h misnumbered .q ⟨.plain, .core⟩ .none 0 0 ⟨.imm 0, .ident⟩ (fun _ => gigaPage 4) (fun _ => 0) (fun _ => 4 * 2 ^ 30)
    ⟨rfl, by decide, by decide⟩ (by unfold NoPoison; decide) ⟨0, by decide⟩ rfl rfl rfl
  obtain ⟨t, ht, -, -, hl⟩ := hq rfl (fun l hl => by
    obtain rfl := eq_zero_of_lane hl
    exact ⟨⟨⟨by decide, by decide, by decide⟩, .inl rfl, by unfold ClassOk; decide, by unfold Clean; decide⟩,
      by unfold Clean; decide⟩)
  have hwait : loadAt misnumbered misnumbered.cur.uid 0 .plain .core none 0 (4 * 2 ^ 30 + 8 * 1)
      (eaOf 16 (opnd misnumbered (.int 64) (op (.v 0)) 0) (opnd misnumbered (.int 32) ⟨.imm 0, .ident⟩ 0) 0 + BitVec.ofNat 64 (8 * 1)) 8 = .wait := by
    decide
  have hsent := (hl 0 (by decide)).2 1 (.inr rfl)
  beta_reduce at hsent
  rw [hwait] at hsent
  obtain ⟨id, r, hr, -, -, -, -, -, hpa, -⟩ := hsent
  exact read_pa_of_secondSent misnumbered_second ht hr hpa

/-! ### Pages of a region with a service -/

/-- `selfMappedTable` with this KIND of the leaf of `gigaPage 4` and RTI 1; region 1, at 0x2020, begins at that page and has its descriptor at 0x3000,
where BASE and a LENGTH of 1 precede what is given (R229, R242, R310 to R312). -/
def serviceTable (kind : Byte) (desc : List Host.Cell) : List Host.Cell :=
  [(0x1000, 0x01#8), (0x1001, 0x10#8), (0x1011, 0x20#8), (0x1018, 0x02#8), (0x1020, kind <<< 6 ||| 0x0F#8), (0x1021, 0x08#8), (0x1024, 0x01#8),
   (0x1026, 0x10#8), (0x2024, 0x01#8), (0x2026, 0x80#8), (0x2027, 0xFF#8), (0x2039, 0x30#8), (0x3004, 0x01#8), (0x3006, 0x80#8), (0x3007, 0xFF#8),
   (0x3008, 0x01#8)] ++ desc

/-- Region 1 of `serviceTable`. -/
def serviceRegion : RegionEnt := { base := gigaPtr, elemfmt := 0, p8d := 0, block := 0, scale := 0, desc := 0x3000 }

/-- The page that `serviceTable` maps. -/
def servicePage (kind : PKind) : PageAttr := { gigaPage 4 with kind := kind, region := some serviceRegion }

/-! ### An `eld` of a group that has left its slot -/

/-- One cell with one edition kept, the newest being 0. -/
def cellDesc : EdDesc := { base := gigaPtr.toNat, length := 1, depth := 1, dclass := .proof, store := 0x4000, meta_ := 0x5000 }

/-- The lane of a group that was saved since the wait table had no room for it. -/
def overflowed : State :=
  pointing (serviceTable 1 [(0x300C, 0x01#8), (0x300E, 0x01#8), (0x3011, 0x40#8), (0x3019, 0x50#8)]) pointerLane (.saved .waitOverflow false)

/-- What became of the set's lane. -/
def laneThen : Out → Lane
  | .next t => lane t 1 0
  | _ => {}

/-- The lane does not park: its group is registered at the owner, and it is to be evaluated again (R234). -/
theorem overflowed_eld_runs : (laneThen (exec (.eld .b ⟨.plain, .core⟩ .none 0 0 ⟨.imm 1, .ident⟩) overflowed)).st = .run := by decide

/-- Refutes O36: the statement does not ask that the group is in its slot, and an `eld` of an edition that does not exist does not park a lane
whose group is saved for want of a place in the wait table. -/
theorem not_editionIssue : ¬ Obligations.EditionIssue := by
  unfold Obligations.EditionIssue
  intro h
  obtain ⟨-, hpark, -⟩ := h overflowed .b 1 1 ⟨.plain, .core⟩ .none 0 0 ⟨.imm 1, .ident⟩ (fun _ => servicePage .editioned) (fun _ => 4 * 2 ^ 30)
    (fun _ => serviceRegion) (fun _ => cellDesc) (fun _ => 0) (pointing_setOk ..) (by unfold NoPoison; decide) rfl ⟨0, by decide⟩ rfl rfl (by decide)
    (by decide) (by decide)
  obtain ⟨t, ht, -, hl⟩ := hpark (fun l hl => by
    obtain rfl := eq_zero_of_lane hl
    exact ⟨⟨⟨by decide, by decide, by decide⟩, rfl, rfl, by decide, by decide, by decide⟩,
      by unfold ClassOk; decide, by decide⟩) (by decide)
  obtain ⟨⟨hst, -, -⟩, -⟩ := hl 0 (by decide)
  have hrun := overflowed_eld_runs
  rw [ht] at hrun
  exact absurd (hrun.symm.trans hst) (by simp)

/-! ### A `pquery` of a lane that holds the access of an `eld` -/

/-- A PL template with one element and no errata. -/
def knotDesc : PlDesc :=
  { base := gigaPtr.toNat, length := 1, mlp := false, fmt := .f32, knots := 1, side := false, tol := 0, timeout := 1, castcnt := 0, thresh := 65536, params := 0,
    staged := 0, err0 := 0, err1 := 0 }

/-- The lane still holds the access of an `eld` that is to be evaluated again. -/
def holdingEld : State :=
  pointing (serviceTable 2 [(0x300C, 0x01#8), (0x300D, 0x08#8), (0x300E, 0x01#8), (0x300F, 0x01#8), (0x3014, 0x01#8)]) { pointerLane with eldAcc := some 7 }
    (.resident 0)

theorem holdingEld_pquery : (laneThen (exec (.pquery .none 0 0) holdingEld)).eldAcc = none := by decide

/-- Refutes O38: a `pquery` that the service of its own die answers gives up the access that its lane kept of an `eld`, and the statement has a lane
that passes unchanged beside its FIFO, XLANE and the step of its last acquire. -/
theorem not_plateIssue : ¬ Obligations.PlateIssue := by
  unfold Obligations.PlateIssue
  intro h
  obtain ⟨-, -, -, hquery, -⟩ := h holdingEld .none .h0 0 0 ⟨.imm 0, .ident⟩ (fun _ => servicePage .plated) (fun _ => 4 * 2 ^ 30) (fun _ => serviceRegion)
    (fun _ => knotDesc) (pointing_setOk ..) (by unfold NoPoison; decide) rfl ⟨0, by decide⟩ rfl rfl rfl
  obtain ⟨t, ht, -, -, hl⟩ := hquery (fun l hl => by
    obtain rfl := eq_zero_of_lane hl
    exact ⟨by decide, rfl, rfl, by decide⟩)
  obtain ⟨⟨-, -, hkept⟩, -⟩ := hl 0 (by decide)
  have hgone := holdingEld_pquery
  rw [ht] at hgone
  exact absurd ((congrArg Lane.eldAcc hkept).symm.trans hgone) (by decide)

end Sys2Proof.Machine
end

section
/-! Effects of memory instructions in one lane after another (R123, R124): what each leaves alone, and what it leaves behind. -/

-- one declaration after another, so that the text as a whole is checked within its memory
set_option Elab.async false

namespace Sys2Proof.Machine

/-! ### What an effect in some lanes of a group may change -/

/-- From s to t, an instruction took effect in lanes of ls of group u: beside the model's counters and translations held, nothing outside these lanes
and the pending results of the group has changed, and no result that was pending under a taken number. -/
structure ActsOn (u : Nat) (ls : List Nat) (s t : State) : Prop where
  rest : { t with groups := s.groups, tlbs := s.tlbs, fresh := s.fresh, free := s.free } = s
  here : (tGet? t.groups u).isSome = (tGet? s.groups u).isSome
  group : { grp t u with lanes := [], pend := [] } = { grp s u with lanes := [], pend := [] }
  length : (grp t u).lanes.length = (grp s u).lanes.length
  others : ∀ k, k ∉ ls → lane t u k = lane s u k
  fresh : s.fresh ≤ t.fresh
  pend : ∀ id, id < s.fresh → tGet? (grp t u).pend id = tGet? (grp s u).pend id

namespace ActsOn

variable {u : Nat} {ls ms : List Nat} {s t r : State}

theorem refl (u : Nat) (ls : List Nat) (s : State) : ActsOn u ls s s := ⟨rfl, rfl, rfl, rfl, fun _ _ => rfl, Nat.le_refl _, fun _ _ => rfl⟩

theorem trans (h : ActsOn u ls s t) (g : ActsOn u ms t r) : ActsOn u (ls ++ ms) s r where
  rest := (congrArg (fun x : State => { x with groups := s.groups, tlbs := s.tlbs, fresh := s.fresh, free := s.free }) g.rest).trans h.rest
  here := g.here.trans h.here
  group := g.group.trans h.group
  length := g.length.trans h.length
  others k hk := by
    rw [List.mem_append, not_or] at hk
    exact (g.others k hk.2).trans (h.others k hk.1)
  fresh := h.fresh.trans g.fresh
  pend id hid := (g.pend id (hid.trans_le h.fresh)).trans (h.pend id hid)

theorem mono (h : ActsOn u ls s t) (hsub : ∀ l ∈ ls, l ∈ ms) : ActsOn u ms s t :=
  { h with others := fun k hk => h.others k (fun hl => hk (hsub k hl)) }

theorem trans_same (h : ActsOn u ls s t) (g : ActsOn u ls t r) : ActsOn u ls s r := (h.trans g).mono (fun l hl => by simpa using hl)

theorem cur (h : ActsOn u ls s t) : t.cur = s.cur := (congrArg State.cur h.rest :)
theorem mem (h : ActsOn u ls s t) : t.mem = s.mem := (congrArg State.mem h.rest :)
theorem errors (h : ActsOn u ls s t) : t.errors = s.errors := (congrArg State.errors h.rest :)
theorem poison (h : ActsOn u ls s t) : t.poison = s.poison := (congrArg State.poison h.rest :)
theorem gangs (h : ActsOn u ls s t) : t.gangs = s.gangs := (congrArg State.gangs h.rest :)
theorem launches (h : ActsOn u ls s t) : t.launches = s.launches := (congrArg State.launches h.rest :)
theorem cmds (h : ActsOn u ls s t) : t.cmds = s.cmds := (congrArg State.cmds h.rest :)
theorem cores (h : ActsOn u ls s t) : t.cores = s.cores := (congrArg State.cores h.rest :)
theorem dies (h : ActsOn u ls s t) : t.dies = s.dies := (congrArg State.dies h.rest :)
theorem links (h : ActsOn u ls s t) : t.links = s.links := (congrArg State.links h.rest :)
theorem plates (h : ActsOn u ls s t) : t.plates = s.plates := (congrArg State.plates h.rest :)
theorem mstep (h : ActsOn u ls s t) : t.mstep = s.mstep := (congrArg State.mstep h.rest :)
theorem gang (h : ActsOn u ls s t) : (grp t u).gang = (grp s u).gang := (congrArg Group.gang h.group :)
theorem ld (h : ActsOn u ls s t) : (grp t u).ld = (grp s u).ld := (congrArg Group.ld h.group :)
theorem st (h : ActsOn u ls s t) : (grp t u).st = (grp s u).st := (congrArg Group.st h.group :)

theorem gangOf (h : ActsOn u ls s t) : gangOf t u = gangOf s u := by rw [Machine.gangOf, Machine.gangOf, h.gang, gangAt, gangAt, h.gangs]

end ActsOn

/-! ### The parts of an effect -/

theorem grp_modLane {s : State} {u : Nat} (hg : (tGet? s.groups u).isSome = true) (l : Nat) (f : Lane → Lane) :
    grp (modLane s u l f) u = modLaneG (grp s u) l f := by
  rw [modLane, grp_modGrp s u u _ hg, if_pos rfl]

theorem isSome_modGrp (s : State) (u v : Nat) (f : Group → Group) : (tGet? (modGrp s u f).groups v).isSome = (tGet? s.groups v).isSome := by
  simp only [modGrp, tGet?_tMod]
  split <;> simp

theorem lane_modLane_ne (s : State) (u : Nat) {l k : Nat} (f : Lane → Lane) (h : k ≠ l) (hg : (tGet? s.groups u).isSome = true) :
    lane (modLane s u l f) u k = lane s u k := by
  rw [lane, grp_modLane hg, laneAt_modLaneG, if_neg (fun hk => h hk.1.symm), lane]

theorem actsOn_modLane {s : State} {u : Nat} (hg : (tGet? s.groups u).isSome = true) (l : Nat) (f : Lane → Lane) : ActsOn u [l] s (modLane s u l f) where
  rest := rfl
  here := isSome_modGrp ..
  group := by rw [grp_modLane hg]; rfl
  length := by rw [grp_modLane hg, length_modLaneG]
  others k hk := lane_modLane_ne s u f (by simpa using hk) hg
  fresh := Nat.le_refl _
  pend id _ := by rw [grp_modLane hg]; rfl

/-- A lane with an entry at the tail of its FIFO, under number n. -/
def withEntry (e : FEntry) (n : Nat) (ln : Lane) : Lane := { ln with fifo := ln.fifo ++ [{ e with id := n }] }

theorem pushEntry_eq (s : State) (e : FEntry) : pushEntry s e = modLane { s with fresh := s.fresh + 1 } e.uid e.lane (withEntry e s.fresh) := rfl

theorem actsOn_fresh (u : Nat) (s : State) (n m : Nat) (h : s.fresh ≤ n) : ActsOn u [] s { s with fresh := n, free := m } :=
  ⟨rfl, rfl, rfl, rfl, fun _ _ => rfl, h, fun _ _ => rfl⟩

theorem actsOn_pushEntry {s : State} {e : FEntry} (hg : (tGet? s.groups e.uid).isSome = true) : ActsOn e.uid [e.lane] s (pushEntry s e) :=
  (actsOn_fresh e.uid s (s.fresh + 1) s.free (Nat.le_succ _)).trans (actsOn_modLane (s := { s with fresh := s.fresh + 1 }) hg e.lane _)

theorem walkMet_nil {s : State} (h : s.errors = []) (k owner vmid asid off : Nat) : walkMet s k owner vmid asid off = s := by simp [walkMet, h]

theorem actsOn_tlbs (u : Nat) (s : State) (ts : Table (List TlbEnt)) : ActsOn u [] s { s with tlbs := ts } :=
  ⟨rfl, rfl, rfl, rfl, fun _ _ => rfl, Nat.le_refl _, fun _ _ => rfl⟩

/-- Holding a translation where no error is pending changes the TLB alone (R315). -/
theorem actsOn_tlbFill {s : State} (h : s.errors = []) (u k owner vmid asid off : Nat) (a : PageAttr) :
    ActsOn u [] s (tlbFill s k owner vmid asid off a) := by
  have hput (c : Prop) [Decidable c] (ts : Table (List TlbEnt)) : ActsOn u [] s (if c then s else { s with tlbs := ts }) := by
    by_cases hc : c
    · rw [if_pos hc]
      exact .refl ..
    · rw [if_neg hc]
      exact actsOn_tlbs ..
  unfold tlbFill
  rw [walkMet_nil h]
  split
  · exact .refl ..
  · exact hput ..

theorem actsOn_fillCur {s : State} (h : s.errors = []) (u : Nat) (va : W64) (r : Reach) : ActsOn u [] s (fillCur s va r) := by
  unfold fillCur reachFill
  split
  · exact actsOn_tlbFill h ..
  · rw [walkMet_nil h]
    exact .refl ..
  · exact .refl ..

/-- The pending record of a result of an access. -/
def pending (l acc : Nat) (t : Target) (x : Nat) : Pending :=
  { writes := if t.cnt = 0 then [] else regWrites l (targetReg t) t.cnt x, acc := some acc }

theorem grp_pendResult {s : State} {u : Nat} (hu : s.cur.uid = u) (hg : (tGet? s.groups u).isSome = true) (l acc : Nat) (t : Target) (x : Nat) :
    grp (pendResult s l acc t x) u = { grp s u with pend := tPut (grp s u).pend s.fresh (pending l acc t x) } := by
  subst hu
  show grp (modGrp { s with fresh := s.fresh + 1 } s.cur.uid _) s.cur.uid = _
  rw [grp_modGrp { s with fresh := s.fresh + 1 } s.cur.uid s.cur.uid _ hg, if_pos rfl]
  rfl

theorem actsOn_pendResult {s : State} {u : Nat} (hu : s.cur.uid = u) (hg : (tGet? s.groups u).isSome = true) (l acc : Nat) (t : Target) (x : Nat) :
    ActsOn u [] s (pendResult s l acc t x) where
  rest := rfl
  here := isSome_modGrp { s with fresh := s.fresh + 1 } ..
  group := by rw [grp_pendResult hu hg]
  length := by rw [grp_pendResult hu hg]
  others k _ := by rw [lane, grp_pendResult hu hg]; rfl
  fresh := Nat.le_succ _
  pend id hid := by rw [grp_pendResult hu hg, tGet?_tPut_ne _ _ (Nat.ne_of_gt hid)]

theorem passLane_plain {os : List (Opnd × OTy)} (ho : plainOps os = true) (s : State) (l : Nat) :
    passLane s os l = modLane s s.cur.uid l (fun ln => advance ln s.cur.len) := by
  rw [passLane, srcStreams_plain ho, finishStreams_nil, advanceCur]

theorem noteAcquire_core (s : State) (u l : Nat) (sem : Sem) : noteAcquire s u l sem .core = s := by simp [noteAcquire, devScope]

end Sys2Proof.Machine
end

section
/-! The runner of the memory instructions over a set in which every lane goes on (R123, R124, R143). -/

-- one declaration after another, so that the text as a whole is checked within its memory
set_option Elab.async false

namespace Sys2Proof.Machine

/-! ### Addresses (R121) -/

theorem sext8_eq (ofs : BitVec 8) : sext 8 ofs.toNat = ofs.toInt := by rw [sext_eq_toInt 8 _ (by decide), BitVec.ofNat_toNat, BitVec.setWidth_eq]

theorem eaIndexed_eq (n a : Nat) (ofs : BitVec 8) (b : Nat) : eaIndexed n a ofs b = eaOf n a b ofs := by
  rw [eaIndexed, eaOf, sext8_eq, sext_eq_toInt 32 _ (by decide)]

theorem eaLocal_eq (n a : Nat) (ofs : BitVec 8) (b : Nat) : eaLocal n a ofs b = eaNear n a b ofs := by
  rw [eaLocal, eaNear, wrap_eq_ofInt, sext8_eq, sext_eq_toInt 32 _ (by decide), BitVec.ofInt_add, BitVec.ofInt_natCast]

/-! ### The start of an access -/

/-- What a lane of the set reads of operands none of which is a stream. -/
def laneIn (s : State) (os : List (Opnd × OTy)) (l : Nat) : LaneIn := ⟨l, os.map (fun p => opnd s p.2 p.1 l), none, crosses s os l⟩

/-- The state in which the lanes of the set take effect: XLANE noted, and the access counted for n lanes under the number that was taken. -/
def accBegun (s : State) (os : List (Opnd × OTy)) (ctr : Option Ctr) (n : Nat) : State :=
  let t := modLanes { s with fresh := s.fresh + 1 } s.cur.uid s.cur.lanes (fun l ln => setXlane ln (crosses s os l))
  match ctr with
  | some c => beginAcc t s.cur.uid s.fresh c n
  | none => t

theorem readAll_eq {s : State} (hp : NoPoison s) {os : List (Opnd × OTy)} (ho : plainOps os = true) :
    readAll s s.cur.uid s.cur.lanes os = s.cur.lanes.map (laneIn s os) :=
  List.map_congr_left (fun l _ => readLane_opnd hp os l false ho)

theorem foldl_add_one {α : Type} (xs : List α) (f : α → Nat) (h : ∀ x ∈ xs, f x = 1) (k : Nat) : xs.foldl (fun n x => n + f x) k = k + xs.length := by
  induction xs generalizing k with
  | nil => rfl
  | cons x t ih =>
    rw [List.foldl_cons, h x (by simp), ih (fun y hy => h y (by simp [hy])), List.length_cons]
    omega

/-- Where every lane of the set goes on, the runner is the effects of the lanes in their order. -/
theorem runAccess_go {α : Type} {s : State} {os : List (Opnd × OTy)} {find : State → LaneIn → Find α} {ctr : Option Ctr} {cnt : LaneIn → α → Nat}
    {act : State → Nat → LaneIn → α → State} (hp : NoPoison s) (ho : plainOps os = true) (x : Nat → α)
    (hfind : ∀ l ∈ s.cur.lanes, find s (laneIn s os l) = .go (x l)) (hcnt : ctr ≠ none → ∀ l ∈ s.cur.lanes, cnt (laneIn s os l) (x l) = 1) :
    runAccess s os find ctr cnt act =
      s.cur.lanes.foldl (fun t l => act t s.fresh (laneIn s os l) (x l)) (accBegun s os ctr s.cur.lanes.length) := by
  have hnone : ∀ p ∈ foundHalts (s.cur.lanes.map (fun l => (⟨laneIn s os l, .go (x l)⟩ : Found α))), p.2 = none := by simp [foundHalts]
  have hfound {f : Nat → Found α} (hf : ∀ l, f l = ⟨laneIn s os l, find s (laneIn s os l)⟩) :
      s.cur.lanes.map f = s.cur.lanes.map (fun l => ⟨laneIn s os l, .go (x l)⟩) :=
    List.map_congr_left (fun l hl => by rw [hf, hfind l hl])
  unfold runAccess
  simp only [readAll_eq hp ho, List.map_map]
  rw [hfound]
  on_goal 2 => exact fun _ => rfl
  simp only [pageFaults_none hnone, List.isEmpty_nil, Bool.not_true, Bool.false_eq_true, if_false, haltLanes_none hnone, srcStreams_plain ho, if_true,
    List.foldl_map, takeFresh]
  congr 1
  unfold accBegun
  rw [← foldl_modLane]
  cases ctr with
  | none => rfl
  | some c =>
    show beginAcc _ _ _ _ (s.cur.lanes.foldl (fun n l => n + cnt (laneIn s os l) (x l)) 0) = _
    rw [foldl_add_one _ _ (hcnt (by simp)), Nat.zero_add]
    rfl

/-! ### The lanes of the set in turn -/

/-- The state in which lane l of the set takes effect, lanes before it having done so. -/
structure Midway (s : State) (os : List (Opnd × OTy)) (l : Nat) (t : State) : Prop where
  rest : { t with groups := s.groups, tlbs := s.tlbs, fresh := s.fresh, free := s.free } = s
  here : (tGet? t.groups s.cur.uid).isSome = true
  bound : l < (grp t s.cur.uid).lanes.length
  gang : (grp t s.cur.uid).gang = (grp s s.cur.uid).gang
  lane : lane t s.cur.uid l = setXlane (curLane s l) (crosses s os l)

namespace Midway

variable {s t : State} {os : List (Opnd × OTy)} {l : Nat}

theorem cur (h : Midway s os l t) : t.cur = s.cur := (congrArg State.cur h.rest :)
theorem uid (h : Midway s os l t) : t.cur.uid = s.cur.uid := congrArg IssueSet.uid h.cur
theorem len (h : Midway s os l t) : t.cur.len = s.cur.len := congrArg IssueSet.len h.cur
theorem errors (h : Midway s os l t) : t.errors = s.errors := (congrArg State.errors h.rest :)
theorem gangs (h : Midway s os l t) : t.gangs = s.gangs := (congrArg State.gangs h.rest :)
theorem launches (h : Midway s os l t) : t.launches = s.launches := (congrArg State.launches h.rest :)
theorem cmds (h : Midway s os l t) : t.cmds = s.cmds := (congrArg State.cmds h.rest :)

theorem gangOf (h : Midway s os l t) : gangOf t s.cur.uid = gangOf s s.cur.uid := by rw [Machine.gangOf, Machine.gangOf, h.gang, gangAt, gangAt, h.gangs]

theorem launchOf (h : Midway s os l t) : launchOf t s.cur.uid = launchOf s s.cur.uid := by rw [Machine.launchOf, Machine.launchOf, h.gangOf]

theorem ctxOf (h : Midway s os l t) : ctxOf t s.cur.uid = ctxOf s s.cur.uid := by
  rw [Machine.ctxOf, Machine.ctxOf, h.launchOf, launchAt, launchAt, h.launches]

/-- The lane's change, made in the state that is midway. -/
theorem lane_modLane (h : Midway s os l t) (f : Lane → Lane) :
    Machine.lane (modLane t s.cur.uid l f) s.cur.uid l = f (setXlane (curLane s l) (crosses s os l)) := by
  rw [Machine.lane_modLane t s.cur.uid l l f h.here h.bound, if_pos rfl, h.lane]

/-- Another effect elsewhere comes between. -/
theorem actsOn (h : Midway s os l t) {r : State} {ks : List Nat} (g : ActsOn s.cur.uid ks t r) (hl : l ∉ ks) : Midway s os l r where
  rest := (congrArg (fun x : State => { x with groups := s.groups, tlbs := s.tlbs, fresh := s.fresh, free := s.free }) g.rest).trans h.rest
  here := g.here.trans h.here
  bound := by rw [g.length]; exact h.bound
  gang := g.gang.trans h.gang
  lane := (g.others l hl).trans h.lane

end Midway

theorem accBegun_some (s : State) (os : List (Opnd × OTy)) (c : Ctr) {n : Nat} (hn : n ≠ 0) : accBegun s os (some c) n =
    modGrp (accBegun s os none n) s.cur.uid (fun g => { ctrSet g c (ctrGet g c + 1) with accs := tPut g.accs s.fresh ⟨c, n⟩ }) := by
  show beginAcc _ _ _ _ _ = _
  rw [beginAcc, if_neg hn]
  rfl

theorem ctrSet_lanes (g : Group) (c : Ctr) (n : Nat) : (ctrSet g c n).lanes = g.lanes := by cases c <;> rfl
theorem ctrSet_gang (g : Group) (c : Ctr) (n : Nat) : (ctrSet g c n).gang = g.gang := by cases c <;> rfl

/-- Before any lane takes effect, every lane of the set is midway. -/
theorem midway_accBegun {s : State} (hs : SetOk s) (os : List (Opnd × OTy)) (ctr : Option Ctr) (n : Nat) {l : Nat} (hl : l ∈ s.cur.lanes) :
    Midway s os l (accBegun s os ctr n) := by
  have hnone : Midway s os l (accBegun s os none n) := by
    have hgrp : grp (accBegun s os none n) s.cur.uid = _ := grp_modGrp { s with fresh := s.fresh + 1 } s.cur.uid s.cur.uid _ hs.here
    rw [if_pos rfl] at hgrp
    exact ⟨rfl, (isSome_modGrp { s with fresh := s.fresh + 1 } ..).trans hs.here,
      by rw [hgrp, (lanes_foldl_modLaneG ..).1]; exact hs.bound l hl,
      by rw [hgrp]; exact (congrArg Group.gang (lanes_foldl_modLaneG ..).2 :),
      (lane_modLanes_of_bound (s := { s with fresh := s.fresh + 1 }) _ hs.here hs.nodup hs.bound l).trans (if_pos hl)⟩
  cases ctr with
  | none => exact hnone
  | some c =>
    by_cases hn : n = 0
    · rw [show accBegun s os (some c) n = accBegun s os none n from if_pos hn]
      exact hnone
    · have hgrp : grp (accBegun s os (some c) n) s.cur.uid = _ :=
        (congrArg (grp · s.cur.uid) (accBegun_some s os c hn)).trans ((grp_modGrp _ s.cur.uid s.cur.uid _ hnone.here).trans (if_pos rfl))
      exact ⟨by rw [accBegun_some s os c hn]; exact hnone.rest, by rw [accBegun_some s os c hn, isSome_modGrp]; exact hnone.here,
        by rw [hgrp]; exact (ctrSet_lanes ..).symm ▸ hnone.bound,
        by rw [hgrp]; exact (ctrSet_gang ..).trans hnone.gang,
        by
          rw [Machine.lane, laneAt, hgrp]
          show nth {} (ctrSet (grp (accBegun s os none n) s.cur.uid) _ _).lanes l = _
          rw [ctrSet_lanes]
          exact hnone.lane⟩

/-- The access counts once, on its counter. -/
theorem counters_accBegun {s : State} (hs : SetOk s) (os : List (Opnd × OTy)) (c : Ctr) {n : Nat} (hn : n ≠ 0) :
    ctrGet (grp (accBegun s os (some c) n) s.cur.uid) c = ctrGet (grp s s.cur.uid) c + 1 := by
  have hgrp : grp (accBegun s os none n) s.cur.uid = _ :=
    (grp_modGrp { s with fresh := s.fresh + 1 } s.cur.uid s.cur.uid _ hs.here).trans (if_pos rfl)
  have hkept := (lanes_foldl_modLaneG s.cur.lanes (fun l ln => setXlane ln (crosses s os l)) (grp s s.cur.uid)).2
  have hhere : (tGet? (accBegun s os none n).groups s.cur.uid).isSome = true := (isSome_modGrp { s with fresh := s.fresh + 1 } ..).trans hs.here
  rw [accBegun_some s os c hn, grp_modGrp (accBegun s os none n) s.cur.uid s.cur.uid _ hhere, if_pos rfl, hgrp]
  cases c with
  | ld => exact congrArg (·.ld + 1) hkept
  | st => exact congrArg (·.st + 1) hkept
  | cp => exact congrArg (·.cp + 1) hkept
  | tl => exact congrArg (·.tl + 1) hkept

/-- Effects in one lane after another: each comes in a state in which its own lane is untouched, and what it leaves behind stays. -/
theorem foldl_effects {Acts : List Nat → State → State → Prop} (hrefl : ∀ s, Acts [] s s)
    (htrans : ∀ ls ms s t r, Acts ls s t → Acts ms t r → Acts (ls ++ ms) s r) {act : State → Nat → State} {Ready Done : Nat → State → Prop}
    (hact : ∀ l t, Ready l t → Acts [l] t (act t l) ∧ Done l (act t l))
    (hready : ∀ l k t r, k ≠ l → Acts [l] t r → Ready k t → Ready k r)
    (hdone : ∀ l k t r, k ≠ l → Acts [l] t r → Done k t → Done k r)
    (ls : List Nat) (hn : ls.Nodup) (s : State) (hs : ∀ l ∈ ls, Ready l s) :
    Acts ls s (ls.foldl act s) ∧ (∀ l ∈ ls, Done l (ls.foldl act s)) ∧ ∀ k, k ∉ ls → Done k s → Done k (ls.foldl act s) := by
  induction ls generalizing s with
  | nil => exact ⟨hrefl s, fun l hl => absurd hl List.not_mem_nil, fun k _ h => h⟩
  | cons l ls ih =>
    obtain ⟨hl, hn⟩ := List.nodup_cons.1 hn
    obtain ⟨hstep, hd⟩ := hact l s (hs l (by simp))
    obtain ⟨h1, h2, h3⟩ := ih hn (act s l) (fun k hk => hready l k s _ (fun h => hl (h ▸ hk)) hstep (hs k (by simp [hk])))
    rw [List.foldl_cons]
    refine ⟨htrans [l] ls _ _ _ hstep h1, fun k hk => ?_, fun k hk hdk => ?_⟩
    · rcases List.mem_cons.1 hk with rfl | hk
      · exact h3 k hl hd
      · exact h2 k hk
    · rw [List.mem_cons, not_or] at hk
      exact h3 k hk.2 (hdone l k s _ hk.1 hstep hdk)

/-- An instruction of the memory kind in which every lane of the set goes on: where each lane's effect, made midway, changes nothing but that lane and
leaves behind what it should, so does the instruction. -/
theorem runAccess_effects {α : Type} {s : State} {os : List (Opnd × OTy)} {find : State → LaneIn → Find α} {ctr : Option Ctr} {cnt : LaneIn → α → Nat}
    {act : State → Nat → LaneIn → α → State} {Done : Nat → State → Prop} (hs : SetOk s) (hp : NoPoison s) (ho : plainOps os = true) (x : Nat → α)
    (hfind : ∀ l ∈ s.cur.lanes, find s (laneIn s os l) = .go (x l)) (hcnt : ctr ≠ none → ∀ l ∈ s.cur.lanes, cnt (laneIn s os l) (x l) = 1)
    (hact : ∀ l ∈ s.cur.lanes, ∀ t, Midway s os l t →
      ActsOn s.cur.uid [l] t (act t s.fresh (laneIn s os l) (x l)) ∧ Done l (act t s.fresh (laneIn s os l) (x l)))
    (hdone : ∀ l k t r, k ≠ l → ActsOn s.cur.uid [l] t r → Done k t → Done k r) :
    ActsOn s.cur.uid s.cur.lanes (accBegun s os ctr s.cur.lanes.length) (runAccess s os find ctr cnt act) ∧
      ∀ l ∈ s.cur.lanes, Done l (runAccess s os find ctr cnt act) := by
  rw [runAccess_go hp ho x hfind hcnt]
  obtain ⟨h1, h2, -⟩ := foldl_effects (ActsOn.refl s.cur.uid []) (fun _ _ _ _ _ h g => h.trans g)
    (Ready := fun l t => l ∈ s.cur.lanes ∧ Midway s os l t) (fun l t h => hact l h.1 t h.2)
    (fun l k t r hk hr h => ⟨h.1, h.2.actsOn hr (by simpa using hk)⟩) hdone s.cur.lanes hs.nodup (accBegun s os ctr s.cur.lanes.length)
    (fun l hl => ⟨hl, midway_accBegun hs os ctr _ hl⟩)
  exact ⟨h1, h2⟩

end Sys2Proof.Machine
end

section
/-! Loads: what leaves a result pending in every lane (R109, R123, R143). -/

-- one declaration after another, so that the text as a whole is checked within its memory
set_option Elab.async false

namespace Sys2Proof.Machine

/-! ### The writes of a pending result -/

theorem regWrites_eq (l n cnt x : Nat) : regWrites l n cnt x = (List.range cnt).map (fun k => ⟨l, n + k, BitVec.ofNat 32 (x / 2 ^ (32 * k))⟩) := by
  induction cnt generalizing n x with
  | zero => rfl
  | succ cnt ih =>
    rw [regWrites, ih, List.range_succ_eq_map, List.map_cons, List.map_map]
    congr 1
    · simp
    · refine List.map_congr_left (fun k _ => ?_)
      show (⟨l, n + 1 + k, _⟩ : RegWrite) = ⟨l, n + (k + 1), _⟩
      rw [Nat.div_div_eq_div_mul, ← pow_add, show 32 + 32 * k = 32 * (k + 1) from by ring, show n + 1 + k = n + (k + 1) from by ring]

theorem pending_writes {d : Dst} (hd : plainDst d = true) (l acc cnt x : Nat) : (pending l acc (dstTarget d cnt) x).writes = loadWrites l d cnt x := by
  cases d with
  | q n => cases hd
  | none => rfl
  | v n =>
    cases cnt with
    | zero => rfl
    | succ k => exact regWrites_eq ..
  | o n =>
    cases cnt with
    | zero => rfl
    | succ k => exact regWrites_eq ..

/-! ### A lane that passes -/

theorem setXlane_fmode (ln : Lane) (x : Bool) : (setXlane ln x).fmode = if x then ln.fmode ||| 0x4000#32 else ln.fmode := by cases x <;> rfl
theorem setXlane_rest (ln : Lane) (x : Bool) : { setXlane ln x with fmode := ln.fmode } = ln := by cases x <;> rfl
theorem setXlane_at (ln : Lane) (x : Bool) : (setXlane ln x).at_ = ln.at_ := by cases x <;> rfl
@[simp] theorem setXlane_fifo (ln : Lane) (x : Bool) : (setXlane ln x).fifo = ln.fifo := by cases x <;> rfl
@[simp] theorem setXlane_coreRelFence (ln : Lane) (x : Bool) : (setXlane ln x).coreRelFence = ln.coreRelFence := by cases x <;> rfl

theorem passed_of_lane {s t : State} {l : Nat} {x : Bool} {fs : List FEntry}
    (h : lane t s.cur.uid l = advance { setXlane (curLane s l) x with fifo := fs } s.cur.len) : Passed s t l x := by
  unfold Passed
  rw [h]
  refine ⟨congrArg (advancePos · s.cur.len) (setXlane_at ..), setXlane_fmode .., ?_⟩
  exact (congrArg (fun ln : Lane => { ln with at_ := (curLane s l).at_, fifo := (curLane s l).fifo, acqStep := (curLane s l).acqStep })
    (setXlane_rest (curLane s l) x) :)

/-! ### The rule for loads -/

/-- A lane after a load: it has passed, its result being pending. -/
def Loaded (s : State) (os : List (Opnd × OTy)) (d : Dst) (cnt : Nat) (v : Nat → Nat) (l : Nat) (t : State) : Prop :=
  lane t s.cur.uid l = advance (setXlane (curLane s l) (crosses s os l)) s.cur.len ∧
    ∃ id, id < t.fresh ∧ tGet? (grp t s.cur.uid).pend id = some (pending l s.fresh (dstTarget d cnt) (v l))

/-- Leaving a result and passing act on the lane alone, and leave it loaded. -/
theorem loaded_passLane {s t : State} {os : List (Opnd × OTy)} {d : Dst} {cnt l : Nat} {v : Nat → Nat} (ho : plainOps os = true) (h : Midway s os l t)
    (f : Nat) :
    ActsOn s.cur.uid [l] t (passLane (pendResult { t with free := f } l s.fresh (dstTarget d cnt) (v l)) os l) ∧
      Loaded s os d cnt v l (passLane (pendResult { t with free := f } l s.fresh (dstTarget d cnt) (v l)) os l) := by
  let r : State := pendResult { t with free := f } l s.fresh (dstTarget d cnt) (v l)
  have hr : ActsOn s.cur.uid [] t r :=
    (actsOn_fresh _ t t.fresh f (Nat.le_refl _)).trans_same (actsOn_pendResult (s := { t with free := f }) h.uid h.here l s.fresh (dstTarget d cnt) (v l))
  have hmid : Midway s os l r := h.actsOn hr List.not_mem_nil
  have hpass := passLane_plain ho r l
  rw [hmid.uid, hmid.len] at hpass
  show ActsOn _ _ t (passLane r os l) ∧ Loaded s os d cnt v l (passLane r os l)
  rw [hpass]
  refine ⟨(hr.mono (by simp)).trans_same (actsOn_modLane hmid.here l _), hmid.lane_modLane _, t.fresh, Nat.lt_succ_self _, ?_⟩
  have hput : grp r s.cur.uid = _ := grp_pendResult (s := { t with free := f }) h.uid h.here l s.fresh (dstTarget d cnt) (v l)
  rw [grp_modLane hmid.here, show (modLaneG (grp r s.cur.uid) l _).pend = (grp r s.cur.uid).pend from rfl, hput]
  exact tGet?_tPut_self ..

/-- A load in which every lane of the set goes on. -/
theorem loadsAll_of {α : Type} {s : State} {i : Instr} {os : List (Opnd × OTy)} {find : State → LaneIn → Find α}
    {act : State → Nat → LaneIn → α → State} {d : Dst} {cnt : Nat} {v : Nat → Nat} (hs : SetOk s) (hp : NoPoison s) (hne : ∃ l, l ∈ s.cur.lanes)
    (ho : plainOps os = true) (hd : plainDst d = true) (x : Nat → α) (hexec : exec i s = .next (runAccess s os find (some .ld) (fun _ _ => 1) act))
    (hfind : ∀ l ∈ s.cur.lanes, find s (laneIn s os l) = .go (x l))
    (hact : ∀ l ∈ s.cur.lanes, ∀ t, Midway s os l t →
      ∃ f, act t s.fresh (laneIn s os l) (x l) = passLane (pendResult { t with free := f } l s.fresh (dstTarget d cnt) (v l)) os l) :
    LoadsAll s i os d cnt v := by
  have hn : s.cur.lanes.length ≠ 0 := fun h => by
    obtain ⟨l, hl⟩ := hne
    rw [List.length_eq_zero_iff.1 h] at hl
    cases hl
  obtain ⟨hacts, hdone⟩ := runAccess_effects (Done := Loaded s os d cnt v) (ctr := some .ld) (cnt := fun _ _ => 1) (act := act) hs hp ho x hfind (fun _ _ _ => rfl)
    (fun l hl t ht => by
      obtain ⟨f, hf⟩ := hact l hl t ht
      rw [hf]
      exact loaded_passLane ho ht f)
    (fun l k t r hk hr ⟨h1, id, h2, h3⟩ => ⟨(hr.others k (by simpa using hk)).trans h1, id, h2.trans_le hr.fresh, (hr.pend id h2).trans h3⟩)
  refine ⟨_, hexec, hacts.ld.trans (counters_accBegun hs os .ld hn), ?_, fun l hl => ?_⟩
  · exact hacts.mem.trans (by rw [accBegun_some s os .ld hn]; rfl)
  · obtain ⟨hlane, id, -, hpend⟩ := hdone l hl
    refine ⟨passed_of_lane (fs := (curLane s l).fifo) ?_, ?_, id, _, hpend, pending_writes hd .., rfl⟩
    · rw [hlane, ← setXlane_fifo (curLane s l) (crosses s os l)]
    · rw [hlane]
      exact setXlane_fifo ..

end Sys2Proof.Machine
end

section
/-! Loads of the core-local arrays (R130, R131, R133, R134). -/

-- one declaration after another, so that the text as a whole is checked within its memory
set_option Elab.async false

namespace Sys2Proof.Machine

/-! ### Sizes -/

theorem sizes_of_mem {sz : Size} {n cnt : Nat} (h : (sz, n, cnt) ∈ [(Size.b, 1, 1), (Size.h, 2, 1), (Size.w, 4, 1), (Size.d, 8, 2), (Size.q, 16, 4)]) :
    sizeBytes sz = n ∧ sizeRegs sz = cnt := by
  simp only [List.mem_cons, Prod.mk.injEq, List.not_mem_nil, or_false] at h
  obtain ⟨rfl, rfl, rfl⟩ | ⟨rfl, rfl, rfl⟩ | ⟨rfl, rfl, rfl⟩ | ⟨rfl, rfl, rfl⟩ | ⟨rfl, rfl, rfl⟩ := h <;> exact ⟨rfl, rfl⟩

theorem sizeRegs_of_mem {sz : Size} {cnt : Nat} (h : (sz, cnt) ∈ [(Size.w, 1), (Size.d, 2), (Size.q, 4)]) : sizeRegs sz = cnt := by
  simp only [List.mem_cons, Prod.mk.injEq, List.not_mem_nil, or_false] at h
  obtain ⟨rfl, rfl⟩ | ⟨rfl, rfl⟩ | ⟨rfl, rfl⟩ := h <;> rfl

theorem sizeBytes_pos (sz : Size) : 0 < sizeBytes sz := by cases sz <;> decide

/-! ### Errors -/

/-- A byte of a run without an error has none. -/
theorem poisoned_one {ps : List (Nat × Nat)} {a n x : Nat} (h : poisoned ps a n = false) (ha : a ≤ x) (hx : x < a + n) : poisoned ps x 1 = false := by
  rw [poisoned, List.any_eq_false] at h ⊢
  intro p hp
  have hpn := h p hp
  simp only [overlaps, Bool.and_eq_true, decide_eq_true_eq] at hpn ⊢
  omega

theorem arrayReads_unpoisoned {ps : List (Nat × Nat)} {a n : Nat} (own : Nat → Bool) (h : poisoned ps a n = false) :
    (arrayReads own a n).any (fun x => poisoned ps x 1) = false := by
  rw [List.any_eq_false]
  intro x hx
  obtain ⟨i, hi, rfl⟩ : ∃ i, i < n ∧ a + i = x := by simpa [arrayReads] using (List.mem_filter.1 hx).1
  simp [poisoned_one h (Nat.le_add_right a i) (by omega)]

theorem foldl_meetArr_nil {s : State} (h : s.errors = []) (xs : List Nat) (p : State → Nat → ErrPlace) :
    xs.foldl (fun s a => meetArr s (p s a) 1) s = s := by
  induction xs with
  | nil => rfl
  | cons x xs ih => rw [List.foldl_cons, meetArr_nil h, ih]

/-! ### Checks -/

theorem findScratch_go {s : State} {l n a : Nat} {rd : Bool} (hal : a % n = 0) (hsp : a < 2 ^ 21) (ht : a / 4096 < (gangOf s s.cur.uid).tiles)
    (hp : rd = true → poisoned (gangOf s s.cur.uid).scratchPois a n = false) : findScratch rd n a s l = .go a := by
  have hrd : (rd && (arrayReads (scratchOwn (lane s s.cur.uid l).fifo) a n).any (fun x => poisoned (gangOf s s.cur.uid).scratchPois x 1)) = false := by
    cases rd with
    | false => rfl
    | true => rw [Bool.true_and, arrayReads_unpoisoned _ (hp rfl)]
  rw [findScratch, if_neg (not_not.2 hal), if_neg (by simp only [tileOk, hsp, ht]; decide), hrd, if_neg Bool.false_ne_true]

/-- An address lies in the part of the lane's own slice that its mode may use (R130, R290). -/
def PrivFits (p : Nat) (m : Mode) (a n : Nat) : Prop :=
  match m with
  | .u => 256 < p ∧ a + n ≤ p - 256
  | .s => 64 ≤ p ∧ a + n ≤ p - 64
  | .h => a < p

theorem findPriv_go {s : State} {l n a : Nat} {rd : Bool} (hn : 0 < n) (hal : a % n = 0) (hm : PrivFits (gangOf s s.cur.uid).privsz (curLane s l).mode a n)
    (hp : rd = true → poisoned (curLane s l).privPois a n = false) : findPriv rd n a s l = .go a := by
  have hrd : (rd && (arrayReads (fun x => (fifoPriv (lane s s.cur.uid l).fifo x).isSome) a n).any
      (fun x => poisoned (lane s s.cur.uid l).privPois x 1)) = false := by
    cases rd with
    | false => rfl
    | true => exact arrayReads_unpoisoned _ (hp rfl)
  unfold PrivFits at hm
  change (match (lane s s.cur.uid l).mode with | .u => _ | .s => _ | .h => _ : Prop) at hm
  rw [findPriv, if_neg (not_not.2 hal)]
  cases hmode : (lane s s.cur.uid l).mode with
  | u =>
    rw [hmode] at hm
    obtain ⟨h1, h2⟩ := hm
    rw [if_neg (by omega), if_neg (by omega), if_neg (by simp), hrd, if_neg Bool.false_ne_true]
  | s =>
    rw [hmode] at hm
    obtain ⟨h1, h2⟩ := hm
    rw [if_neg (by omega), if_neg (by simp), if_neg (by omega), hrd, if_neg Bool.false_ne_true]
  | h =>
    rw [hmode] at hm
    have hlt : a < (gangOf s s.cur.uid).privsz := hm
    rw [if_neg (by omega), if_neg (by simp), if_neg (by simp), hrd, if_neg Bool.false_ne_true]

theorem findAcc_go {s : State} {n row : Nat} {col : Int} (hal : col % n = 0) (hc : 0 ≤ col) (hle : col + n ≤ 256)
    (hrow : row < (gangOf s s.cur.uid).accrows) (hp : ∀ k, k < n → row * 256 + col.toNat + k ∉ (gangOf s s.cur.uid).accPois) :
    findAcc n row col s = .go (row * 256 + col.toNat) := by
  have hany : (gangOf s s.cur.uid).accPois.any (fun k => decide (row * 256 + col.toNat ≤ k) && decide (k < row * 256 + col.toNat + n)) = false := by
    rw [List.any_eq_false]
    intro k hk hin
    simp only [Bool.and_eq_true, decide_eq_true_eq] at hin
    exact hp (k - (row * 256 + col.toNat)) (by omega) (by rwa [Nat.add_sub_cancel' hin.1])
  rw [findAcc, if_neg (not_not.2 hal), if_neg (by omega)]
  exact if_neg (by rw [hany]; exact Bool.false_ne_true)

/-! ### What a thread without entries reads -/

theorem arrBytes_eq_map (m : SMap Byte) (a n : Nat) : arrBytes m a n = (List.range n).map (fun i => smGet 0 m (a + i)) := by
  induction n generalizing a with
  | zero => rfl
  | succ n ih =>
    rw [arrBytes, ih, List.range_succ_eq_map, List.map_cons, List.map_map, Nat.add_zero]
    refine congrArg _ (List.map_congr_left (fun i _ => ?_))
    rw [Function.comp_apply, Nat.succ_eq_add_one, Nat.add_comm i 1, Nat.add_assoc]

theorem privBytes_nil {ln : Lane} (h : ln.fifo = []) (a n : Nat) : privBytes ln a n = arrBytes ln.priv a n := by
  induction n generalizing a with
  | zero => rfl
  | succ n ih => rw [privBytes, arrBytes, ih, privByte, h]; rfl

/-- Where an engine's bytes go does not depend on the values that nothing fixes. -/
theorem flying_places (s t : State) (c : Cmd) (g : Nat) : (flying s c g).map Prod.fst = (flying t c g).map Prod.fst := by
  have hlen (r : State) (d : List Byte) (k : Nat) : (List.range 4096).length ≤ (condBytes r c d k).length := by
    simp only [condBytes, freeBytes, List.length_append, List.length_map, List.length_range]
    omega
  have htile (d : List Byte) (k : Nat) : (tileBytes s c d k).map Prod.fst = (tileBytes t c d k).map Prod.fst := by
    unfold tileBytes
    split
    · rw [List.map_map, List.map_map]
      show ((List.range 4096).zip _).map ((fun x => k * 4096 + x) ∘ Prod.fst) = ((List.range 4096).zip _).map ((fun x => k * 4096 + x) ∘ Prod.fst)
      rw [← List.map_map, ← List.map_map, List.map_fst_zip (hlen s d k), List.map_fst_zip (hlen t d k)]
    · rfl
  unfold flying
  split
  · split
    · rfl
    · split
      · rw [List.map_flatMap, List.map_flatMap]
        exact congrArg (List.flatMap · _) (funext fun k => htile _ k)
      · rfl
  · rfl

theorem findSome?_fst {α : Type} (xs : List (Nat × α)) (a : Nat) : (xs.findSome? (fun q => if q.1 = a then some q.2 else none)) = none ↔ a ∉ xs.map Prod.fst := by
  simp [List.findSome?_eq_none_iff]
  grind

theorem flyingByte_none {s t : State} (h : t.cmds = s.cmds) {g a : Nat} (hn : flyingByte s g a = none) : flyingByte t g a = none := by
  rw [flyingByte, findSome?_fst, List.map_flatMap] at hn ⊢
  rw [h]
  simpa only [flying_places t s] using hn

theorem scratchBytes_nil {s : State} {u l a n : Nat} (h : (lane s u l).fifo = []) (hf : ∀ k, k < n → flyingByte s (grp s u).gang (a + k) = none) :
    scratchBytes s u l a n = arrBytes (gangOf s u).scratch a n := by
  rw [arrBytes_eq_map, scratchBytes]
  refine List.map_congr_left (fun i hi => ?_)
  rw [h, arrayByte, hf i (List.mem_range.1 hi)]
  rfl

theorem foldr_words (f : Nat → Nat) (n : Nat) :
    (List.range n).foldr (fun i r => f i + 2 ^ 32 * r) 0 = ((List.range n).map (fun k => f k * 2 ^ (32 * k))).sum := by
  induction n generalizing f with
  | zero => rfl
  | succ n ih =>
    rw [List.range_succ_eq_map, List.foldr_cons, List.foldr_map, List.map_cons, List.map_map, List.sum_cons, ih (fun k => f (k + 1)),
      ← List.sum_map_mul_left]
    refine congrArg₂ _ (by simp) (congrArg List.sum (List.map_congr_left (fun k _ => ?_)))
    show 2 ^ 32 * (f (k + 1) * 2 ^ (32 * k)) = f (k + 1) * 2 ^ (32 * (k + 1))
    ring

end Sys2Proof.Machine
end

section
/-! Loads of scratch, a lane's own slice, accumulator and tag words, in every lane of the set (R130, R131, R133, R134, R225). -/

-- one declaration after another, so that the text as a whole is checked within its memory
set_option Elab.async false

namespace Sys2Proof.Machine

variable {s t : State} {os : List (Opnd × OTy)} {l : Nat}

theorem Midway.fifo_nil (h : Midway s os l t) (hf : (curLane s l).fifo = []) : (Machine.lane t s.cur.uid l).fifo = [] := by
  rw [h.lane, setXlane_fifo, hf]

theorem setXlane_priv (ln : Lane) (x : Bool) : (setXlane ln x).priv = ln.priv := by cases x <;> rfl

theorem loadsAll_lds {sz : Size} {sem : Sem} {d : Dst} {a : Fin 128} {ofs : BitVec 8} {b : Opnd} (hs : SetOk s) (hp : NoPoison s)
    (hne : ∃ l, l ∈ s.cur.lanes) (hd : plainDst d = true) (hb : plainSrc b.src = true) (he : s.errors = [])
    (hf : ∀ l ∈ s.cur.lanes, (curLane s l).fifo = []) (ea : Nat → Nat)
    (hea : ea = fun l => eaNear (sizeBytes sz) (opnd s (.int 32) (op (.v a)) l) (opnd s (.int 32) b l) ofs)
    (hok : ∀ l ∈ s.cur.lanes, ea l % sizeBytes sz = 0 ∧ ea l < 2 ^ 21 ∧ ea l / 4096 < (gangOf s s.cur.uid).tiles ∧
      poisoned (gangOf s s.cur.uid).scratchPois (ea l) (sizeBytes sz) = false ∧
      ∀ k, k < sizeBytes sz → flyingByte s (grp s s.cur.uid).gang (ea l + k) = none) :
    LoadsAll s (.lds sz sem d a ofs b) [(op (.v a), .int 32), (b, .int 32)] d (sizeRegs sz)
      (fun l => leNat (arrBytes (gangOf s s.cur.uid).scratch (ea l) (sizeBytes sz))) := by
  have ho : plainOps [(op (.v a), .int 32), (b, OTy.int 32)] = true := plainOps_two rfl hb
  refine loadsAll_of hs hp hne ho hd ea rfl (fun l hl => ?_) (fun l hl t ht => ⟨t.free + 1, ?_⟩)
  · obtain ⟨hal, hsp, htl, hpo, -⟩ := hok l hl
    rw [hea] at hal hsp htl hpo ⊢
    show findScratch true _ (eaLocal _ _ _ _) s l = _
    rw [eaLocal_eq]
    exact findScratch_go hal hsp htl (fun _ => hpo)
  · obtain ⟨-, -, -, -, hfly⟩ := hok l hl
    have hfly' (k : Nat) (hk : k < sizeBytes sz) : flyingByte t (grp t s.cur.uid).gang (ea l + k) = none := by
      rw [ht.gang]
      exact flyingByte_none ht.cmds (hfly k hk)
    have hbytes := scratchBytes_nil (ht.fifo_nil (hf l hl)) hfly'
    dsimp only
    rw [foldl_meetArr_nil (ht.errors.trans he), noteAcquire_core, ht.uid, show (laneIn s _ l).lane = l from rfl, hbytes, ht.gangOf]
    rfl

theorem loadsAll_ldp {sz : Size} {d : Dst} {a : Fin 128} {ofs : BitVec 8} {b : Opnd} (hs : SetOk s) (hp : NoPoison s)
    (hne : ∃ l, l ∈ s.cur.lanes) (hd : plainDst d = true) (hb : plainSrc b.src = true) (he : s.errors = [])
    (hf : ∀ l ∈ s.cur.lanes, (curLane s l).fifo = []) (ea : Nat → Nat)
    (hea : ea = fun l => eaNear (sizeBytes sz) (opnd s (.int 32) (op (.v a)) l) (opnd s (.int 32) b l) ofs)
    (hok : ∀ l ∈ s.cur.lanes, ea l % sizeBytes sz = 0 ∧ poisoned (curLane s l).privPois (ea l) (sizeBytes sz) = false ∧
      PrivFits (gangOf s s.cur.uid).privsz (curLane s l).mode (ea l) (sizeBytes sz)) :
    LoadsAll s (.ldp sz d a ofs b) [(op (.v a), .int 32), (b, .int 32)] d (sizeRegs sz)
      (fun l => leNat (arrBytes (curLane s l).priv (ea l) (sizeBytes sz))) := by
  have ho : plainOps [(op (.v a), .int 32), (b, OTy.int 32)] = true := plainOps_two rfl hb
  refine loadsAll_of hs hp hne ho hd ea rfl (fun l hl => ?_) (fun l hl t ht => ⟨t.free, ?_⟩)
  · obtain ⟨hal, hpo, hfit⟩ := hok l hl
    rw [hea] at hal hpo hfit ⊢
    show findPriv true _ (eaLocal _ _ _ _) s l = _
    rw [eaLocal_eq]
    exact findPriv_go (sizeBytes_pos sz) hal hfit (fun _ => hpo)
  · dsimp only
    rw [foldl_meetArr_nil (ht.errors.trans he), ht.uid, show (laneIn s _ l).lane = l from rfl, privBytes_nil (ht.fifo_nil (hf l hl)), ht.lane,
      setXlane_priv]
    rfl

theorem loadsAll_ldacc {sz : Size} {d : Dst} {a : Fin 128} {ofs : BitVec 8} {b : Opnd} (hs : SetOk s) (hp : NoPoison s)
    (hne : ∃ l, l ∈ s.cur.lanes) (hd : plainDst d = true) (hb : plainSrc b.src = true) (he : s.errors = []) (A : Nat → Nat) (col : Nat → Int)
    (hA : A = fun l => opnd s (.int 32) (op (.v a)) l) (hcol : col = fun l => (opnd s (.int 32) b l : Int) + ofs.toInt * sizeRegs sz)
    (hok : ∀ l ∈ s.cur.lanes, 0 ≤ col l ∧ col l % sizeRegs sz = 0 ∧ col l + sizeRegs sz ≤ 256 ∧ A l < (gangOf s s.cur.uid).accrows ∧
      ∀ k, k < sizeRegs sz → A l * 256 + (col l).toNat + k ∉ (gangOf s s.cur.uid).accPois ∧
        flyingWord s (grp s s.cur.uid).gang (A l * 256 + (col l).toNat + k) = none) :
    LoadsAll s (.ldacc sz d a ofs b) [(op (.v a), .int 32), (b, .int 32)] d (sizeRegs sz) (fun l =>
      ((List.range (sizeRegs sz)).map (fun k =>
        (smGet (0 : W32) (gangOf s s.cur.uid).acc (A l * 256 + (col l).toNat + k)).toNat * 2 ^ (32 * k))).sum) := by
  have ho : plainOps [(op (.v a), .int 32), (b, OTy.int 32)] = true := plainOps_two rfl hb
  refine loadsAll_of hs hp hne ho hd (fun l => A l * 256 + (col l).toNat) rfl (fun l hl => ?_) (fun l hl t ht => ⟨t.free + 1, ?_⟩)
  · obtain ⟨hc, hal, hle, hrow, hw⟩ := hok l hl
    have hgo := findAcc_go (s := s) hal hc hle hrow (fun k hk => (hw k hk).1)
    rw [hA, hcol] at hgo ⊢
    show findAcc _ _ _ s = _
    rw [sext8_eq]
    exact hgo
  · obtain ⟨-, -, -, -, hw⟩ := hok l hl
    have hword (k : Nat) (hk : k ∈ List.range (sizeRegs sz)) : flyingWord t (grp t s.cur.uid).gang (A l * 256 + (col l).toNat + k) = none := by
      rw [ht.gang, flyingWord, ht.cmds]
      exact (hw k (List.mem_range.1 hk)).2
    dsimp only
    rw [meetArr_nil (ht.errors.trans he), ht.uid, ← foldr_words]
    congr 2
    exact List.foldr_ext _ _ _ (fun k hk r => by rw [hword k hk, ht.gangOf])

theorem loadsAll_ldt {d : Dst} {b : Opnd} (hs : SetOk s) (hp : NoPoison s) (hne : ∃ l, l ∈ s.cur.lanes) (hd : plainDst d = true)
    (hb : plainSrc b.src = true) (hf : ∀ l ∈ s.cur.lanes, (curLane s l).fifo = []) (B : Nat → Nat) (hB : B = fun l => opnd s (.int 32) b l)
    (hok : ∀ l ∈ s.cur.lanes, B l < 2 ^ 21 ∧ B l / 4096 < (gangOf s s.cur.uid).tiles) :
    LoadsAll s (.ldt d b) [(b, .int 32)] d 1 (fun l => (smGet 0 (gangOf s s.cur.uid).tags (B l / 4096)).toNat) := by
  have ho : plainOps [(b, OTy.int 32)] = true := plainOps_one hb
  refine loadsAll_of hs hp hne ho hd (fun l => B l / 4096) rfl (fun l hl => ?_) (fun l hl t ht => ⟨t.free, ?_⟩)
  · obtain ⟨hsp, htl⟩ := hok l hl
    rw [hB] at hsp htl ⊢
    exact if_neg (by simp only [tileOk, show (laneIn s [(b, .int 32)] l).x 0 = opnd s (.int 32) b l from rfl, hsp, htl]; decide)
  · dsimp only
    rw [ht.uid, show (laneIn s _ l).lane = l from rfl, ht.fifo_nil (hf l hl), ht.gangOf]
    rfl

end Sys2Proof.Machine

open Sys2Proof Sys2Proof.Machine

/-- Settles O29: each load runs over the set with its checks met in every lane, and a thread without entries reads the arrays as they are. -/
theorem localLoads : Obligations.LocalLoads := by
  intro s sz d a ofs b hs hp hne hd hb he hf
  refine ⟨fun n cnt sem hm => ?_, fun cnt hm hok => ?_, fun hok => loadsAll_ldt hs hp hne hd hb hf _ rfl hok⟩
  · obtain ⟨rfl, rfl⟩ := sizes_of_mem hm
    exact ⟨loadsAll_lds hs hp hne hd hb he hf _ rfl, loadsAll_ldp hs hp hne hd hb he hf _ rfl⟩
  · obtain rfl := sizeRegs_of_mem hm
    exact loadsAll_ldacc hs hp hne hd hb he _ _ rfl rfl hok
end

section
/-! Stores: what enters an entry into the FIFO of every lane (R123, R216), and the core-local arrays as a thread reads its entries back (R225). -/

-- one declaration after another, so that the text as a whole is checked within its memory
set_option Elab.async false

namespace Sys2Proof.Machine

variable {s t : State} {os : List (Opnd × OTy)} {l : Nat}

/-! ### The rule for stores -/

/-- A lane after entry e, as number n, and its instruction passed. -/
def entered (ln : Lane) (e : FEntry) (n len : Nat) : Lane := advance (withEntry e n ln) len

/-- Entering an entry and passing act on the lane alone. -/
theorem pushEntry_passLane (ho : plainOps os = true) (h : Midway s os l t) (e : FEntry) (hu : e.uid = s.cur.uid) (hl : e.lane = l) :
    ActsOn s.cur.uid [l] t (passLane (pushEntry t e) os l) ∧
      lane (passLane (pushEntry t e) os l) s.cur.uid l = entered (setXlane (curLane s l) (crosses s os l)) e t.fresh s.cur.len := by
  have hr : ActsOn s.cur.uid [l] t (pushEntry t e) := by
    have hpush := actsOn_pushEntry (s := t) (e := e) (by rw [hu]; exact h.here)
    rwa [hu, hl] at hpush
  have hb : l < (grp (pushEntry t e) s.cur.uid).lanes.length := by rw [hr.length]; exact h.bound
  have hg : (tGet? (pushEntry t e).groups s.cur.uid).isSome = true := hr.here.trans h.here
  have hpass := passLane_plain ho (pushEntry t e) l
  rw [hr.cur, h.uid, h.len] at hpass
  rw [hpass]
  refine ⟨hr.trans_same (actsOn_modLane hg l _), ?_⟩
  rw [lane_modLane _ _ _ _ _ hg hb, if_pos rfl, pushEntry_eq, hu, hl]
  exact congrArg (advance · s.cur.len) (Midway.lane_modLane (t := { t with fresh := t.fresh + 1 })
    (h.actsOn (actsOn_fresh s.cur.uid t (t.fresh + 1) t.free (Nat.le_succ _)) List.not_mem_nil) (withEntry e t.fresh))

/-- A store in which every lane of the set goes on: what it leaves in each lane. -/
theorem stores_of {α : Type} {i : Instr} {find : State → LaneIn → Find α} {act : State → Nat → LaneIn → α → State} {P : Nat → Lane → Prop}
    (hs : SetOk s) (hp : NoPoison s) (hne : ∃ l, l ∈ s.cur.lanes) (ho : plainOps os = true) (x : Nat → α) {cnt : LaneIn → α → Nat}
    (hexec : exec i s = .next (runAccess s os find (some .st) cnt act)) (hfind : ∀ l ∈ s.cur.lanes, find s (laneIn s os l) = .go (x l))
    (hcnt : ∀ l ∈ s.cur.lanes, cnt (laneIn s os l) (x l) = 1)
    (hact : ∀ l ∈ s.cur.lanes, ∀ t, Midway s os l t →
      ActsOn s.cur.uid [l] t (act t s.fresh (laneIn s os l) (x l)) ∧ P l (lane (act t s.fresh (laneIn s os l) (x l)) s.cur.uid l)) :
    ∃ t, exec i s = .next t ∧ (grp t s.cur.uid).st = (grp s s.cur.uid).st + 1 ∧ t.mem = s.mem ∧ ∀ l ∈ s.cur.lanes, P l (lane t s.cur.uid l) := by
  have hn : s.cur.lanes.length ≠ 0 := fun h => by
    obtain ⟨l, hl⟩ := hne
    rw [List.length_eq_zero_iff.1 h] at hl
    cases hl
  obtain ⟨hacts, hdone⟩ := runAccess_effects (Done := fun l t => P l (lane t s.cur.uid l)) (ctr := some .st) (act := act) hs hp ho x hfind
    (fun _ => hcnt) hact (fun l k t r hk hr h => by rwa [hr.others k (by simpa using hk)])
  exact ⟨_, hexec, hacts.st.trans (counters_accBegun hs os .st hn), hacts.mem.trans (by rw [accBegun_some s os .st hn]; rfl), hdone⟩

theorem setXlane_entered (ln : Lane) (x : Bool) (e : FEntry) (n len : Nat) :
    entered (setXlane ln x) e n len = advance { setXlane ln x with fifo := ln.fifo ++ [{ e with id := n }] } len := by
  rw [entered, withEntry, setXlane_fifo]

/-- A store of one entry a lane. -/
theorem storesAll_of {α : Type} {i : Instr} {find : State → LaneIn → Find α} {act : State → Nat → LaneIn → α → State} (e : Nat → FEntry)
    (hs : SetOk s) (hp : NoPoison s) (hne : ∃ l, l ∈ s.cur.lanes) (ho : plainOps os = true) (x : Nat → α)
    (hexec : exec i s = .next (runAccess s os find (some .st) (fun _ _ => 1) act)) (hfind : ∀ l ∈ s.cur.lanes, find s (laneIn s os l) = .go (x l))
    (he : ∀ l, (e l).id = 0 ∧ (e l).uid = s.cur.uid ∧ (e l).lane = l)
    (hact : ∀ l ∈ s.cur.lanes, ∀ t, Midway s os l t → act t s.fresh (laneIn s os l) (x l) = passLane (pushEntry t (e l)) os l) :
    StoresAll s i os (fun l => [e l]) ∧
      ∀ t, exec i s = .next t → ∀ l ∈ s.cur.lanes, ∃ n, lane t s.cur.uid l = entered (setXlane (curLane s l) (crosses s os l)) (e l) n s.cur.len := by
  obtain ⟨t, ht, hst, hmem, hlane⟩ := stores_of (act := act) (cnt := fun _ _ => 1)
    (P := fun l ln => ∃ n, ln = entered (setXlane (curLane s l) (crosses s os l)) (e l) n s.cur.len) hs hp hne ho x hexec hfind (fun _ _ => rfl)
    (fun l hl r hr => by
      rw [hact l hl r hr]
      obtain ⟨h1, h2⟩ := pushEntry_passLane ho hr (e l) (he l).2.1 (he l).2.2
      exact ⟨h1, r.fresh, h2⟩)
  refine ⟨⟨t, ht, hst, hmem, fun l hl => ?_⟩, fun r hr l hl => ?_⟩
  · obtain ⟨n, hn⟩ := hlane l hl
    rw [setXlane_entered] at hn
    refine ⟨passed_of_lane hn, [{ e l with id := n }], by rw [hn]; rfl, ?_⟩
    rw [List.map_cons, List.map_nil]
    exact congrArg (fun k => [{ e l with id := k }]) (he l).1.symm
  · obtain rfl := Host.Outcome.next.inj (ht.symm.trans hr)
    exact hlane l hl

/-! ### Entries of core-local stores -/

theorem localEntry_eq (h : Midway s os l t) (act : Act) (a n : Nat) (sem : Sem) : localEntry t l s.fresh act a n sem = localFor s l act a a n sem := by
  simp only [localEntry, newEntry, h.ctxOf, h.launchOf, h.lane, setXlane_coreRelFence, h.cur]
  rfl

/-! ### Reading an entry back -/

theorem map_nth_range (bs : List Byte) : (List.range bs.length).map (fun i => nth 0 bs i) = bs := by
  refine List.ext_getElem (by simp) (fun i h1 h2 => ?_)
  rw [List.getElem_map, List.getElem_range, nth_eq_getD, List.getD_eq_getElem _ _ h2]

theorem scratchBytes_entered {u a : Nat} {fs : List FEntry} {e : FEntry} {bs : List Byte} (h : (lane s u l).fifo = fs ++ [e]) (hact : e.act = .scratch bs)
    (hpa : e.pa = a) : scratchBytes s u l a bs.length = bs := by
  conv_rhs => rw [← map_nth_range bs]
  refine List.map_congr_left (fun i hi => ?_)
  rw [h, scratchByte, List.foldl_append, List.foldl_cons, List.foldl_nil, hact, hpa]
  show (if a ≤ a + i ∧ a + i < a + bs.length then nth 0 bs (a + i - a) else _) = _
  rw [if_pos ⟨Nat.le_add_right .., by have := List.mem_range.1 hi; omega⟩, Nat.add_sub_cancel_left]

theorem privBytes_eq_map (ln : Lane) (a n : Nat) : privBytes ln a n = (List.range n).map (fun i => privByte ln (a + i)) := by
  induction n generalizing a with
  | zero => rfl
  | succ n ih =>
    rw [privBytes, ih, List.range_succ_eq_map, List.map_cons, List.map_map, Nat.add_zero]
    refine congrArg _ (List.map_congr_left (fun i _ => ?_))
    rw [Function.comp_apply, Nat.succ_eq_add_one, Nat.add_comm i 1, Nat.add_assoc]

theorem privBytes_entered {a : Nat} {ln : Lane} {fs : List FEntry} {e : FEntry} {bs : List Byte} (h : ln.fifo = fs ++ [e]) (hact : e.act = .priv bs)
    (hpa : e.pa = a) : privBytes ln a bs.length = bs := by
  rw [privBytes_eq_map]
  conv_rhs => rw [← map_nth_range bs]
  refine List.map_congr_left (fun i hi => ?_)
  rw [privByte, h, fifoPriv, List.foldl_append, List.foldl_cons, List.foldl_nil, hact, hpa]
  show (if a ≤ a + i ∧ a + i < a + bs.length then some (nth 0 bs (a + i - a)) else _).getD _ = _
  rw [if_pos ⟨Nat.le_add_right .., by have := List.mem_range.1 hi; omega⟩, Nat.add_sub_cancel_left, Option.getD_some]

theorem tagRead_entered {fs : List FEntry} {e : FEntry} {w : W32} {tile : Nat} (m : SMap W32) (hact : e.act = .tag w) (hpa : e.pa = tile) :
    tagRead (fs ++ [e]) m tile = w := by
  rw [tagRead, List.foldl_append, List.foldl_cons, List.foldl_nil, hact]
  exact if_pos hpa

/-! ### Stores to the core-local arrays -/

theorem storesAll_sts {sz : Size} {sem : Sem} {x : Src} {a : Fin 128} {ofs : BitVec 8} {b : Opnd} (hs : SetOk s) (hp : NoPoison s)
    (hne : ∃ l, l ∈ s.cur.lanes) (hx : plainSrc x = true) (hb : plainSrc b.src = true) (ea X : Nat → Nat)
    (hea : ea = fun l => eaNear (sizeBytes sz) (opnd s (.int 32) (op (.v a)) l) (opnd s (.int 32) b l) ofs)
    (hX : X = fun l => opnd s (sizeOTy sz) (op x) l)
    (hok : ∀ l ∈ s.cur.lanes, ea l % sizeBytes sz = 0 ∧ ea l < 2 ^ 21 ∧ ea l / 4096 < (gangOf s s.cur.uid).tiles) :
    StoresAll s (.sts sz sem x a ofs b) [(op x, sizeOTy sz), (op (.v a), .int 32), (b, .int 32)]
      (fun l => [localFor s l (.scratch (leBytes (sizeBytes sz) (X l))) (ea l) (ea l) (sizeBytes sz) sem]) ∧
      ∀ t, exec (.sts sz sem x a ofs b) s = .next t → ∀ l ∈ s.cur.lanes,
        scratchBytes t s.cur.uid l (ea l) (sizeBytes sz) = leBytes (sizeBytes sz) (X l) := by
  have ho : plainOps [(op x, sizeOTy sz), (op (.v a), .int 32), (b, OTy.int 32)] = true := plainOps_three hx rfl hb
  obtain ⟨hall, hlane⟩ := storesAll_of (fun l => localFor s l (.scratch (leBytes (sizeBytes sz) (X l))) (ea l) (ea l) (sizeBytes sz) sem) hs hp hne ho ea
    (show exec (.sts sz sem x a ofs b) s = _ from rfl) (fun l hl => by
      obtain ⟨hal, hsp, htl⟩ := hok l hl
      rw [hea] at hal hsp htl ⊢
      show findScratch false _ (eaLocal _ _ _ _) s l = _
      rw [eaLocal_eq]
      exact findScratch_go hal hsp htl (fun h => by cases h))
    (fun _ => ⟨rfl, rfl, rfl⟩) (fun l hl t ht => by
      rw [show (laneIn s _ l).lane = l from rfl, localEntry_eq ht, hX]
      rfl)
  refine ⟨hall, fun t ht l hl => ?_⟩
  obtain ⟨n, hn⟩ := hlane t ht l hl
  have hback := scratchBytes_entered (congrArg Lane.fifo hn : _) (rfl : _ = Act.scratch (leBytes (sizeBytes sz) (X l))) (rfl : _ = ea l)
  rwa [length_leBytes] at hback

theorem storesAll_stp {sz : Size} {x : Src} {a : Fin 128} {ofs : BitVec 8} {b : Opnd} (hs : SetOk s) (hp : NoPoison s)
    (hne : ∃ l, l ∈ s.cur.lanes) (hx : plainSrc x = true) (hb : plainSrc b.src = true) (ea X : Nat → Nat)
    (hea : ea = fun l => eaNear (sizeBytes sz) (opnd s (.int 32) (op (.v a)) l) (opnd s (.int 32) b l) ofs)
    (hX : X = fun l => opnd s (sizeOTy sz) (op x) l)
    (hok : ∀ l ∈ s.cur.lanes, ea l % sizeBytes sz = 0 ∧ PrivFits (gangOf s s.cur.uid).privsz (curLane s l).mode (ea l) (sizeBytes sz)) :
    StoresAll s (.stp sz x a ofs b) [(op x, sizeOTy sz), (op (.v a), .int 32), (b, .int 32)]
      (fun l => [localFor s l (.priv (leBytes (sizeBytes sz) (X l))) (ea l) (ea l) (sizeBytes sz) .plain]) ∧
      ∀ t, exec (.stp sz x a ofs b) s = .next t → ∀ l ∈ s.cur.lanes,
        privBytes (lane t s.cur.uid l) (ea l) (sizeBytes sz) = leBytes (sizeBytes sz) (X l) := by
  have ho : plainOps [(op x, sizeOTy sz), (op (.v a), .int 32), (b, OTy.int 32)] = true := plainOps_three hx rfl hb
  obtain ⟨hall, hlane⟩ := storesAll_of (fun l => localFor s l (.priv (leBytes (sizeBytes sz) (X l))) (ea l) (ea l) (sizeBytes sz) .plain) hs hp hne ho ea
    (show exec (.stp sz x a ofs b) s = _ from rfl) (fun l hl => by
      obtain ⟨hal, hfit⟩ := hok l hl
      rw [hea] at hal hfit ⊢
      show findPriv false _ (eaLocal _ _ _ _) s l = _
      rw [eaLocal_eq]
      exact findPriv_go (sizeBytes_pos sz) hal hfit (fun h => by cases h))
    (fun _ => ⟨rfl, rfl, rfl⟩) (fun l hl t ht => by
      rw [show (laneIn s _ l).lane = l from rfl, localEntry_eq ht, hX]
      rfl)
  refine ⟨hall, fun t ht l hl => ?_⟩
  obtain ⟨n, hn⟩ := hlane t ht l hl
  have hback := privBytes_entered (congrArg Lane.fifo hn : _) (rfl : _ = Act.priv (leBytes (sizeBytes sz) (X l))) (rfl : _ = ea l)
  rwa [length_leBytes] at hback

/-- A field of the low word of a number. -/
theorem extractLsb'_ofNat32 (x lo w : Nat) (h : lo + w ≤ 32) : ((BitVec.ofNat 32 x).extractLsb' lo w).toNat = x / 2 ^ lo % 2 ^ w := by
  rw [BitVec.extractLsb'_toNat, BitVec.toNat_ofNat, Nat.shiftRight_eq_div_pow, ← Nat.mod_mul_right_div_self, ← Nat.mod_mul_right_div_self,
    Nat.mod_mod_of_dvd _ (by rw [← pow_add]; exact pow_dvd_pow 2 h)]

theorem storesAll_ttag {x : Src} {b : Opnd} (hs : SetOk s) (hp : NoPoison s) (hne : ∃ l, l ∈ s.cur.lanes) (hx : plainSrc x = true)
    (hb : plainSrc b.src = true) (B X : Nat → Nat) (hB : B = fun l => opnd s (.int 32) b l) (hX : X = fun l => opnd s (.int 32) (op x) l)
    (hok : ∀ l ∈ s.cur.lanes, B l < 2 ^ 21 ∧ B l / 4096 < (gangOf s s.cur.uid).tiles ∧ (BitVec.ofNat 32 (X l)).extractLsb' 17 15 = 0 ∧
      ((BitVec.ofNat 32 (X l)).extractLsb' 13 3).toNat < 5 ∧ ((BitVec.ofNat 32 (X l)).extractLsb' 10 3).toNat < 5) :
    StoresAll s (.ttag x b) [(op x, .int 32), (b, .int 32)]
      (fun l => [localFor s l (.tag (BitVec.ofNat 32 (X l))) (B l / 4096) (B l / 4096) 1 .plain]) ∧
      ∀ t, exec (.ttag x b) s = .next t → ∀ l ∈ s.cur.lanes,
        tagRead (lane t s.cur.uid l).fifo (gangOf t s.cur.uid).tags (B l / 4096) = BitVec.ofNat 32 (X l) := by
  have ho : plainOps [(op x, .int 32), (b, OTy.int 32)] = true := plainOps_two hx hb
  obtain ⟨hall, hlane⟩ := storesAll_of (fun l => localFor s l (.tag (BitVec.ofNat 32 (X l))) (B l / 4096) (B l / 4096) 1 .plain) hs hp hne ho
    (fun l => B l / 4096) (show exec (.ttag x b) s = _ from rfl) (fun l hl => by
      obtain ⟨hsp, htl, h17, h13, h10⟩ := hok l hl
      have h17' := (extractLsb'_ofNat32 (X l) 17 15 (by decide)).symm.trans (congrArg BitVec.toNat h17)
      rw [extractLsb'_ofNat32 _ _ _ (by decide)] at h13 h10
      rw [hB] at hsp htl ⊢
      rw [hX] at h17' h13 h10
      show (if (!tileOk (gangOf s s.cur.uid) (opnd s (.int 32) b l)) = true then _ else _) = _
      rw [if_neg (by simp only [tileOk, hsp, htl]; decide)]
      exact if_neg (by
        rintro (h | h | h)
        · exact h h17'
        · exact absurd h13 (Nat.not_lt.2 h)
        · exact absurd h10 (Nat.not_lt.2 h)))
    (fun _ => ⟨rfl, rfl, rfl⟩) (fun l hl t ht => by
      rw [show (laneIn s _ l).lane = l from rfl, localEntry_eq ht, hX]
      rfl)
  refine ⟨hall, fun t ht l hl => ?_⟩
  obtain ⟨n, hn⟩ := hlane t ht l hl
  rw [hn]
  exact tagRead_entered _ rfl rfl

end Sys2Proof.Machine

open Sys2Proof Sys2Proof.Machine

/-- Settles O30: each store enters one entry a lane at the tail of its FIFO, where the newest entry that covers a byte gives it. -/
theorem localStores : Obligations.LocalStores := by
  intro s sz x a ofs b hs hp hne hx hb
  refine ⟨fun n sem hm => ?_, storesAll_ttag hs hp hne hx hb _ _ rfl rfl⟩
  obtain rfl : sizeBytes sz = n := by
    simp only [List.mem_cons, Prod.mk.injEq, List.not_mem_nil, or_false] at hm
    obtain ⟨rfl, rfl⟩ | ⟨rfl, rfl⟩ | ⟨rfl, rfl⟩ | ⟨rfl, rfl⟩ | ⟨rfl, rfl⟩ := hm <;> rfl
  exact ⟨storesAll_sts hs hp hne hx hb _ _ rfl rfl, storesAll_stp hs hp hne hx hb _ _ rfl rfl⟩
end

section
/-! What an owner step writes, and what follows it in the lane of its entry (R125, R136, R224). -/

-- one declaration after another, so that the text as a whole is checked within its memory
set_option Elab.async false

namespace Sys2Proof.Machine

/-! ### Numbers as little-endian bytes -/

theorem rdNat_lt (s : State) (k n : Nat) : rdNat s k n < 256 ^ n := by
  have h := leNat_lt (rdBytes s k n)
  rwa [rdBytes_eq_map, List.length_map, List.length_range, ← rdBytes_eq_map] at h

theorem rdNat_congr {s t : State} {k n : Nat} (h : ∀ j, k ≤ j → j < k + n → rdByte t j = rdByte s j) : rdNat t k n = rdNat s k n := by
  rw [rdNat, rdNat, rdBytes_congr h]

/-! ### Writes at an owner (R338, R339, R351) -/

section Write

variable {s : State} (h : NoSnap s) (k : Nat) (c : RClass) (bs : List Byte)

include h

/-- Without a launch that takes snapshots nothing is copied. -/
theorem copyOnWrite_noSnap (n : Nat) : copyOnWrite s k n = s := by
  have hnone : s.launches.filter (fun p => p.2.snapArmed) = [] := List.filter_eq_nil_iff.2 (fun p hp => by rw [h p hp]; exact Bool.false_ne_true)
  rw [copyOnWrite, hnone]
  exact if_pos (.inr rfl)

theorem rdByte_ownerWrite (j : Nat) : rdByte (ownerWrite s k c bs) j = if k ≤ j ∧ j < k + bs.length then nth 0 bs (j - k) else rdByte s j := by
  rw [← rdByte_wrBytes, ownerWrite, copyOnWrite_noSnap h]
  rfl

theorem rdByte_ownerWrite_other {j : Nat} (hj : j < k ∨ k + bs.length ≤ j) : rdByte (ownerWrite s k c bs) j = rdByte s j := by
  rw [rdByte_ownerWrite h, if_neg (by omega)]

theorem rdNat_ownerWrite (x n : Nat) : rdNat (ownerWrite s k c (leBytes n x)) k n = x % 256 ^ n := by
  have hbytes := rdBytes_wrBytes s k (leBytes n x)
  rw [length_leBytes] at hbytes
  have hcongr : rdBytes (ownerWrite s k c (leBytes n x)) k n = rdBytes (wrBytes s k (leBytes n x)) k n :=
    rdBytes_congr (fun j _ _ => by rw [rdByte_ownerWrite h, rdByte_wrBytes])
  rw [rdNat, hcongr, hbytes, leNat_leBytes]

theorem ownerWrite_rest : { ownerWrite s k c bs with mem := s.mem, poison := s.poison, byteClass := s.byteClass, errors := s.errors } = s := by
  rw [ownerWrite, copyOnWrite_noSnap h]
  rfl

theorem ownerWrite_groups : (ownerWrite s k c bs).groups = s.groups := (congrArg State.groups (ownerWrite_rest h k c bs) :)

theorem ownerWrite_launches : (ownerWrite s k c bs).launches = s.launches := (congrArg State.launches (ownerWrite_rest h k c bs) :)

theorem ownerWrite_noSnap : NoSnap (ownerWrite s k c bs) := by
  rw [NoSnap, ownerWrite_launches h]
  exact h

end Write

/-! ### After the owner step -/

/-- From s to t, an entry of lane l of group u was counted and noted: nothing else has changed. -/
structure Settles (u l : Nat) (s t : State) : Prop where
  rest : { t with groups := s.groups, mstep := s.mstep } = s
  here : (tGet? t.groups u).isSome = (tGet? s.groups u).isSome
  pend : (grp t u).pend = (grp s u).pend
  gang : (grp t u).gang = (grp s u).gang
  length : (grp t u).lanes.length = (grp s u).lanes.length
  lane : { lane t u l with acqStep := (lane s u l).acqStep, held := (lane s u l).held, readyAt := (lane s u l).readyAt } = lane s u l

namespace Settles

variable {u l : Nat} {s t r : State}

theorem refl (u l : Nat) (s : State) : Settles u l s s := ⟨rfl, rfl, rfl, rfl, rfl, rfl⟩

theorem trans (h : Settles u l s t) (g : Settles u l t r) : Settles u l s r where
  rest := (congrArg (fun x : State => { x with groups := s.groups, mstep := s.mstep }) g.rest).trans h.rest
  here := g.here.trans h.here
  pend := g.pend.trans h.pend
  gang := g.gang.trans h.gang
  length := g.length.trans h.length
  lane := (congrArg (fun y : Lane =>
    { y with acqStep := (Machine.lane s u l).acqStep, held := (Machine.lane s u l).held, readyAt := (Machine.lane s u l).readyAt }) g.lane).trans h.lane

theorem mem (h : Settles u l s t) : t.mem = s.mem := (congrArg State.mem h.rest :)
theorem gangs (h : Settles u l s t) : t.gangs = s.gangs := (congrArg State.gangs h.rest :)
theorem gangOf (h : Settles u l s t) : gangOf t u = gangOf s u := by rw [Machine.gangOf, Machine.gangOf, h.gang, gangAt, gangAt, h.gangs]

end Settles

theorem ctrSet_pend (g : Group) (c : Ctr) (n : Nat) : (ctrSet g c n).pend = g.pend := by cases c <;> rfl

/-- What an access that ends changes in its group. -/
def accEnded (a : Nat) (g : Group) : Group :=
  match tGet? g.accs a with
  | none => g
  | some x => if x.left ≤ 1 then { ctrSet g x.ctr (ctrGet g x.ctr - 1) with accs := tDel g.accs a } else { g with accs := tPut g.accs a { x with left := x.left - 1 } }

theorem endAcc_eq (s : State) (u a : Nat) : endAcc s u a = modGrp s u (accEnded a) := rfl

theorem accEnded_kept (a : Nat) (g : Group) : (accEnded a g).pend = g.pend ∧ (accEnded a g).gang = g.gang ∧ (accEnded a g).lanes = g.lanes := by
  unfold accEnded
  split
  · exact ⟨rfl, rfl, rfl⟩
  · split
    · exact ⟨ctrSet_pend .., ctrSet_gang .., ctrSet_lanes ..⟩
    · exact ⟨rfl, rfl, rfl⟩

theorem settles_modGrp {s : State} {u : Nat} (hg : (tGet? s.groups u).isSome = true) (l : Nat) (f : Group → Group)
    (hf : (f (grp s u)).pend = (grp s u).pend ∧ (f (grp s u)).gang = (grp s u).gang ∧ (f (grp s u)).lanes = (grp s u).lanes) :
    Settles u l s (modGrp s u f) := by
  obtain ⟨hp, hk, hl⟩ := hf
  have hgrp : grp (modGrp s u f) u = f (grp s u) := by rw [grp_modGrp s u u f hg, if_pos rfl]
  have hlane : lane (modGrp s u f) u l = lane s u l := by rw [lane, hgrp, laneAt, hl]; rfl
  exact ⟨rfl, isSome_modGrp .., by rw [hgrp, hp], by rw [hgrp, hk], by rw [hgrp, hl], by rw [hlane]⟩

theorem settles_modLane {s : State} {u l : Nat} (hg : (tGet? s.groups u).isSome = true) (hl : l < (grp s u).lanes.length) (f : Lane → Lane)
    (hf : { f (lane s u l) with acqStep := (lane s u l).acqStep, held := (lane s u l).held, readyAt := (lane s u l).readyAt } = lane s u l) :
    Settles u l s (modLane s u l f) :=
  ⟨rfl, isSome_modGrp .., by rw [grp_modLane hg]; rfl, by rw [grp_modLane hg]; rfl, by rw [grp_modLane hg, length_modLaneG],
    by rw [lane_modLane s u l l f hg hl, if_pos rfl]; exact hf⟩

theorem settles_noteAcquire {s : State} {u l : Nat} (hg : (tGet? s.groups u).isSome = true) (hl : l < (grp s u).lanes.length) (sem : Sem) (sc : Scope) :
    Settles u l s (noteAcquire s u l sem sc) := by
  unfold noteAcquire
  split
  · exact settles_modLane hg hl _ rfl
  · exact .refl ..

theorem settles_wakeHeld {s : State} {e : FEntry} (hg : (tGet? s.groups e.uid).isSome = true) (hl : e.lane < (grp s e.uid).lanes.length) :
    Settles e.uid e.lane s (wakeHeld s e) := by
  unfold wakeHeld
  split
  · exact settles_modLane hg hl _ rfl
  · exact .refl ..

/-- An entry's step counted, its access ended, its acquire noted. -/
def stepNoted (s : State) (e : FEntry) : State :=
  let t := endAcc { s with mstep := s.mstep + 1 } e.uid e.acc
  if isAcqEntry e then noteAcquire t e.uid e.lane e.sem e.scope else t

theorem stepNoted_mem (s : State) (e : FEntry) : (stepNoted s e).mem = s.mem := by
  unfold stepNoted noteAcquire
  dsimp only
  split
  · split <;> rfl
  · rfl

theorem settles_stepNoted {s : State} {e : FEntry} (hg : (tGet? s.groups e.uid).isSome = true) (hl : e.lane < (grp s e.uid).lanes.length) :
    Settles e.uid e.lane s (stepNoted s e) := by
  have hend : Settles e.uid e.lane s (endAcc { s with mstep := s.mstep + 1 } e.uid e.acc) :=
    (show Settles e.uid e.lane s { s with mstep := s.mstep + 1 } from ⟨rfl, rfl, rfl, rfl, rfl, rfl⟩).trans
      (settles_modGrp (s := { s with mstep := s.mstep + 1 }) hg e.lane (accEnded e.acc) (accEnded_kept ..))
  unfold stepNoted
  dsimp only
  split
  · exact hend.trans (settles_noteAcquire (hend.here.trans hg) (by rw [hend.length]; exact hl) ..)
  · exact hend

theorem stepNoted_here (s : State) (e : FEntry) : (tGet? (stepNoted s e).groups e.uid).isSome = (tGet? s.groups e.uid).isSome := by
  unfold stepNoted noteAcquire
  dsimp only
  split
  · split
    · exact (isSome_modGrp ..).trans (isSome_modGrp { s with mstep := s.mstep + 1 } ..)
    · exact isSome_modGrp { s with mstep := s.mstep + 1 } ..
  · exact isSome_modGrp { s with mstep := s.mstep + 1 } ..

/-- A value at an entry's target, and the commit of its lane performed. -/
def applyVal (s : State) (e : FEntry) (x : Nat) : State :=
  let t := writeTarget s e.uid e.lane e.dest x
  if e.commits then modLane t e.uid e.lane (fun ln => commitDone ln e.acc) else t

theorem applyVal_mem (s : State) (e : FEntry) (x : Nat) : (applyVal s e x).mem = s.mem := by
  have hmem : (writeTarget s e.uid e.lane e.dest x).mem = s.mem := by
    unfold writeTarget
    split <;> rfl
  unfold applyVal
  cases e.commits with
  | false => exact hmem
  | true => exact hmem

theorem setRegs_zero (ln : Lane) (n x : Nat) : setRegs ln n 0 x = ln := rfl

theorem lane_applyVal {s : State} {e : FEntry} (hg : (tGet? s.groups e.uid).isSome = true) (hl : e.lane < (grp s e.uid).lanes.length) (x : Nat) :
    lane (applyVal s e x) e.uid e.lane =
      if e.commits then commitDone (setRegs (lane s e.uid e.lane) (targetReg e.dest) e.dest.cnt x) e.acc
      else setRegs (lane s e.uid e.lane) (targetReg e.dest) e.dest.cnt x := by
  have hput : lane (writeTarget s e.uid e.lane e.dest x) e.uid e.lane = setRegs (lane s e.uid e.lane) (targetReg e.dest) e.dest.cnt x ∧
      (tGet? (writeTarget s e.uid e.lane e.dest x).groups e.uid).isSome = true ∧
      e.lane < (grp (writeTarget s e.uid e.lane e.dest x) e.uid).lanes.length := by
    unfold writeTarget
    split
    · next h0 => exact ⟨by rw [h0, setRegs_zero], hg, hl⟩
    · exact ⟨by rw [lane_modLane _ _ _ _ _ hg hl, if_pos rfl], (isSome_modGrp ..).trans hg, by rw [grp_modLane hg, length_modLaneG]; exact hl⟩
  obtain ⟨hlane, hg', hl'⟩ := hput
  unfold applyVal
  cases e.commits with
  | false => exact hlane
  | true =>
    rw [if_pos rfl, if_pos rfl]
    exact (lane_modLane _ _ _ _ _ hg' hl').trans ((if_pos rfl).trans (by rw [hlane]))

/-- What follows an owner step where the entry's group is there. -/
theorem entryDone_eq {s : State} {e : FEntry} (hg : (tGet? s.groups e.uid).isSome = true) (o : OwnOut) : entryDone s e o =
    match o with
    | .val x => applyVal (wakeHeld (stepNoted s e) e) e x
    | .trap c => trapLate (wakeHeld (stepNoted s e) e) e.uid e.lane e.acc e.undo c e.va e.pc
    | .poison k => poisonLate (wakeHeld (stepNoted s e) e) e.uid e.lane e.acc k e.undo e.va e.pc
    | .park _ => wakeHeld (stepNoted s e) e := by
  have hsome : ¬(tGet? (stepNoted s e).groups e.uid).isNone = true := by
    rw [← Option.not_isSome, stepNoted_here, hg]
    exact Bool.false_ne_true
  exact if_neg hsome

theorem settles_settled {s : State} {e : FEntry} (hg : (tGet? s.groups e.uid).isSome = true) (hl : e.lane < (grp s e.uid).lanes.length) :
    Settles e.uid e.lane s (wakeHeld (stepNoted s e) e) := by
  have h := settles_stepNoted hg hl
  exact h.trans (settles_wakeHeld (h.here.trans hg) (by rw [h.length]; exact hl))

theorem wakeHeld_mem (s : State) (e : FEntry) : (wakeHeld s e).mem = s.mem := by
  unfold wakeHeld
  split <;> rfl

/-- A value that an owner step answers leaves memory as the step made it. -/
theorem entryDone_val_mem (s : State) (e : FEntry) (x : Nat) : (entryDone s e (.val x)).mem = s.mem := by
  have hmem : (wakeHeld (stepNoted s e) e).mem = s.mem := (wakeHeld_mem ..).trans (stepNoted_mem ..)
  by_cases hg : (tGet? s.groups e.uid).isSome = true
  · rw [entryDone_eq hg]
    exact (applyVal_mem ..).trans hmem
  · have hnone : (tGet? (stepNoted s e).groups e.uid).isNone = true := by
      rw [← Option.not_isSome, stepNoted_here]
      simpa using hg
    exact (congrArg State.mem (if_pos hnone)).trans (stepNoted_mem s e)

theorem rdByte_entryDone_val (s : State) (e : FEntry) (x j : Nat) : rdByte (entryDone s e (.val x)) j = rdByte s j := by
  rw [rdByte, entryDone_val_mem, rdByte]

/-- The lane of an entry whose owner step answers a value: the value at the entry's target, and its commit performed. -/
theorem lane_entryDone_val {s : State} {e : FEntry} (hg : (tGet? s.groups e.uid).isSome = true) (hl : e.lane < (grp s e.uid).lanes.length) (x : Nat) :
    ∃ ln : Lane, { ln with acqStep := (lane s e.uid e.lane).acqStep, held := (lane s e.uid e.lane).held, readyAt := (lane s e.uid e.lane).readyAt } =
        lane s e.uid e.lane ∧
      lane (entryDone s e (.val x)) e.uid e.lane =
        if e.commits then commitDone (setRegs ln (targetReg e.dest) e.dest.cnt x) e.acc else setRegs ln (targetReg e.dest) e.dest.cnt x := by
  have hset := settles_settled hg hl
  refine ⟨lane (wakeHeld (stepNoted s e) e) e.uid e.lane, hset.lane, ?_⟩
  rw [entryDone_eq hg]
  exact lane_applyVal (hset.here.trans hg) (by rw [hset.length]; exact hl) x

end Sys2Proof.Machine
end

section
/-! What an atomic does when it is performed (R125, R136, R224). -/

-- one declaration after another, so that the text as a whole is checked within its memory
set_option Elab.async false

namespace Sys2Proof.Machine

/-! ### Registers and commits of a lane -/

theorem getReg_setRegs_below (ln : Lane) {n m : Nat} (cnt x : Nat) (h : m < n) (hn : n + cnt ≤ 138) : getReg (setRegs ln n cnt x) m = getReg ln m := by
  induction cnt generalizing ln n x with
  | zero => rfl
  | succ cnt ih => rw [setRegs, ih _ _ (by omega) (by omega), getReg_setReg _ _ _ _ (by omega) (by omega), if_neg (by omega)]

/-- Words written together are read together. -/
theorem getRegs_setRegs (ln : Lane) {n : Nat} (cnt x : Nat) (hn : n + cnt ≤ 138) : getRegs (setRegs ln n cnt x) n cnt = x % 2 ^ (32 * cnt) := by
  induction cnt generalizing ln n x with
  | zero => simp [getRegs, Nat.mod_one]
  | succ cnt ih =>
    rw [getRegs, setRegs, ih _ _ (by omega), getReg_setRegs_below _ _ _ (Nat.lt_succ_self n) (by omega), getReg_setReg _ _ _ _ (by omega) (by omega),
      if_pos rfl, BitVec.toNat_ofNat, show 32 * (cnt + 1) = 32 + 32 * cnt from by ring, pow_add, Nat.mod_mul]

theorem getReg_commitDone (ln : Lane) (acc n : Nat) : getReg (commitDone ln acc) n = getReg ln n := by
  unfold commitDone
  split
  · rfl
  · split <;> rfl

theorem getRegs_congr {a b : Lane} (h : ∀ n, getReg a n = getReg b n) (n cnt : Nat) : getRegs a n cnt = getRegs b n cnt := by
  induction cnt generalizing n with
  | zero => rfl
  | succ cnt ih => rw [getRegs, getRegs, h, ih]

section Commit

variable {ln : Lane} {cs rest : List Commit} {c : Commit} (hcs : ln.commits = cs ++ c :: rest) (hcs' : ∀ y ∈ cs ++ rest, y.acc ≠ c.acc)

include hcs hcs'

theorem find?_commit : ln.commits.find? (fun x => x.acc == c.acc) = some c := by
  have hno : cs.find? (fun x => x.acc == c.acc) = none := List.find?_eq_none.2 (fun y hy => by simpa using hcs' y (by simp [hy]))
  rw [hcs, List.find?_append, hno]
  simp

theorem filter_commit : ln.commits.filter (fun x => x.acc != c.acc) = cs ++ rest := by
  have hall (ys : List Commit) (h : ∀ y ∈ ys, y ∈ cs ++ rest) : ys.filter (fun x => x.acc != c.acc) = ys :=
    List.filter_eq_self.2 (fun y hy => by simpa using hcs' y (h y hy))
  rw [hcs, List.filter_append, List.filter_cons_of_neg (by simp), hall cs (by simp_all), hall rest (by simp_all)]

/-- A commit that is not past is performed: its record is taken, and those issued before it are past with it. -/
theorem commitDone_due (ht : c.taken = false) :
    commitDone ln c.acc = { ln with recs := setNth ln.recs c.depth c.region, commits := cs.map (fun y => { y with taken := true }) ++ rest } := by
  have hall : ∀ y ∈ cs, (y.acc != c.acc) = true := fun y hy => by simpa using hcs' y (by simp [hy])
  unfold commitDone
  rw [find?_commit hcs hcs']
  dsimp only
  rw [if_neg (by rw [ht]; exact Bool.false_ne_true), hcs, List.takeWhile_append_of_pos hall, List.dropWhile_append_of_pos hall]
  simp

theorem commitDone_past (ht : c.taken = true) : commitDone ln c.acc = { ln with commits := cs ++ rest } := by
  unfold commitDone
  rw [find?_commit hcs hcs']
  dsimp only
  rw [if_pos ht, filter_commit hcs hcs']

end Commit

theorem RegsOnly.recs {a b : Lane} (h : RegsOnly a b) : b.recs = a.recs := (congrArg Lane.recs h :)
theorem RegsOnly.commits {a b : Lane} (h : RegsOnly a b) : b.commits = a.commits := (congrArg Lane.commits h :)

/-! ### The owner step of an atomic -/

section Atom

variable {s : State} {e : FEntry} {o : AtomOp} {w x cmp : Nat} (hns : NoSnap s) (he : s.errors = []) (hact : e.act = .atom o w x cmp)
  (hbad : dataBad s e.cls e.owner e.pa w = false) (hmix : classMixed s e.cls e.owner e.pa w = false)

include he hact hbad hmix

/-- What an atomic leaves in its bytes. -/
theorem performEntry_atom : performEntry s e =
    entryDone (if o = .cas ∧ rdNat s (mkey e.owner e.pa) w ≠ cmp then s
      else ownerWrite s (mkey e.owner e.pa) e.cls (leBytes w (atomNew o w (rdNat s (mkey e.owner e.pa) w) x cmp))) e (.val (rdNat s (mkey e.owner e.pa) w)) := by
  have hmet : ownerMet s e = s := by rw [ownerMet, hact]; exact dataMet_clean he hmix e.launch
  have hstep : ownerStep s e = (if o = .cas ∧ rdNat s (mkey e.owner e.pa) w ≠ cmp then s
      else ownerWrite s (mkey e.owner e.pa) e.cls (leBytes w (atomNew o w (rdNat s (mkey e.owner e.pa) w) x cmp)),
      some (.val (rdNat s (mkey e.owner e.pa) w))) := by
    rw [ownerStep, hact]
    dsimp only
    rw [hbad, if_neg Bool.false_ne_true, dataBytes_clean hmix]
    rfl
  rw [performEntry, hmet, hstep]

include hns

theorem rdByte_atom_other {j : Nat} (hj : j < mkey e.owner e.pa ∨ mkey e.owner e.pa + w ≤ j) : rdByte (performEntry s e) j = rdByte s j := by
  rw [performEntry_atom he hact hbad hmix, rdByte_entryDone_val]
  split
  · rfl
  · exact rdByte_ownerWrite_other hns _ _ _ (by rwa [length_leBytes])

theorem rdNat_atom : rdNat (performEntry s e) (mkey e.owner e.pa) w =
    if o = .cas ∧ rdNat s (mkey e.owner e.pa) w ≠ cmp then rdNat s (mkey e.owner e.pa) w
    else atomNew o w (rdNat s (mkey e.owner e.pa) w) x cmp % 256 ^ w := by
  rw [performEntry_atom he hact hbad hmix, rdNat_congr (fun j _ _ => rdByte_entryDone_val ..)]
  split
  · rfl
  · exact rdNat_ownerWrite hns ..

theorem lane_atom (hg : (tGet? s.groups e.uid).isSome = true) (hl : e.lane < (grp s e.uid).lanes.length) :
    ∃ ln : Lane, { ln with acqStep := (lane s e.uid e.lane).acqStep, held := (lane s e.uid e.lane).held, readyAt := (lane s e.uid e.lane).readyAt } =
        lane s e.uid e.lane ∧
      lane (performEntry s e) e.uid e.lane =
        if e.commits then commitDone (setRegs ln (targetReg e.dest) e.dest.cnt (rdNat s (mkey e.owner e.pa) w)) e.acc
        else setRegs ln (targetReg e.dest) e.dest.cnt (rdNat s (mkey e.owner e.pa) w) := by
  rw [performEntry_atom he hact hbad hmix]
  by_cases hc : o = .cas ∧ rdNat s (mkey e.owner e.pa) w ≠ cmp
  · rw [if_pos hc]
    exact lane_entryDone_val hg hl _
  · rw [if_neg hc]
    let t : State := ownerWrite s (mkey e.owner e.pa) e.cls (leBytes w (atomNew o w (rdNat s (mkey e.owner e.pa) w) x cmp))
    have hgroups : t.groups = s.groups := ownerWrite_groups hns ..
    have hgrp : grp t e.uid = grp s e.uid := by rw [grp, grp, hgroups]
    have hlane : lane t e.uid e.lane = lane s e.uid e.lane := by rw [lane, lane, hgrp]
    have h := lane_entryDone_val (s := t) (e := e) (by rw [hgroups]; exact hg) (by rw [hgrp]; exact hl) (rdNat s (mkey e.owner e.pa) w)
    rwa [hlane] at h

/-- The old value is at the target. -/
theorem getRegs_atom (hg : (tGet? s.groups e.uid).isSome = true) (hl : e.lane < (grp s e.uid).lanes.length) (hr : targetReg e.dest + e.dest.cnt ≤ 136) :
    getRegs (lane (performEntry s e) e.uid e.lane) (targetReg e.dest) e.dest.cnt = rdNat s (mkey e.owner e.pa) w % 2 ^ (32 * e.dest.cnt) := by
  obtain ⟨ln, -, hln⟩ := lane_atom hns he hact hbad hmix hg hl
  rw [hln, ← getRegs_setRegs (n := targetReg e.dest) ln e.dest.cnt _ (by omega)]
  cases e.commits with
  | false => rfl
  | true => exact getRegs_congr (getReg_commitDone _ _) _ _

/-- The commit of the lane is performed. -/
theorem commits_atom {cs rest : List Commit} {c : Commit} (hcom : e.commits = true) (hg : (tGet? s.groups e.uid).isSome = true)
    (hl : e.lane < (grp s e.uid).lanes.length) (hcs : (lane s e.uid e.lane).commits = cs ++ c :: rest) (hc : c.acc = e.acc)
    (hcs' : ∀ y ∈ cs ++ rest, y.acc ≠ e.acc) (hd : c.depth < (lane s e.uid e.lane).recs.length) :
    (c.taken = false → nth {} (lane (performEntry s e) e.uid e.lane).recs c.depth = c.region ∧
      (lane (performEntry s e) e.uid e.lane).commits = cs.map (fun y => { y with taken := true }) ++ rest) ∧
    (c.taken = true → (lane (performEntry s e) e.uid e.lane).recs = (lane s e.uid e.lane).recs ∧
      (lane (performEntry s e) e.uid e.lane).commits = cs ++ rest) := by
  obtain ⟨ln, hkept, hln⟩ := lane_atom hns he hact hbad hmix hg hl
  rw [hcom, if_pos rfl] at hln
  have hregs := regsOnly_setRegs ln (targetReg e.dest) e.dest.cnt (rdNat s (mkey e.owner e.pa) w)
  generalize setRegs ln (targetReg e.dest) e.dest.cnt (rdNat s (mkey e.owner e.pa) w) = r at hregs hln
  have hrecs : r.recs = (lane s e.uid e.lane).recs := hregs.recs.trans (congrArg Lane.recs hkept :)
  have hcoms : r.commits = cs ++ c :: rest := hregs.commits.trans ((congrArg Lane.commits hkept :).trans hcs)
  rw [← hc] at hcs' hln
  refine ⟨fun ht => ?_, fun ht => ?_⟩
  · rw [hln, commitDone_due hcoms hcs' ht]
    exact ⟨by rw [nth_setNth, hrecs, if_pos ⟨rfl, hd⟩], rfl⟩
  · rw [hln, commitDone_past hcoms hcs' ht]
    exact ⟨hrecs, rfl⟩

end Atom

end Sys2Proof.Machine
end

section
/-! The new value of each atomic (R136), and what O35 makes of it. -/

-- one declaration after another, so that the text as a whole is checked within its memory
set_option Elab.async false

namespace Sys2Proof.Machine

/-! ### New values -/

section Values

variable {n w r x : Nat} (hw : 8 * w = n) (hr : r < 2 ^ n) (hx : x < 2 ^ n) (cmp : Nat)

include hw

theorem pow256_eq : 256 ^ w = 2 ^ n := by rw [← hw, show (256 : Nat) = 2 ^ 8 from rfl, ← pow_mul]

theorem atomNew_add : atomNew .add w r x cmp % 256 ^ w = (BitVec.ofNat n r + BitVec.ofNat n x).toNat := by
  rw [pow256_eq hw, BitVec.toNat_add, BitVec.toNat_ofNat, BitVec.toNat_ofNat, ← Nat.add_mod, ← hw]
  exact Nat.mod_mod ..

theorem atomNew_inc (hr : r < 2 ^ n) (hx : x < 2 ^ n) (hn : 1 < n) :
    atomNew .inc w r x cmp % 256 ^ w = (if BitVec.ofNat n x ≤ BitVec.ofNat n r then 0 else BitVec.ofNat n r + 1).toNat := by
  have hle : BitVec.ofNat n x ≤ BitVec.ofNat n r ↔ x ≤ r := by rw [BitVec.le_def, BitVec.toNat_ofNat, BitVec.toNat_ofNat, Nat.mod_eq_of_lt hr, Nat.mod_eq_of_lt hx]
  rw [pow256_eq hw]
  by_cases h : x ≤ r
  · rw [if_pos (hle.2 h), show atomNew .inc w r x cmp = 0 from if_pos h]
    rfl
  · rw [if_neg (mt hle.1 h), show atomNew .inc w r x cmp = r + 1 from if_neg h, BitVec.toNat_add, BitVec.toNat_ofNat, Nat.mod_eq_of_lt hr,
      show (1 : BitVec n).toNat = 1 from BitVec.toNat_one (by omega)]

/-- Of old and operand, the one that a comparison picks. -/
theorem pick_mod (p : Prop) [Decidable p] : (if p then r else x) % 256 ^ w = (if p then BitVec.ofNat n r else BitVec.ofNat n x).toNat := by
  rw [pow256_eq hw]
  by_cases h : p
  · rw [if_pos h, if_pos h, BitVec.toNat_ofNat]
  · rw [if_neg h, if_neg h, BitVec.toNat_ofNat]

theorem atomNew_min (hn : 0 < n) : atomNew .min w r x cmp % 256 ^ w =
    (if (BitVec.ofNat n r).toInt ≤ (BitVec.ofNat n x).toInt then BitVec.ofNat n r else BitVec.ofNat n x).toNat := by
  rw [← pick_mod hw, atomNew, hw, sext_eq_toInt n r hn, sext_eq_toInt n x hn]

theorem atomNew_max (hn : 0 < n) : atomNew .max w r x cmp % 256 ^ w =
    (if (BitVec.ofNat n x).toInt ≤ (BitVec.ofNat n r).toInt then BitVec.ofNat n r else BitVec.ofNat n x).toNat := by
  rw [← pick_mod hw, atomNew, hw, sext_eq_toInt n r hn, sext_eq_toInt n x hn]

include hr hx

theorem atomNew_and : atomNew .and w r x cmp % 256 ^ w = (BitVec.ofNat n r &&& BitVec.ofNat n x).toNat := by
  rw [pow256_eq hw, BitVec.toNat_and, BitVec.toNat_ofNat, BitVec.toNat_ofNat, Nat.mod_eq_of_lt hr, Nat.mod_eq_of_lt hx]
  exact Nat.mod_eq_of_lt (Nat.and_lt_two_pow _ hx)

theorem atomNew_or : atomNew .or w r x cmp % 256 ^ w = (BitVec.ofNat n r ||| BitVec.ofNat n x).toNat := by
  rw [pow256_eq hw, BitVec.toNat_or, BitVec.toNat_ofNat, BitVec.toNat_ofNat, Nat.mod_eq_of_lt hr, Nat.mod_eq_of_lt hx]
  exact Nat.mod_eq_of_lt (Nat.or_lt_two_pow hr hx)

theorem atomNew_xor : atomNew .xor w r x cmp % 256 ^ w = (BitVec.ofNat n r ^^^ BitVec.ofNat n x).toNat := by
  rw [pow256_eq hw, BitVec.toNat_xor, BitVec.toNat_ofNat, BitVec.toNat_ofNat, Nat.mod_eq_of_lt hr, Nat.mod_eq_of_lt hx]
  exact Nat.mod_eq_of_lt (Nat.xor_lt_two_pow hr hx)

end Values

/-- A value within its width is read off all of its bits (R61). -/
theorem fmtDecode_mod (f : Fmt) (x : Nat) : fmtDecode f (x % 2 ^ fmtWidth f) = fmtDecode f x := by simp only [fmtDecode, Nat.mod_mod]

theorem fvMinMax_f32_lt (c : RCtx) (greater : Bool) (a b : Nat) : (fvMinMax c .f32 greater false a b).1 < 2 ^ 32 := by
  unfold fvMinMax
  dsimp only
  split
  · exact (by decide : (0x7FC00000 : Nat) < 2 ^ 32)
  all_goals exact Nat.mod_lt _ (by decide)

end Sys2Proof.Machine

open Sys2Proof Sys2Proof.Machine

/-- Settles O35: an owner's write of the new value, the old value at the target, and the commit performed. -/
theorem atomicStep : Obligations.AtomicStep := by
  intro s e o n x cmp hns he hact hn hx hcmp hbad hmix k old X t rounds puts
  have hw : 8 * (n / 8) = n := by omega
  have hr : rdNat s k (n / 8) < 2 ^ n := by rw [← pow256_eq hw]; exact rdNat_lt ..
  have hold : old.toNat = rdNat s k (n / 8) := by rw [BitVec.toNat_ofNat, Nat.mod_eq_of_lt hr]
  have hX : X.toNat = x := by rw [BitVec.toNat_ofNat, Nat.mod_eq_of_lt hx]
  have hput := rdNat_atom hns he hact hbad hmix
  have hputs {y : Nat} (ho : o ≠ .cas) (hy : atomNew o (n / 8) (rdNat s k (n / 8)) x cmp % 256 ^ (n / 8) = y) : puts y := by
    rw [if_neg (fun h => ho h.1)] at hput
    exact hput.trans hy
  refine ⟨fun j => rdByte_atom_other hns he hact hbad hmix, fun hg hl hcnt hreg => ?_, fun cs c rest hcom hg hl hcs hc hcs' hd =>
      commits_atom hns he hact hbad hmix hcom hg hl hcs hc hcs' hd, ?_, ?_, ?_, ?_, ?_, ?_, ?_, ?_, ?_, ?_, ?_, ?_, ?_, ?_⟩
  · rw [getRegs_atom hns he hact hbad hmix hg hl (by rw [hcnt]; exact hreg), hcnt, show 32 * (n / 32) = n by omega, hold]
    exact Nat.mod_eq_of_lt hr
  · rintro rfl
    exact hputs (by decide) (atomNew_add hw cmp)
  · rintro rfl
    exact hputs (by decide) (atomNew_min hw cmp (by omega))
  · rintro rfl
    exact hputs (by decide) (atomNew_max hw cmp (by omega))
  · rintro rfl
    exact hputs (by decide) (atomNew_and hw hr hx cmp)
  · rintro rfl
    exact hputs (by decide) (atomNew_or hw hr hx cmp)
  · rintro rfl
    exact hputs (by decide) (atomNew_xor hw hr hx cmp)
  · rintro rfl
    exact hputs (by decide) (by rw [pow256_eq hw]; exact Nat.mod_eq_of_lt hx)
  · rintro rfl
    exact hputs (by decide) (atomNew_inc hw cmp hr hx (by omega))
  · rintro rfl
    show rdNat t k (n / 8) = _
    rw [hput, hold]
    by_cases hc : rdNat s k (n / 8) = cmp
    · rw [if_neg (fun h => h.2 hc), if_pos hc, hX, atomNew, if_pos hc, pow256_eq hw, Nat.mod_eq_of_lt hx]
    · rw [if_pos ⟨rfl, hc⟩, if_neg hc, hold]
  · rintro rfl rfl
    exact hputs (by decide) (by rw [pow256_eq hw, hold]; rfl)
  · rintro rfl rfl
    exact hputs (by decide) (by rw [pow256_eq hw, hold]; rfl)
  · rintro rfl rfl
    exact hputs (by decide) (by rw [pow256_eq hw, hold]; exact Nat.mod_eq_of_lt (fvMinMax_f32_lt ..))
  · rintro rfl rfl
    exact hputs (by decide) (by rw [pow256_eq hw, hold]; exact Nat.mod_eq_of_lt (fvMinMax_f32_lt ..))
  · rintro rfl rfl
    refine hputs (by decide) ?_
    rw [pow256_eq hw, hold]
    have hlow (y : Nat) : fmtDecode .bf16 (y % 2 ^ 16) = fmtDecode .bf16 (y / 2 ^ (16 * 0)) := by
      rw [Nat.mul_zero, pow_zero, Nat.div_one]
      exact fmtDecode_mod .bf16 y
    simp only [rounds, hlow]
    rfl
end

section
/-! Taking a lane trap (R294 to R296): the frame, the record, and what a trap leaves alone. -/

-- one declaration after another, so that the text as a whole is checked within its memory
set_option Elab.async false

namespace Sys2Proof.Machine

/-! ### Memory is not written (R305) -/

theorem foldl_mem {α : Type} {f : State → α → State} (h : ∀ s x, (f s x).mem = s.mem) (xs : List α) (s : State) : (xs.foldl f s).mem = s.mem := by
  induction xs generalizing s with
  | nil => rfl
  | cons x xs ih => rw [List.foldl_cons, ih, h]

theorem modPin_mem (s : State) (vmid asid : Nat) (va : W64) (f : Nat → Nat) : (modPin s vmid asid va f).mem = s.mem := by
  unfold modPin
  dsimp only
  split <;> rfl

theorem dropCmd_mem (s : State) (k : Nat) : (dropCmd s k).mem = s.mem := by
  have hseg (s : State) (v a : Nat) (segs : List Segment) : (unpinAll s v a segs).mem = s.mem :=
    foldl_mem (fun s g => by split; exacts [modPin_mem .., rfl]) segs s
  have hwalk (s : State) (v a : Nat) (ps : List (Bool × W64)) : (unpinWalk s v a ps).mem = s.mem := foldl_mem (fun s p => modPin_mem ..) ps s
  exact (hwalk ..).trans (hseg ..)

theorem dropGroup_mem (s : State) (u : Nat) : (dropGroup s u).mem = s.mem := by
  unfold dropGroup
  dsimp only
  split <;> rfl

theorem stopGangs_mem (s : State) (keep : Bool) (p : Gang → Bool) : (stopGangs s keep p).mem = s.mem := by
  unfold stopGangs
  exact (foldl_mem (f := dropGang) (fun _ _ => rfl) _ _).trans ((foldl_mem dropGroup_mem _ _).trans (foldl_mem dropCmd_mem _ _))

theorem leaveMeets_mem (s : State) (cs : List Nat) : (leaveMeets s cs).mem = s.mem := rfl
theorem clearLaunch_mem (s : State) (k : Nat) : (clearLaunch s k).mem = s.mem := rfl

theorem stopLaunch_mem (s : State) (keep : Bool) (k : Nat) : (stopLaunch s keep k).mem = s.mem := by
  unfold stopLaunch
  dsimp only
  rw [clearLaunch_mem, leaveMeets_mem, foldl_mem dropCmd_mem, stopGangs_mem]

theorem forceLaunch_mem (s : State) (k : Nat) (st : Status) : (forceLaunch s k st).mem = s.mem := by
  rw [forceLaunch, modLaunch_mem, stopLaunch_mem]

theorem trapLane_mem (s : State) (u l : Nat) (t : TrapInfo) : (trapLane s u l t).mem = s.mem := by
  unfold trapLane
  dsimp only
  split
  · exact forceLaunch_mem ..
  · rfl

theorem trapRegion_mem (s : State) (u l : Nat) (c : Cause) (v pc : W64) : (trapRegion s u l c v pc).mem = s.mem := trapLane_mem ..

theorem trapLate_mem (s : State) (u l acc : Nat) (un : Option Undo) (c : Cause) (v pc : W64) : (trapLate s u l acc un c v pc).mem = s.mem := by
  unfold trapLate
  split
  · rfl
  · refine (trapRegion_mem ..).trans ?_
    split <;> rfl

/-! ### Commits taken before a trap (R125) -/

/-- The records of a lane once the commits of a list are taken. -/
def recsTaken (recs : List Region) (cs : List Commit) : List Region :=
  (cs.filter (fun c => !c.taken)).foldl (fun r c => setNth r c.depth c.region) recs

theorem takeCommits_eq (ln : Lane) :
    takeCommits ln = { ln with recs := recsTaken ln.recs ln.commits, commits := ln.commits.map (fun c => { c with taken := true }) } := by
  have hfold (cs : List Commit) (x : Lane) : cs.foldl (fun ln c => { ln with recs := setNth ln.recs c.depth c.region }) x =
      { x with recs := cs.foldl (fun r c => setNth r c.depth c.region) x.recs } := by
    induction cs generalizing x with
    | nil => rfl
    | cons c cs ih => rw [List.foldl_cons, ih, List.foldl_cons]
  exact hfold ..

theorem takeCommits_of_taken {ln : Lane} (h : ∀ c ∈ ln.commits, c.taken = true) : takeCommits ln = ln := by
  have hf : ln.commits.filter (fun c => !c.taken) = [] := List.filter_eq_nil_iff.2 (fun c hc => by rw [h c hc]; exact Bool.false_ne_true)
  have hm : ln.commits.map (fun c => { c with taken := true }) = ln.commits := by
    conv_rhs => rw [← List.map_id ln.commits]
    exact List.map_congr_left (fun c hc => by rw [← h c hc]; rfl)
  rw [takeCommits_eq, hm, recsTaken, hf]
  rfl

theorem takeCommits_taken (ln : Lane) : ∀ c ∈ (takeCommits ln).commits, c.taken = true := by
  rw [takeCommits_eq]
  intro c hc
  obtain ⟨x, -, rfl⟩ := List.mem_map.1 hc
  rfl

theorem takeCommits_idem (ln : Lane) : takeCommits (takeCommits ln) = takeCommits ln := takeCommits_of_taken (takeCommits_taken ln)

theorem length_recsTaken (recs : List Region) (cs : List Commit) : (recsTaken recs cs).length = recs.length := by
  unfold recsTaken
  generalize cs.filter (fun c => !c.taken) = ds
  induction ds generalizing recs with
  | nil => rfl
  | cons c ds ih => rw [List.foldl_cons, ih, length_setNth]

/-! ### The trap entry (R292 to R295) -/

theorem length_frameBytes (ln : Lane) (restart rhdr txpc txval : W64) (c : Cause) : (frameBytes ln restart rhdr txpc txval c).length = 64 := by
  simp [frameBytes]

theorem frameBytes_eq (ln : Lane) (restart rhdr txpc txval : W64) (c : Cause) :
    frameBytes ln restart rhdr txpc txval c = frameOf ln restart rhdr txpc txval (causeCode c) := by
  have hmode : leBytes 1 (modeCode ln.mode) = [modeByte ln.mode] := by cases ln.mode <;> rfl
  have hflags : leBytes 1 (2 * b2n ln.syncp + 4 * classCode ln.rclass) = [(if ln.syncp then 2#8 else 0#8) ||| classBits ln.rclass] := by
    cases ln.syncp <;> cases ln.rclass <;> rfl
  rw [frameBytes, frameOf, hmode, hflags]
  simp [leBytes, List.replicate]

/-- A lane that has entered level d in mode m by a frame at an address of its slice. -/
def enteredTrap (ln : Lane) (u l id : Nat) (at_ d : Nat) (m : Mode) (vec : W64) (frame : List Byte) : Lane :=
  { privStore ln u l id at_ frame with
    depth := d, recs := setNth ln.recs d {}, mode := m, retire := false, syncp := false, flight := none, qgot := [], eldGot := none, st := .run,
    at_ := .enter vec .vector vec }

/-- Where no frame is left the trap is DOUBLE_FAULT (R294, R295). -/
theorem trapEnter_full {p : Nat} {ln : Lane} (h : ln.depth = depthLimit p) (u l id : Nat) (t : TrapInfo) : trapEnter p u l id ln t =
    enteredTrap ln u l id (p - 64) 4 .h ln.hvec
      (frameBytes ln t.restart t.rhdr t.txpc (BitVec.ofNat 64 (causeCode t.cause)) .doubleFault) := by
  simp [trapEnter, enteredTrap, frameAt, h]

/-- A trap goes to H (R295). -/
def toH (c : Cause) (m : Mode) : Bool := decide (c = .hcall) || decide (m = .h)

theorem trapEnter_left {p : Nat} {ln : Lane} (h : ln.depth ≠ depthLimit p) (h3 : ln.depth ≠ 3) (u l id : Nat) (t : TrapInfo) : trapEnter p u l id ln t =
    enteredTrap ln u l id (p - 64 - 64 * (ln.depth + 1)) (ln.depth + 1) (if toH t.cause ln.mode then .h else .s)
      (if toH t.cause ln.mode then ln.hvec else ln.tvec) (frameBytes ln t.restart t.rhdr t.txpc t.txval t.cause) := by
  have hH : (t.cause = .hcall ∨ ln.mode = .h ∨ ln.depth = depthLimit p) ↔ toH t.cause ln.mode = true := by simp [toH, h]
  unfold trapEnter enteredTrap
  simp only [hH, if_neg h, frameAt, if_neg (show ln.depth + 1 ≠ 4 by omega)]
  cases toH t.cause ln.mode <;> rfl

theorem privBytes_enteredTrap (ln : Lane) (u l id at_ d : Nat) (m : Mode) (vec : W64) (restart rhdr txpc txval : W64) (c : Cause) :
    privBytes (enteredTrap ln u l id at_ d m vec (frameBytes ln restart rhdr txpc txval c)) at_ 64 =
      frameOf ln restart rhdr txpc txval (causeCode c) := by
  rw [← frameBytes_eq]
  have h := privBytes_entered (ln := enteredTrap ln u l id at_ d m vec (frameBytes ln restart rhdr txpc txval c)) (fs := ln.fifo) rfl rfl rfl
  rwa [length_frameBytes] at h

theorem curRec_enteredTrap {ln : Lane} {d : Nat} (hd : d < ln.recs.length) (u l id at_ : Nat) (m : Mode) (vec : W64) (frame : List Byte) :
    curRec (enteredTrap ln u l id at_ d m vec frame) = {} := by
  show nth {} (setNth ln.recs d {}) d = {}
  rw [nth_setNth, if_pos ⟨rfl, hd⟩]

theorem recs_enteredTrap (ln : Lane) {d k : Nat} (hk : k ≠ d) (u l id at_ : Nat) (m : Mode) (vec : W64) (frame : List Byte) :
    nth {} (enteredTrap ln u l id at_ d m vec frame).recs k = nth {} ln.recs k := by
  show nth {} (setNth ln.recs d {}) k = _
  rw [nth_setNth, if_neg (fun h => hk h.1.symm)]

/-- A trap entry is as R295 has it. -/
theorem trapped_trapEnter {p : Nat} {ln : Lane} (hf : FrameLeft p ln) (hr : ln.recs.length = 5) (u l id : Nat) (t : TrapInfo) :
    Trapped p ln (trapEnter p u l id ln t) t.cause t.txval t.txpc t.restart t.rhdr := by
  obtain ⟨hp, hd⟩ := hf
  unfold Trapped
  by_cases hfull : ln.depth = min 3 (p / 64 - 1)
  · rw [trapEnter_full hfull, decide_eq_true hfull]
    exact ⟨privBytes_enteredTrap .., rfl, rfl, rfl, rfl, rfl, rfl, rfl, rfl, rfl, curRec_enteredTrap (by rw [hr]; decide) .., fun k hk => recs_enteredTrap ln hk ..,
      ⟨_, rfl⟩, rfl⟩
  · have h3 : ln.depth < 3 := by omega
    rw [trapEnter_left hfull (by omega), decide_eq_false hfull]
    exact ⟨privBytes_enteredTrap .., rfl, rfl, rfl, rfl, rfl, rfl, rfl, rfl, rfl, curRec_enteredTrap (by rw [hr]; omega) .., fun k hk => recs_enteredTrap ln hk ..,
      ⟨_, rfl⟩, rfl⟩

end Sys2Proof.Machine
end

section
/-! A lane trap in its state: the lane enters its handler, and nothing else changes (R295, R296). -/

-- one declaration after another, so that the text as a whole is checked within its memory
set_option Elab.async false

namespace Sys2Proof.Machine

/-- Where no result of the last-result file is pending, none is written. -/
theorem grp_flushH {s : State} {u : Nat} (hg : (tGet? s.groups u).isSome = true) (hp : NoPendH s u) (l : Nat) : grp (flushH s u l) u = grp s u := by
  have hnone : ∀ p ∈ (grp s u).pend, p.2.writes.filter (fun w => w.lane == l && decide (136 ≤ w.reg)) = [] := fun p h =>
    List.filter_eq_nil_iff.2 (fun w hw => by simp [Nat.not_le.2 (hp p h w hw)])
  have hall : ∀ p ∈ (grp s u).pend, p.2.writes.filter (fun w => !(w.lane == l && decide (136 ≤ w.reg))) = p.2.writes := fun p h =>
    List.filter_eq_self.2 (fun w hw => by simp [Nat.not_le.2 (hp p h w hw)])
  have hws : ((grp s u).pend.map (fun p => p.2.writes.filter (fun w => w.lane == l && decide (136 ≤ w.reg)))).flatten = [] := by
    rw [List.flatten_eq_nil_iff]
    intro ws hws
    obtain ⟨p, hpm, rfl⟩ := List.mem_map.1 hws
    exact hnone p hpm
  have hpend : (grp s u).pend.map (fun p => (p.1, { p.2 with writes := p.2.writes.filter (fun w => !(w.lane == l && decide (136 ≤ w.reg))) })) = (grp s u).pend := by
    conv_rhs => rw [← List.map_id (grp s u).pend]
    exact List.map_congr_left (fun p h => by rw [hall p h]; rfl)
  rw [flushH, grp_modGrp s u u _ hg, if_pos rfl]
  dsimp only
  rw [hws]
  exact congrArg (fun ps => { grp s u with pend := ps }) hpend

theorem actsOn_flushH {s : State} {u : Nat} (hg : (tGet? s.groups u).isSome = true) (hp : NoPendH s u) (l : Nat) : ActsOn u [] s (flushH s u l) where
  rest := rfl
  here := isSome_modGrp ..
  group := by rw [grp_flushH hg hp]
  length := by rw [grp_flushH hg hp]
  others k _ := by rw [lane, lane, grp_flushH hg hp]
  fresh := Nat.le_refl _
  pend id _ := by rw [grp_flushH hg hp]

theorem takeCommits_depth (ln : Lane) : (takeCommits ln).depth = ln.depth := by rw [takeCommits_eq]

/-- A lane's trap: its commits taken, the results of the last-result file written, the handler entered. -/
theorem trapLane_eq {s : State} {u l : Nat} {t : TrapInfo} (hd : (lane (modLane s u l takeCommits) u l).depth ≠ 4) :
    trapLane s u l t = modLane (takeFresh (flushH (modLane s u l takeCommits) u l)).2 u l (fun ln =>
      trapEnter (gangOf (modLane s u l takeCommits) u).privsz u l (takeFresh (flushH (modLane s u l takeCommits) u l)).1 ln t) :=
  if_neg hd

/-- What is written for a trap where nothing of the last-result file is pending: a number is taken. -/
theorem takeFresh_flushH {s : State} {u : Nat} (hg : (tGet? s.groups u).isSome = true) (hp : NoPendH s u) (l : Nat) :
    ActsOn u [] s (takeFresh (flushH s u l)).2 ∧ (takeFresh (flushH s u l)).2.tlbs = s.tlbs ∧ grp (takeFresh (flushH s u l)).2 u = grp s u :=
  ⟨(actsOn_flushH hg hp l).trans_same (actsOn_fresh u (flushH s u l) _ _ (Nat.le_succ _)), rfl, grp_flushH hg hp l⟩

theorem lane_takeCommits {s : State} {u l : Nat} (hg : (tGet? s.groups u).isSome = true) (hl : l < (grp s u).lanes.length) :
    lane (modLane s u l takeCommits) u l = takeCommits (lane s u l) := by rw [lane_modLane s u l l _ hg hl, if_pos rfl]

theorem NoPendH.modLane {s : State} {u : Nat} (hp : NoPendH s u) (hg : (tGet? s.groups u).isSome = true) (l : Nat) (f : Lane → Lane) :
    NoPendH (modLane s u l f) u := by
  rw [NoPendH, grp_modLane hg]
  exact hp

/-- A lane whose commits are past takes a trap, and no other lane. -/
theorem trapLane_lane {s : State} {u l : Nat} (hg : (tGet? s.groups u).isSome = true) (hl : l < (grp s u).lanes.length) (hp : NoPendH s u)
    (hd : (lane s u l).depth ≠ 4) (t : TrapInfo) :
    ActsOn u [l] s (trapLane s u l t) ∧ (trapLane s u l t).tlbs = s.tlbs ∧ (grp (trapLane s u l t) u).pend = (grp s u).pend ∧
      ∃ id, lane (trapLane s u l t) u l = trapEnter (gangOf s u).privsz u l id (takeCommits (lane s u l)) t := by
  have a1 : ActsOn u [l] s (modLane s u l takeCommits) := actsOn_modLane hg l _
  have hl1 := lane_takeCommits hg hl
  have hp1 := hp.modLane hg l takeCommits
  have hpend1 : (grp (modLane s u l takeCommits) u).pend = (grp s u).pend := by rw [grp_modLane hg]; rfl
  have ht1 : (modLane s u l takeCommits).tlbs = s.tlbs := rfl
  rw [trapLane_eq (by rw [hl1, takeCommits_depth]; exact hd)]
  generalize modLane s u l takeCommits = s1 at *
  have hg1 : (tGet? s1.groups u).isSome = true := a1.here.trans hg
  obtain ⟨a2, ht2, hgrp2⟩ := takeFresh_flushH hg1 hp1 l
  generalize (takeFresh (flushH s1 u l)).1 = id
  generalize (takeFresh (flushH s1 u l)).2 = s2 at *
  have hg2 : (tGet? s2.groups u).isSome = true := a2.here.trans hg1
  have hl2 : l < (grp s2 u).lanes.length := by rw [hgrp2, a1.length]; exact hl
  refine ⟨(a1.trans_same (a2.mono (by simp))).trans_same (actsOn_modLane hg2 l _), ht2.trans ht1, ?_, id, ?_⟩
  · rw [grp_modLane hg2, ← hpend1, ← hgrp2]
    rfl
  · rw [lane_modLane s2 u l l _ hg2 hl2, if_pos rfl, a1.gangOf, lane, hgrp2, ← hl1]
    rfl

/-- A lane that is not in the double-fault handler takes its trap, and no other lane. -/
theorem trapRegion_lane {s : State} {u l : Nat} (hg : (tGet? s.groups u).isSome = true) (hl : l < (grp s u).lanes.length) (hp : NoPendH s u)
    (hd : (lane s u l).depth ≠ 4) (c : Cause) (v pc : W64) :
    ActsOn u [l] s (trapRegion s u l c v pc) ∧ (trapRegion s u l c v pc).tlbs = s.tlbs ∧ (grp (trapRegion s u l c v pc) u).pend = (grp s u).pend ∧
      ∃ id, lane (trapRegion s u l c v pc) u l =
        trapEnter (gangOf s u).privsz u l id (takeCommits (lane s u l)) (trapAtRegion (takeCommits (lane s u l)) c v pc) := by
  have a1 : ActsOn u [l] s (modLane s u l takeCommits) := actsOn_modLane hg l _
  have hl1 := lane_takeCommits hg hl
  have hpend1 : (grp (modLane s u l takeCommits) u).pend = (grp s u).pend := by rw [grp_modLane hg]; rfl
  obtain ⟨a2, ht2, hpend2, id, h2⟩ := trapLane_lane (a1.here.trans hg) (by rw [a1.length]; exact hl) (hp.modLane hg l takeCommits)
    (by rw [hl1, takeCommits_depth]; exact hd) (trapAtRegion (lane (modLane s u l takeCommits) u l) c v pc)
  refine ⟨a1.trans_same a2, ht2, hpend2.trans hpend1, id, ?_⟩
  rw [hl1, takeCommits_idem, a1.gangOf] at h2
  rw [trapRegion, hl1]
  exact h2

/-- A trap that restarts at REGPC, as R295 and R296 have it. -/
theorem trapped_trapRegion {p : Nat} {ln : Lane} (hf : FrameLeft p ln) (hr : ln.recs.length = 5) (u l id : Nat) (c : Cause) (v pc : W64) :
    Trapped p (takeCommits ln) (trapEnter p u l id (takeCommits ln) (trapAtRegion (takeCommits ln) c v pc)) c v pc (curRec (takeCommits ln)).regpc
      (curRec (takeCommits ln)).reghdr := by
  obtain ⟨hp, hd⟩ := hf
  exact trapped_trapEnter (ln := takeCommits ln) ⟨hp, by rw [takeCommits_depth]; exact hd⟩ (by rw [takeCommits_eq, length_recsTaken, hr]) u l id _

end Sys2Proof.Machine
end

section
/-! The trap that an access meets at its owner, wherever its lane is (R123, R125). -/

-- one declaration after another, so that the text as a whole is checked within its memory
set_option Elab.async false

namespace Sys2Proof.Machine

/-! ### What is given back to the lane -/

/-- Only POS and the last-result file are given back. -/
theorem undoLane_rest (ln : Lane) (un : Option Undo) : { undoLane ln un with q := ln.q, h0 := ln.h0, h1 := ln.h1 } = ln := by
  unfold undoLane
  cases un with
  | none => rfl
  | some x =>
    dsimp only
    split
    · rfl
    · split <;> rfl

/-- A lane with other notes of its acquires and its waits. -/
def renoted (ln : Lane) (a : Nat) (h : List Nat) (r : Nat) : Lane := { ln with acqStep := a, held := h, readyAt := r }

theorem undoLane_renoted (ln : Lane) (un : Option Undo) (a : Nat) (h : List Nat) (r : Nat) :
    undoLane (renoted ln a h r) un = renoted (undoLane ln un) a h r := by
  unfold undoLane renoted
  cases un with
  | none => rfl
  | some x =>
    dsimp only
    split
    · rfl
    · split <;> rfl

/-! ### A commit that fails -/

/-- The records of a lane whose commit `acc` fails. -/
def recsFailed (ln : Lane) (acc : Nat) : List Region :=
  match ln.commits.find? (fun c => c.acc == acc) with
  | none => recsTaken ln.recs ln.commits
  | some c => setNth (recsTaken ln.recs (ln.commits.filter (fun c => c.acc != acc))) c.depth c.before

/-- What the frame of the level of a commit that fails below is told. -/
def fifoFailed (p u l id acc : Nat) (ln : Lane) : List FEntry :=
  match ln.commits.find? (fun c => c.acc == acc) with
  | none => ln.fifo
  | some c =>
    if c.depth < ln.depth then
      (privStore (privStore ln u l id (frameAt p (nextDepth p c.depth)) (leBytes 8 c.before.regpc.toNat)) u l id (frameAt p (nextDepth p c.depth) + 48)
        (leBytes 8 c.before.reghdr.toNat)).fifo
    else ln.fifo

/-- A lane whose commit c fails, before the frame of its level is told. -/
def failedLane (ln : Lane) (c : Commit) (acc : Nat) : Lane :=
  { takeCommits (commitCut ln acc) with recs := setNth (takeCommits (commitCut ln acc)).recs c.depth c.before }

theorem failedLane_depth (ln : Lane) (c : Commit) (acc : Nat) : (failedLane ln c acc).depth = ln.depth := takeCommits_depth (commitCut ln acc)

theorem commitFail_none {ln : Lane} {acc : Nat} (h : ln.commits.find? (fun c => c.acc == acc) = none) (p u l id : Nat) :
    commitFail p u l id acc ln = takeCommits ln := by rw [commitFail, h]

theorem commitFail_some {ln : Lane} {acc : Nat} {c : Commit} (h : ln.commits.find? (fun c => c.acc == acc) = some c) (p u l id : Nat) :
    commitFail p u l id acc ln = { failedLane ln c acc with fifo := fifoFailed p u l id acc ln } := by
  have hcut : (takeCommits (commitCut ln acc)).fifo = ln.fifo := by rw [takeCommits_eq]; rfl
  have hif : commitFail p u l id acc ln = if c.depth < (failedLane ln c acc).depth then
      privStore (privStore (failedLane ln c acc) u l id (frameAt p (nextDepth p c.depth)) (leBytes 8 c.before.regpc.toNat)) u l id
        (frameAt p (nextDepth p c.depth) + 48) (leBytes 8 c.before.reghdr.toNat)
      else failedLane ln c acc := by
    rw [commitFail, h]
    rfl
  rw [hif, failedLane_depth, fifoFailed, h]
  by_cases hd : c.depth < ln.depth
  · rw [if_pos hd]
    dsimp only
    rw [if_pos hd, privStore, privStore, privStore, privStore, ← hcut]
    rfl
  · rw [if_neg hd]
    dsimp only
    rw [if_neg hd, ← hcut]
    rfl

theorem commitFail_eq (p u l id acc : Nat) (ln : Lane) : commitFail p u l id acc ln =
    { ln with recs := recsFailed ln acc, fifo := fifoFailed p u l id acc ln, commits := (commitFail p u l id acc ln).commits } := by
  cases h : ln.commits.find? (fun c => c.acc == acc) with
  | none =>
    rw [commitFail_none h, recsFailed, fifoFailed, h]
    dsimp only
    rw [takeCommits_eq]
  | some c =>
    rw [commitFail_some h, recsFailed, h, failedLane, takeCommits_eq]
    rfl

theorem commitFail_taken (p u l id acc : Nat) (ln : Lane) : ∀ c ∈ (commitFail p u l id acc ln).commits, c.taken = true := by
  cases h : ln.commits.find? (fun c => c.acc == acc) with
  | none =>
    rw [commitFail_none h]
    exact takeCommits_taken ln
  | some c =>
    rw [commitFail_some h]
    exact takeCommits_taken (commitCut ln acc)

theorem length_recsFailed (ln : Lane) (acc : Nat) : (recsFailed ln acc).length = ln.recs.length := by
  unfold recsFailed
  split
  · exact length_recsTaken ..
  · rw [length_setNth, length_recsTaken]

/-- The record at which the lane restarts, by its level and that of its commit. -/
theorem curRec_failed {ln : Lane} {acc d : Nat} (hd : d < ln.recs.length) : nth {} (recsFailed ln acc) d =
    match ln.commits.find? (fun c => c.acc == acc) with
    | some c => if c.depth = d then c.before else nth {} (recsTaken ln.recs (ln.commits.filter (fun c => c.acc != acc))) d
    | none => nth {} (recsTaken ln.recs ln.commits) d := by
  unfold recsFailed
  cases ln.commits.find? (fun c => c.acc == acc) with
  | none => rfl
  | some c =>
    dsimp only
    rw [nth_setNth, length_recsTaken]
    by_cases h : c.depth = d
    · rw [if_pos ⟨h, by rw [h]; exact hd⟩, if_pos h]
    · rw [if_neg (fun hh => h hh.1), if_neg h]

end Sys2Proof.Machine
end

section
/-! A lane that takes the trap of its access late (R123, R125): as the statement words it. -/

-- one declaration after another, so that the text as a whole is checked within its memory
set_option Elab.async false

namespace Sys2Proof.Machine

/-! ### The slice of a lane's own past an entry elsewhere -/

/-- An entry that covers no byte of a run gives none. -/
theorem privBytes_skip {ln : Lane} {fs : List FEntry} {e : FEntry} {bs : List Byte} {a n : Nat} (h : ln.fifo = fs ++ [e]) (hact : e.act = .priv bs)
    (hpa : a + n ≤ e.pa ∨ e.pa + bs.length ≤ a) : privBytes ln a n = privBytes { ln with fifo := fs } a n := by
  rw [privBytes_eq_map, privBytes_eq_map]
  refine List.map_congr_left (fun i hi => ?_)
  have hi := List.mem_range.1 hi
  rw [privByte, privByte, h, fifoPriv, List.foldl_append, List.foldl_cons, List.foldl_nil, hact]
  dsimp only
  rw [if_neg (by omega)]
  rfl

theorem leNat_leBytes_word (x : W64) : leNat (leBytes 8 x.toNat) = x.toNat := by
  rw [leNat_leBytes]
  exact Nat.mod_eq_of_lt (Nat.lt_of_lt_of_le x.isLt (by decide))

theorem depthLimit_eq (p : Nat) : depthLimit p = min 3 (p / 64 - 1) := rfl

/-- The entry of a frame, or of a field of one (R294). -/
def frameEntry (u l id a : Nat) (bs : List Byte) : FEntry :=
  { id := id, uid := u, lane := l, acc := 0, act := .priv bs, owner := 0, pa := a, va := 0, size := bs.length, sem := .plain, scope := .core }

theorem privStore_fifo (ln : Lane) (u l id a : Nat) (bs : List Byte) : (privStore ln u l id a bs).fifo = ln.fifo ++ [frameEntry u l id a bs] := rfl

/-- The address of the frame that a trap writes (R294). -/
def trapFrame (p depth : Nat) : Nat := if depth = depthLimit p then p - 64 else p - 64 - 64 * (depth + 1)

/-- A trap adds its frame to the FIFO. -/
theorem trapEnter_fifo {p : Nat} {ln : Lane} (hf : FrameLeft p ln) (u l id : Nat) (t : TrapInfo) :
    ∃ e bs, (trapEnter p u l id ln t).fifo = ln.fifo ++ [e] ∧ e.act = .priv bs ∧ bs.length = 64 ∧ e.pa = trapFrame p ln.depth := by
  obtain ⟨-, hd⟩ := hf
  by_cases h : ln.depth = depthLimit p
  · rw [trapEnter_full h, trapFrame, if_pos h]
    exact ⟨_, _, rfl, rfl, length_frameBytes .., rfl⟩
  · rw [trapEnter_left h (by rw [depthLimit_eq] at h; omega), trapFrame, if_neg h]
    exact ⟨_, _, rfl, rfl, length_frameBytes .., rfl⟩

/-! ### The lane before its trap -/

/-- A lane whose access traps late, before it enters the handler. -/
def lateLane (p u l id acc : Nat) (un : Option Undo) (cyc : Nat) (ln : Lane) : Lane :=
  { commitFail p u l id acc (undoLane ln un) with readyAt := cyc, qdue := [], eldAcc := none }

/-- What an undo gives back, whatever the lane's notes. -/
theorem undoLane_eq (ln : Lane) (un : Option Undo) : ∃ q h0 h1, undoLane ln un = { ln with q := q, h0 := h0, h1 := h1 } ∧
    ∀ a h r, undoLane (renoted ln a h r) un = { renoted ln a h r with q := q, h0 := h0, h1 := h1 } := by
  have heq : undoLane ln un = { ln with q := (undoLane ln un).q, h0 := (undoLane ln un).h0, h1 := (undoLane ln un).h1 } :=
    (congrArg (fun x : Lane => { x with q := (undoLane ln un).q, h0 := (undoLane ln un).h0, h1 := (undoLane ln un).h1 }) (undoLane_rest ln un) :)
  refine ⟨_, _, _, heq, fun a h r => ?_⟩
  rw [undoLane_renoted]
  exact congrArg (renoted · a h r) heq

section Late

variable {p : Nat} {old ln : Lane} {a r : Nat} {h : List Nat} (hln : ln = renoted old a h r) (u l id acc : Nat) (un : Option Undo) (cyc : Nat)

include hln

theorem lateLane_eq : ∃ q h0 h1 cs, undoLane old un = { old with q := q, h0 := h0, h1 := h1 } ∧ (∀ c ∈ cs, c.taken = true) ∧
    lateLane p u l id acc un cyc ln = { old with
      q := q, h0 := h0, h1 := h1, recs := recsFailed old acc, fifo := fifoFailed p u l id acc old, commits := cs, acqStep := a, held := h, readyAt := cyc,
      qdue := [], eldAcc := none } := by
  subst hln
  obtain ⟨q, h0, h1, hun, hall⟩ := undoLane_eq old un
  refine ⟨q, h0, h1, _, hun, commitFail_taken p u l id acc (undoLane (renoted old a h r) un), ?_⟩
  rw [lateLane, commitFail_eq, hall]
  rfl

end Late

/-- The record that a late trap restarts at is the one of the lane whose commit failed. -/
theorem trappedLate_trapEnter {p : Nat} {e : FEntry} {old ln mid : Lane} {a r : Nat} {h : List Nat} (hln : ln = renoted old a h r) (hf : FrameLeft p old)
    (ht : TidyLane old) (id cyc id' : Nat) (c : Cause) (hmid : mid = lateLane p e.uid e.lane id e.acc e.undo cyc ln) :
    TrappedLate p e old (trapEnter p e.uid e.lane id' mid (trapAtRegion mid c e.va e.pc)) c := by
  obtain ⟨q, h0, h1, cs, hun, -, hlate⟩ := lateLane_eq (p := p) hln e.uid e.lane id e.acc e.undo cyc
  rw [← hmid] at hlate
  have hdepth : mid.depth = old.depth := by rw [hlate]
  have hfm : FrameLeft p mid := ⟨hf.1, by rw [hdepth]; exact hf.2⟩
  have hd5 : old.depth < old.recs.length := by have := hf.2; rw [ht.recs]; omega
  have hrec : curRec mid = nth {} (recsFailed old e.acc) old.depth := by rw [hlate]; rfl
  have hfifo : mid.fifo = fifoFailed p e.uid e.lane id e.acc old := by rw [hlate]
  have htrap := trapped_trapEnter (ln := mid) hfm (by rw [hlate]; exact (length_recsFailed ..).trans ht.recs) e.uid e.lane id'
    (trapAtRegion mid c e.va e.pc)
  have htake (xs : List Commit) : nth {} (recsTaken old.recs xs) old.depth = curRec (takeCommits { old with commits := xs }) := by rw [takeCommits_eq]; rfl
  refine ⟨mid, ?_, ?_, fun hle => ?_, fun x hx hlt => ?_⟩
  · refine (congrArg (fun r : Region => Trapped p mid (trapEnter p e.uid e.lane id' mid (trapAtRegion mid c e.va e.pc)) c e.va e.pc r.regpc r.reghdr) ?_ :
      _ = _).mp htrap
    rw [hrec, curRec_failed hd5]
    cases old.commits.find? (fun c => c.acc == e.acc) with
    | none => exact htake _
    | some x => dsimp only; rw [htake]; rfl
  · rw [hlate, hun]
  · rw [hfifo, fifoFailed]
    cases hfind : old.commits.find? (fun c => c.acc == e.acc) with
    | none => rfl
    | some x => exact if_neg (Nat.not_lt.2 (hle x hfind))
  · obtain ⟨f, bs, hnew, hact, hlen, hpa⟩ := trapEnter_fifo hfm e.uid e.lane id' (trapAtRegion mid c e.va e.pc)
    have hdp := hf.2
    have hnext : frameAt p (nextDepth p x.depth) = p - 64 - 64 * (x.depth + 1) := by
      rw [nextDepth, depthLimit_eq, if_neg (by omega), frameAt, if_neg (by omega)]
    have hold : mid.fifo = old.fifo ++ [frameEntry e.uid e.lane id (p - 64 - 64 * (x.depth + 1)) (leBytes 8 x.before.regpc.toNat)] ++
        [frameEntry e.uid e.lane id (p - 64 - 64 * (x.depth + 1) + 48) (leBytes 8 x.before.reghdr.toNat)] := by
      rw [hfifo, fifoFailed, hx]
      dsimp only
      rw [if_pos hlt, hnext, privStore_fifo, privStore_fifo]
    have hframe : p - 64 - 64 * (x.depth + 1) + 64 ≤ f.pa ∨ f.pa + bs.length ≤ p - 64 - 64 * (x.depth + 1) := by
      rw [hpa, hlen, hdepth, trapFrame, depthLimit_eq]
      split <;> omega
    generalize trapEnter p e.uid e.lane id' mid (trapAtRegion mid c e.va e.pc) = new at *
    have hlow : privBytes new (p - 64 - 64 * (x.depth + 1)) 8 = leBytes 8 x.before.regpc.toNat := by
      rw [privBytes_skip hnew hact (by omega), privBytes_skip (ln := { new with fifo := mid.fifo }) hold rfl (.inl (by show _ ≤ _ + 48; omega))]
      have hgot := privBytes_entered (ln := { new with fifo := old.fifo ++ [frameEntry e.uid e.lane id (p - 64 - 64 * (x.depth + 1))
        (leBytes 8 x.before.regpc.toNat)] }) rfl rfl rfl
      rwa [length_leBytes] at hgot
    have hhigh : privBytes new (p - 64 - 64 * (x.depth + 1) + 48) 8 = leBytes 8 x.before.reghdr.toNat := by
      rw [privBytes_skip hnew hact (by omega)]
      have hgot := privBytes_entered (ln := { new with fifo := mid.fifo }) hold rfl rfl
      rwa [length_leBytes] at hgot
    exact ⟨(congrArg leNat hlow).trans (leNat_leBytes_word _), (congrArg leNat hhigh).trans (leNat_leBytes_word _)⟩

end Sys2Proof.Machine
end

section
/-! What an `est` and an `erel` do at the owner of their cell (R138, R231, R232, R236). -/

-- one declaration after another, so that the text as a whole is checked within its memory
set_option Elab.async false

namespace Sys2Proof.Machine

/-! ### The late trap in its state -/

/-- The access of an `eld` that a lane still holds ends with a late trap. -/
def gotEnded (s : State) (u l : Nat) : State :=
  match (lane s u l).eldGot with
  | some p => endAcc s u p.1.acc
  | none => s

theorem trapLate_eq {s : State} {u l : Nat} (h : (lane s u l).st ≠ .exited) (acc : Nat) (un : Option Undo) (c : Cause) (v pc : W64) :
    trapLate s u l acc un c v pc =
      trapRegion (modLane (takeFresh (flushH (gotEnded s u l) u l)).2 u l
        (lateLane (gangOf (gotEnded s u l) u).privsz u l (takeFresh (flushH (gotEnded s u l) u l)).1 acc un ((gotEnded s u l).cycle + 1))) u l c v pc :=
  if_neg h

theorem settles_gotEnded {s : State} {u l : Nat} (hg : (tGet? s.groups u).isSome = true) : Settles u l s (gotEnded s u l) := by
  unfold gotEnded
  split
  · exact settles_modGrp hg l _ (accEnded_kept ..)
  · exact .refl ..

theorem Settles.renoted {u l : Nat} {s t : State} (h : Settles u l s t) : ∃ a k r, Machine.lane t u l = renoted (Machine.lane s u l) a k r :=
  ⟨_, _, _, (congrArg (Machine.renoted · (Machine.lane t u l).acqStep (Machine.lane t u l).held (Machine.lane t u l).readyAt) h.lane :)⟩

theorem Settles.st {u l : Nat} {s t : State} (h : Settles u l s t) : (Machine.lane t u l).st = (Machine.lane s u l).st := (congrArg Lane.st h.lane :)

/-- A lane takes the trap that its entry meets at the owner. -/
theorem trappedLate_trapLate {s t : State} {e : FEntry} (hset : Settles e.uid e.lane s t) (hg : (tGet? s.groups e.uid).isSome = true)
    (hl : e.lane < (grp s e.uid).lanes.length) (hst : (lane s e.uid e.lane).st ≠ .exited) (ht : TidyLane (lane s e.uid e.lane)) (hp : NoPendH s e.uid)
    (hf : FrameLeft (gangOf s e.uid).privsz (lane s e.uid e.lane)) (c : Cause) :
    TrappedLate (gangOf s e.uid).privsz e (lane s e.uid e.lane) (lane (trapLate t e.uid e.lane e.acc e.undo c e.va e.pc) e.uid e.lane) c := by
  have hst' : (lane t e.uid e.lane).st ≠ .exited := by rwa [hset.st]
  rw [trapLate_eq hst']
  have h1 := hset.trans (settles_gotEnded (l := e.lane) (hset.here.trans hg))
  generalize gotEnded t e.uid e.lane = s1 at *
  have hp1 : NoPendH s1 e.uid := by rw [NoPendH, h1.pend]; exact hp
  have hg1 : (tGet? s1.groups e.uid).isSome = true := h1.here.trans hg
  obtain ⟨a2, -, hgrp2⟩ := takeFresh_flushH hg1 hp1 e.lane
  generalize (takeFresh (flushH s1 e.uid e.lane)).1 = id
  generalize (takeFresh (flushH s1 e.uid e.lane)).2 = s2 at *
  have hg2 : (tGet? s2.groups e.uid).isSome = true := a2.here.trans hg1
  have hl2 : e.lane < (grp s2 e.uid).lanes.length := by rw [hgrp2, h1.length]; exact hl
  have hp2 : NoPendH s2 e.uid := by rw [NoPendH, hgrp2]; exact hp1
  obtain ⟨a, k, r, hln⟩ := h1.renoted
  have hlane2 : lane s2 e.uid e.lane = lane s1 e.uid e.lane := by rw [lane, lane, hgrp2]
  rw [h1.gangOf]
  have hgang2 : gangOf s2 e.uid = gangOf s e.uid := a2.gangOf.trans h1.gangOf
  have hmid : lane (modLane s2 e.uid e.lane (lateLane (gangOf s e.uid).privsz e.uid e.lane id e.acc e.undo (s1.cycle + 1))) e.uid e.lane =
      lateLane (gangOf s e.uid).privsz e.uid e.lane id e.acc e.undo (s1.cycle + 1) (lane s1 e.uid e.lane) := by
    rw [lane_modLane s2 e.uid e.lane e.lane _ hg2 hl2, if_pos rfl, hlane2]
  obtain ⟨q, h0, h1', cs, -, htaken, hlate⟩ := lateLane_eq (p := (gangOf s e.uid).privsz) hln e.uid e.lane id e.acc e.undo (s1.cycle + 1)
  have a3 := actsOn_modLane hg2 e.lane (lateLane (gangOf s e.uid).privsz e.uid e.lane id e.acc e.undo (s1.cycle + 1))
  have hp3 := hp2.modLane hg2 e.lane (lateLane (gangOf s e.uid).privsz e.uid e.lane id e.acc e.undo (s1.cycle + 1))
  generalize modLane s2 e.uid e.lane (lateLane (gangOf s e.uid).privsz e.uid e.lane id e.acc e.undo (s1.cycle + 1)) = s3 at *
  have hdep : (lane s3 e.uid e.lane).depth ≠ 4 := by
    rw [hmid, hlate]
    have := hf.2
    show (lane s e.uid e.lane).depth ≠ 4
    omega
  have hpast : takeCommits (lane s3 e.uid e.lane) = lane s3 e.uid e.lane := takeCommits_of_taken (by rw [hmid, hlate]; exact htaken)
  obtain ⟨-, -, -, id', htrap⟩ := trapRegion_lane (a3.here.trans hg2) (by rw [a3.length]; exact hl2) hp3 hdep c e.va e.pc
  rw [htrap, hpast, a3.gangOf, hgang2]
  exact trappedLate_trapEnter hln hf ht id (s1.cycle + 1) id' c hmid

/-! ### The owner steps -/

section Edition

variable {s : State} {e : FEntry} {D : EdDesc} {i desc : Nat} (he : s.errors = []) (hD : edDesc s desc = .ok D) (hi : edIndex D e.va = some i)

include he in
theorem edMet_nil (k owner : Nat) (va : W64) (ed : Option Nat) : edMet s k desc owner va ed = s := by
  unfold edMet
  rw [meetHbm_nil he]
  dsimp only
  split
  · split
    · rw [meetHbm_nil he, meetHbm_nil he]
    · rfl
  · rfl

include he hD hi

theorem performEntry_est {bs : List Byte} (hact : e.act = .est bs desc) :
    performEntry s e = entryDone (edStore s D e.owner i (e.va.toNat % 8) bs).1 e (edStore s D e.owner i (e.va.toNat % 8) bs).2 := by
  have hmet : ownerMet s e = s := by rw [ownerMet, hact]; exact edMet_nil he ..
  have hstep : ownerStep s e = ((edStore s D e.owner i (e.va.toNat % 8) bs).1, some (edStore s D e.owner i (e.va.toNat % 8) bs).2) := by
    rw [ownerStep, hact]
    dsimp only
    rw [hD]
    dsimp only
    rw [hi]
  rw [performEntry, hmet, hstep]

theorem performEntry_erel {m : W32} (hact : e.act = .erel m desc) (hp : poisoned s.poison (edCell D e.owner i) 16 = false) :
    performEntry s e = entryDone (edRelease s D e.owner i m.toNat) e (.val 0) := by
  have hmet : ownerMet s e = s := by rw [ownerMet, hact]; exact edMet_nil he ..
  have hstep : ownerStep s e = (edRelease s D e.owner i m.toNat, some (.val 0)) := by
    rw [ownerStep, hact]
    dsimp only
    rw [hD]
    dsimp only
    rw [hi]
    dsimp only
    rw [hp, if_neg Bool.false_ne_true]
  rw [performEntry, hmet, hstep]

end Edition

end Sys2Proof.Machine
end

section
/-! The memory of a cell after an `est` and after an `erel` (R231, R236), and what O37 makes of both. -/

-- one declaration after another, so that the text as a whole is checked within its memory
set_option Elab.async false

namespace Sys2Proof.Machine

theorem nth_rdBytes (s : State) (k : Nat) {n j : Nat} (h : j < n) : nth 0 (rdBytes s k n) j = rdByte s (k + j) := by
  rw [nth_eq_getD, rdBytes_eq_map]
  simp [h]

theorem length_rdBytes (s : State) (k n : Nat) : (rdBytes s k n).length = n := by rw [rdBytes_eq_map, List.length_map, List.length_range]

/-! ### The next edition (R231) -/

theorem length_edReplace {old bs : List Byte} {ofs : Nat} (h : ofs + bs.length ≤ old.length) : (edReplace old ofs bs).length = old.length := by
  simp only [edReplace, List.length_append, List.length_take, List.length_drop]
  omega

/-- The accessed bytes, and the old ones elsewhere. -/
theorem nth_edReplace {old bs : List Byte} {ofs : Nat} (h : ofs + bs.length ≤ old.length) (j : Nat) :
    nth 0 (edReplace old ofs bs) j = if ofs ≤ j ∧ j < ofs + bs.length then bs.getD (j - ofs) 0 else nth 0 old j := by
  have htake : (old.take ofs).length = ofs := by rw [List.length_take]; omega
  rw [nth_eq_getD, nth_eq_getD, edReplace, List.append_assoc]
  by_cases h1 : j < ofs
  · rw [if_neg (by omega), List.getD_append _ _ _ _ (by omega)]
    simp [List.getD, h1]
  · rw [List.getD_append_right _ _ _ _ (by omega), htake]
    by_cases h2 : j < ofs + bs.length
    · rw [if_pos ⟨by omega, h2⟩, List.getD_append _ _ _ _ (by omega)]
    · rw [if_neg (by omega), List.getD_append_right _ _ _ _ (by omega)]
      simp only [List.getD, List.getElem?_drop]
      rw [show ofs + bs.length + (j - ofs - bs.length) = j by omega]

section Create

variable {s : State} (hns : NoSnap s) (D : EdDesc) (owner i : Nat) {bs : List Byte} (hbs : bs.length = 8)

/-- The slot of the cell's next edition. -/
abbrev nextSlot (s : State) (D : EdDesc) (owner i : Nat) : Nat := edSlot D owner i (edNewest s (edCell D owner i) + 1)

theorem rdByte_edCreate (bs : List Byte) (j : Nat) : rdByte (edCreate s D owner i bs) j =
    rdByte (ownerWrite (ownerWrite s (nextSlot s D owner i) D.dclass bs) (edCell D owner i) .proof (leBytes 4 (edNewest s (edCell D owner i) + 1))) j := rfl

include hns

theorem edCreate_groups (bs : List Byte) : (edCreate s D owner i bs).groups = s.groups :=
  (ownerWrite_groups (ownerWrite_noSnap hns (nextSlot s D owner i) D.dclass bs) (edCell D owner i) .proof
    (leBytes 4 (edNewest s (edCell D owner i) + 1))).trans (ownerWrite_groups hns ..)

theorem rdNat_edCreate_newest (bs : List Byte) (hn : edNewest s (edCell D owner i) < 2 ^ 32 - 1) :
    rdNat (edCreate s D owner i bs) (edCell D owner i) 4 = edNewest s (edCell D owner i) + 1 := by
  rw [rdNat_congr (fun j _ _ => rdByte_edCreate D owner i bs j), rdNat_ownerWrite (ownerWrite_noSnap hns _ _ _)]
  exact Nat.mod_eq_of_lt (by omega)

include hbs

theorem rdByte_edCreate_slot {j : Nat} (hj : j < 8) (hapart : nextSlot s D owner i + 8 ≤ edCell D owner i ∨ edCell D owner i + 16 ≤ nextSlot s D owner i) :
    rdByte (edCreate s D owner i bs) (nextSlot s D owner i + j) = nth 0 bs j := by
  rw [rdByte_edCreate, rdByte_ownerWrite_other (ownerWrite_noSnap hns _ _ _) _ _ _ (by rw [length_leBytes]; omega), rdByte_ownerWrite hns,
    if_pos (by rw [hbs]; omega), Nat.add_sub_cancel_left]

theorem rdByte_edCreate_other {j : Nat} (hc : j < edCell D owner i ∨ edCell D owner i + 4 ≤ j)
    (hk : j < nextSlot s D owner i ∨ nextSlot s D owner i + 8 ≤ j) : rdByte (edCreate s D owner i bs) j = rdByte s j := by
  rw [rdByte_edCreate, rdByte_ownerWrite_other (ownerWrite_noSnap hns _ _ _) _ _ _ (by rwa [length_leBytes]),
    rdByte_ownerWrite_other hns _ _ _ (by rwa [hbs])]

end Create

theorem edStore_new {s : State} {D : EdDesc} {owner i : Nat} (hm : poisoned s.poison (edCell D owner i) 16 = false)
    (hk : poisoned s.poison (edSlot D owner i (edNewest s (edCell D owner i))) 8 = false) (hn : edNewest s (edCell D owner i) < 2 ^ 32 - 1)
    (ofs : Nat) (bs : List Byte) : edStore s D owner i ofs bs =
      (edCreate s D owner i (edReplace (edBytes s D owner i (edNewest s (edCell D owner i))) ofs bs), .val (edNewest s (edCell D owner i) + 1)) := by
  rw [edStore]
  dsimp only
  rw [hm, hk, if_neg Bool.false_ne_true, if_neg (Nat.ne_of_lt hn), if_neg (fun h => Bool.false_ne_true h.2)]

theorem edStore_last {s : State} {D : EdDesc} {owner i : Nat} (hm : poisoned s.poison (edCell D owner i) 16 = false)
    (hn : edNewest s (edCell D owner i) = 2 ^ 32 - 1) (ofs : Nat) (bs : List Byte) : edStore s D owner i ofs bs = (s, .trap .editionOverflow) := by
  rw [edStore]
  dsimp only
  rw [hm, if_neg Bool.false_ne_true, if_pos hn]

/-! ### A trap leaves memory alone -/

theorem entryDone_trap_mem (s : State) (e : FEntry) (c : Cause) : (entryDone s e (.trap c)).mem = s.mem := by
  by_cases hg : (tGet? s.groups e.uid).isSome = true
  · rw [entryDone_eq hg]
    exact (trapLate_mem ..).trans ((wakeHeld_mem ..).trans (stepNoted_mem ..))
  · have hnone : (tGet? (stepNoted s e).groups e.uid).isNone = true := by
      rw [← Option.not_isSome, stepNoted_here]
      simpa using hg
    exact (congrArg State.mem (if_pos hnone)).trans (stepNoted_mem s e)

/-! ### A release mark (R236) -/

section Release

variable {s : State} (hns : NoSnap s) (D : EdDesc) (owner i m : Nat)

/-- The mark that a release leaves. -/
def markAfter (s : State) (cell m : Nat) : Nat := if edRelset s cell then max (edRelmark s cell) m else m

/-- The state after the mark, before it is said to be set. -/
def marked (s : State) (D : EdDesc) (owner i m : Nat) : State :=
  ownerWrite s (edCell D owner i + 4) .proof (leBytes 4 (markAfter s (edCell D owner i) m))

theorem edRelease_eq : edRelease s D owner i m =
    ownerWrite (marked s D owner i m) (edCell D owner i + 8) .proof (leBytes 1 (setBits (rdNat (marked s D owner i m) (edCell D owner i + 8) 1) 0 0 1)) := rfl

include hns

theorem marked_noSnap : NoSnap (marked s D owner i m) := ownerWrite_noSnap hns _ _ _

theorem rdNat_edRelease_mark (hm : m < 2 ^ 32) : rdNat (edRelease s D owner i m) (edCell D owner i + 4) 4 = markAfter s (edCell D owner i) m := by
  have hlt : markAfter s (edCell D owner i) m < 256 ^ 4 := by
    have hr : edRelmark s (edCell D owner i) < 256 ^ 4 := rdNat_lt ..
    unfold markAfter
    split
    · exact Nat.max_lt.2 ⟨hr, hm⟩
    · exact hm
  rw [edRelease_eq, rdNat_congr (fun j _ hj => rdByte_ownerWrite_other (marked_noSnap hns D owner i m) _ _ _ (.inl (by omega))), marked, rdNat_ownerWrite hns,
    Nat.mod_eq_of_lt hlt]

theorem rdNat_edRelease_set : rdNat (edRelease s D owner i m) (edCell D owner i + 8) 1 % 2 = 1 := by
  rw [edRelease_eq, rdNat_ownerWrite (marked_noSnap hns D owner i m)]
  simp only [setBits, bits]
  omega

theorem rdByte_edRelease_other {j : Nat} (hj : j < edCell D owner i + 4 ∨ edCell D owner i + 9 ≤ j) : rdByte (edRelease s D owner i m) j = rdByte s j := by
  rw [edRelease_eq, rdByte_ownerWrite_other (marked_noSnap hns D owner i m) _ _ _ (by rw [length_leBytes]; omega), marked,
    rdByte_ownerWrite_other hns _ _ _ (by rw [length_leBytes]; omega)]

end Release

theorem edRelset_iff (s : State) (cell : Nat) : edRelset s cell = true ↔ rdNat s (cell + 8) 1 % 2 = 1 := by simp [edRelset, bit]

theorem apart_of_overlaps {a n b m : Nat} (h : overlaps a n b m = false) : b + m ≤ a ∨ a + n ≤ b := by
  simp only [overlaps, Bool.and_eq_false_iff, decide_eq_false_iff_not] at h
  omega

/-- A word at a target of one register. -/
theorem getReg_entryDone_val {s : State} {e : FEntry} (hg : (tGet? s.groups e.uid).isSome = true) (hl : e.lane < (grp s e.uid).lanes.length)
    (hc : e.dest.cnt = 1) (hr : targetReg e.dest < 136) (x : Nat) :
    getReg (lane (entryDone s e (.val x)) e.uid e.lane) (targetReg e.dest) = BitVec.ofNat 32 x := by
  obtain ⟨ln, -, hln⟩ := lane_entryDone_val hg hl x
  have hset : getReg (setRegs ln (targetReg e.dest) e.dest.cnt x) (targetReg e.dest) = BitVec.ofNat 32 x := by
    rw [hc]
    exact (getReg_setReg _ _ _ _ (by omega) (by omega)).trans (if_pos rfl)
  rw [hln]
  cases e.commits with
  | false => exact hset
  | true => exact (getReg_commitDone ..).trans hset

end Sys2Proof.Machine

open Sys2Proof Sys2Proof.Machine

/-- Settles O37: the writes of an edition and of a release mark byte by byte, and the late trap at the last number. -/
theorem editionStep : Obligations.EditionStep := by
  intro s e D i desc hns he hD hi meta_ slot N hpm hps t
  refine ⟨fun bs hact hbs hlt hapart => ?_, fun bs hact hlast => ?_, fun m hact => ?_⟩
  · let new : List Byte := edReplace (edBytes s D e.owner i N) (e.va.toNat % 8) bs
    have hold : (edBytes s D e.owner i N).length = 8 := length_rdBytes ..
    have hnew : new.length = 8 := (length_edReplace (by rw [hold]; exact hbs)).trans hold
    have ht : t = entryDone (edCreate s D e.owner i new) e (.val (N + 1)) := by
      show performEntry s e = _
      rw [performEntry_est he hD hi hact, edStore_new hpm hps hlt]
      rfl
    have hbyte (j : Nat) : rdByte t j = rdByte (edCreate s D e.owner i new) j := by rw [ht, rdByte_entryDone_val]
    refine ⟨?_, fun j hj => ?_, fun j hm hk => ?_, fun hg hl hc hr => ?_⟩
    · rw [rdNat_congr (fun j _ _ => hbyte j)]
      exact rdNat_edCreate_newest hns D e.owner i new hlt
    · rw [hbyte]
      refine (rdByte_edCreate_slot hns D e.owner i hnew hj (apart_of_overlaps hapart).symm).trans ?_
      rw [nth_edReplace (by rw [hold]; exact hbs), show nth 0 (edBytes s D e.owner i N) j = rdByte s (slot N + j) from nth_rdBytes s _ hj]
    · rw [hbyte]
      exact rdByte_edCreate_other hns D e.owner i hnew hm hk
    · have hgroups := edCreate_groups hns D e.owner i new
      rw [ht, getReg_entryDone_val (by rwa [hgroups]) (by rwa [grp, hgroups]) hc hr, BitVec.toNat_ofNat]
      exact Nat.mod_eq_of_lt (by omega)
  · have ht : t = entryDone s e (.trap .editionOverflow) := by
      show performEntry s e = _
      rw [performEntry_est he hD hi hact, edStore_last hpm hlast]
    rw [ht]
    refine ⟨entryDone_trap_mem .., fun hst hg hl htidy hp hf => ?_⟩
    rw [entryDone_eq hg]
    exact trappedLate_trapLate (settles_settled hg hl) hg hl hst htidy hp hf _
  · have ht : t = entryDone (edRelease s D e.owner i m.toNat) e (.val 0) := performEntry_erel he hD hi hact hpm
    have hbyte (j : Nat) : rdByte t j = rdByte (edRelease s D e.owner i m.toNat) j := by rw [ht, rdByte_entryDone_val]
    refine ⟨?_, ?_, fun j hj => ?_⟩
    · rw [rdNat_congr (fun j _ _ => hbyte j)]
      refine (rdNat_edRelease_mark hns D e.owner i m.toNat m.isLt).trans ?_
      unfold markAfter
      exact if_congr (edRelset_iff s meta_) rfl rfl
    · rw [rdNat_congr (fun j _ _ => hbyte j)]
      exact rdNat_edRelease_set hns D e.owner i m.toNat
    · rw [hbyte]
      exact rdByte_edRelease_other hns D e.owner i m.toNat hj
end

section
/-! Accesses that end in a trap in every lane, and those that a page fault stops (R121, R123, R130, R301). -/

-- one declaration after another, so that the text as a whole is checked within its memory
set_option Elab.async false

namespace Sys2Proof.Machine

/-! ### The runner where every lane traps -/

/-- In some lanes of group u a trap was taken: beside the numbers taken nothing but these lanes has changed. -/
def TrapsOn (u : Nat) (ls : List Nat) (s t : State) : Prop := ActsOn u ls s t ∧ t.tlbs = s.tlbs ∧ (grp t u).pend = (grp s u).pend

theorem TrapsOn.trans {u : Nat} {ls ms : List Nat} {s t r : State} (h : TrapsOn u ls s t) (g : TrapsOn u ms t r) : TrapsOn u (ls ++ ms) s r :=
  ⟨h.1.trans g.1, g.2.1.trans h.2.1, g.2.2.trans h.2.2⟩

/-- Beside groups and the numbers taken, nothing has changed. -/
theorem TrapsOn.rest {u : Nat} {ls : List Nat} {s t : State} (h : TrapsOn u ls s t) : { t with groups := s.groups, fresh := s.fresh, free := s.free } = s := by
  have hrest := h.1.rest
  rwa [← h.2.1] at hrest

/-- A lane that has not taken its trap yet. -/
structure BeforeTrap (s : State) (l : Nat) (t : State) : Prop where
  here : (tGet? t.groups s.cur.uid).isSome = true
  bound : l < (grp t s.cur.uid).lanes.length
  pend : NoPendH t s.cur.uid
  gangOf : gangOf t s.cur.uid = gangOf s s.cur.uid
  cur : t.cur = s.cur
  lane : lane t s.cur.uid l = curLane s l

theorem BeforeTrap.actsOn {s t r : State} {l : Nat} {ks : List Nat} (h : BeforeTrap s l t) (g : TrapsOn s.cur.uid ks t r) (hl : l ∉ ks) : BeforeTrap s l r where
  here := g.1.here.trans h.here
  bound := by rw [g.1.length]; exact h.bound
  pend := by rw [NoPendH, g.2.2]; exact h.pend
  gangOf := g.1.gangOf.trans h.gangOf
  cur := g.1.cur.trans h.cur
  lane := (g.1.others l hl).trans h.lane

theorem modLaneG_id (g : Group) (l : Nat) : modLaneG g l (fun ln => ln) = g := by rw [modLaneG, modNth_id]

theorem modLane_id (s : State) (u l : Nat) : modLane s u l (fun ln => ln) = s := by
  rw [modLane, modGrp_congr (fun g => modLaneG_id g l), modGrp_id]

section Traps

variable {α : Type} {s : State} {os : List (Opnd × OTy)} {find : State → LaneIn → Find α} {ctr : Option Ctr} {cnt : LaneIn → α → Nat}
  {act : State → Nat → LaneIn → α → State} {c : Cause} {v : Nat → W64}

/-- Where every lane of the set ends in a trap, the traps are all that the runner does. -/
theorem runAccess_traps_eq (hp : NoPoison s) (ho : plainOps os = true) (hx : ∀ l ∈ s.cur.lanes, crosses s os l = false)
    (hfind : ∀ l ∈ s.cur.lanes, find s (laneIn s os l) = .halt (.trap c (v l))) :
    runAccess s os find ctr cnt act =
      s.cur.lanes.foldl (fun t l => trapRegion t t.cur.uid l c (v l) s.cur.pc) { s with fresh := s.fresh + 1 } := by
  have hfound {f : Nat → Found α} (hf : ∀ l, f l = ⟨laneIn s os l, find s (laneIn s os l)⟩) :
      s.cur.lanes.map f = s.cur.lanes.map (fun l => ⟨laneIn s os l, .halt (.trap c (v l))⟩) :=
    List.map_congr_left (fun l hl => by rw [hf, hfind l hl])
  have hhalts : foundHalts (s.cur.lanes.map (fun l => (⟨laneIn s os l, .halt (.trap c (v l))⟩ : Found α))) =
      s.cur.lanes.map (fun l => (l, some (.trap c (v l)))) := by rw [foundHalts, List.map_map]; rfl
  have hfaults : pageFaults (s.cur.lanes.map (fun l => (l, some (Halt.trap c (v l))))) s.cur.pc = [] := by
    rw [pageFaults, List.filterMap_map]
    exact List.filterMap_eq_nil_iff.2 (fun l _ => rfl)
  have hflags (ls : List Nat) (h : ∀ l ∈ ls, crosses s os l = false) (t : State) :
      ls.foldl (fun t l => modLane t s.cur.uid l (fun ln => setXlane ln (crosses s os l))) t = t := by
    induction ls generalizing t with
    | nil => rfl
    | cons l ls ih =>
      have hid : modLane t s.cur.uid l (fun ln => setXlane ln false) = t := modLane_id ..
      rw [List.foldl_cons, h l (by simp), hid]
      exact ih (fun k hk => h k (by simp [hk])) t
  unfold runAccess
  simp only [readAll_eq hp ho, List.map_map]
  rw [hfound]
  on_goal 2 => exact fun _ => rfl
  rw [hhalts]
  have hskip (ls : List Nat) (t : State) : ls.foldl (fun t (_ : Nat) => t) t = t := List.foldl_fixed' (fun _ => rfl) ls
  have hend (t : State) (ht : t.cur.pc = s.cur.pc) : (haltLanes t (s.cur.lanes.map (fun l => (l, some (Halt.trap c (v l)))))).1 =
      s.cur.lanes.foldl (fun t l => trapRegion t t.cur.uid l c (v l) s.cur.pc) t := by
    unfold haltLanes
    rw [ht]
    dsimp only
    rw [hfaults]
    exact List.foldl_map ..
  have hstart := (hskip s.cur.lanes _).trans (hflags s.cur.lanes hx { s with fresh := s.fresh + 1 })
  simp only [hfaults, List.isEmpty_nil, Bool.not_true, Bool.false_eq_true, if_false, List.foldl_map, takeFresh]
  cases ctr with
  | none => exact (congrArg (fun t => (haltLanes t _).1) hstart).trans (hend _ rfl)
  | some c =>
    have hzero (t : State) : beginAcc t s.cur.uid s.fresh c (s.cur.lanes.foldl (fun n _ => n) 0) = t := if_pos (List.foldl_fixed' (fun _ => rfl) s.cur.lanes)
    exact (congrArg (fun t => (haltLanes (s.cur.lanes.foldl (fun t _ => t) t) _).1) (hzero _)).trans
      ((congrArg (fun t => (haltLanes t _).1) hstart).trans (hend _ rfl))

/-- An instruction of the memory kind that ends in a trap in every lane of the set. -/
theorem trapsAll_of {i : Instr} (hs : SetOk s) (hp : NoPoison s) (ht : Tidy s) (hm : MayTrap s) (ho : plainOps os = true)
    (hx : ∀ l ∈ s.cur.lanes, crosses s os l = false) (hexec : exec i s = .next (runAccess s os find ctr cnt act))
    (hfind : ∀ l ∈ s.cur.lanes, find s (laneIn s os l) = .halt (.trap c (v l))) : TrapsAll s i c v := by
  obtain ⟨hph, hleft⟩ := hm
  have hdepth (l : Nat) (hl : l ∈ s.cur.lanes) : (curLane s l).depth ≠ 4 := by
    have := (hleft l hl).2
    omega
  obtain ⟨hacts, hdone, -⟩ := foldl_effects (Acts := TrapsOn s.cur.uid) (fun s => ⟨.refl .., rfl, rfl⟩) (fun _ _ _ _ _ h g => h.trans g)
    (act := fun t l => trapRegion t t.cur.uid l c (v l) s.cur.pc) (Ready := fun l t => l ∈ s.cur.lanes ∧ BeforeTrap s l t)
    (Done := fun l t => ∃ id, lane t s.cur.uid l =
      trapEnter (gangOf s s.cur.uid).privsz s.cur.uid l id (takeCommits (curLane s l)) (trapAtRegion (takeCommits (curLane s l)) c (v l) s.cur.pc))
    (fun l t ⟨hl, h⟩ => by
      obtain ⟨h1, h2, h3, id, h4⟩ := trapRegion_lane h.here h.bound h.pend (by rw [h.lane]; exact hdepth l hl) c (v l) s.cur.pc
      rw [h.lane, h.gangOf] at h4
      rw [h.cur]
      exact ⟨⟨h1, h2, h3⟩, id, h4⟩)
    (fun l k t r hk g h => ⟨h.1, h.2.actsOn g (by simpa using hk)⟩)
    (fun l k t r hk g ⟨id, h⟩ => ⟨id, (g.1.others k (by simpa using hk)).trans h⟩)
    s.cur.lanes hs.nodup { s with fresh := s.fresh + 1 } (fun l hl => ⟨hl, hs.here, hs.bound l hl, hph, rfl, rfl, rfl⟩)
  refine ⟨_, hexec.trans (congrArg _ (runAccess_traps_eq hp ho hx hfind)), fun l hl => hacts.1.others l hl, ?_, fun l hl => ?_⟩
  · exact (congrArg (fun x : State => { x with groups := s.groups, fresh := s.fresh, free := s.free }) hacts.rest :)
  · obtain ⟨id, h⟩ := hdone l hl
    rw [h]
    exact trapped_trapRegion (hleft l hl) (ht l hl).recs s.cur.uid l id c (v l) s.cur.pc

end Traps

/-! ### Operands that stay in their lane (R55, R56) -/

theorem readSrc_ident {s : State} {x : Src} (hx : plainSrc x = true) {l : Nat} (hl : l ∈ s.cur.lanes) (t : OTy) :
    (readSrc s s.cur.uid s.cur.lanes t (op x) l).xlane = false := by
  have hown (n cnt : Nat) : (readCross (grp s s.cur.uid) s.cur.lanes l n cnt).xlane = false := by
    rw [readCross, if_pos (List.contains_iff_mem.2 hl)]
    rfl
  cases x with
  | q n => cases hx
  | v n | o n | h0 | h1 => exact hown ..
  | c n | imm k | lit w | lane | grp => rfl

theorem crosses_cons_ident {s : State} {x : Src} (hx : plainSrc x = true) {l : Nat} (hl : l ∈ s.cur.lanes) (t : OTy) (os : List (Opnd × OTy)) :
    crosses s ((op x, t) :: os) l = crosses s os l := by
  rw [crosses, List.any_cons, readSrc_ident hx hl, Bool.false_or, crosses]

end Sys2Proof.Machine
end

section
/-! Accesses that fail their checks (R121, R123, R130), and the page fault that saves the group (R301). -/

-- one declaration after another, so that the text as a whole is checked within its memory
set_option Elab.async false

namespace Sys2Proof.Machine

/-! ### A page fault among the lanes -/

theorem haltLanes_page {s : State} {hs : List (Nat × Option Halt)} (h : pageFaults hs s.cur.pc ≠ []) :
    (haltLanes s hs).1 = beginSave s s.cur.uid .pageFault (pageFaults hs s.cur.pc) (hs.map Prod.fst) := by
  unfold haltLanes
  cases hf : pageFaults hs s.cur.pc with
  | nil => exact absurd hf h
  | cons f fs =>
    dsimp only
    rw [hf]

/-- Where a lane's page is not there, the group begins its save, and nothing else happens. -/
theorem saves_of {α : Type} {s : State} {i : Instr} {os : List (Opnd × OTy)} {find : State → LaneIn → Find α} {ctr : Option Ctr} {cnt : LaneIn → α → Nat}
    {act : State → Nat → LaneIn → α → State} (hp : NoPoison s) (ho : plainOps os = true) {l : Nat} (hl : l ∈ s.cur.lanes) {ab : Bool} {st lv : Nat}
    {va : W64} {acc : AccKind} (hexec : exec i s = .next (runAccess s os find ctr cnt act)) (hfind : find s (laneIn s os l) = .halt (.page ab st lv va acc)) :
    ∃ fs, exec i s = .next (beginSave s s.cur.uid .pageFault fs s.cur.lanes) := by
  have hfound {f : Nat → Found α} (hf : ∀ l, f l = ⟨laneIn s os l, find s (laneIn s os l)⟩) :
      s.cur.lanes.map f = s.cur.lanes.map (fun l => ⟨laneIn s os l, find s (laneIn s os l)⟩) := List.map_congr_left (fun l _ => hf l)
  have hfst : (foundHalts (s.cur.lanes.map (fun l => (⟨laneIn s os l, find s (laneIn s os l)⟩ : Found α)))).map Prod.fst = s.cur.lanes := by
    rw [foundHalts, List.map_map, List.map_map]
    exact List.map_id _
  have hmem : (l, some (Halt.page ab st lv va acc)) ∈ foundHalts (s.cur.lanes.map (fun l => (⟨laneIn s os l, find s (laneIn s os l)⟩ : Found α))) := by
    rw [foundHalts, List.map_map]
    refine List.mem_map.2 ⟨l, hl, ?_⟩
    rw [Function.comp_apply, hfind]
    rfl
  have hne : pageFaults (foundHalts (s.cur.lanes.map (fun l => (⟨laneIn s os l, find s (laneIn s os l)⟩ : Found α)))) s.cur.pc ≠ [] :=
    List.ne_nil_of_mem (List.mem_filterMap.2 ⟨_, hmem, rfl⟩)
  rw [hexec]
  unfold runAccess
  simp only [readAll_eq hp ho, List.map_map]
  rw [hfound]
  on_goal 2 => exact fun _ => rfl
  refine ⟨_, congrArg _ ((if_pos (by simpa using hne)).trans ((haltLanes_page hne).trans (by rw [hfst])))⟩

/-- The save of a group in its slot. -/
theorem grp_beginSave {s : State} {u k : Nat} (hg : (tGet? s.groups u).isSome = true) (hk : (grp s u).place = .resident k) (why : SaveWhy) (fs : List LaneFault)
    (restart : List Nat) : grp (beginSave s u why fs restart) u = { grp s u with place := .saving k why, faults := fs, restart := restart } := by
  rw [beginSave, grp_modGrp s u u _ hg, if_pos rfl, hk]

/-! ### Checks that fail -/

theorem checkAcc_align {s : State} {u l : Nat} {q : AccReq} (h : q.va.toNat % q.align ≠ 0) : checkAcc s u l q = .halt (.trap .align q.va) := if_pos h

theorem reach_reserved {s : State} {vmid asid : Nat} {va : W64} {acc : AccKind} {m : Mode} (h : ptrReserved va = true) : reach s vmid asid va acc m = .access :=
  if_pos h

theorem checkAcc_reserved {s : State} {u l : Nat} {q : AccReq} (ha : q.va.toNat % q.align = 0) (h : ptrReserved q.va = true) :
    checkAcc s u l q = .halt (.trap .access q.va) := by
  unfold checkAcc
  dsimp only
  rw [if_neg (not_not.2 ha), reach_reserved h]

theorem checkAcc_fault {s : State} {u l : Nat} {q : AccReq} {ab : Bool} {st lv : Nat} (ha : q.va.toNat % q.align = 0)
    (h : reach s (vmidOf s (ctxOf s u)) (asidOf s (ctxOf s u)) q.va q.acc (lane s u l).mode = .fault ab st lv) :
    checkAcc s u l q = .halt (.page ab st lv q.va q.acc) := by
  unfold checkAcc
  dsimp only
  rw [if_neg (not_not.2 ha), h]

theorem findLd_halt {s : State} {sz : Size} {ord : Ord} {va : W64} {l : Nat} {h : Halt}
    (hc : checkAcc s s.cur.uid l { va := va, align := sizeBytes sz, size := sizeBytes sz, acc := .read, kinds := [.ordinary, .editioned, .code], cls := true } =
      .halt h) : findLd s sz ord va l = .halt h := by
  rw [findLd, hc]

theorem findSt_halt {s : State} {sz : Size} {va : W64} {l : Nat} {h : Halt}
    (hc : checkAcc s s.cur.uid l { va := va, align := sizeBytes sz, size := sizeBytes sz, acc := .write, kinds := [.ordinary, .editioned, .code] } = .halt h) :
    findSt s sz va l = .halt h := by
  rw [findSt, hc]

/-! ### The instructions -/

section Fails

variable {s : State} {sz : Size} {ord : Ord} {sem : Sem} {d : Dst} {x : Src} {a : Fin 128} {ofs : BitVec 8} {b : Opnd} {c : Cause} {va : Nat → W64}
  {ea : Nat → Nat} (hs : SetOk s) (hp : NoPoison s) (ht : Tidy s) (hm : MayTrap s) (hx : plainSrc x = true) (hb : plainSrc b.src = true)
  (hcb : ∀ l ∈ s.cur.lanes, crosses s [(b, .int 32)] l = false) (hsz : sz ≠ .e)
  (hva : va = fun l => eaOf (sizeBytes sz) (opnd s (.int 64) (op (.v a)) l) (opnd s (.int 32) b l) ofs)
  (hea : ea = fun l => eaNear (sizeBytes sz) (opnd s (.int 32) (op (.v a)) l) (opnd s (.int 32) b l) ofs)

include hs hp ht hm hb hcb

include hsz hva in
theorem trapsAll_ld (h : ∀ l ∈ s.cur.lanes, checkAcc s s.cur.uid l
      { va := va l, align := sizeBytes sz, size := sizeBytes sz, acc := .read, kinds := [.ordinary, .editioned, .code], cls := true } = .halt (.trap c (va l))) :
    TrapsAll s (.ld sz ord d a ofs b) c va := by
  have ho : plainOps [(op (.v a), .int 64), (b, .int 32)] = true := plainOps_two rfl hb
  refine trapsAll_of hs hp ht hm ho (fun l hl => (crosses_cons_ident rfl hl ..).trans (hcb l hl)) rfl (fun l hl => ?_)
  rw [if_neg hsz, eaIndexed_eq]
  have hl := h l hl
  rw [hva] at hl ⊢
  exact findLd_halt hl

include hx hsz hva in
theorem trapsAll_st (h : ∀ l ∈ s.cur.lanes, checkAcc s s.cur.uid l
      { va := va l, align := sizeBytes sz, size := sizeBytes sz, acc := .write, kinds := [.ordinary, .editioned, .code] } = .halt (.trap c (va l))) :
    TrapsAll s (.st sz ord x a ofs b) c va := by
  have ho : plainOps [(op x, sizeOTy sz), (op (.v a), .int 64), (b, .int 32)] = true := plainOps_three hx rfl hb
  refine trapsAll_of hs hp ht hm ho (fun l hl => (crosses_cons_ident hx hl ..).trans ((crosses_cons_ident rfl hl ..).trans (hcb l hl))) rfl (fun l hl => ?_)
  rw [if_neg hsz, eaIndexed_eq]
  have hl := h l hl
  rw [hva] at hl ⊢
  exact findSt_halt hl

include hea in
theorem trapsAll_lds (h : ∀ l ∈ s.cur.lanes, ea l % sizeBytes sz ≠ 0) : TrapsAll s (.lds sz sem d a ofs b) .align (fun l => BitVec.ofNat 64 (ea l)) := by
  have ho : plainOps [(op (.v a), .int 32), (b, .int 32)] = true := plainOps_two rfl hb
  refine trapsAll_of hs hp ht hm ho (fun l hl => (crosses_cons_ident rfl hl ..).trans (hcb l hl)) rfl (fun l hl => ?_)
  rw [eaLocal_eq]
  have hl := h l hl
  rw [hea] at hl ⊢
  exact if_pos hl

include hea in
theorem trapsAll_ldp (h : ∀ l ∈ s.cur.lanes, ea l % sizeBytes sz ≠ 0) : TrapsAll s (.ldp sz d a ofs b) .align (fun l => BitVec.ofNat 64 (ea l)) := by
  have ho : plainOps [(op (.v a), .int 32), (b, .int 32)] = true := plainOps_two rfl hb
  refine trapsAll_of hs hp ht hm ho (fun l hl => (crosses_cons_ident rfl hl ..).trans (hcb l hl)) rfl (fun l hl => ?_)
  rw [eaLocal_eq]
  have hl := h l hl
  rw [hea] at hl ⊢
  exact if_pos hl

include hx hea in
theorem trapsAll_sts (h : ∀ l ∈ s.cur.lanes, ea l % sizeBytes sz ≠ 0) : TrapsAll s (.sts sz sem x a ofs b) .align (fun l => BitVec.ofNat 64 (ea l)) := by
  have ho : plainOps [(op x, sizeOTy sz), (op (.v a), .int 32), (b, .int 32)] = true := plainOps_three hx rfl hb
  refine trapsAll_of hs hp ht hm ho (fun l hl => (crosses_cons_ident hx hl ..).trans ((crosses_cons_ident rfl hl ..).trans (hcb l hl))) rfl (fun l hl => ?_)
  rw [eaLocal_eq]
  have hl := h l hl
  rw [hea] at hl ⊢
  exact if_pos hl

include hx hea in
theorem trapsAll_stp (h : ∀ l ∈ s.cur.lanes, ea l % sizeBytes sz ≠ 0) : TrapsAll s (.stp sz x a ofs b) .align (fun l => BitVec.ofNat 64 (ea l)) := by
  have ho : plainOps [(op x, sizeOTy sz), (op (.v a), .int 32), (b, .int 32)] = true := plainOps_three hx rfl hb
  refine trapsAll_of hs hp ht hm ho (fun l hl => (crosses_cons_ident hx hl ..).trans ((crosses_cons_ident rfl hl ..).trans (hcb l hl))) rfl (fun l hl => ?_)
  rw [eaLocal_eq]
  have hl := h l hl
  rw [hea] at hl ⊢
  exact if_pos hl

end Fails

theorem eaNear_toNat (n A B : Nat) (ofs : BitVec 8) : (BitVec.ofNat 64 (eaNear n A B ofs)).toNat = eaNear n A B ofs := by
  rw [BitVec.toNat_ofNat]
  exact Nat.mod_eq_of_lt (Nat.lt_of_lt_of_le (BitVec.isLt _) (by decide))

end Sys2Proof.Machine

open Sys2Proof Sys2Proof.Machine

/-- Settles O40: the runner does nothing but the traps where every lane fails its first checks, and nothing but the save where a page is not there. -/
theorem accessFaults : Obligations.AccessFaults := by
  intro s sz n ord sem d x a ofs b hs hp ht hm hne hd hx hb hsize hcb u B va ea both
  obtain ⟨rfl, hsz⟩ : sizeBytes sz = n ∧ sz ≠ .e := by
    simp only [List.mem_cons, Prod.mk.injEq, List.not_mem_nil, or_false] at hsize
    obtain ⟨rfl, rfl⟩ | ⟨rfl, rfl⟩ | ⟨rfl, rfl⟩ | ⟨rfl, rfl⟩ := hsize <;> exact ⟨rfl, Size.noConfusion⟩
  refine ⟨fun h => ?_, fun h => ?_, fun h => ?_, fun ⟨l, hl, ab, st, lv, hal, hfault⟩ ⟨k, hk⟩ => ?_⟩
  · exact ⟨trapsAll_ld hs hp ht hm hb hcb hsz rfl (fun l hl => checkAcc_align (h l hl)),
      trapsAll_st hs hp ht hm hx hb hcb hsz rfl (fun l hl => checkAcc_align (h l hl))⟩
  · exact ⟨trapsAll_ld hs hp ht hm hb hcb hsz rfl (fun l hl => checkAcc_reserved (h l hl).1 (h l hl).2),
      trapsAll_st hs hp ht hm hx hb hcb hsz rfl (fun l hl => checkAcc_reserved (h l hl).1 (h l hl).2)⟩
  · have hodd (l : Nat) (hl : l ∈ s.cur.lanes) : eaNear (sizeBytes sz) (opnd s (.int 32) (op (.v a)) l) (B l) ofs % sizeBytes sz ≠ 0 := by
      have := h l hl
      rwa [eaNear_toNat] at this
    exact ⟨trapsAll_lds hs hp ht hm hb hcb rfl hodd, trapsAll_sts hs hp ht hm hx hb hcb rfl hodd, trapsAll_ldp hs hp ht hm hb hcb rfl hodd,
      trapsAll_stp hs hp ht hm hx hb hcb rfl hodd⟩
  · have ho : plainOps [(op (.v a), .int 64), (b, .int 32)] = true := plainOps_two rfl hb
    obtain ⟨fs, hrun⟩ := saves_of (i := .ld sz ord d a ofs b) hp ho hl rfl (by
      rw [if_neg hsz, eaIndexed_eq]
      exact findLd_halt (checkAcc_fault hal hfault))
    have hgrp := grp_beginSave hs.here hk .pageFault fs s.cur.lanes
    refine ⟨beginSave s u .pageFault fs s.cur.lanes, hrun, ⟨k, ?_⟩, ?_, rfl, ?_, ?_⟩ <;> rw [hgrp]
end

section
/-! Where a load reads is the same midway through an instruction (R217), and what an element's load then delivers (R128, R129). -/

-- one declaration after another, so that the text as a whole is checked within its memory
set_option Elab.async false

namespace Sys2Proof.Machine

/-! ### What the rules of R217 look at -/

/-- Two states agree on what decides where a load of lane l of group u reads. -/
structure SameReads (u l : Nat) (s t : State) : Prop where
  mem : t.mem = s.mem
  cores : t.cores = s.cores
  dies : t.dies = s.dies
  links : t.links = s.links
  plates : t.plates = s.plates
  launches : t.launches = s.launches
  gang : gangOf t u = gangOf s u
  fifo : (lane t u l).fifo = (lane s u l).fifo
  acq : (lane t u l).acqStep = (lane s u l).acqStep

namespace SameReads

variable {u l : Nat} {s t : State} (h : SameReads u l s t) (sem : Sem) (sc : Scope) (o pa : Nat) (va : W64) (n : Nat) (part : Part)

include h

theorem coreOf : coreOf t u = coreOf s u := by rw [Machine.coreOf, Machine.coreOf, h.gang]
theorem launchOf : launchOf t u = launchOf s u := by rw [Machine.launchOf, Machine.launchOf, h.gang]
theorem rdBytes (k : Nat) : rdBytes t k n = rdBytes s k n := rdBytes_congr (fun j _ _ => by rw [rdByte, rdByte, h.mem])

theorem ownEntries : ownEntries t u l none o pa va n = ownEntries s u l none o pa va n := by
  rw [Machine.ownEntries, Machine.ownEntries, inView, inView, inFifo, inFifo, coreAt, coreAt, h.coreOf, h.cores, h.fifo]

theorem serviceOut : serviceOut t u l none o pa va n = serviceOut s u l none o pa va n := by
  rw [Machine.serviceOut, Machine.serviceOut, inLinks, inLinks, inHeld, inHeld, h.links, h.plates]

theorem bufferRead : bufferRead t (launchAt t (Machine.launchOf t u)) o pa none va n = bufferRead s (launchAt s (Machine.launchOf s u)) o pa none va n := by
  rw [h.launchOf, launchAt, h.launches, ← launchAt, Machine.bufferRead, Machine.bufferRead]
  simp only [Option.isSome_none, Bool.false_eq_true, if_false, rdByte, h.mem]

theorem coreEntry : coreEntry t u l sem sc none o pa va n part = coreEntry s u l sem sc none o pa va n part := by
  rw [Machine.coreEntry, Machine.coreEntry, coreEntries, coreEntries, coreAt, coreAt, h.coreOf, h.cores]
  rfl

theorem viewRead (k : Nat) : viewRead t u l sem sc k n = viewRead s u l sem sc k n := by
  rw [Machine.viewRead, Machine.viewRead, h.coreOf, dieAt, dieAt, h.dies, h.acq]

theorem loadAt : loadAt t u l sem sc none o pa va n part = loadAt s u l sem sc none o pa va n part := by
  unfold Machine.loadAt
  rw [h.ownEntries, h.serviceOut, h.bufferRead]
  dsimp only
  rw [h.coreEntry, h.coreOf, h.rdBytes, h.viewRead]
  rfl

theorem ownMem : ownMem t u l sem sc o pa va n part = ownMem s u l sem sc o pa va n part := by
  rw [Machine.ownMem, Machine.ownMem, h.coreOf, h.ownEntries, h.bufferRead, h.coreEntry]

end SameReads

theorem Midway.sameReads {s t : State} {os : List (Opnd × OTy)} {l : Nat} (h : Midway s os l t) : SameReads s.cur.uid l s t where
  mem := (congrArg State.mem h.rest :)
  cores := (congrArg State.cores h.rest :)
  dies := (congrArg State.dies h.rest :)
  links := (congrArg State.links h.rest :)
  plates := (congrArg State.plates h.rest :)
  launches := h.launches
  gang := h.gangOf
  fifo := by rw [h.lane, setXlane_fifo]; rfl
  acq := by rw [h.lane]; cases crosses s os l <;> rfl

/-- What the memory of the own die gives is what a load there reads now. -/
theorem bytes_of_ownMem {s : State} {u l : Nat} {sem : Sem} {sc : Scope} {o pa : Nat} {va : W64} {n : Nat} {part : Part} {bs : List Byte}
    (h : ownMem s u l sem sc o pa va n part = true) (hl : loadAt s u l sem sc none o pa va n part = .now bs) : rdBytes s (mkey o pa) n = bs := by
  simp only [ownMem, Bool.and_eq_true, beq_iff_eq, List.isEmpty_iff, Option.isNone_iff_eq_none] at h
  obtain ⟨⟨⟨rfl, hown⟩, hbuf⟩, hcore⟩ := h
  unfold loadAt at hl
  rw [hown, hbuf, hcore] at hl
  dsimp only [List.getLast?_nil] at hl
  split at hl
  · cases hl
  · split at hl
    · cases hl
    · rw [if_pos rfl] at hl
      exact LoadAt.now.inj hl

end Sys2Proof.Machine
end

section
/-! Where an element of an array lies (R122, R123, R128). -/

-- one declaration after another, so that the text as a whole is checked within its memory
set_option Elab.async false

namespace Sys2Proof.Machine

variable {s : State} {l A : Nat} {i : Int} {acc : AccKind} {f : Fmt} {r : RegionEnt} {pg : PageAttr}

/-- The access of an element's bytes, as findElem checks it. -/
def elemReq (va : W64) (n : Nat) (acc : AccKind) : AccReq := { va := va, align := 1, size := n, acc := acc, kinds := [.ordinary, .plated], watched := false }

/-- What lane l of the current set reaches at an address. -/
def laneReach (s : State) (l : Nat) (acc : AccKind) (va : W64) : Reach :=
  reach s (vmidOf s (ctxOf s s.cur.uid)) (asidOf s (ctxOf s s.cur.uid)) va acc (curLane s l).mode

theorem regionAt_none {a : W64} {o p : Nat} (h : laneReach s l acc a = .page pg o p) (hr : pg.region = none) :
    regionAt s l a acc = .halt (.trap .access a) := by
  change reach _ _ _ _ _ (lane s s.cur.uid l).mode = _ at h
  rw [regionAt, h]
  dsimp only
  rw [hr]

theorem regionAt_some {a : W64} {o p : Nat} (h : laneReach s l acc a = .page pg o p) (hr : pg.region = some r) : regionAt s l a acc = .go (pg, r) := by
  change reach _ _ _ _ _ (lane s s.cur.uid l).mode = _ at h
  rw [regionAt, h]
  dsimp only
  rw [hr]

/-- A pointer to this package goes through the region of its page. -/
theorem findElem_noRegion {h : Halt} (hh : ptrHere s (BitVec.ofNat 64 A) = true) (hreg : regionAt s l (BitVec.ofNat 64 A) acc = .halt h) :
    findElem s l A i acc = .halt h := by
  unfold findElem
  dsimp only
  rw [hh, Bool.not_true, Bool.and_false, if_neg Bool.false_ne_true, hreg]

theorem findElem_negative (hh : ptrHere s (BitVec.ofNat 64 A) = true) (hreg : regionAt s l (BitVec.ofNat 64 A) acc = .go (pg, r))
    (hf : fmtOf r.elemfmt r.p8d = some f) (hi : i < 0) :
    findElem s l A i acc = .halt (.trap .access (BitVec.ofInt 64 ((A : Int) + (fmtWidth f * i) / 8))) := by
  unfold findElem
  dsimp only
  rw [hh, Bool.not_true, Bool.and_false, if_neg Bool.false_ne_true, hreg]
  dsimp only
  rw [hf]
  exact if_pos hi

/-- An element's bytes on ordinary pages pass the checks of R123. -/
theorem checkAcc_elem {va : W64} {n o pa : Nat} {p : PageAttr} (h : laneReach s l acc va = .page p o pa) (hk : p.kind = .ordinary) :
    checkAcc s s.cur.uid l (elemReq va n acc) = .ok (.page p o pa) := by
  change reach _ _ _ _ _ (lane s s.cur.uid l).mode = _ at h
  have hkind : kindOk p (elemReq va n acc) = true := by
    rw [kindOk, hk]
    rfl
  unfold checkAcc
  simp only [elemReq, Nat.mod_one, ne_eq, not_true_eq_false, if_false, h, Bool.false_eq_true] at hkind ⊢
  rw [hkind]
  rfl

/-- An access that no watch sees, whatever it does, none sees as what it is. -/
theorem watchHalt_none {va : W64} {c n : Nat} (h : watchPorts s c va n true true = []) (rd wr : Bool) : watchHalt s c va n rd wr = none := by
  have hhit (p : Port) (j : Nat) (hp : watchHit p j va n true true = false) : watchHit p j va n rd wr = false := by
    rw [Bool.eq_false_iff] at hp ⊢
    intro hh
    simp only [watchHit, Bool.and_true, Bool.and_eq_true, Bool.or_eq_true] at hp hh
    obtain ⟨⟨hon, hdir⟩, hplace⟩ := hh
    have hboth := hdir.imp And.left And.left
    exact hp (by rw [hon, hplace, (Bool.or_eq_true ..).mpr hboth]; rfl)
  have hports : watchPorts s c va n rd wr = [] := by
    rw [watchPorts, List.filter_eq_nil_iff] at h ⊢
    intro k hk
    have hnone := h k hk
    dsimp only at hnone ⊢
    simp only [Bool.not_eq_true, Bool.or_eq_false_iff] at hnone ⊢
    exact ⟨hhit _ 0 hnone.1, hhit _ 1 hnone.2⟩
  rw [watchHalt, hports]

/-- What follows the checks lets an element of pages in a class high enough through. -/
theorem elemCross_go {e : ElemAt} {ps : List PageAttr} (hw : watchPorts s (ctxOf s s.cur.uid) e.va (elemBytes e) true true = [])
    (hc : acc = .read → ∀ p ∈ ps, ClassOk s l p) : elemCross s l acc (ps.map PageAttr.rclass) e = .go e := by
  rw [elemCross, watchHalt_none hw]
  refine if_neg (fun hbad => ?_)
  simp only [Bool.and_eq_true, beq_iff_eq, List.any_map, List.any_eq_true, Function.comp_apply, decide_eq_true_eq] at hbad
  obtain ⟨hread, p, hp, hlt⟩ := hbad
  exact absurd (hc hread p hp) (Nat.not_le.2 hlt)

/-- An element of ordinary pages of the pointer's region, without block scales, is found where its bits lie. -/
theorem findElem_go {p1 p2 : PageAttr} {o pa o2 pa2 : Nat} {va : W64} {ofs n : Nat} (hh : ptrHere s (BitVec.ofNat 64 A) = true)
    (hreg : regionAt s l (BitVec.ofNat 64 A) acc = .go (pg, r)) (hf : fmtOf r.elemfmt r.p8d = some f) (hi : 0 ≤ i)
    (hva : BitVec.ofInt 64 ((A : Int) + (fmtWidth f * i) / 8) = va) (hofs : ((fmtWidth f * i) % 8).toNat = ofs) (hn : (ofs + fmtWidth f + 7) / 8 = n)
    (hkind : pg.kind = .ordinary) (hblock : r.block = 0) (h1 : laneReach s l acc va = .page p1 o pa)
    (h2 : laneReach s l acc (va + BitVec.ofNat 64 (n - 1)) = .page p2 o2 pa2)
    (hp : ∀ p ∈ [p1, p2], p.region = some r ∧ p.kind = .ordinary ∧ p.sto = false ∧ (acc = .read → ClassOk s l p))
    (hw : watchPorts s (ctxOf s s.cur.uid) va n true true = []) :
    findElem s l A i acc = .go { reach := .page p1 o pa, va := va, ofs := ofs, fmt := f,
                                 tail := if pa2 = pa + (n - 1) then none else some (pa2 - (pa % 4096 + (n - 1) - 4096), p2.rclass) } := by
  obtain ⟨hr1, hk1, hs1, hc1⟩ := hp p1 (by simp)
  obtain ⟨hr2, hk2, hs2, hc2⟩ := hp p2 (by simp)
  have hok := checkAcc_elem (n := n) h1 hk1
  change reach _ _ _ _ _ (lane s s.cur.uid l).mode = _ at h2
  rw [elemReq] at hok
  unfold findElem
  dsimp only
  rw [hh, Bool.not_true, Bool.and_false, if_neg Bool.false_ne_true, hreg]
  dsimp only
  rw [hf]
  dsimp only
  rw [if_neg (Int.not_lt.2 hi), hva, hofs, hn, hok]
  dsimp only
  rw [h2]
  dsimp only
  rw [if_neg (by simp [hr1, hr2, hk1, hk2, hs1, hs2, hkind, hblock]), if_neg (by simp [hk1]), if_pos hblock]
  exact elemCross_go (ps := [p1, p2]) (by simpa only [elemBytes, hn] using hw) (fun hread p hm => by
    rcases List.mem_cons.1 hm with rfl | hm
    · exact hc1 hread
    · obtain rfl := List.mem_singleton.1 hm
      exact hc2 hread)

/-- The byte of an element that is not before its array. -/
theorem elemVa_eq (w : Nat) (hi : 0 ≤ i) : BitVec.ofInt 64 ((A : Int) + (w * i) / 8) = BitVec.ofNat 64 (A + w * i.toNat / 8) := by
  obtain ⟨k, rfl⟩ := Int.eq_ofNat_of_zero_le hi
  rw [Int.toNat_natCast, ← BitVec.ofInt_natCast]
  norm_cast

theorem elemOfs_eq (w : Nat) (hi : 0 ≤ i) : ((w * i) % 8).toNat = w * i.toNat % 8 := by
  obtain ⟨k, rfl⟩ := Int.eq_ofNat_of_zero_le hi
  rw [Int.toNat_natCast]
  norm_cast

end Sys2Proof.Machine
end

section
/-! What the load of an element delivers (R128, R129, R217). -/

-- one declaration after another, so that the text as a whole is checked within its memory
set_option Elab.async false

namespace Sys2Proof.Machine

/-! ### The value of an element -/

/-- An element of w bits at a bit offset lies in the bytes that it is said to lie in, whatever else is given with them. -/
theorem leNat_take (bs : List Byte) (n : Nat) : leNat (bs.take n) = leNat bs % 256 ^ n := by
  by_cases h : n ≤ bs.length
  · have hsplit := leNat_append (bs.take n) (bs.drop n)
    have hlt := leNat_lt (bs.take n)
    rw [List.take_append_drop] at hsplit
    rw [List.length_take, Nat.min_eq_left h] at hsplit hlt
    rw [hsplit, Nat.add_mul_mod_self_left, Nat.mod_eq_of_lt hlt]
  · have hle : bs.length ≤ n := by omega
    rw [List.take_of_length_le hle, Nat.mod_eq_of_lt ((leNat_lt bs).trans_le (Nat.pow_le_pow_right (by decide) hle))]

/-- A field of w bits is not touched where only what lies above it is cut off. -/
theorem field_mod (x : Nat) {ofs w n : Nat} (h : ofs + w ≤ 8 * n) : x % 256 ^ n / 2 ^ ofs % 2 ^ w = x / 2 ^ ofs % 2 ^ w := by
  rw [show 256 ^ n = 2 ^ ofs * 2 ^ (8 * n - ofs) from by rw [← pow_add, Nat.add_sub_cancel' (by omega), pow_mul]; norm_num,
    Nat.mod_mul_right_div_self, Nat.mod_mod_of_dvd _ (pow_dvd_pow 2 (by omega))]

theorem fmtWidth_pos (f : Fmt) : 0 < fmtWidth f := by cases f <;> exact Nat.zero_lt_succ _

/-- The code of an element of format f that begins at bit 0 of x. -/
def elemCode (f : Fmt) (x : Nat) : BitVec (fmtWidth f) := BitVec.ofNat (fmtWidth f) x

/-- What a load delivers of an element with code c in a format without block scales (R129). -/
def elemValOf (f : Fmt) (c : BitVec (fmtWidth f)) : Nat :=
  if f = .f64 then c.toNat
  else if fmtIsInt f then (if fmtUnsigned f then c.toNat else (c.signExtend (32 * (if fmtWidth f = 64 then 2 else 1))).toNat)
  else (rnd ⟨.rne, 0, 0, 0⟩ .f32 false (fmtDecode f c.toNat)).1

theorem wrap_sext (w v : Nat) (hw : 0 < w) (c : BitVec w) : wrap v (sext w c.toNat) = (c.signExtend v).toNat := by
  rw [wrap_eq_ofInt, sext_eq_toInt w _ hw, BitVec.ofNat_toNat, BitVec.setWidth_eq]
  rfl

theorem elemValue_none (f : Fmt) (c : BitVec (fmtWidth f)) : (elemValue f none c.toNat ⟨.rne, 0, 0, 0⟩).1 = elemValOf f c := by
  cases f with
  | i8 => exact wrap_sext 8 32 (by decide) c
  | i16 => exact wrap_sext 16 32 (by decide) c
  | i32 => exact (congrArg BitVec.toNat (BitVec.signExtend_eq (w := 32) c)).symm
  | i64 => exact (congrArg BitVec.toNat (BitVec.signExtend_eq (w := 64) c)).symm
  | z8 | z16 | z32 | z64 | f64 => rfl
  | _ => rfl

theorem elemFrom_value {e : ElemAt} {f : Fmt} (hf : e.fmt = f) (hs : e.scale = none) (bs : List Byte) :
    (elemFrom e bs).1 = elemValOf f (elemCode f (leNat bs / 2 ^ e.ofs)) := by
  subst hf
  have hw := fmtWidth_pos e.fmt
  have hcode : bits (leNat (bs.take (elemBytes e))) (e.ofs + fmtWidth e.fmt - 1) e.ofs = (elemCode e.fmt (leNat bs / 2 ^ e.ofs)).toNat := by
    rw [elemCode, BitVec.toNat_ofNat, bits, show e.ofs + fmtWidth e.fmt - 1 + 1 - e.ofs = fmtWidth e.fmt from by omega, leNat_take,
      field_mod _ (by rw [elemBytes]; omega)]
  rw [← elemValue_none, ← hcode, elemFrom, hs]
  rfl

/-! ### The runs of an element that is loaded now -/

/-- An element of a page of this package that is neither plated nor in a block. -/
structure PlainElem (e : ElemAt) (a : PageAttr) (o pa : Nat) : Prop where
  reach : e.reach = .page a o pa
  plate : e.plate = none
  scale : e.scale = none
  block : e.block = false

theorem PlainElem.regs {e : ElemAt} {a : PageAttr} {o pa : Nat} (h : PlainElem e a o pa) : elemRegs e = if fmtWidth e.fmt = 64 then 2 else 1 := by
  rw [elemRegs, h.block, if_neg Bool.false_ne_true]

/-- The runs of an element are there now with these bytes, and no read of them meets an error. -/
structure RunsNow (s : State) (l : Nat) (ord : Ord) (e : ElemAt) (bs : List (List Byte)) : Prop where
  now : (elemRuns s s.cur.uid l ord e).map ElemRun.at_ = bs.map LoadAt.now
  unpoisoned : ∀ r ∈ elemRuns s s.cur.uid l ord e, poisoned s.poison (mkey r.owner r.pa) r.n = false
  unmixed : ∀ r ∈ elemRuns s s.cur.uid l ord e, classMixed s r.cls r.owner r.pa r.n = false
  reads : ∀ r ∈ elemRuns s s.cur.uid l ord e, r.at_ = loadAt s s.cur.uid l ord.sem ord.scope none r.owner r.pa r.va r.n r.part

/-- The bytes of a run that is loaded now. -/
def nowBytes : LoadAt → Option (List Byte)
  | .now bs => some bs
  | _ => none

namespace RunsNow

variable {s : State} {l : Nat} {ord : Ord} {e : ElemAt} {bs : List (List Byte)} (h : RunsNow s l ord e bs)

include h

theorem exists_now {r : ElemRun} (hr : r ∈ elemRuns s s.cur.uid l ord e) : ∃ b, r.at_ = .now b := by
  obtain ⟨b, -, hb⟩ := List.mem_map.1 (h.now ▸ List.mem_map_of_mem (f := ElemRun.at_) hr)
  exact ⟨b, hb.symm⟩

/-- Bytes that each run is there with are those of the list. -/
theorem map_eq {g : ElemRun → List Byte} (hg : ∀ r ∈ elemRuns s s.cur.uid l ord e, r.at_ = .now (g r)) : (elemRuns s s.cur.uid l ord e).map g = bs := by
  refine List.map_injective_iff.2 (fun _ _ => LoadAt.now.inj) ?_
  rw [← h.now, List.map_map]
  exact List.map_congr_left (fun r hr => (hg r hr).symm)

theorem elemAt_now : elemAt s s.cur.uid l ord e = .now bs.flatten := by
  have hnow : (elemRuns s s.cur.uid l ord e).filterMap (fun r => nowBytes r.at_) = bs := by
    change (elemRuns s s.cur.uid l ord e).filterMap (nowBytes ∘ ElemRun.at_) = bs
    rw [← List.filterMap_map, h.now, List.filterMap_map]
    exact List.filterMap_some
  have hlen : bs.length = (elemRuns s s.cur.uid l ord e).length := by
    have hl := congrArg List.length h.now
    rwa [List.length_map, List.length_map, eq_comm] at hl
  have hwait : ¬ (elemRuns s s.cur.uid l ord e).any (fun r => r.at_ == .wait) = true := by
    rw [List.any_eq_true]
    rintro ⟨r, hr, hw⟩
    obtain ⟨b, hb⟩ := h.exists_now hr
    rw [hb] at hw
    cases hw
  unfold nowBytes at hnow
  unfold elemAt
  dsimp only
  rw [if_neg hwait]
  refine (if_pos ?_).trans (congrArg (fun x => LoadAt.now x.flatten) hnow)
  rw [← hlen]
  exact congrArg List.length hnow

theorem elemLoad_now : elemLoad s l ord e = some bs.flatten := by
  unfold elemLoad
  rw [h.elemAt_now]
  dsimp only
  split
  · rw [List.flatMap_def, h.map_eq (fun r hr => ?_)]
    obtain ⟨b, hb⟩ := h.exists_now hr
    split
    · next hmem =>
      rw [runMem, Bool.and_eq_true] at hmem
      rw [dataBytes_clean (h.unmixed r hr), hb, bytes_of_ownMem hmem.2 ((h.reads r hr).symm.trans hb)]
    · rw [hb]
  · rfl

theorem elemBad_none : elemBad s l ord e = none := by
  have hnone : (elemRuns s s.cur.uid l ord e).filter (fun r => runMem s l ord e r && dataBad s r.cls r.owner r.pa r.n) = [] := by
    rw [List.filter_eq_nil_iff]
    intro r hr hbad
    rw [dataBad_clean (h.unmixed r hr), h.unpoisoned r hr, Bool.and_false] at hbad
    cases hbad
  rw [elemBad, h.elemAt_now, hnone]
  rfl

theorem elemMet_id (he : s.errors = []) : elemMet s l ord e = s := by
  have hfix (rs : List ElemRun) (hrs : ∀ r ∈ rs, classMixed s r.cls r.owner r.pa r.n = false) :
      rs.foldl (fun s r => dataMet s (launchOf s s.cur.uid) r.cls r.owner r.pa r.n) s = s := by
    induction rs with
    | nil => rfl
    | cons r rs ih =>
      rw [List.foldl_cons, dataMet_clean he (hrs r (by simp))]
      exact ih (fun x hx => hrs x (by simp [hx]))
  exact hfix _ (fun r hr => h.unmixed r (List.mem_of_mem_filter hr))

end RunsNow

/-- The runs are the same midway through the instruction. -/
theorem elemRuns_midway {s t : State} {os : List (Opnd × OTy)} {l : Nat} (h : Midway s os l t) (ord : Ord) {e : ElemAt} {a : PageAttr} {o pa : Nat}
    (he : PlainElem e a o pa) : elemRuns t t.cur.uid l ord e = elemRuns s s.cur.uid l ord e := by
  unfold elemRuns
  rw [he.reach, he.scale, h.uid]
  simp only [elemRun, h.sameReads.loadAt]

theorem RunsNow.midway {s t : State} {os : List (Opnd × OTy)} {l : Nat} {ord : Ord} {e : ElemAt} {bs : List (List Byte)} (h : RunsNow s l ord e bs)
    (hm : Midway s os l t) {a : PageAttr} {o pa : Nat} (he : PlainElem e a o pa) : RunsNow t l ord e bs where
  now := by rw [elemRuns_midway hm ord he, h.now]
  unpoisoned := by
    rw [elemRuns_midway hm ord he, show t.poison = s.poison from (congrArg State.poison hm.rest :)]
    exact h.unpoisoned
  unmixed := by
    rw [elemRuns_midway hm ord he]
    intro r hr
    have hframe : t.frameClass = s.frameClass := (congrArg State.frameClass hm.rest :)
    have hbyte : t.byteClass = s.byteClass := (congrArg State.byteClass hm.rest :)
    have hmixed := h.unmixed r hr
    unfold classMixed byteClassOf at hmixed ⊢
    rw [hframe, hbyte]
    exact hmixed
  reads := by
    rw [elemRuns_midway hm ord he, hm.uid]
    intro r hr
    rw [h.reads r hr, hm.sameReads.loadAt]

end Sys2Proof.Machine
end

section
/-! The instruction ld.e, on elements that are loaded now (R128, R129, R143). -/

-- one declaration after another, so that the text as a whole is checked within its memory
set_option Elab.async false

namespace Sys2Proof.Machine

variable {s t r : State} {os : List (Opnd × OTy)} {l : Nat}

/-! ### A lane that stands where it was -/

/-- A change of a lane that leaves its place and its FIFO alone. -/
def KeepsPlace (f : Lane → Lane) : Prop := ∀ ln, (f ln).at_ = ln.at_ ∧ (f ln).fifo = ln.fifo

/-- Lane l of the set stands where it was, with the FIFO that it had. -/
structure InPlace (s : State) (l : Nat) (t : State) : Prop where
  here : (tGet? t.groups s.cur.uid).isSome = true
  bound : l < (grp t s.cur.uid).lanes.length
  cur : t.cur = s.cur
  at_ : (lane t s.cur.uid l).at_ = (curLane s l).at_
  fifo : (lane t s.cur.uid l).fifo = (curLane s l).fifo

theorem InPlace.of_midway (h : Midway s os l t) : InPlace s l t :=
  ⟨h.here, h.bound, h.cur, by rw [h.lane, setXlane_at], by rw [h.lane, setXlane_fifo]⟩

theorem InPlace.actsOn (h : InPlace s l t) {ks : List Nat} (g : ActsOn s.cur.uid ks t r) (hl : l ∉ ks) : InPlace s l r where
  here := g.here.trans h.here
  bound := by rw [g.length]; exact h.bound
  cur := g.cur.trans h.cur
  at_ := by rw [g.others l hl, h.at_]
  fifo := by rw [g.others l hl, h.fifo]

theorem InPlace.modLane (h : InPlace s l t) {f : Lane → Lane} (hf : KeepsPlace f) : InPlace s l (modLane t s.cur.uid l f) := by
  have hlane := lane_modLane t s.cur.uid l l f h.here h.bound
  have hacts := actsOn_modLane h.here l f
  rw [if_pos rfl] at hlane
  exact ⟨hacts.here.trans h.here, by rw [hacts.length]; exact h.bound, h.cur, by rw [hlane, (hf _).1, h.at_], by rw [hlane, (hf _).2, h.fifo]⟩

theorem keepsPlace_setFlags (fl : Nat) : KeepsPlace (fun ln => setFlags ln fl) := fun _ => ⟨rfl, rfl⟩

/-- An acquire of a lane leaves its place and FIFO alone. -/
theorem exists_noteAcquire (s : State) (u l : Nat) (sem : Sem) (sc : Scope) :
    ∃ f, KeepsPlace f ∧ noteAcquire s u l sem sc = Machine.modLane s u l f := by
  unfold noteAcquire
  split
  · exact ⟨fun ln => { ln with acqStep := s.mstep }, fun _ => ⟨rfl, rfl⟩, rfl⟩
  · exact ⟨fun ln => ln, fun _ => ⟨rfl, rfl⟩, (modLane_id ..).symm⟩

/-- A lane that has passed, its FIFO as before. -/
def PassedBare (s : State) (l : Nat) (ln : Lane) : Prop := ln.at_ = advancePos (curLane s l).at_ s.cur.len ∧ ln.fifo = (curLane s l).fifo

theorem InPlace.passLane (h : InPlace s l t) (ho : plainOps os = true) :
    ActsOn s.cur.uid [l] t (passLane t os l) ∧ PassedBare s l (lane (Machine.passLane t os l) s.cur.uid l) ∧
      (grp (Machine.passLane t os l) s.cur.uid).pend = (grp t s.cur.uid).pend := by
  have hpass := passLane_plain ho t l
  rw [h.cur] at hpass
  rw [hpass, lane_modLane _ _ _ _ _ h.here h.bound, if_pos rfl, grp_modLane h.here]
  exact ⟨actsOn_modLane h.here l _, ⟨congrArg (advancePos · s.cur.len) h.at_, h.fifo⟩, rfl⟩

/-! ### The load -/

/-- A lane after ld.e: it has passed, and the element's value is pending. -/
def ElemLoaded (s : State) (d : Dst) (cnt : Nat → Nat) (v : Nat → Nat) (l : Nat) (t : State) : Prop :=
  PassedBare s l (lane t s.cur.uid l) ∧
    ∃ id, id < t.fresh ∧ tGet? (grp t s.cur.uid).pend id = some (pending l s.fresh (dstTarget d (cnt l)) (v l))

section Load

variable {ord : Ord} {d : Dst} {e : ElemAt} {pg : PageAttr} {o pa : Nat} {bs : List (List Byte)}

theorem findLdE_go {a : Nat} {i : Int} (hfind : findElem s l a i .read = .go e) (hodd : elemOdd (elemRegs e) (dstReg d) = false) (he : PlainElem e pg o pa)
    (hen : enables (curLane s l).fmode = 0) (hrun : RunsNow s l ord e bs) : findLdE s d ord a i l = .go (.elem e) := by
  have hfpx : elemFpx s l ord e = none := by
    rw [elemFpx, hrun.elemLoad_now]
    exact if_neg (Bool.eq_false_iff.1 (fpxDue_of_enables hen _))
  rw [findLdE, hfind]
  dsimp only
  rw [hodd, if_neg Bool.false_ne_true, he.plate]
  dsimp only
  rw [hfpx, hrun.elemBad_none]

/-- The effect of ld.e in a lane, where nothing is to be sent: the flags, the result, the acquire, the passing. -/
theorem actLdElem_eq {acc : Nat} (he : PlainElem e pg o pa) (hrun : RunsNow t l ord e bs) (herr : t.errors = []) :
    actLdElem os ord d t acc l e = passLane (noteAcquire (pendResult (modLane t t.cur.uid l (fun ln => setFlags ln (elemFrom e bs.flatten).2)) l acc
      (dstTarget d (elemRegs e)) (elemFrom e bs.flatten).1) t.cur.uid l ord.sem ord.scope) os l := by
  have hnow : elemNow t l ord e = some bs.flatten := by
    rw [elemNow, he.plate]
    exact hrun.elemLoad_now
  unfold actLdElem
  rw [hnow]
  dsimp only
  rw [hrun.elemMet_id herr]

theorem elemLoaded_act (ho : plainOps os = true) (hm : Midway s os l t) (he : PlainElem e pg o pa) (hrun : RunsNow s l ord e bs) (herr : s.errors = [])
    (cnt v : Nat → Nat) (hcnt : cnt l = elemRegs e) (hv : v l = (elemFrom e bs.flatten).1) :
    ActsOn s.cur.uid [l] t (actLdElem os ord d (fillCur t e.va e.reach) s.fresh l e) ∧
      ElemLoaded s d cnt v l (actLdElem os ord d (fillCur t e.va e.reach) s.fresh l e) := by
  have hfill := actsOn_fillCur (hm.errors.trans herr) s.cur.uid e.va e.reach
  have hmid := hm.actsOn hfill List.not_mem_nil
  rw [actLdElem_eq he (hrun.midway hmid he) (hmid.errors.trans herr), hmid.uid, ← hcnt, ← hv]
  have hflags := actsOn_modLane hmid.here l (fun ln => setFlags ln (elemFrom e bs.flatten).2)
  have hplace1 := (InPlace.of_midway hmid).modLane (keepsPlace_setFlags (elemFrom e bs.flatten).2)
  have hpend := actsOn_pendResult (congrArg IssueSet.uid hplace1.cur) hplace1.here l s.fresh (dstTarget d (cnt l)) (v l)
  have hput := grp_pendResult (congrArg IssueSet.uid hplace1.cur) hplace1.here l s.fresh (dstTarget d (cnt l)) (v l)
  have hplace2 := hplace1.actsOn hpend List.not_mem_nil
  obtain ⟨f, hf, hacq⟩ := exists_noteAcquire
    (pendResult (modLane (fillCur t e.va e.reach) s.cur.uid l (fun ln => setFlags ln (elemFrom e bs.flatten).2)) l s.fresh (dstTarget d (cnt l)) (v l))
    s.cur.uid l ord.sem ord.scope
  rw [hacq]
  obtain ⟨hpass, hlane, hkeep⟩ := (hplace2.modLane hf).passLane ho
  refine ⟨((((hfill.mono (by simp)).trans_same hflags).trans_same (hpend.mono (by simp))).trans_same
    (actsOn_modLane hplace2.here l f)).trans_same hpass, hlane, (fillCur t e.va e.reach).fresh, ?_, ?_⟩
  · exact Nat.lt_of_lt_of_le (Nat.lt_succ_self _) hpass.fresh
  · rw [hkeep, grp_modLane hplace2.here]
    show tGet? (grp _ s.cur.uid).pend _ = _
    rw [hput]
    exact tGet?_tPut_self ..

end Load

/-- An ld.e whose elements are all loaded now. -/
theorem ldE_loads {ord : Ord} {d : Dst} {a : Fin 128} {ofs : BitVec 8} {b : Opnd} {e : Nat → ElemAt} {pg : Nat → PageAttr} {ow pa : Nat → Nat}
    {bs : Nat → List (List Byte)} (hs : SetOk s) (hp : NoPoison s) (hne : ∃ l, l ∈ s.cur.lanes) (herr : s.errors = []) (hb : plainSrc b.src = true)
    (hd : plainDst d = true) (hen : ∀ l ∈ s.cur.lanes, enables (curLane s l).fmode = 0)
    (hfind : ∀ l ∈ s.cur.lanes, findElem s l (opnd s (.int 64) (op (.v a)) l) ((opnd s (.int 32) b l : Int) + ofs.toInt) .read = .go (e l))
    (he : ∀ l ∈ s.cur.lanes, PlainElem (e l) (pg l) (ow l) (pa l)) (hodd : ∀ l ∈ s.cur.lanes, elemOdd (elemRegs (e l)) (dstReg d) = false)
    (hrun : ∀ l ∈ s.cur.lanes, RunsNow s l ord (e l) (bs l)) :
    ∃ t, exec (.ld .e ord d a ofs b) s = .next t ∧ (grp t s.cur.uid).ld = (grp s s.cur.uid).ld + 1 ∧ t.mem = s.mem ∧ ∀ l ∈ s.cur.lanes,
      Pends s t l d (elemRegs (e l)) (elemFrom (e l) (bs l).flatten).1 ∧ PassedBare s l (lane t s.cur.uid l) := by
  have ho : plainOps [(op (.v a), .int 64), (b, .int 32)] = true := plainOps_two rfl hb
  have hn : s.cur.lanes.length ≠ 0 := by
    obtain ⟨l, hl⟩ := hne
    exact Nat.ne_of_gt (List.length_pos_of_mem hl)
  obtain ⟨hacts, hdone⟩ := runAccess_effects (os := [(op (.v a), .int 64), (b, .int 32)]) (ctr := some .ld)
    (find := fun s x => if Size.e = .e then findLdE s d ord (x.x 0) ((x.x 1 : Int) + sext 8 ofs.toNat) x.lane
      else findLd s .e ord (eaIndexed (sizeBytes .e) (x.x 0) ofs (x.x 1)) x.lane)
    (cnt := fun _ f => match f with
      | .bytes va r => if onEdition s va r then 1 else sizePieces .e
      | .elem .. => 1)
    (act := actLd [(op (.v a), .int 64), (b, .int 32)] .e ord d)
    (Done := ElemLoaded s d (fun l => elemRegs (e l)) (fun l => (elemFrom (e l) (bs l).flatten).1)) hs hp ho (fun l => .elem (e l))
    (fun l hl => by
      rw [if_pos rfl, sext8_eq]
      exact findLdE_go (hfind l hl) (hodd l hl) (he l hl) (hen l hl) (hrun l hl))
    (fun _ _ _ => rfl)
    (fun l hl t ht => elemLoaded_act ho ht (he l hl) (hrun l hl) herr _ _ rfl rfl)
    (fun l k t r hk hr ⟨h1, id, h2, h3⟩ => ⟨by rw [hr.others k (by simpa using hk)]; exact h1, id, h2.trans_le hr.fresh, (hr.pend id h2).trans h3⟩)
  refine ⟨_, rfl, hacts.ld.trans (counters_accBegun hs _ .ld hn), hacts.mem.trans (by rw [accBegun_some s _ .ld hn]; rfl), fun l hl => ?_⟩
  obtain ⟨hlane, id, -, hpend⟩ := hdone l hl
  exact ⟨⟨id, _, hpend, pending_writes hd .., rfl⟩, hlane⟩

end Sys2Proof.Machine
end

section
/-! The instruction st.e: an element's code, rounded to its format, enters the FIFO (R128, R129, R216). -/

-- one declaration after another, so that the text as a whole is checked within its memory
set_option Elab.async false

namespace Sys2Proof.Machine

variable {s t r : State} {os : List (Opnd × OTy)} {l : Nat}

/-! ### The code that is stored -/

/-- The value that st.e rounds to format f, of a register that reads x: none for f64, whose bits are moved. -/
def storeVal (f : Fmt) (x : Nat) : FVal :=
  if fmtIsInt f then fvalOfInt (if fmtUnsigned f then (x : Int) else (BitVec.ofNat (32 * (if fmtWidth f = 64 then 2 else 1)) x).toInt) else fmtDecode .f32 x

/-- The code of a stored element and the rounding context after it. -/
def storeCode (f : Fmt) (x : Nat) (c : RCtx) : Nat × RCtx := if f = .f64 then (x, c) else rnd c f false (storeVal f x)

/-- The register that data of st.e begins in (R128). -/
def storeReg : Src → Option Nat
  | .v n => some n.val
  | .o n => some n.val
  | .c n => some n.val
  | .h1 => some 1
  | _ => none

/-- The type that data of st.e is read in, by the width of its format. -/
theorem elemOTy_eq (f : Fmt) :
    elemOTy f = if f = .f64 then .flt .f64 else if fmtIsInt f then .int (32 * (if fmtWidth f = 64 then 2 else 1)) else .flt .f32 := by
  cases f <;> rfl

/-- An integer is read in the width of its register or pair. -/
theorem sext_elemOTy {f : Fmt} (h : fmtIsInt f = true) (x : Nat) :
    sext (if elemOTy f = .int 64 then 64 else 32) x = (BitVec.ofNat (32 * (if fmtWidth f = 64 then 2 else 1)) x).toInt := by
  have hwidth : (if elemOTy f = .int 64 then 64 else 32) = 32 * (if fmtWidth f = 64 then 2 else 1) := by
    cases f with
    | i8 | z8 | i16 | z16 | i32 | z32 | i64 | z64 => rfl
    | _ => cases h
  rw [hwidth, sext_eq_toInt _ _ (by split <;> decide)]

section Find

variable {e : ElemAt} {pg : PageAttr} {o pa a : Nat} {i : Int} {x : Src}

theorem findStE_go (hp : NoPoison s) (hfind : findElem s l a i .write = .go e) (he : PlainElem e pg o pa) (hx : plainSrc x = true)
    (hodd : elemOdd (elemRegs e) (storeReg x) = false) (hen : enables (curLane s l).fmode = 0) {q : Nat × RCtx}
    (hq : storeCode e.fmt (opnd s (elemOTy e.fmt) (op x) l) (laneRnd (curLane s l) .dyn) = q) :
    findStE s x a i l = .go (.elem e q.1 q.2.flags q.2.cnt) := by
  have hcode : (if e.fmt = .f64 then (opnd s (elemOTy e.fmt) (op x) l, laneRnd (curLane s l) .dyn) else
      rnd (laneRnd (curLane s l) .dyn) e.fmt false (if e.fmt = .f64 then .fin false 0 0
        else if fmtIsInt e.fmt then fvalOfInt (if fmtUnsigned e.fmt then (opnd s (elemOTy e.fmt) (op x) l : Int)
          else sext (if elemOTy e.fmt = .int 64 then 64 else 32) (opnd s (elemOTy e.fmt) (op x) l))
        else fmtDecode .f32 (opnd s (elemOTy e.fmt) (op x) l))) = q := by
    rw [← hq, storeCode, storeVal]
    by_cases hf : e.fmt = .f64
    · rw [if_pos hf, if_pos hf]
    · rw [if_neg hf, if_neg hf, if_neg hf]
      by_cases hint : fmtIsInt e.fmt = true
      · rw [if_pos hint, if_pos hint, sext_elemOTy hint]
      · rw [if_neg hint, if_neg hint]
  have hread : (readSrc s s.cur.uid s.cur.lanes (elemOTy e.fmt) (op x) l).halt = none := readSrc_plain hp _ _ _ _ hx
  unfold findStE
  rw [hfind]
  dsimp only
  rw [he.block, if_neg Bool.false_ne_true]
  refine (if_neg (Bool.eq_false_iff.1 hodd)).trans ?_
  rw [hread]
  dsimp only
  change (if fpxDue (curLane s l) _ = true then _ else _) = _
  rw [if_neg (Bool.eq_false_iff.1 (fpxDue_of_enables hen _))]
  exact congrArg (fun q : Nat × RCtx => Find.go (StAt.elem e q.1 q.2.flags q.2.cnt)) hcode

end Find

/-! ### The entry -/

/-- Entering an entry and passing, for a lane that stands where it was. -/
theorem entered_of_inPlace (h : InPlace s l t) (ho : plainOps os = true) (e : FEntry) (hu : e.uid = s.cur.uid) (hl : e.lane = l) :
    ActsOn s.cur.uid [l] t (passLane (pushEntry t e) os l) ∧
      lane (passLane (pushEntry t e) os l) s.cur.uid l = entered (lane t s.cur.uid l) e t.fresh s.cur.len := by
  have hr : ActsOn s.cur.uid [l] t (pushEntry t e) := by
    have hpush := actsOn_pushEntry (s := t) (e := e) (by rw [hu]; exact h.here)
    rwa [hu, hl] at hpush
  have hg : (tGet? (pushEntry t e).groups s.cur.uid).isSome = true := hr.here.trans h.here
  have hb : l < (grp (pushEntry t e) s.cur.uid).lanes.length := by rw [hr.length]; exact h.bound
  have hpass := passLane_plain ho (pushEntry t e) l
  rw [hr.cur, h.cur] at hpass
  rw [hpass]
  refine ⟨hr.trans_same (actsOn_modLane hg l _), ?_⟩
  rw [lane_modLane _ _ _ _ _ hg hb, if_pos rfl, pushEntry_eq, hu, hl,
    lane_modLane { t with fresh := t.fresh + 1 } s.cur.uid l l _ h.here h.bound, if_pos rfl]
  rfl

/-- The lane of a stored element takes its flags and SRCNT. -/
def rounded (fl cnt : Nat) (ln : Lane) : Lane := { setFlags ln fl with srcnt := BitVec.ofNat 64 cnt }

theorem keepsPlace_rounded (fl cnt : Nat) : KeepsPlace (rounded fl cnt) := fun _ => ⟨rfl, rfl⟩

/-- The entry of an access to a page, made when the lane's flags are set. -/
theorem newEntry_rounded (h : Midway s os l t) (fl cnt : Nat) (act : Act) (a : PageAttr) (o pa : Nat) (va : W64) (n : Nat) (sem : Sem) (sc : Scope) :
    newEntry (modLane t s.cur.uid l (rounded fl cnt)) l s.fresh act (.page a o pa) va n sem sc {} false =
      entryFor s l act a o pa va n sem sc {} false := by
  have hacts := actsOn_modLane h.here l (rounded fl cnt)
  have hlaunch : launchOf (modLane t s.cur.uid l (rounded fl cnt)) s.cur.uid = launchOf s s.cur.uid := by
    rw [launchOf, hacts.gangOf, ← launchOf, h.launchOf]
  have hctx : ctxOf (modLane t s.cur.uid l (rounded fl cnt)) s.cur.uid = ctxOf s s.cur.uid := by
    rw [ctxOf, hlaunch, ← h.ctxOf, ctxOf, h.launchOf, launchAt, launchAt, hacts.launches]
  have hrel : (lane (modLane t s.cur.uid l (rounded fl cnt)) s.cur.uid l).coreRelFence = (curLane s l).coreRelFence := by
    rw [h.lane_modLane]
    exact setXlane_coreRelFence ..
  have hcur : (modLane t s.cur.uid l (rounded fl cnt)).cur = s.cur := h.cur
  unfold newEntry entryFor
  dsimp only
  rw [hcur, hlaunch, hctx, hrel]

/-! ### The store -/

/-- The entry of a stored element. -/
def elemEntry (s : State) (l : Nat) (ord : Ord) (e : ElemAt) (a : PageAttr) (o pa code : Nat) : FEntry :=
  { entryFor s l (.bits e.ofs (fmtWidth e.fmt) code) a o pa e.va (elemBytes e) ord.sem ord.scope {} false with tail := e.tail }

/-- A lane after st.e: it has passed with its SRCNT, its element being the newest entry. -/
def ElemStored (s : State) (e : FEntry) (cnt l : Nat) (ln : Lane) : Prop :=
  ln.at_ = advancePos (curLane s l).at_ s.cur.len ∧ ln.srcnt = BitVec.ofNat 64 cnt ∧ ∃ n, ln.fifo = (curLane s l).fifo ++ [{ e with id := n }]

theorem elemStored_act {ord : Ord} {x : LaneIn} {e : ElemAt} {pg : PageAttr} {o pa code fl cnt : Nat} (ho : plainOps os = true) (hm : Midway s os l t)
    (herr : s.errors = []) (he : PlainElem e pg o pa) (hx : x.lane = l) :
    ActsOn s.cur.uid [l] t (actSt os .e ord t s.fresh x (.elem e code fl cnt)) ∧
      ElemStored s (elemEntry s l ord e pg o pa code) cnt l (lane (actSt os .e ord t s.fresh x (.elem e code fl cnt)) s.cur.uid l) := by
  have hfill := actsOn_fillCur (hm.errors.trans herr) s.cur.uid e.va e.reach
  have hmid := hm.actsOn hfill List.not_mem_nil
  have hact : actSt os .e ord t s.fresh x (.elem e code fl cnt) =
      passLane (pushEntry (modLane (fillCur t e.va e.reach) s.cur.uid l (rounded fl cnt)) (elemEntry s l ord e pg o pa code)) os l := by
    rw [elemEntry, ← newEntry_rounded hmid fl cnt, ← he.reach]
    unfold actSt
    dsimp only
    rw [he.plate, hm.uid, hx]
    rfl
  have hplace := (InPlace.of_midway hmid).modLane (keepsPlace_rounded fl cnt)
  obtain ⟨hpass, hlane⟩ := entered_of_inPlace hplace ho (elemEntry s l ord e pg o pa code) rfl rfl
  rw [hact, hlane]
  refine ⟨((hfill.mono (by simp)).trans_same (actsOn_modLane hmid.here l (rounded fl cnt))).trans_same hpass,
    congrArg (advancePos · s.cur.len) hplace.at_, ?_, _, congrArg (· ++ [_]) hplace.fifo⟩
  rw [hmid.lane_modLane]
  rfl

/-- An st.e in which every lane has its element. -/
theorem stE_stores {ord : Ord} {x : Src} {a : Fin 128} {ofs : BitVec 8} {b : Opnd} {e : Nat → ElemAt} {pg : Nat → PageAttr} {ow pa : Nat → Nat}
    {q : Nat → Nat × RCtx} (hs : SetOk s) (hp : NoPoison s) (hne : ∃ l, l ∈ s.cur.lanes) (herr : s.errors = []) (hb : plainSrc b.src = true)
    (hx : plainSrc x = true) (hen : ∀ l ∈ s.cur.lanes, enables (curLane s l).fmode = 0)
    (hfind : ∀ l ∈ s.cur.lanes, findElem s l (opnd s (.int 64) (op (.v a)) l) ((opnd s (.int 32) b l : Int) + ofs.toInt) .write = .go (e l))
    (he : ∀ l ∈ s.cur.lanes, PlainElem (e l) (pg l) (ow l) (pa l)) (hodd : ∀ l ∈ s.cur.lanes, elemOdd (elemRegs (e l)) (storeReg x) = false)
    (hq : ∀ l ∈ s.cur.lanes, storeCode (e l).fmt (opnd s (elemOTy (e l).fmt) (op x) l) (laneRnd (curLane s l) .dyn) = q l) :
    ∃ t, exec (.st .e ord x a ofs b) s = .next t ∧ (grp t s.cur.uid).st = (grp s s.cur.uid).st + 1 ∧ t.mem = s.mem ∧ ∀ l ∈ s.cur.lanes,
      ElemStored s (elemEntry s l ord (e l) (pg l) (ow l) (pa l) (q l).1) (q l).2.cnt l (lane t s.cur.uid l) := by
  have ho : plainOps [(op x, sizeOTy .e), (op (.v a), .int 64), (b, .int 32)] = true := plainOps_three hx rfl hb
  refine stores_of (os := [(op x, sizeOTy .e), (op (.v a), .int 64), (b, .int 32)]) hs hp hne ho
    (fun l => StAt.elem (e l) (q l).1 (q l).2.flags (q l).2.cnt) (show exec (.st .e ord x a ofs b) s = _ from rfl) (fun l hl => ?_) (fun _ _ => rfl)
    (fun l hl t ht => elemStored_act ho ht herr (he l hl) rfl)
  rw [if_pos rfl, sext8_eq]
  exact findStE_go hp (hfind l hl) (he l hl) hx (hodd l hl) (hen l hl) (hq l hl)

end Sys2Proof.Machine
end

section
/-! Elements, where they lie and what is done with them: the parts put together (R122, R128, R129). -/

-- one declaration after another, so that the text as a whole is checked within its memory
set_option Elab.async false

namespace Sys2Proof.Machine

variable {e : ElemAt}

/-- Where an element of w bits lies, from place pa on: place, EA, length and part of each run. -/
def elemPlaces (e : ElemAt) (w pa : Nat) : List (Nat × W64 × Nat × Part) :=
  match e.tail with
  | none => [(pa, e.va, (e.ofs + w + 7) / 8, .elem e.ofs w)]
  | some t => [(pa, e.va, 4096 - pa % 4096, .bytes),
      (t.1, e.va + BitVec.ofNat 64 (4096 - pa % 4096), (e.ofs + w + 7) / 8 - (4096 - pa % 4096), .bytes)]

/-- The class of the page that run j of an element lies on, the first lying on page a. -/
def elemClass (e : ElemAt) (a : PageAttr) (j : Nat) : RClass := if j = 0 then a.rclass else (e.tail.map (fun t => t.2)).getD a.rclass

theorem elemRuns_eq {a : PageAttr} {o pa w : Nat} (he : PlainElem e a o pa) (hw : fmtWidth e.fmt = w) (s : State) (u l : Nat) (ord : Ord) :
    elemRuns s u l ord e =
      (elemPlaces e w pa).mapIdx (fun j r => elemRun s u l ord (elemClass e a j) o r.1 r.2.1 r.2.2.1 r.2.2.2) := by
  subst hw
  unfold elemRuns elemPlaces elemClass
  rw [he.reach, he.scale]
  cases e.tail <;> rfl

/-- The runs of an element, by the places where it lies. -/
theorem runsNow_of {s : State} {l : Nat} {ord : Ord} {a : PageAttr} {o pa w : Nat} {bs : List (List Byte)} (he : PlainElem e a o pa)
    (hw : fmtWidth e.fmt = w)
    (hclean : ∀ j r, (elemPlaces e w pa)[j]? = some r → poisoned s.poison (mkey o r.1) r.2.2.1 = false ∧
      classMixed s (elemClass e a j) o r.1 r.2.2.1 = false)
    (hnow : (elemPlaces e w pa).map (fun r => loadAt s s.cur.uid l ord.sem ord.scope none o r.1 r.2.1 r.2.2.1 r.2.2.2) = bs.map LoadAt.now) :
    RunsNow s l ord e bs := by
  have hrun (r : ElemRun) (hr : r ∈ elemRuns s s.cur.uid l ord e) : ∃ j p, (elemPlaces e w pa)[j]? = some p ∧
      r = elemRun s s.cur.uid l ord (elemClass e a j) o p.1 p.2.1 p.2.2.1 p.2.2.2 := by
    rw [elemRuns_eq he hw, List.mem_mapIdx] at hr
    obtain ⟨j, hj, rfl⟩ := hr
    exact ⟨j, _, List.getElem?_eq_getElem hj, rfl⟩
  refine ⟨?_, fun r hr => ?_, fun r hr => ?_, fun r hr => ?_⟩
  · rw [← hnow, elemRuns_eq he hw, elemPlaces]
    cases e.tail <;> rfl
  · obtain ⟨j, p, hp, rfl⟩ := hrun r hr
    exact (hclean j p hp).1
  · obtain ⟨j, p, hp, rfl⟩ := hrun r hr
    exact (hclean j p hp).2
  · obtain ⟨j, p, -, rfl⟩ := hrun r hr
    rfl

/-- A register that is even where a pair is needed is not odd. -/
theorem elemOdd_false {cnt : Nat} {n : Option Nat} (h : ∀ k, n = some k → cnt = 2 → k % 2 = 0) : elemOdd cnt n = false := by
  cases n with
  | none => rfl
  | some k =>
    rw [elemOdd, Bool.and_eq_false_iff, beq_eq_false_iff_ne, beq_eq_false_iff_ne]
    by_cases hc : cnt = 2
    · exact .inr (by rw [h k rfl hc]; decide)
    · exact .inl hc

theorem enters_of_stored {s t : State} {l cnt : Nat} {f : FEntry} (hf : f.id = 0) (h : ElemStored s f cnt l (lane t s.cur.uid l)) : Enters s t l [f] := by
  obtain ⟨-, -, n, hn⟩ := h
  refine ⟨_, hn, ?_⟩
  rw [List.map_cons, List.map_nil]
  exact congrArg (fun k => [{ f with id := k }]) hf.symm

end Sys2Proof.Machine

open Sys2Proof Sys2Proof.Machine

/-- Settles O28: an element is found by the checks in their order; a load of its runs gives its bits, and a store enters its code. -/
theorem elementAccess : Obligations.ElementAccess := by
  refine ⟨fun s l A i acc f r pg o pa => ?_, fun s ord a ofs b f e pg ow pa hs hp hne herr hb hen => ?_⟩
  · intro at_ a w va n hh _ ⟨o0, p0, hat⟩
    refine ⟨fun hr => findElem_noRegion hh (regionAt_none hat hr),
      fun hr hf => ⟨fun hi => ⟨_, findElem_negative hh (regionAt_some hat hr) hf hi⟩, fun p1 p2 o2 pa2 hi hk hblock h1 h2 hpages hw => ?_⟩⟩
    exact findElem_go hh (regionAt_some hat hr) hf hi (elemVa_eq _ hi) (elemOfs_eq _ hi) rfl hk hblock h1 h2 hpages hw
  · intro u w found n cnt runs class_ clean
    have hplain {acc : AccKind} {l : Nat} : found acc l → PlainElem (e l) (pg l) (ow l) (pa l) := fun ⟨_, hreach, _, hpl, hsc, hbl⟩ => ⟨hreach, hpl, hsc, hbl⟩
    have hfmt {acc : AccKind} {l : Nat} : found acc l → (e l).fmt = f := fun ⟨_, _, hf, _⟩ => hf
    have hregs {acc : AccKind} {l : Nat} (h : found acc l) : elemRegs (e l) = cnt := by rw [(hplain h).regs, hfmt h]
    refine ⟨?_, ?_⟩
    · intro d bs hd hpair hok code val
      obtain ⟨t, ht, hld, hmem, hlanes⟩ := ldE_loads (ord := ord) (bs := bs) hs hp hne herr hb hd hen (fun l hl => (hok l hl).1.1)
        (fun l hl => hplain (hok l hl).1) (fun l hl => by rw [hregs (hok l hl).1]; exact elemOdd_false hpair)
        (fun l hl => runsNow_of (hplain (hok l hl).1) (congrArg fmtWidth (hfmt (hok l hl).1)) (hok l hl).2.1 (hok l hl).2.2)
      refine ⟨t, ht, hld, hmem, fun l hl => ?_⟩
      obtain ⟨hpend, hplace⟩ := hlanes l hl
      rw [hregs (hok l hl).1, elemFrom_value (hfmt (hok l hl).1) (hplain (hok l hl).1).scale] at hpend
      exact ⟨hpend, hplace⟩
    · intro x hx hv ho hc hh1 hok X v c q
      have hreg : ∀ k, storeReg x = some k → cnt = 2 → k % 2 = 0 := by
        intro k hk hcnt
        cases x with
        | v n => exact Option.some.inj hk ▸ hv n rfl hcnt
        | o n => exact Option.some.inj hk ▸ ho n rfl hcnt
        | c n => exact Option.some.inj hk ▸ hc n rfl hcnt
        | h1 => rw [hh1 rfl] at hcnt; cases hcnt
        | _ => cases hk
      obtain ⟨t, ht, hst, hmem, hlanes⟩ := stE_stores (ord := ord) (q := q) hs hp hne herr hb hx hen (fun l hl => (hok l hl).1)
        (fun l hl => hplain (hok l hl)) (fun l hl => by rw [hregs (hok l hl)]; exact elemOdd_false hreg)
        (fun l hl => by rw [hfmt (hok l hl), elemOTy_eq]; rfl)
      refine ⟨t, ht, hst, hmem, fun l hl => ?_⟩
      have hentry := enters_of_stored rfl (hlanes l hl)
      rw [elemEntry, elemBytes, hfmt (hok l hl)] at hentry
      exact ⟨(hlanes l hl).1, (hlanes l hl).2.1, hentry⟩
end

section
/-! A barrier that a lane's own arrival releases while a load of the lane is on its way (R148, R150, R223). -/

namespace Sys2Proof.Machine

/-- A load of the set's lane that is on its way. -/
def loadOut : ReadReq :=
  { kind := .bytes false, uid := 1, lane := 0, acc := 0, owner := 0, pa := 0, va := 0, size := 1, sem := .plain, scope := .core }

/-- One lane, with a load on its way, before a barrier of its gang that expects one arrival. -/
def loneArrival : State :=
  { striding 1 with
    gangs := [(2, { core := 0, launch := 3, groups := [1], privsz := 64, bars := [{ expect := 1 }] })]
    links := [(1, .read loadOut 0)] }

theorem loneArrival_tidy : Tidy loneArrival := by
  intro l hl
  obtain rfl := eq_zero_of_lane hl
  exact ⟨by decide, by decide, by decide, by decide⟩

/-- The lane waits for its load, and its wait keeps the phase that its arrival has made. -/
theorem loneArrival_waits :
    (laneThen (exec (.barSync ⟨.core, 0⟩) loneArrival)).st = .wait (.bar ⟨.core, 2, 0, 0⟩ 1 0 true) := by decide

/-- Refutes O17: a lane that arrives last at a `bar.sync` while a load of it is on its way waits with the phase after its arrival, where the statement
has the phase before it. -/
theorem not_barriers : ¬ Obligations.Barriers := by
  unfold Obligations.Barriers
  intro h
  obtain ⟨-, -, hsync, -⟩ := h loneArrival ⟨.core, 0⟩ { expect := 1 } ⟨rfl, by decide, by decide⟩ (by unfold NoPoison; decide) loneArrival_tidy
    (by unfold NoPendH; decide) rfl ⟨0, by decide⟩ (by decide) (by decide) rfl
  obtain ⟨t, ht, -, hlanes⟩ := hsync (by decide)
  have hlane := hlanes 0 (by decide)
  dsimp only at hlane
  rw [if_pos (.inr (by decide))] at hlane
  have hwait := loneArrival_waits
  rw [ht] at hwait
  exact absurd (hwait.symm.trans hlane.1) (by decide)

end Sys2Proof.Machine
end

section
/-! A group's start that meets a word of the constant bank in another class than its page (R331, R338, R339). -/

-- one declaration after another, so that the text as a whole is checked within its memory
set_option Elab.async false

namespace Sys2Proof.Machine

/-- A galley of the launch, locked, with one slug. -/
def lockedGalley : Galley := { entry := 0, launch := 3, gang := 0, slugs := [⟨0, 0⟩], expires := 0, locked := true }

/-- A launch whose constant bank is the first word of `gigaPage 5` (R327). -/
def bankLaunch : Launch :=
  { ctx := 0, record := [], img := leBytes 8 0xFF80000140000000 ++ List.replicate 28 0 ++ [1], prio := 0, devRing := false, launchid := 0, state := .running }

/-- A core with the galley, on a package with room in its error log, which holds that page's translation with a class that its bytes were not
written in. -/
def mixedBank : State :=
  { State.reset with
    pkg := .ready
    coremap := 1
    elsize := 1
    ctxs := [(0, { ctxctl := 0x80000000#32 })]
    cores := [(0, { ctx := some 0, galleys := [(9, lockedGalley)] })]
    launches := [(3, bankLaunch)]
    tlbs := [(0, [pinnedEntry])] }

theorem mixedBank_due : galleyDue mixedBank 0 9 = true := by decide +kernel

/-- Nothing is to be brought in first: the page is there. -/
theorem mixedBank_present : startAbsent mixedBank 3 0 = none := by decide +kernel

/-- The Foreman's read of the word counts the event, whose record goes to the log in host memory (R345). -/
theorem mixedBank_logs (lanes : Nat → List Lane) : (startGang mixedBank 0 3 (soloNeed bankLaunch) 0 .galley lanes).mem ≠ mixedBank.mem := by
  unfold startGang
  dsimp only
  refine ne_of_eq_of_ne (foldl_mem ?_ _ _) (ne_of_eq_of_ne (foldl_mem ?_ _ _) ?_)
  · exact fun _ _ => rfl
  · exact fun _ _ => rfl
  · decide +kernel

/-- A galley that may start, with nothing to be brought in first, becomes a group of its launch. -/
theorem galleyStart_starts {s : State} {core g : Nat} {x : Galley} (hx : tGet? (coreAt s core).galleys g = some x) (hf : (coreAt s core).fenced = false)
    (hdue : galleyDue s core g = true) (hclaims : noClaims s core false false = true) (habsent : startAbsent s x.launch 0 = none) :
    ∃ lanes, exec (.galleyStart core g) s = .next (modCore (startGang s core x.launch (soloNeed (launchAt s x.launch)) 0 .galley lanes) core
      (fun c => { c with galleys := tDel c.galleys g })) := by
  change ∃ lanes, execGalleyStart core g s = .next (modCore (startGang s core x.launch _ 0 .galley lanes) core _)
  unfold execGalleyStart
  rw [hx]
  simp only [hf, hdue, hclaims, habsent, Bool.not_true, Bool.or_self, Bool.false_eq_true, if_false]
  exact ⟨_, rfl⟩

/-- Refutes O49: the start of a galley reads the constant bank, and where that was written in another class than its page's the record of the event
is written to memory, which the statement has unchanged. -/
theorem not_workStarts : ¬ Obligations.WorkStarts := by
  unfold Obligations.WorkStarts
  intro h
  obtain ⟨hgalley, -⟩ := h mixedBank 0 3 rfl
  obtain ⟨-, -, -, hstarts⟩ := hgalley 9 lockedGalley rfl
  have hclaims : noClaims mixedBank 0 false false = true := by decide +kernel
  obtain ⟨t, ht, -, -, hmem, -⟩ := hstarts mixedBank_due rfl hclaims mixedBank_present
  obtain ⟨lanes, hexec⟩ := galleyStart_starts (x := lockedGalley) rfl rfl mixedBank_due hclaims mixedBank_present
  obtain rfl := Host.Outcome.next.inj (hexec.symm.trans ht)
  exact mixedBank_logs lanes hmem

end Sys2Proof.Machine
end

section
/-! An element of a collective's input that lies on two pages (R280, R315, R339): its parts are read one after the other, and the translation held for the
first may replace the one that the second was to use. -/

-- one declaration after another, so that the text as a whole is checked within its memory
set_option Elab.async false

namespace Sys2Proof.Machine

/-- The last two bytes of `gigaPage 4`, where the element begins; the rest of it lies in `gigaPage 5`. -/
def straddledVa : W64 := 0xFF8000013FFFFFFE#64

/-- The record of one of two members, of one element of 4 bytes there (R281), whose result goes to the begin of `gigaPage 4`. -/
def straddlingRecord (rank : Byte) : List Byte :=
  [0, 8, 0, 0, 2, 0, rank, 0] ++ leBytes 8 straddledVa.toNat ++ leBytes 8 0xFF80000100000000 ++ leBytes 4 1 ++ leBytes 4 0

/-- The command of the member of rank 0, which runs. -/
def straddlingCmd : Cmd :=
  { kind := .coll (straddlingRecord 0), by_ := ⟨1, 2, 0, 3, 0, 0, .u, 0, 0⟩, srcAt := 0, state := .running }

/-- The meeting of that member and one on another package. -/
def straddlingMeet : Meet := { ctx := 0, cid := 0, nmem := 2, members := [(0, 9)], peers := [(1, straddlingRecord 1, [0])], come := 2 }

/-- The member at its meeting, with the full TLB of `crowdedTlb`. -/
def straddling : State := { crowdedTlb with cmds := [(9, straddlingCmd)], meets := [(0, straddlingMeet)] }

theorem straddling_next : coNext straddling straddlingMeet = some (9, 0, straddledVa.toNat) := by decide +kernel

theorem straddling_plate : coPlate straddling 9 straddledVa.toNat 4 = none := by decide +kernel

/-- Before the read each part finds bytes: `spareEntry` stands before `pinnedEntry`. -/
theorem straddling_elem : coElem straddling straddlingCmd.by_ [] straddledVa.toNat 4 = .ok [0, 0, 0, 0] := by decide +kernel

/-- For the translation of `gigaPage 4` that of `gigaPage 5` goes, the bytes there count as ones of another class, and the event's record goes to the
log in host memory (R315, R339, R345). -/
theorem straddling_logs : (coReadMany 0 1 straddling).mem ≠ straddling.mem := by decide +kernel

/-- Refutes O48: the read of an element that lies on two pages may replace a translation in a full TLB, and then counts an event, whose record is
written to memory, which the statement has unchanged. -/
theorem not_collectiveEvents : ¬ Obligations.CollectiveEvents := by
  unfold Obligations.CollectiveEvents
  intro h
  obtain ⟨-, -, hstart, -⟩ := h straddling rfl
  obtain ⟨-, hruns⟩ := hstart 0 0 straddlingMeet rfl
  obtain ⟨hreads, -⟩ := hruns (by decide +kernel) (by decide +kernel)
  obtain ⟨-, -, hread⟩ := hreads 9 0 straddledVa.toNat straddling_next
  obtain ⟨-, hmem, -⟩ := hread [0, 0, 0, 0] straddling_plate straddling_elem
  exact straddling_logs hmem

end Sys2Proof.Machine
end

section
/-! The issue of an engine instruction (R125, R141, R142): the leader's operands and checks decide, and every lane of the set commits. -/

-- one declaration after another, so that the text as a whole is checked within its memory
set_option Elab.async false

namespace Sys2Proof.Machine

/-! ### The commit of every lane (R125) -/

/-- A lane that commits an instruction of n bytes and goes on past it. -/
def passedLane (n : Nat) (ln : Lane) : Lane := advance (commitLane ln n) n

theorem passedLane_at (n : Nat) (ln : Lane) : (passedLane n ln).at_ = advancePos ln.at_ n := rfl

theorem curRec_passedLane {ln : Lane} (ht : TidyLane ln) (n : Nat) : curRec (passedLane n ln) = committed ln n := by
  have hd : ln.depth < ln.recs.length := by rw [ht.recs]; exact Nat.lt_succ_of_le ht.depth
  simp [passedLane, advance, commitLane, recordLane, modRec, passCommits, curRec, committed, nth_modNth, hd]

theorem modNth_modNth {α : Type} (l : List α) (i : Nat) (f g : α → α) : modNth (modNth l i f) i g = modNth l i (fun x => g (f x)) := by
  induction l generalizing i with
  | nil => simp
  | cons x t ih =>
    cases i with
    | zero => rfl
    | succ i => exact congrArg (x :: ·) (ih i)

/-- Where no result of the last-result file is pending, writing those changes nothing. -/
theorem flushH_none {s : State} {u : Nat} (hg : (tGet? s.groups u).isSome = true) (hp : NoPendH s u) (l : Nat) : flushH s u l = s := by
  obtain ⟨g, hget⟩ := Option.isSome_iff_exists.1 hg
  have hgrp : grp s u = g := by rw [grp, hget, Option.getD_some]
  have hsame := grp_flushH hg hp l
  rw [flushH, grp_modGrp s u u _ hg, if_pos rfl, hgrp] at hsame
  rw [flushH]
  refine (congrArg (fun gs => { s with groups := gs }) (tMod_congr (fun x hx => ?_))).trans (modGrp_id s u)
  obtain rfl : g = x := Option.some.inj (hget.symm.trans hx)
  exact hsame

theorem commitAll_eq {s : State} (hg : (tGet? s.groups s.cur.uid).isSome = true) (hp : NoPendH s s.cur.uid) :
    commitAll s = modCur s s.cur.lanes (fun _ => passedLane s.cur.len) := by
  have hone {t : State} (hcur : t.cur = s.cur) (hgt : (tGet? t.groups s.cur.uid).isSome = true) (hpt : NoPendH t s.cur.uid) (l : Nat) :
      advanceCur (commitCur t l) l = modLane t s.cur.uid l (passedLane s.cur.len) := by
    rw [advanceCur, commitCur, hcur, flushH_none hgt hpt]
    simp only [modLane, modGrp_modGrp, modGrp_cur, hcur]
    exact modGrp_congr (fun g => congrArg (fun ls => { g with lanes := ls }) (modNth_modNth ..))
  have hall (ls : List Nat) {t : State} (hcur : t.cur = s.cur) (hgt : (tGet? t.groups s.cur.uid).isSome = true) (hpt : NoPendH t s.cur.uid) :
      ls.foldl (fun s l => advanceCur (commitCur s l) l) t = ls.foldl (fun t l => modLane t s.cur.uid l (passedLane s.cur.len)) t := by
    induction ls generalizing t with
    | nil => rfl
    | cons l ls ih =>
      rw [List.foldl_cons, List.foldl_cons, hone hcur hgt hpt]
      exact ih hcur (by rw [modLane, isSome_modGrp, hgt]) (hpt.modLane hgt l _)
  exact (hall s.cur.lanes rfl hg hp).trans (foldl_modLane s s.cur.uid s.cur.lanes (fun _ => passedLane s.cur.len))

/-- What an engine instruction did, r, before the lanes of its set commit: but for an acquire that is noted the set's lanes stand as they did, and the
same results are pending in its group. -/
structure BeforeCommit (s r : State) : Prop where
  cur : r.cur = s.cur
  here : (tGet? r.groups s.cur.uid).isSome = true
  length : (grp r s.cur.uid).lanes.length = (grp s s.cur.uid).lanes.length
  lane : ∀ l ∈ s.cur.lanes, { lane r s.cur.uid l with acqStep := 0 } = { curLane s l with acqStep := 0 }
  pend : (grp r s.cur.uid).pend = (grp s s.cur.uid).pend

/-- Every lane of the set has committed and passed its instruction (R125). -/
def Commits (s t : State) : Prop :=
  ∀ l ∈ s.cur.lanes, (lane t s.cur.uid l).at_ = advancePos (curLane s l).at_ s.cur.len ∧ curRec (lane t s.cur.uid l) = committed (curLane s l) s.cur.len

/-- A change of lanes leaves their number and the rest of the group alone. -/
theorem grp_modLanes_rest (s : State) (u : Nat) (ls : List Nat) (f : Nat → Lane → Lane) (v : Nat) :
    (grp (modLanes s u ls f) v).lanes.length = (grp s v).lanes.length ∧ { grp (modLanes s u ls f) v with lanes := [] } = { grp s v with lanes := [] } := by
  unfold grp modLanes modGrp
  rw [tGet?_tMod]
  split
  · cases tGet? s.groups v with
    | none => exact ⟨rfl, rfl⟩
    | some g => exact lanes_foldl_modLaneG ls f g
  · exact ⟨rfl, rfl⟩

namespace BeforeCommit

variable {s r : State}

theorem congr (h : BeforeCommit s r) {q : State} (hcur : q.cur = r.cur) (hg : q.groups = r.groups) : BeforeCommit s q where
  cur := hcur.trans h.cur
  here := by rw [hg]; exact h.here
  length := by rw [grp, hg]; exact h.length
  lane l hl := by rw [Machine.lane, grp, hg]; exact h.lane l hl
  pend := by rw [grp, hg]; exact h.pend

theorem of_groups (hs : SetOk s) (hcur : r.cur = s.cur) (hg : r.groups = s.groups) : BeforeCommit s r :=
  congr (r := s) ⟨rfl, hs.here, rfl, fun _ _ => rfl, rfl⟩ hcur hg

/-- Counters of the group that go up or down stand in no lane's way. -/
theorem modGrp (h : BeforeCommit s r) (f : Group → Group) (hl : ∀ g, (f g).lanes = g.lanes) (hp : ∀ g, (f g).pend = g.pend) :
    BeforeCommit s (modGrp r s.cur.uid f) := by
  have hgrp : grp (Machine.modGrp r s.cur.uid f) s.cur.uid = f (grp r s.cur.uid) := by rw [grp_modGrp r _ _ _ h.here, if_pos rfl]
  exact ⟨h.cur, (isSome_modGrp ..).trans h.here, by rw [hgrp, hl, h.length],
    fun l hm => by rw [Machine.lane, hgrp, laneAt, hl]; exact h.lane l hm, by rw [hgrp, hp, h.pend]⟩

theorem commitAll_eq (h : BeforeCommit s r) (hp : NoPendH s s.cur.uid) : commitAll r = modCur r s.cur.lanes (fun _ => passedLane s.cur.len) := by
  have hr := Machine.commitAll_eq (s := r) (by rw [h.cur]; exact h.here) (by rw [h.cur, NoPendH, h.pend]; exact hp)
  rwa [h.cur] at hr

theorem commits (h : BeforeCommit s r) (hs : SetOk s) (hp : NoPendH s s.cur.uid) (ht : Tidy s) : Commits s (commitAll r) := by
  intro l hl
  have hlane : Machine.lane (commitAll r) s.cur.uid l = passedLane s.cur.len (Machine.lane r s.cur.uid l) := by
    rw [h.commitAll_eq hp, modCur, h.cur, lane_modLanes r _ _ _ l h.here hs.nodup (by rw [h.length]; exact hs.bound l hl), if_pos hl]
  have hsame := h.lane l hl
  have htidy : TidyLane (Machine.lane r s.cur.uid l) := by
    obtain ⟨hrecs, hdepth, hstreams, hpos⟩ := ht l hl
    exact ⟨(congrArg (fun ln => ln.recs.length) hsame).trans hrecs, (congrArg Lane.depth hsame).trans_le hdepth,
      (congrArg (fun ln => ln.q.length) hsame).trans hstreams, fun x hx => hpos x ((congrArg Lane.recs hsame) ▸ hx)⟩
  rw [hlane, passedLane_at, curRec_passedLane htidy]
  exact ⟨(congrArg (fun ln : Lane => advancePos ln.at_ s.cur.len) hsame :), (congrArg (fun ln => committed ln s.cur.len) hsame :)⟩

/-- Beside the groups the commit changes nothing. -/
theorem rest (h : BeforeCommit s r) (hp : NoPendH s s.cur.uid) : { commitAll r with groups := r.groups } = r := by rw [h.commitAll_eq hp]; rfl

theorem group (h : BeforeCommit s r) (hp : NoPendH s s.cur.uid) (u : Nat) : { grp (commitAll r) u with lanes := [] } = { grp r u with lanes := [] } := by
  rw [h.commitAll_eq hp]
  exact (grp_modLanes_rest ..).2

end BeforeCommit

/-! ### The leader's operands and checks (R141, R142) -/

theorem laneIn_x0 (s : State) (p : Opnd × OTy) (os : List (Opnd × OTy)) (l : Nat) : (laneIn s (p :: os) l).x 0 = opnd s p.2 p.1 l := rfl
theorem laneIn_x1 (s : State) (p q : Opnd × OTy) (os : List (Opnd × OTy)) (l : Nat) : (laneIn s (p :: q :: os) l).x 1 = opnd s q.2 q.1 l := rfl

/-- Where the leader's checks find what is asked for, it is done, and every lane commits. -/
theorem runEngine_go {α : Type} {s : State} {os : List (Opnd × OTy)} {find : State → LaneIn → Find α} {act : State → LaneIn → α → State} {y : α}
    (hp : NoPoison s) (ho : plainOps os = true) (hf : find s (laneIn s os (leader s)) = .go y) :
    runEngine s os find act = commitAll (act s (laneIn s os (leader s)) y) := by
  unfold runEngine runLeader
  simp only [below, Nat.not_lt_zero, decide_false, Bool.false_eq_true, if_false]
  rw [readLane_opnd hp os (leader s) false ho]
  have hf' : find s ⟨leader s, os.map (fun p => opnd s p.2 p.1 (leader s)), none, crosses s os (leader s)⟩ = .go y := hf
  simp only [hf']
  rfl

/-- An instruction of the engine group was issued from s: r is what it did, t what the commit of every lane made of that. -/
structure SetIssued (s r t : State) : Prop where
  commits : Commits s t
  rest : { t with groups := r.groups } = r
  group : ∀ u, { grp t u with lanes := [] } = { grp r u with lanes := [] }

namespace SetIssued

variable {s r t : State}

theorem mem (h : SetIssued s r t) : t.mem = r.mem := (congrArg State.mem h.rest :)
theorem cmds (h : SetIssued s r t) : t.cmds = r.cmds := (congrArg State.cmds h.rest :)
theorem cores (h : SetIssued s r t) : t.cores = r.cores := (congrArg State.cores h.rest :)
theorem tasks (h : SetIssued s r t) : t.tasks = r.tasks := (congrArg State.tasks h.rest :)
theorem dies (h : SetIssued s r t) : t.dies = r.dies := (congrArg State.dies h.rest :)
theorem ctxs (h : SetIssued s r t) : t.ctxs = r.ctxs := (congrArg State.ctxs h.rest :)
theorem coreAt (h : SetIssued s r t) (k : Nat) : coreAt t k = coreAt r k := by rw [Machine.coreAt, Machine.coreAt, h.cores]
theorem dieAt (h : SetIssued s r t) (k : Nat) : dieAt t k = dieAt r k := by rw [Machine.dieAt, Machine.dieAt, h.dies]
theorem ctxAt (h : SetIssued s r t) (k : Nat) : ctxAt t k = ctxAt r k := by rw [Machine.ctxAt, Machine.ctxAt, h.ctxs]
theorem cp (h : SetIssued s r t) (u : Nat) : (grp t u).cp = (grp r u).cp := (congrArg Group.cp (h.group u) :)
theorem tl (h : SetIssued s r t) (u : Nat) : (grp t u).tl = (grp r u).tl := (congrArg Group.tl (h.group u) :)

end SetIssued

/-- The rule for the engine group: what the leader's checks find is done, and every lane commits. -/
theorem issues_of {α : Type} {s r : State} {i : Instr} {os : List (Opnd × OTy)} {find : State → LaneIn → Find α} {act : State → LaneIn → α → State} {y : α}
    (hs : SetOk s) (hp : NoPoison s) (ht : Tidy s) (hph : NoPendH s s.cur.uid) (ho : plainOps os = true) (hexec : exec i s = .next (runEngine s os find act))
    (hf : find s (laneIn s os (leader s)) = .go y) (hact : act s (laneIn s os (leader s)) y = r) (hb : BeforeCommit s r) :
    ∃ t, exec i s = .next t ∧ SetIssued s r t := by
  refine ⟨_, hexec, ?_⟩
  rw [runEngine_go hp ho hf, hact]
  exact ⟨hb.commits hs hph ht, hb.rest hph, hb.group hph⟩

end Sys2Proof.Machine
end

section
/-! The record of an engine instruction (R142, R217): its bytes in device memory, as a load of the set reads them. -/

-- one declaration after another, so that the text as a whole is checked within its memory
set_option Elab.async false

namespace Sys2Proof.Machine

/-- n bytes m lie at pointer p, on an ordinary page without errors, which the lanes of the set read as a load of each does; where one of them must send,
at the owner. -/
def DevAt (s : State) (p n : Nat) (m : List Byte) : Prop :=
  ∃ g o pa, reach s (vmidOf s (ctxOf s s.cur.uid)) (asidOf s (ctxOf s s.cur.uid)) (BitVec.ofNat 64 p) .read (curLane s (leader s)).mode = .page g o pa ∧
    g.kind = .ordinary ∧ Clean s g o pa n ∧
    (((∃ l ∈ s.cur.lanes, loadAt s s.cur.uid l .plain .core none o pa (BitVec.ofNat 64 p) n = .send) ∧ rdBytes s (mkey o pa) n = m) ∨
      ((∀ l ∈ s.cur.lanes, loadAt s s.cur.uid l .plain .core none o pa (BitVec.ofNat 64 p) n ≠ .send) ∧
        loadAt s s.cur.uid (leader s) .plain .core none o pa (BitVec.ofNat 64 p) n = .now m))

theorem devReach_go {s : State} {va : W64} {g : PageAttr} {o pa : Nat} (hk : g.kind = .ordinary)
    (h : reach s (vmidOf s (ctxOf s s.cur.uid)) (asidOf s (ctxOf s s.cur.uid)) va .read (curLane s (leader s)).mode = .page g o pa) :
    devReach s va = .go (.page g o pa) := by
  unfold devReach
  simp only [h, hk]
  rfl

/-- A load that reads the memory of its own die finds what memory holds. -/
theorem loadAt_ownMem {s : State} {u l o pa n : Nat} {va : W64} {m : List Byte} (hown : ownMem s u l .plain .core o pa va n = true)
    (h : loadAt s u l .plain .core none o pa va n = .now m) : m = rdBytes s (mkey o pa) n := by
  simp only [ownMem, Bool.and_eq_true, beq_iff_eq, List.isEmpty_iff, Option.isNone_iff_eq_none] at hown
  obtain ⟨⟨⟨hdie, hentries⟩, hbuffer⟩, hcore⟩ := hown
  unfold loadAt at h
  simp only [hentries, List.getLast?_nil, hbuffer, hcore, ← hdie, if_true] at h
  split at h
  · simp at h
  · split at h
    · simp at h
    · exact (LoadAt.now.inj h).symm

/-- The bytes that a record's load reads near the core, or that memory holds. -/
theorem recordNear_getD {s : State} {o pa n : Nat} {va : W64} {m : List Byte}
    (h : ((∃ l ∈ s.cur.lanes, loadAt s s.cur.uid l .plain .core none o pa va n = .send) ∧ rdBytes s (mkey o pa) n = m) ∨
      ((∀ l ∈ s.cur.lanes, loadAt s s.cur.uid l .plain .core none o pa va n ≠ .send) ∧ loadAt s s.cur.uid (leader s) .plain .core none o pa va n = .now m)) :
    (recordNear s none o pa va n).getD (rdBytes s (mkey o pa) n) = m := by
  unfold recordNear
  rcases h with ⟨⟨l, hl, hsend⟩, hm⟩ | ⟨hnone, hnow⟩
  · have hany : s.cur.lanes.any (fun l => loadAt s s.cur.uid l .plain .core none o pa va n == .send) = true :=
      List.any_eq_true.2 ⟨l, hl, by simp [hsend]⟩
    simp only [hany, if_true, ite_self, Option.getD_none, hm]
  · by_cases hown : ownMem s s.cur.uid (leader s) .plain .core o pa va n = true
    · simp only [hown, Option.isNone_none, Bool.and_self, if_true, Option.getD_none]
      exact (loadAt_ownMem hown hnow).symm
    · have hany : s.cur.lanes.any (fun l => loadAt s s.cur.uid l .plain .core none o pa va n == .send) = false :=
        List.any_eq_false.2 (fun l hl => by simpa using hnone l hl)
      simp [hown, hany, hnow]

theorem devBytes_go {s : State} {p n : Nat} {m : List Byte} (h : DevAt s p n m) :
    devBytes s (BitVec.ofNat 64 p) n = .go m := by
  obtain ⟨g, o, pa, hreach, hk, ⟨hpois, hmix⟩, hload⟩ := h
  unfold devBytes
  simp only [devReach_go hk hreach, dataBad_clean hmix, hpois, dataBytes_clean hmix, Bool.false_eq_true, if_false]
  have hnear := recordNear_getD hload
  cases hr : recordNear s none o pa (BitVec.ofNat 64 p) n <;> rw [hr] at hnear <;> rw [← hnear] <;> rfl

theorem devRecord_go {s : State} {p : Nat} {m : List Byte} (h : DevAt s p 64 m) (hp : p % 64 = 0) :
    devRecord s p = .go m := by
  rw [devRecord, if_neg (by simp [hp]), devBytes_go h]

/-- Its read counts nothing. -/
theorem devMet_eq {s : State} {p n : Nat} {m : List Byte} (h : DevAt s p n m) (he : s.errors = []) : devMet s p n = s := by
  obtain ⟨g, o, pa, hreach, hk, ⟨-, hmix⟩, -⟩ := h
  unfold devMet
  simp only [devReach_go hk hreach]
  split
  · rfl
  · exact dataMet_clean he hmix _

theorem recMet_dev {s : State} {p : Nat} {m : List Byte} (h : DevAt s p 64 m) (he : s.errors = []) : recMet s false p = s := devMet_eq h he

end Sys2Proof.Machine
end

section
/-! Tape commands, launches and tasks of a launch that buffers nothing (R156, R157, R277). -/

-- one declaration after another, so that the text as a whole is checked within its memory
set_option Elab.async false

namespace Sys2Proof.Machine

/-! ### Tapes and launches -/

theorem tapeSplit_mark (rs : List (List Byte)) (T : List TapeEnt) : tapeSplit (rs.map TapeEnt.entry ++ TapeEnt.mark :: T) = (rs, T) := by
  induction rs with
  | nil => rfl
  | cons r rs ih => simp only [List.map_cons, List.cons_append, tapeSplit, ih]

section Set

variable {s : State} (hs : SetOk s) (hp : NoPoison s) (ht : Tidy s) (hph : NoPendH s s.cur.uid)

/-- The current set's context, and the launch whose context it is. -/
def curCtx (s : State) : Nat := ctxOf s s.cur.uid
def curLaunch (s : State) : Nat := launchOf s s.cur.uid

theorem tapeFull_iff (hr : isReplay (launchAt s (curLaunch s)) = false) :
    tapeFull s = false ↔ (ctxAt s (curCtx s)).tape.length < (ctxAt s (curCtx s)).tapecap.toNat := by
  have hheld : tapeHeld s = false := hr
  simp [tapeFull, hheld, curCtx]

include hs hp ht hph

/-- A tape command that changes the tape and the unwinds of the context. -/
theorem tapes_of {α : Type} {i : Instr} {os : List (Opnd × OTy)} {find : State → LaneIn → Find α} {act : State → LaneIn → α → State} {y : α}
    {T : List TapeEnt} {us : List Unwind} (ho : plainOps os = true) (hexec : exec i s = .next (runEngine s os find act))
    (hf : find s (laneIn s os (leader s)) = .go y)
    (hact : act s (laneIn s os (leader s)) y = modCtx s (curCtx s) (fun x => { x with tape := T, unwinds := us })) :
    ∃ t, exec i s = .next t ∧ Commits s t ∧ ctxAt t (curCtx s) = { ctxAt s (curCtx s) with tape := T, unwinds := us } := by
  obtain ⟨t, hexec, hi⟩ := issues_of hs hp ht hph ho hexec hf hact (.of_groups hs rfl rfl)
  exact ⟨t, hexec, hi.commits, by rw [hi.ctxAt, ctxAt_modCtx, if_pos rfl]⟩

theorem tapePush_tapes {a : Src} {r : List Byte} (ha : plainSrc a = true) (he : s.errors = []) (hrep : isReplay (launchAt s (curLaunch s)) = false)
    (h64 : opnd s (.int 64) (op a) (leader s) % 64 = 0) (hdev : DevAt s (opnd s (.int 64) (op a) (leader s)) 64 r) (hk : fld r 22 1 = 1 ∨ fld r 22 1 = 2)
    (hroom : (ctxAt s (curCtx s)).tape.length < (ctxAt s (curCtx s)).tapecap.toNat) :
    ∃ t, exec (.tapePush a) s = .next t ∧ Commits s t ∧
      ctxAt t (curCtx s) = { ctxAt s (curCtx s) with tape := .entry r :: (ctxAt s (curCtx s)).tape } := by
  have hheld : tapeHeld s = false := hrep
  refine tapes_of hs hp ht hph (y := r) (plainOps_one ha) rfl ?_ ?_
  · simp only [laneIn_x0, devRecord_go hdev h64, recKind, hk, (tapeFull_iff hrep).2 hroom, true_and, if_true]
  · simp only [laneIn_x0, recMet_dev hdev he, tapeDo, hheld, Bool.false_eq_true, if_false]
    rfl

theorem tapeMark_tapes (hrep : isReplay (launchAt s (curLaunch s)) = false)
    (hroom : (ctxAt s (curCtx s)).tape.length < (ctxAt s (curCtx s)).tapecap.toNat) :
    ∃ t, exec .tapeMark s = .next t ∧ Commits s t ∧ ctxAt t (curCtx s) = { ctxAt s (curCtx s) with tape := .mark :: (ctxAt s (curCtx s)).tape } := by
  have hheld : tapeHeld s = false := hrep
  refine tapes_of hs hp ht hph (y := ()) rfl rfl ?_ ?_
  · rw [(tapeFull_iff hrep).2 hroom]
    rfl
  · simp only [tapeDo, hheld, Bool.false_eq_true, if_false]
    rfl

theorem tapeUnwind_tapes (hrep : isReplay (launchAt s (curLaunch s)) = false) {rs : List (List Byte)} {T : List TapeEnt}
    (htape : (ctxAt s (curCtx s)).tape = rs.map TapeEnt.entry ++ TapeEnt.mark :: T) :
    ∃ t, exec .tapeUnwind s = .next t ∧ Commits s t ∧ ctxAt t (curCtx s) = { ctxAt s (curCtx s) with
      tape := T
      unwinds := (ctxAt s (curCtx s)).unwinds ++ (if rs = [] then [] else [⟨rs, curLaunch s, (launchAt s (curLaunch s)).prio, false⟩]) } := by
  have hheld : tapeHeld s = false := hrep
  refine tapes_of hs hp ht hph (y := ()) rfl rfl rfl ?_
  simp only [tapeDo, hheld, Bool.false_eq_true, if_false, tapeDetach]
  unfold modCtx
  rw [show (ctxAt s (ctxOf s s.cur.uid)).tape = _ from htape, tapeSplit_mark]
  cases rs <;> simp [curCtx, curLaunch]

theorem launch_appends (p : Fin 8) {a : Src} {r : List Byte} (ha : plainSrc a = true) (he : s.errors = [])
    (h64 : opnd s (.int 64) (op a) (leader s) % 64 = 0) (hdev : DevAt s (opnd s (.int 64) (op a) (leader s)) 64 r) (hk : fld r 22 1 = 1)
    (hrings : (ctxAt s (curCtx s)).rings.length = 8) :
    ∃ t, exec (.launch p a) s = .next t ∧ Commits s t ∧
      (nth {} (ctxAt t (curCtx s)).rings p.val).dev = (nth {} (ctxAt s (curCtx s)).rings p.val).dev ++ [r] := by
  obtain ⟨t, hexec, hi⟩ := issues_of (i := .launch p a) (find := findLaunch) (y := r)
    (r := modCtx s (curCtx s) (fun c => { c with rings := modNth c.rings p.val (fun q => { q with dev := q.dev ++ [r] }) }))
    hs hp ht hph (plainOps_one ha) rfl (by simp [findLaunch, laneIn_x0, devRecord_go hdev h64, recKind, hk])
    (by simp only [laneIn_x0, recMet_dev hdev he]; rfl) (.of_groups hs rfl rfl)
  refine ⟨t, hexec, hi.commits, ?_⟩
  rw [hi.ctxAt, ctxAt_modCtx, if_pos rfl]
  simp [nth_modNth, hrings]

end Set

end Sys2Proof.Machine
end

section
/-! Tasks (R157): those that `task.post` makes of its records, and the gate that `task.done` counts down. -/

-- one declaration after another, so that the text as a whole is checked within its memory
set_option Elab.async false

namespace Sys2Proof.Machine

/-! ### The counter of a task -/

/-- The word that a task record names, where it lies on an ordinary page without errors. -/
def CounterAt (s : State) (acc : AccKind) (p o pa : Nat) : Prop :=
  ∃ g, reach s (vmidOf s (ctxOf s s.cur.uid)) (asidOf s (ctxOf s s.cur.uid)) (BitVec.ofNat 64 p) acc (curLane s (leader s)).mode = .page g o pa ∧
    g.kind = .ordinary ∧ Clean s g o pa 4

theorem counterAt_go {s : State} {acc : AccKind} {p o pa : Nat} (hr : isReplay (launchAt s (curLaunch s)) = false) (h : CounterAt s acc p o pa) :
    counterAt s p acc = .go (some (o, pa)) := by
  obtain ⟨g, hreach, hk, ⟨hpois, hmix⟩⟩ := h
  have hplace (r : Reach) : bufferedPlace s r = false := by
    unfold bufferedPlace
    simp only [show isReplay (launchAt s (launchOf s s.cur.uid)) = false from hr, Bool.false_and]
  unfold counterAt
  simp [hplace, hreach, hk, dataBad_clean hmix, hpois]

/-! ### The tasks of a post -/

/-- The task that a post makes of a record with its gate. -/
def taskOf (s : State) (r : List Byte × Option (Nat × Nat)) : Task :=
  { record := r.1, launch := launchOf s s.cur.uid, gang := (grp s s.cur.uid).gang, die := dieOf (coreOf s s.cur.uid),
    ready := gateOpen s r.1 r.2, gate := r.2, held := !gateOpen s r.1 r.2 }

/-- One record is posted. -/
def postOne (s : State) (r : List Byte × Option (Nat × Nat)) : State :=
  { s with fresh := s.fresh + 1, tasks := tPut s.tasks s.fresh (taskOf s r), free := s.free + 1 }

/-- A gate of this package is none or a counter on it: what it reads does not hang on values left open. -/
def GateHere (r : List Byte × Option (Nat × Nat)) : Prop := ∀ o pa, r.2 = some (o, pa) → o < 16

theorem gateOpen_none (s : State) {r : List Byte} (h : fld r 32 8 = 0) (g : Option (Nat × Nat)) : gateOpen s r g = true := if_pos h

theorem gateOpen_some (s : State) {r : List Byte} {o pa : Nat} (h : fld r 32 8 ≠ 0) (ho : o < 16) :
    gateOpen s r (some (o, pa)) = decide (rdNat s (mkey o pa) 4 = 0) := by
  simp [gateOpen, h, Nat.not_le.2 ho, beq_eq_decide]

theorem taskOf_postOne (s : State) {r : List Byte × Option (Nat × Nat)} (hr : GateHere r) (q : List Byte × Option (Nat × Nat)) :
    taskOf (postOne s q) r = taskOf s r := by
  have hgate : gateOpen (postOne s q) r.1 r.2 = gateOpen s r.1 r.2 := by
    by_cases h : fld r.1 32 8 = 0
    · rw [gateOpen_none _ h, gateOpen_none _ h]
    · cases hg : r.2 with
      | none => simp [gateOpen, h]
      | some p =>
        rw [gateOpen_some _ h (hr p.1 p.2 hg), gateOpen_some _ h (hr p.1 p.2 hg)]
        rfl
  rw [taskOf, hgate]
  rfl

/-- Each record becomes a task, under the numbers that are taken in their order; tasks of lower numbers stay. -/
theorem tasks_foldl_postOne (rs : List (List Byte × Option (Nat × Nat))) (s : State) (hr : ∀ r ∈ rs, GateHere r) :
    (∀ i, i < s.fresh → tGet? (rs.foldl postOne s).tasks i = tGet? s.tasks i) ∧
      ∀ j r, rs[j]? = some r → tGet? (rs.foldl postOne s).tasks (s.fresh + j) = some (taskOf s r) := by
  induction rs generalizing s with
  | nil => exact ⟨fun _ _ => rfl, fun j r h => by simp at h⟩
  | cons q rs ih =>
    obtain ⟨hlow, hput⟩ := ih (postOne s q) (fun r h => hr r (by simp [h]))
    have hput0 : tGet? (postOne s q).tasks s.fresh = some (taskOf s q) := tGet?_tPut_self ..
    refine ⟨fun i hi => (hlow i (Nat.lt_succ_of_lt hi)).trans (tGet?_tPut_ne _ _ (Nat.ne_of_gt hi)), fun j r hj => ?_⟩
    cases j with
    | zero =>
      obtain rfl : q = r := by simpa using hj
      exact (hlow s.fresh (Nat.lt_succ_self _)).trans hput0
    | succ j =>
      have hmem : r ∈ q :: rs := List.mem_of_getElem? hj
      have h := hput j r (by simpa using hj)
      rw [taskOf_postOne s (hr r hmem) q, show (postOne s q).fresh = s.fresh + 1 from rfl, Nat.add_right_comm] at h
      exact h

theorem foldl_postOne_groups (rs : List (List Byte × Option (Nat × Nat))) (s : State) :
    (rs.foldl postOne s).groups = s.groups ∧ (rs.foldl postOne s).cur = s.cur := by
  induction rs generalizing s with
  | nil => exact ⟨rfl, rfl⟩
  | cons r rs ih => exact ih (postOne s r)

/-- The records of a post none of which has a gate. -/
theorem findTasks_go {s : State} {n a : Nat} {R : Nat → List Byte}
    (h : ∀ j, j < n → (a + 64 * j) % 64 = 0 ∧ DevAt s (a + 64 * j) 64 (R j) ∧ fld (R j) 22 1 = 0 ∧ fld (R j) 32 8 = 0) :
    findTasks s a n = .go ((List.range n).map (fun j => (R j, none))) := by
  induction n generalizing a R with
  | zero => rfl
  | succ n ih =>
    obtain ⟨h64, hdev, hk, hg⟩ := h 0 (Nat.succ_pos n)
    rw [Nat.mul_zero, Nat.add_zero] at h64 hdev
    have hrest := ih (a := a + 64) (R := fun j => R (j + 1)) (fun j hj => by
      have := h (j + 1) (Nat.succ_lt_succ hj)
      rwa [show a + 64 * (j + 1) = a + 64 + 64 * j by omega] at this)
    unfold findTasks
    rw [devRecord_go hdev h64, hrest]
    simp [poisonLast, recKind, hk, hg, List.range_succ_eq_map, Function.comp_def]

/-- A record with a gate. -/
theorem findTasks_gated {s : State} {a o pa : Nat} {r : List Byte} (hr : isReplay (launchAt s (curLaunch s)) = false) (h64 : a % 64 = 0)
    (hdev : DevAt s a 64 r) (hk : fld r 22 1 = 0) (hg : fld r 32 8 ≠ 0) (hc : CounterAt s .read (fld r 32 8) o pa) :
    findTasks s a 1 = .go [(r, some (o, pa))] := by
  unfold findTasks findTasks
  simp [devRecord_go hdev h64, poisonLast, recKind, hk, hg, counterAt_go hr hc]

theorem recMets_eq {s : State} {a : Nat} (he : s.errors = []) {n : Nat} (h : ∀ j, j < n → ∃ m, DevAt s (a + 64 * j) 64 m) :
    (List.range n).foldl (fun s i => recMet s false (a + 64 * i)) s = s := by
  induction n with
  | zero => rfl
  | succ n ih =>
    obtain ⟨m, hm⟩ := h n (Nat.lt_succ_self n)
    rw [List.range_succ, List.foldl_append, ih (fun j hj => h j (Nat.lt_succ_of_lt hj)), List.foldl_cons, List.foldl_nil, recMet_dev hm he]

/-! ### The gate counted down (R157) -/

/-- The lanes of the set take note of an acquire, which is a step of its own. -/
def acquired (s : State) : State := s.cur.lanes.foldl (fun t l => noteAcquire t s.cur.uid l .acqrel .pkg) { s with mstep := s.mstep + 1 }

theorem foldl_noteAcquire (ls : List Nat) (s : State) (u : Nat) :
    ls.foldl (fun t l => noteAcquire t u l .acqrel .pkg) s = modLanes s u ls (fun _ ln => { ln with acqStep := s.mstep }) := by
  have hnote (t : State) (ht : t.mstep = s.mstep) :
      ls.foldl (fun t l => noteAcquire t u l .acqrel .pkg) t = ls.foldl (fun t l => modLane t u l (fun ln => { ln with acqStep := s.mstep })) t := by
    induction ls generalizing t with
    | nil => rfl
    | cons l ls ih =>
      rw [List.foldl_cons, List.foldl_cons, show noteAcquire t u l .acqrel .pkg = modLane t u l (fun ln => { ln with acqStep := s.mstep }) by
        rw [← ht]; rfl]
      exact ih _ ht
  rw [hnote s rfl]
  exact foldl_modLane s u ls (fun _ ln => { ln with acqStep := s.mstep })

theorem acquired_eq (s : State) : acquired s =
    modLanes { s with mstep := s.mstep + 1 } s.cur.uid s.cur.lanes (fun _ ln => { ln with acqStep := s.mstep + 1 }) := foldl_noteAcquire ..

theorem acquired_rest (s : State) : { acquired s with groups := s.groups, mstep := s.mstep } = s := by rw [acquired_eq]; rfl

theorem acquired_mem (s : State) : (acquired s).mem = s.mem := (congrArg State.mem (acquired_rest s) :)
theorem acquired_cur (s : State) : (acquired s).cur = s.cur := (congrArg State.cur (acquired_rest s) :)
theorem acquired_tasks (s : State) : (acquired s).tasks = s.tasks := (congrArg State.tasks (acquired_rest s) :)

theorem acquired_noSnap {s : State} (h : NoSnap s) : NoSnap (acquired s) := by
  rw [NoSnap, show (acquired s).launches = s.launches from (congrArg State.launches (acquired_rest s) :)]
  exact h

theorem rdByte_acquired (s : State) (j : Nat) : rdByte (acquired s) j = rdByte s j := by rw [rdByte, rdByte, acquired_mem]

theorem beforeCommit_acquired {s : State} (hs : SetOk s) : BeforeCommit s (acquired s) := by
  rw [acquired_eq]
  obtain ⟨hlen, hrest⟩ := grp_modLanes_rest { s with mstep := s.mstep + 1 } s.cur.uid s.cur.lanes (fun _ ln => { ln with acqStep := s.mstep + 1 }) s.cur.uid
  refine ⟨rfl, (isSome_modGrp ..).trans hs.here, hlen, fun l hl => ?_, (congrArg Group.pend hrest :)⟩
  rw [lane_modLanes { s with mstep := s.mstep + 1 } _ _ _ l hs.here hs.nodup (hs.bound l hl), if_pos hl]
  rfl

/-- What `task.done` does to the counter of its gate and to the tasks under it. -/
def countedDown (s : State) (o pa : Nat) : State :=
  let n := rdNat s (mkey o pa) 4
  if n = 0 ∨ 16 ≤ o then acquired s
  else
    let t := ownerWrite (acquired s) (mkey o pa) (byteClassOf (acquired s) (mkey o pa)) (leBytes 4 (n - 1))
    if n = 1 then openGate t o pa else t

theorem tGet?_openGate (s : State) (o pa j : Nat) :
    tGet? (openGate s o pa).tasks j = (tGet? s.tasks j).map (fun w => if w.gate = some (o, pa) then { w with ready := true } else w) := by
  unfold openGate
  dsimp only
  induction s.tasks with
  | nil => rfl
  | cons p r ih =>
    obtain ⟨i, w⟩ := p
    by_cases hg : w.gate = some (o, pa) <;> by_cases hi : i = j <;> simp [tGet?, hg, hi, ih]

section Gate

variable {s : State} (hns : NoSnap s) {o pa : Nat} (ho : o < 16)

/-- The counter after it: one less, in the class of its first byte. -/
def gateWritten (s : State) (o pa : Nat) : State :=
  ownerWrite (acquired s) (mkey o pa) (byteClassOf (acquired s) (mkey o pa)) (leBytes 4 (rdNat s (mkey o pa) 4 - 1))

/-- A counter of 0 stays so. -/
theorem countedDown_zero (h : rdNat s (mkey o pa) 4 = 0) : countedDown s o pa = acquired s := if_pos (.inl h)

include ho in
theorem countedDown_pos (h : rdNat s (mkey o pa) 4 ≠ 0) :
    countedDown s o pa = if rdNat s (mkey o pa) 4 = 1 then openGate (gateWritten s o pa) o pa else gateWritten s o pa := if_neg (by omega)

include ho in
theorem countedDown_mem (h : rdNat s (mkey o pa) 4 ≠ 0) : (countedDown s o pa).mem = (gateWritten s o pa).mem := by
  rw [countedDown_pos ho h]
  split <;> rfl

include hns

theorem gateWritten_rest (o pa : Nat) : (gateWritten s o pa).tasks = s.tasks ∧ (gateWritten s o pa).cur = s.cur ∧ (gateWritten s o pa).groups = (acquired s).groups := by
  have hrest := ownerWrite_rest (acquired_noSnap hns) (mkey o pa) (byteClassOf (acquired s) (mkey o pa)) (leBytes 4 (rdNat s (mkey o pa) 4 - 1))
  exact ⟨(congrArg State.tasks hrest :).trans (acquired_tasks s), (congrArg State.cur hrest :).trans (acquired_cur s), (congrArg State.groups hrest :)⟩

include ho

theorem rdNat_countedDown : rdNat (countedDown s o pa) (mkey o pa) 4 = rdNat s (mkey o pa) 4 - 1 := by
  by_cases h : rdNat s (mkey o pa) 4 = 0
  · rw [countedDown_zero h, h, rdNat_congr (fun j _ _ => rdByte_acquired s j), h]
  · have hlt := rdNat_lt s (mkey o pa) 4
    rw [rdNat_congr (s := gateWritten s o pa) (fun j _ _ => by rw [rdByte, countedDown_mem ho h, ← rdByte]), gateWritten,
      rdNat_ownerWrite (acquired_noSnap hns)]
    exact Nat.mod_eq_of_lt (by omega)

theorem rdByte_countedDown {j : Nat} (hj : j < mkey o pa ∨ mkey o pa + 4 ≤ j) : rdByte (countedDown s o pa) j = rdByte s j := by
  by_cases h : rdNat s (mkey o pa) 4 = 0
  · rw [countedDown_zero h, rdByte_acquired]
  · rw [rdByte, countedDown_mem ho h, ← rdByte, gateWritten, rdByte_ownerWrite_other (acquired_noSnap hns) _ _ _ (by rwa [length_leBytes]), rdByte_acquired]

theorem countedDown_opens (h : rdNat s (mkey o pa) 4 = 1) {j : Nat} {w : Task} (hj : tGet? s.tasks j = some w) (hw : w.gate = some (o, pa)) :
    tGet? (countedDown s o pa).tasks j = some { w with ready := true } := by
  obtain ⟨htasks, -, -⟩ := gateWritten_rest hns o pa
  rw [countedDown_pos ho (by omega), if_pos h, tGet?_openGate, htasks, hj, Option.map_some, if_pos hw]

theorem beforeCommit_countedDown (hs : SetOk s) : BeforeCommit s (countedDown s o pa) := by
  by_cases h : rdNat s (mkey o pa) 4 = 0
  · rw [countedDown_zero h]
    exact beforeCommit_acquired hs
  · obtain ⟨-, hcur, hgroups⟩ := gateWritten_rest hns o pa
    rw [countedDown_pos ho h]
    split <;> exact (beforeCommit_acquired hs).congr (hcur.trans (acquired_cur s).symm) hgroups

end Gate

section Set

variable {s : State} (hs : SetOk s) (hp : NoPoison s) (ht : Tidy s) (hph : NoPendH s s.cur.uid)

include hs hp ht hph

/-- A post of records that its checks let through makes a task of each. -/
theorem taskPost_posts {a b : Src} {n : Nat} {rs : List (List Byte × Option (Nat × Nat))} (ha : plainSrc a = true) (hb : plainSrc b = true)
    (he : s.errors = []) (hn : opnd s (.int 32) (op b) (leader s) = n) (h1 : 1 ≤ n) (h64 : n ≤ 64)
    (hfind : findTasks s (opnd s (.int 64) (op a) (leader s)) n = .go rs)
    (hdev : ∀ j, j < n → ∃ m, DevAt s (opnd s (.int 64) (op a) (leader s) + 64 * j) 64 m) (hr : ∀ r ∈ rs, GateHere r) :
    ∃ t, exec (.taskPost a b) s = .next t ∧ Commits s t ∧ ∀ j r, rs[j]? = some r → tGet? t.tasks (s.fresh + j) = some (taskOf s r) := by
  obtain ⟨hgroups, hcur⟩ := foldl_postOne_groups rs s
  obtain ⟨t, hexec, hi⟩ := issues_of (i := .taskPost a b) (y := rs) (r := rs.foldl postOne s) hs hp ht hph (plainOps_two ha hb) rfl
    (by simp only [laneIn_x0, laneIn_x1, hn]; rw [if_neg (by omega), hfind])
    (by simp only [laneIn_x0, laneIn_x1, hn, recMets_eq he hdev]; rfl) (.of_groups hs hcur hgroups)
  exact ⟨t, hexec, hi.commits, fun j r hj => by rw [hi.tasks, (tasks_foldl_postOne rs s hr).2 j r hj]⟩

/-- The end of a task whose gate is a counter on this package. -/
theorem taskDone_counts {p : W64} {o pa : Nat} (hrep : isReplay (launchAt s (curLaunch s)) = false) (hns : NoSnap s)
    (hstart : (grp s s.cur.uid).start = .task p) (hp0 : p ≠ 0) (ho : o ≤ 4) (hc : CounterAt s .readWrite p.toNat o pa) :
    ∃ t, exec .taskDone s = .next t ∧ SetIssued s (countedDown s o pa) t := by
  have hne : p.toNat ≠ 0 := fun h => hp0 (BitVec.eq_of_toNat_eq h)
  exact issues_of (y := some (o, pa)) hs hp ht hph rfl rfl (by simp only [hstart, if_neg hne, counterAt_go hrep hc]) rfl
    (beforeCommit_countedDown hns (by omega) hs)

/-- The end of a task that has no gate. -/
theorem taskDone_gateless (hstart : (grp s s.cur.uid).start = .task 0) : ∃ t, exec .taskDone s = .next t ∧ SetIssued s s t :=
  issues_of (y := none) hs hp ht hph rfl rfl (by simp only [hstart]; rfl) rfl (.of_groups hs rfl rfl)

end Set

end Sys2Proof.Machine
end

section
/-! Slugs (R158): the lanes of a `spawn`, in rising order, add to the open galley of their entry, open one, or wait. -/

-- one declaration after another, so that the text as a whole is checked within its memory
set_option Elab.async false

namespace Sys2Proof.Machine

/-! ### A table's entries that pass a test -/

/-- The entry that is found still is, when it has changed and passes still. -/
theorem find?_tMod {α : Type} {t : Table α} {P : Nat × α → Bool} {k : Nat} {v : α} {f : α → α} (hf : t.find? P = some (k, v)) (hg : tGet? t k = some v)
    (hp : P (k, f v) = true) : (tMod t k f).find? P = some (k, f v) := by
  induction t with
  | nil => simp at hf
  | cons p r ih =>
    obtain ⟨i, x⟩ := p
    by_cases hi : i = k
    · subst hi
      obtain rfl : x = v := by simpa [tGet?] using hg
      simp [tMod, hp]
    · have hx : P (i, x) = false := by
        by_contra hx
        simp only [Bool.not_eq_false] at hx
        simp only [List.find?_cons, hx, Option.some.injEq, Prod.mk.injEq] at hf
        exact hi hf.1
      simp only [List.find?_cons, hx] at hf
      simp only [tGet?, hi, if_false] at hg
      simp only [tMod, hi, if_false, List.find?_cons, hx]
      exact ih hf hg

/-- A new entry that passes is found where none was. -/
theorem find?_tPut {α : Type} {t : Table α} {P : Nat × α → Bool} {k : Nat} {v : α} (hf : t.find? P = none) (hk : ∀ p ∈ t, p.1 ≠ k) (hp : P (k, v) = true) :
    (tPut t k v).find? P = some (k, v) := by
  induction t with
  | nil => simp [tPut, hp]
  | cons p r ih =>
    have hx : P p = false := by simpa using List.find?_eq_none.1 hf p (by simp)
    simp only [List.find?_cons, hx] at hf
    simp only [tPut, if_neg (hk p (by simp)), List.find?_cons, hx]
    exact ih hf (fun q hq => hk q (by simp [hq]))

/-! ### One lane -/

/-- A galley with one slug more, locked with the 32nd. -/
def withSlug (x : Slug) (g : Galley) : Galley := { g with slugs := g.slugs ++ [x], locked := decide (32 ≤ (g.slugs ++ [x]).length) }

/-- The galleys of a context that take a slug for an entry. -/
def takesSlug (s : State) (c : Nat) (e : W64) (g : Nat × Galley) : Bool := g.2.entry == e && !g.2.locked && (launchAt s g.2.launch).ctx == c

theorem galleyOf_eq (s : State) (core c : Nat) (e : W64) : galleyOf s core c e = ((coreAt s core).galleys.find? (takesSlug s c e)).map (fun g => g.1) := rfl

/-- A core on which one galley has a slug more. -/
def slugAdded (s : State) (core k : Nat) (x : Slug) : State := modCore s core (fun c => { c with galleys := tMod c.galleys k (withSlug x) })

theorem putSlug_found {s : State} {u id : Nat} {e a : W64} {g : Galley}
    (h : (coreAt s (coreOf s u)).galleys.find? (takesSlug s (ctxOf s u) e) = some (id, g)) : putSlug s u e a = (slugAdded s (coreOf s u) id ⟨e, a⟩, true) := by
  have hg : galleyOf s (coreOf s u) (ctxOf s u) e = some id := by rw [galleyOf_eq, h]; rfl
  unfold putSlug
  simp only [hg]
  rfl

/-- A galley as a `spawn` opens it. -/
def newGalley (s : State) (u : Nat) (e : W64) : Galley :=
  { entry := e, launch := launchOf s u, gang := (grp s u).gang, slugs := [], expires := s.gtick.toNat + imgGaltime (launchAt s (launchOf s u)) }

def galleyOpened (s : State) (u : Nat) (e : W64) : State :=
  modCore { s with fresh := s.fresh + 1 } (coreOf s u) (fun c => { c with galleys := tPut c.galleys s.fresh (newGalley s u e) })

/-- Where no galley takes the slug and the core has room, it goes to one that is opened for it. -/
theorem putSlug_opens {s : State} {u : Nat} {e : W64} (a : W64) (h : (coreAt s (coreOf s u)).galleys.find? (takesSlug s (ctxOf s u) e) = none)
    (hroom : (coreAt s (coreOf s u)).galleys.length < 32) : putSlug s u e a = (slugAdded (galleyOpened s u e) (coreOf s u) s.fresh ⟨e, a⟩, true) := by
  have hg : galleyOf s (coreOf s u) (ctxOf s u) e = none := by rw [galleyOf_eq, h]; rfl
  unfold putSlug
  simp only [hg, if_neg (Nat.not_le.2 hroom)]
  rfl

theorem putSlug_full {s : State} {u : Nat} {e : W64} (a : W64) (h : (coreAt s (coreOf s u)).galleys.find? (takesSlug s (ctxOf s u) e) = none)
    (hfull : 32 ≤ (coreAt s (coreOf s u)).galleys.length) : putSlug s u e a = (s, false) := by
  have hg : galleyOf s (coreOf s u) (ctxOf s u) e = none := by rw [galleyOf_eq, h]; rfl
  unfold putSlug
  simp only [hg, if_pos hfull]

/-- A lane that waits in a `spawn` of n bytes. -/
def waitingLane (n : Nat) (e a : W64) (ln : Lane) : Lane := { ln with st := .wait (.spawn e a), ilen := n }

/-- A lane's part of a `spawn`. -/
def spawnLane (e : W64) (t : State) (l : Nat) (a : W64) : State :=
  let p := putSlug t t.cur.uid e a
  if p.2 then advanceCur (commitCur p.1 l) l else modLane t t.cur.uid l (waitingLane t.cur.len e a)

/-! ### The lanes of the set in turn -/

/-- A state that the set's lanes have brought about, from s, so far: nothing but the group's lanes, the core's galleys and the numbers taken has changed. -/
structure Spawning (s t : State) : Prop where
  rest : { t with groups := s.groups, cores := s.cores, fresh := s.fresh } = s
  here : (tGet? t.groups s.cur.uid).isSome = true
  group : { grp t s.cur.uid with lanes := [] } = { grp s s.cur.uid with lanes := [] }

namespace Spawning

variable {s t r : State}

theorem cur (h : Spawning s t) : t.cur = s.cur := (congrArg State.cur h.rest :)
theorem gtick (h : Spawning s t) : t.gtick = s.gtick := (congrArg State.gtick h.rest :)
theorem launches (h : Spawning s t) : t.launches = s.launches := (congrArg State.launches h.rest :)
theorem gang (h : Spawning s t) : (grp t s.cur.uid).gang = (grp s s.cur.uid).gang := (congrArg Group.gang h.group :)

theorem gangOf (h : Spawning s t) : gangOf t s.cur.uid = gangOf s s.cur.uid := by
  rw [Machine.gangOf, Machine.gangOf, h.gang, gangAt, gangAt, show t.gangs = s.gangs from (congrArg State.gangs h.rest :)]

theorem coreOf (h : Spawning s t) : coreOf t s.cur.uid = coreOf s s.cur.uid := by rw [Machine.coreOf, Machine.coreOf, h.gangOf]
theorem launchOf (h : Spawning s t) : launchOf t s.cur.uid = launchOf s s.cur.uid := by rw [Machine.launchOf, Machine.launchOf, h.gangOf]
theorem launchAt (h : Spawning s t) (k : Nat) : launchAt t k = launchAt s k := by rw [Machine.launchAt, Machine.launchAt, h.launches]
theorem ctxOf (h : Spawning s t) : ctxOf t s.cur.uid = ctxOf s s.cur.uid := by rw [Machine.ctxOf, Machine.ctxOf, h.launchOf, h.launchAt]

theorem takesSlug (h : Spawning s t) (c : Nat) (e : W64) : takesSlug t c e = takesSlug s c e := by
  funext g
  rw [Machine.takesSlug, Machine.takesSlug, h.launchAt]

theorem noPendH (h : Spawning s t) (hp : NoPendH s s.cur.uid) : NoPendH t s.cur.uid := by
  rw [NoPendH, show (grp t s.cur.uid).pend = (grp s s.cur.uid).pend from (congrArg Group.pend h.group :)]
  exact hp

/-- Other galleys, and numbers taken. -/
theorem cores (h : Spawning s t) (cs : SMap Core) (n : Nat) : Spawning s { t with cores := cs, fresh := n } := ⟨h.rest, h.here, h.group⟩

theorem modLane (h : Spawning s t) (l : Nat) (f : Lane → Lane) : Spawning s (modLane t s.cur.uid l f) :=
  ⟨h.rest, (isSome_modGrp ..).trans h.here, by rw [grp_modLane h.here]; exact h.group⟩

/-- A lane whose slug is taken commits and passes. -/
theorem spawnLane_eq (h : Spawning s t) (hp : NoPendH s s.cur.uid) {e a : W64} {q : State} (l : Nat) (hq : putSlug t s.cur.uid e a = (q, true))
    (hs : Spawning s q) : spawnLane e t l a = Machine.modLane q s.cur.uid l (passedLane s.cur.len) := by
  unfold spawnLane
  rw [h.cur, hq]
  simp only [if_true, advanceCur, commitCur, hs.cur, flushH_none hs.here (hs.noPendH hp)]
  simp only [Machine.modLane, modGrp_cur, hs.cur, modGrp_modGrp]
  exact modGrp_congr (fun g => congrArg (fun ls => { g with lanes := ls }) (modNth_modNth ..))

theorem spawnLane_joins (h : Spawning s t) (hp : NoPendH s s.cur.uid) {e : W64} {id : Nat} {g : Galley} (l : Nat) (a : W64)
    (hf : (coreAt t (Machine.coreOf s s.cur.uid)).galleys.find? (Machine.takesSlug s (Machine.ctxOf s s.cur.uid) e) = some (id, g)) :
    spawnLane e t l a = Machine.modLane (slugAdded t (Machine.coreOf s s.cur.uid) id ⟨e, a⟩) s.cur.uid l (passedLane s.cur.len) := by
  refine h.spawnLane_eq hp l ?_ (h.cores _ _)
  rw [putSlug_found (g := g) (by rw [h.coreOf, h.ctxOf, h.takesSlug]; exact hf), h.coreOf]

end Spawning

theorem galleys_slugAdded (s : State) (core id : Nat) (x : Slug) :
    (coreAt (slugAdded s core id x) core).galleys = tMod (coreAt s core).galleys id (withSlug x) := by
  rw [slugAdded, coreAt_modCore, if_pos rfl]

/-- The lanes of a list that join one galley: their slugs are there in their order, and each has passed. -/
theorem foldl_spawnLane {s : State} (hp : NoPendH s s.cur.uid) {e : W64} {id : Nat} (arg : Nat → W64) (ls : List Nat) (t : State) (g : Galley)
    (h : Spawning s t) (hls : ls ≠ []) (hn : ls.Nodup) (hb : ∀ l ∈ ls, l < (grp t s.cur.uid).lanes.length)
    (hf : (coreAt t (coreOf s s.cur.uid)).galleys.find? (takesSlug s (ctxOf s s.cur.uid) e) = some (id, g))
    (hg : tGet? (coreAt t (coreOf s s.cur.uid)).galleys id = some g) (hroom : g.slugs.length + ls.length ≤ 32) :
    tGet? (coreAt (ls.foldl (fun t l => spawnLane e t l (arg l)) t) (coreOf s s.cur.uid)).galleys id =
        some { g with slugs := g.slugs ++ ls.map (fun l => ⟨e, arg l⟩), locked := decide (32 ≤ g.slugs.length + ls.length) } ∧
      ∀ k, lane (ls.foldl (fun t l => spawnLane e t l (arg l)) t) s.cur.uid k =
        if k ∈ ls then passedLane s.cur.len (lane t s.cur.uid k) else lane t s.cur.uid k := by
  induction ls generalizing t g with
  | nil => exact absurd rfl hls
  | cons l ls ih =>
    obtain ⟨hl, hn⟩ := List.nodup_cons.1 hn
    have hstep := h.spawnLane_joins hp l (arg l) hf
    have hgalleys : (coreAt (spawnLane e t l (arg l)) (coreOf s s.cur.uid)).galleys =
        tMod (coreAt t (coreOf s s.cur.uid)).galleys id (withSlug ⟨e, arg l⟩) := by
      rw [hstep]
      exact galleys_slugAdded ..
    have hget : tGet? (coreAt (spawnLane e t l (arg l)) (coreOf s s.cur.uid)).galleys id = some (withSlug ⟨e, arg l⟩ g) := by
      rw [hgalleys, tGet?_tMod_self, hg, Option.map_some]
    have hlane (k : Nat) : lane (spawnLane e t l (arg l)) s.cur.uid k = if k = l then passedLane s.cur.len (lane t s.cur.uid k) else lane t s.cur.uid k := by
      have hsame : lane (slugAdded t (coreOf s s.cur.uid) id ⟨e, arg l⟩) s.cur.uid k = lane t s.cur.uid k := rfl
      rw [hstep, lane_modLane (slugAdded t (coreOf s s.cur.uid) id ⟨e, arg l⟩) _ _ _ _ h.here (hb l (by simp)), hsame]
      simp only [eq_comm]
    rw [List.foldl_cons]
    by_cases hnil : ls = []
    · subst hnil
      refine ⟨hget.trans ?_, fun k => ?_⟩
      · simp [withSlug]
      · simp [hlane]
    · have hspawning : Spawning s (spawnLane e t l (arg l)) := hstep ▸ (h.cores _ _).modLane l _
      have hlen : (withSlug ⟨e, arg l⟩ g).slugs.length = g.slugs.length + 1 := by simp [withSlug]
      have hpos := List.length_pos_iff.2 hnil
      rw [List.length_cons] at hroom
      have hopen : (withSlug ⟨e, arg l⟩ g).locked = false := by simp [withSlug]; omega
      have htakes : takesSlug s (ctxOf s s.cur.uid) e (id, g) = true := List.find?_some hf
      obtain ⟨hgal, hlanes⟩ := ih (spawnLane e t l (arg l)) (withSlug ⟨e, arg l⟩ g) hspawning hnil hn
        (fun k hk => by rw [hstep, grp_modLane (s := slugAdded ..) h.here, length_modLaneG]; exact hb k (by simp [hk]))
        (by
          rw [hgalleys]
          refine find?_tMod hf hg ?_
          simp only [takesSlug, Bool.and_eq_true] at htakes ⊢
          exact ⟨⟨htakes.1.1, by simp [hopen]⟩, htakes.2⟩)
        hget (by omega)
      refine ⟨hgal.trans ?_, fun k => ?_⟩
      · simp [withSlug, List.length_cons, Nat.add_assoc, Nat.add_comm 1]
      · rw [hlanes, hlane]
        by_cases hkl : k = l
        · subst hkl
          simp [hl]
        · simp [hkl]

/-! ### The whole set -/

section Set

variable {s : State} (hs : SetOk s) (hp : NoPoison s) {a b : Src} (ha : plainSrc a = true) (hb : plainSrc b = true) {e : W64}
  (he : ∀ l ∈ s.cur.lanes, BitVec.ofNat 64 (opnd s (.int 64) (op a) l) = e)

/-- The state in which the first lane takes its slug. -/
def spawnBegun (s : State) (a b : Src) : State := accBegun s (srcs (.spawn a b)) none s.cur.lanes.length

/-- The argument that a lane passes. -/
def spawnArg (s : State) (b : Src) (l : Nat) : W64 := BitVec.ofNat 64 (opnd s (.int 64) (op b) l)

theorem spawning_begun (hs : SetOk s) (a b : Src) : Spawning s (spawnBegun s a b) :=
  ⟨rfl, (isSome_modGrp { s with fresh := s.fresh + 1 } ..).trans hs.here, (grp_modLanes_rest { s with fresh := s.fresh + 1 } ..).2⟩

include hp ha hb he in
theorem exec_spawn : exec (.spawn a b) s = .next (s.cur.lanes.foldl (fun t l => spawnLane e t l (spawnArg s b l)) (spawnBegun s a b)) := by
  have hrun : exec (.spawn a b) s = .next (s.cur.lanes.foldl (fun t l => spawnLane (BitVec.ofNat 64 (opnd s (.int 64) (op a) l)) t l (spawnArg s b l)) (spawnBegun s a b)) :=
    congrArg Host.Outcome.next (runAccess_go hp (plainOps_two ha hb) (fun _ => ()) (fun _ _ => rfl) (by simp))
  rw [hrun, List.foldl_ext _ _ _ (fun t l hl => by rw [he l hl])]

/-- What a lane of the set has become when it has passed. -/
theorem commits_of_passed {t : State} (hs : SetOk s) (ht : Tidy s) (os : List (Opnd × OTy)) (n : Nat)
    (h : ∀ l ∈ s.cur.lanes, lane t s.cur.uid l = passedLane s.cur.len (lane (accBegun s os none n) s.cur.uid l)) : Commits s t := by
  intro l hl
  have hx (x : Bool) (ln : Lane) : committed (setXlane ln x) s.cur.len = committed ln s.cur.len := by cases x <;> rfl
  have htidy : TidyLane (setXlane (curLane s l) (crosses s os l)) := by
    cases crosses s os l
    · exact ht l hl
    · obtain ⟨h1, h2, h3, h4⟩ := ht l hl
      exact ⟨h1, h2, h3, h4⟩
  rw [h l hl, (midway_accBegun hs os none n hl).lane, passedLane_at, curRec_passedLane htidy, setXlane_at, hx]
  exact ⟨rfl, rfl⟩

include hs hp ha hb he

/-- The slugs join an open galley that has room for all. -/
theorem spawn_joins (ht : Tidy s) (hph : NoPendH s s.cur.uid) (hne : ∃ l, l ∈ s.cur.lanes) {id : Nat} {G : Galley}
    (hf : (coreAt s (coreOf s s.cur.uid)).galleys.find? (takesSlug s (ctxOf s s.cur.uid) e) = some (id, G))
    (hg : tGet? (coreAt s (coreOf s s.cur.uid)).galleys id = some G) (hroom : G.slugs.length + s.cur.lanes.length ≤ 32) :
    ∃ t, exec (.spawn a b) s = .next t ∧ Commits s t ∧ tGet? (coreAt t (coreOf s s.cur.uid)).galleys id =
      some { G with slugs := G.slugs ++ s.cur.lanes.map (fun l => ⟨e, spawnArg s b l⟩), locked := decide (32 ≤ G.slugs.length + s.cur.lanes.length) } := by
  obtain ⟨l, hl⟩ := hne
  obtain ⟨hgal, hlanes⟩ := foldl_spawnLane hph (spawnArg s b) s.cur.lanes (spawnBegun s a b) G (spawning_begun hs a b) (List.ne_nil_of_mem hl) hs.nodup
    (fun l hl => (midway_accBegun hs (srcs (.spawn a b)) none s.cur.lanes.length hl).bound) hf hg hroom
  exact ⟨_, exec_spawn hp ha hb he, commits_of_passed hs ht (srcs (.spawn a b)) s.cur.lanes.length (fun l hl => (hlanes l).trans (if_pos hl)), hgal⟩

/-- Where none is open and the core has room, the first lane opens one. -/
theorem spawn_opens (ht : Tidy s) (hph : NoPendH s s.cur.uid) (hne : ∃ l, l ∈ s.cur.lanes) (hlen : s.cur.lanes.length ≤ 32)
    (hf : (coreAt s (coreOf s s.cur.uid)).galleys.find? (takesSlug s (ctxOf s s.cur.uid) e) = none)
    (hfree : (coreAt s (coreOf s s.cur.uid)).galleys.length < 32) (hids : ∀ g ∈ (coreAt s (coreOf s s.cur.uid)).galleys, g.1 < s.fresh) :
    ∃ t id, exec (.spawn a b) s = .next t ∧ Commits s t ∧ tGet? (coreAt t (coreOf s s.cur.uid)).galleys id =
      some { newGalley s s.cur.uid e with slugs := s.cur.lanes.map (fun l => ⟨e, spawnArg s b l⟩), locked := decide (32 ≤ s.cur.lanes.length) } := by
  obtain ⟨l, hl⟩ := hne
  have hbegun := spawning_begun hs a b
  -- the state in which the galley stands open, from which the first lane does the same
  have hopened : Spawning s (galleyOpened (spawnBegun s a b) s.cur.uid e) := hbegun.cores _ _
  have hcore : coreAt (galleyOpened (spawnBegun s a b) s.cur.uid e) (coreOf s s.cur.uid) =
      { coreAt s (coreOf s s.cur.uid) with galleys := tPut (coreAt s (coreOf s s.cur.uid)).galleys (s.fresh + 1) (newGalley s s.cur.uid e) } := by
    rw [galleyOpened, coreAt_modCore, if_pos hbegun.coreOf, newGalley, hbegun.launchOf, hbegun.gang, hbegun.launchAt, hbegun.gtick]
    rfl
  have htakes : takesSlug s (ctxOf s s.cur.uid) e (s.fresh + 1, newGalley s s.cur.uid e) = true := by simp [takesSlug, newGalley, ctxOf]
  have hfound : (coreAt (galleyOpened (spawnBegun s a b) s.cur.uid e) (coreOf s s.cur.uid)).galleys.find? (takesSlug s (ctxOf s s.cur.uid) e) =
      some (s.fresh + 1, newGalley s s.cur.uid e) := by
    rw [hcore]
    exact find?_tPut hf (fun p hp => by have := hids p hp; omega) htakes
  have hfirst (l : Nat) : spawnLane e (spawnBegun s a b) l (spawnArg s b l) = spawnLane e (galleyOpened (spawnBegun s a b) s.cur.uid e) l (spawnArg s b l) := by
    rw [hopened.spawnLane_joins hph l _ hfound, hbegun.spawnLane_eq hph l (q := slugAdded (galleyOpened (spawnBegun s a b) s.cur.uid e) (coreOf s s.cur.uid) (s.fresh + 1) ⟨e, spawnArg s b l⟩) ?_ (hopened.cores _ _)]
    rw [putSlug_opens _ (by rw [hbegun.coreOf, hbegun.ctxOf, hbegun.takesSlug]; exact hf) (by rw [hbegun.coreOf]; exact hfree), hbegun.coreOf]
    rfl
  have hsame : s.cur.lanes.foldl (fun t l => spawnLane e t l (spawnArg s b l)) (spawnBegun s a b) =
      s.cur.lanes.foldl (fun t l => spawnLane e t l (spawnArg s b l)) (galleyOpened (spawnBegun s a b) s.cur.uid e) := by
    cases hls : s.cur.lanes with
    | nil => simp [hls] at hl
    | cons k ks => rw [List.foldl_cons, List.foldl_cons, hfirst]
  obtain ⟨hgal, hlanes⟩ := foldl_spawnLane hph (spawnArg s b) s.cur.lanes _ (newGalley s s.cur.uid e) hopened (List.ne_nil_of_mem hl) hs.nodup
    (fun l hl => (midway_accBegun hs (srcs (.spawn a b)) none s.cur.lanes.length hl).bound) hfound (by rw [hcore]; exact tGet?_tPut_self ..) (by simpa [newGalley] using hlen)
  rw [← hsame] at hgal hlanes
  refine ⟨_, s.fresh + 1, exec_spawn hp ha hb he, commits_of_passed hs ht (srcs (.spawn a b)) s.cur.lanes.length (fun l hl => (hlanes l).trans (if_pos hl)), hgal.trans ?_⟩
  simp [newGalley]

/-- Where the core holds 32 and none of them takes it, every lane waits. -/
theorem spawn_waits (hf : (coreAt s (coreOf s s.cur.uid)).galleys.find? (takesSlug s (ctxOf s s.cur.uid) e) = none)
    (hfull : 32 ≤ (coreAt s (coreOf s s.cur.uid)).galleys.length) :
    ∃ t, exec (.spawn a b) s = .next t ∧ ∀ l ∈ s.cur.lanes, Waits s t l (.spawn e (spawnArg s b l)) := by
  have hwait (ls : List Nat) (t : State) (h : Spawning s t) (hc : t.cores = s.cores) :
      ls.foldl (fun t l => spawnLane e t l (spawnArg s b l)) t =
        ls.foldl (fun t l => modLane t s.cur.uid l (waitingLane s.cur.len e (spawnArg s b l))) t := by
    induction ls generalizing t with
    | nil => rfl
    | cons l ls ih =>
      have hcore : coreAt t (coreOf s s.cur.uid) = coreAt s (coreOf s s.cur.uid) := by rw [coreAt, hc, coreAt]
      have hlane : spawnLane e t l (spawnArg s b l) =
          modLane t s.cur.uid l (waitingLane s.cur.len e (spawnArg s b l)) := by
        unfold spawnLane
        rw [h.cur, putSlug_full _ (by rw [h.coreOf, h.ctxOf, h.takesSlug, hcore]; exact hf) (by rw [h.coreOf, hcore]; exact hfull)]
        rfl
      rw [List.foldl_cons, List.foldl_cons, hlane]
      exact ih _ (h.modLane l _) hc
  refine ⟨_, exec_spawn hp ha hb he, fun l hl => ?_⟩
  have hm : Midway s (srcs (.spawn a b)) l (spawnBegun s a b) := midway_accBegun hs _ none _ hl
  rw [hwait _ _ (spawning_begun hs a b) rfl, foldl_modLane (spawnBegun s a b) s.cur.uid s.cur.lanes
    (fun l => waitingLane s.cur.len e (spawnArg s b l)), Waits, lane_modLanes _ _ _ _ l hm.here hs.nodup hm.bound, if_pos hl, hm.lane]
  exact ⟨rfl, setXlane_at .., rfl⟩

end Set

end Sys2Proof.Machine
end

section
/-! Tape, task, launch and slug instructions: the parts put together (R156 to R158, R277). -/

-- one declaration after another, so that the text as a whole is checked within its memory
set_option Elab.async false

namespace Sys2Proof.Machine

/-- Settles O42: the record that the leader's load gives decides, each instruction has its one effect, and every lane commits. -/
theorem tapesTasksSlugs : Obligations.TapesTasksSlugs := by
  unfold Obligations.TapesTasksSlugs
  intro s a b r hs hp he ht hph hne ha hb u k cx X hrep x at_ dev commits tapes room
  have hdevAt {p : Nat} {m : List Byte} (h : dev p m) : p % 64 = 0 ∧ DevAt s p 64 m := h
  refine ⟨?_, ?_, ?_, ?_, ?_, ?_, ?_, ?_, ?_⟩
  · intro hdev hk hroom
    obtain ⟨h64, hdev⟩ := hdevAt hdev
    obtain ⟨t, hexec, hcom, hctx⟩ := tapePush_tapes hs hp ht hph ha he hrep h64 hdev hk hroom
    exact ⟨t, hexec, hcom, by rw [List.append_nil]; exact hctx⟩
  · intro hroom
    obtain ⟨t, hexec, hcom, hctx⟩ := tapeMark_tapes hs hp ht hph hrep hroom
    exact ⟨t, hexec, hcom, by rw [List.append_nil]; exact hctx⟩
  · intro rs T htape
    exact tapeUnwind_tapes hs hp ht hph hrep htape
  · intro p hdev hk hrings
    obtain ⟨h64, hdev⟩ := hdevAt hdev
    exact launch_appends hs hp ht hph p ha he h64 hdev hk hrings
  · intro n hn h1 h64 R hR
    obtain ⟨t, hexec, hcom, htasks⟩ := taskPost_posts hs hp ht hph (rs := (List.range n).map (fun j => (R j, none))) ha hb he hn h1 h64
      (findTasks_go (fun j hj => by
        obtain ⟨hdev, hk, hg⟩ := hR j hj
        exact ⟨(hdevAt hdev).1, (hdevAt hdev).2, hk, hg⟩))
      (fun j hj => ⟨R j, (hdevAt (hR j hj).1).2⟩) (by simp [GateHere])
    refine ⟨t, hexec, hcom, fun j hj => (htasks j (R j, none) (by simp [hj])).trans ?_⟩
    obtain ⟨-, -, hg⟩ := hR j hj
    rw [taskOf, gateOpen_none s hg]
    rfl
  · intro g o pa hn hdev hk hg hreach ho hord hclean
    obtain ⟨h64, hdev⟩ := hdevAt hdev
    obtain ⟨t, hexec, -, htasks⟩ := taskPost_posts hs hp ht hph (rs := [(r, some (o, pa))]) ha hb he hn (Nat.le_refl 1) (by decide)
      (findTasks_gated hrep h64 hdev hk hg ⟨g, hreach, hord, hclean⟩) (fun j hj => by
        obtain rfl : j = 0 := Nat.lt_one_iff.1 hj
        exact ⟨r, hdev⟩)
      (by simp [GateHere]; omega)
    refine ⟨t, hexec, (htasks 0 (r, some (o, pa)) rfl).trans ?_⟩
    rw [taskOf, gateOpen_some s hg (by omega)]
    simp [u, k, dieOf]
  · intro p g o pa hstart hp0 hreach ho hord hclean hns
    obtain ⟨t, hexec, hi⟩ := taskDone_counts hs hp ht hph hrep hns hstart hp0 ho ⟨g, hreach, hord, hclean⟩
    have hbyte (j : Nat) : rdByte t j = rdByte (countedDown s o pa) j := by rw [rdByte, hi.mem, ← rdByte]
    refine ⟨t, hexec, hi.commits, ?_, fun j hj => ?_, fun h1 j w hj hw => ?_⟩
    · rw [rdNat_congr (fun j _ _ => hbyte j), rdNat_countedDown hns (by omega)]
    · rw [hbyte, rdByte_countedDown hns (by omega) hj]
    · rw [hi.tasks, countedDown_opens hns (by omega) h1 hj hw]
  · intro hstart
    obtain ⟨t, hexec, hi⟩ := taskDone_gateless hs hp ht hph hstart
    exact ⟨t, hexec, hi.commits, hi.mem, hi.tasks⟩
  · intro e hentry core args held hlen
    have hnone (h : ∀ g ∈ (coreAt s core).galleys, g.2.entry = e → g.2.locked = true ∨ (launchAt s g.2.launch).ctx ≠ cx) :
        (coreAt s core).galleys.find? (takesSlug s cx e) = none := by
      refine List.find?_eq_none.2 (fun g hg hT => ?_)
      simp only [takesSlug, Bool.and_eq_true, beq_iff_eq, Bool.not_eq_true'] at hT
      obtain ⟨⟨hent, hopen⟩, hctx⟩ := hT
      rcases h g hg hent with hlocked | hother
      · rw [hopen] at hlocked
        exact Bool.false_ne_true hlocked
      · exact hother hctx
    have hargs : args.length = s.cur.lanes.length := List.length_map _
    refine ⟨fun id G hf hg hroom => ?_, fun h hfree hids => ?_, fun h hfull => ?_⟩
    · rw [hargs] at hroom
      rw [hargs]
      exact spawn_joins hs hp ha hb hentry ht hph hne hf hg hroom
    · rw [hargs]
      exact spawn_opens hs hp ha hb hentry ht hph hne hlen (hnone h) hfree hids
    · exact spawn_waits hs hp ha hb hentry (hnone h) hfull

end Sys2Proof.Machine
end

section
/-! Engine commands (R141 to R143, R152, R154): what enters a command into its queue, and the records that its checks read. -/

-- one declaration after another, so that the text as a whole is checked within its memory
set_option Elab.async false

namespace Sys2Proof.Machine

/-! ### Records in scratch (R142, R205) -/

/-- The record m lies at scratch address e of the set's gang. -/
def SpAt (s : State) (e : Nat) (m : List Byte) : Prop :=
  e % 64 = 0 ∧ e < 2 ^ 21 ∧ e / 4096 < (gangOf s s.cur.uid).tiles ∧ poisoned (gangOf s s.cur.uid).scratchPois e 64 = false ∧
    arrBytes (gangOf s s.cur.uid).scratch e 64 = m ∧ ∀ k, k < 64 → flyingByte s (grp s s.cur.uid).gang (e + k) = none

theorem spRecord_go {s : State} {e : Nat} {m : List Byte} (h : SpAt s e m) : spRecord s e = .go m := by
  obtain ⟨h64, hlt, htile, hpois, hm, hfly⟩ := h
  have hok : tileOk (gangOf s s.cur.uid) e = true := by simpa [tileOk, htile] using hlt
  have hbytes : (List.range 64).map (fun i => arrayByte s s.cur.uid (e + i) i) = m := by
    rw [← hm, arrBytes_eq_map]
    exact List.map_congr_left (fun i hi => by rw [arrayByte, hfly i (List.mem_range.1 hi)])
  unfold spRecord
  simp only [h64, hok, hpois, hbytes, ne_eq, not_true_eq_false, if_false, Bool.not_true, Bool.false_eq_true]

theorem recMet_sp {s : State} (he : s.errors = []) (e : Nat) : recMet s true e = s := meetArr_nil he _ _

/-! ### A command in its queue (R143) -/

section Push

variable {s : State} {c : Cmd} (hs : SetOk s) (hby : c.by_ = issuer s) (q : Nat)

/-- The state in which the command stands in its queue, its counters not raised yet. -/
def cmdQueued (s : State) (c : Cmd) (q : Nat) : State :=
  modCore { s with fresh := s.fresh + 1, cmds := tPut s.cmds s.fresh c } c.by_.core (fun k => { k with queues := modNth k.queues q (fun l => l ++ [s.fresh]) })

theorem pushCmd_eq (s : State) (c : Cmd) (q : Nat) :
    pushCmd s c q = modGrp (cmdQueued s c q) c.by_.uid (fun g => { g with cp := g.cp + b2n c.cp, tl := g.tl + b2n c.tl }) := rfl

include hs hby

theorem beforeCommit_pushCmd : BeforeCommit s (pushCmd s c q) := by
  rw [pushCmd_eq, hby]
  exact (BeforeCommit.of_groups (r := cmdQueued s c q) hs rfl rfl).modGrp _ (fun _ => rfl) (fun _ => rfl)

theorem grp_pushCmd : grp (pushCmd s c q) s.cur.uid =
    { grp s s.cur.uid with cp := (grp s s.cur.uid).cp + b2n c.cp, tl := (grp s s.cur.uid).tl + b2n c.tl } := by
  rw [pushCmd_eq, hby, show (issuer s).uid = s.cur.uid from rfl, grp_modGrp (cmdQueued s c q) _ _ _ hs.here]
  exact if_pos rfl

end Push

/-- The state in which a command stands in no queue, counted in CPCNT. -/
def cmdCounted (s : State) (c : Cmd) : State :=
  modGrp { s with fresh := s.fresh + 1, cmds := tPut s.cmds s.fresh c } s.cur.uid (fun g => { g with cp := g.cp + 1 })

theorem beforeCommit_cmdCounted {s : State} {c : Cmd} (hs : SetOk s) : BeforeCommit s (cmdCounted s c) :=
  (BeforeCommit.of_groups (r := { s with fresh := s.fresh + 1, cmds := tPut s.cmds s.fresh c }) hs rfl rfl).modGrp _ (fun _ => rfl) (fun _ => rfl)

theorem coreAt_pushCmd (s : State) (c : Cmd) (q : Nat) : coreAt (pushCmd s c q) c.by_.core =
    { coreAt s c.by_.core with queues := modNth (coreAt s c.by_.core).queues q (fun l => l ++ [s.fresh]) } := by
  rw [pushCmd_eq, coreAt_modGrp, cmdQueued, coreAt_modCore, if_pos rfl]
  rfl

theorem cp_cmdCounted {s : State} {c : Cmd} (hs : SetOk s) : (grp (cmdCounted s c) s.cur.uid).cp = (grp s s.cur.uid).cp + 1 := by
  rw [cmdCounted, grp_modGrp { s with fresh := s.fresh + 1, cmds := tPut s.cmds s.fresh c } _ _ _ hs.here, if_pos rfl]
  rfl

section Set

variable {s : State} (hs : SetOk s) (hp : NoPoison s) (ht : Tidy s) (hph : NoPendH s s.cur.uid) (he : s.errors = [])
  (hqs : (coreAt s (coreOf s s.cur.uid)).queues.length = 6)

/-- The command stands at the end of its queue, its counters are raised, every lane has committed, and memory is as it was. -/
def Queued (s : State) (i : Instr) (q cp tl : Nat) (c : Cmd) : Prop :=
  ∃ t, exec i s = .next t ∧ Commits s t ∧ tGet? t.cmds s.fresh = some c ∧
    nth [] (coreAt t (coreOf s s.cur.uid)).queues q = nth [] (coreAt s (coreOf s s.cur.uid)).queues q ++ [s.fresh] ∧
    (grp t s.cur.uid).cp = (grp s s.cur.uid).cp + cp ∧ (grp t s.cur.uid).tl = (grp s s.cur.uid).tl + tl ∧ t.mem = s.mem

include hs hp ht hph hqs

/-- The rule for commands: what the leader's checks find is queued. -/
theorem queued_of {α : Type} {i : Instr} {os : List (Opnd × OTy)} {find : State → LaneIn → Find α} {act : State → LaneIn → α → State} {y : α} {c : Cmd} {q : Nat}
    (ho : plainOps os = true) (hexec : exec i s = .next (runEngine s os find act)) (hf : find s (laneIn s os (leader s)) = .go y)
    (hact : act s (laneIn s os (leader s)) y = pushCmd s c q) (hby : c.by_ = issuer s) (hq : q < 6) : Queued s i q (b2n c.cp) (b2n c.tl) c := by
  have hcore : c.by_.core = coreOf s s.cur.uid := by rw [hby]; rfl
  obtain ⟨t, hexec, hi⟩ := issues_of hs hp ht hph ho hexec hf hact (beforeCommit_pushCmd hs hby q)
  refine ⟨t, hexec, hi.commits, ?_, ?_, ?_, ?_, hi.mem⟩
  · rw [hi.cmds]
    exact tGet?_tPut_self ..
  · rw [hi.coreAt, ← hcore, coreAt_pushCmd, hcore]
    simp [nth_modNth, hqs, hq]
  · rw [hi.cp, grp_pushCmd hs hby]
  · rw [hi.tl, grp_pushCmd hs hby]

section Copy

include he

/-- A copy whose descriptor the leader's check finds at `src`. -/
theorem fcopy_queued (q : Fin 4) (spad : Bool) {a : Src} {d : List Byte} {src : Nat} (ha : plainSrc a = true)
    (hsrc : opnd s (.int (if spad then 32 else 64)) (op a) (leader s) = src)
    (hd : (if spad then spRecord s src else devRecord s src) = .go d) (hm : recMet s spad src = s) {w : List Byte}
    (hw : if fdFollow d then SpAt s (fld d 60 4) w else w = []) :
    Queued s (.fcopy q spad a) q.val 1 (b2n (fdFollow d))
      { kind := .copy d w, by_ := issuer s, srcAt := BitVec.ofNat 64 src, cp := true, tl := fdFollow d, cycle := s.cycle } := by
  refine queued_of hs hp ht hph hqs (y := (d, w)) (plainOps_one ha) rfl ?_ ?_ rfl (by omega)
  · simp only [findFcopy, laneIn_x0, hsrc, hd]
    by_cases hfo : fdFollow d = true
    · rw [if_pos hfo] at hw
      simp [hfo, fdFollowAt, spRecord_go hw]
    · rw [if_neg hfo] at hw
      simp [hfo, hw]
  · simp only [laneIn_x0, hsrc, hm, recMet_sp he, ite_self]

end Copy

theorem pcmd_queued {a : Src} {r : List Byte} (he : s.errors = []) (ha : plainSrc a = true) (hr : SpAt s (opnd s (.int 32) (op a) (leader s)) r) :
    Queued s (.pcmd a) 4 0 1
      { kind := .compute r 0 0, by_ := issuer s, srcAt := BitVec.ofNat 64 (opnd s (.int 32) (op a) (leader s)), tl := true, cycle := s.cycle } :=
  queued_of hs hp ht hph hqs (y := r) (plainOps_one ha) rfl (spRecord_go hr) (by simp only [recMet_sp he]; rfl) rfl (by decide)

omit hs hp ht hph hqs in
/-- An arrival of a barrier that is allotted passes its check. -/
theorem emodBar_go {bar : BarId} {arr : Bool} (h : arr = true → (barGet s (barKey s s.cur.uid bar)).isSome = true) : emodBar s bar arr = .go () := by
  refine if_neg (fun hno => ?_)
  rw [Bool.and_eq_true] at hno
  obtain ⟨k, hk⟩ := Option.isSome_iff_exists.1 (h hno.1)
  simp [hk] at hno

theorem pbank_queued (n : Fin 2) (bar : BarId) (arr : Bool) {a b : Src} {y z : Nat} (ha : plainSrc a = true) (hb : plainSrc b = true)
    (hy : opnd s (.int 32) (op a) (leader s) = y) (hz : opnd s (.int 32) (op b) (leader s) = z) (hal : y % 4096 = 0) (hn : n.val < (gangOf s s.cur.uid).banks.length)
    (hfit : y / 4096 + (if tagBlock z = 0 then 16 else 17) ≤ (gangOf s s.cur.uid).tiles)
    (hbar : arr = true → (barGet s (barKey s s.cur.uid bar)).isSome = true) :
    Queued s (.pbank n a b bar arr) 5 0 1
      { kind := .bank n.val y (BitVec.ofNat 32 z) bar arr, by_ := issuer s, srcAt := BitVec.ofNat 64 y, tl := true, cycle := s.cycle } := by
  refine queued_of hs hp ht hph hqs (y := ()) (plainOps_two ha hb) rfl ?_ (by simp only [laneIn_x0, laneIn_x1, hy, hz]) rfl (by decide)
  simp only [findPbank, laneIn_x0, laneIn_x1, hy, hz, emodBar_go hbar]
  rw [if_neg (by simp [hal]), if_neg (Nat.not_le.2 hn), if_neg (Nat.not_lt.2 hfit)]

theorem pclr_queued (bar : BarId) (arr : Bool) {a b : Src} {y z : Nat} (ha : plainSrc a = true) (hb : plainSrc b = true)
    (hy : opnd s (.int 32) (op a) (leader s) = y) (hz : opnd s (.int 32) (op b) (leader s) = z) (h1 : 1 ≤ z) (h512 : z ≤ 512)
    (hfit : y + z ≤ (gangOf s s.cur.uid).accrows) (hbar : arr = true → (barGet s (barKey s s.cur.uid bar)).isSome = true) :
    Queued s (.pclr a b bar arr) 4 0 1
      { kind := .clear y z bar arr, by_ := issuer s, srcAt := BitVec.ofNat 64 y, tl := true, cycle := s.cycle } := by
  refine queued_of hs hp ht hph hqs (y := ()) (plainOps_two ha hb) rfl ?_ (by simp only [laneIn_x0, laneIn_x1, hy, hz]) rfl (by decide)
  simp only [findPclr, laneIn_x0, laneIn_x1, hy, hz, emodBar_go hbar]
  rw [if_neg (by omega), if_neg (Nat.not_lt.2 hfit)]

/-! ### Fences and patterns (R154, R283) -/

omit hqs in
theorem qfence_empty (q : Fin 6) : ∃ t, exec (.qfence q 0) s = .next t ∧ SetIssued s s t :=
  issues_of (y := ()) hs hp ht hph rfl rfl rfl rfl (.of_groups hs rfl rfl)

omit hs hp ht hph hqs in
theorem mem_maskCmds (c : Core) (mask : BitVec 6) (k : Nat) :
    k ∈ maskCmds c mask.toNat ↔ ∃ j, j < 6 ∧ mask.getLsbD j = true ∧ k ∈ nth [] c.queues j := by
  have hbit (j : Nat) : bit mask.toNat j = mask.getLsbD j := by
    rw [bit, BitVec.getLsbD, Nat.testBit_eq_decide_div_mod_eq]
    simp [beq_eq_decide]
  simp [maskCmds, hbit, and_assoc]

theorem qfence_queued (q : Fin 6) {mask : BitVec 6} (hm : mask ≠ 0) : Queued s (.qfence q mask) q.val 0 0
    { kind := .fence (maskCmds (coreAt s (coreOf s s.cur.uid)) mask.toNat), by_ := issuer s, srcAt := 0, cycle := s.cycle } :=
  queued_of hs hp ht hph hqs (y := ()) rfl rfl rfl (if_neg hm) rfl q.isLt

omit hqs in
include he in
theorem sgset_enters (e : Fin 64) {a : Src} {r : List Byte} {x : Nat} (ha : plainSrc a = true) (hx : opnd s (.int 64) (op a) (leader s) = x)
    (hpat : e.val ∈ (launchAt s (launchOf s s.cur.uid)).patterns) (hpage : x % 4096 ≤ 4064) (hdev : DevAt s x 32 r) :
    ∃ t, exec (.sgset e a) s = .next t ∧ Commits s t ∧ (grp t s.cur.uid).cp = (grp s s.cur.uid).cp + 1 ∧
      tGet? t.cmds s.fresh = some { kind := .sgset e.val r, by_ := issuer s, srcAt := BitVec.ofNat 64 x, cp := true, cycle := s.cycle } := by
  have hn : min 32 (4096 - x % 4096) = 32 := by omega
  obtain ⟨t, hexec, hi⟩ := issues_of (i := .sgset e a) (y := r) hs hp ht hph (plainOps_one ha) rfl
    (by simp [findSgset, laneIn_x0, hx, hn, hpat, devBytes_go hdev, poisonLast])
    (by simp only [laneIn_x0, hx, hn, devMet_eq hdev he, if_true]; rfl)
    (beforeCommit_cmdCounted (c := { kind := .sgset e.val r, by_ := issuer s, srcAt := BitVec.ofNat 64 x, cp := true, cycle := s.cycle }) hs)
  refine ⟨t, hexec, hi.commits, (hi.cp _).trans (cp_cmdCounted hs), ?_⟩
  · rw [hi.cmds]
    exact tGet?_tPut_self ..

end Set

end Sys2Proof.Machine
end

section
/-! Collectives and buckets (R155, R279, R280): registration, issue, and the counts that fire. -/

-- one declaration after another, so that the text as a whole is checked within its memory
set_option Elab.async false

namespace Sys2Proof.Machine

/-! ### A bucket of a die -/

/-- Another bucket in place of bucket k. -/
def bucketPut (k : Nat) (b : Bucket) (d : Die) : Die := { d with buckets := smSet {} d.buckets k b }

theorem dieAt_modBucket (s : State) (die k : Nat) (f : Bucket → Bucket) :
    dieAt (modBucket s die k f) die = bucketPut k (f (bucketAt s die k)) (dieAt s die) := by
  rw [modBucket, dieAt_modDie, if_pos rfl]
  rfl

theorem bucketAt_modBucket (s : State) (die k : Nat) (f : Bucket → Bucket) : bucketAt (modBucket s die k f) die k = f (bucketAt s die k) := by
  rw [bucketAt, dieAt_modBucket, bucketPut, smGet_smSet_self]

/-- What a statement about a die's bucket k reads: the bucket, the collective queue and the kicks that wait. -/
structure DieHas (s : State) (die k : Nat) (b : Bucket) (q : List Nat) (w : List Kick) : Prop where
  bucket : smGet {} (dieAt s die).buckets k = b
  queue : (dieAt s die).collQ = q
  kicks : (dieAt s die).kicks = w

theorem DieHas.modBucket {s : State} {die k : Nat} {b : Bucket} {q : List Nat} {w : List Kick} (h : DieHas s die k b q w) (f : Bucket → Bucket) :
    DieHas (modBucket s die k f) die k (f b) q w := by
  obtain ⟨rfl, rfl, rfl⟩ := h
  exact ⟨bucketAt_modBucket .., by rw [dieAt_modBucket]; rfl, by rw [dieAt_modBucket]; rfl⟩

/-! ### Kicks -/

theorem dieAt_pushColl (s : State) (r : List Byte) (i : Issuer) (src : W64) (cp : Bool) : dieAt (pushColl s r i src cp) (dieOf i.core) =
    { dieAt s (dieOf i.core) with collQ := (dieAt s (dieOf i.core)).collQ ++ [s.fresh] } := by
  rw [pushColl, dieAt_modDie, if_pos rfl]
  rfl

/-- A bucket in which no collective is registered kicks nothing. -/
theorem DieHas.kick_none {s : State} {die k : Nat} {b : Bucket} {q : List Nat} {w : List Kick} (h : DieHas s die k b q w) (hr : b.reg = none) :
    DieHas (kickBucket s die k) die k b q w := by
  rwa [kickBucket, show (bucketAt s die k).reg = none from (congrArg Bucket.reg h.bucket).trans hr]

/-- A kick that finds room enters the queue. -/
theorem DieHas.kick_enters {s : State} {die k : Nat} {b : Bucket} {q : List Nat} {r : List Byte} {i : Issuer} {at_ : W64} (h : DieHas s die k b q [])
    (hr : b.reg = some (r, i, at_)) (hq : q.length < 64) (hdie : dieOf i.core = die) : DieHas (kickBucket s die k) die k b (q ++ [s.fresh]) [] := by
  obtain ⟨rfl, rfl, hk⟩ := h
  have hkick : kickBucket s die k = pushColl s r i at_ false := by
    rw [kickBucket, show (bucketAt s die k).reg = _ from hr]
    exact if_pos ⟨hq, hk⟩
  rw [hkick]
  subst hdie
  exact ⟨by rw [dieAt_pushColl], by rw [dieAt_pushColl], by rw [dieAt_pushColl]; exact hk⟩

/-- One that finds none, or others that wait, waits behind them. -/
theorem DieHas.kick_waits {s : State} {die k : Nat} {b : Bucket} {q : List Nat} {w : List Kick} {r : List Byte} {i : Issuer} {at_ : W64}
    (h : DieHas s die k b q w) (hr : b.reg = some (r, i, at_)) (hfull : 64 ≤ q.length ∨ w ≠ []) :
    DieHas (kickBucket s die k) die k b q (w ++ [⟨k, r, i, at_⟩]) := by
  obtain ⟨rfl, rfl, rfl⟩ := h
  have hkick : kickBucket s die k = modDie s die (fun d => { d with kicks := d.kicks ++ [⟨k, r, i, at_⟩] }) := by
    rw [kickBucket, show (bucketAt s die k).reg = _ from hr]
    refine if_neg (fun hroom => ?_)
    rcases hfull with hfull | hfull
    · exact Nat.not_lt.2 hfull hroom.1
    · exact hfull hroom.2
  rw [hkick]
  exact ⟨by rw [dieAt_modDie, if_pos rfl], by rw [dieAt_modDie, if_pos rfl], by rw [dieAt_modDie, if_pos rfl]⟩

/-! ### Counts -/

/-- The count of a bucket with n more, which stops at 2^48 - 1. -/
def countWith (b : Bucket) (n : Nat) : Nat := min (2 ^ 48 - 1) (b.count.toNat + n)

/-- A bucket with n bytes more. -/
def counted (n : Nat) (b : Bucket) : Bucket := { b with count := BitVec.ofNat 48 (countWith b n) }

theorem bucketAdd_idle {s : State} {die k : Nat} (n : Nat) (h : (bucketAt s die k).armed = false) : bucketAdd s die k n = s := by simp [bucketAdd, h]

theorem bucketAdd_counts {s : State} {die k n : Nat} (h : (bucketAt s die k).armed = true) (hlt : countWith (bucketAt s die k) n < (bucketAt s die k).total.toNat) :
    bucketAdd s die k n = modBucket s die k (fun b => { b with count := BitVec.ofNat 48 (countWith (bucketAt s die k) n) }) := by
  unfold bucketAdd
  simp only [h, Bool.not_true, Bool.false_eq_true, if_false]
  exact if_pos hlt

theorem bucketAdd_fires {s : State} {die k n : Nat} (h : (bucketAt s die k).armed = true) (hle : (bucketAt s die k).total.toNat ≤ countWith (bucketAt s die k) n) :
    bucketAdd s die k n = kickBucket (modBucket (modBucket s die k (fun b => { b with count := BitVec.ofNat 48 (countWith (bucketAt s die k) n) })) die k
      (fun b => { b with armed := false })) die k := by
  unfold bucketAdd
  simp only [h, Bool.not_true, Bool.false_eq_true, if_false]
  exact if_neg (Nat.not_lt.2 hle)

theorem kickBucket_groups (s : State) (die k : Nat) : (kickBucket s die k).groups = s.groups ∧ (kickBucket s die k).cur = s.cur := by
  unfold kickBucket
  split
  · exact ⟨rfl, rfl⟩
  · split <;> exact ⟨rfl, rfl⟩

theorem bucketAdd_groups (s : State) (die k n : Nat) : (bucketAdd s die k n).groups = s.groups ∧ (bucketAdd s die k n).cur = s.cur := by
  unfold bucketAdd
  dsimp only
  split
  · exact ⟨rfl, rfl⟩
  · split
    · exact ⟨rfl, rfl⟩
    · exact kickBucket_groups ..

/-! ### The instructions -/

section Set

variable {s : State} (hs : SetOk s) (hp : NoPoison s) (ht : Tidy s) (hph : NoPendH s s.cur.uid)

/-- The die of the set. -/
def curDie (s : State) : Nat := dieOf (coreOf s s.cur.uid)

/-- An instruction after which the set's die has these for bucket k. -/
def Becomes (s : State) (k : Nat) (i : Instr) (b : Bucket) (q : List Nat) (w : List Kick) : Prop :=
  ∃ t, exec i s = .next t ∧ Commits s t ∧ DieHas t (curDie s) k b q w

include hs hp ht hph

theorem coll_registers {a : Src} {r : List Byte} {k : BitVec 8} {x : Nat} (he : s.errors = []) (ha : plainSrc a = true)
    (hx : opnd s (.int 64) (op a) (leader s) = x) (hk : k.toNat ∈ (launchAt s (launchOf s s.cur.uid)).buckets) (h64 : x % 64 = 0) (hdev : DevAt s x 64 r) :
    ∃ t, exec (.coll k a) s = .next t ∧ Commits s t ∧ smGet {} (dieAt t (curDie s)).buckets k.toNat =
      { smGet {} (dieAt s (curDie s)).buckets k.toNat with reg := some (r, issuer s, BitVec.ofNat 64 x) } := by
  have hok : bucketOk s k.toNat = true := by simpa [bucketOk] using hk
  obtain ⟨t, hexec, hi⟩ := issues_of (i := .coll k a) (y := r)
    (r := modBucket s (curDie s) k.toNat (fun b => { b with reg := some (r, issuer s, BitVec.ofNat 64 x) })) hs hp ht hph (plainOps_one ha) rfl
    (by simp [laneIn_x0, hx, devRecord_go hdev h64, hok, poisonLast]) (by simp only [laneIn_x0, hx, recMet_dev hdev he]; rfl) (.of_groups hs rfl rfl)
  exact ⟨t, hexec, hi.commits, by rw [hi.dieAt]; exact bucketAt_modBucket ..⟩

theorem collNow_enters {a : Src} {r : List Byte} {x : Nat} (he : s.errors = []) (ha : plainSrc a = true) (hx : opnd s (.int 64) (op a) (leader s) = x)
    (h64 : x % 64 = 0) (hdev : DevAt s x 64 r) :
    ∃ t, exec (.collNow a) s = .next t ∧ Commits s t ∧ (grp t s.cur.uid).cp = (grp s s.cur.uid).cp + 1 ∧
      (dieAt t (curDie s)).collQ = (dieAt s (curDie s)).collQ ++ [s.fresh] ∧
      tGet? t.cmds s.fresh = some { kind := .coll r, by_ := issuer s, srcAt := BitVec.ofNat 64 x, cp := true, cycle := s.cycle } := by
  obtain ⟨t, hexec, hi⟩ := issues_of (i := .collNow a) (y := r)
    (r := modGrp (pushColl s r (issuer s) (BitVec.ofNat 64 x) true) s.cur.uid (fun g => { g with cp := g.cp + 1 })) hs hp ht hph (plainOps_one ha) rfl
    (by simp only [laneIn_x0, hx, devRecord_go hdev h64]) (by simp only [laneIn_x0, hx, recMet_dev hdev he])
    ((BeforeCommit.of_groups (r := pushColl s r (issuer s) (BitVec.ofNat 64 x) true) hs rfl rfl).modGrp _ (fun _ => rfl) (fun _ => rfl))
  refine ⟨t, hexec, hi.commits, ?_, ?_, ?_⟩
  · rw [hi.cp, grp_modGrp (pushColl s r (issuer s) (BitVec.ofNat 64 x) true) _ _ _ hs.here, if_pos rfl]
    rfl
  · rw [hi.dieAt, dieAt_modGrp, show curDie s = dieOf (issuer s).core from rfl, dieAt_pushColl]
  · rw [hi.cmds]
    exact tGet?_tPut_self ..

theorem bkset_becomes {a : Src} {k : BitVec 8} {x : Nat} {b : Bucket} {q : List Nat} {w : List Kick} (ha : plainSrc a = true)
    (hx : opnd s (.int 64) (op a) (leader s) = x) (hk : k.toNat ∈ (launchAt s (launchOf s s.cur.uid)).buckets) (h1 : 1 ≤ x) (hlt : x < 2 ^ 48)
    (hd : DieHas s (curDie s) k.toNat b q w) :
    Becomes s k.toNat (.bkset k a)
      { b with total := BitVec.ofNat 48 x, count := 0, armed := !w.any (fun y => y.bucket == k.toNat), rearm := w.any (fun y => y.bucket == k.toNat) } q w := by
  have hok : bucketOk s k.toNat = true := by simpa [bucketOk] using hk
  have hwaits : kickWaits s (curDie s) k.toNat = w.any (fun y => y.bucket == k.toNat) := by rw [kickWaits, hd.kicks]
  obtain ⟨t, hexec, hi⟩ := issues_of (i := .bkset k a) (y := ()) (r := modBucket s (curDie s) k.toNat (fun b =>
      { b with total := BitVec.ofNat 48 x, count := 0, armed := !w.any (fun y => y.bucket == k.toNat), rearm := w.any (fun y => y.bucket == k.toNat) }))
    hs hp ht hph (plainOps_one ha) rfl (by simp only [laneIn_x0, hx, hok, if_true]; exact if_neg (by omega))
    (by simp only [laneIn_x0, hx, ← hwaits]; rfl) (.of_groups hs rfl rfl)
  have h := hd.modBucket (fun b => { b with
    total := BitVec.ofNat 48 x, count := 0, armed := !w.any (fun y => y.bucket == k.toNat), rearm := w.any (fun y => y.bucket == k.toNat) })
  exact ⟨t, hexec, hi.commits, by rw [hi.dieAt]; exact h.bucket, by rw [hi.dieAt]; exact h.queue, by rw [hi.dieAt]; exact h.kicks⟩

theorem bkadd_becomes {a : Src} {k : BitVec 8} {n : Nat} {b : Bucket} {q : List Nat} {w : List Kick} (ha : plainSrc a = true)
    (hn : opnd s (.int 32) (op a) (leader s) = n) (hk : k.toNat ∈ (launchAt s (launchOf s s.cur.uid)).buckets)
    (hd : DieHas (bucketAdd s (curDie s) k.toNat n) (curDie s) k.toNat b q w) : Becomes s k.toNat (.bkadd k a) b q w := by
  have hok : bucketOk s k.toNat = true := by simpa [bucketOk] using hk
  obtain ⟨hgroups, hcur⟩ := bucketAdd_groups s (curDie s) k.toNat n
  obtain ⟨t, hexec, hi⟩ := issues_of (i := .bkadd k a) (y := ()) (r := bucketAdd s (curDie s) k.toNat n) hs hp ht hph (plainOps_one ha) rfl
    (by simp only [hok, if_true]) (by simp only [laneIn_x0, hn]; rfl) (.of_groups hs hcur hgroups)
  exact ⟨t, hexec, hi.commits, by rw [hi.dieAt]; exact hd.bucket, by rw [hi.dieAt]; exact hd.queue, by rw [hi.dieAt]; exact hd.kicks⟩

end Set

end Sys2Proof.Machine
end

section
/-! Engine commands and buckets: the parts put together (R141 to R143, R152, R154, R155, R279, R280). -/

-- one declaration after another, so that the text as a whole is checked within its memory
set_option Elab.async false

namespace Sys2Proof.Machine

/-- The follow-on flag of a copy's descriptor. -/
theorem fdFollow_iff (d : List Byte) : fdFollow d = true ↔ fld d 2 1 / 4 % 2 = 1 := by simp [fdFollow, fdFlag, bit]

/-- Settles O41: each instruction does to its queue or its bucket what the leader's checks let through, and every lane commits. -/
theorem engineCommandsAndBuckets : Obligations.EngineCommandsAndBuckets := by
  unfold Obligations.EngineCommandsAndBuckets
  refine ⟨?_, ?_⟩
  · intro s a b r f hs hp he ht hph hne ha hb u g c L x y z at_ dev sp by_ commits queued follows copy bars hqs
    have hdevAt {n : Nat} (h : dev n) : DevAt s x n r := h
    have hfo {d : List Byte} (h : fld d 2 1 / 4 % 2 = 1) : fdFollow d = true := (fdFollow_iff d).2 h
    have hno {d : List Byte} (h : ¬fld d 2 1 / 4 % 2 = 1) : fdFollow d = false := by simpa using mt (fdFollow_iff d).1 h
    refine ⟨fun q => ⟨?_, ?_⟩, ?_, ?_, ?_, ?_, ?_, ?_, ?_, ?_⟩
    · rintro ⟨hdev, h64⟩
      have hcopy (w : List Byte) := fcopy_queued (w := w) hs hp ht hph he hqs q false (d := r) (src := x) ha rfl (devRecord_go (hdevAt hdev) h64) (recMet_dev (hdevAt hdev) he)
      refine ⟨fun h => ?_, fun h hsp => ?_⟩
      · have hq := hcopy [] (by simp [hno h])
        rwa [hno h] at hq
      · have hq := hcopy f (by rw [if_pos (hfo h)]; exact hsp)
        rwa [hfo h] at hq
    · intro hspr
      have hcopy (w : List Byte) := fcopy_queued (w := w) hs hp ht hph he hqs q true (d := r) (src := y) ha rfl (spRecord_go hspr) (recMet_sp he y)
      refine ⟨fun h => ?_, fun h hsp => ?_⟩
      · have hq := hcopy [] (by simp [hno h])
        rwa [hno h] at hq
      · have hq := hcopy f (by rw [if_pos (hfo h)]; exact hsp)
        rwa [hfo h] at hq
    · intro hspr
      exact pcmd_queued hs hp ht hph hqs he ha hspr
    · intro n bar arr hal hn hfit hbar
      exact pbank_queued hs hp ht hph hqs n bar arr ha hb rfl rfl hal hn hfit hbar
    · intro bar arr h1 h512 hfit hbar
      exact pclr_queued hs hp ht hph hqs bar arr ha hb rfl rfl h1 h512 hfit hbar
    · intro q
      obtain ⟨t, hexec, hi⟩ := qfence_empty hs hp ht hph q
      exact ⟨t, hexec, hi.commits, hi.cmds, hi.cores, hi.mem⟩
    · intro q mask hm
      exact ⟨_, qfence_queued hs hp ht hph hqs q hm, mem_maskCmds _ mask⟩
    · intro e hpat hpage hdev
      exact sgset_enters hs hp ht hph he e ha rfl hpat hpage (hdevAt hdev)
    · intro k hk h64 hdev
      exact coll_registers hs hp ht hph he ha rfl hk h64 (hdevAt hdev)
    · intro h64 hdev
      exact collNow_enters hs hp ht hph he ha rfl h64 (hdevAt hdev)
  · intro s a k hs hp ht hph hne ha u die L B x c commits W becomes Q kicked hk
    have hdie : DieHas s (curDie s) k.toNat B Q W := ⟨rfl, rfl, rfl⟩
    have hadd {B' : Bucket} {q : List Nat} {w : List Kick} (h : DieHas (bucketAdd s (curDie s) k.toNat (opnd s (.int 32) (op a) (leader s))) (curDie s) k.toNat B' q w) :
        becomes (.bkadd k a) B' q w := by
      obtain ⟨t, hexec, hcom, hbucket, hqueue, hkicks⟩ := bkadd_becomes hs hp ht hph ha rfl hk h
      exact ⟨t, hexec, hcom, hbucket, hqueue, hkicks⟩
    -- the state in which a count that has reached its total finds the bucket
    have hfired := (hdie.modBucket (fun b => { b with count := BitVec.ofNat 48 c })).modBucket (fun b => { b with armed := false })
    refine ⟨fun h1 hlt => ?_, fun hidle => ?_, fun harmed hlt => ?_, fun harmed hle hreg => ?_, fun r i at_ harmed hle hreg => ⟨fun hq hw hi => ?_, fun hfull => ?_⟩⟩
    · obtain ⟨t, hexec, hcom, hbucket, hqueue, hkicks⟩ := bkset_becomes hs hp ht hph ha rfl hk h1 hlt hdie
      exact ⟨t, hexec, hcom, hbucket, hqueue, hkicks⟩
    · exact hadd (by rw [bucketAdd_idle (die := curDie s) _ hidle]; exact hdie)
    · exact hadd (by rw [bucketAdd_counts (die := curDie s) harmed hlt]; exact hdie.modBucket _)
    · exact hadd (by rw [bucketAdd_fires (die := curDie s) harmed hle]; exact hfired.kick_none hreg)
    · refine hadd ?_
      rw [bucketAdd_fires (die := curDie s) harmed hle]
      rw [hw] at hfired
      exact hfired.kick_enters hreg hq hi
    · exact hadd (by rw [bucketAdd_fires (die := curDie s) harmed hle]; exact hfired.kick_waits hreg hfull)

end Sys2Proof.Machine
end

section
/-! What engines do to the rest of the device besides moving data (R215, R222, R276, R315, R351): the groups, the gangs, the commands and the barriers
stand through it. -/

-- one declaration after another, so that the text as a whole is checked within its memory
set_option Elab.async false

namespace Sys2Proof.Machine

/-! ### Barriers by holder (R147, R151) -/

/-- A launch's barrier. -/
def barOf (l : Launch) (k : BarKey) : Option Bar :=
  if l.state = .ended ∨ imgBars l k.scope ≤ k.index then none else some ((tGet? l.bars (barNum k)).getD (barStart l k))

theorem barGet_core {k : BarKey} (h : k.scope = .core) (s : State) : barGet s k = (tGet? s.gangs k.holder).bind (fun g => g.bars[k.index]?) := if_pos h

theorem barGet_wide {k : BarKey} (h : k.scope ≠ .core) (s : State) : barGet s k = (tGet? s.launches k.holder).bind (fun l => barOf l k) := by
  rw [barGet, if_neg h]
  cases tGet? s.launches k.holder <;> rfl

/-! ### What is left alone -/

/-- A launch but for its write-behind buffer and its snapshots. -/
def bareLaunch (l : Launch) : Launch := { l with buffer := [], snaps := [], snapArmed := false }

/-- From s to t, memory, the lines, translations and colophons have changed, and the buffers and snapshots of launches, and nothing else. -/
structure Beside (s t : State) : Prop where
  rest : { t with
    mem := s.mem, poison := s.poison, byteClass := s.byteClass, errors := s.errors, eltail := s.eltail, eldrop := s.eldrop, cores := s.cores
    dies := s.dies, launches := s.launches, tlbs := s.tlbs, free := s.free } = s
  launches : ∀ k, (tGet? t.launches k).map bareLaunch = (tGet? s.launches k).map bareLaunch
  errors : s.errors = [] → t.errors = []
  core : ∀ k, { coreAt t k with colophons := [] } = { coreAt s k with colophons := [] }
  die : ∀ k, { dieAt t k with remote := [] } = { dieAt s k with remote := [] }

namespace Beside

variable {s t r : State}

theorem refl (s : State) : Beside s s := ⟨rfl, fun _ => rfl, id, fun _ => rfl, fun _ => rfl⟩

theorem trans (h : Beside s t) (g : Beside t r) : Beside s r where
  rest := (congrArg (fun x : State => { x with
    mem := s.mem, poison := s.poison, byteClass := s.byteClass, errors := s.errors, eltail := s.eltail, eldrop := s.eldrop, cores := s.cores
    dies := s.dies, launches := s.launches, tlbs := s.tlbs, free := s.free }) g.rest).trans h.rest
  launches k := (g.launches k).trans (h.launches k)
  errors he := g.errors (h.errors he)
  core k := (g.core k).trans (h.core k)
  die k := (g.die k).trans (h.die k)

theorem groups (h : Beside s t) : t.groups = s.groups := (congrArg State.groups h.rest :)
theorem gangs (h : Beside s t) : t.gangs = s.gangs := (congrArg State.gangs h.rest :)
theorem cmds (h : Beside s t) : t.cmds = s.cmds := (congrArg State.cmds h.rest :)
theorem gtick (h : Beside s t) : t.gtick = s.gtick := (congrArg State.gtick h.rest :)
theorem fresh (h : Beside s t) : t.fresh = s.fresh := (congrArg State.fresh h.rest :)
theorem cmdAt (h : Beside s t) (k : Nat) : cmdAt t k = cmdAt s k := by rw [Machine.cmdAt, Machine.cmdAt, h.cmds]
theorem gangAt (h : Beside s t) (k : Nat) : gangAt t k = gangAt s k := by rw [Machine.gangAt, Machine.gangAt, h.gangs]
theorem queues (h : Beside s t) (k : Nat) : (coreAt t k).queues = (coreAt s k).queues := (congrArg Core.queues (h.core k) :)

/-- A barrier that is there is so after it (R147, R151). -/
theorem barGet (h : Beside s t) (k : BarKey) : barGet t k = barGet s k := by
  by_cases hk : k.scope = .core
  · rw [barGet_core hk, barGet_core hk, h.gangs]
  · rw [barGet_wide hk, barGet_wide hk]
    have hl := h.launches k.holder
    cases hs : tGet? s.launches k.holder with
    | none =>
      rw [hs, Option.map_none, Option.map_eq_none_iff] at hl
      rw [hl]
    | some b =>
      rw [hs, Option.map_some, Option.map_eq_some_iff] at hl
      obtain ⟨a, ha, hb⟩ := hl
      rw [ha]
      exact (congrArg (fun l => barOf l k) hb :)

/-- Effects that come one after another. -/
theorem foldl {α : Type} {f : State → α → State} (hf : ∀ s x, s.errors = [] → Beside s (f s x)) (xs : List α) {s : State} (he : s.errors = []) :
    Beside s (xs.foldl f s) := by
  induction xs generalizing s with
  | nil => exact .refl s
  | cons x xs ih => exact (hf s x he).trans (ih ((hf s x he).errors he))

end Beside

/-! ### Snapshots and writes (R338, R345, R351) -/

theorem beside_modLaunch (s : State) (k : Nat) (f : Launch → Launch) (hf : ∀ l, bareLaunch (f l) = bareLaunch l) : Beside s (modLaunch s k f) where
  rest := rfl
  launches j := by
    unfold modLaunch
    rw [tGet?_tMod]
    split
    · rw [Option.map_map]
      exact congrArg (fun g => (tGet? s.launches j).map g) (funext hf)
    · rfl
  errors := id
  core _ := rfl
  die _ := rfl

/-- Memory and its marks, and the log's pointers. -/
theorem beside_memory (s : State) (m : List Host.Cell) (e d : W32) : Beside s { s with mem := m, eltail := e, eldrop := d } :=
  ⟨rfl, fun _ => rfl, id, fun _ => rfl, fun _ => rfl⟩

theorem beside_logEvent (s : State) (ev ukind unit cls addr : Nat) (launch : W64) : Beside s (logEvent s ev ukind unit cls addr launch) := by
  unfold logEvent
  split
  · exact .refl s
  · split
    · exact beside_memory s s.mem s.eltail _
    · exact beside_memory s _ _ s.eldrop

theorem beside_snapWrite (s : State) (key k : Nat) : Beside s (snapWrite s key k) := by
  unfold snapWrite
  dsimp only
  split
  · exact .refl s
  · split
    · exact .refl s
    · split
      · exact (beside_modLaunch s k (fun l => { l with snapArmed := false }) (fun _ => rfl)).trans (beside_logEvent ..)
      · exact beside_modLaunch s k _ (fun _ => rfl)

theorem beside_copyOnWrite {s : State} (he : s.errors = []) (key n : Nat) : Beside s (copyOnWrite s key n) := by
  have hone (ks : List Nat) {t : State} (ht : t.errors = []) (x : Nat) : Beside t (ks.foldl (fun s k => snapWrite s x k) t) :=
    .foldl (fun s k _ => beside_snapWrite s x k) ks ht
  unfold copyOnWrite
  dsimp only
  split
  · exact .refl s
  · exact (hone _ he key).trans (.foldl (fun _ _ ht => hone _ ht _) _ ((hone _ he key).errors he))

theorem beside_ownerWrite {s : State} (he : s.errors = []) (k : Nat) (c : RClass) (bs : List Byte) : Beside s (ownerWrite s k c bs) := by
  have hcopy := beside_copyOnWrite he k bs.length
  unfold ownerWrite
  dsimp only
  generalize copyOnWrite s k bs.length = t at hcopy ⊢
  have hnone := hcopy.errors he
  refine hcopy.trans ⟨rfl, fun _ => rfl, fun _ => ?_, fun _ => rfl, fun _ => rfl⟩
  rw [show (wrBytes t k bs).errors = [] from hnone, List.filter_nil]

theorem beside_engPut {s : State} (he : s.errors = []) (i : Issuer) (seq : Nat) (w : OutWrite) : Beside s (engPut s i seq w) := by
  have hbuffer (owner x peer : Nat) : Beside s (engBuffer s i seq owner x peer w.va w.bs) := beside_modLaunch s _ _ (fun _ => rfl)
  unfold engPut
  split
  · split
    · exact hbuffer ..
    · exact .refl s
  · split
    · exact hbuffer ..
    · exact beside_ownerWrite he ..

/-! ### Translations and lines (R215, R315) -/

theorem beside_tlbFill {s : State} (he : s.errors = []) (k owner vmid asid off : Nat) (a : PageAttr) : Beside s (tlbFill s k owner vmid asid off a) := by
  have hput (c : Prop) [Decidable c] (ts : Table (List TlbEnt)) : Beside s (if c then s else { s with tlbs := ts }) := by
    by_cases hc : c
    · rw [if_pos hc]
      exact .refl s
    · rw [if_neg hc]
      exact ⟨rfl, fun _ => rfl, id, fun _ => rfl, fun _ => rfl⟩
  unfold tlbFill
  rw [walkMet_nil he]
  split
  · exact .refl s
  · exact hput ..

theorem beside_reachFill {s : State} (he : s.errors = []) (k vmid asid : Nat) (va : W64) (r : Reach) : Beside s (reachFill s k vmid asid va r) := by
  unfold reachFill
  split
  · exact beside_tlbFill he ..
  · rw [walkMet_nil he]
    exact .refl s
  · exact .refl s

theorem beside_outFill {s : State} (he : s.errors = []) (i : Issuer) (va : W64) : Beside s (outFill s i va) := beside_reachFill he ..

theorem beside_modDie (s : State) (k : Nat) (f : Die → Die) (hf : ∀ d, { f d with remote := [] } = { d with remote := [] }) : Beside s (modDie s k f) where
  rest := rfl
  launches _ := rfl
  errors := id
  core _ := rfl
  die j := by
    rw [dieAt_modDie]
    split
    · exact hf _
    · rfl

theorem beside_dropLines (s : State) (die k n : Nat) : Beside s (dropLines s die k n) := beside_modDie s die _ (fun _ => rfl)

/-! ### Colophons (R276) -/

theorem beside_modCore (s : State) (k : Nat) (f : Core → Core) (hf : ∀ c, { f c with colophons := [] } = { c with colophons := [] }) : Beside s (modCore s k f) where
  rest := rfl
  launches _ := rfl
  errors := id
  core j := by
    rw [coreAt_modCore]
    split
    · exact hf _
    · rfl
  die _ := rfl

theorem beside_coloRetire {s : State} (he : s.errors = []) (core : Nat) (c : Colophon) (cpout : Nat) : Beside s (coloRetire s core c cpout) := by
  have hout := beside_modCore s core (fun k => { k with colophons := k.colophons.filter (fun x => x != c) }) (fun _ => rfl)
  unfold coloRetire
  dsimp only
  split
  · exact hout
  · split
    · have hfill := hout.trans (beside_outFill (hout.errors he) ⟨0, c.gang, core, c.launch, c.vmid, c.asid, c.mode, 0, c.slot⟩ c.colo)
      exact (hfill.trans (beside_engPut (hfill.errors he) ..)).trans (beside_dropLines ..)
    · exact hout

theorem beside_coloRetireIf {s : State} (he : s.errors = []) (core gang cpout : Nat) (p : Colophon → Bool) :
    Beside s (coloRetireIf s core gang cpout p) := .foldl (fun _ _ h => beside_coloRetire h ..) _ he

theorem beside_coloRows {s : State} (he : s.errors = []) (core gang row0 n : Nat) : Beside s (coloRows s core gang row0 n) := beside_coloRetireIf he ..

theorem beside_coloAdd {s : State} (he : s.errors = []) (core : Nat) (c : Colophon) : Beside s (coloAdd s core c) := by
  have hadd := beside_modCore s core (fun k => { k with colophons := k.colophons ++ [c] }) (fun _ => rfl)
  unfold coloAdd
  dsimp only
  split
  · split
    · exact hadd.trans (beside_coloRetire (hadd.errors he) ..)
    · exact hadd
  · exact hadd

/-- Where fewer than 16 are pending, none retires for it. -/
theorem colophons_coloAdd {s : State} {core : Nat} (c : Colophon) (h : (coreAt s core).colophons.length < 16) :
    (coreAt (coloAdd s core c) core).colophons = (coreAt s core).colophons ++ [c] := by
  have hcore : coreAt (modCore s core (fun k => { k with colophons := k.colophons ++ [c] })) core = { coreAt s core with colophons := (coreAt s core).colophons ++ [c] } := by
    rw [coreAt_modCore, if_pos rfl]
  unfold coloAdd
  simp only [hcore]
  split
  · next old rest heq =>
    have hlen := congrArg List.length heq
    simp only [List.length_append, List.length_cons, List.length_nil] at hlen
    rw [if_neg (by omega), hcore]
  · rw [hcore]

end Sys2Proof.Machine
end

section
/-! The completion of an engine's command in one step (R144, R148, R222): it is gone, its counters fall, its arrival is made, its fault is latched. -/

-- one declaration after another, so that the text as a whole is checked within its memory
set_option Elab.async false

namespace Sys2Proof.Machine

/-! ### Barriers that an engine arrives at (R147, R148) -/

theorem getElem?_setNth_self {α : Type} {l : List α} {i : Nat} {v : α} (h : i < l.length) : (setNth l i v)[i]? = some v := by
  have hlen : i < (setNth l i v).length := by rwa [length_setNth]
  have hnth := nth_setNth v l i i v
  rw [if_pos ⟨rfl, h⟩, nth_eq_getD, List.getD_eq_getElem _ _ hlen] at hnth
  rw [List.getElem?_eq_getElem hlen, hnth]

/-- A barrier that is there is what was put there last. -/
theorem barGet_barPut {s : State} {k : BarKey} {x : Bar} (b : Bar) (h : barGet s k = some x) : barGet (barPut s k b) k = some b := by
  by_cases hk : k.scope = .core
  · rw [barGet_core hk] at h
    obtain ⟨g, hg, hbar⟩ := Option.bind_eq_some_iff.1 h
    obtain ⟨hlt, -⟩ := List.getElem?_eq_some_iff.1 hbar
    rw [barPut, if_pos hk, barGet_core hk, modGang, tGet?_tMod_self, hg]
    exact getElem?_setNth_self hlt
  · rw [barGet_wide hk] at h
    obtain ⟨l, hl, hbar⟩ := Option.bind_eq_some_iff.1 h
    rw [barPut, if_neg hk, barGet_wide hk, modLaunch, tGet?_tMod_self, hl]
    show barOf { l with bars := tPut l.bars (barNum k) b } k = some b
    unfold barOf at hbar ⊢
    split at hbar
    · simp at hbar
    · next hthere =>
      refine (if_neg hthere).trans (congrArg (fun o : Option Bar => some (o.getD _)) (tGet?_tPut_self l.bars _ b))

/-- A change of launches that keeps their barriers. -/
theorem barGet_modLaunch (s : State) (n : Nat) {f : Launch → Launch} (hf : ∀ l k, barOf (f l) k = barOf l k) (k : BarKey) :
    barGet (modLaunch s n f) k = barGet s k := by
  by_cases hk : k.scope = .core
  · exact (barGet_core hk _).trans (barGet_core hk s).symm
  · rw [barGet_wide hk, barGet_wide hk, modLaunch, tGet?_tMod]
    split
    · cases tGet? s.launches k.holder with
      | none => rfl
      | some l => exact hf l k
    · rfl

/-- A change of gangs that keeps their barriers. -/
theorem barGet_modGang (s : State) (n : Nat) {f : Gang → Gang} (hf : ∀ g, (f g).bars = g.bars) (k : BarKey) : barGet (modGang s n f) k = barGet s k := by
  by_cases hk : k.scope = .core
  · rw [barGet_core hk, barGet_core hk, modGang, tGet?_tMod]
    split
    · cases tGet? s.gangs k.holder with
      | none => rfl
      | some g => exact congrArg (fun bs : List Bar => bs[k.index]?) (hf g)
    · rfl
  · exact (barGet_wide hk _).trans (barGet_wide hk s).symm

theorem cmdBar_congr {s t : State} (h : ∀ k, barGet t k = barGet s k) (i : Issuer) (x : Nat) : cmdBar t i x = cmdBar s i x := by
  unfold cmdBar
  split
  · rfl
  · simp only [h]

/-! ### A command dropped (R305) -/

theorem modPin_rest (s : State) (vmid asid : Nat) (va : W64) (f : Nat → Nat) : { modPin s vmid asid va f with tlbs := s.tlbs } = s := by
  unfold modPin
  dsimp only
  split <;> rfl

theorem unpinAll_rest (s : State) (vmid asid : Nat) (gs : List Segment) : { unpinAll s vmid asid gs with tlbs := s.tlbs } = s := by
  induction gs generalizing s with
  | nil => rfl
  | cons g gs ih =>
    have hone : { (if g.pinned then modPin s vmid asid g.va (fun n => n - 1) else s) with tlbs := s.tlbs } = s := by
      split
      · exact modPin_rest ..
      · rfl
    exact (congrArg (fun x : State => { x with tlbs := s.tlbs }) (ih _)).trans hone

theorem unpinWalk_rest (s : State) (vmid asid : Nat) (ps : List (Bool × W64)) : { unpinWalk s vmid asid ps with tlbs := s.tlbs } = s := by
  induction ps generalizing s with
  | nil => rfl
  | cons p ps ih => exact (congrArg (fun x : State => { x with tlbs := s.tlbs }) (ih _)).trans (modPin_rest ..)

/-- The pins that a command's drop releases. -/
def cmdUnpinned (s : State) (k : Nat) : State :=
  unpinWalk (unpinAll s (cmdAt s k).by_.vmid (cmdAt s k).by_.asid (cmdAt s k).fix) (cmdAt s k).by_.vmid (cmdAt s k).by_.asid (cmdAt s k).pins

theorem cmdUnpinned_rest (s : State) (k : Nat) : { cmdUnpinned s k with tlbs := s.tlbs } = s :=
  (congrArg (fun x : State => { x with tlbs := s.tlbs }) (unpinWalk_rest ..)).trans (unpinAll_rest ..)

theorem dropCmd_rest (s : State) (k : Nat) : { dropCmd s k with cmds := s.cmds, cores := s.cores, dies := s.dies, tlbs := s.tlbs } = s :=
  (congrArg (fun x : State => { x with cmds := s.cmds, cores := s.cores, dies := s.dies }) (cmdUnpinned_rest s k))

theorem dropCmd_groups (s : State) (k : Nat) : (dropCmd s k).groups = s.groups := (congrArg State.groups (dropCmd_rest s k) :)
theorem dropCmd_gangs (s : State) (k : Nat) : (dropCmd s k).gangs = s.gangs := (congrArg State.gangs (dropCmd_rest s k) :)
theorem dropCmd_launches (s : State) (k : Nat) : (dropCmd s k).launches = s.launches := (congrArg State.launches (dropCmd_rest s k) :)

theorem barGet_congr {s t : State} (hg : t.gangs = s.gangs) (hl : t.launches = s.launches) (k : BarKey) : barGet t k = barGet s k := by
  rw [barGet, barGet, hg, hl]

theorem tGet?_dropCmd (s : State) (k j : Nat) : tGet? (dropCmd s k).cmds j = if k = j then none else tGet? s.cmds j := by
  rw [← tGet?_tDel]
  exact congrArg (fun cs => tGet? (tDel cs k) j) (congrArg State.cmds (cmdUnpinned_rest s k) :)

/-- A map of the values of a finite map that keeps the default. -/
theorem smGet_map {α : Type} (d : α) (m : SMap α) (f : α → α) (hf : f d = d) (k : Nat) : smGet d (m.map (fun p => (p.1, f p.2))) k = f (smGet d m k) := by
  induction m with
  | nil => exact hf.symm
  | cons p r ih =>
    simp only [List.map_cons, smGet]
    split
    · rfl
    · exact ih

/-- A core in whose queues command k does not stand. -/
def coreWithout (k : Nat) (c : Core) : Core := { c with queues := c.queues.map (fun q => q.filter (fun n => n != k)) }

/-- A die in whose queue it does not. -/
def dieWithout (k : Nat) (d : Die) : Die := { d with collQ := d.collQ.filter (fun n => n != k) }

theorem coreAt_dropCmd (s : State) (k c : Nat) : coreAt (dropCmd s k) c = coreWithout k (coreAt s c) := by
  have hcores : (cmdUnpinned s k).cores = s.cores := (congrArg State.cores (cmdUnpinned_rest s k) :)
  have hdrop : (dropCmd s k).cores = (cmdUnpinned s k).cores.map (fun p => (p.1, coreWithout k p.2)) := rfl
  rw [coreAt, hdrop, hcores]
  exact smGet_map {} s.cores (coreWithout k) rfl c

theorem dieAt_dropCmd (s : State) (k d : Nat) : dieAt (dropCmd s k) d = dieWithout k (dieAt s d) := by
  have hdies : (cmdUnpinned s k).dies = s.dies := (congrArg State.dies (cmdUnpinned_rest s k) :)
  have hdrop : (dropCmd s k).dies = (cmdUnpinned s k).dies.map (fun p => (p.1, dieWithout k p.2)) := rfl
  rw [dieAt, hdrop, hdies]
  exact smGet_map {} s.dies (dieWithout k) rfl d

theorem nth_map_nil {α β : Type} (f : List α → List β) (hf : f [] = []) (ls : List (List α)) (i : Nat) : nth [] (ls.map f) i = f (nth [] ls i) := by
  rw [nth_eq_getD, nth_eq_getD]
  simp only [List.getD_eq_getElem?_getD, List.getElem?_map]
  cases ls[i]? <;> simp [hf]

theorem queue_dropCmd (s : State) (k c q : Nat) : nth [] (coreAt (dropCmd s k) c).queues q = (nth [] (coreAt s c).queues q).filter (fun n => n != k) := by
  rw [coreAt_dropCmd]
  exact nth_map_nil _ rfl _ _

/-! ### The steps of a completion -/

/-- The counters of a command's group fall. -/
def countersFall (s : State) (c : Cmd) : State := modGrp s c.by_.uid (fun g => { g with cp := g.cp - b2n c.cp, tl := g.tl - b2n c.tl })

/-- The barrier of an arrival (BARID and count), where the issuer has it allotted. -/
def arrivalKey (s : State) (i : Issuer) (bar : Option (Nat × Nat)) : Option (BarKey × Nat) := bar.bind (fun b => (cmdBar s i b.1).map (fun k => (k, b.2)))

/-- It expects nothing. -/
def arrivalDead (s : State) (i : Issuer) (bar : Option (Nat × Nat)) : Bool := (arrivalKey s i bar).any (fun k => (barGet s k.1).any (fun b => b.expect == 0))

/-- The arrival is made. -/
def arrivalMade (s t : State) (i : Issuer) (bar : Option (Nat × Nat)) (f : Option EngFault) : State :=
  match arrivalKey s i bar with
  | some k => if arrivalDead s i bar then t else engineArrive t k.1 k.2 f
  | none => t

/-- A fault is latched, in the group's record or with the launch. -/
def faultLatched (s : State) (id : Nat) (c : Cmd) (cause : Option Cause) : State :=
  match cause with
  | some x => if (tGet? s.groups c.by_.uid).isSome then latchFault s c.by_.uid ⟨x, c.srcAt, id⟩ else launchFault s c.by_.launch x c.srcAt
  | none => s

/-- Lines dropped of what a command has written. -/
def linesDropped (s : State) (c : Cmd) : State := c.wrote.foldl (fun s w => dropLines s (dieOf c.by_.core) w.1 w.2) s

/-- A command that has ended: all of its completion but for its going. -/
def cmdEnded (s : State) (id : Nat) (bar : Option (Nat × Nat)) : State :=
  let c := cmdAt s id
  let s := linesDropped s c
  let cause := if c.fault.isNone && arrivalDead s c.by_ bar then some Cause.access else c.fault
  faultLatched (arrivalMade s (countersFall s c) c.by_ bar (cause.map (fun x => ⟨x, c.srcAt, id⟩))) id c cause

theorem completeCmd_eq (s : State) (id : Nat) (bar : Option (Nat × Nat)) : completeCmd s id bar = dropCmd (cmdEnded s id bar) id := rfl

/-- What lines dropped leave alone, whatever errors are pending. -/
theorem linesDropped_rest (s : State) (c : Cmd) : { linesDropped s c with dies := s.dies } = s := by
  unfold linesDropped
  induction c.wrote generalizing s with
  | nil => rfl
  | cons w ws ih => exact (congrArg (fun x : State => { x with dies := s.dies }) (ih _)).trans rfl

theorem barPut_rest (s : State) (k : BarKey) (b : Bar) : { barPut s k b with gangs := s.gangs, launches := s.launches } = s := by
  unfold barPut
  split <;> rfl

theorem arrivalMade_rest (s t : State) (i : Issuer) (bar : Option (Nat × Nat)) (f : Option EngFault) :
    { arrivalMade s t i bar f with gangs := t.gangs, launches := t.launches } = t := by
  unfold arrivalMade engineArrive
  split
  · split
    · rfl
    · split
      · exact barPut_rest ..
      · rfl
  · rfl

theorem faultLatched_rest (s : State) (id : Nat) (c : Cmd) (cause : Option Cause) :
    { faultLatched s id c cause with groups := s.groups, launches := s.launches } = s := by
  unfold faultLatched
  split
  · split <;> rfl
  · rfl

theorem faultLatched_gangs (s : State) (id : Nat) (c : Cmd) (cause : Option Cause) : (faultLatched s id c cause).gangs = s.gangs :=
  (congrArg State.gangs (faultLatched_rest s id c cause) :)

/-- The parts of a state that a command's end may change are those of s. -/
def endedAs (s x : State) : State := { x with groups := s.groups, gangs := s.gangs, launches := s.launches, dies := s.dies }

/-- What a completion leaves alone. -/
theorem endedAs_cmdEnded (s : State) (id : Nat) (bar : Option (Nat × Nat)) : endedAs s (cmdEnded s id bar) = s := by
  unfold cmdEnded
  dsimp only
  generalize (if (cmdAt s id).fault.isNone && arrivalDead (linesDropped s (cmdAt s id)) (cmdAt s id).by_ bar then some Cause.access else (cmdAt s id).fault) = cause
  generalize cmdAt s id = c
  generalize cause.map (fun x => (⟨x, c.srcAt, id⟩ : EngFault)) = f
  calc endedAs s (faultLatched (arrivalMade (linesDropped s c) (countersFall (linesDropped s c) c) c.by_ bar f) id c cause)
    _ = endedAs s (arrivalMade (linesDropped s c) (countersFall (linesDropped s c) c) c.by_ bar f) := (congrArg (endedAs s) (faultLatched_rest (arrivalMade (linesDropped s c) (countersFall (linesDropped s c) c) c.by_ bar f) id c cause) :)
    _ = endedAs s (countersFall (linesDropped s c) c) :=
      (congrArg (endedAs s) (arrivalMade_rest (linesDropped s c) (countersFall (linesDropped s c) c) c.by_ bar f) :)
    _ = endedAs s s := (congrArg (endedAs s) (linesDropped_rest s c) :)

theorem coreAt_completeCmd (s : State) (id : Nat) (bar : Option (Nat × Nat)) (k : Nat) :
    coreAt (completeCmd s id bar) k = coreWithout id (coreAt s k) := by
  rw [completeCmd_eq, coreAt_dropCmd, coreAt, coreAt, show (cmdEnded s id bar).cores = s.cores from (congrArg State.cores (endedAs_cmdEnded s id bar) :)]

/-- A gang but for its barriers. -/
def bareGang (g : Gang) : Gang := { g with bars := [] }

theorem bareGang_modGang (s : State) (k : Nat) {f : Gang → Gang} (hf : ∀ g, bareGang (f g) = bareGang g) (j : Nat) :
    bareGang (gangAt (modGang s k f) j) = bareGang (gangAt s j) := by
  unfold gangAt modGang
  rw [tGet?_tMod]
  split
  · cases tGet? s.gangs j with
    | none => rfl
    | some g => exact hf g
  · rfl

theorem bareGang_barPut (s : State) (k : BarKey) (b : Bar) (j : Nat) : bareGang (gangAt (barPut s k b) j) = bareGang (gangAt s j) := by
  unfold barPut
  split
  · exact bareGang_modGang s _ (f := fun g => { g with bars := setNth g.bars k.index b }) (fun _ => rfl) j
  · rfl

theorem bareGang_arrivalMade (s t : State) (i : Issuer) (bar : Option (Nat × Nat)) (f : Option EngFault) (j : Nat) :
    bareGang (gangAt (arrivalMade s t i bar f) j) = bareGang (gangAt t j) := by
  unfold arrivalMade engineArrive
  split
  · split
    · rfl
    · split
      · exact bareGang_barPut ..
      · rfl
  · rfl

/-- A completion changes nothing of a gang but a barrier. -/
theorem bareGang_completeCmd (s : State) (id : Nat) (bar : Option (Nat × Nat)) (j : Nat) : bareGang (gangAt (completeCmd s id bar) j) = bareGang (gangAt s j) := by
  have hgangs {x y : State} (h : x.gangs = y.gangs) : bareGang (gangAt x j) = bareGang (gangAt y j) := by rw [gangAt, h, gangAt]
  rw [completeCmd_eq, hgangs (dropCmd_gangs ..), cmdEnded]
  rw [hgangs (faultLatched_gangs ..), bareGang_arrivalMade]
  exact hgangs (congrArg State.gangs (linesDropped_rest s (cmdAt s id)) :)

/-- What a latched fault leaves alone in the group's record. -/
theorem grp_faultLatched (s : State) (id : Nat) (c : Cmd) (cause : Option Cause) :
    (grp (faultLatched s id c cause) c.by_.uid).cp = (grp s c.by_.uid).cp ∧ (grp (faultLatched s id c cause) c.by_.uid).tl = (grp s c.by_.uid).tl := by
  unfold faultLatched
  split
  · split
    · next hg =>
      rw [latchFault, grp_modGrp s _ _ _ hg, if_pos rfl]
      split <;> exact ⟨rfl, rfl⟩
    · exact ⟨rfl, rfl⟩
  · exact ⟨rfl, rfl⟩

/-- A fault is latched where no other was. -/
theorem engFault_faultLatched {s : State} {c : Cmd} (hg : (tGet? s.groups c.by_.uid).isSome = true) (hn : (grp s c.by_.uid).engFault = none) (id : Nat) (x : Cause) :
    (grp (faultLatched s id c (some x)) c.by_.uid).engFault = some ⟨x, c.srcAt, id⟩ := by
  simp only [faultLatched, hg, if_true]
  rw [latchFault, grp_modGrp s _ _ _ hg, if_pos rfl, hn]
  rfl

theorem barGet_faultLatched (s : State) (id : Nat) (c : Cmd) (cause : Option Cause) (k : BarKey) : barGet (faultLatched s id c cause) k = barGet s k := by
  unfold faultLatched
  split
  · split
    · exact barGet_congr rfl rfl k
    · unfold launchFault
      refine barGet_modLaunch _ _ (fun l k => ?_) k
      split <;> rfl
  · rfl

theorem grp_countersFall (s : State) (c : Cmd) :
    (grp (countersFall s c) c.by_.uid).cp = (grp s c.by_.uid).cp - b2n c.cp ∧ (grp (countersFall s c) c.by_.uid).tl = (grp s c.by_.uid).tl - b2n c.tl ∧
      (grp (countersFall s c) c.by_.uid).engFault = (grp s c.by_.uid).engFault := by
  cases hg : tGet? s.groups c.by_.uid with
  | none =>
    have hnone : grp (countersFall s c) c.by_.uid = noGroup := by rw [countersFall, grp, modGrp, tGet?_tMod_self, hg]; rfl
    rw [hnone, grp, hg]
    exact ⟨(Nat.zero_sub _).symm, (Nat.zero_sub _).symm, rfl⟩
  | some g =>
    rw [countersFall, grp_modGrp s _ _ _ (by simp [hg]), if_pos rfl]
    exact ⟨rfl, rfl, rfl⟩

/-! ### The rule for completions -/

/-- Where a command with this issuer and these counters stands in r, which has the groups and barriers of s, its completion is as R144 states it: with
its fault, or without one where its arrival expects something. -/
theorem completed_of {s r : State} {id : Nat} {c k : Cmd} {bar : Option (Nat × Nat)} (hget : tGet? r.cmds id = some k) (hby : k.by_ = c.by_)
    (hsrc : k.srcAt = c.srcAt) (hcp : k.cp = c.cp) (htl : k.tl = c.tl) (hgroups : r.groups = s.groups) (hbars : ∀ b, barGet r b = barGet s b)
    (hok : k.fault = none → ArrivalOk s c bar) : Completed s (completeCmd r id bar) id c k.fault bar := by
  have hcmd : cmdAt r id = k := by rw [cmdAt, hget, Option.getD_some]
  have hlines := linesDropped_rest r k
  have hgroups1 : (linesDropped r k).groups = s.groups := (congrArg State.groups hlines :).trans hgroups
  have hbars1 (b : BarKey) : barGet (linesDropped r k) b = barGet s b :=
    (barGet_congr (congrArg State.gangs hlines :) (congrArg State.launches hlines :) b).trans (hbars b)
  have hkey : arrivalKey (linesDropped r k) k.by_ bar = arrivalKey s c.by_ bar := by
    unfold arrivalKey
    simp only [cmdBar_congr hbars1, hby]
  have hdead : arrivalDead (linesDropped r k) k.by_ bar = arrivalDead s c.by_ bar := by
    unfold arrivalDead
    simp only [hkey, hbars1]
  -- without a fault of its own the command takes none from its arrival
  have hcause : (if k.fault.isNone && arrivalDead (linesDropped r k) k.by_ bar then some Cause.access else k.fault) = k.fault := by
    cases hf : k.fault with
    | some x => rfl
    | none =>
      have halive : arrivalDead s c.by_ bar = false := by
        rw [Bool.eq_false_iff]
        intro hd
        unfold arrivalDead arrivalKey at hd
        cases bar with
        | none => simp at hd
        | some b =>
          cases hb : cmdBar s c.by_ b.1 with
          | none => simp [hb] at hd
          | some q =>
            cases hx : barGet s q with
            | none => simp [hb, hx] at hd
            | some x => exact hok hf b.1 b.2 q x rfl hb hx (by simpa [hb, hx] using hd)
      rw [hdead, halive]
      rfl
  rw [completeCmd_eq, cmdEnded, hcmd, hcause]
  obtain ⟨hcp1, htl1, hfault1⟩ := grp_countersFall (linesDropped r k) k
  have hfall : (arrivalMade (linesDropped r k) (countersFall (linesDropped r k) k) k.by_ bar (k.fault.map (fun x => ⟨x, k.srcAt, id⟩))).groups =
      (countersFall (linesDropped r k) k).groups := (congrArg State.groups (arrivalMade_rest ..) :)
  have hgrp (u : Nat) : grp (arrivalMade (linesDropped r k) (countersFall (linesDropped r k) k) k.by_ bar (k.fault.map (fun x => ⟨x, k.srcAt, id⟩))) u =
      grp (countersFall (linesDropped r k) k) u := by rw [grp, hfall, grp]
  have hgrp1 (u : Nat) : grp (linesDropped r k) u = grp s u := by rw [grp, hgroups1, grp]
  have hdrop (x : State) (u : Nat) : grp (dropCmd x id) u = grp x u := by rw [grp, dropCmd_groups, grp]
  have hhere : (tGet? (arrivalMade (linesDropped r k) (countersFall (linesDropped r k) k) k.by_ bar (k.fault.map (fun x => ⟨x, k.srcAt, id⟩))).groups k.by_.uid).isSome =
      (tGet? s.groups k.by_.uid).isSome := by rw [hfall, countersFall, isSome_modGrp, hgroups1]
  constructor
  case gone => rw [tGet?_dropCmd, if_pos rfl]
  case out => intro core q hq; simp [queue_dropCmd] at hq
  case cp =>
    rw [hdrop, ← hby, (grp_faultLatched ..).1, hgrp, hcp1, hgrp1, hcp]
    cases c.cp <;> rfl
  case tl =>
    rw [hdrop, ← hby, (grp_faultLatched ..).2, hgrp, htl1, hgrp1, htl]
    cases c.tl <;> rfl
  case arrival =>
    intro b n q x hbar hq hx hexp
    have hkey1 : arrivalKey s c.by_ bar = some (q, n) := by rw [hbar, arrivalKey, Option.bind_some, hq, Option.map_some]
    have hlive : arrivalDead (linesDropped r k) k.by_ bar = false := by rw [hdead, arrivalDead, hkey1]; simpa [hx] using hexp
    have hx1 : barGet (countersFall (linesDropped r k) k) q = some x := (barGet_congr rfl rfl q).trans ((hbars1 q).trans hx)
    rw [barGet_congr (dropCmd_gangs ..) (dropCmd_launches ..), barGet_faultLatched, arrivalMade, hkey, hkey1]
    simp only [hlive, Bool.false_eq_true, if_false, engineArrive, hx1]
    rw [barGet_barPut _ hx1, hsrc]
  case fault =>
    intro y hf hg hn
    rw [hdrop, hf, ← hsrc, ← hby]
    rw [hf] at hhere
    refine engFault_faultLatched (hhere.trans (by rw [hby]; exact hg)) ?_ id y
    rw [hf] at hgrp
    rw [hgrp, hfault1, hgrp1, hby, hn]
  case clean =>
    intro hf
    rw [hdrop, hf]
    rw [hf] at hgrp
    rw [faultLatched, hgrp, ← hby, hfault1, hgrp1]

/-- As `completed_of` for a command that is faulted as it completes. -/
theorem completed_faultCmd {s r : State} {id : Nat} {c k : Cmd} (bar : Option (Nat × Nat)) (x : Cause) (hget : tGet? r.cmds id = some k) (hby : k.by_ = c.by_)
    (hsrc : k.srcAt = c.srcAt) (hcp : k.cp = c.cp) (htl : k.tl = c.tl) (hgroups : r.groups = s.groups) (hbars : ∀ b, barGet r b = barGet s b) :
    Completed s (faultCmd r id x bar) id c (some x) bar :=
  completed_of (r := modCmd r id (fun c => { c with fault := some x })) (k := { k with fault := some x }) (by rw [modCmd, tGet?_tMod_self, hget]; rfl) hby hsrc hcp htl
    hgroups hbars (by simp)

end Sys2Proof.Machine
end

section
/-! The Press (R152, R153, R256, R260 to R266, R276): what its words do to the accumulator, and its events. -/

-- one declaration after another, so that the text as a whole is checked within its memory
set_option Elab.async false

namespace Sys2Proof.Machine

/-! ### Accumulator words written -/

/-- Writes of a finite map, no key twice: a key reads as written, or as before. -/
theorem smGet_foldl_smSet {α : Type} [DecidableEq α] (d : α) {ws : List (Nat × α)} (hw : ws.Pairwise (fun a b => a.1 ≠ b.1)) (m : SMap α) (x : Nat) :
    smGet d (ws.foldl (fun a w => smSet d a w.1 w.2) m) x = ((ws.find? (fun p => p.1 == x)).map (fun p => p.2)).getD (smGet d m x) := by
  induction ws generalizing m with
  | nil => rfl
  | cons w ws ih =>
    obtain ⟨hne, hws⟩ := List.pairwise_cons.1 hw
    rw [List.foldl_cons, ih hws, smGet_smSet]
    by_cases hx : w.1 = x
    · have hnone : ws.find? (fun p => p.1 == x) = none := List.find?_eq_none.2 (fun p hp => by simpa using fun h => hne p hp (hx.trans h.symm))
      simp [hnone, hx]
    · simp [hx]

/-- The first entry of a key among those that a test of keys picks. -/
theorem find?_filter_key {α : Type} (p : Nat → Bool) (l : List (Nat × α)) (x : Nat) :
    (l.filter (fun a => p a.1)).find? (fun a => a.1 == x) = if p x then l.find? (fun a => a.1 == x) else none := by
  induction l with
  | nil => simp
  | cons a l ih =>
    by_cases hx : a.1 = x
    · subst hx
      by_cases hp : p a.1 = true <;> simp [hp, ih]
    · by_cases hp : p a.1 = true <;> simp [hp, hx, ih]

/-- A gang with these accumulator words written. -/
def accSet (ws : List (Nat × W32)) (g : Gang) : Gang :=
  { g with acc := ws.foldl (fun a w => smSet 0 a w.1 w.2) g.acc, accPois := g.accPois.filter (fun x => !ws.any (fun w => w.1 == x)) }

theorem accWrite_eq {s : State} (he : s.errors = []) (gang : Nat) (ws : List (Nat × W32)) : accWrite s gang ws = modGang s gang (accSet ws) := by
  rw [accWrite, coverArr_nil he]
  rfl

theorem acc_modGang_accSet {s : State} {gang : Nat} {ws : List (Nat × W32)} (hw : ws.Pairwise (fun a b => a.1 ≠ b.1)) (hg : (tGet? s.gangs gang).isSome = true) (x : Nat) :
    smGet 0 (gangAt (modGang s gang (accSet ws)) gang).acc x = ((ws.find? (fun p => p.1 == x)).map (fun p => p.2)).getD (smGet 0 (gangAt s gang).acc x) := by
  rw [gangAt_modGang s _ _ _ hg, if_pos rfl]
  exact smGet_foldl_smSet 0 hw _ x

/-- Zero words of n whole rows from row0. -/
def zeroRows (row0 n : Nat) : List (Nat × W32) := (List.range (256 * n)).map (fun i => (row0 * 256 + i, 0))

theorem pairwise_zeroRows (row0 n : Nat) : (zeroRows row0 n).Pairwise (fun a b => a.1 ≠ b.1) := by
  rw [zeroRows, List.pairwise_map]
  exact List.nodup_range.imp (fun h heq => h (Nat.add_left_cancel heq))

theorem find?_zeroRows (row0 n x : Nat) :
    ((zeroRows row0 n).find? (fun p => p.1 == x)).map (fun p => p.2) = if row0 * 256 ≤ x ∧ x < (row0 + n) * 256 then some 0 else none := by
  cases hf : (zeroRows row0 n).find? (fun p => p.1 == x) with
  | none =>
    refine (if_neg (fun ⟨hlo, hhi⟩ => ?_)).symm
    refine List.find?_eq_none.1 hf (row0 * 256 + (x - row0 * 256), 0) (List.mem_map.2 ⟨x - row0 * 256, List.mem_range.2 (by omega), rfl⟩) ?_
    simpa using Nat.add_sub_cancel' hlo
  | some p =>
    obtain ⟨i, hi, rfl⟩ := List.mem_map.1 (List.mem_of_find?_eq_some hf)
    have hx : row0 * 256 + i = x := by simpa using List.find?_some hf
    have hlt := List.mem_range.1 hi
    exact (if_pos (by omega)).symm

/-! ### The head of a queue -/

section Events

variable {s : State} {core id : Nat} {c : Cmd}

theorem tGet?_headCmd {q : Nat} (h : headCmd s core q = some (id, c)) : tGet? s.cmds id = some c := by
  unfold headCmd at h
  split at h
  · simp at h
  · split at h
    · simp at h
    · obtain ⟨x, hx, heq⟩ := Option.map_eq_some_iff.1 h
      cases heq
      exact hx

variable (he : s.errors = [])

/-- The completion of a command that stands in s, in a state whose groups, commands and barriers are those of s. -/
theorem completed_here {r : State} (hget : tGet? s.cmds id = some c) (hcmds : r.cmds = s.cmds) (hgroups : r.groups = s.groups)
    (hbars : ∀ b, barGet r b = barGet s b) {bar : Option (Nat × Nat)} (hok : ArrivalOk s c bar) : Completed s (completeCmd r id bar) id c c.fault bar :=
  completed_of (by rw [hcmds, hget]) rfl rfl rfl rfl hgroups hbars (fun _ => hok)

theorem barGet_accSet (s : State) (gang : Nat) (ws : List (Nat × W32)) (b : BarKey) : barGet (modGang s gang (accSet ws)) b = barGet s b :=
  barGet_modGang s gang (f := accSet ws) (fun _ => rfl) b

/-! ### Compute commands (R260, R264 to R266) -/

section Compute

variable {r : List Byte} {cpin landed : Nat} (hhead : headCmd s core 4 = some (id, c)) (hkind : c.kind = .compute r cpin landed) (hheld : cmdHeld s c = false)

/-- The checks of a command whose waits have ended, in order, and its start. -/
def pressChecked (s : State) (core id : Nat) (c : Cmd) (r : List Byte) : State :=
  if wbarBad s c r then faultCmd s id .access (pcArrival r)
  else if !pressRanges s c r then faultCmd s id .access (pcArrival r)
  else if !pressLayout s c r then faultCmd s id .layoutMismatch (pcArrival r)
  else match fmtOf (tagFmt (pcTaga r)) (tagP8d (pcTaga r)) with
    | none => faultCmd s id .layoutMismatch (pcArrival r)
    | some f =>
      let g := engGang s c
      if !pressHeads g r f then faultCmd s id .layoutMismatch (pcArrival r)
      else if pressBad g r f then
        let s := pressMet s c.by_.gang g r f
        let s := engPoison s id [noKey] true
        if (cmdAt s id).fault.isSome then completeCmd s id (pcArrival r) else s
      else
        let s := pressMet s c.by_.gang g r f
        let s := coloRows s core c.by_.gang (pcRow0 r) (pcM r)
        let words := (List.range (pcM r)).flatMap (pressRow g (nth {} g.banks (pcBank r)) r f (pressCap r f))
        let open_ := takeFreeWord s
        modCmd open_.2 id (fun c =>
          let c := if bit open_.1.toNat 0 then setStall c 3 else c
          { c with state := .running, stage := words, t1 := s.gtick.toNat })

include hhead hkind hheld in
theorem pressStart_eq : exec (.pressCommandStart core) s =
    .next (if c.state = .running then commitRow s id else if c.state ≠ .queued ∨ !c.ready then s else pressChecked s core id c r) := by
  show execPressCommandStart core s = _
  simp only [execPressCommandStart, hhead, hkind, hheld, Bool.false_eq_true, if_false, pressChecked] <;> rfl

include he in
/-- The reads of a command meet no error where none is pending (R338). -/
theorem pressMet_nil (gang : Nat) (g : Gang) (r : List Byte) (f : Fmt) : pressMet s gang g r f = s := by
  have hring : (ringReads g r f).foldl (fun s x => meetArr s (.scratch gang (pcAring r + x.1)) x.2) s = s := List.foldl_fixed' (fun _ => meetArr_nil he _ _) _
  unfold pressMet
  dsimp only
  simp only [hring, meetArr_nil he, ite_self]
  exact List.foldl_fixed' (fun _ => by simp only [meetArr_nil he, ite_self]) _

theorem kind_setStall (c : Cmd) (i : Nat) : (setStall c i).kind = c.kind := by
  unfold setStall
  split <;> rfl

/-- A command that has started holds its words, and the tick and the stall bit of its start. -/
def pressStarted (t : State) (id : Nat) (words : List (Nat × W32)) : State :=
  modCmd (takeFreeWord t).2 id (fun c =>
    let c := if bit (takeFreeWord t).1.toNat 0 then setStall c 3 else c
    { c with state := .running, stage := words, t1 := t.gtick.toNat })

theorem cmdAt_pressStarted {t : State} (ws : List (Nat × W32)) (hget : tGet? t.cmds id = some c) :
    ∃ k : Cmd, cmdAt (pressStarted t id ws) id = { k with state := .running, stage := ws, t1 := t.gtick.toNat } ∧ k.kind = c.kind := by
  have hcmd : cmdAt (takeFreeWord t).2 id = c := by
    show cmdAt t id = c
    rw [cmdAt, hget, Option.getD_some]
  refine ⟨if bit (takeFreeWord t).1.toNat 0 then setStall c 3 else c, ?_, ?_⟩
  · rw [pressStarted, cmdAt_modCmd (takeFreeWord t).2 _ _ _ (by show (tGet? t.cmds id).isSome = true; rw [hget]; rfl), if_pos rfl, hcmd]
  · split
    · exact kind_setStall ..
    · rfl

include hhead hkind hheld he

/-- A command that passes its checks holds its words, and the accumulator is as before. -/
theorem press_starts (hst : c.state = .queued) (hready : c.ready = true) {f : Fmt} (hw : wbarBad s c r = false) (hr : pressRanges s c r = true) (hl : pressLayout s c r = true)
    (hf : fmtOf (tagFmt (pcTaga r)) (tagP8d (pcTaga r)) = some f) (hh : pressHeads (engGang s c) r f = true) (hb : pressBad (engGang s c) r f = false) :
    ∃ t, exec (.pressCommandStart core) s = .next t ∧ (cmdAt t id).state = .running ∧ (cmdAt t id).t1 = s.gtick.toNat ∧ (cmdAt t id).kind = c.kind ∧
      (cmdAt t id).stage = (List.range (pcM r)).flatMap (pressRow (engGang s c) (nth {} (gangAt s c.by_.gang).banks (pcBank r)) r f (pressCap r f)) ∧
      (gangAt t c.by_.gang).acc = (gangAt s c.by_.gang).acc := by
  have hcolo := beside_coloRows he core c.by_.gang (pcRow0 r) (pcM r)
  have hchecked : pressChecked s core id c r = pressStarted (coloRows s core c.by_.gang (pcRow0 r) (pcM r)) id
      ((List.range (pcM r)).flatMap (pressRow (engGang s c) (nth {} (gangAt s c.by_.gang).banks (pcBank r)) r f (pressCap r f))) := by
    simp only [pressChecked, hw, hr, hl, hf, hh, hb, pressMet_nil he]
    rfl
  obtain ⟨k, hk, hkk⟩ := cmdAt_pressStarted ((List.range (pcM r)).flatMap (pressRow (engGang s c) (nth {} (gangAt s c.by_.gang).banks (pcBank r)) r f (pressCap r f)))
    (show tGet? (coloRows s core c.by_.gang (pcRow0 r) (pcM r)).cmds id = some c by rw [hcolo.cmds, tGet?_headCmd hhead])
  refine ⟨_, by rw [pressStart_eq hhead hkind hheld, if_neg (by simp [hst]), if_neg (by simp [hst, hready]), hchecked], ?_⟩
  rw [hk]
  exact ⟨rfl, congrArg BitVec.toNat hcolo.gtick, hkk, rfl, congrArg Gang.acc (hcolo.gangAt c.by_.gang)⟩

/-- A running command commits the row of its first staged word. -/
theorem press_commits (hst : c.state = .running) {w : Nat × W32} {rest : List (Nat × W32)} (hs : c.stage = w :: rest) (hw : c.stage.Pairwise (fun a b => a.1 ≠ b.1)) :
    ∃ t, exec (.pressCommandStart core) s = .next t ∧ (cmdAt t id).stage = c.stage.filter (fun x => x.1 / 256 != w.1 / 256) ∧ (cmdAt t id).rows = c.rows + 1 ∧
      (cmdAt t id).state = .running ∧ ((tGet? s.gangs c.by_.gang).isSome = true → ∀ x, smGet 0 (gangAt t c.by_.gang).acc x =
        if x / 256 = w.1 / 256 then ((c.stage.find? (fun p => p.1 == x)).map (fun p => p.2)).getD (smGet 0 (gangAt s c.by_.gang).acc x) else smGet 0 (gangAt s c.by_.gang).acc x) := by
  have hget := tGet?_headCmd hhead
  have hcmd : cmdAt s id = c := by rw [cmdAt, hget, Option.getD_some]
  have hcommit : commitRow s id = modCmd (modGang s c.by_.gang (accSet (c.stage.filter (fun x => x.1 / 256 == w.1 / 256)))) id
      (fun c => { c with stage := c.stage.filter (fun x => x.1 / 256 != w.1 / 256), rows := c.rows + 1 }) := by
    simp only [commitRow, hcmd, hs]
    rw [accWrite_eq he]
    rfl
  refine ⟨_, by rw [pressStart_eq hhead hkind hheld, if_pos hst, hcommit], ?_⟩
  rw [cmdAt_modCmd (modGang s _ _) _ _ _ (by show (tGet? s.cmds id).isSome = true; rw [hget]; rfl), if_pos rfl,
    show cmdAt (modGang s c.by_.gang (accSet (c.stage.filter (fun x => x.1 / 256 == w.1 / 256)))) id = c from hcmd]
  refine ⟨rfl, rfl, hst, fun hg x => ?_⟩
  refine (acc_modGang_accSet (hw.filter _) hg x).trans ?_
  rw [find?_filter_key (fun k => k / 256 == w.1 / 256)]
  by_cases hx : x / 256 = w.1 / 256 <;> simp [hx]

/-- The colophon of a command that completes in s (R275). -/
def coloOf (s : State) (c : Cmd) (r : List Byte) (cpin landed : Nat) : Colophon :=
  { row0 := pcRow0 r, m := pcM r, gang := c.by_.gang, colo := pcColo r, vmid := c.by_.vmid, asid := c.by_.asid, cpin := cpin, landed := landed,
    opready := c.t0, cstart := c.t1, cend := s.gtick.toNat, stall := c.stall, opc := pcOpc r, bank := pcBank r, slot := c.by_.slot, launch := c.by_.launch,
    mode := c.by_.mode }

/-- A running command completes: what is staged still is written, and its colophon is pending (R276). -/
theorem press_completes (hst : c.state = .running) (hok : ArrivalOk s c (pcArrival r)) (hw : c.stage.Pairwise (fun a b => a.1 ≠ b.1)) :
    ∃ t, exec (.pressCommandComplete core) s = .next t ∧ Completed s t id c c.fault (pcArrival r) ∧
      ((tGet? s.gangs c.by_.gang).isSome = true → ∀ w, smGet 0 (gangAt t c.by_.gang).acc w =
        ((c.stage.find? (fun p => p.1 == w)).map (fun p => p.2)).getD (smGet 0 (gangAt s c.by_.gang).acc w)) ∧
      (pcStamp r = false → (coreAt t core).colophons = (coreAt s core).colophons) ∧
      (pcStamp r = true → (coreAt s core).colophons.length < 16 → (coreAt t core).colophons = (coreAt s core).colophons ++
        [coloOf s c r cpin landed]) := by
  have hget := tGet?_headCmd hhead
  have hexec : exec (.pressCommandComplete core) s = .next (completeCmd (if pcStamp r then coloAdd (modGang s c.by_.gang (accSet c.stage)) core (coloOf s c r cpin landed)
      else modGang s c.by_.gang (accSet c.stage)) id (pcArrival r)) := by
    show execPressCommandComplete core s = _
    simp only [execPressCommandComplete, hhead, hkind, hheld, hst, accWrite_eq he]
    rfl
  have hbeside : Beside (modGang s c.by_.gang (accSet c.stage))
      (if pcStamp r then coloAdd (modGang s c.by_.gang (accSet c.stage)) core (coloOf s c r cpin landed) else modGang s c.by_.gang (accSet c.stage)) := by
    split
    · exact beside_coloAdd (s := modGang s c.by_.gang (accSet c.stage)) he core _
    · exact .refl _
  have hcores (t : State) : (coreAt (completeCmd t id (pcArrival r)) core).colophons = (coreAt t core).colophons := by
    rw [coreAt_completeCmd]
    rfl
  refine ⟨_, hexec, completed_here hget hbeside.cmds hbeside.groups (fun b => (hbeside.barGet b).trans (barGet_accSet s c.by_.gang c.stage b)) hok, fun hg w => ?_, fun hs => ?_, fun hs hlt => ?_⟩
  · rw [show (gangAt (completeCmd _ id (pcArrival r)) c.by_.gang).acc = _ from (congrArg Gang.acc (bareGang_completeCmd ..) :), bareGang, hbeside.gangAt]
    exact acc_modGang_accSet hw hg w
  · rw [hcores, if_neg (by simp [hs])]
    rfl
  · rw [hcores, if_pos hs]
    exact colophons_coloAdd _ hlt

end Compute

/-- `pclr` clears its rows. -/
theorem pclr_runs {row0 n : Nat} {bar : BarId} {arr : Bool} (he : s.errors = []) (hhead : headCmd s core 4 = some (id, c)) (hkind : c.kind = .clear row0 n bar arr)
    (hheld : cmdHeld s c = false) (hok : ArrivalOk s c (arrOf bar arr)) :
    ∃ t, exec (.pclrRun core) s = .next t ∧ Completed s t id c c.fault (arrOf bar arr) ∧ ((tGet? s.gangs c.by_.gang).isSome = true → ∀ w, smGet 0 (gangAt t c.by_.gang).acc w =
      if row0 * 256 ≤ w ∧ w < (row0 + n) * 256 then 0 else smGet 0 (gangAt s c.by_.gang).acc w) := by
  have hget := tGet?_headCmd hhead
  have hcolo := beside_coloRows he core c.by_.gang row0 n
  have hexec : exec (.pclrRun core) s =
      .next (completeCmd (modGang (coloRows s core c.by_.gang row0 n) c.by_.gang (accSet (zeroRows row0 n))) id (arrOf bar arr)) := by
    show execPclrRun core s = _
    simp only [execPclrRun, hhead, hkind, hheld, accWrite_eq (hcolo.errors he)]
    rfl
  refine ⟨_, hexec, completed_here (r := modGang (coloRows s core c.by_.gang row0 n) c.by_.gang (accSet (zeroRows row0 n))) hget hcolo.cmds hcolo.groups
    (fun b => (barGet_accSet ..).trans (hcolo.barGet b)) hok, fun hg w => ?_⟩
  rw [show (gangAt (completeCmd _ id (arrOf bar arr)) c.by_.gang).acc = _ from (congrArg Gang.acc (bareGang_completeCmd ..) :), bareGang]
  refine (acc_modGang_accSet (pairwise_zeroRows row0 n) (by rw [hcolo.gangs, hg]) w).trans ?_
  rw [find?_zeroRows, hcolo.gangAt]
  split <;> rfl

/-! ### Bank loads (R256, R263) -/

section Bank

variable {n a : Nat} {tag : W32} {bar : BarId} {arr : Bool} (he : s.errors = []) (hhead : headCmd s core 5 = some (id, c)) (hkind : c.kind = .bank n a tag bar arr)
  (hheld : cmdHeld s c = false) (hn : n < (gangAt s c.by_.gang).banks.length) (hg : (tGet? s.gangs c.by_.gang).isSome = true)

/-- A gang with another bank n. -/
def bankPut (n : Nat) (b : Bank) (g : Gang) : Gang := { g with banks := setNth g.banks n b }

theorem setBank_eq {s : State} (he : s.errors = []) (gang n : Nat) (b : Bank) : setBank s gang n b = modGang s gang (bankPut n b) := by
  rw [setBank, coverArr_nil he]
  rfl

include he in
theorem bankMet_nil (gang a tag : Nat) (f : Fmt) : bankMet s gang a tag f = s := by
  unfold bankMet
  rw [List.foldl_fixed' (fun _ => meetArr_nil he _ _)]
  dsimp only
  rw [meetArr_nil he, ite_self]

/-- A gang whose bank n is READY. -/
def bankReady (n : Nat) (g : Gang) : Gang := { g with banks := modNth g.banks n (fun b => { b with state := .ready }) }

/-- The banks of the command's gang are these once bank n is replaced. -/
theorem nth_bankPut {s : State} {gang n : Nat} (hn : n < (gangAt s gang).banks.length) (hg : (tGet? s.gangs gang).isSome = true) (b : Bank) (k : Nat) :
    nth {} (gangAt (modGang s gang (bankPut n b)) gang).banks k = if k = n then b else nth {} (gangAt s gang).banks k := by
  rw [gangAt_modGang s _ _ _ hg, if_pos rfl, bankPut, nth_setNth]
  by_cases hk : k = n
  · rw [if_pos ⟨hk.symm, hn⟩, if_pos hk]
  · rw [if_neg (fun h => hk h.1.symm), if_neg hk]

include hhead hkind hheld in
theorem bankLoad_eq : exec (.bankLoad core) s =
    .next (if c.state ≠ .queued ∨ bankBusy s id c then s else runBankLoad s id c n a tag.toNat (arrOf bar arr)) := by
  show execBankLoad core s = _
  simp only [execBankLoad, hhead, hkind, hheld, Bool.false_eq_true, or_false]

include he hhead hkind hheld hn hg

/-- A load whose tag and tiles do not hold together leaves its bank EMPTY. -/
theorem bank_faults (hst : c.state = .queued) (hfree : bankBusy s id c = false) (hl : bankLayout (gangAt s c.by_.gang) a tag.toNat = false) :
    ∃ t, exec (.bankLoad core) s = .next t ∧ Completed s t id c (some .layoutMismatch) (arrOf bar arr) ∧ nth {} (gangAt t c.by_.gang).banks n = {} := by
  have hrun : runBankLoad s id c n a tag.toNat (arrOf bar arr) = faultCmd (modGang s c.by_.gang (bankPut n {})) id .layoutMismatch (arrOf bar arr) := by
    simp only [runBankLoad, hl, setBank_eq he]
    rfl
  refine ⟨_, by rw [bankLoad_eq hhead hkind hheld, if_neg (by simp [hst, hfree]), hrun], completed_faultCmd (r := modGang s c.by_.gang (bankPut n {})) _ _
    (tGet?_headCmd hhead) rfl rfl rfl rfl rfl (fun b => barGet_modGang s _ (f := bankPut n {}) (fun _ => rfl) b), ?_⟩
  rw [faultCmd, show (gangAt (completeCmd _ id (arrOf bar arr)) c.by_.gang).banks = _ from (congrArg Gang.banks (bareGang_completeCmd ..) :)]
  exact (nth_bankPut hn hg {} n).trans (if_pos rfl)

theorem bank_loads (hst : c.state = .queued) (hfree : bankBusy s id c = false) {f : Fmt} (hl : bankLayout (gangAt s c.by_.gang) a tag.toNat = true)
    (hf : fmtOf (tagFmt tag.toNat) (tagP8d tag.toNat) = some f) (hb : bankBad (gangAt s c.by_.gang) a tag.toNat f = false) :
    ∃ t, exec (.bankLoad core) s = .next t ∧ (cmdAt t id).state = .running ∧ nth {} (gangAt t c.by_.gang).banks n = bankContents (engGang s c) a tag.toNat f ∧
      ∀ k, k ≠ n → nth {} (gangAt t c.by_.gang).banks k = nth {} (gangAt s c.by_.gang).banks k := by
  have hexec : exec (.bankLoad core) s =
      .next (modCmd (modGang s c.by_.gang (bankPut n (bankContents (engGang s c) a tag.toNat f))) id (fun c => { c with state := .running })) := by
    rw [bankLoad_eq hhead hkind hheld, if_neg (by simp [hst, hfree])]
    simp only [runBankLoad, hl, hf, hb, bankMet_nil he, setBank_eq he]
    rfl
  refine ⟨_, hexec, ?_, (nth_bankPut hn hg _ n).trans (if_pos rfl), fun k hk => (nth_bankPut hn hg _ k).trans (if_neg hk)⟩
  rw [cmdAt_modCmd (modGang s _ _) _ _ _ (by show (tGet? s.cmds id).isSome = true; rw [tGet?_headCmd hhead]; rfl), if_pos rfl]

omit he in
theorem bank_completes (hst : c.state = .running) (hok : ArrivalOk s c (arrOf bar arr)) :
    ∃ t, exec (.bankLoadComplete core) s = .next t ∧ Completed s t id c c.fault (arrOf bar arr) ∧
      nth {} (gangAt t c.by_.gang).banks n = { nth {} (gangAt s c.by_.gang).banks n with state := .ready } := by
  have hexec : exec (.bankLoadComplete core) s =
      .next (completeCmd (modGang s c.by_.gang (bankReady n)) id (arrOf bar arr)) := by
    show execBankLoadComplete core s = _
    simp only [execBankLoadComplete, hhead, hkind, hheld, hst]
    rfl
  refine ⟨_, hexec, completed_here (r := modGang s c.by_.gang (bankReady n)) (tGet?_headCmd hhead) rfl rfl
    (fun b => barGet_modGang s _ (f := bankReady n) (fun _ => rfl) b) hok, ?_⟩
  rw [show (gangAt (completeCmd _ id (arrOf bar arr)) c.by_.gang).banks = _ from (congrArg Gang.banks (bareGang_completeCmd ..) :), bareGang, gangAt_modGang s _ _ _ hg, if_pos rfl]
  exact (nth_modNth ..).trans (if_pos ⟨rfl, hn⟩)

end Bank

end Events

/-- Settles O46: the events of the compute queue, then those of the bank queue. -/
theorem pressEvents : Obligations.PressEvents := by
  unfold Obligations.PressEvents
  intro s core id c hheld he does g e here accOf bankOf
  refine ⟨fun hhead => ⟨?_, ?_⟩, ?_⟩
  · intro r cpin landed hkind faults
    have hfaults {x : Cause} (h : exec (.pressCommandStart core) s = .next (faultCmd s id x (pcArrival r))) : faults x :=
      ⟨_, h, completed_faultCmd _ _ (tGet?_headCmd hhead) rfl rfl rfl rfl rfl (fun _ => rfl)⟩
    have hstart (hst : c.state = .queued) (hready : c.ready = true) : exec (.pressCommandStart core) s = .next (pressChecked s core id c r) := by
      rw [pressStart_eq hhead hkind hheld, if_neg (by simp [hst]), if_neg (by simp [hst, hready])]
    refine ⟨fun hst hready => ?_, fun hst hready => ⟨fun hbad => ?_, fun hw hr => ⟨fun hl => ?_, fun f hl hf => ⟨fun hh => ?_, fun hh hb => ?_⟩⟩⟩, ?_, ?_, ?_⟩
    · rw [pressStart_eq hhead hkind hheld, if_neg (by simp [hst]), if_pos (by simp [hready])]
    · refine hfaults ((hstart hst hready).trans (congrArg Host.Outcome.next ?_))
      rw [pressChecked]
      split
      · rfl
      · next hw => rw [if_pos (by simpa [hw] using hbad)]
    · exact hfaults (by simp [hstart hst hready, pressChecked, hw, hr, hl])
    · exact hfaults (by simp [hstart hst hready, pressChecked, hw, hr, hl, hf, show pressHeads (engGang s c) r f = false from hh])
    · exact press_starts he hhead hkind hheld hst hready hw hr hl hf hh hb
    · intro w rest hst hs hp
      exact press_commits he hhead hkind hheld hst hs hp
    · intro hst hs
      have hcmd : cmdAt s id = c := by rw [cmdAt, tGet?_headCmd hhead, Option.getD_some]
      rw [pressStart_eq hhead hkind hheld, if_pos hst]
      simp only [commitRow, hcmd, hs]
    · intro hst hok hp
      exact press_completes he hhead hkind hheld hst hok hp
  · intro row0 n bar arr hkind hok
    exact pclr_runs he hhead hkind hheld hok
  · intro hhead n a tag bar arr hkind hn hg
    refine ⟨fun hst hbusy => ?_, fun hst hfree => ⟨fun hl => ?_, fun f hl hf hb => ?_⟩, fun hst hok => ?_⟩
    · rw [bankLoad_eq hhead hkind hheld, if_pos (.inr hbusy)]
    · exact bank_faults he hhead hkind hheld hn hg hst hfree hl
    · exact bank_loads he hhead hkind hheld hn hg hst hfree hl hf hb
    · exact bank_completes hhead hkind hheld hn hg hst hok

end Sys2Proof.Machine
end

section
/-! A command that an engine works on (R144, R222): what its completion reads stands through the engine's writes, and so a copy that faults or finishes completes. -/

-- one declaration after another, so that the text as a whole is checked within its memory
set_option Elab.async false

namespace Sys2Proof.Machine

namespace Beside

variable {s t : State}

/-- A launch but for what engines' writes change of it. -/
theorem bareLaunch_launchAt (h : Beside s t) (k : Nat) : bareLaunch (launchAt t k) = bareLaunch (launchAt s k) := by
  have hl := h.launches k
  cases hs : tGet? s.launches k with
  | none =>
    rw [hs, Option.map_none, Option.map_eq_none_iff] at hl
    rw [launchAt, launchAt, hl, hs]
  | some b =>
    rw [hs, Option.map_some, Option.map_eq_some_iff] at hl
    obtain ⟨a, ha, hb⟩ := hl
    rw [launchAt, launchAt, ha, hs]
    exact hb

theorem buckets (h : Beside s t) (k : Nat) : (launchAt t k).buckets = (launchAt s k).buckets := (congrArg Launch.buckets (h.bareLaunch_launchAt k) :)

end Beside

/-- What the completion of a command reads of it. -/
def cmdCore (k : Cmd) : Cmd := { kind := k.kind, by_ := k.by_, srcAt := k.srcAt, cp := k.cp, tl := k.tl, fault := k.fault }

/-- From s to r, command id, which is c, stands with the fault f, and the groups and barriers are as they were. -/
structure Stands (s : State) (id : Nat) (c : Cmd) (f : Option Cause) (r : State) : Prop where
  cmd : (tGet? r.cmds id).map cmdCore = some (cmdCore { c with fault := f })
  groups : r.groups = s.groups
  bars : ∀ b, barGet r b = barGet s b
  errors : r.errors = []
  old : id < r.fresh

namespace Stands

variable {s r t : State} {id : Nat} {c : Cmd} {f : Option Cause}

theorem here (hget : tGet? s.cmds id = some c) (he : s.errors = []) (hid : id < s.fresh) : Stands s id c c.fault s :=
  ⟨by rw [hget]; rfl, rfl, fun _ => rfl, he, hid⟩

/-- The command that stands. -/
theorem get (h : Stands s id c f r) : ∃ k, tGet? r.cmds id = some k ∧ cmdAt r id = k ∧ cmdCore k = cmdCore { c with fault := f } := by
  obtain ⟨k, hk, hkc⟩ := Option.map_eq_some_iff.1 h.cmd
  exact ⟨k, hk, by rw [cmdAt, hk, Option.getD_some], hkc⟩

theorem kind (h : Stands s id c f r) : (cmdAt r id).kind = c.kind := by
  obtain ⟨k, -, hk, hkc⟩ := h.get
  rw [hk]
  exact (congrArg Cmd.kind hkc :)

theorem issuer (h : Stands s id c f r) : (cmdAt r id).by_ = c.by_ := by
  obtain ⟨k, -, hk, hkc⟩ := h.get
  rw [hk]
  exact (congrArg Cmd.by_ hkc :)

theorem beside (h : Stands s id c f r) (g : Beside r t) : Stands s id c f t :=
  ⟨by rw [g.cmds]; exact h.cmd, g.groups.trans h.groups, fun b => (g.barGet b).trans (h.bars b), g.errors h.errors, by rw [g.fresh]; exact h.old⟩

/-- What changes neither its commands, groups, launches, errors and names nor the barriers of gangs. -/
theorem same (h : Stands s id c f r) (hc : t.cmds = r.cmds) (hg : t.groups = r.groups) (hb : ∀ b, barGet t b = barGet r b) (he : t.errors = r.errors) (hf : t.fresh = r.fresh) :
    Stands s id c f t :=
  ⟨by rw [hc]; exact h.cmd, hg.trans h.groups, fun b => (hb b).trans (h.bars b), he.trans h.errors, by rw [hf]; exact h.old⟩

theorem modCmd (h : Stands s id c f r) {g : Cmd → Cmd} (hg : ∀ k, cmdCore (g k) = cmdCore k) : Stands s id c f (modCmd r id g) := by
  obtain ⟨k, hk, -, hkc⟩ := h.get
  exact ⟨by rw [Machine.modCmd, tGet?_tMod_self, hk]; exact congrArg some ((hg k).trans hkc), h.groups, h.bars, h.errors, h.old⟩

theorem faulted (h : Stands s id c f r) (x : Cause) : Stands s id c (some x) (Machine.modCmd r id (fun c => { c with fault := some x })) := by
  obtain ⟨k, hk, -, hkc⟩ := h.get
  refine ⟨?_, h.groups, h.bars, h.errors, h.old⟩
  rw [Machine.modCmd, tGet?_tMod_self, hk]
  exact congrArg some (congrArg (fun k : Cmd => { k with fault := some x }) hkc :)

theorem modGang (h : Stands s id c f r) (k : Nat) {g : Gang → Gang} (hg : ∀ x, (g x).bars = x.bars) : Stands s id c f (modGang r k g) :=
  h.same (t := Machine.modGang r k g) rfl rfl (fun b => barGet_modGang r k hg b) rfl rfl

theorem foldl {α : Type} {g : State → α → State} (hg : ∀ r x, Stands s id c f r → Stands s id c f (g r x)) (xs : List α) (h : Stands s id c f r) :
    Stands s id c f (xs.foldl g r) := by
  induction xs generalizing r with
  | nil => exact h
  | cons x xs ih => exact ih (hg r x h)

theorem completed (h : Stands s id c f r) {bar : Option (Nat × Nat)} (hok : f = none → ArrivalOk s c bar) : Completed s (completeCmd r id bar) id c f bar := by
  obtain ⟨k, hk, -, hkc⟩ := h.get
  have hf : k.fault = f := (congrArg Cmd.fault hkc :)
  rw [← hf]
  exact completed_of hk (congrArg Cmd.by_ hkc :) (congrArg Cmd.srcAt hkc :) (congrArg Cmd.cp hkc :) (congrArg Cmd.tl hkc :) h.groups h.bars (fun hn => hok (hf ▸ hn))

/-! ### The writes of a copy -/

theorem cmdPut (h : Stands s id c f r) (w : OutWrite) : Stands s id c f (cmdPut r id w) :=
  (h.beside (beside_engPut h.errors _ id w)).modCmd (fun _ => rfl)

theorem scratchPut (h : Stands s id c f r) (k : Nat) (ps : List (Nat × Byte)) : Stands s id c f (scratchPut r k ps) := by
  rw [Machine.scratchPut, coverArr_nil h.errors]
  exact h.modGang k (fun _ => rfl)

theorem tagPut (h : Stands s id c f r) (k n w : Nat) : Stands s id c f (tagPut r k n w) := h.modGang k (fun _ => rfl)

theorem free (h : Stands s id c f r) (n : Nat) : Stands s id c f { r with free := n } := h.same rfl rfl (fun _ => rfl) rfl rfl

theorem tileLand (h : Stands s id c f r) (k : Cmd) (d : List Byte) (n : Nat) : Stands s id c f (tileLand r id k d n) := by
  unfold Machine.tileLand
  exact modCmd (tagPut (free (h.scratchPut ..) _) ..) (fun _ => rfl)

/-! ### Its bucket (R279, R280) -/

theorem modDie (h : Stands s id c f r) (k : Nat) (g : Die → Die) : Stands s id c f (modDie r k g) := h.same rfl rfl (fun _ => rfl) rfl rfl

theorem pushColl (h : Stands s id c f r) (b : List Byte) (i : Issuer) (src : W64) (cp : Bool) : Stands s id c f (pushColl r b i src cp) :=
  ⟨by
    show (tGet? (tPut r.cmds r.fresh _) id).map cmdCore = _
    rw [tGet?_tPut, if_neg (Nat.ne_of_gt h.old)]
    exact h.cmd, h.groups, h.bars, h.errors, Nat.lt_succ_of_lt h.old⟩

theorem kickBucket (h : Stands s id c f r) (die k : Nat) : Stands s id c f (kickBucket r die k) := by
  unfold Machine.kickBucket
  split
  · exact h
  · split
    · exact h.pushColl ..
    · exact h.modDie ..

theorem bucketAdd (h : Stands s id c f r) (die k n : Nat) : Stands s id c f (bucketAdd r die k n) := by
  unfold Machine.bucketAdd
  dsimp only
  split
  · exact h
  · split
    · exact h.modDie ..
    · exact ((h.modDie ..).modDie ..).kickBucket ..

/-! ### Its end (R144, R206, R272) -/

/-- A copy that finishes completes. -/
theorem copyFinish (h : Stands s id c f r) {d fo : List Byte} (hk : c.kind = .copy d fo) (hok : f = none → ArrivalOk s c (fdArrival d)) :
    Completed s (copyFinish r id) id c f (fdArrival d) := by
  unfold Machine.copyFinish
  simp only [h.kind, hk]
  have hcolo := h.beside (beside_coloRetireIf h.errors (cmdAt r id).by_.core (cmdAt r id).by_.gang r.gtick.toNat
    (fun x => (rowsRead (cmdAt r id) d).any (fun r => decide (x.row0 ≤ r) && decide (r < x.row0 + x.m))))
  refine completed ?_ hok
  split
  · exact hcolo.bucketAdd ..
  · exact hcolo

/-- A copy that faults completes with its fault. -/
theorem copyFault (h : Stands s id c f r) {d fo : List Byte} (hk : c.kind = .copy d fo) (x : Cause) : Completed s (copyFault r id x) id c (some x) (fdArrival d) := by
  unfold Machine.copyFault
  simp only [h.kind, hk]
  have hout := h.foldl (fun _ w h => h.cmdPut w) (cmdAt r id).out
  refine (faulted (hout.foldl (fun t k ht => ?_) _) x).copyFinish hk (fun hn => nomatch hn)
  split
  · exact ht.tileLand ..
  · split
    · exact ht
    · exact ht.scratchPut ..

end Stands

/-! ### What a completion keeps of a die -/

/-- A die but for its queue and the lines of its cache. -/
def bareDie (d : Die) : Die := { d with collQ := [], remote := [] }

theorem bareDie_linesDropped (s : State) (c : Cmd) (d : Nat) : bareDie (dieAt (linesDropped s c) d) = bareDie (dieAt s d) := by
  unfold linesDropped
  induction c.wrote generalizing s with
  | nil => rfl
  | cons w ws ih => exact (ih _).trans (congrArg (fun d : Die => { d with collQ := [] }) ((beside_dropLines s (dieOf c.by_.core) w.1 w.2).die d) :)

theorem cmdEnded_dies (s : State) (id : Nat) (bar : Option (Nat × Nat)) : (cmdEnded s id bar).dies = (linesDropped s (cmdAt s id)).dies := by
  unfold cmdEnded
  rw [show (faultLatched _ id (cmdAt s id) _).dies = _ from (congrArg State.dies (faultLatched_rest _ id (cmdAt s id) _) :)]
  exact (congrArg State.dies (arrivalMade_rest (linesDropped s (cmdAt s id)) (countersFall (linesDropped s (cmdAt s id)) (cmdAt s id)) _ _ _) :)

theorem bareDie_completeCmd (s : State) (id : Nat) (bar : Option (Nat × Nat)) (d : Nat) : bareDie (dieAt (completeCmd s id bar) d) = bareDie (dieAt s d) := by
  rw [completeCmd_eq, dieAt_dropCmd]
  show bareDie (dieAt (cmdEnded s id bar) d) = _
  rw [dieAt, cmdEnded_dies]
  exact bareDie_linesDropped s (cmdAt s id) d

/-! ### Buckets that kicks leave alone -/

theorem buckets_kickBucket (s : State) (die k d : Nat) : (dieAt (kickBucket s die k) d).buckets = (dieAt s d).buckets := by
  unfold kickBucket
  split
  · rfl
  · split
    · rw [pushColl, dieAt_modDie]
      split <;> rfl
    · rw [dieAt_modDie]
      split <;> rfl

/-- The bucket after a count rests on what it was before. -/
theorem bucketAt_bucketAdd_congr {s t : State} {die k : Nat} (h : bucketAt t die k = bucketAt s die k) (n : Nat) :
    bucketAt (bucketAdd t die k n) die k = bucketAt (bucketAdd s die k n) die k := by
  have hkick (r : State) : bucketAt (kickBucket r die k) die k = bucketAt r die k := by rw [bucketAt, buckets_kickBucket, bucketAt]
  have hval (r : State) : bucketAt (bucketAdd r die k n) die k =
      if !(bucketAt r die k).armed then bucketAt r die k
      else if countWith (bucketAt r die k) n < (bucketAt r die k).total.toNat then { bucketAt r die k with count := BitVec.ofNat 48 (countWith (bucketAt r die k) n) }
      else { bucketAt r die k with count := BitVec.ofNat 48 (countWith (bucketAt r die k) n), armed := false } := by
    unfold bucketAdd
    dsimp only
    split
    · rfl
    · show bucketAt (if countWith (bucketAt r die k) n < _ then _ else _) die k = _
      split
      · exact bucketAt_modBucket ..
      · rw [hkick, bucketAt_modBucket, bucketAt_modBucket]
        rfl
  rw [hval, hval, h]

end Sys2Proof.Machine
end

section
/-! One unit of a copy (R269, R271, R273): what its move leaves alone besides its bytes, and where they go. -/

-- one declaration after another, so that the text as a whole is checked within its memory
set_option Elab.async false

namespace Sys2Proof.Machine

/-! ### Translations and pins (R215, R274, R316) -/

/-- A command but for its pins. -/
def unpinned (k : Cmd) : Cmd := { k with pins := [] }

/-- From s to t, translations, free choices and the pins of command id alone have changed. -/
structure Idle (id : Nat) (s t : State) : Prop where
  rest : { t with tlbs := s.tlbs, free := s.free, cmds := s.cmds } = s
  cmd : (tGet? t.cmds id).map unpinned = (tGet? s.cmds id).map unpinned

namespace Idle

variable {id : Nat} {s t r : State}

theorem refl (s : State) : Idle id s s := ⟨rfl, rfl⟩

theorem trans (h : Idle id s t) (g : Idle id t r) : Idle id s r :=
  ⟨(congrArg (fun x : State => { x with tlbs := s.tlbs, free := s.free, cmds := s.cmds }) g.rest :).trans h.rest, g.cmd.trans h.cmd⟩

theorem mem (h : Idle id s t) : t.mem = s.mem := (congrArg State.mem h.rest :)
theorem errors (h : Idle id s t) : t.errors = s.errors := (congrArg State.errors h.rest :)
theorem groups (h : Idle id s t) : t.groups = s.groups := (congrArg State.groups h.rest :)

/-- Other translations and free choices. -/
theorem of_tlbs (s : State) (ts : Table (List TlbEnt)) (n : Nat) : Idle id s { s with tlbs := ts, free := n } := ⟨rfl, rfl⟩

theorem get {c : Cmd} (h : Idle id s t) (hget : tGet? s.cmds id = some c) : ∃ k, tGet? t.cmds id = some k ∧ unpinned k = unpinned c := by
  have hcmd := h.cmd
  rw [hget] at hcmd
  exact Option.map_eq_some_iff.1 hcmd

end Idle

theorem tlbFill_form {s : State} (he : s.errors = []) (k owner vmid asid off : Nat) (a : PageAttr) : ∃ ts, tlbFill s k owner vmid asid off a = { s with tlbs := ts } := by
  have hput (c : Prop) [Decidable c] (ts : Table (List TlbEnt)) : ∃ us, (if c then s else { s with tlbs := ts }) = { s with tlbs := us } := by
    by_cases hc : c
    · exact ⟨s.tlbs, if_pos hc⟩
    · exact ⟨ts, if_neg hc⟩
  unfold tlbFill
  rw [walkMet_nil he]
  split
  · exact ⟨s.tlbs, rfl⟩
  · exact hput ..

theorem reachFill_form {s : State} (he : s.errors = []) (k vmid asid : Nat) (va : W64) (r : Reach) : ∃ ts, reachFill s k vmid asid va r = { s with tlbs := ts } := by
  unfold reachFill
  split
  · exact tlbFill_form he ..
  · exact ⟨s.tlbs, walkMet_nil he ..⟩
  · exact ⟨s.tlbs, rfl⟩

theorem idle_outFill {s : State} (id : Nat) (he : s.errors = []) (i : Issuer) (va : W64) : Idle id s (outFill s i va) := by
  obtain ⟨ts, hts⟩ := reachFill_form he i.launch i.vmid i.asid va (engReach s i va .write)
  rw [outFill, hts]
  exact .of_tlbs s ts s.free

theorem idle_walkPin (s : State) (id : Nat) (dst : Bool) (va : W64) : Idle id s (walkPin s id dst va) := by
  have hmod {t : State} (h : { t with tlbs := s.tlbs } = s) (ps : List (Bool × W64)) : Idle id s (modCmd t id (fun c => { c with pins := ps })) := by
    refine ⟨(congrArg (fun x : State => { x with free := s.free, cmds := s.cmds }) h :), ?_⟩
    rw [modCmd, tGet?_tMod_self, Option.map_map, show t.cmds = s.cmds from (congrArg State.cmds h :)]
    rfl
  have hpin {u : State} (hu : { u with tlbs := s.tlbs } = s) (vmid asid : Nat) (f : Nat → Nat) : { modPin u vmid asid va f with tlbs := s.tlbs } = s :=
    (congrArg (fun x : State => { x with tlbs := s.tlbs }) (modPin_rest u vmid asid va f) :).trans hu
  unfold walkPin
  dsimp only
  generalize (if ptrHere s va then tlbFind s (ptrOwner va) (cmdAt s id).by_.vmid (cmdAt s id).by_.asid (ptrOfs va) else none) = e
  refine iteInduction (motive := Idle id s) (fun _ => .refl s) (fun _ => ?_)
  cases e with
  | none => exact hmod (unpinWalk_rest ..) _
  | some e => exact hmod (hpin (unpinWalk_rest ..) ..) _

/-! ### Free choices play no part in a translation (R314) -/

section Free

variable (s : State) (n : Nat)

theorem rdNat_free (k m : Nat) : rdNat { s with free := n } k m = rdNat s k m := rdNat_congr (fun _ _ _ => rfl)

theorem rdBytes_free (k m : Nat) : rdBytes { s with free := n } k m = rdBytes s k m := rdBytes_congr (fun _ _ _ => rfl)

theorem checkEntry_free (st : Bool) (lvl idx key : Nat) : checkEntry { s with free := n } st lvl idx key = checkEntry s st lvl idx key := by
  simp only [checkEntry, rdEntry, rdNat_free]

theorem walk2_free (owner addr : Nat) (ls : List Nat) (t : Nat) : walk2 { s with free := n } owner addr ls t = walk2 s owner addr ls t := by
  induction ls generalizing t with
  | nil => rfl
  | cons lvl more ih => simp only [walk2, checkEntry_free, ih]

theorem stage2_free (owner root addr : Nat) : stage2 { s with free := n } owner root addr = stage2 s owner root addr := by simp only [stage2, walk2_free]

theorem walk1_free (owner root off : Nat) (ls : List Nat) (t : Nat) : walk1 { s with free := n } owner root off ls t = walk1 s owner root off ls t := by
  induction ls generalizing t with
  | nil => rfl
  | cons lvl more ih => simp only [walk1, stage2_free, checkEntry_free, ih]

theorem regionEntry_free (owner root base rti : Nat) : regionEntry { s with free := n } owner root base rti = regionEntry s owner root base rti := by
  simp only [regionEntry, stage2_free, rdBytes_free]
  rfl

theorem walkAll_free (owner vmid asid off : Nat) (acc : AccKind) (m : Mode) :
    walkAll { s with free := n } owner vmid asid off acc m = walkAll s owner vmid asid off acc m := by
  simp only [walkAll, rdBytes_free, walk1_free, stage2_free, regionEntry_free]

theorem translate_free (owner vmid asid off : Nat) (acc : AccKind) (m : Mode) :
    translate { s with free := n } owner vmid asid off acc m = translate s owner vmid asid off acc m := by
  simp only [translate, tlbFind, walkAll_free]

theorem engReach_free (i : Issuer) (va : W64) (acc : AccKind) : engReach { s with free := n } i va acc = engReach s i va acc := by
  simp only [engReach, reach, translate_free]
  rfl

end Free

/-! ### What a read meets (R338) -/

theorem dataMet_nil {s : State} (he : s.errors = []) {cls : RClass} {o pa n : Nat} (h : dataBad s cls o pa n = false) (k : Nat) : dataMet s k cls o pa n = s := by
  obtain ⟨-, hmixed⟩ := Bool.or_eq_false_iff.1 h
  unfold dataMet
  simp only [meetHbm_nil he, ite_self, hmixed]
  rfl

theorem plMet_nil {s : State} (he : s.errors = []) (k desc i : Nat) : plMet s k desc i = s := by
  unfold plMet
  simp only [meetHbm_nil he]
  split
  · split <;> rfl
  · rfl

/-- Whether the write-behind buffer holds a byte of a read rests on the launch alone. -/
theorem isSome_bufferRead (s t : State) (l : Launch) (o pa : Nat) (peer : Option Nat) (va : W64) (n : Nat) :
    (bufferRead s l o pa peer va n).isSome = (bufferRead t l o pa peer va n).isSome := by
  unfold bufferRead
  dsimp only
  split <;> split <;> rfl

/-- A read of device memory that gives bytes meets no error where none is pending. -/
theorem engMet_form {s : State} (he : s.errors = []) {i : Issuer} {va : W64} {n : Nat} {got : PlGot} {bs : List Byte} (hread : engRead s i va n got = .ok bs) :
    ∃ ts k, engMet s i va n got = { s with tlbs := ts, free := k } := by
  unfold engMet
  dsimp only
  rw [engReach_free]
  cases hr : engReach s i va .read with
  | page a o pa =>
    obtain ⟨ts, hts⟩ := reachFill_form (s := { s with free := s.free + 16 }) he i.launch i.vmid i.asid va (.page a o pa)
    dsimp only
    generalize reachFill { s with free := s.free + 16 } i.launch i.vmid i.asid va (.page a o pa) = t at hts ⊢
    have het : t.errors = [] := by rw [hts]; exact he
    have hlaunch : launchAt t i.launch = launchAt s i.launch := by rw [hts]; rfl
    have hdata : dataBad t a.rclass o pa n = dataBad s a.rclass o pa n := by rw [hts]; rfl
    refine ⟨ts, s.free + 16, Eq.trans ?_ hts⟩
    split
    · rfl
    · next hnone =>
      have hbuf : bufferRead s (launchAt s i.launch) o pa none va n = none :=
        Option.not_isSome_iff_eq_none.1 (fun h => hnone (by rw [hlaunch, isSome_bufferRead t s]; exact h))
      have hpage : pageRead s got a o pa va n = .ok bs := by simpa only [engRead, hr, hbuf] using hread
      have hmet (h : ¬dataBad s a.rclass o pa n = true) : dataMet t i.launch a.rclass o pa n = t := dataMet_nil het (hdata.trans (Bool.eq_false_iff.2 h)) _
      split
      · exact edMet_nil het ..
      · exact List.foldl_fixed' (fun _ => plMet_nil het ..) _
      · next hed hpl =>
        unfold pageRead at hpage
        split at hpage
        · next g hk hg => exact absurd hg (hed g hk)
        · next g hk hg => exact absurd hg (hpl g hk)
        · split at hpage
          · cases hpage
          · next hbad => exact hmet hbad
        · split at hpage
          · cases hpage
          · next hbad => exact hmet hbad
        · cases hpage
  | _ =>
    obtain ⟨ts, hts⟩ := reachFill_form (s := { s with free := s.free + 16 }) he i.launch i.vmid i.asid va (engReach s i va .read)
    rw [hr] at hts
    exact ⟨ts, s.free + 16, hts⟩

section Unit

variable {s : State} {id : Nat} {c : Cmd} {d fo : List Byte} {walk : Bool} {i : Nat} {bs : List Byte}

theorem idle_unitMet (he : s.errors = []) {a : Nat} (hread : unitRead s c d a = .ok bs) : Idle id s (unitMet s c d a) := by
  unfold unitMet
  dsimp only
  split
  · next h0 =>
    obtain ⟨ts, k, hmet⟩ := engMet_form (s := s) (i := c.by_) (va := BitVec.ofNat 64 a) (n := 2 ^ fdUnit d) (got := c.plGot) he (by simpa only [unitRead, h0] using hread)
    rw [hmet]
    exact .of_tlbs s ts k
  · rw [meetArr_nil he]
    exact .refl s
  · rw [meetArr_nil he]
    exact .refl s
  · rw [meetArr_nil he]
    exact .refl s

/-! ### The move of a unit -/

/-- The state in which a unit's bytes have been read, and its source's page is pinned where the walk is at it. -/
def unitPinned (s : State) (id : Nat) (c : Cmd) (d : List Byte) (walk : Bool) (i : Nat) : State :=
  if walk && !(fdSrc d != 0) then walkPin (unitMet s c d (walkSrc d c.pat i)) id false (BitVec.ofNat 64 (walkSrc d c.pat i)) else unitMet s c d (walkSrc d c.pat i)

theorem idle_unitPinned (he : s.errors = []) (hread : unitRead s c d (walkSrc d c.pat i) = .ok bs) : Idle id s (unitPinned s id c d walk i) := by
  have hmet : Idle id s (unitMet s c d (walkSrc d c.pat i)) := idle_unitMet he hread
  unfold unitPinned
  split
  · exact hmet.trans (idle_walkPin ..)
  · exact hmet

/-- A move that only the second branch makes. -/
theorem moved_of_ite {p : Prop} [Decidable p] {x y : UnitOut} {t : State} (hx : x ≠ .moved t) (h : (if p then x else y) = .moved t) : y = .moved t := by
  by_cases hp : p
  · exact absurd ((if_pos hp).symm.trans h) hx
  · exact (if_neg hp).symm.trans h

/-- A unit that moves has read its bytes. -/
theorem copyUnit_moved {t : State} (hcmd : cmdAt s id = c) (hk : c.kind = .copy d fo) (h : copyUnit s id walk i = .moved t) :
    ∃ bs, unitRead s c d (walkSrc d c.pat i) = .ok bs ∧ t = unitWrite (unitPinned s id c d walk i) id c d walk i bs := by
  unfold copyUnit at h
  simp only [hcmd, hk] at h
  split at h
  · cases h
  · cases h
  · cases h
  · next bs hread =>
    split at h
    · cases h
    · cases h
    · cases h
    · have hlast := moved_of_ite (by simp) (moved_of_ite (by simp) h)
      exact ⟨bs, hread, (UnitOut.moved.inj hlast).symm⟩

theorem pagePieces_one {a : Nat} (h : a % 4096 + bs.length ≤ 4096) : pagePieces a bs = [(a, bs)] := if_pos (by omega)

/-- A unit moves whose bytes are there, whose class may go where it goes, and whose destination may be written. -/
theorem copyUnit_moves (hcmd : cmdAt s id = c) (hk : c.kind = .copy d fo) (hread : unitRead s c d (walkSrc d c.pat i) = .ok bs) (htag : fdTagsrc d = true → fdDst d ≠ 1)
    (hcls : classCode (sideClass s c (fdSrc d) (walkSrc d c.pat i) .read) ≤ classCode (sideClass s c (fdDst d) (walkDst d (i * 2 ^ fdUnit d)) .write) ∨ fdXclass d = true)
    (hdst : fdDst d = 0 → walkDst d (i * 2 ^ fdUnit d) % 4096 + bs.length ≤ 4096 ∧ engDest s c.by_ (BitVec.ofNat 64 (walkDst d (i * 2 ^ fdUnit d))) = .ok []) :
    copyUnit s id walk i = .moved (unitWrite (unitPinned s id c d walk i) id c d walk i bs) := by
  have hsame : (fdTagsrc d && fdDst d == 1) = false := by
    cases ht : fdTagsrc d with
    | false => rfl
    | true => simpa using htag ht
  have hdown : (decide (classCode (sideClass s c (fdSrc d) (walkSrc d c.pat i) .read) > classCode (sideClass s c (fdDst d) (walkDst d (i * 2 ^ fdUnit d)) .write)) &&
      !fdXclass d) = false := by
    rcases hcls with hcls | hcls
    · simp [Nat.not_lt.2 hcls]
    · simp [hcls]
  unfold copyUnit
  simp only [hcmd, hk, hread]
  by_cases h0 : fdDst d = 0
  · obtain ⟨hfit, hok⟩ := hdst h0
    rw [h0] at hdown
    simp [h0, pagePieces_one hfit, hok, hdown, unitPinned]
  · simp [h0, hsame, hdown, unitPinned]

/-! ### Where the bytes go -/

/-- A unit of device memory within a page leaves the command for its destination. -/
theorem unitWrite_device {r : State} {va : W64} {a : PageAttr} {o pa : Nat} (he : s.errors = []) (hget : tGet? s.cmds id = some c) (hr : Idle id s r) (h0 : fdDst d = 0)
    (hva : va = BitVec.ofNat 64 (walkDst d (i * 2 ^ fdUnit d))) (hfit : walkDst d (i * 2 ^ fdUnit d) % 4096 + bs.length ≤ 4096)
    (hpage : engReach (outFill r c.by_ va) c.by_ va .write = .page a o pa) :
    (unitWrite r id c d walk i bs).mem = s.mem ∧ (cmdAt (unitWrite r id c d walk i bs) id).out = c.out ++ [⟨va, o, pa, a.rclass, none, bs⟩] := by
  subst hva
  have hfill := hr.trans (idle_outFill id (hr.errors.trans he) c.by_ (BitVec.ofNat 64 (walkDst d (i * 2 ^ fdUnit d))))
  have hwrite : unitWrite r id c d walk i bs =
      (let va := BitVec.ofNat 64 (walkDst d (i * 2 ^ fdUnit d))
       let x := outFill r c.by_ va
       modCmd (modCmd (if walk then walkPin x id true va else x) id (fun k => { k with out := k.out ++ (engOut x k.by_ va bs).toList })) id
         (fun k => { k with written := k.written + bs.length })) := by
    unfold unitWrite
    simp only [h0, pagePieces_one hfit, List.foldl_cons, List.foldl_nil]
  rw [hwrite]
  dsimp only
  generalize BitVec.ofNat 64 (walkDst d (i * 2 ^ fdUnit d)) = va at hfill hpage ⊢
  have hpin : Idle id s (if walk then walkPin (outFill r c.by_ va) id true va else outFill r c.by_ va) := by
    split
    · exact hfill.trans (idle_walkPin ..)
    · exact hfill
  obtain ⟨k, hk, hkc⟩ := hpin.get hget
  have hby : k.by_ = c.by_ := (congrArg Cmd.by_ hkc :)
  have hout : k.out = c.out := (congrArg Cmd.out hkc :)
  refine ⟨hpin.mem, ?_⟩
  rw [cmdAt, modCmd, modCmd, tGet?_tMod_self, tGet?_tMod_self, hk]
  show k.out ++ (engOut (outFill r c.by_ va) k.by_ va bs).toList = _
  rw [hby, hout, engOut, hpage]
  rfl

/-! ### The command and its issuer stay -/

/-- Command id is there, of issuer j, and no error is pending. -/
def Led (id : Nat) (j : Issuer) (r : State) : Prop := r.errors = [] ∧ (tGet? r.cmds id).map Cmd.by_ = some j

namespace Led

variable {j : Issuer} {r t : State}

theorem modCmd (h : Led id j r) {f : Cmd → Cmd} (hf : ∀ k, (f k).by_ = k.by_) : Led id j (modCmd r id f) := by
  refine ⟨h.1, ?_⟩
  rw [Machine.modCmd, tGet?_tMod_self, Option.map_map, ← h.2]
  exact congrArg (fun g => (tGet? r.cmds id).map g) (funext hf)

theorem idle (h : Led id j r) (g : Idle id r t) : Led id j t := by
  refine ⟨g.errors.trans h.1, ?_⟩
  have hcmd := congrArg (fun o : Option Cmd => o.map Cmd.by_) g.cmd
  simp only [Option.map_map] at hcmd
  exact (hcmd : (tGet? t.cmds id).map Cmd.by_ = (tGet? r.cmds id).map Cmd.by_).trans h.2

theorem foldl {α : Type} {g : State → α → State} (hg : ∀ r x, Led id j r → Led id j (g r x)) (xs : List α) (h : Led id j r) : Led id j (xs.foldl g r) := by
  induction xs generalizing r with
  | nil => exact h
  | cons x xs ih => exact ih (hg r x h)

theorem get (h : Led id j r) : ∃ k, tGet? r.cmds id = some k ∧ cmdAt r id = k ∧ k.by_ = j := by
  obtain ⟨k, hk, hby⟩ := Option.map_eq_some_iff.1 h.2
  exact ⟨k, hk, by rw [cmdAt, hk, Option.getD_some], hby⟩

theorem tileBegin (h : Led id j r) (b : Nat) : Led id j (tileBegin r id b) := by
  unfold Machine.tileBegin
  dsimp only
  split
  · split
    · exact h
    · exact h.modCmd (fun _ => rfl)
  · exact h

theorem unitWrite (h : Led id j r) (c : Cmd) (d : List Byte) (walk : Bool) (i : Nat) (bs : List Byte) : Led id j (unitWrite r id c d walk i bs) := by
  unfold Machine.unitWrite
  dsimp only
  refine modCmd ?_ (fun _ => rfl)
  split
  · refine h.foldl (fun t p ht => ?_) _
    have hfill := ht.idle (idle_outFill id ht.1 c.by_ (BitVec.ofNat 64 p.1))
    refine modCmd ?_ (fun _ => rfl)
    split
    · exact hfill.idle (idle_walkPin ..)
    · exact hfill
  · exact (h.foldl (fun t k ht => ht.tileBegin _) _).modCmd (fun _ => rfl)
  · rw [coverArr_nil h.1]
    exact h

end Led

/-- A unit that moves leaves its command, with its issuer. -/
theorem led_copyUnit {t : State} (he : s.errors = []) (hget : tGet? s.cmds id = some c) (hk : c.kind = .copy d fo) (h : copyUnit s id walk i = .moved t) : Led id c.by_ t := by
  obtain ⟨bs, hread, rfl⟩ := copyUnit_moved (by rw [cmdAt, hget, Option.getD_some]) hk h
  have hled : Led id c.by_ s := ⟨he, by rw [hget]; rfl⟩
  exact (hled.idle (idle_unitPinned he hread)).unitWrite ..

/-- The bytes of a unit for scratch are held by the command until they land. -/
theorem unitWrite_scratch {r : State} {j : Issuer} (hr : Led id j r) (h1 : fdDst d = 1) {k : Nat} (hk : k < bs.length) :
    smGet none (cmdAt (unitWrite r id c d walk i bs) id).buf (i * 2 ^ fdUnit d + k) = bs[k]? := by
  have hfold (b n : Nat) (m : SMap (Option Byte)) (hn : k < n) :
      smGet none ((List.range n).foldl (fun m j => smSet none m (b + j) (some (nth 0 bs j))) m) (b + k) = some (nth 0 bs k) := by
    induction n with
    | zero => exact absurd hn (Nat.not_lt_zero k)
    | succ n ih =>
      rw [List.range_succ, List.foldl_append, List.foldl_cons, List.foldl_nil, smGet_smSet]
      by_cases hkn : n = k
      · subst hkn
        exact if_pos rfl
      · rw [if_neg (by omega)]
        exact ih (by omega)
  have hwrite : unitWrite r id c d walk i bs =
      modCmd (modCmd ((List.range bs.length).foldl (fun s j => tileBegin s id (i * 2 ^ fdUnit d + j)) r) id
        (fun k => { k with buf := (List.range bs.length).foldl (fun m j => smSet none m (i * 2 ^ fdUnit d + j) (some (nth 0 bs j))) k.buf })) id
        (fun k => { k with written := k.written + bs.length }) := by
    unfold unitWrite
    simp only [h1]
  obtain ⟨x, hx, -, -⟩ := (hr.foldl (fun t k ht => ht.tileBegin (i * 2 ^ fdUnit d + k)) (List.range bs.length)).get
  rw [hwrite, cmdAt, modCmd, modCmd, tGet?_tMod_self, tGet?_tMod_self, hx]
  show smGet none ((List.range bs.length).foldl (fun m j => smSet none m (i * 2 ^ fdUnit d + j) (some (nth 0 bs j))) x.buf) (i * 2 ^ fdUnit d + k) = _
  rw [hfold _ _ _ hk, nth_eq_getD, List.getD_eq_getElem _ _ hk, List.getElem?_eq_getElem hk]

/-- A byte after a run of writes of an array. -/
theorem smGet_arrWrite (m : SMap Byte) (a j : Nat) (bs : List Byte) :
    smGet 0 (arrWrite m a bs) j = if a ≤ j ∧ j < a + bs.length then nth 0 bs (j - a) else smGet 0 m j := by
  induction bs generalizing m a with
  | nil => exact (if_neg (by simp)).symm
  | cons b bs ih =>
    rw [arrWrite, ih, smGet_smSet, List.length_cons]
    by_cases ha : a = j
    · subst ha
      rw [if_neg (by omega), if_pos rfl, if_pos (by omega), Nat.sub_self]
      rfl
    · by_cases hj : a + 1 ≤ j ∧ j < a + 1 + bs.length
      · rw [if_pos hj, if_pos (by omega), show j - a = (j - (a + 1)) + 1 by omega]
        rfl
      · rw [if_neg hj, if_neg ha, if_neg (by omega)]

theorem arrBytes_arrWrite (m : SMap Byte) (a : Nat) (bs : List Byte) : arrBytes (arrWrite m a bs) a bs.length = bs := by
  rw [arrBytes_eq_map]
  refine ext_nth 0 (by simp) (fun i hi => ?_)
  have hi' : i < bs.length := by simpa using hi
  rw [nth_eq_getD, List.getD_eq_getElem _ _ hi, List.getElem_map, List.getElem_range, smGet_arrWrite, if_pos (by omega), Nat.add_sub_cancel_left]

/-- The bytes of a unit for the memory of a thread alone lie there at once. -/
theorem unitWrite_thread {r : State} (he : s.errors = []) (hr : Idle id s r) (h2 : fdDst d = 2) (hl : c.by_.lane < (grp s c.by_.uid).lanes.length) :
    arrBytes (lane (unitWrite r id c d walk i bs) c.by_.uid c.by_.lane).priv (walkDst d (i * 2 ^ fdUnit d)) bs.length = bs := by
  have hgrp : grp r c.by_.uid = grp s c.by_.uid := by rw [grp, hr.groups, grp]
  have hsome : (tGet? r.groups c.by_.uid).isSome = true := by
    rw [hr.groups]
    cases hg : tGet? s.groups c.by_.uid with
    | none =>
      rw [grp, hg] at hl
      exact absurd hl (Nat.not_lt_zero _)
    | some g => rfl
  have hwrite : unitWrite r id c d walk i bs = modCmd (modLane r c.by_.uid c.by_.lane (fun ln =>
      { ln with priv := arrWrite ln.priv (walkDst d (i * 2 ^ fdUnit d)) bs, privPois := unpoison ln.privPois (walkDst d (i * 2 ^ fdUnit d)) bs.length })) id
      (fun k => { k with written := k.written + bs.length }) := by
    unfold unitWrite
    simp only [h2, coverArr_nil (hr.errors.trans he)]
  have hlane : lane (unitWrite r id c d walk i bs) c.by_.uid c.by_.lane = { lane r c.by_.uid c.by_.lane with
      priv := arrWrite (lane r c.by_.uid c.by_.lane).priv (walkDst d (i * 2 ^ fdUnit d)) bs
      privPois := unpoison (lane r c.by_.uid c.by_.lane).privPois (walkDst d (i * 2 ^ fdUnit d)) bs.length } := by
    rw [hwrite]
    exact (lane_modLane r _ _ _ _ hsome (by rw [hgrp]; exact hl)).trans (if_pos rfl)
  rw [hlane]
  exact arrBytes_arrWrite ..

end Unit

end Sys2Proof.Machine
end

section
/-! The Feeder's events (R206, R257, R267 to R273), and the completions of `qfence` and `sgset` (R154, R283). -/

-- one declaration after another, so that the text as a whole is checked within its memory
set_option Elab.async false

namespace Sys2Proof.Machine

section Copy

variable {s : State} {core q id n : Nat} {c : Cmd} {d fo : List Byte} (he : s.errors = []) (hid : id < s.fresh) (hhead : headCmd s core q = some (id, c))
  (hkind : c.kind = .copy d fo) (hheld : cmdHeld s c = false)

/-! ### The start of a copy (R268, R270, R284) -/

/-- The checks of a copy at its start, in order: the fault, if any. -/
def copyRefused (s : State) (c : Cmd) (d : List Byte) : Option Cause :=
  let pat := if fdSg d then copyPat s c d else []
  if copyFields s c d = false then some .access
  else if ∃ i, i < fdUnits d ∧ walkSrc d pat i % 2 ^ fdUnit d ≠ 0 then some .align
  else if copySpaces s c d pat = false then some .access
  else if (fdDst d = 1 ∧ fdUnits d ≠ 0) ∧ fdTagsrc d = false then tagFault s c d (fdTag d % 2 ^ 16) else none

/-- A copy at its start: its tick and its pattern are noted. -/
def copyOpened (s : State) (id : Nat) (c : Cmd) (d : List Byte) : State :=
  modCmd s id (fun k => { k with t0 := s.gtick.toNat, pat := if fdSg d then copyPat s c d else [] })

/-- The tag that a copy starts with. -/
def startTag (d : List Byte) : Nat := if fdDst d = 1 ∧ fdUnits d ≠ 0 then (if fdTagsrc d then tagOpen else fdTag d % 2 ^ 16) else 0

theorem startTag_tile {d : List Byte} (hd : fdDst d = 1 ∧ fdUnits d ≠ 0) : startTag d = if fdTagsrc d then tagOpen else fdTag d % 2 ^ 16 := if_pos hd

theorem tile_iff (d : List Byte) : (fdDst d == 1 && fdUnits d != 0) = true ↔ fdDst d = 1 ∧ fdUnits d ≠ 0 := by simp

/-- A start checks the tag that the descriptor gives. -/
theorem startTag_check (s : State) (c : Cmd) (d : List Byte) :
    (if (fdDst d == 1 && fdUnits d != 0) = true ∧ startTag d ≠ tagOpen then tagFault s c d (startTag d) else none) =
      if (fdDst d = 1 ∧ fdUnits d ≠ 0) ∧ fdTagsrc d = false then tagFault s c d (fdTag d % 2 ^ 16) else none := by
  simp only [tile_iff]
  by_cases hd : fdDst d = 1 ∧ fdUnits d ≠ 0
  · rw [startTag_tile hd]
    cases ht : fdTagsrc d with
    | true => rw [if_pos rfl, if_neg (fun h => h.2 rfl), if_neg (fun h => nomatch h.2)]
    | false =>
      have hne : fdTag d % 2 ^ 16 ≠ tagOpen := by
        have := Nat.mod_lt (fdTag d) (show 0 < 2 ^ 16 by decide)
        unfold tagOpen
        omega
      rw [if_neg Bool.false_ne_true, if_pos ⟨hd, hne⟩, if_pos ⟨hd, rfl⟩]
  · rw [if_neg (fun h => hd h.1), if_neg (fun h => hd h.1)]

theorem copyBegin_eq (s : State) (id n : Nat) (c : Cmd) (d : List Byte) : copyBegin s id n c d =
    match copyRefused s c d with
    | some x => copyFault (copyOpened s id c d) id x
    | none => copyGo (modCmd (copyOpened s id c d) id (fun k => { k with state := .running, tagw := startTag d })) id n := by
  have hfields : copyFields (copyOpened s id c d) c d = copyFields s c d := rfl
  have hspaces (p : List Byte) : copySpaces (copyOpened s id c d) c d p = copySpaces s c d p := rfl
  have htag (t : Nat) : tagFault (copyOpened s id c d) c d t = tagFault s c d t := rfl
  have halign (p : List Byte) : ((List.range (fdUnits d)).any (fun i => decide (walkSrc d p i % 2 ^ fdUnit d ≠ 0)) = true) ↔
      ∃ i, i < fdUnits d ∧ walkSrc d p i % 2 ^ fdUnit d ≠ 0 := by simp
  have hstart : (if !(fdDst d == 1 && fdUnits d != 0) then 0 else if fdTagsrc d then tagOpen else fdTag d % 2 ^ 16) = startTag d := by
    unfold startTag
    by_cases hd : fdDst d = 1 ∧ fdUnits d ≠ 0
    · rw [if_pos hd, if_neg (by rw [(tile_iff d).2 hd]; exact Bool.false_ne_true)]
    · rw [if_neg hd, if_pos (by rw [Bool.eq_false_iff.2 (mt (tile_iff d).1 hd)]; rfl)]
  unfold copyBegin copyRefused
  dsimp only
  rw [hstart, show modCmd s id (fun k => { k with t0 := s.gtick.toNat, pat := if fdSg d then copyPat s c d else [] }) = copyOpened s id c d from rfl,
    hfields, hspaces, htag, startTag_check]
  simp only [halign, Bool.not_eq_true']
  generalize (if fdSg d = true then copyPat s c d else []) = pat
  split
  · rfl
  · split
    · rfl
    · split <;> rfl

theorem stands_copyOpened {f : Option Cause} {d : List Byte} (h : Stands s id c f s) : Stands s id c f (copyOpened s id c d) := h.modCmd (fun _ => rfl)

include hhead hkind hheld in
theorem copyStart_eq : exec (.feederCopyStart core ⟨q, n⟩) s =
    .next (if c.state = .queued then copyBegin s id n c d else if c.state = .running then copyGo s id n else s) := by
  show execFeederCopyStart core ⟨q, n⟩ s = _
  simp only [execFeederCopyStart, hhead, hkind, hheld, Bool.false_eq_true, if_false]

include hhead hkind hheld he hid in
/-- A copy that its checks refuse completes with their fault. -/
theorem copyStart_faults (hst : c.state = .queued) {x : Cause} (hx : copyRefused s c d = some x) :
    ∃ t, exec (.feederCopyStart core ⟨q, n⟩) s = .next t ∧ Completed s t id c (some x) (fdArrival d) := by
  refine ⟨copyFault (copyOpened s id c d) id x, by rw [copyStart_eq hhead hkind hheld, if_pos hst, copyBegin_eq, hx], ?_⟩
  exact (stands_copyOpened (Stands.here (tGet?_headCmd hhead) he hid)).copyFault hkind x

include hhead hkind hheld in
/-- One that they let through starts its walk. -/
theorem copyStart_goes (hst : c.state = .queued) (hx : copyRefused s c d = none) : exec (.feederCopyStart core ⟨q, n⟩) s =
    .next (copyGo (modCmd s id (fun k => { k with t0 := s.gtick.toNat, pat := if fdSg d then copyPat s c d else [], state := .running, tagw := startTag d })) id n) := by
  rw [copyStart_eq hhead hkind hheld, if_pos hst, copyBegin_eq, hx]
  have hmod : modCmd (copyOpened s id c d) id (fun k => { k with state := .running, tagw := startTag d }) =
      modCmd s id (fun k => { k with t0 := s.gtick.toNat, pat := if fdSg d then copyPat s c d else [], state := .running, tagw := startTag d }) := by
    rw [copyOpened, modCmd, modCmd, modCmd, tMod_tMod]
  rw [← hmod]

/-! ### Follow-ons (R257, R272) -/

/-- A follow-on stands in the compute queue. -/
def followQueued (s : State) (k : Cmd) : State :=
  modCore { s with fresh := s.fresh + 1, cmds := tPut s.cmds s.fresh k } k.by_.core (fun x => { x with queues := modNth x.queues 4 (fun l => l ++ [s.fresh]) })

/-- Its copy has it no more. -/
def followEntered (s : State) (id : Nat) (k : Cmd) : State := modCmd (followQueued s k) id (fun c => { c with followed := true, tl := false })

theorem coreAt_followQueued (s : State) (k : Cmd) :
    coreAt (followQueued s k) k.by_.core = { coreAt s k.by_.core with queues := modNth (coreAt s k.by_.core).queues 4 (fun l => l ++ [s.fresh]) } := by
  rw [followQueued, coreAt_modCore, if_pos rfl]
  rfl

/-- The follow-on of a copy. -/
def followOn (s : State) (c : Cmd) (d fo : List Byte) : Cmd :=
  { kind := .compute fo c.t0 c.t2, by_ := c.by_, srcAt := BitVec.ofNat 64 (fdFollowAt d), tl := true, cycle := s.cycle }

/-- A follow-on waits, or it enters the queue. -/
theorem followAppend_cases (s : State) (id : Nat) : followAppend s id = s ∨ ∃ k, followAppend s id = followEntered s id k := by
  unfold followAppend
  dsimp only
  split
  · split
    · exact .inl rfl
    · exact .inr ⟨followOn s (cmdAt s id) _ _, rfl⟩
  · exact .inl rfl

/-- What the landing of a copy's last byte leaves alone. -/
theorem copyLand_keeps {r : State} {k : Cmd} (hget : tGet? r.cmds id = some k) (hid : id < r.fresh) :
    (copyLand r id).gangs = r.gangs ∧ (cmdAt (copyLand r id) id).landedTiles = k.landedTiles := by
  have hcmd : cmdAt r id = k := by rw [cmdAt, hget, Option.getD_some]
  have hentered {t : State} {x : Cmd} (w : Cmd) (hx : tGet? t.cmds id = some x) (ht : id < t.fresh) : (cmdAt (followEntered t id w) id).landedTiles = x.landedTiles := by
    rw [cmdAt, followEntered, modCmd, tGet?_tMod_self]
    show (((tGet? (tPut t.cmds t.fresh w) id).map _).getD noCmd).landedTiles = _
    rw [tGet?_tPut, if_neg (Nat.ne_of_gt ht), hx]
    rfl
  unfold copyLand
  dsimp only
  split
  · split
    · rcases followAppend_cases (modCmd r id (fun c => { c with state := .landed, t2 := r.gtick.toNat })) id with h | ⟨w, h⟩
      · rw [h]
        refine ⟨rfl, ?_⟩
        rw [cmdAt, modCmd, tGet?_tMod_self, hget]
        rfl
      · rw [h]
        exact ⟨rfl, hentered (t := modCmd r id (fun c => { c with state := .landed, t2 := r.gtick.toNat })) (x := { k with state := .landed, t2 := r.gtick.toNat }) w
          (by rw [modCmd, tGet?_tMod_self, hget]; rfl) hid⟩
    · exact ⟨rfl, by rw [hcmd]⟩
  · exact ⟨rfl, by rw [hcmd]⟩

include hhead hkind hheld in
/-- A follow-on waits while the compute queue is full. -/
theorem followOn_waits (hfull : 64 ≤ (nth [] (coreAt s c.by_.core).queues 4).length) : exec (.followOnAppend core q) s = .next s := by
  have hcmd : cmdAt s id = c := by rw [cmdAt, tGet?_headCmd hhead, Option.getD_some]
  show execFollowOnAppend core q s = _
  simp only [execFollowOnAppend, hhead, hheld, Bool.false_eq_true, if_false, followAppend, hcmd, hkind, hfull, decide_true, Bool.or_true, if_true]

include hhead hkind hheld hid in
/-- Where there is room it enters the queue. -/
theorem followOn_enters (hst : c.state = .landed) (hf : fdFollow d = true) (hno : c.followed = false) (hroom : ¬64 ≤ (nth [] (coreAt s c.by_.core).queues 4).length)
    (h4 : 4 < (coreAt s c.by_.core).queues.length) :
    ∃ t, exec (.followOnAppend core q) s = .next t ∧ nth [] (coreAt t c.by_.core).queues 4 = nth [] (coreAt s c.by_.core).queues 4 ++ [s.fresh] ∧
      (cmdAt t id).followed = true ∧ (cmdAt t id).tl = false ∧ tGet? t.cmds s.fresh = some (followOn s c d fo) := by
  have hget := tGet?_headCmd hhead
  have hcmd : cmdAt s id = c := by rw [cmdAt, hget, Option.getD_some]
  have hexec : exec (.followOnAppend core q) s = .next (followEntered s id (followOn s c d fo)) := by
    show execFollowOnAppend core q s = _
    simp only [execFollowOnAppend, hhead, hheld, followAppend, hcmd, hkind, hst, hf, hno, hroom]
    rfl
  have hk : tGet? (tPut s.cmds s.fresh (followOn s c d fo)) id = some c := by rw [tGet?_tPut, if_neg (Nat.ne_of_gt hid), hget]
  have hcmd' : cmdAt (followEntered s id (followOn s c d fo)) id = { c with followed := true, tl := false } := by
    rw [cmdAt, followEntered, modCmd, tGet?_tMod_self]
    show ((tGet? (tPut s.cmds s.fresh (followOn s c d fo)) id).map _).getD noCmd = _
    rw [hk]
    rfl
  refine ⟨_, hexec, ?_, by rw [hcmd'], by rw [hcmd'], ?_⟩
  · show nth [] (coreAt (followQueued s (followOn s c d fo)) (followOn s c d fo).by_.core).queues 4 = _
    rw [coreAt_followQueued]
    exact (nth_modNth ..).trans (if_pos ⟨rfl, h4⟩)
  · rw [followEntered, modCmd, tGet?_tMod_ne _ _ (Nat.ne_of_lt hid)]
    exact tGet?_tPut_self ..

/-! ### Tiles (R206) -/

include hhead hkind hheld he hid in
/-- A tile whose last byte has landed is VALID. -/
theorem tile_lands (hst : c.state = .running) {tile : Nat} (hdue : tileDue c d tile = true) (hg : (tGet? s.gangs c.by_.gang).isSome = true) :
    ∃ t, exec (.tileLanded core q tile) s = .next t ∧ smGet 0 (gangAt t c.by_.gang).tags tile = BitVec.ofNat 32 (c.tagw % 2 ^ 16 + 2 ^ 16) ∧
      tile ∈ (cmdAt t id).landedTiles ∧ (gangAt t c.by_.gang).scratch = (tileRest s c d tile).foldl (fun m p => smSet 0 m p.1 p.2) (gangAt s c.by_.gang).scratch := by
  have hget := tGet?_headCmd hhead
  have hexec : exec (.tileLanded core q tile) s = .next (copyLand (tileLand s id c d tile) id) := by
    show execTileLanded core q tile s = _
    simp only [execTileLanded, hhead, hkind, hheld, hst, hdue]
    rfl
  obtain ⟨g, hgg⟩ := Option.isSome_iff_exists.1 hg
  have hcmd : tGet? (tileLand s id c d tile).cmds id = some { c with landedTiles := c.landedTiles ++ [tile] } := by
    show tGet? (tMod s.cmds id _) id = _
    rw [tGet?_tMod_self, hget]
    rfl
  obtain ⟨hgangs, hlanded⟩ := copyLand_keeps hcmd (show id < (tileLand s id c d tile).fresh from hid)
  have hput : scratchPut s c.by_.gang (tileRest s c d tile) = modGang s c.by_.gang (fun g => { g with
      scratch := (tileRest s c d tile).foldl (fun m p => smSet 0 m p.1 p.2) g.scratch
      scratchPois := g.scratchPois.filter (fun r => !(List.range r.2).all (fun i => (tileRest s c d tile).any (fun p => p.1 == r.1 + i))) }) := by
    rw [scratchPut, coverArr_nil he]
  have hgang : ∃ x : Gang, gangAt (copyLand (tileLand s id c d tile) id) c.by_.gang = { x with
      tags := smSet 0 x.tags tile (BitVec.ofNat 32 (c.tagw % 2 ^ 16 + 2 ^ 16)) } ∧ x.scratch = (tileRest s c d tile).foldl (fun m p => smSet 0 m p.1 p.2) g.scratch := by
    refine ⟨{ g with
      scratch := (tileRest s c d tile).foldl (fun m p => smSet 0 m p.1 p.2) g.scratch
      scratchPois := g.scratchPois.filter (fun r => !(List.range r.2).all (fun i => (tileRest s c d tile).any (fun p => p.1 == r.1 + i))) }, ?_, rfl⟩
    rw [gangAt, hgangs, tileLand, hput]
    show ((tGet? (tMod (tMod s.gangs c.by_.gang _) c.by_.gang _) c.by_.gang).getD noGang) = _
    rw [tGet?_tMod_self, tGet?_tMod_self, hgg]
    rfl
  obtain ⟨x, hx, hscratch⟩ := hgang
  refine ⟨_, hexec, ?_, ?_, ?_⟩
  · rw [hx]
    dsimp only
    rw [smGet_smSet_self]
  · rw [hlanded]
    simp
  · rw [hx, show gangAt s c.by_.gang = g by rw [gangAt, hgg, Option.getD_some]]
    exact hscratch

/-! ### Completion (R272, R279) -/

include hhead hkind hheld he hid in
theorem copy_completes (hst : c.state = .landed) (hf : fdFollow d = true → c.followed = true) (hok : ArrivalOk s c (fdArrival d)) :
    ∃ t, exec (.feederCopyComplete core q) s = .next t ∧ Completed s t id c c.fault (fdArrival d) ∧
      (fdBkt d = true → fdBucket d ∈ (launchAt s c.by_.launch).buckets →
        bucketAt t (dieOf c.by_.core) (fdBucket d) = bucketAt (bucketAdd s (dieOf c.by_.core) (fdBucket d) c.written) (dieOf c.by_.core) (fdBucket d)) := by
  have hget := tGet?_headCmd hhead
  have hcmd : cmdAt s id = c := by rw [cmdAt, hget, Option.getD_some]
  have hexec : exec (.feederCopyComplete core q) s = .next (copyFinish s id) := by
    show execFeederCopyComplete core q s = _
    have hgo : ¬(c.state ≠ .landed ∨ cmdHeld s c = true ∨ (fdFollow d = true ∧ c.followed = false)) := by
      rintro (h | h | ⟨h, hno⟩)
      · exact h hst
      · rw [hheld] at h
        cases h
      · rw [hf h] at hno
        cases hno
    simp only [execFeederCopyComplete, hhead, hkind]
    rw [if_neg hgo]
  refine ⟨_, hexec, (Stands.here hget he hid).copyFinish hkind (fun _ => hok), fun hb hk => ?_⟩
  have hcolo := beside_coloRetireIf he c.by_.core c.by_.gang s.gtick.toNat (fun x => (rowsRead c d).any (fun r => decide (x.row0 ≤ r) && decide (r < x.row0 + x.m)))
  have hfinish : copyFinish s id = completeCmd (bucketAdd (coloRetireIf s c.by_.core c.by_.gang s.gtick.toNat
      (fun x => (rowsRead c d).any (fun r => decide (x.row0 ≤ r) && decide (r < x.row0 + x.m)))) (dieOf c.by_.core) (fdBucket d) c.written) id (fdArrival d) := by
    unfold copyFinish
    simp only [hcmd, hkind, hb, Bool.true_and]
    rw [if_pos]
    rw [List.contains_iff_mem]
    rwa [hcolo.buckets c.by_.launch]
  rw [hfinish, bucketAt, show (dieAt (completeCmd _ id (fdArrival d)) (dieOf c.by_.core)).buckets = _ from (congrArg Die.buckets (bareDie_completeCmd ..) :)]
  exact bucketAt_bucketAdd_congr (show smGet {} (dieAt _ _).buckets _ = smGet {} (dieAt s _).buckets _ by
    rw [show (dieAt (coloRetireIf s _ _ _ _) (dieOf c.by_.core)).buckets = _ from (congrArg Die.buckets (hcolo.die (dieOf c.by_.core)) :)]) _

end Copy

/-! ### Fences (R154) -/

/-- A fence whose commands have all completed. -/
def qfenceDone (s : State) (j : Nat) : Bool :=
  match (cmdAt s j).kind with
  | .fence ids => !ids.any (fun k => (tGet? s.cmds k).isSome)
  | _ => false

theorem qfenceDone_iff (s : State) (j : Nat) : qfenceDone s j = true ↔ ∃ ids, (cmdAt s j).kind = .fence ids ∧ ∀ k ∈ ids, tGet? s.cmds k = none := by
  unfold qfenceDone
  constructor
  · intro h
    split at h
    · next ids hk => exact ⟨ids, hk, by simpa using h⟩
    · cases h
  · rintro ⟨ids, hk, hall⟩
    rw [hk]
    simpa using hall

theorem qfenceComplete_eq {s : State} {core : Nat} (q : Nat) (h : (coreAt s core).fenced = false) : exec (.qfenceComplete core q) s =
    .next (match (nth [] (coreAt s core).queues q).find? (qfenceDone s) with
      | some id => dropCmd s id
      | none => s) := by
  show execQfenceComplete core q s = _
  unfold execQfenceComplete
  rw [h]
  rfl

/-! ### Patterns (R283) -/

/-- A die whose table has a pattern at entry e. -/
def patSet (e : Nat) (p : List Byte) (x : Die) : Die := { x with pats := smSet [] x.pats e p }

/-- Dies ds with the pattern. -/
def patsPut (e : Nat) (p : List Byte) (ds : List Nat) (s : State) : State := ds.foldl (fun s d => modDie s d (patSet e p)) s

theorem patsPut_rest (e : Nat) (p : List Byte) (ds : List Nat) (s : State) : { patsPut e p ds s with dies := s.dies } = s := by
  induction ds generalizing s with
  | nil => rfl
  | cons k ds ih => exact (congrArg (fun x : State => { x with dies := s.dies }) (ih (modDie s k (patSet e p))) :)

theorem pats_patsPut (e : Nat) (p : List Byte) (ds : List Nat) (s : State) (d : Nat) :
    smGet [] (dieAt (patsPut e p ds s) d).pats e = if d ∈ ds then p else smGet [] (dieAt s d).pats e := by
  induction ds generalizing s with
  | nil => rfl
  | cons k ds ih =>
    rw [patsPut, List.foldl_cons]
    refine (ih (modDie s k (patSet e p))).trans ?_
    rw [dieAt_modDie]
    by_cases hk : k = d
    · subst hk
      simp [patSet]
    · simp [hk, Ne.symm hk]

theorem sgset_completes {s : State} {id e : Nat} {c : Cmd} {p : List Byte} (hget : tGet? s.cmds id = some c) (hkind : c.kind = .sgset e p) (hheld : cmdHeld s c = false) :
    ∃ t, exec (.sgsetComplete id) s = .next t ∧ Completed s t id c c.fault none ∧ ∀ d, d < 4 → smGet [] (dieAt t d).pats e = p := by
  have hexec : exec (.sgsetComplete id) s = .next (completeCmd (patsPut e p (List.range 4) s) id none) := by
    show execSgsetComplete id s = _
    simp only [execSgsetComplete, hget, hkind, hheld]
    rfl
  have hrest := patsPut_rest e p (List.range 4) s
  have hcmds : (patsPut e p (List.range 4) s).cmds = s.cmds := (congrArg State.cmds hrest :)
  have hgroups : (patsPut e p (List.range 4) s).groups = s.groups := (congrArg State.groups hrest :)
  have hgangs : (patsPut e p (List.range 4) s).gangs = s.gangs := (congrArg State.gangs hrest :)
  have hlaunches : (patsPut e p (List.range 4) s).launches = s.launches := (congrArg State.launches hrest :)
  refine ⟨_, hexec, completed_here hget hcmds hgroups (barGet_congr hgangs hlaunches) (fun b n k x hb => nomatch hb), fun d hd => ?_⟩
  rw [show (dieAt (completeCmd (patsPut e p (List.range 4) s) id none) d).pats = _ from (congrArg Die.pats (bareDie_completeCmd ..) :)]
  exact (pats_patsPut ..).trans (if_pos (List.mem_range.2 hd))

/-! ### Kicks (R280) -/

theorem kick_enters {s : State} {k : Nat} {x : Kick} {rest : List Kick} (hk : (dieAt s (dieOf x.by_.core)).kicks = x :: rest) (hb : x.bucket = k)
    (hroom : (dieAt s (dieOf x.by_.core)).collQ.length < 64) :
    ∃ t, exec (.kickAppend (dieOf x.by_.core) k) s = .next t ∧ (dieAt t (dieOf x.by_.core)).collQ = (dieAt s (dieOf x.by_.core)).collQ ++ [s.fresh] ∧
      (dieAt t (dieOf x.by_.core)).kicks = rest ∧
      bucketAt t (dieOf x.by_.core) k = { bucketAt s (dieOf x.by_.core) k with
        armed := (bucketAt s (dieOf x.by_.core) k).armed || (bucketAt s (dieOf x.by_.core) k).rearm, rearm := false } ∧
      tGet? t.cmds s.fresh = some { kind := .coll x.record, by_ := x.by_, srcAt := x.src, cycle := s.cycle } := by
  have happend : kickAppend s (dieOf x.by_.core) k = modBucket (pushColl (modDie s (dieOf x.by_.core) (fun d => { d with kicks := rest })) x.record x.by_ x.src false)
      (dieOf x.by_.core) k (fun b => { b with armed := b.armed || b.rearm, rearm := false }) := by
    unfold kickAppend
    rw [hk]
    exact if_neg (by simp [hb, Nat.not_le.2 hroom])
  have hdie : dieAt (pushColl (modDie s (dieOf x.by_.core) (fun d => { d with kicks := rest })) x.record x.by_ x.src false) (dieOf x.by_.core) =
      { dieAt s (dieOf x.by_.core) with kicks := rest, collQ := (dieAt s (dieOf x.by_.core)).collQ ++ [s.fresh] } := by
    rw [dieAt_pushColl, dieAt_modDie, if_pos rfl]
    rfl
  refine ⟨_, congrArg Host.Outcome.next happend, ?_, ?_, ?_, ?_⟩
  · rw [dieAt_modBucket, hdie]
    rfl
  · rw [dieAt_modBucket, hdie]
    rfl
  · rw [bucketAt_modBucket, bucketAt, hdie]
    rfl
  · exact tGet?_tPut_self ..

end Sys2Proof.Machine
end

section
/-! Fix-up lists (R273, R319): a segment that replays a unit, and one whose request is posted. -/

-- one declaration after another, so that the text as a whole is checked within its memory
set_option Elab.async false

namespace Sys2Proof.Machine

variable {s : State} {id n : Nat} {c : Cmd} {d fo : List Byte} {x : Segment}

theorem Led.unitPast {j : Issuer} {r : State} (h : Led id j r) (i : Nat) : Led id j (unitPast r id i) := by
  unfold Machine.unitPast
  dsimp only
  split
  · exact h
  · split
    · exact h.modCmd (fun _ => rfl)
    · exact h

section Replay

variable (hget : tGet? s.cmds id = some c) (hkind : c.kind = .copy d fo) (hheld : cmdHeld s c = false) (hst : c.state = .running)

include hget hkind hheld hst

/-- A present segment replays one unit at least. -/
theorem fixup_replays (htag : c.tagw ≠ tagOpen) (hnext : segNext c d = some x) (hn : n ≤ 1) : exec (.fixupReplay ⟨id, n⟩) s = .next (copyLand (segReplay id 1 x s) id) := by
  have hmax : max 1 n = 1 := by omega
  show execFixupReplay ⟨id, n⟩ s = _
  simp only [execFixupReplay, hget, hkind, hheld, hst, hnext, htag, hmax]
  rfl

theorem fixup_moves (he : s.errors = []) (htag : c.tagw ≠ tagOpen) (hnext : segNext c d = some x) (hn : n ≤ 1) {t : State} (helem : unitElem s id x.first = none)
    (hmove : copyUnit s id false x.first = .moved t) :
    exec (.fixupReplay ⟨id, n⟩) s = .next (copyLand (modCmd (if x.count ≤ 1 then unpinAll (unitPast t id x.first) c.by_.vmid c.by_.asid [x] else unitPast t id x.first) id
      (fun y => { y with fix := (if x.count ≤ 1 then y.fix.erase x else y.fix.map (fun z => if z = x then { x with first := x.first + 1, count := x.count - 1 } else z)) })) id) := by
  obtain ⟨k, -, hk, hby⟩ := ((led_copyUnit he hget hkind hmove).unitPast x.first).get
  rw [fixup_replays hget hkind hheld hst htag hnext hn]
  simp only [segReplay, helem, hmove]
  by_cases hc : x.count ≤ 1
  · simp only [hc, if_true, segEnd, hk, hby]
  · simp only [hc, if_false, segPut]

/-- An element of a plated page is read in a step of its own (R254). -/
theorem fixup_reads (htag : c.tagw ≠ tagOpen) (hnext : segNext c d = some x) (hn : n ≤ 1) {t : State} (helem : unitElem s id x.first = some t) :
    exec (.fixupReplay ⟨id, n⟩) s = .next (copyLand t id) := by
  rw [fixup_replays hget hkind hheld hst htag hnext hn]
  simp only [segReplay, helem]

/-- A segment whose request is posted, or shared, takes its tag. -/
theorem fixup_tags (hnone : segNext c d = none) (hun : segUnposted s c = some x) {ab : Bool} {st lv : Nat}
    (hreach : engReach s c.by_ x.va (if x.dst then .write else .read) = .fault ab st lv) :
    exec (.fixupReplay ⟨id, n⟩) s = .next (modCmd (segPost s id c d x.dst x.va.toNat ab st lv).1 id
      (fun k => { k with fix := k.fix.map (fun y => if y = x then { y with tag := (segPost s id c d x.dst x.va.toNat ab st lv).2 } else y) })) := by
  show execFixupReplay ⟨id, n⟩ s = _
  simp only [execFixupReplay, hget, hkind, hheld, hst, hnone, hun, hreach]
  rfl

/-- Without an earlier request for its page it posts one. -/
theorem fixup_posts (hnone : segNext c d = none) (hun : segUnposted s c = some x) {ab : Bool} {st lv : Nat}
    (hreach : engReach s c.by_ x.va (if x.dst then .write else .read) = .fault ab st lv)
    (hno : c.fix.find? (fun y => inSeg s y x.va.toNat && !y.present && y.tag != 0) = none) :
    ∃ t, exec (.fixupReplay ⟨id, n⟩) s = .next t ∧ (tGet? t.faults s.fresh).map (fun f => (f.r.va, f.r.tag, f.cmd)) = some (x.va, s.fresh, some id) ∧
      (cmdAt t id).fix = c.fix.map (fun y => if y = x then { y with tag := s.fresh } else y) := by
  have hany : c.fix.any (fun y => y.tag != 0 && !y.present && inSeg s y x.va.toNat) = false := by
    rw [List.any_eq_false]
    intro y hy hp
    refine List.find?_eq_none.1 hno y hy ?_
    simp only [Bool.and_eq_true] at hp ⊢
    exact ⟨⟨hp.2, hp.1.2⟩, hp.1.1⟩
  have hroom : s.faults.length < faultQueueCap := by
    have hp := List.find?_some hun
    simp only [Bool.and_eq_true, Bool.or_eq_true, decide_eq_true_eq] at hp
    exact hp.2.resolve_right (fun h => by rw [hany] at h; cases h)
  have hpost : segPost s id c d x.dst x.va.toNat ab st lv = postFault s (copyRecord s id c d x.dst x.va.toNat ab st lv) := by
    unfold segPost
    rw [hno]
  refine ⟨_, fixup_tags hget hkind hheld hst hnone hun hreach, ?_⟩
  rw [hpost, postFault, if_neg (Nat.not_le.2 hroom)]
  refine ⟨?_, ?_⟩
  · show (tGet? (tPut s.faults s.fresh _) s.fresh).map _ = _
    rw [tGet?_tPut_self]
    show some (BitVec.ofNat 64 x.va.toNat, s.fresh, some id) = _
    rw [BitVec.ofNat_toNat, BitVec.setWidth_eq]
  · rw [cmdAt, modCmd, tGet?_tMod_self]
    show (((tGet? s.cmds id).map _).getD noCmd).fix = _
    rw [hget]
    rfl

/-- An earlier one is shared. -/
theorem fixup_shares (hnone : segNext c d = none) (hun : segUnposted s c = some x) {ab : Bool} {st lv : Nat}
    (hreach : engReach s c.by_ x.va (if x.dst then .write else .read) = .fault ab st lv) {y : Segment}
    (hy : c.fix.find? (fun y => inSeg s y x.va.toNat && !y.present && y.tag != 0) = some y) :
    ∃ t, exec (.fixupReplay ⟨id, n⟩) s = .next t ∧ t.faults = s.faults ∧ (cmdAt t id).fix = c.fix.map (fun z => if z = x then { z with tag := y.tag } else z) := by
  have hpost : segPost s id c d x.dst x.va.toNat ab st lv = (s, y.tag) := by
    unfold segPost
    rw [hy]
  refine ⟨_, fixup_tags hget hkind hheld hst hnone hun hreach, ?_⟩
  rw [hpost]
  refine ⟨rfl, ?_⟩
  rw [cmdAt, modCmd, tGet?_tMod_self, hget]
  rfl

end Replay

end Sys2Proof.Machine
end

section
/-! The Feeder's events: the parts put together (R144, R154, R206, R222, R257, R267 to R273, R280). -/

-- one declaration after another, so that the text as a whole is checked within its memory
set_option Elab.async false

namespace Sys2Proof.Machine

theorem unitPinned_eq (s : State) (id : Nat) (c : Cmd) (d : List Byte) (walk : Bool) (i : Nat) : unitPinned s id c d walk i =
    if walk = true ∧ fdSrc d = 0 then walkPin (unitMet s c d (walkSrc d c.pat i)) id false (BitVec.ofNat 64 (walkSrc d c.pat i)) else unitMet s c d (walkSrc d c.pat i) := by
  unfold unitPinned
  by_cases h : walk = true ∧ fdSrc d = 0
  · rw [if_pos h, if_pos (by simp [h.1, h.2])]
  · rw [if_neg h, if_neg (by simpa using h)]

/-- A write of a command at its owner, where nothing buffers it. -/
theorem cmdPut_owner {s : State} {id : Nat} {w : OutWrite} (hsnap : NoSnap s) (hpeer : w.peer = none) (hown : w.owner = 4 → engBuffers s (cmdAt s id).by_ = false) :
    rdBytes (cmdPut s id w) (mkey w.owner w.pa) w.bs.length = w.bs ∧
      ∀ j, j < mkey w.owner w.pa ∨ mkey w.owner w.pa + w.bs.length ≤ j → rdByte (cmdPut s id w) j = rdByte s j := by
  have hput : engPut s (cmdAt s id).by_ id w = ownerWrite s (mkey w.owner w.pa) w.cls w.bs := by
    unfold engPut
    rw [hpeer]
    refine if_neg (fun h => ?_)
    rw [hown h.1] at h
    cases h.2
  have hbyte (j : Nat) : rdByte (cmdPut s id w) j = rdByte (ownerWrite s (mkey w.owner w.pa) w.cls w.bs) j := by
    rw [← hput]
    rfl
  refine ⟨?_, fun j hj => by rw [hbyte, rdByte_ownerWrite_other hsnap _ _ _ hj]⟩
  rw [← rdBytes_wrBytes s (mkey w.owner w.pa) w.bs]
  simp only [rdBytes_wrBytes]
  exact (rdBytes_congr (fun j _ _ => by rw [hbyte, rdByte_ownerWrite hsnap, rdByte_wrBytes])).trans (rdBytes_wrBytes s (mkey w.owner w.pa) w.bs)

/-- The first fence of a queue that is done leaves it, wherever it stands. -/
theorem qfence_completes {s : State} {core q id : Nat} {pre post : List Nat} (hf : (coreAt s core).fenced = false) (hq : nth [] (coreAt s core).queues q = pre ++ id :: post)
    (hnodup : (pre ++ id :: post).Nodup) (hpre : ∀ j ∈ pre, ¬qfenceDone s j = true) (hdone : qfenceDone s id = true) :
    ∃ t, exec (.qfenceComplete core q) s = .next t ∧ tGet? t.cmds id = none ∧ nth [] (coreAt t core).queues q = pre ++ post ∧ t.mem = s.mem ∧ t.groups = s.groups := by
  have hfind : (nth [] (coreAt s core).queues q).find? (qfenceDone s) = some id := by
    rw [hq, List.find?_append, List.find?_eq_none.2 hpre, Option.none_or, List.find?_cons_of_pos hdone]
  have hnot : id ∉ pre ∧ id ∉ post := by
    rw [List.nodup_append] at hnodup
    obtain ⟨-, hpost, hne⟩ := hnodup
    exact ⟨fun h => hne id h id (List.mem_cons_self ..) rfl, (List.nodup_cons.1 hpost).1⟩
  have hkeep {l : List Nat} (h : id ∉ l) : l.filter (fun k => k != id) = l := List.filter_eq_self.2 (fun k hk => by
    have hne : k ≠ id := fun heq => h (heq ▸ hk)
    simpa using hne)
  refine ⟨dropCmd s id, by rw [qfenceComplete_eq q hf, hfind], by rw [tGet?_dropCmd, if_pos rfl], ?_, (congrArg State.mem (dropCmd_rest s id) :), dropCmd_groups s id⟩
  rw [queue_dropCmd, hq, List.filter_append, List.filter_cons_of_neg (by simp), hkeep hnot.1, hkeep hnot.2]

/-- Settles O47: the events of a copy at the head of its queue, fences, units and segments, patterns, and kicks. -/
theorem feederEvents : Obligations.FeederEvents := by
  unfold Obligations.FeederEvents
  intro s core q id n c hheld hid he does die
  refine ⟨fun hhead d fo hkind => ⟨fun hst => ?_, ?_, ?_, ?_, ?_⟩, fun hfenced => ?_, fun hget => ⟨?_, ?_, ?_, ?_, ?_⟩, ?_, ?_, ?_⟩
  · intro pat toTile faults t0
    have hfaults {x : Cause} (h : copyRefused s c d = some x) : faults x := copyStart_faults he hid hhead hkind hheld hst h
    refine ⟨fun hf => hfaults (if_pos hf), fun hf i hi hne => hfaults ?_, fun hf ha => ?_⟩
    · exact (if_neg (by simp [hf])).trans (if_pos ⟨i, hi, hne⟩)
    · have haligned : copyRefused s c d = if copySpaces s c d pat = false then some .access
          else if (fdDst d = 1 ∧ fdUnits d ≠ 0) ∧ fdTagsrc d = false then tagFault s c d (fdTag d % 2 ^ 16) else none :=
        (if_neg (by simp [hf])).trans (if_neg (fun ⟨i, hi, hne⟩ => hne (ha i hi)))
      refine ⟨fun hs => hfaults (haligned.trans (if_pos hs)), fun hs => ⟨fun x ht hsrc hx => hfaults ?_, fun hok => ?_⟩⟩
      · exact haligned.trans ((if_neg (by simp [hs])).trans ((if_pos ⟨ht, hsrc⟩).trans hx))
      · refine copyStart_goes hhead hkind hheld hst (haligned.trans ((if_neg (by simp [hs])).trans ?_))
        split
        · next h => exact hok h.1 h.2
        · rfl
  · intro hst
    rw [copyStart_eq hhead hkind hheld, if_neg (by simp [hst]), if_pos hst]
  · intro hst tile hdue hg
    exact tile_lands he hid hhead hkind hheld hst hdue hg
  · intro hst hf hno full
    exact ⟨followOn_waits hhead hkind hheld, fun hroom h4 => followOn_enters hid hhead hkind hheld hst hf hno hroom h4⟩
  · intro hst hf hok
    exact copy_completes he hid hhead hkind hheld hst hf hok
  · intro queue done
    have hdone (j : Nat) : done j ↔ qfenceDone s j = true := (qfenceDone_iff s j).symm
    refine ⟨fun hall => ?_, fun pre post hq hnodup hpre hid' => ?_⟩
    · rw [qfenceComplete_eq q hfenced, List.find?_eq_none.2 (fun j hj => mt (hdone j).2 (hall j hj))]
    · exact qfence_completes hfenced hq (hq ▸ hnodup) (fun j hj => mt (hdone j).2 (hpre j hj)) ((hdone id).1 hid')
  · intro d fo i bs hkind hread htag da cls hcls
    have hcmd : cmdAt s id = c := by rw [cmdAt, hget, Option.getD_some]
    have hidle (walk : Bool) : Idle id s (unitPinned s id c d walk i) := idle_unitPinned he hread
    refine ⟨?_, fun walk h1 => ?_, fun walk h2 hl => ?_⟩
    · intro walk a o pa h0 hfit hreach hord met pinned hpage
      have hdest : engDest s c.by_ (BitVec.ofNat 64 da) = .ok [] := by
        rw [engDest, hreach]
        exact if_pos hord
      rw [show pinned = unitPinned s id c d walk i from (unitPinned_eq ..).symm] at hpage
      obtain ⟨hmem, hout⟩ := unitWrite_device (walk := walk) he hget (hidle walk) h0 rfl hfit hpage
      exact ⟨_, copyUnit_moves hcmd hkind hread htag hcls (fun _ => ⟨hfit, hdest⟩), hmem, hout⟩
    · refine ⟨_, copyUnit_moves hcmd hkind hread htag hcls (fun h0 => by rw [h0] at h1; cases h1), fun j hj => ?_⟩
      have hled : Led id c.by_ s := ⟨he, by rw [hget]; rfl⟩
      exact unitWrite_scratch (hled.idle (hidle walk)) h1 hj
    · exact ⟨_, copyUnit_moves hcmd hkind hread htag hcls (fun h0 => by rw [h0] at h2; cases h2), unitWrite_thread he (hidle walk) h2 hl⟩
  · intro w hsnap hpeer hown
    exact cmdPut_owner hsnap hpeer (by rwa [cmdAt, hget, Option.getD_some])
  · intro d fo x t hkind hst htag hnodup hnext hn
    exact ⟨fun helem hmove => fixup_moves hget hkind hheld hst he htag hnext hn helem hmove, fun helem => fixup_reads hget hkind hheld hst htag hnext hn helem⟩
  · intro d fo x ab st lv hkind hst hnone hun hreach earlier tagged
    exact ⟨fun hno => fixup_posts hget hkind hheld hst hnone hun hreach hno, fun y hy => fixup_shares hget hkind hheld hst hnone hun hreach hy⟩
  · intro e p hkind
    exact sgset_completes hget hkind hheld
  · intro d k hk
    show Host.Outcome.next (kickAppend s d k) = _
    rw [kickAppend, hk]
  · intro d k x rest hk hwait
    show Host.Outcome.next (kickAppend s d k) = _
    rw [kickAppend, hk]
    exact congrArg Host.Outcome.next (if_pos hwait)
  · intro d k x rest hk hb hd hroom
    subst hd
    exact kick_enters hk hb hroom

end Sys2Proof.Machine
end
